-- ==== Sys2Proof/Word.lean ====
section
/-! DEFINITION. The words of the D9 and the names of its registers (01_machine.md R10, 03_formats.md R37 to R43). -/

namespace Sys2Proof

/-- A scalar register's contents, a generic address, a literal (R10, R23, R35). -/
abbrev Word := BitVec 64

/-- One byte of any memory (R4). -/
abbrev Byte := BitVec 8

/-- The contents of a vector tile register: 1,024 bytes, byte 0 in the low bits (R10, R140). -/
abbrev Tile := BitVec 8192

/-- The contents of a row-mask predicate register, bit i governing row i (R10). -/
abbrev Mask := BitVec 32

/-- The number of a scalar register (R37). -/
abbrev XReg := Fin 64

/-- The number of a vector register (R41, R43). -/
abbrev VReg := Fin 16

/-- The number of a predicate register (R39, R43). -/
abbrev PReg := Fin 8

/-- The number of a loop level (R73). -/
abbrev Level := Fin 3

end Sys2Proof
end

