-- ==== Sys2Proof/Config.lean ====
section
/-! DEFINITION. What the spec leaves open: values that nothing here fixes. Each is a constant without a body, so that a
proof can use no value of it; the counter `free` of the state makes each use a fresh one (log 5). -/

namespace Sys2Proof.Config

/-- The global virtual address of a launch's task queue, by launch id, up to a multiple of 2 MiB (14_scheduling.md R282 gives
the queue no address; log 5). -/
opaque taskQueue : Nat → BitVec 57

/-- The die whose memory backs a launch's task queue, by launch id (14_scheduling.md R282, 22_containment.md R389; log 5). -/
opaque taskQueueDie : Nat → BitVec 4

/-- After how many entries a copy of a tephra ring is cut short, by the use that the counter numbers (22_containment.md R392; log 5). -/
opaque tephraCut : Nat → Nat

/-- The raw DEFLATE stream that a pooled engine writes for the use that the counter numbers: its length in bytes, which
the source's length bounds nowhere (19_isolation.md R344; log 10). -/
opaque deflateLength : Nat → Nat
/-- Byte `i` of that stream. -/
opaque deflateByte : Nat → Nat → Byte

/-- A word to which the spec gives no value, by use: an argument of a tephra event (22_containment.md R391), the weights
base that `ROUTE.info` writes for a replica that does not exist (16_experts.md R316), and others of log 5. -/
opaque openWord : Nat → BitVec 64

/-- The rate word that the discipline sets at a correction, by use (15_deadlines.md R294; log 7). -/
opaque rateWord : Nat → BitVec 48

/-- The base of a new replica's weights that Caldera chooses (16_experts.md R317 step 2; log 14). -/
opaque replicaBase : Nat → BitVec 57
/-- The host-physical frame of its weights on the chosen die (R317; log 14). -/
opaque replicaFrame : Nat → Nat

/-- How many granules a command of Caldera's copies carries, less one (R317; log 14). -/
opaque replicaStretch : Nat → Nat

/-- The context, within its partition, of a launch queue that `CFG.queue` creates, and of the weights of a replica table that
the physical function creates: the parameter blocks name none (19_isolation.md R327, R348; log 20). -/
opaque openContext : Nat → BitVec 4

/-- The rates in MB/s of the load/store mesh, the bulk mesh and the die-to-die links, which R291 bounds the grants by and
the spec does not give (14_scheduling.md R291; log 20). -/
opaque resourceRate : Nat → Nat

/-- Byte `i` of a part of a save area whose layout R374 leaves open, by use: the control block of a slice record and the
64 bytes that describe a held arrival (21_traps.md R374; log 22). -/
opaque saveByte : Nat → Nat → Byte

/-- Byte `i` of an SPDM response (23_module.md R401 names the messages and gives no contents; log 11). -/
opaque spdmByte : Nat → Nat → Byte
/-- The length of an SPDM response. -/
opaque spdmLength : Nat → Nat

/-- The outcome of a step of the start sequence: 1 passed, 2 passed the alternate way, 3 skipped, 4 failed, by use and
step (23_module.md R403; log 12). -/
opaque startOutcome : Nat → Nat → Nat
/-- The version of the firmware image in a slot, 0 the primary and 1 the backup, by use (23_module.md R401; log 12). -/
opaque imageVersion : Nat → Nat → BitVec 32
/-- The dies that a per-die part of a step of the start marks failed (R403; log 12). -/
opaque startFailed : Nat → Nat → BitVec 16
/-- Milliseconds and detail of a step of the start (R393; log 12). -/
opaque startDetail : Nat → Nat → BitVec 64

end Sys2Proof.Config
end

