-- ==== Sys2Proof/Machine/Assoc.lean ====
section
/-! DEFINITION. Sparse data in one canonical form: association lists by strictly rising number that list no default
value, memories as lists of cells that list no zero byte (log 4), and sets of numbers as strictly rising lists. -/

namespace Sys2Proof.Machine

/-- Data by number. -/
abbrev Assoc (α : Type) := List (Nat × α)

/-- The entry under a number. -/
def Assoc.find? {α : Type} : Assoc α → Nat → Option α
  | [], _ => none
  | (j, a) :: m, k => if j = k then some a else Assoc.find? m k

/-- The entry under a number, or the default. -/
def Assoc.get {α : Type} (m : Assoc α) (d : α) (k : Nat) : α := (m.find? k).getD d

/-- The entries below a number. -/
def Assoc.below {α : Type} (m : Assoc α) (k : Nat) : Assoc α := m.filter fun e => e.1 < k
/-- The entries above a number. -/
def Assoc.above {α : Type} (m : Assoc α) (k : Nat) : Assoc α := m.filter fun e => k < e.1

/-- Lists an entry. -/
def Assoc.put {α : Type} (m : Assoc α) (k : Nat) (a : α) : Assoc α := m.below k ++ (k, a) :: m.above k

/-- Removes an entry. -/
def Assoc.del {α : Type} (m : Assoc α) (k : Nat) : Assoc α := m.below k ++ m.above k

/-- Sets an entry; the default is not listed. -/
def Assoc.set {α : Type} [DecidableEq α] (m : Assoc α) (d : α) (k : Nat) (a : α) : Assoc α :=
  if a = d then m.del k else m.put k a

/-- The numbers listed. -/
def Assoc.keys {α : Type} (m : Assoc α) : List Nat := m.map Prod.fst

/-- Strictly rising numbers. -/
def rising : List Nat → Bool
  | [] => true
  | [_] => true
  | a :: b :: l => a < b && rising (b :: l)

/-- A set of numbers with one added. -/
def setAdd (l : List Nat) (k : Nat) : List Nat := l.filter (· < k) ++ k :: l.filter (k < ·)
/-- A set of numbers with one removed. -/
def setDel (l : List Nat) (k : Nat) : List Nat := l.filter (· < k) ++ l.filter (k < ·)

/-! Memories. -/

/-- A memory: the bytes that are not zero, by rising address (R22, R339, R403 step 7; log 4). -/
abbrev Memory := List Host.Cell

/-- The canonical form. -/
def Memory.wf (m : Memory) : Bool := rising (m.map Prod.fst) && m.all fun c => c.2 != 0

/-- One byte. -/
def Memory.byte : Memory → Nat → Byte
  | [], _ => 0
  | (a, b) :: m, k => if a = k then b else Memory.byte m k

/-- The cells of a range. -/
def Memory.within (m : Memory) (a n : Nat) : Memory := m.filter fun c => a ≤ c.1 && c.1 < a + n

/-- The bytes of a range. -/
def Memory.read (m : Memory) (a n : Nat) : List Byte :=
  let r := m.within a n
  (List.range n).map fun i => r.byte (a + i)

/-- The cells that a list of bytes gives from an address on. -/
def cellsFrom (a : Nat) : List Byte → Memory
  | [] => []
  | b :: bs => if b = 0 then cellsFrom (a + 1) bs else (a, b) :: cellsFrom (a + 1) bs

/-- Writes bytes from an address on. -/
def Memory.write (m : Memory) (a : Nat) (bs : List Byte) : Memory :=
  m.filter (fun c => c.1 < a) ++ cellsFrom a bs ++ m.filter (fun c => a + bs.length ≤ c.1)

/-- Fills a range with zeros. -/
def Memory.zero (m : Memory) (a n : Nat) : Memory := m.filter fun c => c.1 < a || a + n ≤ c.1

/-- The number that bytes form, least significant first (R4). -/
def leNat : List Byte → Nat
  | [] => 0
  | b :: bs => b.toNat + 256 * leNat bs

/-- The bytes of a number, least significant first (R4). -/
def leBytes : Nat → Nat → List Byte
  | 0, _ => []
  | n + 1, w => BitVec.ofNat 8 w :: leBytes n (w / 256)

/-- A number of `n` bytes at an address. -/
def Memory.readNat (m : Memory) (a n : Nat) : Nat := leNat (m.read a n)

/-- Writes a number of `n` bytes at an address. -/
def Memory.writeNat (m : Memory) (a n v : Nat) : Memory := m.write a (leBytes n v)

end Sys2Proof.Machine
end

