-- ==== Sys2Proof/Syntax.lean ====
section
/-! DEFINITION. The instruction type: one constructor per row of spec/opcode_table.json. The operands are the fields
that the spec's encodings give (03_formats.md R37 to R46 and the instruction tables of the later files). Rows that the
table gives no encoding are the steps of units, scheduler, host and module (95_what_each_step_holds.md); their operands
say which unit, and with which outside data, the step is made. -/

namespace Sys2Proof

/-- The types of R47 with their 5-bit codes. -/
inductive Ty where
  | n8 | s8 | n16 | s16 | n32 | s32 | n64 | s64
  | f32 | bf16 | f16 | e4m3 | e5m2 | d8
  | mx4 | mx6 | mx6a | mx8 | dx8
  deriving DecidableEq, Repr

/-- The rounding field of word 2 (R42): by `%frm`, or one of the five modes. -/
inductive Rm where
  | frm | rne | rtz | rdn | rup | sr
  deriving DecidableEq, Repr

/-- The integer conditions of `BCMP`, `CMP` and `CMPI` (R71, R127). -/
inductive ICond where
  | eq | ne | lt | ge | ltu | geu
  deriving DecidableEq, Repr

/-- The floating conditions of `CMP` (R127). -/
inductive FCond where
  | feq | fne | flt | fle | fun_
  deriving DecidableEq, Repr

/-- The conditions of `CMP` (R127). -/
inductive Cond where
  | int (c : ICond)
  | flt (c : FCond)
  deriving DecidableEq, Repr

/-- The quantifier of `BC` and `LBRK` (R39, R72). -/
inductive Quant where
  | any | all | none
  deriving DecidableEq, Repr

/-- The four mesh directions (R81, R243). -/
inductive Dir where
  | e | s | w | n
  deriving DecidableEq, Repr

/-- `ADD` and `SUB`: wrapping, signed saturating, unsigned saturating (R122). -/
inductive AddFn where
  | wrap | sat | usat
  deriving DecidableEq, Repr

/-- `MULHI`: signed, unsigned, signed times unsigned (R122). -/
inductive MulhiFn where
  | s | u | su
  deriving DecidableEq, Repr

/-- `CLZ` and its forms (R122). -/
inductive ClzFn where
  | lz | lzw | tz | tzw
  deriving DecidableEq, Repr

/-- The amount of a scalar shift: a register, or the field `b` itself (R122). -/
inductive ShAmt where
  | reg (b : XReg)
  | imm (s : Fin 64)
  deriving DecidableEq, Repr

/-- The operations of `SFOP` (R133). -/
inductive SfFn where
  | add | sub | mul | div | min | max | sqrt | rcp | rsqrt | exp2 | log2 | abs | neg | cls
  deriving DecidableEq, Repr

/-- The scalar floating types of the extended `SFOP` and `SFMA` (R133). -/
inductive FTy where
  | f32 | bf16 | f16
  deriving DecidableEq, Repr

/-- The offset part of a form-M address (R40): `disp8` units, or an index register scaled by 1, 2, 4 or 8. -/
inductive MOff where
  | disp (d : BitVec 8)
  | index (sc : Fin 4) (xi : XReg)
  deriving DecidableEq, Repr

/-- A form-M address: base register and offset (R40). -/
structure MAddr where
  base : XReg
  off  : MOff
  deriving DecidableEq, Repr

/-- The access size of `LD`, `ST` and `ATOM` (R40). -/
inductive MSize where
  | b | h | w | d
  deriving DecidableEq, Repr

/-- The scopes of R203 with their codes (R227). -/
inductive Scope where
  | core | cl | die | mod | sys
  deriving DecidableEq, Repr

/-- The ordering field of `ATOM` and `ATOMV` (R230): which of acquire and release it carries, and the scope. -/
structure AtomOrd where
  acq   : Bool
  rel   : Bool
  scope : Scope
  deriving DecidableEq, Repr

/-- The operations of `ATOM` (R230). -/
inductive AtomOp where
  | swap | cas | add | and | or | xor | smin | smax | umin | umax | fadd | fmin | fmax
  deriving DecidableEq, Repr

/-- The operations of `ATOMV` (R231). -/
inductive AtomvOp where
  | swap
  | add (t : Ty)
  | min (t : Ty)
  | max (t : Ty)
  deriving DecidableEq, Repr

/-- The kinds of `FENCE` (R232). -/
inductive FenceKind where
  | acq | rel | full
  deriving DecidableEq, Repr

/-- The conditions of `WAITW` (R91). -/
inductive WaitCond where
  | eq | ne | chg
  deriving DecidableEq, Repr

/-- The codes that `VALID` writes (R304). -/
inductive VCode where
  | absent | partial_ | complete
  deriving DecidableEq, Repr

/-- The row mask and zeroing bit of a masked instruction (R141). -/
structure VMask where
  p : PReg
  z : Bool
  deriving DecidableEq, Repr

/-- Word 2 of an extended V-form instruction (R42, R144): the overriding type, if any, and the rounding field. -/
structure VX where
  ty : Option Ty
  rm : Rm
  deriving DecidableEq, Repr

/-- Operand B of an element-wise instruction: a vector register, or the broadcast scalar of `.xb` (R144). -/
inductive VSrc where
  | vec (r : VReg)
  | xb (c : XReg)
  deriving DecidableEq, Repr

/-- The shift amount of `VSHF` (R148). -/
inductive VAmt where
  | vec (r : VReg)
  | xb (c : XReg)
  | imm (i : BitVec 32)
  deriving DecidableEq, Repr

/-- Plain or saturating (`VADD`, `VSUB`, `VCVT`, `VDOT`; R145, R155, R160). -/
inductive VSat where
  | plain | sat
  deriving DecidableEq, Repr

/-- The codes of `VMUL` (R145). -/
inductive VMulFn where
  | plain | hi | sat
  deriving DecidableEq, Repr

/-- The codes of `VMINMAX` (R145). -/
inductive VMmFn where
  | min | max | minp | maxp
  deriving DecidableEq, Repr

/-- The codes of `VCMP` (R145). -/
inductive VCmpFn where
  | eq | ne | lt | le | un
  deriving DecidableEq, Repr

/-- The codes of `VLOG` (R145). -/
inductive VLogFn where
  | and | or | xor | andn | not
  deriving DecidableEq, Repr

/-- The codes of `VSHF` (R145). -/
inductive VShfFn where
  | shl | shr | sar
  deriving DecidableEq, Repr

/-- The functions of `VSFU` (R161). -/
inductive VSfuFn where
  | exp2 | log2 | rcp | rsqrt | sqrt | sinpi | cospi | tanh
  deriving DecidableEq, Repr

/-- The codes of `VRED` (R163). -/
inductive VRedFn where
  | sum | max | min | csum | cmax | cmin
  deriving DecidableEq, Repr

/-- The codes of `VSCAN` (R164). -/
inductive VScanFn where
  | sum | esum | max | csum | cesum
  deriving DecidableEq, Repr

/-- The codes of `VIOTA` (R151). -/
inductive VIotaFn where
  | col | row | lin
  deriving DecidableEq, Repr

/-- The register forms of `VMOV` (R150). -/
inductive VMovFn where
  | copy | brow | bcol
  deriving DecidableEq, Repr

/-- The predicate forms of `VMASK` (R147). -/
inductive VMaskFn where
  | any | all | col0
  deriving DecidableEq, Repr

/-- Word 2 of an extended tile load or store, with its byte displacement (R165). -/
structure MX where
  imm : BitVec 32
  m   : VMask
  ty  : Option Ty
  deriving DecidableEq, Repr

/-- A bank operand (R180): the issuing core's own bank, or a named one. -/
inductive BankOp where
  | own
  | acc (bank : Fin 2) (quad : Fin 4)
  deriving DecidableEq, Repr

/-- A quadrant operand (R180). -/
inductive QuadOp where
  | own
  | q (quad : Fin 4)
  deriving DecidableEq, Repr

/-- The target operand of `CFG` (R347): a register, or the literal. -/
inductive CfgTarget where
  | reg (b : XReg)
  | lit (v : Word)
  deriving DecidableEq, Repr

/-- The special registers of R54. -/
inductive SReg where
  | vs | fflags | frm | dom | pri | core | chain | launch | task | sqn | srseed
  | steep | steepPc | steepLc | trap
  deriving DecidableEq, Repr

/-- The name of a counting network in the model: by what made it (R257). -/
inductive NetKey where
  | launch (lid : Nat) (idx : Fin 4)
  | part (p : Nat) (idx : Nat)
  | spread (tbl expert : Nat)
  | cap (tbl serial : Nat)
  | flight (tbl ver : Nat)
  | queue (lid : Nat) (tail : Bool)
  deriving DecidableEq, Repr

/-- Which of the things under way a step moves on, the `i`-th, and which of its granules, the `g`-th (R237, R338). -/
structure LandStep where
  i : Nat
  g : Nat
  deriving DecidableEq, Repr
/-- What a step of a cluster's matrix unit does: the groups' turns, or the landing of item `g` of those that its drains may land
(R184, R194). -/
structure TurnStep where
  cluster : Nat
  land    : Option Nat
  deriving DecidableEq, Repr
/-- Which held store a step performs, and at which scope (R207 to R212). -/
structure PerformStep where
  i  : Nat
  sc : Scope
  deriving DecidableEq, Repr
/-- Where a bank unit steps: the partition and guest-physical address of a translated access, and its host-physical address. -/
structure UnitAt where
  part : Nat
  gpa  : Nat
  hpa  : Nat
  deriving DecidableEq, Repr
/-- A put from a peer comes with its bytes, or one that is landing goes on. -/
inductive PutStep where
  | comes (data : List Byte)
  | lands (q : LandStep)
  deriving DecidableEq, Repr

/-- The hand-off of the `i`-th put, and whether the peer rejects its landing (R221, R399). -/
structure HandStep where
  i  : Nat
  no : Bool
  deriving DecidableEq, Repr
/-- The data set of an announce message, with its domain and the identity of the port that sent it (R400; IEEE 1588-2019, log 11). -/
structure Announce where
  domain : BitVec 7
  src    : BitVec 80
  prio1  : BitVec 8
  cls    : BitVec 8
  acc    : BitVec 8
  var    : BitVec 16
  prio2  : BitVec 8
  gm     : BitVec 64
  steps  : BitVec 16
  deriving DecidableEq, Repr
/-- What a timing message brings, with its domain and its sender (R400). -/
structure PtpMsg where
  domain : BitVec 7
  src    : BitVec 80
  value  : Int
  deriving DecidableEq, Repr

/-- The instructions and steps: one constructor per row of spec/opcode_table.json: the
instruction forms in the table's order, then the steps. -/
inductive Instr where
  -- control (R44, R46, R63 to R89)
  | ill (code : BitVec 23)
  | nop (n : Fin 2048)
  | br (disp : BitVec 17)
  | brAbsolute (t : Word)
  | bc (q : Quant) (p : PReg) (disp : BitVec 17)
  | bcmp (c : ICond) (a b : XReg) (disp : BitVec 32)
  | jr (a : XReg)
  | call (disp : BitVec 17)
  | callAbsolute (t : Word)
  | ret (a : XReg)
  | loop (l : Level) (e : Fin 2048) (count : BitVec 32)
  | loopr (l : Level) (a : XReg) (e : Fin 2048)
  | lbrk (l : Level) (q : Quant) (p : PReg)
  | phaseX
  | phaseC
  | chainLeave
  | chainForm (rows : Fin 8) (cols : Fin 32)
  | xferVector (dir : Dir) (d a : VReg)
  | xferScalar (dir : Dir) (d a : XReg)
  | done
  | exit (a : XReg)
  -- scalar (R122 to R136)
  | add (f : AddFn) (d a b : XReg)
  | addLiteral (f : AddFn) (d a : XReg) (v : Word)
  | sub (f : AddFn) (d a b : XReg)
  | subLiteral (f : AddFn) (d a : XReg) (v : Word)
  | addi (d a : XReg) (i : BitVec 11)
  | mul (d a b : XReg)
  | mulLiteral (d a : XReg) (v : Word)
  | mulhi (f : MulhiFn) (d a b : XReg)
  | mulhiLiteral (f : MulhiFn) (d a : XReg) (v : Word)
  | mad (neg : Bool) (d a b : XReg)
  | div (u : Bool) (d a b : XReg)
  | divLiteral (u : Bool) (d a : XReg) (v : Word)
  | rem (u : Bool) (d a b : XReg)
  | remLiteral (u : Bool) (d a : XReg) (v : Word)
  | and (n : Bool) (d a b : XReg)
  | andLiteral (n : Bool) (d a : XReg) (v : Word)
  | or (n : Bool) (d a b : XReg)
  | orLiteral (n : Bool) (d a : XReg) (v : Word)
  | xor (n : Bool) (d a b : XReg)
  | xorLiteral (n : Bool) (d a : XReg) (v : Word)
  | shl (d a : XReg) (s : ShAmt)
  | shr (d a : XReg) (s : ShAmt)
  | sar (d a : XReg) (s : ShAmt)
  | bfx (d a : XReg) (pos : Fin 64) (wid : Fin 32)
  | bfxExtended (sx : Bool) (d a : XReg) (pos : Fin 64) (wid : Fin 64)
  | bfi (d a : XReg) (pos : Fin 64) (wid : Fin 32)
  | bfiExtended (d a : XReg) (pos : Fin 64) (wid : Fin 64)
  | cmp (c : Cond) (p : PReg) (a b : XReg)
  | cmpLiteral (c : Cond) (p : PReg) (a : XReg) (v : Word)
  | cmpi (c : ICond) (p : PReg) (a : XReg) (i : BitVec 11)
  | sel (d a b : XReg) (p : PReg)
  | min (u : Bool) (d a b : XReg)
  | minLiteral (u : Bool) (d a : XReg) (v : Word)
  | max (u : Bool) (d a b : XReg)
  | maxLiteral (u : Bool) (d a : XReg) (v : Word)
  | clz (f : ClzFn) (d a : XReg)
  | popc (w : Bool) (d a : XReg)
  | li (d : XReg) (i : BitVec 11)
  | liLiteral (d : XReg) (v : Word)
  | plog (t : BitVec 4) (d a b : PReg)
  | plogFromx (d : PReg) (a : XReg)
  | plogTox (d : XReg) (a : PReg)
  | srd (d : XReg) (n : SReg)
  | swr (n : SReg) (a : XReg)
  | time (d : XReg)
  | timeFx (d : XReg)
  | lea (d : XReg) (m : MAddr)
  | leaExtended (d : XReg) (m : MAddr) (imm : BitVec 32)
  | sfop (f : SfFn) (d a b : XReg)
  | sfopExtended (f : SfFn) (ty : Option FTy) (rm : Rm) (d a b : XReg)
  | sfma (neg sub : Bool) (d a b : XReg)
  | sfmaExtended (neg sub : Bool) (ty : Option FTy) (rm : Rm) (d a b : XReg)
  | scvt (target source : Ty) (sat : Bool) (d a : XReg)
  | scvtExtended (target source : Ty) (sat : Bool) (rm : Rm) (d a : XReg)
  -- memory (R90, R91, R227 to R245)
  | ld (sz : MSize) (d : XReg) (m : MAddr)
  | ldExtended (sz : MSize) (d : XReg) (m : MAddr) (imm : BitVec 32) (acq : Option Scope) (sx : Bool)
  | st (sz : MSize) (m : MAddr) (d : XReg)
  | stExtended (sz : MSize) (m : MAddr) (d : XReg) (imm : BitVec 32) (rel : Option Scope)
  | memoryStorePerform (q : PerformStep)
  | ldf (keep : Bool) (d : XReg) (m : MAddr) (x : Option (BitVec 32))
  | stf (m : MAddr) (d : XReg) (x : Option (BitVec 32))
  | atom (op : AtomOp) (sz : MSize) (o : AtomOrd) (d a b c : XReg) (imm : BitVec 32)
  | atomv (op : AtomvOp) (o : AtomOrd) (d e a b c : XReg) (imm : BitVec 32)
  | watch (m : MAddr)
  | waitw (c : WaitCond) (d a : XReg)
  | fence (k : FenceKind) (s : Scope)
  | bar (tag : Fin 4) (d : XReg)
  | barrierGenerationComplete (lid level dom : Nat) (tag : Fin 4)
  | cntToken (d a : XReg) (wire : Option XReg)
  | cntAntiToken (d a : XReg) (wire : Option XReg)
  | balancerStep (key : NetKey) (i : Nat)
  | exitStep (key : NetKey) (i : Nat)
  | killCompensation (key : NetKey) (i : Nat)
  | recv (anytag : Bool) (d a b c : XReg) (tag : BitVec 32)
  | send (mc : Bool) (d a b c : XReg) (tag : BitVec 32) (pe : PReg)
  | sendLiteral (mc : Bool) (d c : XReg) (tag : BitVec 32) (pe : PReg) (v : Word)
  | messageArrival (q : LandStep)
  | sendn (dir : Dir) (d a b c : XReg) (pe : PReg)
  | halo (dirs : BitVec 4) (d a b c : XReg) (q : BitVec 32) (pe : PReg)
  | neighbourArrival (q : LandStep)
  | probe (anytag : Bool) (d a b : XReg)
  | copyIn (win : Bool) (d a b c e : XReg) (w1 : BitVec 32) (pe : PReg)
  | copyOut (win : Bool) (d a b c e : XReg) (w1 : BitVec 32) (pe : PReg)
  | gather (i64 : Bool) (ty : Ty) (d a b c e : XReg) (stride : BitVec 32) (pe : PReg)
  | scatter (i64 : Bool) (ty : Ty) (d a b c e : XReg) (stride : BitVec 32) (pe : PReg)
  | put (d a b c e : XReg) (pe : PReg)
  | engineStampWrite (q : LandStep)
  | putHandoff (q : HandStep)
  | publish (a : XReg)
  | shadow (d a : XReg)
  -- launches, traps, live points, validity, routing (R285 to R316, R364 to R372)
  | launch (child : Bool) (d a b : XReg)
  | task (d a : XReg)
  | join (d a b : XReg)
  | joinDecrement (lid : Nat) (va : Word)
  | trap (n : BitVec 11)
  | brk (n : BitVec 11)
  | eret
  | eretSkip
  | eretTo (a : XReg)
  | live (d b : XReg)
  | liveLiteral (d : XReg) (v : Word)
  | yield (d : XReg)
  | yieldPoll (d : XReg)
  | valid (c : VCode) (a b : XReg)
  | validImmediate (c : VCode) (a : XReg) (n : BitVec 32)
  | validOpen (a b : XReg)
  | validOpenImmediate (a : XReg) (n : BitVec 32)
  | routeDisp (d a : VReg) (kc : Fin 8) (s : Fin 4) (m : VMask)
  | routeRedir (d a : VReg) (kc : Fin 8) (s : Fin 4) (m : VMask)
  | routeClose (d a : XReg)
  | routeInfo (d a : VReg) (s : Fin 4) (m : VMask)
  | rtpinPin (d a : XReg) (s : Fin 4)
  | rtpinRel (s : Fin 4)
  | rtpinHealth (d : XReg)
  | rtpinCur (d a : XReg)
  -- vector (R145 to R173)
  | vadd (f : VSat) (m : VMask) (d a : VReg) (b : VSrc) (x : Option VX)
  | vsub (f : VSat) (m : VMask) (d a : VReg) (b : VSrc) (x : Option VX)
  | vmul (f : VMulFn) (m : VMask) (d a : VReg) (b : VSrc) (x : Option VX)
  | vfma (neg sub : Bool) (m : VMask) (d a : VReg) (b : VSrc) (c : VReg) (x : Option VX)
  | vminmax (f : VMmFn) (m : VMask) (d a : VReg) (b : VSrc) (x : Option VX)
  | vcmp (f : VCmpFn) (m : VMask) (d a : VReg) (b : VSrc) (x : Option VX)
  | vsel (m : VMask) (d a b c : VReg)
  | vcvt (f : VSat) (m : VMask) (d a : VReg) (src : Ty) (x : VX)
  | vlog (f : VLogFn) (m : VMask) (d a b : VReg)
  | vshf (f : VShfFn) (m : VMask) (d a : VReg) (b : VAmt) (x : Option VX)
  | vsfu (f : VSfuFn) (m : VMask) (d a : VReg) (x : Option VX)
  | vred (f : VRedFn) (m : VMask) (d a : VReg) (x : Option VX)
  | vscan (f : VScanFn) (m : VMask) (d a : VReg) (x : Option VX)
  | vperm (m : VMask) (d a b : VReg) (x : Option VX)
  | vpermTr (d a : VReg) (x : Option VX)
  | viota (f : VIotaFn) (m : VMask) (d : VReg) (start : BitVec 32) (x : Option VX)
  | vmov (f : VMovFn) (m : VMask) (d a : VReg) (x : Option VX)
  | vmovScalar (m : VMask) (d : VReg) (c : XReg) (x : VX)
  | vmovLiteral (m : VMask) (d : VReg) (v : Word) (x : VX)
  | vshape (rows : Fin 32) (cols : Fin 2048) (ty : Ty)
  | vld (d : VReg) (m : MAddr) (x : Option MX)
  | vldShaped (d : VReg) (a c e : XReg) (x : MX)
  | vst (m : MAddr) (d : VReg) (x : Option MX)
  | vstShaped (a c e : XReg) (d : VReg) (x : MX)
  | vldf (keep : Bool) (d : VReg) (m : MAddr) (x : Option MX)
  | vldx (d : VReg) (a : XReg) (b : VReg) (m : VMask) (ty : Option Ty)
  | vstx (a : XReg) (b d : VReg) (p : PReg) (ty : Option Ty)
  | vpackUnpack (m : VMask) (d a : VReg) (rec : Ty) (x : VX)
  | vpackPack (m : VMask) (d a b : VReg) (rec : Ty) (x : VX)
  | hsift (k : Fin 16) (new : Bool) (a : XReg) (b d : VReg) (c : XReg) (p : PReg)
  | vdot (f : VSat) (m : VMask) (d a b c : VReg) (x : Option VX)
  | vbmax (abs : Bool) (m : VMask) (d a : VReg) (x : Option VX)
  | vqnt (m : VMask) (d a : VReg) (rec : Ty) (x : VX)
  | vmask (f : VMaskFn) (d : PReg) (a : VReg)
  | vmaskExpand (d : VReg) (a : PReg)
  | vclamp (m : VMask) (d a b c : VReg) (x : Option VX)
  | vclampLiteral (m : VMask) (d a : VReg) (v : Word) (x : VX)
  | vrnd (m : VMask) (d a : VReg) (x : Option VX)
  | vext (d : XReg) (a : VReg) (b c : XReg) (ty : Option Ty)
  | vins (d : VReg) (a b c : XReg) (ty : Option Ty)
  -- matrix and near-bank (R190 to R199)
  | mwld (q : QuadOp) (a b c : XReg) (k : Fin 1024) (n : Fin 256) (pe : PReg)
  | mma (neg accz : Bool) (ty : Ty) (acc : BankOp) (a b c : XReg) (stride : Fin 16384) (pe : PReg)
  | mmg (neg accz : Bool) (nt : Fin 8) (ty : Ty) (acc : BankOp) (a b c e : XReg) (k : Fin 1024) (n : Fin 256)
      (stride : Fin 16384) (pe : PReg)
  | mdrain (clr : Bool) (ty : Ty) (rm : Rm) (acc : BankOp) (a b c : XReg) (n : Fin 256) (stride : Fin 16384)
      (pe : PReg)
  | mzero (acc : BankOp) (pe : PReg)
  | mfuse (mode : Fin 8) (pe : PReg)
  | mmap (b : XReg)
  | mmapOwn
  | mmapLiteral (v : Word)
  | mvb (out ty : Ty) (rm : Rm) (d a b c e : XReg) (nv : Fin 8) (pe : PReg)
  | matrixTurn (t : TurnStep)
  | mstatRd (d : XReg)
  | mstatDone (d : XReg)
  | mstatCfg (d : XReg)
  | mstatFlags (d : XReg) (acc : BankOp)
  | mstatNbf (d : XReg)
  | mstatErr (d : XReg)
  -- pooled engines and system (R341 to R352, R376)
  | leaseGet (d a : XReg)
  | leaseCmd (d a b : XReg)
  | leaseRel (a : XReg)
  | leaseGrant (die : Nat)
  | leaseExpiry (die eng : Nat)
  | pooledEngineCommand (die : Nat) (eng : LandStep)
  | tlbiVf (a : XReg)
  | tlbiCtx (a : XReg)
  | tlbiVa (a b : XReg)
  | tlbiGpa (a b : XReg)
  | tlbiAll
  | dharv (d a b : XReg)
  | cfgPart (d a : XReg) (t : CfgTarget)
  | cfgPdel (d a : XReg) (t : CfgTarget)
  | cfgCtx (d a : XReg) (t : CfgTarget)
  | cfgQueue (d a : XReg) (t : CfgTarget)
  | cfgInst (d a : XReg) (t : CfgTarget)
  | cfgRtab (d a : XReg) (t : CfgTarget)
  | cfgCls (d a : XReg) (t : CfgTarget)
  | cfgMwt (d a : XReg) (t : CfgTarget)
  | cfgGw (d a : XReg) (t : CfgTarget)
  | cfgTwin (d a : XReg) (t : CfgTarget)
  | cfgRrep (d a : XReg) (t : CfgTarget)
  | sealQ (d a : XReg)
  | sealOn (d a : XReg)
  | sealOff (d a : XReg)
  | scrubMem (d a b : XReg)
  | scrubSlice (d a : XReg)
  -- steps of units, scheduler, host and module
  | pageRequestReply (part : Nat)
  | launchTake (q : Nat)
  | queueMap (q : Nat)
  | queueQuantumExpiry (q : Nat)
  | taskRingEntryTake (lid : Nat)
  | tileRecordRead (lid : Nat)
  | taskStart (core : Nat)
  | deadlinePass (lid : Nat)
  | steepDiversion (core : Nat)
  | steepBudgetExpiry (core : Nat)
  | preemptGraceExpiry (ctx : Nat)
  | fullSave (ctx : Nat)
  | preemptKillExpiry (ctx : Nat)
  | trapRecordWrite (ctx : Nat)
  | trapRecordDrop (ctx : Nat)
  | coreContainment (core : Nat)
  | placementIntervalEnd (tbl : Nat)
  | calderaPublish (tbl : Nat)
  | replicaRetire (tbl serial : Nat)
  -- steps that come from outside, or that nothing in the machine has to choose
  | bankUnitAtomicStep (op : AtomOp) (sz : MSize) (u : UnitAt) (b c : Word)
  | putLanding (peer : Word) (wnum off : Nat) (put : PutStep)
  | segmentPreload (cluster : Nat)
  | codeGranuleScan (hpa : Nat)
  | pageWalk (ctx : Nat) (va : Word) (acc : Nat)
  | ptpAnnounce (a : Announce)
  | ptpSync (m : PtpMsg) (twoStep : Bool)
  | ptpFollowUp (m : PtpMsg)
  | ptpDelayResp (m : PtpMsg)
  | ptpManagement (data : List Byte)
  | ptmExchange (offset : Int)
  | preemptRequest (ctx : Nat) (g k : Nat)
  | contextResume (ctx core : Nat)
  | wordRebuild (word : Nat)
  | patrolSweep (die : Nat) (sub : Option Nat)
  | dieFailure (die : Nat)
  | clockStepDown (die : Nat)
  | clockStepUp (die : Nat)
  | queueDoorbell (q : Nat) (v : Word)
  | queueBaseSizeWrite (q : Nat) (size : Bool) (v : Word)
  | windowTableLoad (count : Nat)
  | ptpControlWrite (v : Word)
  | registerWrite (fn off : Nat) (v : Word)
  | spdmGetVersion (req : List Byte)
  | spdmGetCapabilities (req : List Byte)
  | spdmNegotiateAlgorithms (req : List Byte)
  | spdmGetDigests (req : List Byte)
  | spdmGetCertificate (slot : Nat) (req : List Byte)
  | spdmChallenge (req : List Byte)
  | spdmGetMeasurements (req : List Byte)
  | pcieLinkFailure (link : Fin 2)
  | slovasLinkTraining (port : Nat) (peer : Word)
  | slovasLinkFailure (port : Nat)
  | hostWriteToDeviceMemory (ctx : Nat) (hpa : Nat) (data : List Byte)
  -- steps without operands
  | loopBackEdge
  | xferArrival
  | memoryLoadReturn
  | engineCommandStart
  | mvbStackExecute
  | starvationGuard
  | timeSourceLoss
  | holdoverExpiry
  | tephraCopyRequest
  | powerOn
  | warmReset
  | powerLoss
  | coldReset
  | delayRequest
  | fetchReturn
  deriving DecidableEq, Repr

end Sys2Proof
end

