-- ==== Sys2Proof/Machine/Flags.lean ====
section
/-! DEFINITION. The sticky flags of `%fflags` (03_formats.md R56, 05_numbers.md R117) and the rounding modes
(05_numbers.md R107). -/

namespace Sys2Proof.Machine

/-- The six sticky flags in the layout of `%fflags` (R56). -/
abbrev Flags := BitVec 6

/-- No flag. -/
def fNone : Flags := 0
/-- Bit 0, invalid. -/
def fInvalid : Flags := 1
/-- Bit 1, divide by zero. -/
def fDivZero : Flags := 2
/-- Bit 2, overflow. -/
def fOverflow : Flags := 4
/-- Bit 3, underflow. -/
def fUnderflow : Flags := 8
/-- Bit 4, inexact. -/
def fInexact : Flags := 16
/-- Bit 5, saturation. -/
def fSaturation : Flags := 32

/-- A flag that is raised on a condition. -/
def flagIf (b : Bool) (f : Flags) : Flags := if b then f else 0

/-- Overflow and inexact together (R108). -/
def fOvIx : Flags := fOverflow ||| fInexact
/-- Overflow, inexact and saturation together (R105, R116). -/
def fOvIxSat : Flags := fOverflow ||| fInexact ||| fSaturation
/-- Invalid and saturation together (R113). -/
def fInvSat : Flags := fInvalid ||| fSaturation

/-- The five rounding modes (R107). -/
inductive Mode where
  | rne | rtz | rdn | rup | sr
  deriving DecidableEq, Repr

/-- The mode that `%frm` holds (R56); its values above 4 are never held. -/
def Mode.ofFrm (n : Nat) : Mode :=
  match n with | 0 => .rne | 1 => .rtz | 2 => .rdn | 3 => .rup | _ => .sr

/-- The mode in force: the `rm` field when it is nonzero, else `%frm` at issue (R107). -/
def Mode.pick (rm : Rm) (frm : Nat) : Mode :=
  match rm with
  | .frm => Mode.ofFrm frm | .rne => .rne | .rtz => .rtz | .rdn => .rdn | .rup => .rup | .sr => .sr

end Sys2Proof.Machine
end

