-- ==== Sys2Proof/Machine/CoreState.lean ====
section
/-! DEFINITION. The state of one core (01_machine.md R10 and the chapters that each field cites), as plain data. -/

namespace Sys2Proof.Machine

/-- The phases of R18. -/
inductive Phase where
  | exchange | compute
  deriving DecidableEq, Repr

/-- What a core is doing: no task, a task, stopped in its task for a save (R368, R369), stopped in it by a poisoned arrival
(R386). -/
inductive Role where
  | idle | running | saved | halted
  deriving DecidableEq, Repr

/-- One loop level (R73), with the number of loops that were active when it was opened: a loop is nested inside every loop
that was active then, one that a called routine opens included (R75, R76, R80; log 54). -/
structure LoopLevel where
  cnt    : BitVec 32
  active : Bool
  start  : Word
  stop   : Word
  depth  : Nat
  deriving DecidableEq, Repr

/-- An inactive loop level. -/
def LoopLevel.off : LoopLevel := { cnt := 0, active := false, start := 0, stop := 0, depth := 0 }

/-- The watch (R90). -/
structure Watch where
  addr  : Word
  seen  : Word
  armed : Bool
  deriving DecidableEq, Repr

/-- A disarmed watch. -/
def Watch.off : Watch := { addr := 0, seen := 0, armed := false }

/-- The chain a core belongs to: its leader, shape, the core's position, the chain number (R12, R55). -/
structure ChainInfo where
  leader : Nat
  rows   : Nat
  cols   : Nat
  r      : Nat
  c      : Nat
  number : BitVec 12
  deriving DecidableEq, Repr

/-- The rectangle of the core's task, by its north-west core, and the core's position in it (R84). -/
structure TaskRect where
  origin : Nat
  rows   : Nat
  cols   : Nat
  i      : Nat
  j      : Nat
  deriving DecidableEq, Repr

/-- One row's part of a heap update: the heap's offset in the share, and the candidate pair (R173). -/
structure HeapRow where
  off : Nat
  key : Nat
  val : Nat
  deriving DecidableEq, Repr

/-- What lands when its slot has come: a register result, flags, bytes of the own share (with their full bits when the
store sets them), or a heap update (R63, R64, R118, R174). -/
inductive Landing where
  | x (r : XReg) (v : Word)
  | v (r : VReg) (t m : Tile)          -- the bits that the mask selects
  | p (r : PReg) (m : Mask)
  | flags (f : Flags)
  | store (off : Nat) (bs : List Byte) (full : Bool)
  | heap (k : Nat) (new : Bool) (rows : List HeapRow)
  deriving DecidableEq, Repr

/-- A landing with the slots it still waits, the slot of its issue, and whether it is an `XFER` arrival (R82, R83), with
the poison it carries (R386) and the direction it came from. -/
structure Pend where
  left   : Nat
  slot   : Nat
  arr    : Option Dir := none
  land   : Landing
  poison : Bool := false
  deriving DecidableEq, Repr

/-- A posted receive (R225, R240). -/
structure RecvSlot where
  buf    : Nat
  max    : Nat
  src    : Nat
  mask   : Nat
  anytag : Bool
  tag    : BitVec 32
  stamp  : Nat          -- share offset of its stamp
  seq    : BitVec 32
  order  : Nat          -- place in the post order
  deriving DecidableEq, Repr

/-- An overflow entry (R225, R239), and whether its payload has landed: until then it only keeps its place. -/
structure OvEntry where
  src     : Nat
  len     : Nat
  tag     : BitVec 32
  arrival : BitVec 32
  live    : Bool := true
  deriving DecidableEq, Repr

/-- The control page and matching unit (R225). -/
structure Control where
  mbx      : Vector Word 4
  bflags   : Flags
  slots    : Assoc RecvSlot
  posts    : Nat               -- receives posted so far: the next place in the post order
  ovq      : Assoc OvEntry
  rejected : BitVec 16
  arrivals : BitVec 32
  deriving DecidableEq, Repr

/-- The control page of a task's start (R287). -/
def Control.empty : Control :=
  { mbx := Vector.replicate 4 0, bflags := 0, slots := [], posts := 0, ovq := [], rejected := 0, arrivals := 0 }

/-- What a handler returns to (R361, R365). -/
structure TrapFrame where
  pc     : Word
  slot   : Nat
  phase  : Phase
  loops  : Vector LoopLevel 3
  watch  : Watch
  member : Nat        -- the trapping member that `%trap` names
  npc    : Word       -- the address after the instruction at `pc`
  gap    : Nat        -- empty slots and slots of a `NOP #n` that were still to pass (R78)
  nop    : Nat
  deriving DecidableEq, Repr

/-- A trap that an instruction of a chain member has raised and that the chain stop records (R361, R362), or the error that
a core has consumed and that its containment will record (R386). `posted`: its record has reached the ring writer; `word`:
the `%trap` that the record gives, once it is written (R360, R363). -/
structure Raised where
  cause  : Nat
  addr   : Word
  info0  : Word
  info1  : Word
  after  : Bool
  posted : Bool := false
  word   : Option Word := none
  deriving DecidableEq, Repr

/-- What a diversion writes in every member (R299, R300, R301). -/
structure Steep where
  slot : Nat
  word : Word
  pc   : Word
  lc   : Word
  ends : Nat
  deriving DecidableEq, Repr

/-- An instruction that a leader has issued, for its followers to issue at the same slot of the stream (R12, R13): its
slot, address and the address after it, and what the leader alone decides: the value of `SWR %dom` (R131), the live save
(R371), its loop levels at that slot (R300), and for the slot of its diversion what that writes (R299). -/
structure FeedEntry where
  slot  : Nat
  pc    : Word
  npc   : Word
  ins   : Instr
  dom   : BitVec 3
  live  : Bool
  loops : Vector LoopLevel 3
  steep : Option Steep := none
  deriving DecidableEq, Repr

/-- A translated piece: where it lies, how many bytes, its kind and guest-physical address. -/
structure Piece where
  hpa  : Nat
  len  : Nat
  kind : Nat
  gpa  : Nat
  deriving DecidableEq, Repr

/-- Where the bytes of an access lie once they are translated. -/
inductive Place where
  | share (off n : Nat)
  | ctl (off n : Nat)
  | win (off n : Nat)
  | mem (ps : List Piece)
  deriving DecidableEq, Repr

/-- What ends a transfer early: the fields of its record but for the unit's index (R357). -/
structure EFail where
  cause : Nat
  addr  : Nat
  info0 : Nat
  deriving DecidableEq, Repr

/-- A granule of a transfer that may land: the units whose bytes it holds, where it goes, its bytes, the bits of them that it writes
when not all, and the granule of the address space that it is, by space and number. -/
structure EPart where
  units : List Nat
  place : Place
  data  : List Byte
  mask  : List Byte := []
  gran  : Nat × Nat := (0, 0)
  deriving DecidableEq, Repr

/-- A unit that has been moved and waits for earlier ones: where it goes when the command writes, its bytes when it reads
(R338). -/
structure EHeld where
  unit  : Nat
  place : Option Place
  data  : List Byte
  size  : Nat
  deriving DecidableEq, Repr

/-- How far a transfer has come in unit order (R338): the units taken, the units whose bytes have gone to their landing, those
parked under page requests, those held behind them, the granules that may land,
whether the last granule of a read is among those, and the earliest failing unit. -/
structure Xfer where
  next   : Nat := 0
  passed : Nat := 0
  parked : List Nat := []
  held   : List EHeld := []
  ready  : List EPart := []
  closed : Bool := false
  fail   : Option (Nat × EFail) := none
  deriving DecidableEq, Repr

/-- A command in the engine queue (R235): its instruction, sequence number, stamp offset in the share, what it took at
issue (operands, the record or list, the local source bytes with the offset of the first poisoned one), whether it has
started, units landed, the worst status so far, arrivals still in flight, and how far a transfer has come. A command that
reads gathers the bytes of its units in `data`. -/
structure EngineCmd where
  ins     : Instr
  seq     : BitVec 32
  stamp   : Nat
  ops     : List Word
  shape   : List Byte
  data    : List Byte
  bad     : Option Nat
  started : Bool
  moved   : Nat
  status  : Nat
  waits   : Nat
  xfer    : Xfer := {}
  deriving DecidableEq, Repr

/-- A command in the matrix queue (R182), with how far a turn has come that waits for a page (R338), and for `MMG` the rows of
its tile that it has run and the group whose weights it holds (R192), for `MDRAIN` the destinations that passed their check
(R194), and whether an `MFUSE` has come to its turn and waits (R185). -/
structure MatrixCmd where
  ins   : Instr
  seq   : BitVec 32
  ops   : List Word
  shape : List Byte
  frm   : BitVec 3
  seed  : Word
  done  : Nat                   -- turns already taken
  row   : Nat := 0
  holds : Option Nat := none
  xfer  : Xfer := {}
  good  : List Nat := []
  waits : Bool := false
  deriving DecidableEq, Repr

/-- A pin slot (R311). -/
structure Pin where
  tbl : Nat
  ver : Nat
  deriving DecidableEq, Repr

/-- A `ROUTE.disp` or `ROUTE.redir` under way (R314): its operands as issue took them, the row it has come to, what the rows
before it wrote, and whether it has injected an operation. -/
structure RouteRun where
  redir : Bool
  d     : VReg
  tbl   : Nat                  -- the table, as 64 * partition + table
  ver   : Nat
  a     : Tile
  kc    : Nat
  p     : Mask
  z     : Bool
  rows  : Nat
  row   : Nat := 0
  val   : Tile := 0
  mask  : Tile := 0
  inj   : Bool := false
  deriving DecidableEq, Repr

/-- A TLB entry: context, virtual page, and what the walk gave (R331, R333). It serves the smaller of the pages of the two
stages, whose sizes it keeps for `TLBI` (R345). -/
structure TlbEntry where
  ctx   : Nat
  vpage : Nat          -- virtual address of the page's first byte
  gpa   : Nat          -- guest-physical address of the same
  hpa   : Nat          -- host-physical address of the same
  size  : Nat
  bits  : Nat          -- rights, kind, and the twin set bits of the leaf entries
  set   : Nat
  vsize : Nat          -- size of the stage-1 page
  gsize : Nat          -- size of the stage-2 page
  deriving DecidableEq, Repr

/-- An event counter of a core or die (R394). -/
structure EvCounter where
  src : Nat
  val : Word
  deriving DecidableEq, Repr

/-- The state of one core. -/
structure Core where
  id        : Nat
  x         : Vector Word 64
  v         : Vector Tile 16
  p         : Vector Mask 8
  loops     : Vector LoopLevel 3
  pc        : Word
  npc       : Word                 -- the address after the instruction being executed
  slot      : Nat
  gap       : Nat                  -- empty slots still to pass (R70)
  nopLeft   : Nat                  -- slots of the `NOP #n` at the pc still to run (R63, R78)
  phase     : Phase
  vs        : Word
  fflags    : Flags
  frm       : BitVec 3
  dom       : BitVec 3
  srseed    : Word
  priEff    : BitVec 3             -- highest of base priority and steep raise (R292)
  priLaunch : BitVec 3
  chain     : ChainInfo
  rect      : TaskRect
  launch    : BitVec 32
  task      : Word
  sqn       : BitVec 32
  steep     : Word
  steepPc   : Word
  steepLc   : Word
  trap      : Word
  pend      : List Pend
  late      : List Pend            -- variable-latency results, oldest first
  share     : Memory
  shareSize : Nat
  full      : List Nat             -- granules of the share whose full bit is set
  poison    : List Nat             -- doublewords of the share marked poisoned
  xPoison   : BitVec 64
  vPoison   : BitVec 16
  pPoison   : BitVec 8
  xBad      : BitVec 64            -- registers with a parity error (R378)
  vBad      : List Nat             -- poisoned words of vector registers, by 128 * register + doubleword (R381)
  pBad      : BitVec 8
  sBad      : List SReg            -- special registers with a parity error
  lBad      : BitVec 3             -- loop counters with one
  taste     : Option Bool          -- the taster is to find a mismatch, or two, at the next retirement (R383)
  watch     : Watch
  frame     : Option TrapFrame     -- in a handler
  raised    : Option Raised
  ctl       : Control
  engine    : List EngineCmd
  matrix    : List MatrixCmd
  mErr      : Option (Nat × BitVec 32)   -- matrix error register (R187)
  mvbFlags  : Flags
  mRd       : BitVec 32            -- number of the last matrix command that has read its operands (R197)
  mDone     : BitVec 32            -- number of the last complete matrix command (R197)
  map       : BitVec 64            -- row-to-core map, one byte an entry (R193)
  held      : BitVec 4             -- held quadrants of the own cluster (R179)
  weight    : Nat                  -- arbitration weight (R184)
  pins      : Vector (Option Pin) 4
  route     : Option RouteRun := none    -- the `ROUTE` under way (R314)
  openUnits : Option (Nat × Nat)   -- open range of units: first and count (R303, R304)
  sealed    : Bool
  contained : Bool
  tlb       : List TlbEntry
  feed      : List FeedEntry
  clk       : Nat                  -- the chain's clock, in slots of the leader's stream
  role      : Role
  ctx       : Nat                  -- the context it runs: partition times 16 plus context
  steepOn   : Bool                 -- in the steep entry (R299)
  steepAt   : Nat                  -- device time at which the wrap-up window closes (R301)
  waiting   : Bool                 -- the instruction at the pc has been tried and waits (R93)
  frozen    : Bool                 -- that wait is a freeze for another cause than the instruction's own (R300)
  skewWait  : Bool                 -- that wait is a skew wait (R405)
  arrived   : Bool                 -- the waiting `BAR` or `CHAIN.form` has arrived (R86, R233)
  stage     : Nat                  -- how far a waiting instruction has come; a sequence number it took
  livePend  : Bool                 -- a live save has been taken at this slot (R371)
  skip      : Bool                 -- the next instruction's slot passes empty (R365)
  retired   : Word
  sent      : Word
  received  : Word
  tally     : Assoc (Word × Word × Word)   -- those three counts in other contexts that the core has run (R366)
  events    : Vector EvCounter 8
  deriving DecidableEq, Repr

/-- `%vs` of a task's start: 32 rows by 8 columns of f32 (R287; bits by R55). -/
def vsInit : Word := 0x0000000800080020#64

/-- A core right after reset (log 3): no task, every register at the value of INVENTORY.md. -/
def Core.reset (id : Nat) : Core :=
  { id := id
    x := Vector.replicate 64 0, v := Vector.replicate 16 0, p := Vector.replicate 8 0
    loops := Vector.replicate 3 LoopLevel.off
    pc := 0, npc := 0, slot := 0, gap := 0, nopLeft := 0, phase := .exchange
    vs := vsInit, fflags := 0, frm := 0, dom := 0, srseed := 0, priEff := 0, priLaunch := 0
    chain := { leader := id, rows := 1, cols := 1, r := 0, c := 0, number := 0 }
    rect := { origin := id, rows := 1, cols := 1, i := 0, j := 0 }
    launch := 0, task := 0, sqn := 0, steep := 0, steepPc := 0, steepLc := 0, trap := 0
    pend := [], late := [], share := [], shareSize := 0, full := [], poison := []
    xPoison := 0, vPoison := 0, pPoison := 0, xBad := 0, vBad := [], pBad := 0, sBad := [], lBad := 0, taste := none
    watch := Watch.off, frame := none, raised := none, ctl := Control.empty
    engine := [], matrix := [], mErr := none, mvbFlags := 0, mRd := 0xFFFFFFFF, mDone := 0xFFFFFFFF
    map := BitVec.ofNat 64 ((id % 8) * 0x0101010101010101), held := 0, weight := 1
    pins := Vector.replicate 4 none, openUnits := none, sealed := false, contained := false
    tlb := [], feed := [], clk := 0, role := .idle, ctx := 0, steepOn := false, steepAt := 0
    waiting := false, frozen := false, skewWait := false, arrived := false, stage := 0, livePend := false, skip := false
    retired := 0, sent := 0, received := 0, tally := []
    events := Vector.replicate 8 { src := 0, val := 0 } }

end Sys2Proof.Machine
end

