-- ==== Sys2Proof/Machine/System.lean ====
section
/-! DEFINITION. The state of the module outside the cores, as plain data: clusters, partitions and contexts, queues,
launches and tasks, counting networks, replica tables, pooled engines, windows, time, events and start. -/

namespace Sys2Proof.Machine

/-! Clusters (08_matrix.md R178 to R189, R384). -/

/-- A quadrant: its latched tile, its banks as bytes (element (row, col) at 512 row + 4 col), their flags and error
bits, and the marks of R384. Weights lie column by column in the latched format (R374). -/
structure Quad where
  weights : Memory
  ty      : Ty
  k       : Nat
  n       : Nat
  valid   : Bool
  bank0   : Memory
  bank1   : Memory
  flags0  : Flags
  flags1  : Flags
  err0    : Bool
  err1    : Bool
  failed  : Bool
  retired : List Nat            -- the spare map: columns whose place a spare has taken, at most two (R384)
  pois    : List Nat            -- poisoned doublewords of the banks: bank * 16,384 + offset div 8 (R382)
  owner   : Nat                 -- the launch that its contents belong to, 0 for none (R179)
  struck  : List Nat := []      -- columns whose next pass shows a residue mismatch (R384)
  faults  : List Nat := []      -- columns that every array test finds faulty
  deriving DecidableEq, Repr

/-- A quadrant right after the start's array test found it whole (R384, R403). -/
def Quad.reset : Quad :=
  { weights := [], ty := .n8, k := 0, n := 0, valid := false, bank0 := [], bank1 := [], flags0 := 0, flags1 := 0
    err0 := false, err1 := false, failed := false, retired := [], pois := [], owner := 0 }
/-- The spare columns that are left (R384, R197). -/
def Quad.spare (q : Quad) : Nat := 2 - q.retired.length

/-- A cluster: fusion mode, quadrants, what each group's arbiter served last and how many turns in a row (R184), the
cluster-shared window with the launch that reaches it (R21). -/
structure Cluster where
  mode   : Nat
  quads  : Vector Quad 4
  served : Vector Nat 4
  turns  : Vector Nat 4
  window : Memory
  reach  : Nat                 -- launch that reaches the window, 0 for none
  wsize  : Nat                 -- its size when last reached
  wpois  : List Nat            -- poisoned doublewords of the window
  gran   : Nat                 -- what its cores last ran (R288): 1 + context * 2^42 + entry granule, 0 for nothing
  deriving DecidableEq, Repr

/-- A cluster right after reset (R196, R339, log 3). -/
def Cluster.reset : Cluster :=
  { mode := 0, quads := Vector.replicate 4 Quad.reset, served := Vector.replicate 4 7, turns := Vector.replicate 4 0
    window := [], reach := 0, wsize := 0, wpois := [], gran := 0 }

/-- A granule of a row on its way to a core's share, or with a status and a count the stamp of that core, which lands after the
core's last granule (R168, R194, R199). -/
structure DrainItem where
  dest  : Nat
  off   : Nat
  data  : List Byte
  stamp : Option (Nat × Nat) := none
  deriving DecidableEq, Repr

/-- An `MVB` that a stack has accepted (R199), with the context and the launch that it was issued in, which it keeps when its
core goes on to another task (R200). -/
structure StackCmd where
  core   : Nat
  ctx    : Nat
  launch : BitVec 32
  cmd    : MatrixCmd
  data   : List (List Byte)      -- its A vectors, read before acceptance (R186)
  prev   : BitVec 32             -- the matrix command of the core before it (R197)
  rep    : Bool                  -- a translation fault was replayed
  xfer   : Xfer := {}            -- how far its reads of B have come (R338)
  out    : Option (List DrainItem) := none   -- its results under way to the share, once they are formed
  deriving DecidableEq, Repr

/-- An `MDRAIN` whose granules are under way to their cores (R194): the issuer, its launch, the number and the one before it
(R197), what has yet to land, and whether its last turn has been granted. -/
structure Drain where
  core   : Nat
  launch : BitVec 32
  seq    : BitVec 32
  prev   : BitVec 32
  items  : List DrainItem
  closed : Bool
  deriving DecidableEq, Repr

/-! Counting networks (12_geyser.md). -/

/-- Where an operation in flight stands: on a stream before the balancer or exit that it leads to (R255). -/
inductive Stream where
  | wire (i : Nat)
  | out (balancer : Nat) (port : Bool)
  deriving DecidableEq, Repr

/-- An operation in flight (R264): who injected it, token or anti-token, its input wire, where it stands, the value it
returned, and whether its issuer was killed (R269). -/
structure CntOp where
  core  : Nat
  ctx   : Nat
  anti  : Bool
  wire  : Nat
  pos   : Stream
  value : Option Word
  dead  : Bool
  deriving DecidableEq, Repr

/-- Bits of a word of a coded array that have flipped: of its data, and of its eight parity bits; a stuck one fails again when it is
rebuilt (R379 to R381). -/
structure Flip where
  word  : Nat
  data  : BitVec 64
  par   : BitVec 8
  stuck : Bool
  deriving DecidableEq, Repr

/-- A step made at a balancer, or at an exit: when, where, by input port and by core (R263). -/
structure NetStep where
  time : Nat
  exit : Bool
  num  : Nat
  port : Nat
  core : Nat
  deriving DecidableEq, Repr

/-- A counting network (R253 to R258). -/
structure Net where
  lw     : Nat                 -- log2 of the width
  per    : Bool                -- periodic topology
  void   : Bool                -- kill policy void
  home   : Nat
  slg    : Nat
  clg    : Nat
  base   : Nat                 -- void base
  part   : Nat
  togg   : List Bool           -- by balancer number
  exits  : List Word           -- by exit number
  ops    : List CntOp
  lost   : Bool
  dying  : Bool                -- destruction waits for the operations in flight (R270)
  ctx    : Nat                 -- context of its void writes
  place  : List Nat := []      -- router of its home die of each balancer, in creation order (R256, R260)
  cells  : List Nat := []      -- router of each exit counter
  steps  : List NetStep := []  -- the steps of the present cycle (R263)
  deriving DecidableEq, Repr

/-! Partitions, contexts, page requests (19_isolation.md). -/

/-- Who waits for a page request (R335 to R338, R404). -/
inductive Waiter where
  | core (c : Nat)
  | cmd (c : Nat) (seq : BitVec 32) (unit : Nat)
  | matrix (c : Nat) (seq : BitVec 32) (unit : Nat)
  | lease (die eng unit : Nat)
  | launch (lid : Nat)
  | ring (lid : Nat)
  | tile (lid order : Nat)
  | queue (q : Nat)
  | put (serial granule : Nat)
  deriving DecidableEq, Repr

/-- An access that waits for the reply to a page request, and the fault that a fail reply makes of it: its virtual address
and its `info0` (R336, R337, R357). -/
structure PageWait where
  who  : Waiter
  va   : Nat
  info : Nat
  deriving DecidableEq, Repr

/-- A page request that awaits its reply (R335): its slot, the granule and write class, the waiters. -/
structure PageReq where
  rid     : Nat
  gran    : Nat
  wr      : Bool
  waiters : List PageWait
  deriving DecidableEq, Repr

/-- A reservation class: rate and burst on the six resources (R291). -/
structure ClassCfg where
  rates  : Vector Word 6
  bursts : Vector Word 6
  deriving DecidableEq, Repr

/-- A partition (R350). -/
structure Partition where
  s2root : Nat
  prq    : Nat
  rpl    : Nat
  pcap   : Nat
  qs     : Nat
  bal    : Nat
  lq     : Nat
  dlog   : Nat
  dspan  : Nat
  slices : BitVec 2048
  cls    : Assoc ClassCfg
  reqs   : List PageReq
  fails  : List PageWait       -- accesses that a fail reply has met and that have yet to take their fault (R336)
  qorder : List Nat            -- active unmapped queues, first to be mapped first (R278)
  deriving DecidableEq, Repr

/-- A partition that nothing has set: every field zero (log 3). -/
def Partition.empty : Partition :=
  { s2root := 0, prq := 0, rpl := 0, pcap := 0, qs := 0, bal := 0, lq := 0, dlog := 0, dspan := 0, slices := 0
    cls := [], reqs := [], fails := [], qorder := [] }

/-- A pre-emption request (R367): device time of the request, grace and kill times in microseconds, and the device time of
the halt, once it has come (R369, R373). -/
structure Preempt where
  at_  : Nat
  g    : Nat
  k    : Nat
  halt : Option Nat
  deriving DecidableEq, Repr

/-- A record that waits for a slot of a trap ring (R360): its bytes, when it arrived, and the core whose chain stop it
belongs to. -/
structure WaitRec where
  bytes : List Byte
  at_   : Nat
  who   : Option Nat := none
  deriving DecidableEq, Repr

/-- A core that has stopped for a save, by number (R371, R373): whether it took a live save, and the live descriptor. -/
structure SavedCore where
  id   : Nat
  live : Bool
  desc : List Byte
  at_  : Nat := 0              -- offset of its record in the area
  img  : Nat := 0              -- offset of its share image
  deriving DecidableEq, Repr

/-- A slice as its record saved it (R374): what the control block of the record holds, and the cluster's fusion mode. -/
structure SavedSlice where
  slice : Nat
  at_   : Nat
  quad  : Quad
  mode  : Nat
  deriving DecidableEq, Repr

/-- A context (R351, R359, R367, R373). -/
structure Context where
  live   : Bool                -- accepts launches
  sup    : Bool
  s1root : Nat
  tring  : Nat
  savea  : Nat
  saveb  : Nat
  spill  : Nat
  splim  : Nat
  tlg    : Nat
  pinA   : List Nat            -- host-physical granules of area A, pinned by `CFG.ctx`
  pinB   : List Nat
  cons   : Nat                 -- last consumer index the device read
  wrecs  : List WaitRec
  lostp  : Bool                -- the next record written carries `lost`
  pre    : Option Preempt
  saved  : List SavedCore       -- in record order
  sliced : List SavedSlice
  badA   : Bool                 -- area A is marked failed (R373)
  badB   : Bool
  stored : Bool                 -- the cores of `saved` are off the mesh, their records written (R373, R375)
  ran    : List Nat             -- slices that the context has run on (R370)
  deriving DecidableEq, Repr

/-- A context that nothing has set (log 3). -/
def Context.empty : Context :=
  { live := false, sup := false, s1root := 0, tring := 0, savea := 0, saveb := 0, spill := 0, splim := 0, tlg := 0
    pinA := [], pinB := [], cons := 0, wrecs := [], lostp := false, pre := none, saved := []
    sliced := [], badA := false, badB := false, stored := false, ran := [] }
/-- The soft request that a running core of a context meets: one whose save has been made is none for the tasks that return (R368, R371,
R375). -/
def Context.soft (c : Context) : Option Preempt := if c.stored then none else c.pre
/-- The grace time of a request has passed, and nothing has halted for it yet (R369). -/
def Preempt.due (p : Preempt) (now : Nat) : Bool := p.halt.isNone && decide (p.at_ + 1000 * p.g ≤ now)

/-- A twin set (R332, R249, R250). -/
structure Twin where
  part    : Nat
  base    : Nat
  span    : Nat
  sel     : Bool
  isOpen  : Bool
  epoch   : Nat
  caldera : Bool
  deriving DecidableEq, Repr

/-- What the scanner keeps of a granule (R59): a boundary map, bit i for word i, or the rejection with the byte offset
and the reason code. -/
inductive ScanRecord where
  | passed (map : Nat)
  | rejected (off code : Nat)
  deriving DecidableEq, Repr

/-- A code image that a loader has announced to the scheduler (02_notation.md R33; log 17): the context, the extent of
its text, and its `.local` block as offsets and bytes. -/
structure Image where
  ctx   : Nat
  base  : Nat
  size  : Nat
  block : List (Nat × List Byte)
  deriving DecidableEq, Repr

/-! Pooled engines (R342 to R344). -/

/-- An accepted command of a lease: its descriptor, issuer and number, the granules written so far, whether a unit was replayed,
how far it has come in unit order (R338), and the output of a compression or decompression, once it is made, with whether it
breaks off there (R344). -/
structure PooledCmd where
  desc  : List Byte
  core  : Nat
  num   : Nat
  moved : Nat := 0
  waited : Bool := false
  xfer  : Xfer := {}
  made  : Option (List Byte) := none
  short : Bool := false
  deriving DecidableEq, Repr

/-- A lease: holder's context, core, serial, the time it ends, its commands, how many it accepted, whether it ends
with them (R343). -/
structure Lease where
  ctx    : Nat
  core   : Nat
  serial : BitVec 32
  ends   : Nat
  cmds   : List PooledCmd
  count  : Nat
  rel    : Bool
  copy   : Option (Nat × Nat) := none   -- the replica copy that Caldera holds it for: table and serial (R317)
  deriving DecidableEq, Repr

/-- A core that waits for a lease (R342). -/
structure LeaseWait where
  die  : Nat
  core : Nat
  part : Nat
  deriving DecidableEq, Repr

/-! Launches (14_scheduling.md). -/

/-- The fields of a launch record (R274). -/
structure LaunchRec where
  entry : Nat
  steep : Nat
  frame : Nat
  fstride : Nat
  est : Nat
  rows : Nat
  cols : Nat
  share : Nat                  -- bytes per core
  quads : Nat
  pri : Nat
  cls : Nat
  dom : Nat
  budget : Nat
  rst : Bool
  src : Nat
  nspec : Nat
  after : Bool
  deadline : Nat
  chains : Nat
  count : Nat
  pjoin : Nat
  cstamp : Nat
  vmap : Nat
  work : Nat
  ispec : Nat
  deriving DecidableEq, Repr

/-- A task record in a launch's task queue (R282), with its index (R303), its order of entry, when it became ready, and
how often it was contained (R387). -/
structure TaskRec where
  code  : Nat
  frame : Word
  join  : Nat
  est   : Nat
  tpri  : Nat
  own   : Bool
  rst   : Bool
  index : Option Nat
  rcd   : Option Nat           -- the address of a ragged task's record, until it has been read (R321)
  order : Nat
  slot  : Nat := 0             -- its place in the task queue
  since : Nat
  hits  : Nat
  guard : Bool                 -- it has waited 100 us (R289)
  deriving DecidableEq, Repr

/-- An entry of the pending table: the continuation and the address of its join block (R283, R286). -/
structure Pending where
  task  : TaskRec
  block : Nat
  deriving DecidableEq, Repr

/-- A running task: its record, its rectangle and the cores that have not ended it (R88). -/
structure RunTask where
  task   : TaskRec
  origin : Nat
  rows   : Nat
  cols   : Nat
  left   : List Nat
  lost   : Option Nat := none            -- a contained core has ended it (R386), while another of its chains runs on
  codes  : List (Nat × Nat) := []        -- the open ranges that it had there
  deriving DecidableEq, Repr

/-- The successor that the scheduler has picked for a segment (R290): the task, its rectangle and the slices that it will
reserve. -/
structure Successor where
  seg    : Nat
  lid    : Nat
  order  : Nat
  origin : Nat
  slices : List Nat
  deriving DecidableEq, Repr

/-- What remains to be done for a launch, in order; a step that waits for a page request holds those after it (R284,
R404). -/
inductive EndStep where
  | join (va : Nat)
  | out
  | stamp
  | nets
  | parent
  | finish
  | codes (unit count : Nat) (disc : Bool)   -- code 0b00 for the units, and the `discarded` bit (R303, R321, R387)
  | over (unit count : Nat)    -- the overrun bits of the units, and the `overrun` bit (R301)
  deriving DecidableEq, Repr

/-- A barrier of a launch (R233, R234): domain level and index, tag, generation counter, the members and arrivals of the
generation under way, whether the last completed generation aborted, and the cores whose `BAR` it has yet to end. -/
structure Barrier where
  level   : Nat
  dom     : Nat
  tag     : Nat
  gen     : Word
  members : List Nat
  here    : List Nat
  active  : Bool
  aborted : Bool
  owed    : List Nat
  deriving DecidableEq, Repr

/-- A share that a launch keeps on a core that runs a task of another launch, with what R287 hands on. -/
structure Stash where
  core   : Nat
  share  : Memory
  size   : Nat
  full   : List Nat
  poison : List Nat
  sqn    : BitVec 32
  deriving DecidableEq, Repr

/-- A launch that the scheduler has taken (R280 to R284). -/
structure Launch where
  fields : LaunchRec
  part   : Nat
  ctx    : Nat
  queue  : Nat
  parent : Option Nat
  pri    : Nat
  die    : Nat                 -- the die that took it (R297, R389)
  outst  : Nat
  absent : Nat
  ran    : Nat
  exited : Bool
  code   : Nat
  past   : Bool
  killed : Bool
  reject : Nat                 -- reason code of R280, 0 when it passed
  next   : Nat                 -- the next task of the work source
  ringWr : Nat                 -- the ring's write index as last read
  srcEnd : Bool                -- no further task can come from the source
  ready  : List TaskRec
  pend   : Assoc Pending       -- pending table (R283, R286)
  order  : Nat                 -- tasks entered so far
  filed  : Nat := 0            -- of those, the ones whose records stand in the queue's memory
  qva    : Nat                 -- where its task queue is mapped in the context's space (R282; log 5)
  run    : List RunTask
  todo   : List EndStep
  ending : Bool
  cores  : List Nat            -- cores that hold a share of the launch
  slicel : List Nat            -- slices that the launch has been placed on
  stash  : List Stash          -- shares on cores that run another launch
  qstash : Assoc Quad          -- quadrants of slices that another launch has used since, by slice (R179)
  adopt  : Assoc Nat           -- adopted version by 64 * level + table (R310)
  bars   : List Barrier
  image  : Option Image := none         -- the image of its file (R33)
  deriving DecidableEq, Repr

/-- A record in a queue: its bytes, and for a device queue the launch id it will carry and its parent (R286). -/
structure QRec where
  bytes  : List Byte
  lid    : Nat
  parent : Option Nat
  deriving DecidableEq, Repr

/-- A launch queue (R277, R278, R398). -/
structure Queue where
  dev    : Bool
  part   : Nat
  ctx    : Nat
  cap    : Nat
  recs   : List QRec
  qbase  : Nat
  qsize  : Nat
  qwr    : Nat
  qrd    : Nat
  err    : Bool
  mapped : Bool
  copy   : List Byte           -- the record of a take that waits for its instance specifications
  since  : Nat                 -- when it was mapped
  last   : Option Nat          -- the last launch taken from it
  deriving DecidableEq, Repr

/-! Replica tables (16_experts.md R307 to R317). -/

/-- A pin that a kill has left (R311): the context and the core that held it, the table as 64 * partition + table, and the version. -/
structure Unpin where
  ctx   : Nat
  core  : Nat
  table : Nat
  ver   : Nat
  deriving DecidableEq, Repr

/-- A replica in a version: gateway core, capacity, bases, and the serial number of its capacity instance. -/
structure Replica where
  core   : Nat
  cap    : Nat
  wbase  : Nat
  gbase  : Nat
  serial : Nat
  set    : Option Nat          -- the twin set that Caldera placed it in (R317)
  deriving DecidableEq, Repr

/-- An expert in a version. -/
structure Expert where
  pol    : Bool                -- next choice
  wbytes : Nat
  gbytes : Nat
  reps   : List Replica
  deriving DecidableEq, Repr

/-- A replica copy under way (R317, step 2): the bytes copied so far, whether all are, and whether a deferred publication keeps
its shadows (R309). -/
structure RCopy where
  expert : Nat
  rep    : Replica
  done   : Bool
  off    : Nat := 0
  kept   : Bool := false
  deriving DecidableEq, Repr

/-- A replica table of a partition. -/
structure RTable where
  ctx    : Nat
  home   : Nat
  merge  : Bool
  fixed  : Bool
  ival   : Nat
  hot    : Nat
  cold   : Nat
  cur    : Nat
  vers   : Assoc (List Expert)  -- live versions
  serial : Nat                  -- capacity instances created so far
  bases  : Assoc Word           -- round base by serial
  drain  : List (Nat × Replica) -- replicas left out and not yet retired, with their expert
  loads  : Assoc Nat            -- load counter by 512 * die + expert
  copies : List RCopy
  due    : Nat                  -- device time at which the interval ends
  retire : List (Nat × Nat)     -- replicas that the publication of the interval leaves out, by expert and serial
  pub    : Bool                 -- the interval's publication is to be made
  pubAt  : Nat := 0             -- device time of the last publication
  before : Nat := 0             -- the version that it replaced (R310)
  deriving DecidableEq, Repr

/-! Messages under way. -/

/-- A branch that its destination has taken (R239): the receive that it matched, or the overflow entry that it fills, the launch
and task that the destination ran, and the granules still to land, by offset in the share. -/
structure MsgTake where
  recv   : Option RecvSlot
  entry  : Nat
  launch : BitVec 32
  task   : Word
  parts : List (Nat × List Byte)
  deriving DecidableEq, Repr

/-- A branch of a `SEND` that has not been resolved (R239), with the sender's command. -/
structure Msg where
  src  : Nat
  dst  : Nat
  seq  : BitVec 32
  part : Nat
  ctx  : Nat
  tag  : BitVec 32
  data : List Byte
  take : Option MsgTake := none
  deriving DecidableEq, Repr

/-- A `SENDN` or `HALO` arrival under way (R243, R244): direction it travels, destination offset, data, the units it
counts, whether an uncorrectable error cut it short (R382), and once the neighbour has taken it the granules still to land. -/
structure NMsg where
  src   : Nat
  dst   : Nat
  seq   : BitVec 32
  dir   : Dir
  off   : Nat
  data  : List Byte
  units : Nat
  halo  : Bool
  cut   : Bool := false
  parts : Option (List (Nat × List Byte)) := none
  deriving DecidableEq, Repr

/-- A store that the network holds (R204, R228): issuing core, host-physical address or place in a window, bytes, the bits of
them that it writes when not all, its page kind, the scope of its release, the level at which agents see it (R203), and the
cores that have read it (R212). -/
structure NetStore where
  core : Nat
  hpa  : Nat
  gpa  : Nat
  part : Nat
  data : List Byte
  mask : List Byte := []
  kind : Nat
  rel  : Option Scope
  lvl  : Nat := 0
  seen : List Nat := []
  deriving DecidableEq, Repr

/-! Events, time, start, links. -/

/-- An entry of a tephra ring (R391). -/
structure TephraEv where
  dt   : Nat
  code : Nat
  die  : Nat
  part : Nat
  core : Nat
  arg0 : Nat
  arg1 : Nat
  deriving DecidableEq, Repr

/-- A tephra ring: the last 4,096 events, oldest first, and whether any was overwritten (R391, R392). -/
structure Tephra where
  evs     : List TephraEv
  wrapped : Bool
  deriving DecidableEq, Repr

/-- The time port's state (R295, R396, R400). -/
structure TimePort where
  dt      : BitVec 80          -- device time, 64 integer bits and 16 fraction bits (R294)
  low     : BitVec 24          -- below the fraction (log 7)
  rate    : BitVec 48          -- rate word (R294), in units of 2^-40 ns a cycle (log 7)
  slew    : Int                -- offset still to be slewed, in units of 2^-40 ns (R296)
  state   : BitVec 2           -- 0 locked, 1 PTM, 2 holdover, 3 free (R396)
  within  : Nat                -- consecutive sync intervals within 50 ns
  given   : Bool               -- a source has delivered since reset
  ptm     : Bool               -- PTM delivers
  lost    : Nat                -- when the source was lost
  offset  : BitVec 32          -- last offset from the source
  master  : Option Announce    -- data set of the selected master
  twoStep : Option Int         -- offset of a sync that waits for its follow-up
  delay   : Int                -- path delay measured
  domain  : BitVec 7
  enabled : Bool
  req     : Bool               -- a delay request is outstanding
  deriving DecidableEq, Repr

/-- A step entry of the start record (R393). -/
structure StartEntry where
  step   : Nat
  tries  : Nat
  out    : Nat
  alt    : Nat
  ms     : Nat
  detail : Nat
  deriving DecidableEq, Repr

/-- A window-table entry (R399). -/
structure Window where
  part : Nat
  num  : Nat
  dir  : Nat
  port : Nat
  ctx  : Nat
  peer : Word
  pnum : Nat
  base : Nat
  size : Nat
  cnt  : Nat
  deriving DecidableEq, Repr

/-- A `PUT` from a peer that lands through an inbound window (R221, R399): its number, the window, the granules still to land
by virtual address. -/
structure PutIn where
  serial : Nat
  win    : Window
  parts  : List (Nat × List Byte)
  deriving DecidableEq, Repr

/-- A `PUT` whose data has left and is on its way to the peer (R221, R248): port, the peer's window, offset, data. -/
structure PutOut where
  port : Nat
  pnum : Nat
  off  : Nat
  data : List Byte
  deriving DecidableEq, Repr

/-- The rejection of a peer's `PUT` that goes back to it (R399): the peer and its window number. -/
structure PutNo where
  peer : Word
  num  : Nat
  deriving DecidableEq, Repr

/-- What the SPDM responder has answered (R401): the requests and responses so far, and the version agreed on. -/
structure Spdm where
  stage : Nat                  -- 0 none, 1 version given, 2 capabilities, 3 algorithms
  log   : List Byte            -- transcript
  last  : List Byte            -- the last response
  deriving DecidableEq, Repr

end Sys2Proof.Machine
end

