-- ==== Sys2Proof/Machine/State.lean ====
section
/-! DEFINITION. The state of the machine, the reasons a step can stop, and the state after reset. Host-physical memory
is one memory (19_isolation.md R328); the state of a core that nothing has touched is `Core.reset` (log 3). -/

namespace Sys2Proof.Machine

/-- Raised by nobody: every condition that the spec gives an effect takes that effect. Kept for the one thing that the
scanner rules out (03_formats.md R57): a word that does not decode, at an address that a boundary map marks. -/
inductive Fault where
  /-- Raised by the fetch of `step` when a marked word does not decode: no scanned granule holds one (R59). Safe: the
  machine stops where the hardware cannot be. -/
  | malformedWord
  deriving DecidableEq, Repr

/-- Why a step is refused. -/
inductive Refusal where
  /-- Raised by an arm of `exec` whose instruction has no meaning yet. Safe: nothing is claimed of it. -/
  | notModelled (mnemonic : String)
  deriving DecidableEq, Repr

/-- An error that strikes the hardware from outside (22_containment.md R378 to R388; log 61): flipped bits of words and of a vertical
parity row; symbols of a code word of HBM or LPDDR; the parity of a register, of a special
register or of a loop counter; a loop buffer; an entry of a core's or a die's TLB and a scan record; the taster's
mismatch, once or twice; a column of a quadrant, for good or once; bits of a counting network's entry, of a scheduler queue entry, of
a die's barrier tree, and of its halt tree or the twin selector table. -/
inductive Strike where
  | words (fs : List Flip)
  | row (sub : Nat) (bits : BitVec 64)
  | code (hpa symbols : Nat)
  | reg (core : Nat) (pred : Bool) (num : Nat)
  | special (core : Nat) (n : SReg)
  | loop (core : Nat) (l : Fin 3)
  | buffer (core : Nat)
  | tlb (core i : Nat)
  | l2tlb (die i : Nat)
  | scan (granule : Nat)
  | compute (core : Nat) (again : Bool)
  | column (slice col : Nat) (hard : Bool)
  | net (key : NetKey) (bits : Nat)
  | queue (lid bits : Nat)
  | barrier (die bits : Nat)
  | die (die bits : Nat)
  deriving DecidableEq, Repr

/-- What moves next (log 1): a core takes a turn, a step of the table is made, a cycle of device time passes, an
error strikes, or a loader announces a code image (log 17). -/
inductive Action where
  | turn (core : Nat)
  | event (i : Instr)
  | cycle
  | strike (e : Strike)
  | image (i : Image)
  deriving DecidableEq, Repr

/-- The state of the machine. -/
structure State where
  core     : Core                       -- the core that acts
  others   : Assoc Core                 -- the other cores, by number (01_machine.md R8; supervisor cores from 4,096)
  agenda   : List Action                -- the model's own (log 1)
  free     : Nat                        -- the model's own: the counter of free values (log 5)
  mem      : Memory                     -- host-physical memory (R328)
  mpois    : List Nat                   -- poisoned doublewords of it, by address div 8 (R381, R382)
  flips    : List Flip                  -- flipped bits of coded arrays that no read has met (R379)
  sweeps   : Assoc Nat                  -- the device time at which each die's last sweep ended (R381)
  rows     : Assoc (BitVec 64)          -- what flips have left in vertical parity rows, by sub-array (R379)
  clusters : Assoc Cluster              -- by die * 32 + cluster
  out      : List Nat                   -- slices out of service (R386)
  stack    : List StackCmd              -- commands that the HBM stacks have accepted (R199)
  drains   : List Drain                 -- `MDRAIN`s whose granules are under way, oldest first (R194)
  l2tlb    : Assoc (List TlbEntry)      -- by die (R333)
  scans    : Assoc ScanRecord           -- by granule, host-physical address div 32,768 (R57)
  twins    : Assoc Twin                 -- twin selector table, by set (R332)
  parts    : Assoc Partition            -- by number (R326)
  ctxs     : Assoc Context              -- by 16 * partition + context (R327)
  queues   : Assoc Queue                -- by number (R277)
  launches : Assoc Launch               -- by launch id (R280)
  nextLid  : Nat
  succs    : List Successor             -- successors picked for segments (R290)
  images   : List Image                 -- code images that carry `.local` blocks (R33; log 17)
  nets     : List (NetKey × Net)        -- counting networks (R257)
  tables   : Assoc RTable               -- by 64 * partition + table (R307)
  unpins   : List Unpin                 -- pins that kills have left, to be released (R311)
  gates    : Assoc (BitVec 256)         -- cores reserved as Caldera gateways, by die (R348)
  leases   : Assoc Lease                -- by 16 * die + engine (R342)
  lwaits   : List LeaseWait             -- oldest first
  lserial  : BitVec 32                  -- lease serials given so far
  msgs     : List Msg                   -- `SEND` branches under way
  nmsgs    : List NMsg                  -- `SENDN` and `HALO` arrivals under way
  puts     : List (Nat × EngineCmd)     -- `PUT` commands started and not handed off, with their core (R248)
  putOuts  : List PutOut                -- `PUT`s handed off to another module
  putIns   : List PutIn                 -- `PUT`s from peers that are landing (R221)
  putSer   : Nat                        -- the model's own: their next number
  putNos   : List PutNo                 -- rejections on their way back to peers (R399)
  stores   : List NetStore              -- stores that the network holds (R228), oldest first
  dirties  : List (Nat × Nat)           -- dirty bits that steps have yet to set, by partition and granule (R341)
  failed   : BitVec 16                  -- failed-die mask (R319)
  tephra   : Assoc Tephra               -- by die (R391)
  evBase   : Nat                        -- event queue registers (R396, R397)
  evLg     : Nat
  evProd   : Word
  evCons   : Word
  evLost   : Word
  dieEv    : Assoc EvCounter            -- die event counters, by 32 * die + counter (R394)
  time     : TimePort
  winBase  : Nat                        -- window table registers (R396)
  winCount : Nat
  windows  : List Window                -- entries as last read (R399)
  peers    : Assoc Word                 -- serial of each trained port's peer (R399)
  pcie     : BitVec 2                   -- links that are up (R395)
  clock    : Assoc Nat                  -- main clock in MHz of the dies that are stepped down (R402)
  start    : BitVec 2                   -- start status (R396)
  boots    : BitVec 32                  -- boot count, in module flash (R393)
  record   : List StartEntry            -- start record, in module flash (R393)
  rollback : Nat                        -- anti-rollback counter, in fuses (R401)
  spdm     : Spdm
  deriving DecidableEq, Repr

/-- The nominal rate word: 20/17 ns a cycle (R3, R294) in units of 2^-40 ns. -/
def nominalRate : BitVec 48 := 1293543091501#48

/-- The time port after reset: device time zero on the module oscillator, domain 0, 1588 enabled (R294, R295, R396). -/
def TimePort.reset : TimePort :=
  { dt := 0, low := 0, rate := nominalRate, slew := 0, state := 3, within := 0, given := false, ptm := false, lost := 0
    offset := 0, master := none, twoStep := none, delay := 0, domain := 0, enabled := true, req := false }

/-- Partition 0 right after reset holds every slice (log 3). -/
def Partition.reset0 : Partition := { Partition.empty with slices := BitVec.allOnes 2048 }

/-- The machine right after reset: R2, R294, R339, R396, R403 step 7, and the values of log 3. -/
def State.reset : State :=
  { core := Core.reset 0, others := [], agenda := [], free := 0
    mem := [], mpois := [], flips := [], sweeps := [], rows := [], clusters := [], out := [], stack := [], drains := [], l2tlb := [], scans := [], twins := []
    parts := [(0, Partition.reset0)], ctxs := [], queues := [], launches := [], nextLid := 1, succs := [], images := []
    nets := [], tables := [], unpins := [], gates := [], leases := [], lwaits := [], lserial := 0
    msgs := [], nmsgs := [], puts := [], putOuts := [], putIns := [], putSer := 0, putNos := [], stores := [], dirties := []
    failed := 0, tephra := []
    evBase := 0, evLg := 0, evProd := 0, evCons := 0, evLost := 0, dieEv := []
    time := TimePort.reset, winBase := 0, winCount := 0, windows := [], peers := [], pcie := 0, clock := []
    start := 0, boots := 0, record := [], rollback := 0, spdm := { stage := 0, log := [], last := [] } }

/-- What a meaning answers with. -/
abbrev Out := Host.Outcome State Fault Refusal

end Sys2Proof.Machine
end

