-- ==== Sys2Proof/Machine/Regs.lean ====
section
/-! DEFINITION. Register access, the landing of results, and the passing of slots (04_stream.md R63, R64, R74, R82, R83;
06_scalar.md R138). -/

namespace Sys2Proof.Machine

/-- Reads a scalar register; `x0` reads zero (R10). -/
def Core.rx (c : Core) (r : XReg) : Word := if r = 0 then 0 else c.x[r]
/-- Reads a vector register. -/
def Core.rv (c : Core) (r : VReg) : Tile := c.v[r]
/-- Reads a predicate register; `p0` reads all ones (R10). -/
def Core.rp (c : Core) (r : PReg) : Mask := if r = 0 then BitVec.allOnes 32 else c.p[r]

/-- Sets or clears bit `i` of a mark word. -/
def markBit {w : Nat} (m : BitVec w) (i : Nat) (b : Bool) : BitVec w :=
  if b then m ||| (1#w <<< i) else m &&& ~~~(1#w <<< i)

/-- Writes a scalar register; a write to `x0` is discarded. A result that writes the whole register sets the poison mark
as the result carries it (R386). -/
def Core.wx (c : Core) (r : XReg) (v : Word) (bad : Bool) : Core :=
  if r = 0 then c else { c with x := c.x.set r v, xPoison := markBit c.xPoison r bad, xBad := markBit c.xBad r false }
/-- The poisoned words of vector registers that stay so when a mask's bits of a register are written: a write of all of a word clears
its poison (R381). -/
def keepBad (l : List Nat) (r : VReg) (m : Tile) : List Nat :=
  l.filter fun d => !(d / 128 = r.val && (m >>> (64 * (d % 128))).truncate 64 = BitVec.allOnes 64)
/-- Writes the bits of a vector register that a mask selects. A write of part of a register leaves a poison mark standing
(R141, R386). -/
def Core.wv (c : Core) (r : VReg) (t m : Tile) (bad : Bool) : Core :=
  { c with v := c.v.set r ((c.v[r] &&& ~~~m) ||| (t &&& m))
           vPoison := if m = BitVec.allOnes 8192 ∨ bad then markBit c.vPoison r bad else c.vPoison
           vBad := keepBad c.vBad r m }
/-- Writes a predicate register; a write to `p0` is discarded. -/
def Core.wp (c : Core) (r : PReg) (m : Mask) (bad : Bool) : Core :=
  if r = 0 then c else { c with p := c.p.set r m, pPoison := markBit c.pPoison r bad, pBad := markBit c.pBad r false }

/-- The granules of the share that a range of bytes touches (R22). -/
def granules (off n : Nat) : List Nat :=
  if n = 0 then [] else (List.range ((off + n - 1) / 16 - off / 16 + 1)).map (· + off / 16)

/-- The doublewords that a write of a range covers wholly: it clears their poison (R382). -/
def wholeWords (off n : Nat) : List Nat :=
  (List.range (n / 8 + 1)).filterMap fun i =>
    let d := (off + 7) / 8 + i
    if 8 * d + 8 ≤ off + n then some d else none

/-- Bytes of the own share (R22). -/
def Core.shareRead (c : Core) (off n : Nat) : List Byte := c.share.read off n
/-- A number in the own share. -/
def Core.shareNat (c : Core) (off n : Nat) : Nat := c.share.readNat off n
/-- Writes the own share, leaving full bits as they are (R22, R228). -/
def Core.shareStore (c : Core) (off : Nat) (bs : List Byte) : Core :=
  { c with share := c.share.write off bs
           poison := c.poison.filter fun d => !(wholeWords off bs.length).contains d }
/-- Sets the full bits of the granules of a range. -/
def Core.setFull (c : Core) (off n : Nat) : Core := { c with full := (granules off n).foldl setAdd c.full }
/-- Writes the own share as an arrival does: granule by granule, each written whole and its full bit set (R22, R237). -/
def Core.arrive (c : Core) (off : Nat) (bs : List Byte) : Core :=
  let padded := bs ++ List.replicate ((16 - bs.length % 16) % 16) 0
  (c.shareStore off padded).setFull off bs.length

/-- A doubleword of the share marked poisoned within a range (R381, R382). -/
def Core.sharePoisoned (c : Core) (off n : Nat) : Bool := c.poison.any fun d => off < 8 * d + 8 && 8 * d < off + n

/-! The heap of `HSIFT` (R173). -/

/-- A key's place in the order NaN < −∞ < … < −0 = +0 < … < +∞. -/
def heapKey (k : Nat) : Int :=
  let m : Nat := k % 2 ^ 31
  if m > 0x7F800000 then -(2 ^ 32) else if k / 2 ^ 31 % 2 = 1 then -(m : Int) else m

/-- A heap's pairs of key and value. -/
abbrev Heap := List (Nat × Nat)

/-- The key of a pair. -/
def Heap.key (h : Heap) (j : Nat) : Int := heapKey (h.getD j (0, 0)).1
/-- Moves the pair at `j` down to its place; at most one step a level. -/
def Heap.sift : Nat → Heap → Nat → Heap
  | 0, h, _ => h
  | n + 1, h, j =>
    let l := 2 * j + 1
    if l ≥ h.length then h
    else
      let s := if l + 1 < h.length ∧ h.key (l + 1) < h.key l then l + 1 else l
      if h.key s < h.key j then Heap.sift n ((h.set j (h.getD s (0, 0))).set s (h.getD j (0, 0))) s else h
/-- A candidate enters when its key is greater than the smallest one. -/
def Heap.enter (h : Heap) (key val : Nat) : Heap :=
  if h.key 0 < heapKey key then Heap.sift h.length (h.set 0 (key, val)) 0 else h
/-- The heap that `.new` leaves. -/
def Heap.fresh (k : Nat) : Heap := List.replicate k (0xFF800000, 0xFFFFFFFF)
/-- The heap that bytes hold. -/
def Heap.ofBytes (k : Nat) (bs : List Byte) : Heap :=
  (List.range k).map fun j => (leNat ((bs.drop (8 * j)).take 4), leNat ((bs.drop (8 * j + 4)).take 4))
/-- A heap's bytes. -/
def Heap.bytes (h : Heap) : List Byte := h.flatMap fun e => leBytes 4 e.1 ++ leBytes 4 e.2

/-- The core has consumed an uncorrectable error: the address of the read and its source, for the record (R357, R386). -/
def Core.consumed (c : Core) (addr src : Nat) (info1 : Nat := 0) : Core :=
  { c with contained := true, waiting := false
           raised := some { cause := 0x21, addr := BitVec.ofNat 64 addr, info0 := BitVec.ofNat 64 src
                            info1 := BitVec.ofNat 64 info1, after := false } }

/-- One row's update of a heap in the own share. Poison that it reads is consumed (R382). -/
def Core.heapRow (c : Core) (k : Nat) (new : Bool) (r : HeapRow) : Core :=
  if !new && c.sharePoisoned r.off (8 * k) then c.consumed (8 * 2 ^ 60 + r.off) 1
  else
    let h := if new then Heap.fresh k else Heap.ofBytes k (c.shareRead r.off (8 * k))
    c.shareStore r.off (h.enter r.key r.val).bytes

/-- Puts a landing in place (R63, R118, R174). -/
def Core.land (c : Core) (p : Pend) : Core :=
  match p.land with
  | .x r v => c.wx r v p.poison
  | .v r t m => c.wv r t m p.poison
  | .p r m => c.wp r m p.poison
  | .flags f => { c with fflags := c.fflags ||| f }
  | .store off bs full => let c := c.shareStore off bs; if full then c.setFull off bs.length else c
  | .heap k new rows => rows.foldl (fun c r => c.heapRow k new r) c

/-- The earlier issued of two landings, an arrival counting as later on equal slots (R83). -/
def Pend.before (a b : Pend) : Bool := a.slot < b.slot || (a.slot = b.slot && (a.arr.isNone || b.arr.isSome))

/-- Puts a landing into the list, in order of issue. -/
def pendInsert (p : Pend) : List Pend → List Pend
  | [] => [p]
  | q :: l => if q.before p then q :: pendInsert p l else p :: q :: l

/-- Adds a landing with its latency at the core's slot. -/
def Core.later (c : Core) (left : Nat) (l : Landing) : Core :=
  { c with pend := pendInsert { left := left, slot := c.slot, land := l } c.pend }

/-- A scalar result, readable `n` slots on; `x0` discards it. -/
def Core.pendX (c : Core) (n : Nat) (r : XReg) (v : Word) : Core := if r = 0 then c else c.later n (.x r v)
/-- A vector result: the bits that the mask selects. -/
def Core.pendV (c : Core) (n : Nat) (r : VReg) (t m : Tile) : Core := c.later n (.v r t m)
/-- A predicate result; `p0` discards it. -/
def Core.pendP (c : Core) (n : Nat) (r : PReg) (m : Mask) : Core := if r = 0 then c else c.later n (.p r m)
/-- Flags that join `%fflags` (R118). -/
def Core.pendF (c : Core) (n : Nat) (f : Flags) : Core := if f = 0 then c else c.later n (.flags f)
/-- A store to the own share. -/
def Core.pendStore (c : Core) (n : Nat) (off : Nat) (bs : List Byte) (full : Bool) : Core :=
  if bs = [] then c else c.later n (.store off bs full)

/-- Which landings are register results or flags (R64); arrivals are not the core's own. -/
def Pend.ownReg (p : Pend) : Bool :=
  p.arr.isNone && (match p.land with | .x _ _ | .v _ _ _ | .p _ _ | .flags _ => true | _ => false)

/-- Lands what has no slot left, in order. -/
def Core.landDue (c : Core) : Core :=
  (c.pend.filter fun p => p.left = 0).foldl Core.land { c with pend := c.pend.filter fun p => p.left ≠ 0 }

/-- One counted slot passes: every pending landing comes one slot nearer (R63). While a handler runs, arrivals are held
(R361). -/
def Core.tick (c : Core) : Core :=
  let c := { c with slot := c.slot + 1
                    pend := c.pend.map fun (p : Pend) =>
                      if p.arr.isSome && c.frame.isSome then p else { p with left := p.left - 1 } }
  c.landDue

/-- A cycle of the core's own wait passes: its pending register results come one slot nearer (R64). -/
def Core.advance (c : Core) : Core :=
  Core.landDue { c with pend := c.pend.map fun (p : Pend) => if p.ownReg then { p with left := p.left - 1 } else p }

/-- Puts a landing behind those whose counted slot comes no later. -/
def slotInsert (p : Pend) : List Pend → List Pend
  | [] => [p]
  | q :: l => if q.left ≤ p.left then q :: slotInsert p l else p :: q :: l
/-- Landings in the order of their counted slots, those of one slot in the order of issue: a stop leaves what the counted
slots would have left (R138, R174, R175). -/
def inSlotOrder (l : List Pend) : List Pend := l.foldl (fun m p => slotInsert p m) []

/-- Everything issued lands, arrivals excepted, in the order of the counted slots, and within a slot in that of issue (R138, R175, R361;
log 49). -/
def Core.settle (c : Core) : Core :=
  let now := inSlotOrder (c.pend.filter fun p => p.arr.isNone)
  let c := now.foldl Core.land { c with pend := c.pend.filter fun p => p.arr.isSome }
  c.late.foldl Core.land { c with late := [] }

/-- Registers that an instruction reads and writes, and the doublewords that it reads of its vector registers where it does not read
all of them (R141). -/
structure Regs where
  x  : List XReg := []
  v  : List VReg := []
  p  : List PReg := []
  vw : Option (List Nat) := none
  deriving DecidableEq, Repr

/-- A landing that writes one of the registers. -/
def Pend.hits (p : Pend) (r : Regs) : Bool :=
  match p.land with
  | .x a _ => r.x.contains a
  | .v a _ _ => r.v.contains a
  | .p a _ => r.p.contains a
  | _ => false

/-- A result pending on one of the registers (R64); the scoreboard takes no part in arrivals (R82). -/
def Core.pending (c : Core) (r : Regs) : Bool := c.pend.any fun p => p.arr.isNone && p.hits r
/-- A variable-latency result pending on one of the registers. -/
def Core.awaited (c : Core) (r : Regs) : Bool := c.late.any fun p => p.hits r

/-- The scoreboard's hold (R64): in an exchange phase, a register that is read or written has a result pending; a
variable-latency result holds in either phase, since it was issued in an exchange phase (R19). -/
def Core.held? (c : Core) (r : Regs) : Bool := (c.phase = .exchange && c.pending r) || c.awaited r

/-- A register among them that marks name: its file and number (R357). -/
def Regs.marked (r : Regs) (x : BitVec 64) (v : VReg → Bool) (p : BitVec 8) : Option (Nat × Nat) :=
  match r.x.find? fun a => x.getLsbD a.val with
  | some a => some (0, a.val)
  | none =>
    match r.v.find? v with
    | some a => some (1, a.val)
    | none => (r.p.find? fun a => p.getLsbD a.val).map fun a => (2, a.val)
/-- A register among them that a poisoned arrival has marked (R386). -/
def Core.poisonReg (c : Core) (r : Regs) : Option (Nat × Nat) := r.marked c.xPoison (fun a => c.vPoison.getLsbD a.val) c.pPoison
/-- A poisoned word of a vector register that an instruction reads (R381, R382). -/
def Core.badWord (c : Core) (vw : Option (List Nat)) (a : VReg) : Bool :=
  c.vBad.any fun d => d / 128 = a.val && (match vw with | none => true | some l => l.contains (d % 128))
/-- A register among them with a parity error, or with a poisoned word that is read (R378, R381, R385). -/
def Core.badReg (c : Core) (r : Regs) : Option (Nat × Nat) := r.marked c.xBad (c.badWord r.vw) c.pBad

/-- Lands the oldest variable-latency result (R228). -/
def Core.landLate (c : Core) : Core :=
  match c.late with
  | [] => c
  | p :: l => { c with late := l }.land p

/-! The place in the stream. -/

/-- The number of members of the core's chain. -/
def Core.members (c : Core) : Nat := c.chain.rows * c.chain.cols
/-- The core leads its chain: it fetches, evaluates conditions and computes targets (R13). -/
def Core.leads (c : Core) : Bool := c.chain.r = 0 && c.chain.c = 0

/-- A loop whose back edge is due where sequential flow would fetch `a`, the instruction at the pc lying in its body:
innermost first, the latest start (R74). -/
def Core.backEdge (c : Core) (a : Word) : Option Level :=
  let due := (List.finRange 3).filter fun l =>
    let q := c.loops[l]
    q.active && q.stop = a && q.start ≤ c.pc && c.pc < q.stop
  due.foldl (fun m l => match m with
    | none => some l
    | some b => if c.loops[b].start < c.loops[l].start then some l else some b) none

/-- The loop levels with one ended: counter zero and inactive (R74, R75). -/
def loopEnd (ls : Vector LoopLevel 3) (l : Level) : Vector LoopLevel 3 :=
  ls.set l { ls[l] with cnt := 0, active := false }

/-- Sequential flow to an address, with the back edges that are due there (R74): at most three end at once. The answer
tells whether an edge was taken, and for which loop. -/
def Core.flow : Nat → Core → Word → Core × Option Level
  | 0, c, a => ({ c with pc := a }, none)
  | n + 1, c, a =>
    match c.backEdge a with
    | none => ({ c with pc := a }, none)
    | some l =>
      let q := c.loops[l]
      if q.cnt.toNat > 1 then ({ c with loops := c.loops.set l { q with cnt := q.cnt - 1 }, pc := q.start }, some l)
      else ({ c with loops := loopEnd c.loops l }).flow n a

/-- A loop body's extent in bytes; the body is held in the loop buffer when it has at most 256 instructions (R80).
Counted by `held`, which `Xlate` gives from the boundary maps. -/
def LoopLevel.bytes (q : LoopLevel) : Nat := q.stop.toNat - q.start.toNat

/-! Tiles. -/

/-- Element `i` of a tile of elements of `n` bytes (R140). -/
def tileElem (t : Tile) (n i : Nat) : Nat := t.toNat / 2 ^ (8 * n * i) % 2 ^ (8 * n)
/-- Bytes `off` to `off + n - 1` of a tile, as a number. -/
def tileBytes (t : Tile) (off n : Nat) : Nat := t.toNat / 2 ^ (8 * off) % 2 ^ (8 * n)
/-- The number that elements of `n` bytes form, the first lowest. -/
def joinElems (n : Nat) (es : List Nat) : Nat := es.foldr (fun e a => e % 2 ^ (8 * n) + 2 ^ (8 * n) * a) 0

/-- What an instruction writes into a vector register: bits, and the mask of the bits written (R140, R141). -/
structure Patch where
  val  : Tile := 0
  mask : Tile := 0
  deriving DecidableEq, Repr

/-- Adds `n` bytes at an offset. -/
def Patch.put (p : Patch) (off n v : Nat) : Patch :=
  { val := p.val ||| BitVec.ofNat 8192 (v % 2 ^ (8 * n) * 2 ^ (8 * off))
    mask := p.mask ||| BitVec.ofNat 8192 ((2 ^ (8 * n) - 1) * 2 ^ (8 * off)) }

end Sys2Proof.Machine
end

