-- ==== Sys2Proof/Machine/Phys.lean ====
section
/-! DEFINITION. The cores of the machine by number, host-physical memory and its poison (19_isolation.md R328,
22_containment.md R382), device time in nanoseconds, the tephra rings and the event queue (22_containment.md R391,
23_module.md R397), and the event counters (R394). -/

namespace Sys2Proof.Machine

/-! Cores by number. -/

/-- A core by number. -/
def State.coreAt (s : State) (n : Nat) : Core :=
  if s.core.id = n then s.core else s.others.get (Core.reset n) n

/-- Replaces a core. -/
def State.setCore (s : State) (c : Core) : State :=
  if s.core.id = c.id then { s with core := c } else { s with others := s.others.put c.id c }

/-- Changes a core. -/
def State.modCore (s : State) (n : Nat) (f : Core → Core) : State := s.setCore { f (s.coreAt n) with id := n }

/-- Makes a core the one that acts. -/
def State.focus (s : State) (n : Nat) : State :=
  if s.core.id = n then s
  else { s with core := { s.coreAt n with id := n }, others := (s.others.put s.core.id s.core).del n }

/-- Changes the core that acts. -/
def State.upd (s : State) (f : Core → Core) : State := { s with core := f s.core }

/-- The cores that anything has touched, in number order. -/
def State.allCores (s : State) : List Core := (s.others.map Prod.snd).filter (fun c => c.id < s.core.id) ++
  s.core :: (s.others.map Prod.snd).filter (fun c => s.core.id < c.id)

/-- The die of a core; supervisor cores are numbered 4,096 + die (R8, R9, log 1). -/
def dieOf (n : Nat) : Nat := if n < 4096 then n / 256 else (n - 4096) % 16
/-- A supervisor core (R9). -/
def isSupCore (n : Nat) : Bool := 4096 ≤ n
/-- Row of a mesh core. -/
def rowOf (n : Nat) : Nat := n / 32 % 8
/-- Column of a mesh core. -/
def colOf (n : Nat) : Nat := n % 32
/-- The cluster of a core, in the module: die * 32 + row * 4 + column div 8 (R15). -/
def clusterOf (n : Nat) : Nat := n / 8
/-- The index of a core in its cluster (R15). -/
def indexOf (n : Nat) : Nat := n % 8
/-- The slice of a core (R16). -/
def sliceOf (n : Nat) : Nat := n / 2
/-- The mesh neighbour of a core, if it has one (R243). -/
def neighbour (n : Nat) (d : Dir) : Option Nat :=
  match d with
  | .e => if colOf n = 31 then none else some (n + 1)
  | .w => if colOf n = 0 then none else some (n - 1)
  | .s => if rowOf n = 7 then none else some (n + 32)
  | .n => if rowOf n = 0 then none else some (n - 32)
/-- The opposite direction. -/
def Dir.back : Dir → Dir
  | .e => .w | .w => .e | .s => .n | .n => .s
/-- Direction codes of R225 and R244: east, south, west, north. -/
def Dir.num : Dir → Nat
  | .e => 0 | .s => 1 | .w => 2 | .n => 3

/-- A cluster by number. -/
def State.cluster (s : State) (n : Nat) : Cluster := s.clusters.get Cluster.reset n
/-- Changes a cluster. -/
def State.modCluster (s : State) (n : Nat) (f : Cluster → Cluster) : State :=
  { s with clusters := s.clusters.put n (f (s.cluster n)) }

/-- A partition by number. -/
def State.part (s : State) (n : Nat) : Partition := s.parts.get Partition.empty n
/-- Changes a partition. -/
def State.modPart (s : State) (n : Nat) (f : Partition → Partition) : State :=
  { s with parts := s.parts.put n (f (s.part n)) }
/-- A context by number: 16 * partition + context. -/
def State.context (s : State) (n : Nat) : Context := s.ctxs.get Context.empty n
/-- Changes a context. -/
def State.modCtx (s : State) (n : Nat) (f : Context → Context) : State :=
  { s with ctxs := s.ctxs.put n (f (s.context n)) }
/-- Changes a launch that is live. -/
def State.modLaunch (s : State) (lid : Nat) (f : Launch → Launch) : State :=
  match s.launches.find? lid with
  | none => s
  | some l => { s with launches := s.launches.put lid (f l) }

/-- The partition that holds a slice, if one does (R326). -/
def State.sliceHolder (s : State) (sl : Nat) : Option Nat :=
  (List.find? (fun (e : Nat × Partition) => e.2.slices.getLsbD sl) s.parts).map Prod.fst
/-- The partition of a mesh core (R326). -/
def State.corePart (s : State) (n : Nat) : Option Nat := if n < 4096 then s.sliceHolder (sliceOf n) else none
/-- A die belongs to a partition when the partition holds a slice on it (R326). -/
def State.dieOfPart (s : State) (p d : Nat) : Bool :=
  ((s.part p).slices >>> (128 * d)).truncate 128 != 0

/-! Device time (R294). -/

/-- Device time in nanoseconds, bits 63 to 0. -/
def TimePort.ns (t : TimePort) : Nat := t.dt.toNat / 65536
/-- Device time in nanoseconds. -/
def State.now (s : State) : Nat := s.time.ns

/-- Device time as one number of 2^-40 ns. -/
def TimePort.fine (t : TimePort) : Nat := t.dt.toNat * 2 ^ 24 + t.low.toNat
/-- Sets device time. -/
def TimePort.setFine (t : TimePort) (n : Nat) : TimePort :=
  { t with dt := BitVec.ofNat 80 (n / 2 ^ 24), low := BitVec.ofNat 24 n }

/-- One core cycle of device time: the rate word, and the part of a pending slew that 500 ppm admit (R294, R296). -/
def TimePort.cycle (t : TimePort) : TimePort :=
  let r := t.rate.toNat
  let cap : Int := r / 2000
  let d := if t.slew > cap then cap else if t.slew < -cap then -cap else t.slew
  { t.setFine ((t.fine : Int) + r + d).toNat with slew := t.slew - d }

/-- A cycle passes. -/
def State.cycle (s : State) : State := { s with time := s.time.cycle }

/-- A step of the start has been skipped (R393, R403). -/
def State.skipped (s : State) (step : Nat) : Bool := s.record.any fun e => e.step = step && e.out = 3

/-! Event counters (R394). -/

/-- A counter that selects the source counts. -/
def EvCounter.bump (src n : Nat) (e : EvCounter) : EvCounter :=
  if e.src = src then { e with val := e.val + BitVec.ofNat 64 n } else e

/-- `n` events of a source at a core and its die. -/
def State.count (s : State) (core src n : Nat) : State :=
  let s := if core < 4096 then s.modCore core fun c => { c with events := c.events.map (EvCounter.bump src n) } else s
  { s with dieEv := s.dieEv.map fun e => if e.1 / 32 = dieOf core then (e.1, e.2.bump src n) else e }

/-- `n` events of a source at a unit of a die. -/
def State.countDie (s : State) (die src n : Nat) : State :=
  { s with dieEv := s.dieEv.map fun e => if e.1 / 32 = die then (e.1, e.2.bump src n) else e }

/-! Host-physical memory (R328). -/

/-- The region of a host-physical address (R328). -/
def hpaRegion (a : Nat) : Nat := a / 2 ^ 53 % 16
/-- HBM, LPDDR, bank store and host regions. -/
def isHbm (a : Nat) : Bool := hpaRegion a = 0
/-- LPDDR. -/
def isLpddr (a : Nat) : Bool := hpaRegion a = 1
/-- Bank store. -/
def isBank (a : Nat) : Bool := hpaRegion a = 2
/-- Host memory. -/
def isHost (a : Nat) : Bool := 8 ≤ hpaRegion a

/-- The die that holds an address of the device's own memory. -/
def hpaDie (a : Nat) : Nat := if isBank a then a % 2 ^ 53 / 2 ^ 26 else a % 2 ^ 53 / 2 ^ 37

/-- First byte of the reserved tephra region of a die (R392). -/
def tephraBase (die : Nat) : Nat := 2 ^ 53 + die * 2 ^ 37 + 128 * 10 ^ 9 - 262144

/-- An address that stage 2 may not map (R328). -/
def hpaReserved (a : Nat) : Bool :=
  if a ≥ 2 ^ 57 then true
  else if isHbm a then a % 2 ^ 53 / 2 ^ 37 ≥ 16 || a % 2 ^ 37 ≥ 96 * 10 ^ 9
  else if isLpddr a then a % 2 ^ 53 / 2 ^ 37 ≥ 16 || a % 2 ^ 37 ≥ 128 * 10 ^ 9 - 262144
  else if isBank a then a % 2 ^ 53 / 2 ^ 26 ≥ 16
  else !isHost a

/-- Some address of a range from `a` on is reserved (R328, R330). -/
def rangeReserved (a n : Nat) : Bool :=
  hpaReserved a || hpaReserved (a + n - 1) || hpaRegion a != hpaRegion (a + n - 1) ||
    (!isHost a && !isBank a && decide (a % 2 ^ 37 + n > 2 ^ 37))

/-- The stack of an HBM address, in the module (R199): 48 GB a stack. -/
def hbmStack (a : Nat) : Nat := 2 * hpaDie a + a % 2 ^ 37 / (48 * 10 ^ 9)

/-- The address lies in a failed die's memory (R389). -/
def State.deadMem (s : State) (a : Nat) : Bool := decide (a < 2 ^ 57) && !isHost a && s.failed.getLsbD (hpaDie a)

/-- The global virtual address at which the scheduler maps the task queue of a launch that it takes (R282; log 5). -/
def queueVa (lid : Nat) : Nat := (Sys2Proof.Config.taskQueue lid).toNat / 2 ^ 21 * 2 ^ 21
/-- Where the memory that backs it lies, past every host-physical address that stage 2 may map (R282; log 5). -/
def queueHpa (lid : Nat) : Nat := 2 ^ 62 + 3 * 2 ^ 53 + lid * 2 ^ 21
/-- The die of that memory (R282, R389; log 5). -/
def queueDie (lid : Nat) : Nat := (Sys2Proof.Config.taskQueueDie lid).toNat
/-- The host-physical address of a byte of a task queue of a context (R282). -/
def State.queueAt (s : State) (ctx va : Nat) : Option Nat :=
  s.launches.findSome? fun e =>
    if e.2.ctx = ctx ∧ e.2.qva ≤ va ∧ va < e.2.qva + 2 ^ 21 then some (queueHpa e.1 + (va - e.2.qva)) else none

/-- A range reads poison (R382, R389). -/
def State.physPoison (s : State) (a n : Nat) : Bool :=
  s.deadMem a || s.mpois.any fun d => a < 8 * d + 8 && 8 * d < a + n

/-- Bytes of host-physical memory. -/
def State.physRead (s : State) (a n : Nat) : List Byte := s.mem.read a n
/-- A number in host-physical memory. -/
def State.physNat (s : State) (a n : Nat) : Nat := s.mem.readNat a n

/-- Writes host-physical memory: the bytes, the poison of the words written whole (R382), and the scan records of the
granules written, which are dropped (R60). A failed die's memory takes no write (R389). -/
def State.physWrite (s : State) (a : Nat) (bs : List Byte) : State :=
  if bs = [] ∨ s.deadMem a then s
  else
    let ww := wholeWords a bs.length
    { s with mem := s.mem.write a bs
             mpois := s.mpois.filter fun d => !ww.contains d
             scans := s.scans.filter fun e => e.1 < a / 32768 || (a + bs.length - 1) / 32768 < e.1 }

/-- Writes a number. -/
def State.physPut (s : State) (a n v : Nat) : State := s.physWrite a (leBytes n v)

/-- Zero-fills a range with fresh check bits (R346). -/
def State.physZero (s : State) (a n : Nat) : State :=
  if n = 0 then s
  else { s with mem := s.mem.zero a n
                mpois := s.mpois.filter fun d => 8 * d + 8 ≤ a || a + n ≤ 8 * d
                scans := s.scans.filter fun e => e.1 < a / 32768 || (a + n - 1) / 32768 < e.1 }

/-! The tephra record and the event queue. -/

/-- An entry's 32 bytes (R391). -/
def TephraEv.bytes (e : TephraEv) : List Byte :=
  leBytes 8 e.dt ++ leBytes 2 e.code ++ leBytes 1 e.die ++ leBytes 1 e.part ++ leBytes 2 e.core ++ leBytes 2 0 ++
    leBytes 8 e.arg0 ++ leBytes 8 e.arg1

/-- The kinds of event that the event queue carries (R397). -/
def queued (code : Nat) : Bool := code = 0x0C || code = 0x09 || code = 0x0B

/-- Writes an event queue entry and advances the producer index, or counts the event as lost (R397). -/
def State.evQueue (s : State) (e : TephraEv) : State :=
  if s.evBase = 0 then s
  else if s.evProd - s.evCons = BitVec.ofNat 64 (2 ^ s.evLg) then
    { s with evLost := if s.evLost = BitVec.allOnes 64 then s.evLost else s.evLost + 1 }
  else
    let s' := s.physWrite (s.evBase + 32 * (s.evProd.toNat % 2 ^ s.evLg)) e.bytes
    { s' with evProd := s.evProd + 1 }

/-- Enters an event in the ring of its die; the oldest entry is overwritten first (R391). -/
def State.tephraAdd (s : State) (e : TephraEv) : State :=
  let t := s.tephra.get { evs := [], wrapped := false } e.die
  let evs := t.evs ++ [e]
  let t' : Tephra := if evs.length > 4096 then { evs := evs.drop 1, wrapped := true } else { t with evs := evs }
  { s with tephra := s.tephra.put e.die t' }

/-- A value that nothing fixes (log 5). -/
def State.openWord (s : State) : State × Word := ({ s with free := s.free + 1 }, Sys2Proof.Config.openWord s.free)

/-- An argument of an event: the value, or where the spec states none, a value that nothing fixes (R391; log 5). -/
def State.arg (s : State) (a : Option Nat) : State × Nat :=
  match a with
  | some v => (s, v)
  | none => let (s, w) := s.openWord; (s, w.toNat)

/-- The lowest die that has not failed: it enters the events of the module as a whole (log 19). -/
def State.eventDie (s : State) : Nat := ((List.range 16).find? fun d => !s.failed.getLsbD d).getD 0

/-- An event of a die (R391); `part` 255 and `core` 65,535 stand for none. -/
def State.event (s : State) (die code part core : Nat) (arg0 arg1 : Option Nat) : State :=
  let (s, a0) := s.arg arg0
  let (s, a1) := s.arg arg1
  let e : TephraEv := { dt := s.now, code := code, die := die, part := part, core := core, arg0 := a0, arg1 := a1 }
  let s := s.tephraAdd e
  if queued code then s.evQueue e else s

end Sys2Proof.Machine
end

