-- ==== Sys2Proof/Machine/Nets.lean ====
section
/-! DEFINITION. Counting networks: their construction, the balancer and exit steps, and operations carried through
(12_geyser.md R253 to R266). -/

namespace Sys2Proof.Machine

/-- Every second element from the first on. -/
def evens {α : Type} : List α → List α
  | [] => []
  | [a] => [a]
  | a :: _ :: l => a :: evens l
/-- Every second element from the second on. -/
def odds {α : Type} (l : List α) : List α := evens l.tail

/-- The balancers made so far, in creation order, by their two input streams (R255). -/
abbrev Bals := List (Stream × Stream)

/-- Creates the next balancer and answers its two output streams (R255). -/
def mkBal (bs : Bals) (a b : Stream) : Bals × Stream × Stream :=
  (bs ++ [(a, b)], .out bs.length false, .out bs.length true)

/-- A row of balancers over paired streams. -/
def balRow (bs : Bals) : List Stream → List Stream → Bals × List Stream
  | a :: x, b :: y =>
    let (bs, o0, o1) := mkBal bs a b
    let (bs, z) := balRow bs x y
    (bs, o0 :: o1 :: z)
  | _, _ => (bs, [])

/-- `Merger` of R255, `k` the log2 of the length of each half. -/
def merger : Nat → Bals → List Stream → List Stream → Bals × List Stream
  | 0, bs, x, y => balRow bs x y
  | k + 1, bs, x, y =>
    let (bs, e) := merger k bs (evens x) (odds y)
    let (bs, o) := merger k bs (odds x) (evens y)
    balRow bs e o

/-- `Bitonic` of R255 on `2^k` streams. -/
def bitonic : Nat → Bals → List Stream → Bals × List Stream
  | 0, bs, s => (bs, s)
  | k + 1, bs, s =>
    let h := 2 ^ k
    let (bs, x) := bitonic k bs (s.take h)
    let (bs, y) := bitonic k bs (s.drop h)
    merger k bs x y

/-- The first layer of `Block`: stream i with stream n - 1 - i. -/
def foldRow (bs : Bals) : List Stream → List Stream → Bals × List Stream × List Stream
  | a :: x, b :: y =>
    let (bs, o0, o1) := mkBal bs a b
    let (bs, lo, hi) := foldRow bs x y
    (bs, o0 :: lo, o1 :: hi)
  | _, _ => (bs, [], [])

/-- `Block` of R255 on `2^k` streams. -/
def block : Nat → Bals → List Stream → Bals × List Stream
  | 0, bs, s => (bs, s)
  | k + 1, bs, s =>
    let h := 2 ^ k
    let (bs, lo, hi) := foldRow bs (s.take h) (s.drop h).reverse
    let (bs, x) := block k bs lo
    let (bs, y) := block k bs hi.reverse
    (bs, x ++ y)

/-- `Periodic` of R255: `n` blocks. -/
def periodic (k : Nat) : Nat → Bals → List Stream → Bals × List Stream
  | 0, bs, s => (bs, s)
  | n + 1, bs, s => let (bs, s) := block k bs s; periodic k n bs s

/-- The balancers of a network and its output streams by exit number (R255). -/
def network (lw : Nat) (per : Bool) : Bals × List Stream :=
  let s := (List.range (2 ^ lw)).map Stream.wire
  if per then periodic lw lw [] s else bitonic lw [] s

/-- The number of balancers (R256). -/
def balCount (lw : Nat) (per : Bool) : Nat :=
  if per then lw * lw * 2 ^ lw / 2 else lw * (lw + 1) * 2 ^ lw / 4

/-- Where a stream leads: a balancer by number, or an exit. -/
inductive Lead where
  | bal (b : Nat)
  | exit (j : Nat)
  deriving DecidableEq, Repr

/-- Where a stream leads in a network. -/
def Net.lead (n : Net) (p : Stream) : Lead :=
  let (bs, outs) := network n.lw n.per
  match bs.findIdx? fun b => b.1 = p || b.2 = p with
  | some b => .bal b
  | none => .exit (outs.findIdx fun o => o = p)

/-- A balancer's step (R253): the output taken and the toggle after. -/
def balStep (t anti : Bool) : Bool × Bool := if anti then (!t, !t) else (t, !t)

/-- An exit's step (R254): the value returned and the counter after. -/
def exitStep (c : Word) (w : Nat) (anti : Bool) : Word × Word :=
  if anti then (c - BitVec.ofNat 64 w, c - BitVec.ofNat 64 w) else (c, c + BitVec.ofNat 64 w)

/-- The next step of an operation in flight, at a balancer or at an exit (R262). -/
def Net.step1 (n : Net) (o : CntOp) : Net × CntOp :=
  match o.value with
  | some _ => (n, o)
  | none =>
    match n.lead o.pos with
    | .bal b =>
      let (out, t) := balStep (n.togg.getD b false) o.anti
      ({ n with togg := n.togg.set b t }, { o with pos := .out b out })
    | .exit j =>
      let (v, c) := exitStep (n.exits.getD j 0) (2 ^ n.lw) o.anti
      ({ n with exits := n.exits.set j c }, { o with value := some v })

/-- An operation carried to the return of its value: at most 36 balancers and an exit (R256). -/
def Net.carry (n : Net) (o : CntOp) : Nat → Net × CntOp
  | 0 => (n, o)
  | k + 1 => let (n, o) := n.step1 o; n.carry o k

/-! The order of the steps of a cycle (R263). -/

/-- The input port on which an operation arrives: 0 or 1 at a balancer; at an exit, the output port of the balancer that feeds
it (R263). -/
def Net.port (n : Net) (o : CntOp) : Nat :=
  match n.lead o.pos with
  | .bal b => if ((network n.lw n.per).1.getD b (.wire 0, .wire 0)).1 = o.pos then 0 else 1
  | .exit _ => match o.pos with | .out _ p => p.toNat | .wire _ => 0
/-- The step that an operation would take at a time; on a lost network none (R270). -/
def Net.stepOf (n : Net) (o : CntOp) (now : Nat) : Option NetStep :=
  if o.value.isSome || n.lost then none
  else match n.lead o.pos with
    | .bal b => some { time := now, exit := false, num := b, port := n.port o, core := o.core }
    | .exit j => some { time := now, exit := true, num := j, port := n.port o, core := o.core }
/-- The step that the `i`-th operation would take at a time. -/
def Net.stepAt (n : Net) (i now : Nat) : Option NetStep := (n.ops[i]?).bind fun o => n.stepOf o now
/-- A step comes after another of the same cycle and place: by port, then by core (R263). -/
def NetStep.after (a b : NetStep) : Bool := b.port < a.port || (b.port = a.port && b.core < a.core)
/-- A step may be made: none of this cycle at its place comes after it. -/
def Net.inOrder (n : Net) (q : NetStep) : Bool :=
  n.steps.all fun p => !(p.time = q.time && p.exit = q.exit && p.num = q.num && p.after q)
/-- Steps made stand in the order of their cycle. -/
def Net.made (n : Net) (now : Nat) (qs : List NetStep) : Net := { n with steps := n.steps.filter (fun p => p.time = now) ++ qs }
/-- The steps that an operation has before it, all in one cycle. -/
def Net.path (n : Net) (o : CntOp) (now : Nat) : Nat → List NetStep
  | 0 => []
  | k + 1 => match n.stepOf o now with
    | none => []
    | some q => let (m, p) := n.step1 o; q :: m.path p now k
/-- An operation carried through in a cycle, with its steps in the order of the cycle. -/
def Net.carryAt (n : Net) (o : CntOp) (now : Nat) : Net × CntOp :=
  let r := n.carry o 40
  (r.1.made now (n.path o now 40), r.2)

/-- A new network: toggles 0, counter j at j (R253, R254). -/
def Net.new (lw : Nat) (per void : Bool) (home slg clg base part ctx : Nat) : Net :=
  { lw := lw, per := per, void := void, home := home, slg := slg, clg := clg, base := base, part := part
    togg := List.replicate (balCount lw per) false
    exits := (List.range (2 ^ lw)).map (BitVec.ofNat 64)
    ops := [], lost := false, dying := false, ctx := ctx }

/-- A network that is quiescent (R265). -/
def Net.quiet (n : Net) : Bool := n.ops.all fun o => o.value.isSome

/-- The count of a quiescent network: the least of the exits' values, read as signed (R265). -/
def Net.total (n : Net) : Word :=
  let v := n.exits.map BitVec.toInt
  BitVec.ofInt 64 (v.foldl (fun a b => if b < a then b else a) (v.headD 0))

/-! Networks by name. -/

/-- A network by name. -/
def State.net (s : State) (k : NetKey) : Option Net :=
  (s.nets.find? fun e => e.1 = k).map Prod.snd
/-- Replaces a network. -/
def State.setNet (s : State) (k : NetKey) (n : Net) : State :=
  { s with nets := s.nets.map fun e => if e.1 = k then (k, n) else e }
/-- Whose entries of a router a network takes (R256, R308): a partition's share, or Caldera's. The scheduler's own take none
that a share counts (log 60). -/
inductive Share where
  | part (p : Nat)
  | caldera
  | own
  deriving DecidableEq, Repr
/-- The share that a name draws on. -/
def shareOf (part : Nat) : NetKey → Share
  | .launch _ _ | .part _ _ => .part part
  | .queue _ _ => .own
  | _ => .caldera
/-- Entries of a share in each router of a die (R26, R350; log 20). -/
def State.shareSize (s : State) : Share → Nat
  | .part p => (s.part p).bal
  | .caldera => 64 - (s.parts.map fun e => e.2.bal).sum
  | .own => 64
/-- The routers on which the networks of a share have entries on a die, one entry a mention. -/
def State.taken (s : State) (sh : Share) (home : Nat) (f : Net → List Nat) : List Nat :=
  (s.nets.filter fun e => e.2.home = home && shareOf e.2.part e.1 = sh).flatMap fun e => f e.2
/-- Free places router by router, lowest number first (R256). -/
def freePlaces (size : Nat) (used : List Nat) : List Nat :=
  (List.range 32).flatMap fun r => List.replicate (size - used.count r) r
/-- Hops between two routers of a die's mesh of 8 rows by 4 columns (R26). -/
def hops (a b : Nat) : Nat := (max a b / 4 - min a b / 4) + (max (a % 4) (b % 4) - min (a % 4) (b % 4))
/-- The router for an exit counter: the one of the balancer that feeds it, else the nearest with a free cell, ties to the lower
number (R256). -/
def cellFor (size : Nat) (used : List Nat) (r : Nat) : Nat :=
  ((List.range 32).filter fun q => used.count q < size).foldl (fun (m : Option Nat) q => match m with
    | none => some q
    | some b => if hops q r < hops b r then some q else some b) none |>.getD r
/-- Cells for the exits one after another, given the routers that feed them. -/
def cellsFor (size : Nat) : List Nat → List Nat → List Nat
  | _, [] => []
  | used, r :: rs => let q := cellFor size used r; q :: cellsFor size (q :: used) rs
/-- The placement that the creator records (R256, R260). -/
def State.placeNet (s : State) (k : NetKey) (n : Net) : Net :=
  let sh := shareOf n.part k
  let (bs, outs) := network n.lw n.per
  let place := (freePlaces (s.shareSize sh) (s.taken sh n.home Net.place)).take bs.length
  let fed := outs.map fun o => match o with | .out b _ => place.getD b 0 | .wire _ => 0
  { n with place := place, cells := cellsFor (s.shareSize sh) (s.taken sh n.home Net.cells) fed }
/-- Adds a network, replacing one of the name. -/
def State.addNet (s : State) (k : NetKey) (n : Net) : State :=
  let s := { s with nets := s.nets.filter fun e => e.1 ≠ k }
  { s with nets := s.nets ++ [(k, s.placeNet k n)] }
/-- Removes a network. -/
def State.dropNet (s : State) (k : NetKey) : State := { s with nets := s.nets.filter fun e => e.1 ≠ k }

/-- Balancer entries that a partition uses on a die (R256). Caldera's networks use the Caldera entries (R308). -/
def State.balUsed (s : State) (part die : Nat) : Nat :=
  (s.nets.map fun e => match e.1 with
    | .launch _ _ | .part _ _ => if e.2.part = part ∧ e.2.home = die then balCount e.2.lw e.2.per else 0
    | _ => 0).sum
/-- Exit cells that a partition uses on a die. -/
def State.exitUsed (s : State) (part die : Nat) : Nat :=
  (s.nets.map fun e => match e.1 with
    | .launch _ _ | .part _ _ => if e.2.part = part ∧ e.2.home = die then 2 ^ e.2.lw else 0
    | _ => 0).sum

/-- An instance specification (R258): its two doublewords. -/
structure ISpec where
  w0 : Nat
  w1 : Nat
  deriving DecidableEq, Repr

/-- The specification is refused (R258): a reserved value, a nonzero zero field, a home die that is not the partition's,
or too few free entries. -/
def State.specBad (s : State) (part : Nat) (i : ISpec) : Bool :=
  let lw := i.w0 % 8
  let per := i.w0 / 8 % 2 = 1
  let kill := i.w0 / 16 % 2 = 1
  let home := i.w0 / 256 % 16
  let slg := i.w0 / 4096 % 16
  let clg := i.w0 / 65536 % 32
  lw = 0 || lw = 7 || i.w0 / 32 % 8 != 0 || i.w0 / 2 ^ 21 != 0 ||
  !s.dieOfPart part home || s.failed.getLsbD home ||
  (if kill then slg < 4 || slg > 12 || clg > 24 || i.w1 / 2 ^ 57 != 0 || i.w1 % 2 ^ slg != 0
   else slg != 0 || clg != 0 || i.w1 != 0) ||
  32 * (s.part part).bal < s.balUsed part home + balCount lw per ||
  32 * (s.part part).bal < s.exitUsed part home + 2 ^ lw

/-- The network that a specification asks for. -/
def ISpec.net (i : ISpec) (part ctx : Nat) : Net :=
  Net.new (i.w0 % 8) (i.w0 / 8 % 2 = 1) (i.w0 / 16 % 2 = 1) (i.w0 / 256 % 16) (i.w0 / 4096 % 16) (i.w0 / 65536 % 32)
    i.w1 part ctx

/-- The cycle in which an operation is carried through: this one, or the next when the steps that others have taken in this one
leave some of its own behind (R263). -/
def State.turnFor (s : State) (n : Net) (o : CntOp) : State :=
  if (n.path o s.now 40).all n.inOrder then s else s.cycle
/-- One counting operation carried through at once (R262): its value. A network that is lost or absent gives none. -/
def State.count1 (s : State) (k : NetKey) (core : Nat) (anti : Bool) : State × Option Word :=
  match s.net k with
  | none => (s, none)
  | some n =>
    if n.lost then (s, none)
    else
      let o : CntOp := { core := core, ctx := (s.coreAt core).ctx, anti := anti, wire := core % 2 ^ n.lw
                         pos := .wire (core % 2 ^ n.lw), value := none, dead := false }
      let s := s.turnFor n o
      let (n, o) := n.carryAt o s.now
      ((s.setNet k n).countDie n.home 0x0D ((network n.lw n.per).1.length * 2 / 2 ^ n.lw), o.value)

/-- A network that waits for its destruction goes when nothing is in flight on it (R270). -/
def State.reapNet (s : State) (k : NetKey) : State :=
  match s.net k with
  | some n => if n.dying && n.ops = [] then s.dropNet k else s
  | none => s
/-- A network is to go: at once when nothing is in flight on it (R270). -/
def State.endNet (s : State) (k : NetKey) : State :=
  match s.net k with
  | some n => (s.setNet k { n with dying := true }).reapNet k
  | none => s

/-- The operation of a core that is in flight or has returned (R262: at most one). -/
def Net.mine (n : Net) (core : Nat) : Option CntOp := n.ops.find? fun o => o.core = core && !o.dead
/-- The operation of a core is taken out. -/
def Net.forget (n : Net) (core : Nat) : Net := { n with ops := n.ops.filter fun q => !(q.core = core && !q.dead) }
/-- Carries the operation of a core to the return of its value and takes it out. -/
def Net.take (n : Net) (core now : Nat) : Net × Option Word :=
  match n.mine core with
  | none => (n, none)
  | some o =>
    let (n, o') := n.carryAt o now
    (n.forget core, o'.value)
/-- The cycle in which the operation of a core is carried to its value. -/
def State.turnOf (s : State) (n : Net) (core : Nat) : State :=
  match n.mine core with | some o => s.turnFor n o | none => s

/-- An operation that a stop finds in flight is carried to its value, and its `CNT` retires (R270). `stage` keeps the
destination. On a lost network it stays, for its trap. -/
def State.settleCount (s : State) (core : Nat) : State :=
  match s.nets.find? fun e => (e.2.mine core).isSome && !e.2.lost with
  | none => s
  | some (k, n) =>
    let s := s.turnOf n core
    let (n, v) := n.take core s.now
    let s := (s.setNet k n).reapNet k
    match v with
    | none => s
    | some v => s.modCore core fun c =>
        let d : XReg := Fin.ofNat 64 (c.stage - 1)
        let c := { c.wx d v false with waiting := false, stage := 0, slot := c.slot + 1, retired := c.retired + 1 }
        if c.leads then (c.flow 4 c.npc).1 else c

end Sys2Proof.Machine
end

