-- ==== Sys2Proof/WellFormed.lean ====
section
/-! DEFINITION. Which terms of `Instr` are instructions: the checks of the code-page scanner (03_formats.md R43, R58)
that the types of the fields do not already make, with the type classes and the pairings of type and code that the
vector and matrix chapters admit (07_vector.md R143, R145; 08_matrix.md R177). The steps of units, scheduler, host and
module carry no words and are always well formed. -/

namespace Sys2Proof

/-- Class I of R143. -/
def Ty.isInt : Ty → Bool
  | .n8 | .s8 | .n16 | .s16 | .n32 | .s32 | .n64 | .s64 => true
  | _ => false

/-- Class F of R143. -/
def Ty.isFloat : Ty → Bool
  | .f32 | .bf16 | .f16 => true
  | _ => false

/-- Class N of R143. -/
def Ty.isNarrow : Ty → Bool
  | .e4m3 | .e5m2 | .d8 => true
  | _ => false

/-- Record types: codes 0x10 to 0x14 (R47). -/
def Ty.isRec : Ty → Bool
  | .mx4 | .mx6 | .mx6a | .mx8 | .dx8 => true
  | _ => false

/-- Element types: codes 0x00 to 0x0D (R47). -/
def Ty.isElem (t : Ty) : Bool := !t.isRec

/-- Signed integers. -/
def Ty.isSigned : Ty → Bool
  | .s8 | .s16 | .s32 | .s64 => true
  | _ => false

/-- Class I or F. -/
def Ty.isIF (t : Ty) : Bool := t.isInt || t.isFloat

/-- The types that the matrix unit and the near-bank multipliers admit (R177). -/
def Ty.isMat : Ty → Bool
  | .bf16 | .f16 | .d8 | .dx8 | .e4m3 | .e5m2 | .mx8 | .mx6 | .mx6a | .mx4 => true
  | _ => false

/-- Unit size in bytes (R47). -/
def Ty.size : Ty → Nat
  | .n8 | .s8 | .e4m3 | .e5m2 | .d8 => 1
  | .n16 | .s16 | .bf16 | .f16 => 2
  | .n32 | .s32 | .f32 => 4
  | .n64 | .s64 => 8
  | .mx4 => 17
  | .mx6 | .mx6a => 25
  | .mx8 | .dx8 => 33

/-- `VADD` and `VSUB`: `.sat` is of class I (R145). -/
def VSat.admits : VSat → Ty → Bool
  | .plain, t => t.isIF
  | .sat, t => t.isInt

/-- `VMUL`: `.hi` and `.sat` are of class I (R145). -/
def VMulFn.admits : VMulFn → Ty → Bool
  | .plain, t => t.isIF
  | .hi, t | .sat, t => t.isInt

/-- `VMINMAX`: `.minp` and `.maxp` are of class F (R145). -/
def VMmFn.admits : VMmFn → Ty → Bool
  | .min, t | .max, t => t.isIF
  | .minp, t | .maxp, t => t.isFloat

/-- `VCMP`: `.un` is of class F (R145). -/
def VCmpFn.admits : VCmpFn → Ty → Bool
  | .un, t => t.isFloat
  | _, t => t.isIF

/-- `VDOT`: types of 1, 2 or 4 bytes in every class; `.sat` for class I only (R160). -/
def VSat.admitsDot : VSat → Ty → Bool
  | .plain, t => t.isElem && t.size ≤ 4
  | .sat, t => t.isInt && t.size ≤ 4

/-- `VCVT`: `.sat` is admitted for integer to integer only (R155). -/
def VSat.admitsCvt : VSat → Ty → Ty → Bool
  | .plain, src, t => src.isElem && t.isElem
  | .sat, src, t => src.isInt && t.isInt

/-- The one-operand forms of `SFOP` (R133). -/
def SfFn.oneOperand : SfFn → Bool
  | .add | .sub | .mul | .div | .min | .max => false
  | _ => true

/-- The column forms of `VRED` (R163). -/
def VRedFn.isCol : VRedFn → Bool
  | .csum | .cmax | .cmin => true
  | _ => false

/-- Special registers that `SWR` may name (R54). -/
def SReg.writable : SReg → Bool
  | .vs | .fflags | .frm | .dom | .srseed => true
  | _ => false

/-- The floating operations of `ATOM`, of size `.w` only (R230). -/
def AtomOp.isFloat : AtomOp → Bool
  | .fadd | .fmin | .fmax => true
  | _ => false

/-- The types of the typed operations of `ATOMV` (R231). -/
def AtomvOp.wf : AtomvOp → Bool
  | .swap => true
  | .add t | .min t | .max t =>
    match t with
    | .n32 | .s32 | .n64 | .s64 | .f32 | .bf16 => true
    | _ => false

/-- The scope of an atomic is zero where it carries no ordering (R227, R230). -/
def AtomOrd.wf (o : AtomOrd) : Bool := o.acq || o.rel || o.scope = .core

/-- In the extended length with `x` = 0 the whole displacement stands in word 1 (R40, R130, R227, R229). -/
def MAddr.wfExt (m : MAddr) : Bool :=
  match m.off with
  | .disp d => d = 0
  | .index _ _ => true

/-- An overriding type, where one is given, is one that the instruction admits (R143). -/
def tyOk (adm : Ty → Bool) : Option Ty → Bool
  | none => true
  | some t => adm t

/-- Operand `.xb` needs the extended length (R144). -/
def VSrc.okLen : VSrc → Option VX → Bool
  | .vec _, _ => true
  | .xb _, x => x.isSome

/-- The amount of `VSHF`: `.xb` and `.imm` need the extended length, and bits 31 to 6 of the immediate are zero (R148). -/
def VAmt.ok : VAmt → Option VX → Bool
  | .vec _, _ => true
  | .xb _, x => x.isSome
  | .imm i, x => x.isSome && i.toNat < 64

/-- Word 2 of an element-wise instruction (R144). -/
def vxOk (adm : Ty → Bool) : Option VX → Bool
  | none => true
  | some x => tyOk adm x.ty

/-- The extended tile load and store (R165). -/
def mxOk (store : Bool) : Option MX → Bool
  | none => true
  | some x => tyOk Ty.isElem x.ty && !(store && x.m.z)

/-- The scanner's checks beyond the field types (R43, R58, and each instruction's description). -/
def Instr.wf : Instr → Bool
  | .loop _ e _ => 4 ≤ e.val
  | .loopr _ _ e => 2 ≤ e.val
  | .swr n _ => n.writable
  | .leaExtended _ m _ => m.wfExt
  | .sfop f _ _ b => !f.oneOperand || b = 0
  | .sfopExtended f _ _ _ _ b => !f.oneOperand || b = 0
  | .scvt t s sat _ _ => t.isElem && s.isElem && (!sat || (t.isInt && s.isInt))
  | .scvtExtended t s sat _ _ _ => t.isElem && s.isElem && (!sat || (t.isInt && s.isInt))
  | .ldExtended sz _ m _ _ sx => m.wfExt && !(sx && sz = .d)
  | .stExtended _ m _ _ _ => m.wfExt
  | .ldf _ _ m x => x.isNone || m.wfExt
  | .stf m _ x => x.isNone || m.wfExt
  | .atom op sz o _ _ _ c _ => o.wf && (!op.isFloat || sz = .w) && (op = .cas || c = 0)
  | .atomv op o _ _ _ _ _ _ => o.wf && op.wf
  | .recv anytag _ _ _ _ tag => !anytag || tag = 0
  | .gather _ ty _ _ _ _ _ _ _ => ty.isElem
  | .scatter _ ty _ _ _ _ _ _ _ => ty.isElem
  | .vadd f _ _ _ b x => b.okLen x && vxOk f.admits x
  | .vsub f _ _ _ b x => b.okLen x && vxOk f.admits x
  | .vmul f _ _ _ b x => b.okLen x && vxOk f.admits x
  | .vfma _ _ _ _ _ b _ x => b.okLen x && vxOk Ty.isIF x
  | .vminmax f _ _ _ b x => b.okLen x && vxOk f.admits x
  | .vcmp f _ _ _ b x => b.okLen x && vxOk f.admits x
  | .vcvt f _ _ _ src x => src.isElem && (f = .plain || src.isInt) && tyOk (f.admitsCvt src) x.ty
  | .vlog f _ _ _ b => !(f = .not) || b = 0
  | .vshf _ _ _ _ b x => b.ok x && vxOk Ty.isInt x
  | .vsfu _ _ _ _ x => vxOk Ty.isFloat x
  | .vred f m _ _ x => !(f.isCol && m.z) && vxOk Ty.isIF x
  | .vscan _ _ _ _ x => vxOk Ty.isIF x
  | .vperm _ _ _ _ x => vxOk Ty.isElem x
  | .vpermTr _ _ x => vxOk Ty.isElem x
  | .viota _ _ _ start x => (x.isSome || start = 0) && vxOk Ty.isInt x
  | .vmov _ _ _ _ x => vxOk Ty.isElem x
  | .vmovScalar _ _ _ x => tyOk Ty.isElem x.ty
  | .vmovLiteral _ _ _ x => tyOk Ty.isElem x.ty
  | .vshape _ _ ty => ty.isElem
  | .vld _ _ x => mxOk false x
  | .vldShaped _ _ _ _ x => tyOk Ty.isElem x.ty
  | .vst _ _ x => mxOk true x
  | .vstShaped _ _ _ _ x => tyOk Ty.isElem x.ty && !x.m.z
  | .vldf _ _ _ x => mxOk false x
  | .vldx _ _ _ _ ty => tyOk Ty.isElem ty
  | .vstx _ _ _ _ ty => tyOk Ty.isElem ty
  | .vpackUnpack _ _ _ rec x => rec.isRec && tyOk Ty.isFloat x.ty
  | .vpackPack _ _ _ _ rec x => rec.isRec && tyOk Ty.isFloat x.ty
  | .vdot f _ _ _ _ _ x => vxOk f.admitsDot x
  | .vbmax _ _ _ _ x => vxOk Ty.isIF x
  | .vqnt _ _ _ rec x => rec.isRec && tyOk Ty.isFloat x.ty
  | .vclamp _ _ _ _ _ x => vxOk Ty.isIF x
  | .vclampLiteral _ _ _ _ x => tyOk Ty.isIF x.ty
  | .vrnd _ _ _ x => vxOk Ty.isFloat x
  | .vext _ _ _ _ ty => tyOk Ty.isElem ty
  | .vins _ _ _ _ ty => tyOk Ty.isElem ty
  | .mma _ _ ty _ _ _ _ _ _ => ty.isMat
  | .mmg _ _ _ ty _ _ _ _ _ _ _ _ _ => ty.isMat
  | .mdrain _ ty _ _ _ _ _ _ _ _ => ty.isElem
  | .mvb out ty _ _ _ _ _ _ _ _ => out.isElem && ty.isMat
  | .cfgPdel _ a _ => a = 0
  | _ => true

end Sys2Proof
end

