-- ==== Sys2Proof/Decode.lean ====
section
/-! DEFINITION. Reading instructions from words and writing them into words (03_formats.md R35 to R46, R58). The
decoder answers an instruction or the scanner's lowest reason code: 1 length, 2 must-be-zero, 3 reserved, 4 special
register, 5 beyond the bytes given. The encoder is written from the same tables. -/

namespace Sys2Proof

/-- Bits `lo` to `lo + n - 1` of a number. -/
def fld (w lo n : Nat) : Nat := w / 2 ^ lo % 2 ^ n

/-- The words of one instruction: word 0, the extension words, the literal (R35, R42). -/
structure Raw where
  w0  : Nat
  w1  : Nat := 0
  w2  : Nat := 0
  lit : Nat := 0
  deriving DecidableEq, Repr

/-- The length code (R35). -/
def Raw.len (r : Raw) : Nat := fld r.w0 0 2
/-- The opcode (R36). -/
def Raw.op (r : Raw) : Nat := fld r.w0 2 7
/-- Field `d` of forms A, I and M. -/
def Raw.d (r : Raw) : Nat := fld r.w0 9 6
/-- Field `a` of forms A, I and M. -/
def Raw.a (r : Raw) : Nat := fld r.w0 15 6
/-- Field `b` of form A. -/
def Raw.b (r : Raw) : Nat := fld r.w0 21 6
/-- Field `fn5` of form A. -/
def Raw.fn5 (r : Raw) : Nat := fld r.w0 27 5
/-- Field `imm11` of form I. -/
def Raw.imm11 (r : Raw) : Nat := fld r.w0 21 11
/-- Field `p` of form J. -/
def Raw.pj (r : Raw) : Nat := fld r.w0 9 3
/-- Field `mode` of form J. -/
def Raw.mode (r : Raw) : Nat := fld r.w0 13 2
/-- The must-be-zero bit 12 of form J. -/
def Raw.jz (r : Raw) : Nat := fld r.w0 12 1
/-- Field `disp17` of form J. -/
def Raw.disp17 (r : Raw) : Nat := fld r.w0 15 17
/-- Field `sz` of form M. -/
def Raw.sz (r : Raw) : Nat := fld r.w0 21 2
/-- Field `x` of form M. -/
def Raw.x (r : Raw) : Nat := fld r.w0 23 1
/-- Bits 31 to 24 of form M: `disp8`, or `sc` and `xi`. -/
def Raw.hi8 (r : Raw) : Nat := fld r.w0 24 8
/-- Field `vd` of form V. -/
def Raw.vd (r : Raw) : Nat := fld r.w0 9 4
/-- Field `va` of form V. -/
def Raw.va (r : Raw) : Nat := fld r.w0 13 4
/-- Field `vb` of form V. -/
def Raw.vb (r : Raw) : Nat := fld r.w0 17 4
/-- Field `vc` of form V. -/
def Raw.vc (r : Raw) : Nat := fld r.w0 21 4
/-- Field `p` of form V. -/
def Raw.pv (r : Raw) : Nat := fld r.w0 25 3
/-- Field `z` of form V. -/
def Raw.z (r : Raw) : Nat := fld r.w0 28 1
/-- Field `fn3` of form V. -/
def Raw.fn3 (r : Raw) : Nat := fld r.w0 29 3
/-- Field `c` of word 2 (R42). -/
def Raw.c (r : Raw) : Nat := fld r.w2 0 6
/-- Field `e` of word 2. -/
def Raw.e (r : Raw) : Nat := fld r.w2 6 6
/-- Field `pe` of word 2. -/
def Raw.pe (r : Raw) : Nat := fld r.w2 12 3
/-- Field `ze` of word 2. -/
def Raw.ze (r : Raw) : Nat := fld r.w2 15 1
/-- Field `ty` of word 2. -/
def Raw.ty (r : Raw) : Nat := fld r.w2 16 5
/-- Field `tyv` of word 2. -/
def Raw.tyv (r : Raw) : Nat := fld r.w2 21 1
/-- Field `rm` of word 2. -/
def Raw.rm (r : Raw) : Nat := fld r.w2 22 3
/-- Field `mod` of word 2. -/
def Raw.md (r : Raw) : Nat := fld r.w2 25 7

/-! Codes of the enumerations. -/

/-- R47. -/
def Ty.code : Ty → Nat
  | .n8 => 0 | .s8 => 1 | .n16 => 2 | .s16 => 3 | .n32 => 4 | .s32 => 5 | .n64 => 6 | .s64 => 7
  | .f32 => 8 | .bf16 => 9 | .f16 => 10 | .e4m3 => 11 | .e5m2 => 12 | .d8 => 13
  | .mx4 => 16 | .mx6 => 17 | .mx6a => 18 | .mx8 => 19 | .dx8 => 20

/-- R47; every other code is reserved. -/
def Ty.ofCode : Nat → Option Ty
  | 0 => some .n8 | 1 => some .s8 | 2 => some .n16 | 3 => some .s16 | 4 => some .n32 | 5 => some .s32
  | 6 => some .n64 | 7 => some .s64 | 8 => some .f32 | 9 => some .bf16 | 10 => some .f16 | 11 => some .e4m3
  | 12 => some .e5m2 | 13 => some .d8 | 16 => some .mx4 | 17 => some .mx6 | 18 => some .mx6a | 19 => some .mx8
  | 20 => some .dx8 | _ => none

/-- R42. -/
def Rm.code : Rm → Nat
  | .frm => 0 | .rne => 1 | .rtz => 2 | .rdn => 3 | .rup => 4 | .sr => 5
/-- R42; 6 and 7 are reserved. -/
def Rm.ofCode : Nat → Option Rm
  | 0 => some .frm | 1 => some .rne | 2 => some .rtz | 3 => some .rdn | 4 => some .rup | 5 => some .sr | _ => none

/-- R71, R127. -/
def ICond.code : ICond → Nat
  | .eq => 0 | .ne => 1 | .lt => 2 | .ge => 3 | .ltu => 4 | .geu => 5
/-- R71, R127. -/
def ICond.ofCode : Nat → Option ICond
  | 0 => some .eq | 1 => some .ne | 2 => some .lt | 3 => some .ge | 4 => some .ltu | 5 => some .geu | _ => none

/-- R127. -/
def Cond.code : Cond → Nat
  | .int c => c.code
  | .flt .feq => 8 | .flt .fne => 9 | .flt .flt => 10 | .flt .fle => 11 | .flt .fun_ => 12
/-- R127. -/
def Cond.ofCode : Nat → Option Cond
  | 8 => some (.flt .feq) | 9 => some (.flt .fne) | 10 => some (.flt .flt) | 11 => some (.flt .fle)
  | 12 => some (.flt .fun_) | n => (ICond.ofCode n).map .int

/-- R39. -/
def Quant.code : Quant → Nat
  | .any => 0 | .all => 1 | .none => 2
/-- R39; mode 0b11 is reserved. -/
def Quant.ofCode : Nat → Option Quant
  | 0 => some .any | 1 => some .all | 2 => some .none | _ => Option.none

/-- R81, R243. -/
def Dir.code : Dir → Nat
  | .e => 0 | .s => 1 | .w => 2 | .n => 3
/-- R81, R243. -/
def Dir.ofCode : Nat → Dir
  | 0 => .e | 1 => .s | 2 => .w | _ => .n

/-- R122. -/
def AddFn.code : AddFn → Nat
  | .wrap => 0 | .sat => 1 | .usat => 2
/-- R122. -/
def AddFn.ofCode : Nat → Option AddFn
  | 0 => some .wrap | 1 => some .sat | 2 => some .usat | _ => none

/-- R122. -/
def MulhiFn.code : MulhiFn → Nat
  | .s => 0 | .u => 1 | .su => 2
/-- R122. -/
def MulhiFn.ofCode : Nat → Option MulhiFn
  | 0 => some .s | 1 => some .u | 2 => some .su | _ => none

/-- R122. -/
def ClzFn.code : ClzFn → Nat
  | .lz => 0 | .lzw => 1 | .tz => 2 | .tzw => 3
/-- R122. -/
def ClzFn.ofCode : Nat → Option ClzFn
  | 0 => some .lz | 1 => some .lzw | 2 => some .tz | 3 => some .tzw | _ => none

/-- A one-bit function code, every other value reserved. -/
def bitCode : Nat → Option Bool
  | 0 => some false | 1 => some true | _ => none

/-- R133. -/
def SfFn.code : SfFn → Nat
  | .add => 0 | .sub => 1 | .mul => 2 | .div => 3 | .min => 4 | .max => 5 | .sqrt => 6 | .rcp => 7 | .rsqrt => 8
  | .exp2 => 9 | .log2 => 10 | .abs => 11 | .neg => 12 | .cls => 13
/-- R133. -/
def SfFn.ofCode : Nat → Option SfFn
  | 0 => some .add | 1 => some .sub | 2 => some .mul | 3 => some .div | 4 => some .min | 5 => some .max
  | 6 => some .sqrt | 7 => some .rcp | 8 => some .rsqrt | 9 => some .exp2 | 10 => some .log2 | 11 => some .abs
  | 12 => some .neg | 13 => some .cls | _ => none

/-- R133. -/
def FTy.ty : FTy → Ty
  | .f32 => .f32 | .bf16 => .bf16 | .f16 => .f16
/-- R133. -/
def FTy.ofCode : Nat → Option FTy
  | 8 => some .f32 | 9 => some .bf16 | 10 => some .f16 | _ => none

/-- R40. -/
def MSize.code : MSize → Nat
  | .b => 0 | .h => 1 | .w => 2 | .d => 3
/-- R40. -/
def MSize.ofCode : Nat → MSize
  | 0 => .b | 1 => .h | 2 => .w | _ => .d

/-- R227. -/
def Scope.code : Scope → Nat
  | .core => 0 | .cl => 1 | .die => 2 | .mod => 3 | .sys => 4
/-- R227; 5 to 7 are reserved. -/
def Scope.ofCode : Nat → Option Scope
  | 0 => some .core | 1 => some .cl | 2 => some .die | 3 => some .mod | 4 => some .sys | _ => none

/-- R230. -/
def AtomOp.code : AtomOp → Nat
  | .swap => 0 | .cas => 1 | .add => 2 | .and => 3 | .or => 4 | .xor => 5 | .smin => 6 | .smax => 7 | .umin => 8
  | .umax => 9 | .fadd => 10 | .fmin => 11 | .fmax => 12
/-- R230. -/
def AtomOp.ofCode : Nat → Option AtomOp
  | 0 => some .swap | 1 => some .cas | 2 => some .add | 3 => some .and | 4 => some .or | 5 => some .xor
  | 6 => some .smin | 7 => some .smax | 8 => some .umin | 9 => some .umax | 10 => some .fadd | 11 => some .fmin
  | 12 => some .fmax | _ => none

/-- R232. -/
def FenceKind.code : FenceKind → Nat
  | .acq => 1 | .rel => 2 | .full => 3
/-- R232; 0b00 is reserved. -/
def FenceKind.ofCode : Nat → Option FenceKind
  | 1 => some .acq | 2 => some .rel | 3 => some .full | _ => none

/-- R91. -/
def WaitCond.code : WaitCond → Nat
  | .eq => 0 | .ne => 1 | .chg => 2
/-- R91. -/
def WaitCond.ofCode : Nat → Option WaitCond
  | 0 => some .eq | 1 => some .ne | 2 => some .chg | _ => none

/-- R304. -/
def VCode.code : VCode → Nat
  | .absent => 0 | .partial_ => 1 | .complete => 2
/-- R304. -/
def VCode.ofCode : Nat → Option VCode
  | 0 => some .absent | 1 => some .partial_ | 2 => some .complete | _ => none

/-- R145. -/
def VSat.code : VSat → Nat
  | .plain => 0 | .sat => 1
/-- R145. -/
def VSat.ofCode : Nat → Option VSat
  | 0 => some .plain | 1 => some .sat | _ => none

/-- R145. -/
def VMulFn.code : VMulFn → Nat
  | .plain => 0 | .hi => 1 | .sat => 2
/-- R145. -/
def VMulFn.ofCode : Nat → Option VMulFn
  | 0 => some .plain | 1 => some .hi | 2 => some .sat | _ => none

/-- R145. -/
def VMmFn.code : VMmFn → Nat
  | .min => 0 | .max => 1 | .minp => 2 | .maxp => 3
/-- R145. -/
def VMmFn.ofCode : Nat → Option VMmFn
  | 0 => some .min | 1 => some .max | 2 => some .minp | 3 => some .maxp | _ => none

/-- R145. -/
def VCmpFn.code : VCmpFn → Nat
  | .eq => 0 | .ne => 1 | .lt => 2 | .le => 3 | .un => 4
/-- R145. -/
def VCmpFn.ofCode : Nat → Option VCmpFn
  | 0 => some .eq | 1 => some .ne | 2 => some .lt | 3 => some .le | 4 => some .un | _ => none

/-- R145. -/
def VLogFn.code : VLogFn → Nat
  | .and => 0 | .or => 1 | .xor => 2 | .andn => 3 | .not => 4
/-- R145. -/
def VLogFn.ofCode : Nat → Option VLogFn
  | 0 => some .and | 1 => some .or | 2 => some .xor | 3 => some .andn | 4 => some .not | _ => none

/-- R145. -/
def VShfFn.code : VShfFn → Nat
  | .shl => 0 | .shr => 1 | .sar => 2
/-- R145. -/
def VShfFn.ofCode : Nat → Option VShfFn
  | 0 => some .shl | 1 => some .shr | 2 => some .sar | _ => none

/-- R161. -/
def VSfuFn.code : VSfuFn → Nat
  | .exp2 => 0 | .log2 => 1 | .rcp => 2 | .rsqrt => 3 | .sqrt => 4 | .sinpi => 5 | .cospi => 6 | .tanh => 7
/-- R161. -/
def VSfuFn.ofCode : Nat → VSfuFn
  | 0 => .exp2 | 1 => .log2 | 2 => .rcp | 3 => .rsqrt | 4 => .sqrt | 5 => .sinpi | 6 => .cospi | _ => .tanh

/-- R163. -/
def VRedFn.code : VRedFn → Nat
  | .sum => 0 | .max => 1 | .min => 2 | .csum => 3 | .cmax => 4 | .cmin => 5
/-- R163. -/
def VRedFn.ofCode : Nat → Option VRedFn
  | 0 => some .sum | 1 => some .max | 2 => some .min | 3 => some .csum | 4 => some .cmax | 5 => some .cmin | _ => none

/-- R164. -/
def VScanFn.code : VScanFn → Nat
  | .sum => 0 | .esum => 1 | .max => 2 | .csum => 3 | .cesum => 4
/-- R164. -/
def VScanFn.ofCode : Nat → Option VScanFn
  | 0 => some .sum | 1 => some .esum | 2 => some .max | 3 => some .csum | 4 => some .cesum | _ => none

/-- R151. -/
def VIotaFn.code : VIotaFn → Nat
  | .col => 0 | .row => 1 | .lin => 2
/-- R151. -/
def VIotaFn.ofCode : Nat → Option VIotaFn
  | 0 => some .col | 1 => some .row | 2 => some .lin | _ => none

/-- R150. -/
def VMovFn.code : VMovFn → Nat
  | .copy => 0 | .brow => 3 | .bcol => 4
/-- R147. -/
def VMaskFn.code : VMaskFn → Nat
  | .any => 0 | .all => 1 | .col0 => 2
/-- R147. -/
def VMaskFn.ofCode : Nat → Option VMaskFn
  | 0 => some .any | 1 => some .all | 2 => some .col0 | _ => none

/-- R54. -/
def SReg.code : SReg → Nat
  | .vs => 0 | .fflags => 1 | .frm => 2 | .dom => 3 | .pri => 4 | .core => 5 | .chain => 6 | .launch => 7 | .task => 8
  | .sqn => 9 | .srseed => 10 | .steep => 16 | .steepPc => 17 | .steepLc => 18 | .trap => 24
/-- R54; every other number is reserved. -/
def SReg.ofCode : Nat → Option SReg
  | 0 => some .vs | 1 => some .fflags | 2 => some .frm | 3 => some .dom | 4 => some .pri | 5 => some .core
  | 6 => some .chain | 7 => some .launch | 8 => some .task | 9 => some .sqn | 10 => some .srseed | 16 => some .steep
  | 17 => some .steepPc | 18 => some .steepLc | 24 => some .trap | _ => none

/-- R231: the operation and, through `ty`, its lane type. -/
def AtomvOp.code : AtomvOp → Nat
  | .swap => 0 | .add _ => 2 | .min _ => 6 | .max _ => 7
/-- R231. -/
def AtomvOp.ty : AtomvOp → Option Ty
  | .swap => none | .add t | .min t | .max t => some t

/-! Building words. -/

/-- Form A (R37). -/
def wA (op len d a b f : Nat) : Nat := len + 4 * op + 2 ^ 9 * d + 2 ^ 15 * a + 2 ^ 21 * b + 2 ^ 27 * f
/-- Form I (R38). -/
def wI (op len d a i : Nat) : Nat := len + 4 * op + 2 ^ 9 * d + 2 ^ 15 * a + 2 ^ 21 * i
/-- Form J (R39). -/
def wJ (op len p mode disp : Nat) : Nat := len + 4 * op + 2 ^ 9 * p + 2 ^ 13 * mode + 2 ^ 15 * disp
/-- Form M (R40). -/
def wM (op len d a sz x hi : Nat) : Nat :=
  len + 4 * op + 2 ^ 9 * d + 2 ^ 15 * a + 2 ^ 21 * sz + 2 ^ 23 * x + 2 ^ 24 * hi
/-- Form V (R41). -/
def wV (op len vd va vb vc p z f : Nat) : Nat :=
  len + 4 * op + 2 ^ 9 * vd + 2 ^ 13 * va + 2 ^ 17 * vb + 2 ^ 21 * vc + 2 ^ 25 * p + 2 ^ 28 * z + 2 ^ 29 * f

/-- Word 2 of the extended lengths by its fields (R42). -/
structure W2 where
  c   : Nat := 0
  e   : Nat := 0
  pe  : Nat := 0
  ze  : Nat := 0
  ty  : Nat := 0
  tyv : Nat := 0
  rm  : Nat := 0
  md  : Nat := 0
  deriving DecidableEq, Repr

/-- The fields of word 2. -/
def Raw.x2 (r : Raw) : W2 :=
  { c := r.c, e := r.e, pe := r.pe, ze := r.ze, ty := r.ty, tyv := r.tyv, rm := r.rm, md := r.md }

/-- Word 2 from its fields. -/
def W2.word (x : W2) : Nat :=
  x.c + 2 ^ 6 * x.e + 2 ^ 12 * x.pe + 2 ^ 15 * x.ze + 2 ^ 16 * x.ty + 2 ^ 21 * x.tyv + 2 ^ 22 * x.rm + 2 ^ 25 * x.md

/-! Register numbers. -/

/-- A scalar register from a field. -/
def xr (n : Nat) : XReg := Fin.ofNat 64 n
/-- A vector register from a field. -/
def vr (n : Nat) : VReg := Fin.ofNat 16 n
/-- A predicate from a field. -/
def pr (n : Nat) : PReg := Fin.ofNat 8 n

/-- Ends a decoding: the must-be-zero checks come before the reserved codes (R58, lowest reason code first). -/
def fin2 (mbz : Bool) (o : Option Instr) : Except Nat Instr :=
  if mbz then (match o with | some i => .ok i | none => .error 3) else .error 2

/-- The address of a form-M instruction (R40). -/
def Raw.addr (r : Raw) : MAddr :=
  { base := xr r.a
    off := if r.x = 0 then .disp (BitVec.ofNat 8 r.hi8) else .index (Fin.ofNat 4 (r.hi8 / 64)) (xr r.hi8) }

/-- Fields `x` and bits 31 to 24 of a form-M address. -/
def MAddr.x (m : MAddr) : Nat := match m.off with | .disp _ => 0 | .index _ _ => 1
/-- Fields `x` and bits 31 to 24 of a form-M address. -/
def MAddr.hi (m : MAddr) : Nat :=
  match m.off with | .disp d => d.toNat | .index sc xi => 64 * sc.val + xi.val

/-- A bank operand (R180): the must-be-zero check. -/
def bankMbz (n : Nat) : Bool := n ≤ 8
/-- A bank operand (R180). -/
def bankOf (n : Nat) : BankOp :=
  if n / 8 % 2 = 1 then .own else .acc (Fin.ofNat 2 (n / 4)) (Fin.ofNat 4 n)
/-- A bank operand (R180). -/
def BankOp.code : BankOp → Nat
  | .own => 8 | .acc b q => 4 * b.val + q.val
/-- A quadrant operand (R180): the must-be-zero check. -/
def quadMbz (n : Nat) : Bool := n < 4 || n = 8
/-- A quadrant operand (R180). -/
def quadOf (n : Nat) : QuadOp := if n / 8 % 2 = 1 then .own else .q (Fin.ofNat 4 n)
/-- A quadrant operand (R180). -/
def QuadOp.code : QuadOp → Nat
  | .own => 8 | .q n => n.val

/-- `ty` and `tyv` of word 2 (R42): with `tyv` = 0, `ty` must be zero. -/
def Raw.tyMbz (r : Raw) : Bool := r.tyv = 1 || r.ty = 0
/-- The overriding type, among the admitted ones (R42, R143). -/
def Raw.tyOpt (r : Raw) (adm : Ty → Bool) : Option (Option Ty) :=
  if r.tyv = 0 then some none
  else match Ty.ofCode r.ty with
    | some t => if adm t then some (some t) else none
    | none => none
/-- A type that word 2 must give (`tyv` = 1). -/
def Raw.tyReq (r : Raw) (adm : Ty → Bool) : Option Ty :=
  match r.tyOpt adm with | some (some t) => some t | _ => none

/-- Word 2 of an extended V-form instruction: the must-be-zero fields (R144). -/
def Raw.vMbz (r : Raw) : Bool := r.e = 0 && r.pe = 0 && r.ze = 0 && r.md < 4 && r.tyMbz
/-- Word 2 of an extended V-form instruction: type and rounding (R144). The rounding codes of R42 pass on every such form, also on one that
rounds nothing (log 28). -/
def Raw.vx (r : Raw) (adm : Ty → Bool) : Option VX :=
  match Rm.ofCode r.rm, r.tyOpt adm with
  | some m, some t => some { ty := t, rm := m }
  | _, _ => none
/-- The optional word 2 of a V-form instruction of lengths 1 and E. -/
def Raw.vxOpt (r : Raw) (adm : Ty → Bool) : Option (Option VX) :=
  if r.len = 0 then some none else (r.vx adm).map some
/-- The extension words of a V-form instruction without `.xb` and immediate: must-be-zero part. -/
def Raw.vPlainMbz (r : Raw) : Bool := r.len = 0 || (r.vMbz && r.c = 0 && r.w1 = 0)
/-- The modifier bits of a V-form instruction that admits neither `.xb` nor `.imm`. -/
def Raw.vNoMod (r : Raw) : Bool := r.len = 0 || r.md = 0
/-- `.xb` is set (R144). -/
def Raw.isXb (r : Raw) : Bool := r.len = 1 && r.md % 2 = 1
/-- The extension words of an instruction with an operand B (R144): must-be-zero part. -/
def Raw.vBMbz (r : Raw) : Bool :=
  r.len = 0 || (r.vMbz && r.w1 = 0 && (if r.md % 2 = 1 then r.vb = 0 else r.c = 0))
/-- Operand B (R144). -/
def Raw.srcB (r : Raw) : VSrc := if r.isXb then .xb (xr r.c) else .vec (vr r.vb)
/-- The mask of a V-form instruction (R41). -/
def Raw.vmask (r : Raw) : VMask := { p := pr r.pv, z := r.z = 1 }
/-- The mask in word 2 (R42). -/
def Raw.xmask (r : Raw) : VMask := { p := pr r.pe, z := r.ze = 1 }

/-- `Option.bind` with a guard: a reserved combination is none. -/
def guardO (ok : Bool) (o : Option Instr) : Option Instr := if ok then o else none

/-- The admitted lengths of an opcode (R45): one word, extended, literal, extended plus literal. -/
def lens (op : Nat) : List Nat :=
  if [0x04, 0x08, 0x34, 0x35, 0x3B, 0x3D, 0x3E, 0x40, 0x41, 0x42, 0x43, 0x4D, 0x57, 0x64, 0x65, 0x66, 0x67, 0x6A, 0x6E,
      0x6F, 0x70, 0x71, 0x72, 0x73, 0x77].contains op then [1]
  else if [0x02, 0x06, 0x10, 0x11, 0x13, 0x14, 0x16, 0x17, 0x18, 0x19, 0x1A, 0x20, 0x23, 0x24, 0x27, 0x4A,
      0x76].contains op then [0, 2]
  else if [0x0C, 0x1E, 0x1F, 0x2C, 0x2D, 0x2E, 0x2F, 0x30, 0x31, 0x32, 0x33, 0x4C, 0x50, 0x51, 0x52, 0x53, 0x54, 0x55,
      0x59, 0x5A, 0x5B, 0x5C, 0x5D, 0x5E, 0x61, 0x62, 0x63, 0x68, 0x69, 0x6D].contains op then [0, 1]
  else if [0x5F, 0x6C].contains op then [0, 1, 3]
  else if [0x3C, 0x7D].contains op then [1, 3]
  else [0]

/-! Decoders, by rows of the opcode map. Each is given a word whose length is admitted. -/

/-- Control: 0x00 to 0x0F (R44, R46, R67, R71, R73, R81, R84, R88, R89). Loop counter 3 is rejected with code 3 (log 24). -/
def decControl (r : Raw) : Except Nat Instr :=
  match r.op with
  | 0x00 => .ok (.ill (BitVec.ofNat 23 (fld r.w0 9 23)))
  | 0x01 => fin2 (r.d = 0 && r.a = 0) (some (.nop (Fin.ofNat 2048 r.imm11)))
  | 0x02 =>
    if r.len = 0 then fin2 (r.pj = 0 && r.mode = 0 && r.jz = 0) (some (.br (BitVec.ofNat 17 r.disp17)))
    else fin2 (r.pj = 0 && r.mode = 0 && r.jz = 0 && r.disp17 = 0) (some (.brAbsolute (BitVec.ofNat 64 r.lit)))
  | 0x03 => fin2 (r.jz = 0) ((Quant.ofCode r.mode).map fun q => .bc q (pr r.pj) (BitVec.ofNat 17 r.disp17))
  | 0x04 =>
    fin2 (r.d = 0 && r.w2 = 0)
      ((ICond.ofCode r.fn5).map fun c => .bcmp c (xr r.a) (xr r.b) (BitVec.ofNat 32 r.w1))
  | 0x05 => fin2 (r.d = 0 && r.b = 0 && r.fn5 = 0) (some (.jr (xr r.a)))
  | 0x06 =>
    if r.len = 0 then fin2 (r.pj = 0 && r.mode = 0 && r.jz = 0) (some (.call (BitVec.ofNat 17 r.disp17)))
    else fin2 (r.pj = 0 && r.mode = 0 && r.jz = 0 && r.disp17 = 0) (some (.callAbsolute (BitVec.ofNat 64 r.lit)))
  | 0x07 => fin2 (r.d = 0 && r.b = 0 && r.fn5 = 0) (some (.ret (xr r.a)))
  | 0x08 =>
    fin2 (r.a = 0 && r.d < 4 && r.w2 = 0)
      (guardO (r.d < 3 && 4 ≤ r.imm11)
        (some (.loop (Fin.ofNat 3 r.d) (Fin.ofNat 2048 r.imm11) (BitVec.ofNat 32 r.w1))))
  | 0x09 =>
    fin2 (r.d < 4)
      (guardO (r.d < 3 && 2 ≤ r.imm11) (some (.loopr (Fin.ofNat 3 r.d) (xr r.a) (Fin.ofNat 2048 r.imm11))))
  | 0x0A =>
    fin2 (r.jz = 0 && r.disp17 < 4)
      (guardO (r.disp17 < 3) ((Quant.ofCode r.mode).map fun q => .lbrk (Fin.ofNat 3 r.disp17) q (pr r.pj)))
  | 0x0B =>
    fin2 (r.d = 0 && r.a = 0 && r.b = 0)
      (match r.fn5 with | 0 => some .phaseX | 1 => some .phaseC | _ => none)
  | 0x0C =>
    fin2 (r.d = 0 && r.a = 0 && r.b = 0 && (r.len = 0 || (r.w2 = 0 && r.w1 = r.w1 % 8 + 256 * (r.w1 / 256 % 32))))
      (match r.fn5, r.len with
        | 0, 0 => some .chainLeave
        | 1, 1 => some (.chainForm (Fin.ofNat 8 r.w1) (Fin.ofNat 32 (r.w1 / 256)))
        | _, _ => none)
  | 0x0D =>
    if r.fn5 / 4 % 2 = 0 then
      fin2 (r.b = 0 && r.fn5 < 8 && r.a < 16 && r.d < 16) (some (.xferVector (Dir.ofCode (r.fn5 % 4)) (vr r.d) (vr r.a)))
    else fin2 (r.b = 0 && r.fn5 < 8) (some (.xferScalar (Dir.ofCode (r.fn5 % 4)) (xr r.d) (xr r.a)))
  | 0x0E => fin2 (r.d = 0 && r.a = 0 && r.b = 0 && r.fn5 = 0) (some .done)
  | _ => fin2 (r.d = 0 && r.b = 0 && r.fn5 = 0) (some (.exit (xr r.a)))

/-- A form-A integer instruction with a register or a literal as operand B (R122). -/
def decAB (r : Raw) (reg : XReg → XReg → XReg → Option Instr) (lit : XReg → XReg → Word → Option Instr) :
    Except Nat Instr :=
  if r.len = 0 then fin2 true (reg (xr r.d) (xr r.a) (xr r.b))
  else fin2 (r.b = 0) (lit (xr r.d) (xr r.a) (BitVec.ofNat 64 r.lit))

/-- A shift (R122): code 0 by register, 1 by the field `b`. -/
def decShift (r : Raw) (mk : XReg → XReg → ShAmt → Instr) : Except Nat Instr :=
  fin2 true (match r.fn5 with
    | 0 => some (mk (xr r.d) (xr r.a) (.reg (xr r.b)))
    | 1 => some (mk (xr r.d) (xr r.a) (.imm (Fin.ofNat 64 r.b)))
    | _ => none)

/-- Scalar: 0x10 to 0x2F (R122 to R136). -/
def decScalar (r : Raw) : Except Nat Instr :=
  match r.op with
  | 0x10 => decAB r (fun d a b => (AddFn.ofCode r.fn5).map (.add · d a b))
      (fun d a v => (AddFn.ofCode r.fn5).map (.addLiteral · d a v))
  | 0x11 => decAB r (fun d a b => (AddFn.ofCode r.fn5).map (.sub · d a b))
      (fun d a v => (AddFn.ofCode r.fn5).map (.subLiteral · d a v))
  | 0x12 => fin2 true (some (.addi (xr r.d) (xr r.a) (BitVec.ofNat 11 r.imm11)))
  | 0x13 => decAB r (fun d a b => guardO (r.fn5 = 0) (some (.mul d a b)))
      (fun d a v => guardO (r.fn5 = 0) (some (.mulLiteral d a v)))
  | 0x14 => decAB r (fun d a b => (MulhiFn.ofCode r.fn5).map (.mulhi · d a b))
      (fun d a v => (MulhiFn.ofCode r.fn5).map (.mulhiLiteral · d a v))
  | 0x15 => fin2 true ((bitCode r.fn5).map fun s => .mad s (xr r.d) (xr r.a) (xr r.b))
  | 0x16 => decAB r (fun d a b => (bitCode r.fn5).map (.div · d a b))
      (fun d a v => (bitCode r.fn5).map (.divLiteral · d a v))
  | 0x17 => decAB r (fun d a b => (bitCode r.fn5).map (.rem · d a b))
      (fun d a v => (bitCode r.fn5).map (.remLiteral · d a v))
  | 0x18 => decAB r (fun d a b => (bitCode r.fn5).map (.and · d a b))
      (fun d a v => (bitCode r.fn5).map (.andLiteral · d a v))
  | 0x19 => decAB r (fun d a b => (bitCode r.fn5).map (.or · d a b))
      (fun d a v => (bitCode r.fn5).map (.orLiteral · d a v))
  | 0x1A => decAB r (fun d a b => (bitCode r.fn5).map (.xor · d a b))
      (fun d a v => (bitCode r.fn5).map (.xorLiteral · d a v))
  | 0x1B => decShift r .shl
  | 0x1C => decShift r .shr
  | 0x1D => decShift r .sar
  | 0x1E =>
    if r.len = 0 then
      fin2 true (some (.bfx (xr r.d) (xr r.a) (Fin.ofNat 64 r.imm11) (Fin.ofNat 32 (r.imm11 / 64))))
    else
      fin2 (r.imm11 = 0 && r.w1 = r.w1 % 64 + 256 * (r.w1 / 256 % 64) && r.x2 = { md := r.md % 2 })
        (some (.bfxExtended (r.md % 2 = 1) (xr r.d) (xr r.a) (Fin.ofNat 64 r.w1) (Fin.ofNat 64 (r.w1 / 256))))
  | 0x1F =>
    if r.len = 0 then
      fin2 true (some (.bfi (xr r.d) (xr r.a) (Fin.ofNat 64 r.imm11) (Fin.ofNat 32 (r.imm11 / 64))))
    else
      fin2 (r.imm11 = 0 && r.w1 = r.w1 % 64 + 256 * (r.w1 / 256 % 64) && r.w2 = 0)
        (some (.bfiExtended (xr r.d) (xr r.a) (Fin.ofNat 64 r.w1) (Fin.ofNat 64 (r.w1 / 256))))
  | 0x20 =>
    if r.len = 0 then
      fin2 (r.d < 8) ((Cond.ofCode r.fn5).map fun c => .cmp c (pr r.d) (xr r.a) (xr r.b))
    else
      fin2 (r.d < 8 && r.b = 0)
        ((Cond.ofCode r.fn5).map fun c => .cmpLiteral c (pr r.d) (xr r.a) (BitVec.ofNat 64 r.lit))
  | 0x21 =>
    fin2 true ((ICond.ofCode (r.d / 8)).map fun c => .cmpi c (pr r.d) (xr r.a) (BitVec.ofNat 11 r.imm11))
  | 0x22 => fin2 (r.fn5 < 8) (some (.sel (xr r.d) (xr r.a) (xr r.b) (pr r.fn5)))
  | 0x23 => decAB r (fun d a b => (bitCode r.fn5).map (.min · d a b))
      (fun d a v => (bitCode r.fn5).map (.minLiteral · d a v))
  | 0x24 => decAB r (fun d a b => (bitCode r.fn5).map (.max · d a b))
      (fun d a v => (bitCode r.fn5).map (.maxLiteral · d a v))
  | 0x25 => fin2 (r.b = 0) ((ClzFn.ofCode r.fn5).map fun f => .clz f (xr r.d) (xr r.a))
  | 0x26 => fin2 (r.b = 0) ((bitCode r.fn5).map fun w => .popc w (xr r.d) (xr r.a))
  | 0x27 =>
    if r.len = 0 then fin2 (r.a = 0) (some (.li (xr r.d) (BitVec.ofNat 11 r.imm11)))
    else fin2 (r.a = 0 && r.imm11 = 0) (some (.liLiteral (xr r.d) (BitVec.ofNat 64 r.lit)))
  | 0x28 =>
    if r.fn5 < 16 then
      fin2 (r.d < 8 && r.a < 8 && r.b < 8) (some (.plog (BitVec.ofNat 4 r.fn5) (pr r.d) (pr r.a) (pr r.b)))
    else if r.fn5 = 16 then fin2 (r.d < 8 && r.b = 0) (some (.plogFromx (pr r.d) (xr r.a)))
    else if r.fn5 = 17 then fin2 (r.a < 8 && r.b = 0) (some (.plogTox (xr r.d) (pr r.a)))
    else fin2 (r.b < 8) none
  | 0x29 =>
    if r.a = 0 then (match SReg.ofCode r.imm11 with | some n => .ok (.srd (xr r.d) n) | none => .error 4) else .error 2
  | 0x2A =>
    if r.d = 0 then
      (match SReg.ofCode r.imm11 with
        | some n => if n.writable then .ok (.swr n (xr r.a)) else .error 4
        | none => .error 4)
    else .error 2
  | 0x2B =>
    fin2 (r.a = 0 && r.b = 0) (match r.fn5 with | 0 => some (.time (xr r.d)) | 1 => some (.timeFx (xr r.d)) | _ => none)
  | 0x2C =>
    if r.len = 0 then fin2 (r.sz = 0) (some (.lea (xr r.d) r.addr))
    else fin2 (r.sz = 0 && (r.x = 1 || r.hi8 = 0) && r.w2 = 0)
      (some (.leaExtended (xr r.d) r.addr (BitVec.ofNat 32 r.w1)))
  | 0x2D =>
    match SfFn.ofCode r.fn5 with
    | none => fin2 (r.len = 0 || (r.w1 = 0 && r.x2 = { ty := r.ty, tyv := r.tyv, rm := r.rm } && r.tyMbz)) none
    | some f =>
      let one := !f.oneOperand || r.b = 0
      if r.len = 0 then fin2 one (some (.sfop f (xr r.d) (xr r.a) (xr r.b)))
      else
        fin2 (one && r.w1 = 0 && r.x2 = { ty := r.ty, tyv := r.tyv, rm := r.rm } && r.tyMbz)
          (match Rm.ofCode r.rm with
            | none => none
            | some m =>
              if r.tyv = 0 then some (.sfopExtended f none m (xr r.d) (xr r.a) (xr r.b))
              else (FTy.ofCode r.ty).map fun t => .sfopExtended f (some t) m (xr r.d) (xr r.a) (xr r.b))
  | 0x2E =>
    if r.len = 0 then
      fin2 true (guardO (r.fn5 < 4) (some (.sfma (r.fn5 / 2 % 2 = 1) (r.fn5 % 2 = 1) (xr r.d) (xr r.a) (xr r.b))))
    else
      fin2 (r.w1 = 0 && r.x2 = { ty := r.ty, tyv := r.tyv, rm := r.rm } && r.tyMbz)
        (guardO (r.fn5 < 4)
          (match Rm.ofCode r.rm with
            | none => none
            | some m =>
              if r.tyv = 0 then
                some (.sfmaExtended (r.fn5 / 2 % 2 = 1) (r.fn5 % 2 = 1) none m (xr r.d) (xr r.a) (xr r.b))
              else (FTy.ofCode r.ty).map fun t =>
                .sfmaExtended (r.fn5 / 2 % 2 = 1) (r.fn5 % 2 = 1) (some t) m (xr r.d) (xr r.a) (xr r.b)))
  | _ =>
    match Ty.ofCode r.fn5, Ty.ofCode (r.b % 32) with
    | some t, some s =>
      let sat := r.b / 32 = 1
      let ok := !sat || (t.isInt && s.isInt)
      let el := t.isElem && s.isElem
      if r.len = 0 then fin2 ok (guardO el (some (.scvt t s sat (xr r.d) (xr r.a))))
      else
        fin2 (ok && r.w1 = 0 && r.x2 = { rm := r.rm })
          (guardO el ((Rm.ofCode r.rm).map fun m => .scvtExtended t s sat m (xr r.d) (xr r.a)))
    | _, _ => fin2 (r.b < 32 && (r.len = 0 || (r.w1 = 0 && r.x2 = { rm := r.rm }))) none

/-- The ordering fields of `LD` and `ST` (R227): none is plain, a scope is `.acq` or `.rel`. -/
def ordLs (md : Nat) : Option (Option Scope) :=
  match md % 4 with
  | 0 => some none
  | 1 => (Scope.ofCode (md / 4 % 8)).map some
  | _ => none

/-- The ordering fields of `ATOM` and `ATOMV` (R230). -/
def ordAt (md : Nat) : Option AtomOrd :=
  (Scope.ofCode (md / 16 % 8)).map fun s => { acq := md / 4 % 2 = 1, rel := md / 8 % 2 = 1, scope := s }

/-- The ordering fields of `ATOM` and `ATOMV` in word 2 (R230). -/
def AtomOrd.md (o : AtomOrd) : Nat := 4 * o.acq.toNat + 8 * o.rel.toNat + 16 * o.scope.code

/-- Word 2 of an engine or matrix command that carries `c`, `e` and the issue predicate only (R235). -/
def Raw.cePe (r : Raw) : Bool := r.x2 = { c := r.c, e := r.e, pe := r.pe }
/-- Word 2 of an engine command that carries `c` and the issue predicate only (R235). -/
def Raw.cPe (r : Raw) : Bool := r.x2 = { c := r.c, pe := r.pe }

/-- Memory and messages: 0x30 to 0x3F (R90, R91, R227 to R244, R261). -/
def decMemory (r : Raw) : Except Nat Instr :=
  match r.op with
  | 0x30 =>
    if r.len = 0 then fin2 true (some (.ld (MSize.ofCode r.sz) (xr r.d) r.addr))
    else
      fin2 ((r.x = 1 || r.hi8 = 0) && r.x2 = { md := r.md } && r.md < 64 && (r.md % 4 != 0 || r.md / 4 % 8 = 0))
        (guardO (!(r.md / 32 % 2 = 1 && r.sz = 3))
          ((ordLs r.md).map fun o =>
            .ldExtended (MSize.ofCode r.sz) (xr r.d) r.addr (BitVec.ofNat 32 r.w1) o (r.md / 32 % 2 = 1)))
  | 0x31 =>
    if r.len = 0 then fin2 true (some (.st (MSize.ofCode r.sz) r.addr (xr r.d)))
    else
      fin2 ((r.x = 1 || r.hi8 = 0) && r.x2 = { md := r.md } && r.md < 64 && (r.md % 4 != 0 || r.md / 4 % 8 = 0))
        (guardO (r.md < 32)
          ((ordLs r.md).map fun o => .stExtended (MSize.ofCode r.sz) r.addr (xr r.d) (BitVec.ofNat 32 r.w1) o))
  | 0x32 =>
    fin2 (r.len = 0 || ((r.x = 1 || r.hi8 = 0) && r.w2 = 0))
      ((bitCode r.sz).map fun k => .ldf k (xr r.d) r.addr (if r.len = 0 then none else some (BitVec.ofNat 32 r.w1)))
  | 0x33 =>
    fin2 (r.sz = 0 && (r.len = 0 || ((r.x = 1 || r.hi8 = 0) && r.w2 = 0)))
      (some (.stf r.addr (xr r.d) (if r.len = 0 then none else some (BitVec.ofNat 32 r.w1))))
  | 0x34 =>
    match AtomOp.ofCode r.fn5 with
    | none => fin2 (r.x2 = { c := r.c, md := r.md }) none
    | some op =>
      fin2 (r.x2 = { c := r.c, md := r.md } && (op = .cas || r.c = 0) && (r.md / 4 % 4 != 0 || r.md / 16 = 0))
        (guardO (!op.isFloat || r.md % 4 = 2)
          ((ordAt r.md).map fun o =>
            .atom op (MSize.ofCode (r.md % 4)) o (xr r.d) (xr r.a) (xr r.b) (xr r.c) (BitVec.ofNat 32 r.w1)))
  | 0x35 =>
    fin2 (r.x2 = { c := r.c, e := r.e, ty := r.ty, tyv := r.tyv, md := r.md } && r.tyMbz && r.md % 4 = 0 &&
        (r.md / 4 % 4 != 0 || r.md / 16 = 0) && (r.fn5 != 0 || r.tyv = 0))
      (match ordAt r.md with
        | none => none
        | some o =>
          let mk := fun op => some (.atomv op o (xr r.d) (xr r.e) (xr r.a) (xr r.b) (xr r.c) (BitVec.ofNat 32 r.w1))
          match r.fn5 with
          | 0 => mk .swap
          | 2 => (r.tyReq fun t => (AtomvOp.add t).wf).bind fun t => mk (.add t)
          | 6 => (r.tyReq fun t => (AtomvOp.min t).wf).bind fun t => mk (.min t)
          | 7 => (r.tyReq fun t => (AtomvOp.max t).wf).bind fun t => mk (.max t)
          | _ => none)
  | 0x36 => fin2 (r.d = 0 && r.sz = 0) (some (.watch r.addr))
  | 0x37 => fin2 (r.b = 0) ((WaitCond.ofCode r.fn5).map fun c => .waitw c (xr r.d) (xr r.a))
  | 0x38 =>
    fin2 (r.d = 0 && r.a = 0 && r.b = 0)
      (match FenceKind.ofCode (r.fn5 % 4), Scope.ofCode (r.fn5 / 4) with
        | some k, some s => some (.fence k s)
        | _, _ => none)
  | 0x39 => fin2 (r.a = 0 && r.b = 0 && r.fn5 < 4) (some (.bar (Fin.ofNat 4 r.fn5) (xr r.d)))
  | 0x3A =>
    let w := if r.fn5 / 2 % 2 = 1 then some (xr r.b) else none
    fin2 (r.fn5 / 2 % 2 = 1 || r.b = 0)
      (guardO (r.fn5 < 4)
        (some (if r.fn5 % 2 = 0 then .cntToken (xr r.d) (xr r.a) w else .cntAntiToken (xr r.d) (xr r.a) w)))
  | 0x3B =>
    fin2 (r.fn5 < 2 && r.x2 = { c := r.c } && (r.fn5 != 1 || r.w1 = 0))
      (some (.recv (r.fn5 = 1) (xr r.d) (xr r.a) (xr r.b) (xr r.c) (BitVec.ofNat 32 r.w1)))
  | 0x3C =>
    if r.len = 1 then
      fin2 (r.fn5 < 2 && r.cPe)
        (some (.send (r.fn5 = 1) (xr r.d) (xr r.a) (xr r.b) (xr r.c) (BitVec.ofNat 32 r.w1) (pr r.pe)))
    else
      fin2 (r.fn5 < 2 && r.a = 0 && r.b = 0 && r.cPe)
        (some (.sendLiteral (r.fn5 = 1) (xr r.d) (xr r.c) (BitVec.ofNat 32 r.w1) (pr r.pe) (BitVec.ofNat 64 r.lit)))
  | 0x3D =>
    fin2 (r.fn5 < 4 && r.w1 = 0 && r.cPe)
      (some (.sendn (Dir.ofCode r.fn5) (xr r.d) (xr r.a) (xr r.b) (xr r.c) (pr r.pe)))
  | 0x3E =>
    fin2 (r.fn5 < 16 && r.cPe)
      (some (.halo (BitVec.ofNat 4 r.fn5) (xr r.d) (xr r.a) (xr r.b) (xr r.c) (BitVec.ofNat 32 r.w1) (pr r.pe)))
  | _ => fin2 (r.fn5 < 2) (some (.probe (r.fn5 = 1) (xr r.d) (xr r.a) (xr r.b)))

/-- Engines, launches, traps, live points, validity, routing: 0x40 to 0x4F. -/
def decSystem (r : Raw) : Except Nat Instr :=
  match r.op with
  | 0x40 =>
    let mk := if r.md % 2 = 1 then Instr.copyOut else Instr.copyIn
    fin2 (r.fn5 = 0 && r.x2 = { c := r.c, e := r.e, pe := r.pe, md := r.md } && r.md < 4)
      (some (mk (r.md / 2 = 1) (xr r.d) (xr r.a) (xr r.b) (xr r.c) (xr r.e) (BitVec.ofNat 32 r.w1) (pr r.pe)))
  | 0x41 =>
    fin2 (r.fn5 < 2 && r.x2 = { c := r.c, e := r.e, pe := r.pe, ty := r.ty, tyv := r.tyv } && r.tyMbz)
      ((r.tyReq Ty.isElem).map fun t =>
        .gather (r.fn5 = 1) t (xr r.d) (xr r.a) (xr r.b) (xr r.c) (xr r.e) (BitVec.ofNat 32 r.w1) (pr r.pe))
  | 0x42 =>
    fin2 (r.fn5 < 2 && r.x2 = { c := r.c, e := r.e, pe := r.pe, ty := r.ty, tyv := r.tyv } && r.tyMbz)
      ((r.tyReq Ty.isElem).map fun t =>
        .scatter (r.fn5 = 1) t (xr r.d) (xr r.a) (xr r.b) (xr r.c) (xr r.e) (BitVec.ofNat 32 r.w1) (pr r.pe))
  | 0x43 =>
    fin2 (r.fn5 = 0 && r.w1 = 0 && r.cePe)
      (some (.put (xr r.d) (xr r.a) (xr r.b) (xr r.c) (xr r.e) (pr r.pe)))
  | 0x44 => fin2 (r.d = 0 && r.b = 0 && r.fn5 = 0) (some (.publish (xr r.a)))
  | 0x45 => fin2 (r.fn5 < 2) (some (.launch (r.fn5 = 1) (xr r.d) (xr r.a) (xr r.b)))
  | 0x46 => fin2 (r.b = 0 && r.fn5 = 0) (some (.task (xr r.d) (xr r.a)))
  | 0x47 => fin2 (r.fn5 = 0) (some (.join (xr r.d) (xr r.a) (xr r.b)))
  | 0x48 => fin2 (r.d = 0 && r.a = 0) (some (.trap (BitVec.ofNat 11 r.imm11)))
  | 0x49 =>
    fin2 (r.d = 0 && r.b = 0 && (r.fn5 = 2 || r.a = 0))
      (match r.fn5 with | 0 => some .eret | 1 => some .eretSkip | 2 => some (.eretTo (xr r.a)) | _ => none)
  | 0x4A =>
    if r.len = 0 then fin2 (r.a = 0 && r.fn5 = 0) (some (.live (xr r.d) (xr r.b)))
    else fin2 (r.a = 0 && r.b = 0 && r.fn5 = 0) (some (.liveLiteral (xr r.d) (BitVec.ofNat 64 r.lit)))
  | 0x4B =>
    fin2 (r.a = 0 && r.b = 0)
      (match r.fn5 with | 0 => some (.yield (xr r.d)) | 1 => some (.yieldPoll (xr r.d)) | _ => none)
  | 0x4C =>
    fin2 (r.d = 0 && (r.len = 0 || (r.b = 0 && r.w2 = 0)))
      (if r.fn5 < 4 then
        (VCode.ofCode r.fn5).map fun c =>
          if r.len = 0 then .valid c (xr r.a) (xr r.b) else .validImmediate c (xr r.a) (BitVec.ofNat 32 r.w1)
       else guardO (r.fn5 = 4)
        (some (if r.len = 0 then .validOpen (xr r.a) (xr r.b) else .validOpenImmediate (xr r.a) (BitVec.ofNat 32 r.w1))))
  | 0x4D =>
    match r.fn5 with
    | 0 | 1 =>
      let mk := if r.fn5 = 0 then Instr.routeDisp else Instr.routeRedir
      fin2 (r.b = 0 && r.d < 16 && r.a < 16 && r.w1 < 32 && r.x2 = { pe := r.pe, ze := r.ze })
        (some (mk (vr r.d) (vr r.a) (Fin.ofNat 8 (r.w1 / 4)) (Fin.ofNat 4 r.w1) r.xmask))
    | 2 => fin2 (r.b = 0 && r.w1 = 0 && r.w2 = 0) (some (.routeClose (xr r.d) (xr r.a)))
    | 3 =>
      fin2 (r.b = 0 && r.d < 16 && r.a < 16 && r.w1 < 4 && r.x2 = { pe := r.pe, ze := r.ze })
        (some (.routeInfo (vr r.d) (vr r.a) (Fin.ofNat 4 r.w1) r.xmask))
    | _ => fin2 (r.b = 0 && r.x2 = { pe := r.pe, ze := r.ze }) none
  | 0x4E =>
    match r.fn5 with
    | 0 => fin2 (r.b < 4) (some (.rtpinPin (xr r.d) (xr r.a) (Fin.ofNat 4 r.b)))
    | 1 => fin2 (r.d = 0 && r.a = 0 && r.b < 4) (some (.rtpinRel (Fin.ofNat 4 r.b)))
    | 2 => fin2 (r.a = 0 && r.b = 0) (some (.rtpinHealth (xr r.d)))
    | 3 => fin2 (r.b = 0) (some (.rtpinCur (xr r.d) (xr r.a)))
    | _ => .error 3
  | _ => fin2 (r.d = 0 && r.a = 0) (some (.brk (BitVec.ofNat 11 r.imm11)))

/-- An element-wise instruction with an operand B (R145). -/
def decVB (r : Raw) (adm : Ty → Bool) (mk : VMask → VReg → VReg → VSrc → Option VX → Instr) : Except Nat Instr :=
  fin2 (r.vc = 0 && r.vBMbz)
    (guardO (r.len = 0 || r.md < 2) ((r.vxOpt adm).map fun x => mk r.vmask (vr r.vd) (vr r.va) r.srcB x))

/-- A V-form instruction with one source (R161, R163, R164, R149, R159). -/
def decV1 (r : Raw) (adm : Ty → Bool) (mk : VMask → VReg → VReg → Option VX → Instr) : Except Nat Instr :=
  fin2 (r.vb = 0 && r.vc = 0 && r.vPlainMbz)
    (guardO r.vNoMod ((r.vxOpt adm).map fun x => mk r.vmask (vr r.vd) (vr r.va) x))

/-- A reserved function code of a V-form instruction. The must-be-zero fields are those that no function of the opcode
uses (log 24). -/
def decV0 (r : Raw) (mbz : Bool) : Except Nat Instr := fin2 (mbz && (r.len = 0 || r.vMbz)) none

/-- Vector: 0x50 to 0x5F (R145 to R164). -/
def decVector (r : Raw) : Except Nat Instr :=
  match r.op with
  | 0x50 => match VSat.ofCode r.fn3 with | some f => decVB r f.admits (.vadd f) | none => decV0 r (r.vc = 0 && r.vBMbz)
  | 0x51 => match VSat.ofCode r.fn3 with | some f => decVB r f.admits (.vsub f) | none => decV0 r (r.vc = 0 && r.vBMbz)
  | 0x52 => match VMulFn.ofCode r.fn3 with | some f => decVB r f.admits (.vmul f) | none => decV0 r (r.vc = 0 && r.vBMbz)
  | 0x53 =>
    if r.fn3 < 4 then
      fin2 r.vBMbz
        (guardO (r.len = 0 || r.md < 2)
          ((r.vxOpt Ty.isIF).map fun x =>
            .vfma (r.fn3 / 2 = 1) (r.fn3 % 2 = 1) r.vmask (vr r.vd) (vr r.va) r.srcB (vr r.vc) x))
    else decV0 r r.vBMbz
  | 0x54 => match VMmFn.ofCode r.fn3 with | some f => decVB r f.admits (.vminmax f) | none => decV0 r (r.vc = 0 && r.vBMbz)
  | 0x55 => match VCmpFn.ofCode r.fn3 with | some f => decVB r f.admits (.vcmp f) | none => decV0 r (r.vc = 0 && r.vBMbz)
  | 0x56 => fin2 true (guardO (r.fn3 = 0) (some (.vsel r.vmask (vr r.vd) (vr r.va) (vr r.vb) (vr r.vc))))
  | 0x57 =>
    match VSat.ofCode r.fn3, Ty.ofCode (r.w1 % 32) with
    | some f, some s =>
      fin2 (r.vb = 0 && r.vc = 0 && r.w1 < 32 && r.vMbz && r.c = 0)
        (guardO (r.md = 0 && s.isElem && (f = .plain || s.isInt))
          ((r.vx (f.admitsCvt s)).map fun x => .vcvt f r.vmask (vr r.vd) (vr r.va) s x))
    | _, _ => fin2 (r.vb = 0 && r.vc = 0 && r.w1 < 32 && r.vMbz && r.c = 0) none
  | 0x58 =>
    match VLogFn.ofCode r.fn3 with
    | some f =>
      fin2 (r.vc = 0 && (!(f = .not) || r.vb = 0)) (some (.vlog f r.vmask (vr r.vd) (vr r.va) (vr r.vb)))
    | none => fin2 (r.vc = 0) none
  | 0x59 =>
    match VShfFn.ofCode r.fn3 with
    | some f =>
      if r.len = 1 && r.md / 2 % 2 = 1 then
        fin2 (r.vc = 0 && r.vb = 0 && r.vMbz && (r.md % 2 = 1 || r.c = 0) && r.w1 < 64)
          (guardO (r.md = 2)
            ((r.vx Ty.isInt).map fun x =>
              .vshf f r.vmask (vr r.vd) (vr r.va) (.imm (BitVec.ofNat 32 r.w1)) (some x)))
      else
        fin2 (r.vc = 0 && r.vBMbz)
          ((r.vxOpt Ty.isInt).map fun x =>
            .vshf f r.vmask (vr r.vd) (vr r.va) (if r.isXb then .xb (xr r.c) else .vec (vr r.vb)) x)
    | none => decV0 r (r.vc = 0)
  | 0x5A => decV1 r Ty.isFloat (.vsfu (VSfuFn.ofCode r.fn3))
  | 0x5B =>
    match VRedFn.ofCode r.fn3 with
    | some f =>
      fin2 (r.vb = 0 && r.vc = 0 && r.vPlainMbz)
        (guardO (r.vNoMod && !(f.isCol && r.z = 1))
          ((r.vxOpt Ty.isIF).map fun x => .vred f r.vmask (vr r.vd) (vr r.va) x))
    | none => decV0 r (r.vb = 0 && r.vc = 0 && r.vPlainMbz)
  | 0x5C => match VScanFn.ofCode r.fn3 with | some f => decV1 r Ty.isIF (.vscan f) | none => decV0 r (r.vb = 0 && r.vc = 0 && r.vPlainMbz)
  | 0x5D =>
    match r.fn3 with
    | 0 =>
      fin2 (r.vc = 0 && r.vPlainMbz)
        (guardO r.vNoMod ((r.vxOpt Ty.isElem).map fun x => .vperm r.vmask (vr r.vd) (vr r.va) (vr r.vb) x))
    | 1 =>
      fin2 (r.vb = 0 && r.vc = 0 && r.pv = 0 && r.z = 0 && r.vPlainMbz)
        (guardO r.vNoMod ((r.vxOpt Ty.isElem).map fun x => .vpermTr (vr r.vd) (vr r.va) x))
    | _ => decV0 r (r.vc = 0 && r.vPlainMbz)
  | 0x5E =>
    match VIotaFn.ofCode r.fn3 with
    | some f =>
      fin2 (r.va = 0 && r.vb = 0 && r.vc = 0 && (r.len = 0 || (r.vMbz && r.c = 0)))
        (guardO r.vNoMod
          ((r.vxOpt Ty.isInt).map fun x =>
            .viota f r.vmask (vr r.vd) (if r.len = 0 then 0 else BitVec.ofNat 32 r.w1) x))
    | none => decV0 r (r.va = 0 && r.vb = 0 && r.vc = 0 && r.c = 0)
  | _ =>
    match r.fn3, r.len with
    | 1, 1 =>
      fin2 (r.va = 0 && r.vb = 0 && r.vc = 0 && r.vMbz && r.w1 = 0)
        (guardO (r.md = 0) ((r.vx Ty.isElem).map fun x => .vmovScalar r.vmask (vr r.vd) (xr r.c) x))
    | 2, 3 =>
      fin2 (r.va = 0 && r.vb = 0 && r.vc = 0 && r.vMbz && r.c = 0 && r.w1 = 0)
        (guardO (r.md = 0)
          ((r.vx Ty.isElem).map fun x => .vmovLiteral r.vmask (vr r.vd) (BitVec.ofNat 64 r.lit) x))
    | 0, 0 | 0, 1 => decV1 r Ty.isElem (.vmov .copy)
    | 3, 0 | 3, 1 => decV1 r Ty.isElem (.vmov .brow)
    | 4, 0 | 4, 1 => decV1 r Ty.isElem (.vmov .bcol)
    | _, _ => decV0 r (r.vb = 0 && r.vc = 0 && r.w1 = 0)

/-- Word 2 of an extended tile load or store (R165). -/
def Raw.mx (r : Raw) : Option MX :=
  (r.tyOpt Ty.isElem).map fun t => { imm := BitVec.ofNat 32 r.w1, m := r.xmask, ty := t }
/-- The optional word 2 of a tile load or store. -/
def Raw.mxOpt (r : Raw) : Option (Option MX) := if r.len = 0 then some none else r.mx.map some

/-- A tile load or store (R165). -/
def decTile (r : Raw) (store : Bool) : Except Nat Instr :=
  if r.len = 1 && r.md % 2 = 1 then
    fin2 (r.d < 16 && r.sz = 0 && r.x = 0 && r.hi8 = 0 && r.rm = 0 && r.tyMbz && !(store && r.ze = 1))
      (guardO (r.md = 1)
        (r.mx.map fun x =>
          if store then .vstShaped (xr r.a) (xr r.c) (xr r.e) (vr r.d) x
          else .vldShaped (vr r.d) (xr r.a) (xr r.c) (xr r.e) x))
  else
    fin2 (r.d < 16 && r.sz = 0 &&
        (r.len = 0 || (r.rm = 0 && r.c = 0 && r.e = 0 && r.tyMbz && !(store && r.ze = 1))))
      (guardO (r.len = 0 || r.md = 0)
        (r.mxOpt.map fun x => if store then .vst r.addr (vr r.d) x else .vld (vr r.d) r.addr x))

/-- Vector, second part: 0x60 to 0x6F (R46, R147 to R173). -/
def decTiles (r : Raw) : Except Nat Instr :=
  match r.op with
  | 0x60 =>
    fin2 (r.d < 32 && r.a < 32)
      (match Ty.ofCode r.a with
        | some t => guardO t.isElem (some (.vshape (Fin.ofNat 32 r.d) (Fin.ofNat 2048 r.imm11) t))
        | none => none)
  | 0x61 => decTile r false
  | 0x62 => decTile r true
  | 0x63 =>
    fin2 (r.d < 16 && (r.len = 0 || (r.rm = 0 && r.c = 0 && r.e = 0 && r.tyMbz)))
      (guardO (r.len = 0 || r.md = 0)
        (match bitCode r.sz, r.mxOpt with
          | some k, some x => some (.vldf k (vr r.d) r.addr x)
          | _, _ => none))
  | 0x64 =>
    fin2 (r.fn5 = 0 && r.d < 16 && r.b < 16 && r.w1 = 0 && r.tyMbz &&
        r.x2 = { pe := r.pe, ze := r.ze, ty := r.ty, tyv := r.tyv })
      ((r.tyOpt Ty.isElem).map fun t => .vldx (vr r.d) (xr r.a) (vr r.b) r.xmask t)
  | 0x65 =>
    fin2 (r.fn5 = 0 && r.d < 16 && r.b < 16 && r.w1 = 0 && r.tyMbz &&
        r.x2 = { pe := r.pe, ty := r.ty, tyv := r.tyv })
      ((r.tyOpt Ty.isElem).map fun t => .vstx (xr r.a) (vr r.b) (vr r.d) (pr r.pe) t)
  | 0x66 =>
    match Ty.ofCode r.w1 with
    | some rec =>
      match r.fn3 with
      | 0 =>
        fin2 (r.vb = 0 && r.vc = 0 && r.vMbz && r.c = 0)
          (guardO (r.md = 0 && rec.isRec)
            ((r.vx Ty.isFloat).map fun x => .vpackUnpack r.vmask (vr r.vd) (vr r.va) rec x))
      | 1 =>
        fin2 (r.vc = 0 && r.vMbz && r.c = 0)
          (guardO (r.md = 0 && rec.isRec)
            ((r.vx Ty.isFloat).map fun x => .vpackPack r.vmask (vr r.vd) (vr r.va) (vr r.vb) rec x))
      | _ => decV0 r (r.vc = 0 && r.c = 0)
    | none => decV0 r (r.vc = 0 && r.c = 0 && (r.fn3 != 0 || r.vb = 0))
  | 0x67 =>
    fin2 (r.d < 16 && r.b < 16 && r.w1 = 0 && r.md < 32 && r.x2 = { c := r.c, pe := r.pe, md := r.md })
      (guardO (r.fn5 = 0)
        (some (.hsift (Fin.ofNat 16 r.md) (r.md / 16 = 1) (xr r.a) (vr r.b) (vr r.d) (xr r.c) (pr r.pe))))
  | 0x68 =>
    match VSat.ofCode r.fn3 with
    | some f =>
      fin2 r.vPlainMbz
        (guardO r.vNoMod
          ((r.vxOpt f.admitsDot).map fun x => .vdot f r.vmask (vr r.vd) (vr r.va) (vr r.vb) (vr r.vc) x))
    | none => decV0 r r.vPlainMbz
  | 0x69 => match bitCode r.fn3 with | some f => decV1 r Ty.isIF (.vbmax !f) | none => decV0 r (r.vb = 0 && r.vc = 0 && r.vPlainMbz)
  | 0x6A =>
    match Ty.ofCode r.w1 with
    | some rec =>
      fin2 (r.vb = 0 && r.vc = 0 && r.vMbz && r.c = 0)
        (guardO (r.md = 0 && rec.isRec && r.fn3 = 0)
          ((r.vx Ty.isFloat).map fun x => .vqnt r.vmask (vr r.vd) (vr r.va) rec x))
    | none => decV0 r (r.vb = 0 && r.vc = 0 && r.c = 0)
  | 0x6B =>
    match VMaskFn.ofCode r.fn3 with
    | some f => fin2 (r.vb = 0 && r.vc = 0 && r.pv = 0 && r.z = 0 && r.vd < 8) (some (.vmask f (pr r.vd) (vr r.va)))
    | none =>
      fin2 (r.vb = 0 && r.vc = 0 && r.pv = 0 && r.z = 0 && (r.fn3 != 3 || r.va < 8))
        (guardO (r.fn3 = 3) (some (.vmaskExpand (vr r.vd) (pr r.va))))
  | 0x6C =>
    if r.len = 3 then
      fin2 (r.vb = 0 && r.vc = 0 && r.vMbz && r.c = 0 && r.w1 = 0)
        (guardO (r.md = 0 && r.fn3 = 0)
          ((r.vx Ty.isIF).map fun x => .vclampLiteral r.vmask (vr r.vd) (vr r.va) (BitVec.ofNat 64 r.lit) x))
    else
      fin2 r.vPlainMbz
        (guardO (r.vNoMod && r.fn3 = 0)
          ((r.vxOpt Ty.isIF).map fun x => .vclamp r.vmask (vr r.vd) (vr r.va) (vr r.vb) (vr r.vc) x))
  | 0x6D => if r.fn3 = 0 then decV1 r Ty.isFloat .vrnd else decV0 r (r.vb = 0 && r.vc = 0 && r.vPlainMbz)
  | 0x6E =>
    fin2 (r.fn5 = 0 && r.a < 16 && r.w1 = 0 && r.tyMbz && r.x2 = { c := r.c, ty := r.ty, tyv := r.tyv })
      ((r.tyOpt Ty.isElem).map fun t => .vext (xr r.d) (vr r.a) (xr r.b) (xr r.c) t)
  | _ =>
    fin2 (r.fn5 = 0 && r.d < 16 && r.w1 = 0 && r.tyMbz && r.x2 = { c := r.c, ty := r.ty, tyv := r.tyv })
      ((r.tyOpt Ty.isElem).map fun t => .vins (vr r.d) (xr r.a) (xr r.b) (xr r.c) t)

/-- The target of `CFG` (R347): a register, or the literal, with which `b` must be zero. -/
def decCfg (r : Raw) (mk : XReg → XReg → CfgTarget → Instr) (az : Bool) : Except Nat Instr :=
  fin2 (r.w1 = 0 && r.w2 = 0 && (r.len = 1 || r.b = 0) && (!az || r.a = 0))
    (some (mk (xr r.d) (xr r.a) (if r.len = 1 then .reg (xr r.b) else .lit (BitVec.ofNat 64 r.lit))))

/-- Matrix and pooled units, isolation: 0x70 to 0x7F (R190 to R198, R249, R342 to R352, R376). -/
def decMatrix (r : Raw) : Except Nat Instr :=
  match r.op with
  | 0x70 =>
    fin2 (r.fn5 = 0 && quadMbz r.d && r.w1 < 2 ^ 18 && r.cPe)
      (some (.mwld (quadOf r.d) (xr r.a) (xr r.b) (xr r.c) (Fin.ofNat 1024 r.w1) (Fin.ofNat 256 (r.w1 / 1024)) (pr r.pe)))
  | 0x71 =>
    fin2 (r.fn5 < 4 && bankMbz r.d && r.w1 % 2 ^ 18 = 0 && r.tyMbz &&
        r.x2 = { c := r.c, pe := r.pe, ty := r.ty, tyv := r.tyv })
      ((r.tyReq Ty.isMat).map fun t =>
        .mma (r.fn5 % 2 = 1) (r.fn5 / 2 = 1) t (bankOf r.d) (xr r.a) (xr r.b) (xr r.c)
          (Fin.ofNat 16384 (r.w1 / 2 ^ 18)) (pr r.pe))
  | 0x72 =>
    fin2 (bankMbz r.d && r.tyMbz && r.x2 = { c := r.c, e := r.e, pe := r.pe, ty := r.ty, tyv := r.tyv })
      ((r.tyReq Ty.isMat).map fun t =>
        .mmg (r.fn5 % 2 = 1) (r.fn5 / 2 % 2 = 1) (Fin.ofNat 8 (r.fn5 / 4)) t (bankOf r.d) (xr r.a) (xr r.b) (xr r.c)
          (xr r.e) (Fin.ofNat 1024 r.w1) (Fin.ofNat 256 (r.w1 / 1024)) (Fin.ofNat 16384 (r.w1 / 2 ^ 18)) (pr r.pe))
  | 0x73 =>
    fin2 (r.fn5 = 0 && bankMbz r.d && r.w1 % 1024 = 0 && r.tyMbz && r.md < 2 &&
        r.x2 = { c := r.c, pe := r.pe, ty := r.ty, tyv := r.tyv, rm := r.rm, md := r.md })
      (match r.tyReq Ty.isElem, Rm.ofCode r.rm with
        | some t, some m =>
          some (.mdrain (r.md = 1) t m (bankOf r.d) (xr r.a) (xr r.b) (xr r.c) (Fin.ofNat 256 (r.w1 / 1024))
            (Fin.ofNat 16384 (r.w1 / 2 ^ 18)) (pr r.pe))
        | _, _ => none)
  | 0x74 => fin2 (bankMbz r.d && r.a = 0 && r.fn5 = 0 && r.b < 8) (some (.mzero (bankOf r.d) (pr r.b)))
  | 0x75 => fin2 (r.d = 0 && r.a = 0 && r.b < 8) (guardO (r.fn5 < 8) (some (.mfuse (Fin.ofNat 8 r.fn5) (pr r.b))))
  | 0x76 =>
    if r.len = 0 then
      fin2 (r.d = 0 && r.a = 0 && (r.fn5 != 1 || r.b = 0))
        (match r.fn5 with | 0 => some (.mmap (xr r.b)) | 1 => some .mmapOwn | _ => none)
    else fin2 (r.d = 0 && r.a = 0 && r.b = 0) (guardO (r.fn5 = 0) (some (.mmapLiteral (BitVec.ofNat 64 r.lit))))
  | 0x77 =>
    fin2 (r.w1 < 8 && r.tyMbz && r.x2 = { c := r.c, e := r.e, pe := r.pe, ty := r.ty, tyv := r.tyv, rm := r.rm })
      (match Ty.ofCode r.fn5, r.tyReq Ty.isMat, Rm.ofCode r.rm with
        | some o, some t, some m =>
          guardO o.isElem
            (some (.mvb o t m (xr r.d) (xr r.a) (xr r.b) (xr r.c) (xr r.e) (Fin.ofNat 8 r.w1) (pr r.pe)))
        | _, _, _ => none)
  | 0x78 =>
    if r.fn5 = 3 then fin2 (r.b = 0 && bankMbz r.a) (some (.mstatFlags (xr r.d) (bankOf r.a)))
    else
      fin2 (r.b = 0 && r.a = 0)
        (match r.fn5 with
          | 0 => some (.mstatRd (xr r.d)) | 1 => some (.mstatDone (xr r.d)) | 2 => some (.mstatCfg (xr r.d))
          | 4 => some (.mstatNbf (xr r.d)) | 5 => some (.mstatErr (xr r.d)) | _ => none)
  | 0x79 => fin2 (r.b = 0 && r.fn5 = 0) (some (.shadow (xr r.d) (xr r.a)))
  | 0x7A =>
    match r.fn5 with
    | 0 => fin2 (r.b = 0) (some (.leaseGet (xr r.d) (xr r.a)))
    | 1 => fin2 true (some (.leaseCmd (xr r.d) (xr r.a) (xr r.b)))
    | 2 => fin2 (r.d = 0 && r.b = 0) (some (.leaseRel (xr r.a)))
    | _ => .error 3
  | 0x7B =>
    match r.fn5 with
    | 0 => fin2 (r.d = 0 && r.b = 0) (some (.tlbiVf (xr r.a)))
    | 1 => fin2 (r.d = 0 && r.b = 0) (some (.tlbiCtx (xr r.a)))
    | 2 => fin2 (r.d = 0) (some (.tlbiVa (xr r.a) (xr r.b)))
    | 3 => fin2 (r.d = 0) (some (.tlbiGpa (xr r.a) (xr r.b)))
    | 4 => fin2 (r.d = 0 && r.a = 0 && r.b = 0) (some .tlbiAll)
    | _ => fin2 (r.d = 0) none
  | 0x7C => fin2 (r.fn5 = 0) (some (.dharv (xr r.d) (xr r.a) (xr r.b)))
  | 0x7D =>
    match r.fn5 with
    | 0 => decCfg r .cfgPart false
    | 1 => decCfg r .cfgPdel true
    | 2 => decCfg r .cfgCtx false
    | 3 => decCfg r .cfgQueue false
    | 4 => decCfg r .cfgInst false
    | 5 => decCfg r .cfgRtab false
    | 6 => decCfg r .cfgCls false
    | 7 => decCfg r .cfgMwt false
    | 8 => decCfg r .cfgGw false
    | 9 => decCfg r .cfgTwin false
    | 10 => decCfg r .cfgRrep false
    | _ => fin2 (r.w1 = 0 && r.w2 = 0 && (r.len = 1 || r.b = 0)) none
  | 0x7E =>
    fin2 (r.b = 0)
      (match r.fn5 with
        | 0 => some (.sealQ (xr r.d) (xr r.a)) | 1 => some (.sealOn (xr r.d) (xr r.a))
        | 2 => some (.sealOff (xr r.d) (xr r.a)) | _ => none)
  | _ =>
    match r.fn5 with
    | 0 => fin2 true (some (.scrubMem (xr r.d) (xr r.a) (xr r.b)))
    | 1 => fin2 (r.b = 0) (some (.scrubSlice (xr r.d) (xr r.a)))
    | _ => .error 3

/-- The instruction that the words hold, or the scanner's lowest reason code (R58). -/
def decode (r : Raw) : Except Nat Instr :=
  if !(lens r.op).contains r.len then .error 1
  else match r.op / 16 with
    | 0 => decControl r
    | 1 | 2 => decScalar r
    | 3 => decMemory r
    | 4 => decSystem r
    | 5 => decVector r
    | 6 => decTiles r
    | _ => decMatrix r

/-- Number of words of a length code (R35). -/
def lenWords : Nat → Nat
  | 0 => 1 | 3 => 5 | _ => 3

/-- The words that a list of words, the first of them word 0, gives to the instruction (R35, R42). -/
def Raw.ofWords : List Nat → Raw
  | [] => { w0 := 0 }
  | w0 :: rest =>
    match fld w0 0 2, rest with
    | 1, w1 :: w2 :: _ => { w0 := w0, w1 := w1, w2 := w2 }
    | 2, l0 :: l1 :: _ => { w0 := w0, lit := l0 + 2 ^ 32 * l1 }
    | 3, w1 :: w2 :: l0 :: l1 :: _ => { w0 := w0, w1 := w1, w2 := w2, lit := l0 + 2 ^ 32 * l1 }
    | _, _ => { w0 := w0 }

/-- The words with fillings for those that are missing at the end: zeros, a type that every type field admits,
and the `mod` of a word access and of an immediate. -/
def fillings (ws : List Nat) : List (List Nat) :=
  [[0, 0], [0x10, 0], [0, 0x290000], [0x10, 0x290000], [0, 0x4000000]].map fun l => ws ++ l.drop (ws.length - 1) ++ [0, 0]

/-- Decodes the first instruction of a list of words: the instruction and its length in words. Where words are missing
at the end, the reason code is 5 unless the words that are present show a lower one, whatever follows them (R58). -/
def decodeWords (ws : List Nat) : Except Nat (Instr × Nat) :=
  match ws with
  | [] => .error 5
  | w0 :: _ =>
    let n := lenWords (fld w0 0 2)
    if n ≤ ws.length then
      match decode (Raw.ofWords ws) with
      | .ok i => .ok (i, n)
      | .error c => .error c
    else
      .error (((fillings ws).map fun l => match decode (Raw.ofWords l) with | .ok _ => 5 | .error c => c).foldl max 1)

/-- A little-endian word from four bytes (R4, R35). -/
def wordOfBytes (b0 b1 b2 b3 : Byte) : Nat :=
  b0.toNat + 2 ^ 8 * b1.toNat + 2 ^ 16 * b2.toNat + 2 ^ 24 * b3.toNat

/-- The words of a list of bytes; an odd end is dropped. -/
def wordsOfBytes : List Byte → List Nat
  | b0 :: b1 :: b2 :: b3 :: rest => wordOfBytes b0 b1 b2 b3 :: wordsOfBytes rest
  | _ => []

/-- Decodes the first instruction of any list of bytes: the instruction and the bytes after it, or a reason code. -/
def decodeBytes (bs : List Byte) : Except Nat (Instr × List Byte) :=
  match decodeWords (wordsOfBytes (bs.take 20)) with
  | .ok (i, n) => .ok (i, bs.drop (4 * n))
  | .error c => .error c

/-- The bytes of a word, least significant first (R4). -/
def bytesOfNat : Nat → Nat → List Byte
  | 0, _ => []
  | n + 1, w => BitVec.ofNat 8 w :: bytesOfNat n (w / 256)

/-- The instruction read from `nbits` bits `w`, numbered from the least significant bit of the first word; the bits
above are zero. -/
def decodeTableWord (_nbits w : Nat) : Option Instr :=
  match decodeBytes (bytesOfNat 20 w) with
  | .ok (i, _) => some i
  | .error _ => none
/-! The encoder: the words of a well-formed instruction, from the tables of the instruction chapters. -/

/-- Word 2 of an extended V-form instruction (R144). -/
def VX.w2 (x : VX) (c md : Nat) : Nat :=
  W2.word { c := c, ty := (x.ty.map Ty.code).getD 0, tyv := x.ty.isSome.toNat, rm := x.rm.code, md := md }

/-- A V-form instruction without operand B of lengths 1 and E. -/
def encV (op vd va vb vc : Nat) (m : VMask) (f : Nat) (imm c md : Nat) : Option VX → Raw
  | none => { w0 := wV op 0 vd va vb vc m.p.val m.z.toNat f }
  | some x => { w0 := wV op 1 vd va vb vc m.p.val m.z.toNat f, w1 := imm, w2 := x.w2 c md }

/-- The number in field `vb` of operand B (R144). -/
def VSrc.vb : VSrc → Nat | .vec r => r.val | .xb _ => 0
/-- The number in field `c` of operand B (R144). -/
def VSrc.c : VSrc → Nat | .vec _ => 0 | .xb r => r.val
/-- The modifier bit of operand B (R144). -/
def VSrc.md : VSrc → Nat | .vec _ => 0 | .xb _ => 1

/-- An instruction with operand B. -/
def encVB (op vd va vc : Nat) (b : VSrc) (m : VMask) (f : Nat) (x : Option VX) : Raw :=
  encV op vd va b.vb vc m f 0 b.c b.md x

/-- Word 2 of a tile load or store (R165). -/
def MX.w2 (x : MX) (c e md : Nat) : Nat :=
  W2.word { c := c, e := e, pe := x.m.p.val, ze := x.m.z.toNat, ty := (x.ty.map Ty.code).getD 0
            tyv := x.ty.isSome.toNat, md := md }

/-- A form-M tile access (R165). -/
def encTile (op d sz : Nat) (m : MAddr) : Option MX → Raw
  | none => { w0 := wM op 0 d m.base.val sz m.x m.hi }
  | some x => { w0 := wM op 1 d m.base.val sz m.x m.hi, w1 := x.imm.toNat, w2 := x.w2 0 0 0 }

/-- A form-A instruction of one word. -/
def encA (op d a b f : Nat) : Option Raw := some { w0 := wA op 0 d a b f }
/-- A form-A instruction with a literal as operand B (R37). -/
def encAL (op d a f : Nat) (v : Word) : Option Raw := some { w0 := wA op 2 d a 0 f, lit := v.toNat }
/-- An extended form-A instruction (R42). -/
def encAE (op d a b f w1 : Nat) (x : W2) : Option Raw := some { w0 := wA op 1 d a b f, w1 := w1, w2 := x.word }
/-- A shift (R122). -/
def encShift (op d a : Nat) : ShAmt → Option Raw
  | .reg b => encA op d a b.val 0
  | .imm s => encA op d a s.val 1
/-- Word 2 type fields. -/
def FTy.code (t : FTy) : Nat := t.ty.code

/-- `CFG` (R347). -/
def encCfg (f : Nat) (d a : XReg) : CfgTarget → Option Raw
  | .reg b => encAE 0x7D d.val a.val b.val f 0 {}
  | .lit v => some { w0 := wA 0x7D 3 d.val a.val 0 f, lit := v.toNat }

/-- The extension fields of the ordering of `LD` and `ST` (R227). -/
def lsMd (o : Option Scope) : Nat := match o with | none => 0 | some s => 1 + 4 * s.code

/-- The words of an instruction, by their fields; none for the steps, which have no words. -/
def encode : Instr → Option Raw
  | .ill c => some { w0 := 2 ^ 9 * c.toNat }
  | .nop n => some { w0 := wI 0x01 0 0 0 n.val }
  | .br t => some { w0 := wJ 0x02 0 0 0 t.toNat }
  | .brAbsolute v => some { w0 := wJ 0x02 2 0 0 0, lit := v.toNat }
  | .bc q p t => some { w0 := wJ 0x03 0 p.val q.code t.toNat }
  | .bcmp c a b t => encAE 0x04 0 a.val b.val c.code t.toNat {}
  | .jr a => encA 0x05 0 a.val 0 0
  | .call t => some { w0 := wJ 0x06 0 0 0 t.toNat }
  | .callAbsolute v => some { w0 := wJ 0x06 2 0 0 0, lit := v.toNat }
  | .ret a => encA 0x07 0 a.val 0 0
  | .loop l e n => some { w0 := wI 0x08 1 l.val 0 e.val, w1 := n.toNat }
  | .loopr l a e => some { w0 := wI 0x09 0 l.val a.val e.val }
  | .lbrk l q p => some { w0 := wJ 0x0A 0 p.val q.code l.val }
  | .phaseX => encA 0x0B 0 0 0 0
  | .phaseC => encA 0x0B 0 0 0 1
  | .chainLeave => encA 0x0C 0 0 0 0
  | .chainForm r c => encAE 0x0C 0 0 0 1 (r.val + 256 * c.val) {}
  | .xferVector dir d a => encA 0x0D d.val a.val 0 dir.code
  | .xferScalar dir d a => encA 0x0D d.val a.val 0 (4 + dir.code)
  | .done => encA 0x0E 0 0 0 0
  | .exit a => encA 0x0F 0 a.val 0 0
  | .add f d a b => encA 0x10 d.val a.val b.val f.code
  | .addLiteral f d a v => encAL 0x10 d.val a.val f.code v
  | .sub f d a b => encA 0x11 d.val a.val b.val f.code
  | .subLiteral f d a v => encAL 0x11 d.val a.val f.code v
  | .addi d a i => some { w0 := wI 0x12 0 d.val a.val i.toNat }
  | .mul d a b => encA 0x13 d.val a.val b.val 0
  | .mulLiteral d a v => encAL 0x13 d.val a.val 0 v
  | .mulhi f d a b => encA 0x14 d.val a.val b.val f.code
  | .mulhiLiteral f d a v => encAL 0x14 d.val a.val f.code v
  | .mad s d a b => encA 0x15 d.val a.val b.val s.toNat
  | .div u d a b => encA 0x16 d.val a.val b.val u.toNat
  | .divLiteral u d a v => encAL 0x16 d.val a.val u.toNat v
  | .rem u d a b => encA 0x17 d.val a.val b.val u.toNat
  | .remLiteral u d a v => encAL 0x17 d.val a.val u.toNat v
  | .and n d a b => encA 0x18 d.val a.val b.val n.toNat
  | .andLiteral n d a v => encAL 0x18 d.val a.val n.toNat v
  | .or n d a b => encA 0x19 d.val a.val b.val n.toNat
  | .orLiteral n d a v => encAL 0x19 d.val a.val n.toNat v
  | .xor n d a b => encA 0x1A d.val a.val b.val n.toNat
  | .xorLiteral n d a v => encAL 0x1A d.val a.val n.toNat v
  | .shl d a s => encShift 0x1B d.val a.val s
  | .shr d a s => encShift 0x1C d.val a.val s
  | .sar d a s => encShift 0x1D d.val a.val s
  | .bfx d a pos wid => some { w0 := wI 0x1E 0 d.val a.val (pos.val + 64 * wid.val) }
  | .bfxExtended sx d a pos wid =>
    some { w0 := wI 0x1E 1 d.val a.val 0, w1 := pos.val + 256 * wid.val, w2 := W2.word { md := sx.toNat } }
  | .bfi d a pos wid => some { w0 := wI 0x1F 0 d.val a.val (pos.val + 64 * wid.val) }
  | .bfiExtended d a pos wid => some { w0 := wI 0x1F 1 d.val a.val 0, w1 := pos.val + 256 * wid.val }
  | .cmp c p a b => encA 0x20 p.val a.val b.val c.code
  | .cmpLiteral c p a v => encAL 0x20 p.val a.val c.code v
  | .cmpi c p a i => some { w0 := wI 0x21 0 (p.val + 8 * c.code) a.val i.toNat }
  | .sel d a b p => encA 0x22 d.val a.val b.val p.val
  | .min u d a b => encA 0x23 d.val a.val b.val u.toNat
  | .minLiteral u d a v => encAL 0x23 d.val a.val u.toNat v
  | .max u d a b => encA 0x24 d.val a.val b.val u.toNat
  | .maxLiteral u d a v => encAL 0x24 d.val a.val u.toNat v
  | .clz f d a => encA 0x25 d.val a.val 0 f.code
  | .popc w d a => encA 0x26 d.val a.val 0 w.toNat
  | .li d i => some { w0 := wI 0x27 0 d.val 0 i.toNat }
  | .liLiteral d v => some { w0 := wI 0x27 2 d.val 0 0, lit := v.toNat }
  | .plog t d a b => encA 0x28 d.val a.val b.val t.toNat
  | .plogFromx d a => encA 0x28 d.val a.val 0 16
  | .plogTox d a => encA 0x28 d.val a.val 0 17
  | .srd d n => some { w0 := wI 0x29 0 d.val 0 n.code }
  | .swr n a => some { w0 := wI 0x2A 0 0 a.val n.code }
  | .time d => encA 0x2B d.val 0 0 0
  | .timeFx d => encA 0x2B d.val 0 0 1
  | .lea d m => some { w0 := wM 0x2C 0 d.val m.base.val 0 m.x m.hi }
  | .leaExtended d m i => some { w0 := wM 0x2C 1 d.val m.base.val 0 m.x m.hi, w1 := i.toNat }
  | .sfop f d a b => encA 0x2D d.val a.val b.val f.code
  | .sfopExtended f ty rm d a b =>
    encAE 0x2D d.val a.val b.val f.code 0 { ty := (ty.map FTy.code).getD 0, tyv := ty.isSome.toNat, rm := rm.code }
  | .sfma neg sub d a b => encA 0x2E d.val a.val b.val (2 * neg.toNat + sub.toNat)
  | .sfmaExtended neg sub ty rm d a b =>
    encAE 0x2E d.val a.val b.val (2 * neg.toNat + sub.toNat) 0
      { ty := (ty.map FTy.code).getD 0, tyv := ty.isSome.toNat, rm := rm.code }
  | .scvt t s sat d a => encA 0x2F d.val a.val (s.code + 32 * sat.toNat) t.code
  | .scvtExtended t s sat rm d a => encAE 0x2F d.val a.val (s.code + 32 * sat.toNat) t.code 0 { rm := rm.code }
  | .ld sz d m => some { w0 := wM 0x30 0 d.val m.base.val sz.code m.x m.hi }
  | .ldExtended sz d m i acq sx =>
    some { w0 := wM 0x30 1 d.val m.base.val sz.code m.x m.hi, w1 := i.toNat
           w2 := W2.word { md := lsMd acq + 32 * sx.toNat } }
  | .st sz m d => some { w0 := wM 0x31 0 d.val m.base.val sz.code m.x m.hi }
  | .stExtended sz m d i rel =>
    some { w0 := wM 0x31 1 d.val m.base.val sz.code m.x m.hi, w1 := i.toNat, w2 := W2.word { md := lsMd rel } }
  | .ldf k d m none => some { w0 := wM 0x32 0 d.val m.base.val k.toNat m.x m.hi }
  | .ldf k d m (some i) => some { w0 := wM 0x32 1 d.val m.base.val k.toNat m.x m.hi, w1 := i.toNat }
  | .stf m d none => some { w0 := wM 0x33 0 d.val m.base.val 0 m.x m.hi }
  | .stf m d (some i) => some { w0 := wM 0x33 1 d.val m.base.val 0 m.x m.hi, w1 := i.toNat }
  | .atom op sz o d a b c i => encAE 0x34 d.val a.val b.val op.code i.toNat { c := c.val, md := sz.code + o.md }
  | .atomv op o d e a b c i =>
    encAE 0x35 d.val a.val b.val op.code i.toNat
      { c := c.val, e := e.val, ty := (op.ty.map Ty.code).getD 0, tyv := op.ty.isSome.toNat, md := o.md }
  | .watch m => some { w0 := wM 0x36 0 0 m.base.val 0 m.x m.hi }
  | .waitw c d a => encA 0x37 d.val a.val 0 c.code
  | .fence k s => encA 0x38 0 0 0 (k.code + 4 * s.code)
  | .bar t d => encA 0x39 d.val 0 0 t.val
  | .cntToken d a none => encA 0x3A d.val a.val 0 0
  | .cntToken d a (some b) => encA 0x3A d.val a.val b.val 2
  | .cntAntiToken d a none => encA 0x3A d.val a.val 0 1
  | .cntAntiToken d a (some b) => encA 0x3A d.val a.val b.val 3
  | .recv y d a b c t => encAE 0x3B d.val a.val b.val y.toNat t.toNat { c := c.val }
  | .send y d a b c t pe => encAE 0x3C d.val a.val b.val y.toNat t.toNat { c := c.val, pe := pe.val }
  | .sendLiteral y d c t pe v =>
    some { w0 := wA 0x3C 3 d.val 0 0 y.toNat, w1 := t.toNat, w2 := W2.word { c := c.val, pe := pe.val }
           lit := v.toNat }
  | .sendn dir d a b c pe => encAE 0x3D d.val a.val b.val dir.code 0 { c := c.val, pe := pe.val }
  | .halo m d a b c q pe => encAE 0x3E d.val a.val b.val m.toNat q.toNat { c := c.val, pe := pe.val }
  | .probe y d a b => encA 0x3F d.val a.val b.val y.toNat
  | .copyIn win d a b c e w1 pe =>
    encAE 0x40 d.val a.val b.val 0 w1.toNat { c := c.val, e := e.val, pe := pe.val, md := 2 * win.toNat }
  | .copyOut win d a b c e w1 pe =>
    encAE 0x40 d.val a.val b.val 0 w1.toNat { c := c.val, e := e.val, pe := pe.val, md := 1 + 2 * win.toNat }
  | .gather i ty d a b c e st pe =>
    encAE 0x41 d.val a.val b.val i.toNat st.toNat { c := c.val, e := e.val, pe := pe.val, ty := ty.code, tyv := 1 }
  | .scatter i ty d a b c e st pe =>
    encAE 0x42 d.val a.val b.val i.toNat st.toNat { c := c.val, e := e.val, pe := pe.val, ty := ty.code, tyv := 1 }
  | .put d a b c e pe => encAE 0x43 d.val a.val b.val 0 0 { c := c.val, e := e.val, pe := pe.val }
  | .publish a => encA 0x44 0 a.val 0 0
  | .shadow d a => encA 0x79 d.val a.val 0 0
  | .launch c d a b => encA 0x45 d.val a.val b.val c.toNat
  | .task d a => encA 0x46 d.val a.val 0 0
  | .join d a b => encA 0x47 d.val a.val b.val 0
  | .trap n => some { w0 := wI 0x48 0 0 0 n.toNat }
  | .brk n => some { w0 := wI 0x4F 0 0 0 n.toNat }
  | .eret => encA 0x49 0 0 0 0
  | .eretSkip => encA 0x49 0 0 0 1
  | .eretTo a => encA 0x49 0 a.val 0 2
  | .live d b => encA 0x4A d.val 0 b.val 0
  | .liveLiteral d v => encAL 0x4A d.val 0 0 v
  | .yield d => encA 0x4B d.val 0 0 0
  | .yieldPoll d => encA 0x4B d.val 0 0 1
  | .valid c a b => encA 0x4C 0 a.val b.val c.code
  | .validImmediate c a n => encAE 0x4C 0 a.val 0 c.code n.toNat {}
  | .validOpen a b => encA 0x4C 0 a.val b.val 4
  | .validOpenImmediate a n => encAE 0x4C 0 a.val 0 4 n.toNat {}
  | .routeDisp d a kc s m => encAE 0x4D d.val a.val 0 0 (s.val + 4 * kc.val) { pe := m.p.val, ze := m.z.toNat }
  | .routeRedir d a kc s m => encAE 0x4D d.val a.val 0 1 (s.val + 4 * kc.val) { pe := m.p.val, ze := m.z.toNat }
  | .routeClose d a => encAE 0x4D d.val a.val 0 2 0 {}
  | .routeInfo d a s m => encAE 0x4D d.val a.val 0 3 s.val { pe := m.p.val, ze := m.z.toNat }
  | .rtpinPin d a s => encA 0x4E d.val a.val s.val 0
  | .rtpinRel s => encA 0x4E 0 0 s.val 1
  | .rtpinHealth d => encA 0x4E d.val 0 0 2
  | .rtpinCur d a => encA 0x4E d.val a.val 0 3
  | .vadd f m d a b x => some (encVB 0x50 d.val a.val 0 b m f.code x)
  | .vsub f m d a b x => some (encVB 0x51 d.val a.val 0 b m f.code x)
  | .vmul f m d a b x => some (encVB 0x52 d.val a.val 0 b m f.code x)
  | .vfma neg sub m d a b c x => some (encVB 0x53 d.val a.val c.val b m (2 * neg.toNat + sub.toNat) x)
  | .vminmax f m d a b x => some (encVB 0x54 d.val a.val 0 b m f.code x)
  | .vcmp f m d a b x => some (encVB 0x55 d.val a.val 0 b m f.code x)
  | .vsel m d a b c => some (encV 0x56 d.val a.val b.val c.val m 0 0 0 0 none)
  | .vcvt f m d a src x => some (encV 0x57 d.val a.val 0 0 m f.code src.code 0 0 (some x))
  | .vlog f m d a b => some (encV 0x58 d.val a.val b.val 0 m f.code 0 0 0 none)
  | .vshf f m d a (.vec b) x => some (encVB 0x59 d.val a.val 0 (.vec b) m f.code x)
  | .vshf f m d a (.xb c) x => some (encVB 0x59 d.val a.val 0 (.xb c) m f.code x)
  | .vshf f m d a (.imm i) x => some (encV 0x59 d.val a.val 0 0 m f.code i.toNat 0 2 x)
  | .vsfu f m d a x => some (encV 0x5A d.val a.val 0 0 m f.code 0 0 0 x)
  | .vred f m d a x => some (encV 0x5B d.val a.val 0 0 m f.code 0 0 0 x)
  | .vscan f m d a x => some (encV 0x5C d.val a.val 0 0 m f.code 0 0 0 x)
  | .vperm m d a b x => some (encV 0x5D d.val a.val b.val 0 m 0 0 0 0 x)
  | .vpermTr d a x => some (encV 0x5D d.val a.val 0 0 { p := 0, z := false } 1 0 0 0 x)
  | .viota f m d i x => some (encV 0x5E d.val 0 0 0 m f.code i.toNat 0 0 x)
  | .vmov f m d a x => some (encV 0x5F d.val a.val 0 0 m f.code 0 0 0 x)
  | .vmovScalar m d c x => some (encV 0x5F d.val 0 0 0 m 1 0 c.val 0 (some x))
  | .vmovLiteral m d v x =>
    some { w0 := wV 0x5F 3 d.val 0 0 0 m.p.val m.z.toNat 2, w2 := x.w2 0 0, lit := v.toNat }
  | .vshape r c t => some { w0 := wI 0x60 0 r.val t.code c.val }
  | .vld d m x => some (encTile 0x61 d.val 0 m x)
  | .vldShaped d a c e x =>
    some { w0 := wM 0x61 1 d.val a.val 0 0 0, w1 := x.imm.toNat, w2 := x.w2 c.val e.val 1 }
  | .vst m d x => some (encTile 0x62 d.val 0 m x)
  | .vstShaped a c e d x =>
    some { w0 := wM 0x62 1 d.val a.val 0 0 0, w1 := x.imm.toNat, w2 := x.w2 c.val e.val 1 }
  | .vldf k d m x => some (encTile 0x63 d.val k.toNat m x)
  | .vldx d a b m ty =>
    encAE 0x64 d.val a.val b.val 0 0
      { pe := m.p.val, ze := m.z.toNat, ty := (ty.map Ty.code).getD 0, tyv := ty.isSome.toNat }
  | .vstx a b d p ty =>
    encAE 0x65 d.val a.val b.val 0 0 { pe := p.val, ty := (ty.map Ty.code).getD 0, tyv := ty.isSome.toNat }
  | .vpackUnpack m d a rec x => some (encV 0x66 d.val a.val 0 0 m 0 rec.code 0 0 (some x))
  | .vpackPack m d a b rec x => some (encV 0x66 d.val a.val b.val 0 m 1 rec.code 0 0 (some x))
  | .hsift k new a b d c p =>
    encAE 0x67 d.val a.val b.val 0 0 { c := c.val, pe := p.val, md := k.val + 16 * new.toNat }
  | .vdot f m d a b c x => some (encV 0x68 d.val a.val b.val c.val m f.code 0 0 0 x)
  | .vbmax abs m d a x => some (encV 0x69 d.val a.val 0 0 m (!abs).toNat 0 0 0 x)
  | .vqnt m d a rec x => some (encV 0x6A d.val a.val 0 0 m 0 rec.code 0 0 (some x))
  | .vmask f d a => some (encV 0x6B d.val a.val 0 0 { p := 0, z := false } f.code 0 0 0 none)
  | .vmaskExpand d a => some (encV 0x6B d.val a.val 0 0 { p := 0, z := false } 3 0 0 0 none)
  | .vclamp m d a b c x => some (encV 0x6C d.val a.val b.val c.val m 0 0 0 0 x)
  | .vclampLiteral m d a v x =>
    some { w0 := wV 0x6C 3 d.val a.val 0 0 m.p.val m.z.toNat 0, w2 := x.w2 0 0, lit := v.toNat }
  | .vrnd m d a x => some (encV 0x6D d.val a.val 0 0 m 0 0 0 0 x)
  | .vext d a b c ty =>
    encAE 0x6E d.val a.val b.val 0 0 { c := c.val, ty := (ty.map Ty.code).getD 0, tyv := ty.isSome.toNat }
  | .vins d a b c ty =>
    encAE 0x6F d.val a.val b.val 0 0 { c := c.val, ty := (ty.map Ty.code).getD 0, tyv := ty.isSome.toNat }
  | .mwld q a b c k n pe => encAE 0x70 q.code a.val b.val 0 (k.val + 1024 * n.val) { c := c.val, pe := pe.val }
  | .mma neg z ty acc a b c st pe =>
    encAE 0x71 acc.code a.val b.val (neg.toNat + 2 * z.toNat) (2 ^ 18 * st.val)
      { c := c.val, pe := pe.val, ty := ty.code, tyv := 1 }
  | .mmg neg z nt ty acc a b c e k n st pe =>
    encAE 0x72 acc.code a.val b.val (neg.toNat + 2 * z.toNat + 4 * nt.val) (k.val + 1024 * n.val + 2 ^ 18 * st.val)
      { c := c.val, e := e.val, pe := pe.val, ty := ty.code, tyv := 1 }
  | .mdrain clr ty rm acc a b c n st pe =>
    encAE 0x73 acc.code a.val b.val 0 (1024 * n.val + 2 ^ 18 * st.val)
      { c := c.val, pe := pe.val, ty := ty.code, tyv := 1, rm := rm.code, md := clr.toNat }
  | .mzero acc pe => encA 0x74 acc.code 0 pe.val 0
  | .mfuse m pe => encA 0x75 0 0 pe.val m.val
  | .mmap b => encA 0x76 0 0 b.val 0
  | .mmapOwn => encA 0x76 0 0 0 1
  | .mmapLiteral v => encAL 0x76 0 0 0 v
  | .mvb out ty rm d a b c e nv pe =>
    encAE 0x77 d.val a.val b.val out.code nv.val
      { c := c.val, e := e.val, pe := pe.val, ty := ty.code, tyv := 1, rm := rm.code }
  | .mstatRd d => encA 0x78 d.val 0 0 0
  | .mstatDone d => encA 0x78 d.val 0 0 1
  | .mstatCfg d => encA 0x78 d.val 0 0 2
  | .mstatFlags d acc => encA 0x78 d.val acc.code 0 3
  | .mstatNbf d => encA 0x78 d.val 0 0 4
  | .mstatErr d => encA 0x78 d.val 0 0 5
  | .leaseGet d a => encA 0x7A d.val a.val 0 0
  | .leaseCmd d a b => encA 0x7A d.val a.val b.val 1
  | .leaseRel a => encA 0x7A 0 a.val 0 2
  | .tlbiVf a => encA 0x7B 0 a.val 0 0
  | .tlbiCtx a => encA 0x7B 0 a.val 0 1
  | .tlbiVa a b => encA 0x7B 0 a.val b.val 2
  | .tlbiGpa a b => encA 0x7B 0 a.val b.val 3
  | .tlbiAll => encA 0x7B 0 0 0 4
  | .dharv d a b => encA 0x7C d.val a.val b.val 0
  | .cfgPart d a t => encCfg 0 d a t
  | .cfgPdel d a t => encCfg 1 d a t
  | .cfgCtx d a t => encCfg 2 d a t
  | .cfgQueue d a t => encCfg 3 d a t
  | .cfgInst d a t => encCfg 4 d a t
  | .cfgRtab d a t => encCfg 5 d a t
  | .cfgCls d a t => encCfg 6 d a t
  | .cfgMwt d a t => encCfg 7 d a t
  | .cfgGw d a t => encCfg 8 d a t
  | .cfgTwin d a t => encCfg 9 d a t
  | .cfgRrep d a t => encCfg 10 d a t
  | .sealQ d a => encA 0x7E d.val a.val 0 0
  | .sealOn d a => encA 0x7E d.val a.val 0 1
  | .sealOff d a => encA 0x7E d.val a.val 0 2
  | .scrubMem d a b => encA 0x7F d.val a.val b.val 0
  | .scrubSlice d a => encA 0x7F d.val a.val 0 1
  | _ => none

/-- The words of one instruction in their order (R35, R42). -/
def Raw.words (r : Raw) : List Nat :=
  match r.len with
  | 0 => [r.w0]
  | 1 => [r.w0, r.w1, r.w2]
  | 2 => [r.w0, r.lit % 2 ^ 32, r.lit / 2 ^ 32]
  | _ => [r.w0, r.w1, r.w2, r.lit % 2 ^ 32, r.lit / 2 ^ 32]

/-- The bytes of an instruction; none for a step. -/
def encodeBytes (i : Instr) : List Byte :=
  match encode i with
  | none => []
  | some r => r.words.flatMap (bytesOfNat 4)


end Sys2Proof
end

