-- ==== Sys2Proof/Machine/Xlate.lean ====
section
/-! DEFINITION. Two-stage translation, its TLBs, page requests and their replies (19_isolation.md R329 to R338), twin
sets (R332), the dirty log (R341), and the code-page scanner (03_formats.md R57 to R60). -/

namespace Sys2Proof.Machine

/-- The kind of an access, with the codes of R335: 0 read, 1 write, 2 fetch, 3 atomic. -/
inductive Acc where
  | read | write | fetch | atomic
  deriving DecidableEq, Repr

/-- The codes of R335. -/
def Acc.code : Acc → Nat
  | .read => 0 | .write => 1 | .fetch => 2 | .atomic => 3
/-- Writes and atomics form one class of page requests (R335). -/
def Acc.isWrite : Acc → Bool
  | .write | .atomic => true | _ => false
/-- The permission bits that an access needs: bit 0 read, bit 1 write, bit 2 execute (R330). A store or atomic needs
write, a load or engine read needs read, a fetch needs execute. -/
def Acc.need : Acc → Nat
  | .read => 1 | .write => 2 | .atomic => 2 | .fetch => 4

/-! Page-table entries (R329, R330). -/

/-- The output address of an entry. -/
def pteOa (e : Nat) : Nat := fld e 15 42 * 32768
/-- `v`. -/
def pteV (e : Nat) : Bool := fld e 0 1 = 1
/-- `lf`. -/
def pteLf (e : Nat) : Bool := fld e 1 1 = 1
/-- `kind`. -/
def pteKind (e : Nat) : Nat := fld e 2 2
/-- `r`, `w`, `x` as bits 0, 1, 2. -/
def ptePerm (e : Nat) : Nat := fld e 4 3
/-- `tw`. -/
def pteTw (e : Nat) : Bool := fld e 7 1 = 1

/-- log2 of the page size of a leaf (R329). -/
def pageBits (lvl : Nat) : Nat := if lvl = 1 then 39 else if lvl = 2 then 27 else 15
/-- The index of an address at a level (R329). -/
def tableIndex (a lvl : Nat) : Nat :=
  if lvl = 0 then fld a 51 6 else if lvl = 1 then fld a 39 12 else if lvl = 2 then fld a 27 12 else fld a 15 12

/-- An entry with `v` = 1 is malformed (R330). -/
def malformed (stage lvl e : Nat) : Bool :=
  fld e 57 7 != 0 || fld e 8 7 != 0 ||
  (if pteLf e then
     lvl = 0 || pteOa e % 2 ^ pageBits lvl != 0 || ptePerm e / 2 = 3 ||
     (pteTw e && (stage = 1 || lvl != 3 || fld e 15 1 = 1)) || (stage = 2 && rangeReserved (pteOa e) (2 ^ pageBits lvl))
   else
     lvl = 3 || fld e 2 6 != 0 || (stage = 2 && rangeReserved (pteOa e) 32768))

/-- The twin set of a frame pair (R332). -/
def State.twinOf (s : State) (frame : Nat) : Option (Nat × Twin) :=
  List.find? (fun (e : Nat × Twin) => e.2.base ≤ frame && frame < e.2.base + e.2.span) s.twins
/-- A host-physical address through the selector, on a page with `tw`: the frame F or F + 32 KiB, the other one for an engine
write while the epoch is open (R332, R249). -/
def State.selected (s : State) (hpa : Nat) (tw engineWrite : Bool) : Nat :=
  if !tw then hpa
  else
    match s.twinOf (hpa - hpa % 32768) with
    | none => hpa
    | some (_, t) => if t.sel != (engineWrite && t.isOpen) then hpa + 32768 else hpa

/-- How a walk ends: with the two leaves' outcome, in a stage-1 fault, or in a stage-2 fault at a guest-physical
address. `k3` marks the `kind` 0b11 (R206, R334). -/
inductive Walk (α : Type) where
  | ok (a : α)
  | s1 (lvl : Nat) (k3 : Bool)
  | s2 (gpa lvl why : Nat)
  | s2k (lvl : Nat)
  deriving DecidableEq, Repr

/-- A stage-2 leaf: the host-physical address, the leaf's entry, its level. -/
structure Leaf where
  out : Nat
  pte : Nat
  lvl : Nat
  deriving DecidableEq, Repr

/-- Stage 2 from a level on (R331); a table that reads poison makes the entry malformed (R382). -/
def State.stage2From (s : State) : Nat → Nat → Nat → Nat → Walk Leaf
  | 0, _, _, gpa => .s2 gpa 3 2
  | n + 1, lvl, t, gpa =>
    let ea := t + 8 * tableIndex gpa lvl
    let e := s.physNat ea 8
    if s.physPoison ea 8 then .s2 gpa lvl 2
    else if !pteV e then .s2 gpa lvl 0
    else if malformed 2 lvl e then .s2 gpa lvl 2
    else if pteLf e then .ok { out := pteOa e + gpa % 2 ^ pageBits lvl, pte := e, lvl := lvl }
    else s.stage2From n (lvl + 1) (pteOa e) gpa

/-- Stage 2 with its permission and kind (R330, R331, R206). -/
def State.stage2 (s : State) (part gpa need : Nat) : Walk Leaf :=
  match s.stage2From 4 0 (s.part part).s2root gpa with
  | .ok l =>
    if pteKind l.pte = 3 then .s2k l.lvl
    else if ptePerm l.pte &&& need != need then .s2 gpa l.lvl 1
    else .ok l
  | r => r

/-- The translation of an access: host-physical address, kind, guest-physical address, and what a TLB keeps. -/
structure Xl where
  hpa  : Nat
  gpa  : Nat
  kind : Nat
  ent  : TlbEntry
  deriving DecidableEq, Repr

/-- The entry of a stage-1 table at a level: its table is read through stage 2 and the selector (R331, R332). -/
def State.entry1 (s : State) (ctx lvl t va : Nat) : Walk Nat :=
  match s.stage2 (ctx / 16) (t + 8 * tableIndex va lvl) 1 with
  | .ok l => .ok (s.selected l.out (pteTw l.pte) false)
  | .s2 g l w => .s2 g l w
  | .s2k l => .s2k l
  | .s1 l k => .s1 l k
/-- The stage-1 leaf of an address and its level, whatever it permits. -/
def State.leaf1 (s : State) (ctx : Nat) : Nat → Nat → Nat → Nat → Option (Nat × Nat)
  | 0, _, _, _ => none
  | n + 1, lvl, t, va =>
    match s.entry1 ctx lvl t va with
    | .ok a =>
      let e := s.physNat a 8
      if s.physPoison a 8 || !pteV e || malformed 1 lvl e then none
      else if pteLf e then some (e, lvl)
      else s.leaf1 ctx n (lvl + 1) (pteOa e) va
    | _ => none
/-- Stage 1 from a level on, each table read translated (R331). A table in poisoned memory faults at stage 1 (R382). -/
def State.stage1From (s : State) (ctx : Nat) : Nat → Nat → Nat → Nat → Acc → Walk Xl
  | 0, _, _, _, _ => .s1 3 false
  | n + 1, lvl, t, va, acc =>
    match s.entry1 ctx lvl t va with
    | .ok a =>
      let e := s.physNat a 8
      if s.physPoison a 8 then .s1 lvl false
      else if !pteV e || malformed 1 lvl e then .s1 lvl false
      else if !pteLf e then s.stage1From ctx n (lvl + 1) (pteOa e) va acc
      else if pteKind e = 3 then .s1 lvl true
      else if ptePerm e &&& acc.need != acc.need then .s1 lvl false
      else
        let gpa := pteOa e + va % 2 ^ pageBits lvl
        match s.stage2 (ctx / 16) gpa acc.need with
        | .ok m =>
          let sz := min (2 ^ pageBits lvl) (2 ^ pageBits m.lvl)
          let kind := min (pteKind e) (pteKind m.pte)
          .ok { hpa := m.out, gpa := gpa, kind := kind
                ent := { ctx := ctx, vpage := va - va % sz, gpa := gpa - gpa % sz, hpa := m.out - m.out % sz, size := sz
                         bits := (ptePerm e &&& ptePerm m.pte) + 8 * (pteTw m.pte).toNat + 16 * kind, set := 0
                         vsize := 2 ^ pageBits lvl, gsize := 2 ^ pageBits m.lvl } }
        | .s2 g l w => .s2 g l w
        | .s2k l => .s2k l
        | .s1 l k => .s1 l k
    | .s2 g l w => .s2 g l w
    | .s2k l => .s2k l
    | .s1 l k => .s1 l k

/-- The walk of an access (R331). An address that is not of the global space faults at stage 1 (log 18). A launch's task queue
is mapped read-only in its context, for as long as the launch lives; no TLB keeps that mapping (R282; log 5). -/
def State.walk (s : State) (ctx va : Nat) (acc : Acc) : Walk Xl :=
  if va / 2 ^ 57 ≠ 0 then .s1 0 false
  else
    match s.queueAt ctx va with
    | some h =>
      if acc = .read then .ok { hpa := h, gpa := h, kind := 1
                                ent := { ctx := ctx, vpage := va, gpa := h, hpa := h, size := 0, bits := 17, set := 0, vsize := 32768, gsize := 32768 } }
      else .s1 3 false
    | none => s.stage1From ctx 4 0 (s.context ctx).s1root va acc

/-- A TLB entry that serves an access. -/
def TlbEntry.serves (e : TlbEntry) (ctx va : Nat) (acc : Acc) : Bool :=
  e.ctx = ctx && e.vpage ≤ va && va < e.vpage + e.size && (e.bits % 8) &&& acc.need = acc.need

/-- What an entry gives for an address. -/
def TlbEntry.apply (e : TlbEntry) (va : Nat) : Xl :=
  { hpa := e.hpa + (va - e.vpage), gpa := e.gpa + (va - e.vpage), kind := e.bits / 16, ent := e }

/-- The host-physical address of a translation through the selector (R249, R332). -/
def State.twinned (s : State) (x : Xl) (engineWrite : Bool) : Xl :=
  { x with hpa := s.selected x.hpa (x.ent.bits / 8 % 2 = 1) engineWrite }

/-- A mapping of an address that grants write permission, at stage 1 or stage 2, drops the scan records of its granules (R60), with
`tw` those of both frames of a pair (R332). The hardware sees a mapping when a walk reads it (log 18). -/
def State.grants (s : State) (ctx va : Nat) : State :=
  if va / 2 ^ 57 ≠ 0 ∨ s.scans = [] ∨ (s.queueAt ctx va).isSome then s
  else
    let drop (s : State) (a n : Nat) : State :=
      { s with scans := s.scans.filter fun g => g.1 < a / 32768 || (a + n - 1) / 32768 < g.1 }
    match s.leaf1 ctx 4 0 (s.context ctx).s1root va with
    | none => s
    | some (e, lvl) =>
      match s.stage2From 4 0 (s.part (ctx / 16)).s2root (pteOa e + va % 2 ^ pageBits lvl) with
      | .ok m =>
        let sz := min (2 ^ pageBits lvl) (2 ^ pageBits m.lvl)
        let twin := if (pteTw e || pteTw m.pte) && (s.twinOf (m.out - m.out % 32768)).isSome then 32768 else 0
        let s := if ptePerm e / 2 % 2 = 1 then drop s (m.out - m.out % sz) (sz + twin) else s
        if ptePerm m.pte / 2 % 2 = 1 then drop s (pteOa m.pte) (2 ^ pageBits m.lvl + twin) else s
      | _ => s

/-- Fills the TLBs of a core and its die (R333): the oldest entries go. The scheduler's accesses keep none. -/
def State.fillTlb (s : State) (core : Nat) (e : TlbEntry) : State :=
  if core ≥ 4112 ∨ e.size = 0 then s else
  let s := s.modCore core fun c => { c with tlb := (c.tlb ++ [e]).drop (c.tlb.length - 63) }
  let d := dieOf core
  let l2 := s.l2tlb.get [] d
  { s with l2tlb := s.l2tlb.put d ((l2 ++ [e]).drop (l2.length - 4095)) }

/-- How an access of a core, an engine or a unit ends: translated, in a fault of cause 0x08 with its `info0` (R357), or
waiting for a page request's reply. -/
inductive Access (α : Type) where
  | ok (s : State) (a : α)
  | fault (s : State) (va info : Nat)
  | wait (s : State)

/-- Passes on a fault or a wait. -/
def Access.bind {α β : Type} (a : Access α) (f : State → α → Access β) : Access β :=
  match a with
  | .ok s x => f s x
  | .fault s v i => .fault s v i
  | .wait s => .wait s

/-- Who makes an access: its waiter, context, core number, sequence number, and whether it is an engine (R335). -/
structure Who where
  w    : Waiter
  ctx  : Nat
  core : Nat
  seq  : BitVec 32
  eng  : Bool
  deriving DecidableEq, Repr

/-- The core that acts, as the maker of an access. -/
def State.me (s : State) : Who :=
  { w := .core s.core.id, ctx := s.core.ctx, core := s.core.id, seq := 0, eng := false }

/-- `info0` of a translation fault (R357). -/
def faultInfo (acc : Acc) (stage2 : Bool) (lvl : Nat) (k3 : Bool) : Nat :=
  acc.code + 4 * stage2.toNat + 16 * lvl + 64 * k3.toNat

/-- The bytes of a page request record (R335). -/
def requestBytes (rid : Nat) (who : Who) (acc : Acc) (gpa va why lvl : Nat) : List Byte :=
  leBytes 2 rid ++ leBytes 1 (acc.code + 4 * who.eng.toNat) ++ leBytes 1 (who.ctx % 16) ++ leBytes 4 who.seq.toNat ++
    leBytes 8 (gpa - gpa % 32768) ++ leBytes 8 va ++ leBytes 2 who.core ++ leBytes 1 why ++ leBytes 1 lvl ++ leBytes 4 0

/-- A stage-2 fault: it joins the request for its granule and class, or files one when the slot at the producer index is free,
and waits (R335 to R337). -/
def State.pageFault (s : State) (who : Who) (va : Nat) (acc : Acc) (gpa lvl why : Nat) : Access Xl :=
  let pn := who.ctx / 16
  let p := s.part pn
  let g := gpa / 32768
  let w : PageWait := { who := who.w, va := va, info := faultInfo acc true lvl false }
  if p.reqs.any fun r => r.gran = g && r.wr = acc.isWrite then
    .wait (s.modPart pn fun p => { p with reqs := p.reqs.map fun r =>
      if r.gran = g ∧ r.wr = acc.isWrite then { r with waiters := r.waiters ++ [w] } else r })
  else
    let prod := s.physNat p.prq 8
    let cons := s.physNat (p.prq + 8) 8
    let rid := prod % 256
    if prod - cons ≥ 256 ∨ p.reqs.any (fun r => r.rid = rid) then .wait s
    else
      let s := s.physWrite (p.prq + 64 + 32 * rid) (requestBytes rid who acc gpa va why lvl)
      let s := s.physPut p.prq 8 (prod + 1)
      let s := s.count who.core 9 1
      .wait (s.modPart pn fun p =>
        { p with reqs := p.reqs ++ [{ rid := rid, gran := g, wr := acc.isWrite, waiters := [w] }] })

/-- The TLB entry that serves an access of a core, if one does (R333). -/
def State.tlbHit (s : State) (core ctx va : Nat) (acc : Acc) : Option TlbEntry :=
  if core ≥ 4112 ∨ (s.queueAt ctx va).isSome then none else
  match (s.coreAt core).tlb.find? fun e => e.serves ctx va acc with
  | some e => some e
  | none => (s.l2tlb.get [] (dieOf core)).find? fun e => e.serves ctx va acc

/-- An access whose page request has no reply yet waits for it and is not walked again (R336, R337). -/
def Partition.asked (p : Partition) (w : Waiter) : Bool := p.reqs.any fun r => r.waiters.any fun q => q.who = w
/-- Translates one address (R331 to R337): by the TLBs, else by a walk that fills them. An access waits for the reply to its
page request, and a fail reply makes its fault. -/
def State.translate (s : State) (who : Who) (va : Nat) (acc : Acc) : Access Xl :=
  let p := s.part (who.ctx / 16)
  match p.fails.find? fun f => f.who = who.w with
  | some f => .fault (s.modPart (who.ctx / 16) fun p => { p with fails := p.fails.filter fun f => f.who ≠ who.w }) f.va f.info
  | none =>
    if p.asked who.w then .wait s
    else
      match s.tlbHit who.core who.ctx va acc with
      | some e => .ok s (s.twinned (e.apply va) (who.eng && acc.isWrite))
      | none =>
        let s := (s.count who.core 8 1).grants who.ctx va
        match s.walk who.ctx va acc with
        | .ok x => .ok (s.fillTlb who.core x.ent) (s.twinned x (who.eng && acc.isWrite))
        | .s1 lvl k3 => .fault s va (faultInfo acc false lvl k3)
        | .s2k lvl => .fault s va (faultInfo acc true lvl true)
        | .s2 gpa lvl why => s.pageFault who va acc gpa lvl why

/-- Pieces of a range of global virtual addresses, one per 32 KiB granule (R210). -/
def granulePieces : Nat → Nat → Nat → List (Nat × Nat)
  | 0, _, _ => []
  | fuel + 1, a, n =>
    if n = 0 then []
    else
      let k := min n (32768 - a % 32768)
      (a, k) :: granulePieces fuel (a + k) (n - k)

/-- Translates pieces in order. -/
def State.translateList (s : State) (who : Who) (acc : Acc) : List (Nat × Nat) → Access (List Piece)
  | [] => .ok s []
  | (a, n) :: l =>
    (s.translate who a acc).bind fun s x =>
      (s.translateList who acc l).bind fun s ps =>
        .ok s ({ hpa := x.hpa, len := n, kind := x.kind, gpa := x.gpa } :: ps)

/-- Translates a range. -/
def State.translateRange (s : State) (who : Who) (va n : Nat) (acc : Acc) : Access (List Piece) :=
  s.translateList who acc (granulePieces (n / 32768 + 2) va n)

/-- Bytes of pieces. -/
def State.readPieces (s : State) (ps : List Piece) : List Byte := ps.flatMap fun p => s.physRead p.hpa p.len
/-- A piece reads poison (R382). -/
def State.piecesPoison (s : State) (ps : List Piece) : Bool := ps.any fun p => s.physPoison p.hpa p.len

/-- The step at the log word that sets a granule's dirty bit (R341). -/
def State.logDirty (s : State) (part g : Nat) : State :=
  let a := (s.part part).dlog + 8 * (g / 64)
  if (s.part part).dlog = 0 then s else s.physPut a 8 (s.physNat a 8 ||| 2 ^ (g % 64))
/-- A translated write has been performed: the step at the log word follows, at once when no other step is scheduled (R341;
log 1). -/
def State.dirty (s : State) (part gpa : Nat) : State :=
  let p := s.part part
  if p.dlog = 0 ∨ gpa ≥ p.dspan then s
  else if s.agenda = [] then s.logDirty part (gpa / 32768)
  else { s with dirties := s.dirties ++ [(part, gpa / 32768)] }

/-- Writes pieces; their dirty bits follow. -/
def State.writePieces (s : State) (part : Nat) : List Piece → List Byte → State
  | [], _ => s
  | p :: ps, bs =>
    let s := s.physWrite p.hpa (bs.take p.len)
    (s.dirty part p.gpa).writePieces part ps (bs.drop p.len)

/-- Reads a range in a context. -/
def State.readVa (s : State) (who : Who) (va n : Nat) (acc : Acc := .read) : Access (List Byte) :=
  (s.translateRange who va n acc).bind fun s ps => .ok s (s.readPieces ps)
/-- Writes a range in a context. -/
def State.writeVa (s : State) (who : Who) (va : Nat) (bs : List Byte) : Access Unit :=
  (s.translateRange who va bs.length .write).bind fun s ps => .ok (s.writePieces (who.ctx / 16) ps bs) ()

/-- Waiters that a test picks wait no more (R337): their requests stay filed, and the replies reach them no longer. -/
def State.dropWaiters (s : State) (part : Nat) (gone : Waiter → Bool) : State :=
  if (s.part part).reqs = [] ∧ (s.part part).fails = [] then s
  else s.modPart part fun p =>
    { p with reqs := p.reqs.map fun r => { r with waiters := r.waiters.filter fun q => !gone q.who }
             fails := p.fails.filter fun f => !gone f.who }
/-- A waiter waits no more. -/
def State.dropWaiter (s : State) (part : Nat) (w : Waiter) : State := s.dropWaiters part (· = w)

/-! The code-page scanner. -/

/-- Parses a granule from a word on (R58): the boundary map so far, or the rejection. `n` bounds the words left. -/
def scanFrom (m : Memory) (base : Nat) : Nat → Nat → Nat → ScanRecord
  | 0, _, map => .passed map
  | fuel + 1, i, map =>
    if i ≥ 8192 then .passed map
    else
      let ws := (List.range (min 5 (8192 - i))).map fun j => m.readNat (base + 4 * (i + j)) 4
      match decodeWords ws with
      | .error code => .rejected (4 * i) code
      | .ok (_, n) => scanFrom m base fuel (i + n) (map + 2 ^ i)

/-- Scans the granule of a host-physical address (R57, R58). -/
def State.scan (s : State) (g : Nat) : ScanRecord :=
  scanFrom (s.mem.within (32768 * g) 32768) (32768 * g) 8192 0 0

/-- How the entry into a granule is judged: legal, or a fetch fault with its fields (R59, R357). -/
inductive Entry where
  | ok
  | bad (addr info0 info1 : Nat)
  deriving DecidableEq, Repr

/-- Judges an entry at a host-physical address that `va` names, by the granule's scan record (R59). -/
def ScanRecord.judge (r : ScanRecord) (va hpa : Nat) : Entry :=
  match r with
  | .passed map => if map.testBit (hpa % 32768 / 4) then .ok else .bad va (hpa % 32768) 0
  | .rejected off code => .bad (va - va % 32768) off code

/-- The scan record of a granule, scanning it when it has none (R57, R59). -/
def State.scanned (s : State) (g : Nat) : State × ScanRecord :=
  match s.scans.find? g with
  | some r => (s, r)
  | none => let r := s.scan g; ({ s with scans := s.scans.put g r }, r)

/-- What a fetch finds. -/
inductive Fetch where
  | ok (s : State) (hpa : Nat)
  | fault (s : State) (cause addr info0 info1 : Nat)
  | wait (s : State)

/-- The entry of the stream at an address: word-aligned, below 2^57, translated with execute permission, and the start of
an instruction of a scanned granule (R59, R61, R72). -/
def State.enter (s : State) (a : Word) : Fetch :=
  if a.toNat % 4 ≠ 0 ∨ a.toNat / 2 ^ 57 ≠ 0 then .fault s 0x07 a.toNat (a.toNat % 32768) 0
  else
    match s.translate s.me a.toNat .fetch with
    | .wait s => .wait s
    | .fault s v i => .fault s 0x08 v i 0
    | .ok s x =>
      let (s, r) := s.scanned (x.hpa / 32768)
      match r.judge a.toNat x.hpa with
      | .ok => .ok s x.hpa
      | .bad ad i0 i1 => .fault s 0x07 ad i0 i1

/-- The number of instructions that start in a range of virtual addresses, by the boundary maps of its granules; a
granule that has no map counts as one instruction a word. -/
def State.bodyCount (s : State) (ctx a n : Nat) : Nat :=
  ((granulePieces (n / 32768 + 2) a n).map fun q =>
    let m := match s.walk ctx q.1 .fetch with
      | .ok x => (match s.scans.find? ((s.twinned x false).hpa / 32768) with | some (.passed m) => some m | _ => none)
      | _ => none
    match m with
    | none => q.2 / 4
    | some m => ((List.range (q.2 / 4)).filter fun i => m.testBit (q.1 % 32768 / 4 + i)).length).sum

/-- The loop buffer can hold a body: at most 256 instructions, of one to five words each (R80). -/
def State.holds (s : State) (q : LoopLevel) : Bool :=
  q.bytes ≤ 1024 || (q.bytes ≤ 5120 && s.bodyCount s.core.ctx q.start.toNat q.bytes ≤ 256)

end Sys2Proof.Machine
end

