-- ==== Sys2Proof/Machine/Rings.lean ====
section
/-! DEFINITION. Trap records and the ring writer (21_traps.md R356 to R360). -/

namespace Sys2Proof.Machine

/-- A trap record before it gets its number (R356). -/
structure TrapRec where
  cause  : Nat
  sync   : Bool := false
  nested : Bool := false
  chain  : Bool := false
  ctx    : Nat
  core   : Nat := 0xFFFF
  pos    : Nat := 0
  launch : Nat := 0
  sqn    : Nat := 0
  pc     : Nat := 0
  addr   : Nat := 0
  info0  : Nat := 0
  info1  : Nat := 0
  deriving DecidableEq, Repr

/-- `tflags` (R356). -/
def TrapRec.tflags (r : TrapRec) (lost : Bool) : Nat :=
  r.sync.toNat + 2 * r.nested.toNat + 4 * r.chain.toNat + 8 * lost.toNat

/-- The 64 bytes of a record, its number and `lost` left to the ring writer (R356). -/
def TrapRec.bytes (r : TrapRec) (now : Nat) : List Byte :=
  leBytes 2 r.cause ++ leBytes 1 (r.tflags false) ++ leBytes 1 (r.ctx % 16) ++ leBytes 2 r.core ++ leBytes 2 r.pos ++
    leBytes 4 r.launch ++ leBytes 4 r.sqn ++ leBytes 8 r.pc ++ leBytes 8 now ++ leBytes 8 r.addr ++
    leBytes 8 r.info0 ++ leBytes 8 r.info1 ++ leBytes 8 0

/-- A record's bytes with `lost` and the record number put in. -/
def recordNumbered (bs : List Byte) (lost : Bool) (rno : Nat) : List Byte :=
  let f := (bs.getD 2 0).toNat
  (bs.take 2 ++ leBytes 1 (f + 8 * lost.toNat) ++ (bs.drop 3).take 53) ++ leBytes 8 rno

/-- `%chain` of a core (R55). -/
def Core.chainWord (c : Core) : Nat :=
  c.chain.r + 2 ^ 8 * c.chain.c + 2 ^ 16 * (c.chain.rows - 1) + 2 ^ 24 * (c.chain.cols - 1) +
    2 ^ 32 * c.chain.number.toNat

/-- `%core` of a core (R55). A supervisor core, which is outside the mesh, reads as the core of row 0 and its die's column (log 63). -/
def coreWord (n : Nat) : Nat := colOf n + 2 ^ 8 * rowOf n + 2 ^ 16 * dieOf n

/-- `pos` of a core (R356). -/
def Core.pos (c : Core) : Nat := c.chain.r + 2 ^ 8 * c.chain.c

/-! Ranges of host-physical memory in pieces: where each lies, and how many bytes it has. -/

/-- The bytes of pieces. -/
def State.placesRead (s : State) (ps : List (Nat × Nat)) : List Byte := ps.flatMap fun q => s.physRead q.1 q.2
/-- Bytes go into pieces, one after another. -/
def State.placesWrite (s : State) : List (Nat × Nat) → List Byte → State
  | [], _ => s
  | q :: ps, bs => (s.physWrite q.1 (bs.take q.2)).placesWrite ps (bs.drop q.2)
/-- A number in pieces. -/
def State.placesNat (s : State) (ps : List (Nat × Nat)) : Nat := leNat (s.placesRead ps)
/-- `n` bytes of pieces from byte `off` on. -/
def cutPlaces : List (Nat × Nat) → Nat → Nat → List (Nat × Nat)
  | [], _, _ => []
  | q :: ps, off, n =>
    if n = 0 then []
    else if off ≥ q.2 then cutPlaces ps (off - q.2) n
    else (q.1 + off, min n (q.2 - off)) :: cutPlaces ps 0 (n - min n (q.2 - off))

/-- A range of a context's ring, translated without a page request: a record whose write faults is dropped (R360). No rule aligns a ring
(R351, R359), so a range may meet two pages. -/
def State.ringAt (s : State) (ctx va n : Nat) (acc : Acc) : Option (List (Nat × Nat)) :=
  (granulePieces (n / 32768 + 2) va n).foldr (fun q l => match s.walk ctx q.1 acc, l with
    | .ok x, some l => some (((s.twinned x false).hpa, q.2) :: l)
    | _, _ => none) (some [])

/-- How a record meets its ring. -/
inductive RingOut where
  | wrote (s : State) (rno : Nat)
  | full (s : State)
  | fault (s : State)

/-- Writes a record at the producer index and advances it, or finds the ring full (R360): `cons` above `prod`, or below
the last value read, counts as full. -/
def State.ringPut (s : State) (ctx : Nat) (bs : List Byte) : RingOut :=
  let c := s.context ctx
  let size := 2 ^ c.tlg
  match s.ringAt ctx c.tring 40 .write with
  | none => .fault s
  | some h =>
    let prod := s.placesNat (cutPlaces h 0 8)
    let cons := s.placesNat (cutPlaces h 8 8)
    let s := if cons ≤ prod ∧ c.cons ≤ cons then s.modCtx ctx fun c => { c with cons := cons } else s
    if cons > prod ∨ cons < c.cons ∨ prod - cons ≥ size then .full s
    else
      match s.ringAt ctx (c.tring + 64 + 64 * (prod % size)) 64 .write with
      | none => .fault s
      | some a =>
        let s := s.placesWrite a (recordNumbered bs c.lostp prod)
        let s := s.placesWrite (cutPlaces h 0 8) (leBytes 8 ((prod + 1) % 2 ^ 64))
        .wrote (s.modCtx ctx fun c => { c with lostp := false }) prod

/-- A record is dropped: `lostc` counts it, the next record carries `lost`; a drop for a fault enters the tephra record
(R360). -/
def State.ringLose (s : State) (ctx core : Nat) (faulted : Bool) : State :=
  let c := s.context ctx
  let s := match s.ringAt ctx (c.tring + 16) 8 .write with
    | none => s
    | some h => let n := s.placesNat h; s.placesWrite h (leBytes 8 (if n = 2 ^ 64 - 1 then n else n + 1))
  let s := s.modCtx ctx fun c => { c with lostp := true }
  if faulted then s.event (dieOf core) 0x0E (ctx / 16) core (some c.tring) none else s

/-- `%trap` (R363). -/
def trapWord (rno flags cause : Nat) : Word := BitVec.ofNat 64 (rno % 2 ^ 32 * 2 ^ 32 + flags * 2 ^ 16 + cause)
/-- `%trap` as a record gives it. -/
def WaitRec.word (r : WaitRec) (lost : Bool) (rno : Nat) : Word :=
  trapWord rno ((r.bytes.getD 2 0).toNat + 8 * lost.toNat) (leNat (r.bytes.take 2))
/-- The core whose chain stop waits for a record gets its `%trap`. -/
def State.answerRec (s : State) (r : WaitRec) (w : Word) : State :=
  match r.who with
  | none => s
  | some n => s.modCore n fun c => { c with raised := c.raised.map fun (q : Raised) => { q with word := some w } }

/-- The chain stop that a record belongs to is saved: the record is written after the resumption (R377). -/
def State.recHeld (s : State) (r : WaitRec) : Bool := match r.who with | some n => (s.coreAt n).role = .saved | none => false
/-- Writes the records that wait, oldest first, while slots are free (R360). A record whose write faults is dropped, and a
chain stop that waits for it goes on with number 0 (log 30). -/
def State.ringFlush (s : State) (ctx : Nat) : Nat → State
  | 0 => s
  | k + 1 =>
    match (s.context ctx).wrecs.find? fun r => !s.recHeld r with
    | none => s
    | some r =>
      let l := (s.context ctx).wrecs.erase r
      let lost := (s.context ctx).lostp
      match s.ringPut ctx r.bytes with
      | .wrote s rno => ((s.answerRec r (r.word lost rno)).modCtx ctx fun c => { c with wrecs := l }).ringFlush ctx k
      | .full s => s
      | .fault s =>
        (((s.ringLose ctx (r.who.getD 0xFFFF) true).answerRec r (r.word lost 0)).modCtx ctx fun c =>
          { c with wrecs := l }).ringFlush ctx k

/-- Records that reach the ring writer of a context, in the order in which it takes them: each joins those that wait, and
what finds a slot is written (R355, R360). With each goes the core whose chain stop it belongs to. -/
def State.post (s : State) (ctx : Nat) (rs : List (TrapRec × Option Nat)) : State :=
  let s := s.modCtx ctx fun c => { c with wrecs := c.wrecs ++ rs.map fun r => { bytes := r.1.bytes s.now, at_ := s.now, who := r.2 } }
  s.ringFlush ctx (s.context ctx).wrecs.length
/-- A record that no chain stop waits for (R355, R360). -/
def State.note (s : State) (r : TrapRec) : State := s.post r.ctx [(r, none)]

/-- The handler's entry address, and `brkhalt` (R359): zero when the ring cannot be read. -/
def State.handler (s : State) (ctx : Nat) : Nat × Bool :=
  match s.ringAt ctx ((s.context ctx).tring + 24) 9 .read with
  | none => (0, false)
  | some h => (s.placesNat (cutPlaces h 0 8), s.placesNat (cutPlaces h 8 1) % 2 = 1)

/-- A record about a core's command (R355): raised by an engine or unit, carrying the command's number. -/
def Core.cmdRec (c : Core) (cause : Nat) (seq : BitVec 32) (addr info0 info1 : Nat) : TrapRec :=
  { cause := cause, ctx := c.ctx, core := c.id, pos := c.pos, launch := c.launch.toNat, sqn := seq.toNat, addr := addr
    info0 := info0, info1 := info1 }

end Sys2Proof.Machine
end

