-- ==== Sys2Proof/Machine/Stores.lean ====
section
/-! DEFINITION. Stores between their issue and the memory: the levels at which agents see them, what must reach a level
first, and what a read finds (10_memory_model.md R203 to R220, R224; 11_memory_isa.md R228, R232). A held store has a level:
0, its core alone sees it; 1, its cluster does; 2, its die; at the last level it is in place and held no more (log 9). -/

/-- The level of a scope (R203). Host memory is reached as the module's is (log 9). -/
def Sys2Proof.Scope.lvl : Sys2Proof.Scope → Nat
  | .core => 0 | .cl => 1 | .die => 2 | .mod | .sys => 3

namespace Sys2Proof.Machine

/-! Levels. -/

/-- The scope of two cores (R203), as a level. -/
def scopeOf (a b : Nat) : Nat :=
  if a = b then 0 else if a < 4096 ∧ b < 4096 ∧ clusterOf a = clusterOf b then 1 else if dieOf a = dieOf b then 2 else 3

/-- Where held stores to the cluster-shared windows stand: past every host-physical address. -/
def heldBase : Nat := 2 ^ 58
/-- The place of a byte of a cluster's window among held stores. -/
def heldAddr (cluster off : Nat) : Nat := heldBase + cluster * 2 ^ 21 + off

/-- The level at which a store is in place: a cluster-shared window is reached from its cluster alone (R203). -/
def NetStore.top (t : NetStore) : Nat := if heldBase ≤ t.hpa then 1 else 3
/-- The level that a store reaches when it has to reach `l` at least: an SO store is seen by every agent at once (R207). -/
def NetStore.cap (t : NetStore) (l : Nat) : Nat := if l ≤ t.lvl then t.lvl else if t.kind = 0 then 3 else min l t.top
/-- A core sees a held store: its own, or one that has reached their scope. -/
def NetStore.shows (t : NetStore) (core : Nat) : Bool := t.core = core || decide (scopeOf t.core core ≤ t.lvl)

/-- Two ranges touch the same bytes. -/
def overlap (a n b m : Nat) : Bool := a < b + m && b < a + n
/-- Two ranges touch the same 16-byte granule. -/
def sameGranule (a n b m : Nat) : Bool := a / 16 * 16 < b + m && b / 16 * 16 < a + n
/-- The bits that a store writes of a byte. -/
def NetStore.bits (t : NetStore) (a : Nat) : Byte :=
  if t.hpa ≤ a ∧ a < t.hpa + t.data.length then t.mask.getD (a - t.hpa) 0xFF else 0
/-- A store writes bytes of a range. -/
def NetStore.touches (t : NetStore) (a n : Nat) : Bool :=
  overlap t.hpa t.data.length a n && (t.mask = [] || (List.range n).any fun i => t.bits (a + i) != 0)
/-- A store touches a granule of a range. -/
def NetStore.near (t : NetStore) (a n : Nat) : Bool := sameGranule t.hpa t.data.length a n

/-- The level that an earlier store `u` must have reached when `t` reaches `l`: with the same core and granule (R224), or both
SO (R207), the same; what others saw before at the same place goes to memory first (R220); and a release takes with it, up to
its scope, the SO and RC stores that its core has made or observed (R208 to R212). -/
def NetStore.least (u t : NetStore) (l : Nat) : Nat :=
  let near := u.near t.hpa t.data.length
  let own := if u.core = t.core ∧ (near ∨ (u.kind = 0 ∧ t.kind = 0)) then l else 0
  let seen := if near ∧ 1 ≤ u.lvl ∧ t.top ≤ l then u.top else 0
  let rel := match t.rel with
    | some r => if u.kind ≠ 2 ∧ (u.core = t.core ∨ u.seen.contains t.core) then min l r.lvl else 0
    | none => 0
  max own (max seen rel)

/-- Puts a store before later ones, whose levels are decided: its own is what is asked of it and what they need. -/
def decideLevel (q : NetStore × Nat) (later : List (NetStore × Nat)) : List (NetStore × Nat) :=
  let l := later.foldl (fun l r => if r.1.lvl < r.2 then max l (q.1.least r.1 r.2) else l) q.2
  (q.1, q.1.cap l) :: later
/-- The levels that the held stores reach when `want` asks them to. -/
def levels (want : NetStore → Nat → Nat) (ts : List NetStore) : List (NetStore × Nat) :=
  (ts.zipIdx.map fun q => (q.1, want q.1 q.2)).foldr decideLevel []

/-! Performing. -/

/-- A byte with the bits that a mask selects replaced. -/
def blend (m old new : Byte) : Byte := (old &&& ~~~m) ||| (new &&& m)
/-- Bytes from an address on as a store leaves them. A store without a mask writes whole bytes. -/
def NetStore.over (t : NetStore) (a : Nat) (bs : List Byte) : List Byte :=
  bs.mapIdx fun i b =>
    let j := a + i - t.hpa
    if t.hpa ≤ a + i ∧ j < t.data.length then blend (t.mask.getD j 0xFF) b (t.data.getD j 0) else b

/-- The words that a store writes whole, standing at `a`. -/
def NetStore.words (t : NetStore) (a : Nat) : List Nat :=
  (wholeWords a t.data.length).filter fun d => t.mask = [] || (List.range 8).all fun i => t.mask.getD (8 * d + i - a) 0xFF = 0xFF
/-- A store is in place: in memory, with its dirty bit (R341), or in a cluster-shared window. A word that it writes in part stays
poisoned (R382). -/
def State.perform (s : State) (t : NetStore) : State :=
  if heldBase ≤ t.hpa then
    let o := (t.hpa - heldBase) % 2 ^ 21
    s.modCluster ((t.hpa - heldBase) / 2 ^ 21) fun k =>
      { k with window := k.window.write o (if t.mask = [] then t.data else t.over t.hpa (k.window.read o t.data.length))
               wpois := k.wpois.filter fun d => !(t.words o).contains d }
  else if t.mask = [] then (s.physWrite t.hpa t.data).dirty t.part t.gpa
  else
    let keep := s.mpois.filter fun d => (wholeWords t.hpa t.data.length).contains d && !(t.words t.hpa).contains d
    let s := s.physWrite t.hpa (t.over t.hpa (s.physRead t.hpa t.data.length))
    { s with mpois := keep.foldl setAdd s.mpois }.dirty t.part t.gpa

/-! The granules of an access (R210). -/

/-- A store as its granules. -/
def NetStore.split (t : NetStore) : List NetStore :=
  (granules t.hpa t.data.length).map fun g =>
    let a := max t.hpa (16 * g)
    let n := min (t.hpa + t.data.length) (16 * g + 16) - a
    { t with hpa := a, gpa := t.gpa + (a - t.hpa), data := (t.data.drop (a - t.hpa)).take n
             mask := (t.mask.drop (a - t.hpa)).take n }
/-- A store of the whole granule with the bits of an earlier and of a later store to it. -/
def NetStore.join (u t : NetStore) : NetStore :=
  let g := u.hpa / 16 * 16
  let m := (List.range 16).map fun i => u.bits (g + i) ||| t.bits (g + i)
  { u with hpa := g, gpa := u.gpa / 16 * 16, data := t.over g (u.over g (List.replicate 16 0)), mask := m }
/-- Two parts of one access lie in one granule of one page. -/
def NetStore.mate (u t : NetStore) : Bool := u.hpa / 16 = t.hpa / 16 && u.gpa / 16 = t.gpa / 16 && u.kind = t.kind
/-- The stores that the parts of one access make: one a granule, in which a later part stands. -/
def mergeStores (ts : List NetStore) : List NetStore :=
  (ts.flatMap NetStore.split).foldl (fun l t =>
    if l.any fun u => u.mate t then l.map fun u => if u.mate t then u.join t else u else l ++ [t]) []

/-- Brings the held stores to the levels asked for, with what must go before them. Those that every agent sees are performed,
and of the others those that some other agent sees stand first. -/
def State.bring (s : State) (want : NetStore → Nat → Nat) : State :=
  if s.stores = [] then s
  else
    let ls := levels want s.stores
    let rest := (ls.filter fun q => q.2 < q.1.top).map fun q => { q.1 with lvl := q.2 }
    (ls.filter fun q => q.1.top ≤ q.2).foldl (fun s q => s.perform q.1)
      { s with stores := (rest.filter fun t => 1 ≤ t.lvl) ++ rest.filter fun t => t.lvl = 0 }

/-- Performs every store of a core. -/
def State.fence (s : State) (core : Nat) : State := s.bring fun t _ => if t.core = core then 3 else 0
/-- A release (R212): the SO and RC stores that the core has made or observed reach a level. -/
def State.release (s : State) (core lvl : Nat) : State :=
  s.bring fun t _ => if t.kind ≠ 2 ∧ (t.core = core ∨ t.seen.contains core) then lvl else 0
/-- A full fence (R212): every store that the core has made or observed reaches a level. -/
def State.fullFence (s : State) (core lvl : Nat) : State :=
  s.bring fun t _ => if t.core = core ∨ t.seen.contains core then lvl else 0

/-- The `i`-th held store can reach a level with no other moving before it. -/
def State.mayPerform (s : State) (i lvl : Nat) : Bool :=
  (levels (fun _ j => if j = i then lvl else 0) s.stores).zipIdx.all fun q => q.2 = i || q.1.2 = q.1.1.lvl

/-- Stores go to the network, which puts them in place at once when no other step is scheduled (R228; log 1, log 9). -/
def State.hand (s : State) (ts : List NetStore) : State :=
  let n := s.stores.length
  let t : State := { s with stores := s.stores ++ ts }
  if s.agenda = [] then t.bring fun _ i => if n ≤ i then 3 else 0 else t

/-! What accesses find. -/

/-- What an access at the unit that holds an address keeps before itself: the stores to its granules that its core sees, and
for an SO access of the core its own SO stores (R207, R216, R220, R224). -/
def State.before (s : State) (core : Nat) (p : Piece) : State :=
  s.bring fun t _ => if t.shows core ∧ t.near p.hpa p.len ∨ (p.kind = 0 ∧ t.core = core ∧ t.kind = 0) then 3 else 0
/-- What a write of a core's engine keeps before itself (R216). -/
def State.beforeEngine (s : State) (core : Nat) (p : Piece) : State :=
  s.bring fun t _ => if t.shows core ∧ t.near p.hpa p.len then 3 else 0
/-- What a load keeps before itself: the core's own stores to its granules, which the network delivers in issue order (R224); for an
SO page the core's own SO stores; stores to a place that reads poison, which they may clear (R207, R382). The copy engine is another
agent, which reads no SO store before it is performed (R203, R207). -/
def State.beforeLoad (s : State) (eng : Bool) (core : Nat) (p : Piece) (bad : Bool) : State :=
  if s.stores = [] then s
  else
    s.bring fun t _ =>
      if t.core = core ∧ (if eng then t.kind = 0 ∧ t.near p.hpa p.len else t.near p.hpa p.len ∨ (t.kind = 0 ∧ p.kind = 0)) then 3
      else if bad ∧ t.shows core ∧ t.touches p.hpa p.len then 3 else 0
/-- The number under which a die's pooled engines see held stores: an agent of the die and no core (R203). -/
def dieAgent (die : Nat) : Nat := 8192 + die

/-- Bytes from an address on, as a core sees them over what is in place (R204, R216). -/
def State.seenOver (s : State) (core a : Nat) (bs : List Byte) : List Byte :=
  (s.stores.filter fun t => t.shows core).foldl (fun bs t => t.over a bs) bs
/-- The core has observed the stores of others that it reads (R204, R212). -/
def State.observe (s : State) (core a n : Nat) : State :=
  if s.stores = [] then s
  else { s with stores := s.stores.map fun t =>
    if t.core ≠ core ∧ t.shows core ∧ t.touches a n then { t with seen := setAdd t.seen core } else t }

end Sys2Proof.Machine
end

