-- ==== Sys2Proof/Machine/Ending.lean ====
section
/-! DEFINITION. How things end: shares and windows, stamps, barriers, join blocks, validity maps, tasks, launches, and a
core stopped by a kill (01_machine.md R21; 11_memory_isa.md R233, R236, R251; 14_scheduling.md R281 to R284, R292, R404;
15_deadlines.md R303). -/

namespace Sys2Proof.Machine

/-! Shares and the cluster-shared window (R21). -/

/-- Bytes of a cluster's pooled SRAM. -/
def poolBytes : Nat := 1572864

/-- The shares allocated in a cluster, by launch and size, those kept aside among them. -/
def State.sharesOf (s : State) (cl : Nat) : List (Nat × Nat) :=
  (((List.range 8).map fun i => s.coreAt (8 * cl + i)).filter fun c => c.shareSize > 0).map
    (fun c => (c.launch.toNat, c.shareSize)) ++
  s.launches.flatMap fun e => (e.2.stash.filter fun k => clusterOf k.core = cl).map fun k => (e.1, k.size)

/-- The launch that reaches a cluster's window, and the window's size: every allocated share must be of that launch. -/
def State.windowOf (s : State) (cl : Nat) : Nat × Nat :=
  match s.sharesOf cl with
  | [] => (0, 0)
  | e :: l => if l.all fun f => f.1 = e.1 then (e.1, poolBytes - ((e :: l).map Prod.snd).sum) else (0, 0)

/-- Brings the window of a cluster up to date after shares have changed: zero-filled when a launch comes to reach it, and
the bytes it gains zeroed (R21, R339). -/
def State.syncWindow (s : State) (cl : Nat) : State :=
  let (l, n) := s.windowOf cl
  s.modCluster cl fun k =>
    if l ≠ k.reach ∨ l = 0 then { k with window := [], wpois := [], reach := l, wsize := n }
    else if k.wsize < n then
      { k with window := k.window.zero k.wsize (n - k.wsize), wpois := k.wpois.filter fun d => 8 * d + 8 ≤ k.wsize || n ≤ 8 * d
               wsize := n }
    else { k with wsize := n }

/-! Stamps (R236). -/

/-- A stamp's word (R236). -/
def stampWord (status count seq : Nat) : Nat := status * 2 ^ 56 + min count (2 ^ 24 - 1) * 2 ^ 32 + seq

/-- Writes a stamp into a share and sets its granule's full bit (R236). -/
def Core.stamp (c : Core) (off status count seq : Nat) : Core :=
  (c.shareStore off (leBytes 8 (stampWord status count seq))).setFull off 8

/-! Barriers (R233, R234). -/

/-- The index of a core's domain at a level (R17): its chain by leader, its cluster, its die region, its die, its
partition. -/
def Core.domIndex (c : Core) (level : Nat) : Nat :=
  if level = 0 then c.chain.leader else if level = 1 then clusterOf c.id else if level = 2 then dieOf c.id * 4 + rowOf c.id / 2
  else if level = 3 then dieOf c.id else 0

/-- The cores that run a task of a launch. -/
def Launch.running (l : Launch) : List Nat := l.run.flatMap RunTask.left

/-- The cores of a launch in a domain (R17). -/
def State.domain (s : State) (l : Launch) (level dom : Nat) : List Nat :=
  l.running.filter fun n => (s.coreAt n).domIndex level = dom

/-- The highest of a core's own priority and what it inherits from generations it has not arrived at (R292). -/
def State.effPri (s : State) : Nat → Core → Nat
  | 0, c => c.priEff.toNat
  | k + 1, c =>
    match s.launches.find? c.launch.toNat with
    | none => c.priEff.toNat
    | some l =>
      (l.bars.filter fun b => b.active && b.members.contains c.id && !b.here.contains c.id).foldl
        (fun m b => b.here.foldl (fun m n => max m (s.effPri k (s.coreAt n))) m) c.priEff.toNat

/-- The newest version of a table whose publication had finished before the present cycle (R310). -/
def RTable.settled (t : RTable) (now : Nat) : Nat := if t.pubAt = now ∧ t.before ≠ 0 then t.before else t.cur
/-- Versions adopted by a domain level at the completion of one of its generations (R310). -/
def State.adopt (s : State) (l : Launch) (level : Nat) : Launch :=
  s.tables.foldl (fun l e =>
    if e.1 / 64 = l.part then { l with adopt := l.adopt.put (64 * level + e.1 % 64) (e.2.settled s.now) } else l) l

/-- The generation under way ends: the counter advances, and members learn whether it aborted (R233, R298). -/
def Barrier.ends (b : Barrier) (abort : Bool) : Barrier :=
  { b with gen := b.gen + 1, members := [], here := [], active := false, aborted := abort, owed := b.here }

/-- Every member of the generation under way has arrived or ended. -/
def Barrier.full (b : Barrier) : Bool := b.active && b.members.all b.here.contains

/-- Completes the generations of a launch whose members have all arrived (R233). -/
def State.completeBars (s : State) (lid : Nat) : State :=
  s.modLaunch lid fun l =>
    let l' := (l.bars.filter Barrier.full).foldl (fun l b => s.adopt l b.level) l
    { l' with bars := l.bars.map fun b => if b.full then b.ends false else b }

/-- A core that ends its task counts as arrived at every generation still pending: none waits for it any more (R234). -/
def State.leaveBars (s : State) (lid n : Nat) : State :=
  (s.modLaunch lid fun l => { l with bars := l.bars.map fun b =>
    { b with members := b.members.filter (· ≠ n), here := b.here.filter (· ≠ n), owed := b.owed.filter (· ≠ n) } }).completeBars lid

/-- Every generation of a launch that has an arrival and has not completed aborts (R298, R301). -/
def State.abortBars (s : State) (lid : Nat) : State :=
  s.modLaunch lid fun l => { l with bars := l.bars.map fun b => if b.active then b.ends true else b }

/-! Accesses that the scheduler makes (R404). -/

/-- The scheduler acting for a launch. -/
def Launch.who (l : Launch) (lid : Nat) : Who :=
  { w := .launch lid, ctx := l.ctx, core := 0xFFFF, seq := 0, eng := false }

/-- Records a translation fault of an access that the scheduler makes (R404). -/
def State.schedFault (s : State) (l : Launch) (lid va info : Nat) : State :=
  s.note { cause := 0x08, ctx := l.ctx, launch := lid, addr := va, info0 := info }

/-- The records that stand in a launch's task queue: those of ready and of running tasks (R282). -/
def Launch.records (l : Launch) : List TaskRec := l.ready ++ l.run.map RunTask.task
/-- The first place of the queue from its tail on that no record holds. -/
def Launch.freePlace (l : Launch) : Nat :=
  (((List.range (l.records.length + 1)).map fun k => (l.order + k) % 65536).find? fun p =>
    !l.records.any fun t => t.slot = p).getD 0
/-- A task enters a launch's task queue (R282, R284). -/
def Launch.enter (l : Launch) (t : TaskRec) (now : Nat) : Launch :=
  { l with ready := l.ready ++ [{ t with order := l.order, slot := l.freePlace, since := now }]
           order := l.order + 1, outst := l.outst + 1 }
/-- The record of a task (R282). -/
def TaskRec.bytes (t : TaskRec) (lid : Nat) : List Byte :=
  leBytes 8 t.code ++ leBytes 8 t.frame.toNat ++ leBytes 8 t.join ++
    leBytes 8 (lid % 2 ^ 32 * 2 ^ 32 + t.est % 2 ^ 24 * 256 + t.tpri % 8 * 4 + 2 * t.own.toNat + t.rst.toNat)
/-- The global virtual address of that record in its launch's queue, which `%task` holds (R282, R54). -/
def TaskRec.va (t : TaskRec) (l : Launch) : Word := BitVec.ofNat 64 (l.qva + 32 * t.slot)
/-- Counts an instance on to a value, with tokens or with anti-tokens. -/
def State.countTo (s : State) (k : NetKey) (n : Nat) : State :=
  match s.net k with
  | none => s
  | some q =>
    let m := q.total.toNat
    (List.replicate (max m n - min m n) ()).foldl (fun s _ => (s.count1 k (4096 + q.home) (n < m)).1) s
/-- The instances of a launch's task queue: bitonic, width 2, on the die that took the launch (R257; log 60). -/
def queueNet (l : Launch) : Net := Net.new 1 false false l.die 0 0 0 l.part l.ctx
/-- Creates the head and the tail of a launch's task queue. -/
def State.makeQueue (s : State) (l : Launch) (lid : Nat) : State :=
  (s.addNet (.queue lid false) (queueNet l)).addNet (.queue lid true) (queueNet l)
/-- They go with the launch. -/
def State.endQueue (s : State) (lid : Nat) : State := (s.endNet (.queue lid false)).endNet (.queue lid true)
/-- The tail of a launch's task queue counts the records that have entered it, its head those that have left it to run or
ended (R257, R282; log 60). -/
def State.syncQueue (s : State) (lid : Nat) : State :=
  match s.launches.find? lid with
  | none => s
  | some l => (s.countTo (.queue lid true) l.order).countTo (.queue lid false) (l.order - l.ready.length)
/-- The records of the tasks that have entered the queue since the last time are written into its memory (R282). -/
def State.fileTasks (s : State) (lid : Nat) : State :=
  match s.launches.find? lid with
  | none => s
  | some l =>
    let s := (l.ready.filter fun t => l.filed ≤ t.order).foldl (fun s t => s.physWrite (queueHpa lid + 32 * t.slot) (t.bytes lid)) s
    (s.modLaunch lid fun l => { l with filed := l.order }).syncQueue lid

/-- A task or continuation of the launch is discarded: counted absent, its join decremented and the outstanding count
with it; after the deadline its unit is marked (R284, R298, R303). -/
def Launch.discard (l : Launch) (t : TaskRec) (mark : Bool) : Launch :=
  let unit := if mark ∧ l.fields.vmap ≠ 0 then [match t.index with | some u => EndStep.codes u 1 true | none => .codes 0 0 true]
    else []
  { l with absent := l.absent + 1
           todo := l.todo ++ unit ++ (if t.join ≠ 0 then [EndStep.join t.join] else []) ++ [EndStep.out] }

/-- A continuation becomes a task, or is discarded when the launch takes no more (R283, R286, R298). The count that its
armed state held passes to the task. -/
def State.enqueueCont (s : State) (lid : Nat) (t : TaskRec) : State :=
  (s.modLaunch lid fun l =>
    if l.past ∨ l.exited ∨ l.killed then l.discard t false
    else { l.enter t s.now with outst := l.outst }).fileTasks lid

/-- The continuation in an entry of a launch's pending table (R283). -/
def State.takeCont (s : State) (lid ent : Nat) : State :=
  match s.launches.find? lid with
  | none => s
  | some l =>
    match l.pend.find? ent with
    | none => s
    | some p => (s.modLaunch lid fun l => { l with pend := l.pend.del ent }).enqueueCont lid p.task

/-- The decrement step at a block that the bank unit holds (R283): the word it leaves, whether it underflows, and the
entry of the continuation that it releases. -/
def joinStep (count flags : Nat) : Nat × Nat × Bool × Option Nat :=
  if count = 0 then (0, flags, true, none)
  else if count = 1 ∧ flags % 2 = 1 then (0, flags - 1, false, some (flags / 2 % 2 ^ 15))
  else (count - 1, flags, false, none)

/-- The decrement of a join block (R283): it waits for a page request, is lost in a fault (R404), or is made. `owner` is
the launch whose pending table the block's entry names. -/
def State.joinDec (s : State) (lid va owner : Nat) : Access Unit :=
  match s.launches.find? lid with
  | none => .ok s ()
  | some l =>
    match s.translateRange (l.who lid) va 16 .atomic with
    | .wait s => .wait s
    | .fault s v i => .ok (s.schedFault l lid v i) ()
    | .ok s ps =>
      match ps with
      | [p] =>
        if s.physPoison p.hpa 16 then
          .ok ((s.event (hpaDie p.hpa) 2 (l.ctx / 16) 0xFFFF (some va) none).schedFault l lid va (faultInfo .atomic false 0 false)) ()
        else
          let (c, f, under, cont) := joinStep (s.physNat p.hpa 8) (s.physNat (p.hpa + 8) 8)
          if under then .ok (s.note { cause := 0x16, ctx := l.ctx, launch := lid, addr := va }) ()
          else
            let s := s.writePieces (l.ctx / 16) [{ p with len := 16 }] (leBytes 8 c ++ leBytes 8 f)
            .ok (match cont with | none => s | some e => s.takeCont owner e) ()
      | _ => .ok s ()

/-- The launch whose pending table a block of another launch names: the parent, else a launch of the context that has a
continuation armed on the block (log 13). -/
def State.blockOwner (s : State) (l : Launch) (va : Nat) : Nat :=
  match l.parent with
  | some p => p
  | none =>
    match List.find? (fun (e : Nat × Launch) => e.2.ctx = l.ctx && e.2.pend.any fun q => q.2.block = va) s.launches with
    | some e => e.1
    | none => 0

/-- A write into a validity map by hardware, one byte at the bank unit; the record of a fault names the map's address
(R303, R404). -/
def State.mapByte (s : State) (l : Launch) (lid va : Nat) (f : Nat → Nat) : Access Unit :=
  match s.translateRange (l.who lid) va 1 .atomic with
  | .wait s => .wait s
  | .fault s _ i => .ok (s.schedFault l lid l.fields.vmap i) ()
  | .ok s ps =>
    if s.piecesPoison ps then .ok (s.schedFault l lid l.fields.vmap (faultInfo .atomic false 0 false)) ()
    else .ok (s.writePieces (l.ctx / 16) ps (leBytes 1 (f (s.physNat (ps.headD ⟨0, 0, 0, 0⟩).hpa 1)))) ()

/-- An update of a map by hardware, given its unit count; it is dropped whole when the header cannot be read (R303,
R404). -/
def State.mapUpdate (s : State) (l : Launch) (lid : Nat) (f : State → Nat → Access Unit) : Access Unit :=
  match s.translateRange (l.who lid) l.fields.vmap 4 .read with
  | .wait s => .wait s
  | .fault s v i => .ok (s.schedFault l lid v i) ()
  | .ok s ps =>
    if s.piecesPoison ps then .ok (s.schedFault l lid l.fields.vmap (faultInfo .read false 0 false)) ()
    else f s (leNat (s.readPieces ps))

/-- Offset of a unit's byte in the code plane (R303). -/
def codeOff (u : Nat) : Nat := 64 + u / 4
/-- Offset of a unit's byte in the overrun plane (R303). -/
def overOff (units u : Nat) : Nat := 64 + (units + 255) / 256 * 64 + u / 8
/-- A code byte with the code of a unit replaced. -/
def codePut (b u code : Nat) : Nat :=
  let sh := 2 ^ (2 * (u % 4))
  b - b / sh % 4 * sh + code * sh
/-- A byte with a bit set. -/
def bitSet (b i : Nat) : Nat := b ||| 2 ^ i

/-- Code 0b00 for a run of units, one after another. -/
def State.mapCodes0 (s : State) (l : Launch) (lid : Nat) : List Nat → Access Unit
  | [] => .ok s ()
  | u :: us =>
    (s.mapByte l lid (l.fields.vmap + codeOff u) (fun b => codePut b u 0)).bind fun s _ => s.mapCodes0 l lid us

/-- Code 0b00 for the units below the map's count, and with `disc` the header's `discarded` bit (R303). -/
def State.mapAbsent (s : State) (l : Launch) (lid u cnt : Nat) (disc : Bool) : Access Unit :=
  s.mapUpdate l lid fun s n =>
    (s.mapCodes0 l lid ((List.range (min cnt (n - u))).map (u + ·))).bind fun s _ =>
      if disc then s.mapByte l lid (l.fields.vmap + 4) (fun b => bitSet b 1) else .ok s ()

/-- The overrun bits of a run of units, one after another. -/
def State.mapOverBits (s : State) (l : Launch) (lid n : Nat) : List Nat → Access Unit
  | [] => .ok s ()
  | u :: us =>
    (s.mapByte l lid (l.fields.vmap + overOff n u) (fun b => bitSet b (u % 8))).bind fun s _ => s.mapOverBits l lid n us

/-- The overrun bits of the units and the header's `overrun` bit (R301, R303). -/
def State.mapOver (s : State) (l : Launch) (lid u cnt : Nat) : Access Unit :=
  s.mapUpdate l lid fun s n =>
    (s.mapOverBits l lid n ((List.range cnt).map (u + ·) |>.filter (· < n))).bind fun s _ =>
      s.mapByte l lid (l.fields.vmap + 4) (fun b => bitSet b 0)

/-- The completion stamp's word (R281). -/
def Launch.stampWord (l : Launch) : Nat :=
  let status := if l.reject ≠ 0 then 0x82 else if l.killed then 0x81 else if l.past then 0x02 else 0x01
  let code := if l.reject ≠ 0 then l.reject else if l.exited then l.code else 0
  status * 2 ^ 56 + (l.exited && l.reject = 0).toNat * 2 ^ 55 + min l.absent (2 ^ 23 - 1) * 2 ^ 32 +
    min l.ran (2 ^ 24 - 1) * 2 ^ 8 + code % 256

/-- The completion stamp (R281, R404). A failed die's memory takes none, which is an uncorrectable error of the write (R389). -/
def State.writeStamp (s : State) (l : Launch) (lid : Nat) : Access Unit :=
  if l.fields.cstamp = 0 then .ok s ()
  else
    match s.translateRange (l.who lid) l.fields.cstamp 8 .write with
    | .wait s => .wait s
    | .fault s v i => .ok (s.schedFault l lid v i) ()
    | .ok s ps =>
      if ps.any fun p => s.deadMem p.hpa then .ok (s.schedFault l lid l.fields.cstamp (faultInfo .write false 0 false)) ()
      else .ok (s.writePieces (l.ctx / 16) ps (leBytes 8 l.stampWord)) ()

/-- A launch ends when nothing is outstanding and no further task can come: its end steps are put in order (R284). -/
def State.maybeEnd (s : State) (lid : Nat) : State :=
  s.modLaunch lid fun l =>
    if l.outst = 0 ∧ l.srcEnd ∧ l.ready = [] ∧ ¬ l.ending then
      { l with ending := true
               todo := l.todo ++ [.nets, .stamp] ++ (if l.fields.pjoin ≠ 0 then [.join l.fields.pjoin] else []) ++
                 [.parent, .finish] }
    else l

/-- The slices of a launch that ends belong to no launch. -/
def State.freeQuads (s : State) (l : Launch) (lid : Nat) : State :=
  l.slicel.foldl (fun s sl => s.modCluster (sl / 4) fun k =>
    { k with quads := k.quads.mapIdx fun i q => if i = sl % 4 ∧ q.owner = lid then { q with owner := 0 } else q }) s
/-- A launch's shares are free: their cores hold none and belong to no launch (R21). -/
def State.freeShares (s : State) (l : Launch) (lid : Nat) : State :=
  let s := l.cores.foldl (fun s n => s.modCore n fun c =>
    if c.launch.toNat = lid then { c with shareSize := 0, launch := 0 } else c) s
  (l.cores.map clusterOf).eraseDups.foldl State.syncWindow s

/-- Carries out what remains to be done for a launch, until a step waits (R284, R404). -/
def State.drain : Nat → State → Nat → State
  | 0, s, _ => s
  | k + 1, s, lid =>
    match s.launches.find? lid with
    | none => s
    | some l =>
      match l.todo with
      | [] => s
      | e :: _ =>
        let done (s : State) : State := State.drain k (s.modLaunch lid fun l => { l with todo := l.todo.drop 1 }) lid
        let acc (a : Access Unit) : State := match a with
          | .ok s _ => done s
          | .wait s => s
          | .fault s _ _ => done s
        match e with
        | .join va =>
          let o := if l.ending ∧ va = l.fields.pjoin then s.blockOwner l va else lid
          acc ((s.joinDec lid va o).bind fun s _ => .ok (if o = lid then s else State.drain k s o) ())
        | .out => done ((s.modLaunch lid fun l => { l with outst := l.outst - 1 }).maybeEnd lid)
        | .nets => done (((List.finRange 4).foldl (fun s j => s.endNet (.launch lid j)) s).endQueue lid)
        | .stamp => acc (s.writeStamp l lid)
        | .parent =>
          match l.parent with
          | none => done s
          | some p => done (State.drain k ((s.modLaunch p fun l => { l with outst := l.outst - 1 }).maybeEnd p) p)
        | .finish =>
          ({ s with launches := s.launches.del lid }.freeQuads l lid).freeShares l lid
        | .codes u n disc => acc (s.mapAbsent l lid u n disc)
        | .over u n => acc (s.mapOver l lid u n)

/-- Enough for every step that any launch still has to make. -/
def State.drainFuel (s : State) : Nat := 16 + 8 * (s.launches.map fun e => e.2.todo.length + 8).sum

/-- Carries out what remains for one launch. -/
def State.settleLaunch (s : State) (lid : Nat) : State :=
  let s := (s.syncQueue lid).maybeEnd lid
  State.drain s.drainFuel s lid

/-! Sources that end early (R89, R275, R281, R297, R298, R340, R404). -/

/-- Tasks that an inline or ragged source has in all. -/
def Launch.total (l : Launch) : Nat := if l.fields.src = 0 then l.fields.chains else if l.fields.src = 2 then l.fields.count else 0
/-- The launch takes no further task: its deadline has passed, or an `EXIT` or a kill has ended it. -/
def Launch.closing (l : Launch) : Bool := l.past || l.exited || l.killed
/-- The source ends with its next `n` tasks discarded: they are counted absent, and after the deadline their units are marked
(R281, R298, R303). -/
def Launch.lose (l : Launch) (n : Nat) : Launch :=
  { l with absent := l.absent + n, next := l.next + n, srcEnd := true
           todo := l.todo ++ if n > 0 ∧ l.past ∧ l.fields.vmap ≠ 0 then [.codes l.next n true] else [] }

/-- A task ring enters its error state (R340): no further entry is taken. -/
def State.ringError (s : State) (lid : Nat) : State :=
  match s.launches.find? lid with
  | none => s
  | some l =>
    (s.modLaunch lid fun l => { l with srcEnd := true }).note
      { cause := 0x17, ctx := l.ctx, launch := lid, addr := l.fields.work, info0 := 0x10000 }
/-- The last byte of a ring leaves the context's space or faults at stage 1 (R340). -/
def State.ringOut (s : State) (ctx va n : Nat) : Bool :=
  let bad (a : Nat) : Bool := match s.walk ctx a .read with | .s1 _ _ => true | _ => false
  va / 2 ^ 57 != 0 || (va + n - 1) / 2 ^ 57 != 0 || bad va || bad (va + n - 1)
/-- A number in a record. -/
def recNat (bs : List Byte) (o n : Nat) : Nat := leNat ((bs.drop o).take n)
/-- A ring's header: the write index, whether the ring is closed, and log2 of its entry count (R275). -/
structure RingHead where
  wr     : Nat
  closed : Bool
  lg     : Nat
  deriving DecidableEq, Repr
/-- Reads an 8-byte part of a ring or its header for a launch; nothing when it reads poison (R404). -/
def State.ringRead (s : State) (l : Launch) (lid va n : Nat) : Access (Option (List Byte)) :=
  (s.translateRange { l.who lid with w := .ring lid } va n .read).bind fun s ps =>
    .ok s (if s.piecesPoison ps then none else some (s.readPieces ps))
/-- Reads a ring's header; nothing when the ring breaks a rule (R275, R340, R404). DESIGN CHOICE: header bytes that R275 has zero
are not looked at, since neither R275 nor R340 states what becomes of a ring in which one is not (log 58). -/
def State.ringHead (s : State) (l : Launch) (lid : Nat) : Access (Option RingHead) :=
  (s.ringRead l lid l.fields.work 17).bind fun s h =>
    .ok s (h.bind fun h =>
      let r : RingHead := { wr := recNat h 0 8, closed := recNat h 8 8 ≠ 0, lg := recNat h 16 1 }
      if r.lg = 0 ∨ r.lg > 20 ∨ r.wr < l.ringWr ∨ r.wr > l.next + 2 ^ r.lg ∨ s.ringOut l.ctx l.fields.work (64 + 8 * 2 ^ r.lg)
      then none else some r)
/-- A source closes early: what it has yet to supply is discarded, a ring's entries below the write index as its header then
reads. While that read waits for a page, the ring is not closed yet (R404). -/
def State.closeSource (s : State) (lid : Nat) : State :=
  match s.launches.find? lid with
  | none => s
  | some l =>
    if l.srcEnd then s
    else if l.fields.src ≠ 1 then s.modLaunch lid fun l => l.lose (l.total - l.next)
    else
      match s.ringHead l lid with
      | .wait s => s
      | .fault s _ _ => s.ringError lid
      | .ok s none => s.ringError lid
      | .ok s (some h) => s.modLaunch lid fun l => { l.lose (h.wr - l.next) with ringWr := h.wr }

/-! Tasks. -/

/-- The run that a core takes part in. -/
def Launch.runOf (l : Launch) (n : Nat) : Option RunTask := l.run.find? fun r => r.left.contains n

/-- The record is placed again (R387): a restartable task contained fewer than three times, this one counted (log 65). -/
def TaskRec.again (t : TaskRec) (l : Launch) : Bool := t.rst && decide (t.hits + 1 < 3) && !l.exited && !l.killed
/-- A task that a containment has ended, with no chain of it left: it is queued again, or it counts as ended and its units get code
0b00; after the deadline a re-queue is refused and the task counts as absent (R387, R390). -/
def State.runLost (s : State) (lid : Nat) (r : RunTask) : State :=
  match s.launches.find? lid with
  | none => s
  | some l =>
    let t := r.task
    let core := r.lost.getD r.origin
    let s := r.left.foldl (fun s n => s.leaveBars lid n) s
    if t.again l ∧ !l.past then
      (s.modLaunch lid fun l => { l with run := l.run.filter fun q => q.origin ≠ r.origin
                                         ready := { t with hits := t.hits + 1 } :: l.ready }).event (dieOf core) 0x08 l.part core none none
    else
      (s.modLaunch lid fun l => { l with
        run := l.run.filter fun q => q.origin ≠ r.origin
        absent := l.absent + (if t.again l ∧ l.past then 1 else 0)
        todo := l.todo ++ (if l.fields.vmap ≠ 0 then r.codes.map fun u => EndStep.codes u.1 u.2 false else []) ++
          (if t.join ≠ 0 then [.join t.join] else []) ++ [.out] }).settleLaunch lid

/-- A core ends its part in its task (R88): the last one ends the task, which decrements its join and the outstanding
count (R284), or for a task that a containment has ended does what R387 says. -/
def State.endPart (s : State) (lid n : Nat) : State :=
  let s := s.leaveBars lid n
  match (s.launches.find? lid).bind fun l => l.runOf n with
  | none => s.settleLaunch lid
  | some r =>
    if r.left ≠ [n] then
      (s.modLaunch lid fun l =>
        { l with run := l.run.map fun q => if q.origin = r.origin then { q with left := q.left.filter (· ≠ n) } else q }).settleLaunch lid
    else if r.lost.isSome then s.runLost lid r
    else
      (s.modLaunch lid fun l =>
        { l with run := l.run.filter (fun q => q.origin ≠ r.origin)
                 todo := l.todo ++ (if r.task.join ≠ 0 then [.join r.task.join] else []) ++ [.out] }).settleLaunch lid

/-- Every pin that a core holds is released: an anti-token each (R311). -/
def State.releasePins (s : State) (n : Nat) : State :=
  let c := s.coreAt n
  let s := c.pins.toList.foldl (fun s q => match q with
    | some q => (s.count1 (.flight (c.ctx / 16 * 64 + q.tbl) q.ver) n true).1
    | none => s) s
  s.modCore n fun c => { c with pins := Vector.replicate 4 none }

/-- The stage of a core that stands in the wait of R88; no other wait has this number (log 1). -/
def endStage : Nat := 2 ^ 40
/-- A core has begun the wait of R88. -/
def Core.finishing (c : Core) : Bool := c.waiting && c.stage = endStage
/-- A core as the scheduler gets it back: no loop, no watch, no chain of more than itself, nothing pending (R88). -/
def Core.release (c : Core) : Core :=
  { c.settle with
    loops := Vector.replicate 3 LoopLevel.off, watch := Watch.off, role := .idle, frame := none, raised := none
    feed := [], gap := 0, nopLeft := 0, waiting := false, skewWait := false, arrived := false, stage := 0
    livePend := false, skip := false, steepOn := false, openUnits := none, route := none
    chain := { leader := c.id, rows := 1, cols := 1, r := 0, c := 0, number := c.chain.number } }

/-- The worse of two statuses, in the order 0x82, 0x81, 0x80, 0x03, 0x02, 0x01 (R236). -/
def worse (a b : Nat) : Nat := max a b
/-! What lands (R237 to R245). -/

/-- A run of bytes cut at granules, each with its first place (R210, R237). -/
def cutGranules (o : Nat) (bs : List Byte) : List (Nat × List Byte) :=
  (granules o bs.length).map fun g =>
    let a := max o (16 * g)
    (a, (bs.drop (a - o)).take (16 * g + 16 - a))
/-- Changes a command of a core. -/
def State.modCmd (s : State) (n : Nat) (seq : BitVec 32) (f : EngineCmd → EngineCmd) : State :=
  s.modCore n fun c => { c with engine := c.engine.map fun e => if e.seq = seq then f e else e }
/-- A receive completes once its payload has landed (R240): the envelope, then the stamp. -/
def Core.complete (c : Core) (r : RecvSlot) (src : Nat) (tag : BitVec 32) (len : Nat) : Core :=
  let c := (c.shareStore (r.stamp + 8) (leBytes 8 (tag.toNat + src * 2 ^ 32 + len * 2 ^ 44))).setFull (r.stamp + 8) 8
  { c.stamp r.stamp (if len > r.max then 0x02 else 0x01) (min len r.max) r.seq.toNat with received := c.received + 1 }
/-- The last granule of a branch has landed (R239, R240): the receive completes, or the overflow entry is made. -/
def Core.endMsg (c : Core) (m : Msg) (k : MsgTake) : Core :=
  match k.recv with
  | some r => c.complete r m.src m.tag m.data.length
  | none => { c with ctl := { c.ctl with ovq := match c.ctl.ovq.find? k.entry with
      | some o => c.ctl.ovq.put k.entry { o with live := true }
      | none => c.ctl.ovq } }
/-- A branch that has landed whole ends: the receive completes or the entry is made, and the sender's command is told (R239). -/
def State.msgDone (s : State) (m : Msg) (k : MsgTake) : State :=
  let long := match k.recv with | some r => decide (r.max < m.data.length) | none => false
  (s.modCore m.dst fun c => c.endMsg m k).modCmd m.src m.seq fun e =>
    { e with waits := e.waits - 1, moved := m.data.length, status := if long then worse e.status 0x02 else e.status }
/-- A `SENDN` or a part of a `HALO` that has landed whole ends: the neighbour's mailbox counter steps (R243 to R245). A part that an
uncorrectable error cut short is no arrival (R382; log 57). -/
def State.nmsgDone (s : State) (m : NMsg) : State :=
  let k := Dir.num (Dir.back m.dir)
  let s := if m.cut then s else s.modCore m.dst fun c =>
    { c with received := c.received + 1
             ctl := { c.ctl with mbx := c.ctl.mbx.mapIdx fun j v => if j = k then v + 1 else v } }
  s.modCmd m.src m.seq fun e => { e with waits := e.waits - 1, moved := e.moved + m.units }
/-- What a core has taken of messages and of its neighbours' pushes lands before its part in its task ends: only an arrival that it has
not taken is rejected (R239, R243). -/
def State.landTaken (s : State) (n : Nat) : State :=
  let c := s.coreAt n
  let mine (m : Msg) : Bool := m.dst = n && (match m.take with | some k => k.launch = c.launch && k.task = c.task | none => false)
  let near (m : NMsg) : Bool := m.dst = n && m.parts.isSome
  let ms := s.msgs.filter mine
  let ns := s.nmsgs.filter near
  let land (s : State) (ps : List (Nat × List Byte)) : State := ps.foldl (fun s q => s.modCore n fun c => c.arrive q.1 q.2) s
  let s := { s with msgs := s.msgs.filter fun m => !mine m, nmsgs := s.nmsgs.filter fun m => !near m }
  let s := ms.foldl (fun s m => match m.take with | some k => (land s k.parts).msgDone m k | none => s) s
  ns.foldl (fun s m => (land s (m.parts.getD [])).nmsgDone m) s

/-- How many of the `units` units of a payload of `len` bytes, which lands from `o` on, stand in place while `parts` of it have yet
to land. -/
def unitsLanded (o len units : Nat) (parts : List (Nat × List Byte)) : Nat :=
  let u := len / units
  ((List.range units).filter fun k => !parts.any fun q => overlap q.1 q.2.length (o + k * u) u).length
/-- The units of a branch that have landed, its bytes (R238, R239). -/
def Msg.landed (m : Msg) : Nat :=
  match m.take with
  | none => 0
  | some k => (match k.recv with | some r => min r.max m.data.length | none => m.data.length) - (k.parts.map fun q => q.2.length).sum
/-- The units of a `SENDN` or of a part of a `HALO` that have landed. -/
def NMsg.landed (m : NMsg) : Nat :=
  match m.parts with | some ps => unitsLanded m.off m.data.length m.units ps | none => 0
/-- The units of a command that have landed, those of payloads under way included (R251). -/
def State.landedOf (s : State) (n : Nat) (e : EngineCmd) : Nat :=
  let ms := (s.msgs.filter fun m => m.src = n && m.seq = e.seq).map Msg.landed
  ms.foldl max e.moved + ((s.nmsgs.filter fun m => m.src = n && m.seq = e.seq).map NMsg.landed).sum
/-- The stamps of a core's engine commands as a kill leaves them: 0x81, or the worse status that a command has met, with what
landed (R236, R251). -/
def Core.cancelEngine (c : Core) (landed : EngineCmd → Nat) : Core :=
  c.engine.foldl (fun c e => c.stamp e.stamp (worse 0x81 e.status) (if e.started then landed e else 0) e.seq.toNat)
    { c with engine := [] }

/-- The operation of a core on a lost network is gone, and the network with it when its destruction waits for no other (R270). -/
def State.dropLost (s : State) (n : Nat) : State :=
  { s with nets := (s.nets.map fun e => if e.2.lost then (e.1, e.2.forget n) else e).filter fun e =>
      !(e.2.lost && e.2.dying && e.2.ops = []) }
/-- Counting operations of a core are marked for compensation (R269). -/
def State.orphanOps (s : State) (n : Nat) : State :=
  let s := s.dropLost n
  { s with nets := s.nets.map fun e =>
      (e.1, { e.2 with ops := e.2.ops.map fun o => if o.core = n then { o with dead := true } else o }) }

/-- Pins that a kill has left are to be released: an anti-token each, once no operation of their context is under way any more, nor
a compensation of one (R269, R311). -/
def State.releaseUnpins (s : State) : State :=
  let waits (u : Unpin) : Bool := s.nets.any fun e => e.2.ops.any fun o => o.dead && o.ctx = u.ctx
  (s.unpins.filter fun u => !waits u).foldl (fun s u => (s.count1 (.flight u.table u.ver) u.core true).1)
    { s with unpins := s.unpins.filter waits }
/-- The pins of a core that a kill has stopped (R311). -/
def State.unpin (s : State) (n : Nat) : State :=
  let c := s.coreAt n
  let us := c.pins.toList.filterMap fun q =>
    q.map fun (q : Pin) => ({ ctx := c.ctx, core := n, table := c.ctx / 16 * 64 + q.tbl, ver := q.ver } : Unpin)
  ({ s with unpins := s.unpins ++ us }.modCore n fun c => { c with pins := Vector.replicate 4 none }).releaseUnpins

/-- The branches of a core that stops are gone. An overflow entry that one had begun to fill goes with it; a receive that one had
matched stays complete of nothing, its slot free and its stamp unwritten (R239, R251; log 70). -/
def State.dropMsgs (s : State) (n : Nat) : State :=
  let s := (s.msgs.filter fun m => m.src = n).foldl (fun s m => match m.take with
    | some k => if k.recv.isNone then s.modCore m.dst fun c => { c with ctl := { c.ctl with ovq := c.ctl.ovq.del k.entry } } else s
    | none => s) s
  { s with msgs := s.msgs.filter (fun m => m.src ≠ n), nmsgs := s.nmsgs.filter (fun m => m.src ≠ n)
           puts := s.puts.filter (fun p => p.1 ≠ n) }

/-- A record that waits for a core that stops is written for no chain stop any more (R360). -/
def State.forgetRec (s : State) (n : Nat) : State :=
  s.modCtx (s.coreAt n).ctx fun c =>
    { c with wrecs := c.wrecs.map fun (r : WaitRec) => if r.who = some n then { r with who := none } else r }

/-- A core stops as at a kill (R200, R251, R269, R311): an `MVB` that a stack has accepted runs on, and stores that the network
holds are performed. -/
def State.stopCore (s : State) (n : Nat) : State :=
  let s := ((s.fence n).orphanOps n).unpin n
  let s := s.modCore n fun c => c.cancelEngine (s.landedOf n)
  let s := s.dropMsgs n
  let s := (s.dropWaiters ((s.coreAt n).ctx / 16) fun w => match w with
    | .core c | .cmd c _ _ => c = n
    | .matrix c q _ => c = n && !s.stack.any fun k => k.core = n && k.cmd.seq = q
    | _ => false).forgetRec n
  s.modCore n fun c => { c.release with ctl := { c.ctl with slots := [] }, matrix := [] }

/-- A launch is killed (R251, R362, R370): its cores stop, what has not started is discarded, and its end follows when
nothing is outstanding. -/
def State.killLaunch (s : State) (lid : Nat) : State :=
  match s.launches.find? lid with
  | none => s
  | some l =>
    let cores := l.running.filter fun n => (s.coreAt n).role ≠ .idle && decide ((s.coreAt n).launch.toNat = lid)
    let s := (s.modLaunch lid fun l => { l with killed := true }).closeSource lid
    let s := s.abortBars lid
    let s := cores.foldl State.stopCore s
    let s := s.modLaunch lid fun l =>
      let l := l.ready.foldl (fun l t => l.discard t false) { l with ready := [] }
      let l := l.pend.foldl (fun l e => l.discard e.2.task false) { l with pend := [] }
      { l with run := []
               todo := l.todo ++ l.run.flatMap fun r => (if r.task.join ≠ 0 then [EndStep.join r.task.join] else []) ++ [.out] }
    s.settleLaunch lid

end Sys2Proof.Machine
end

