-- ==== Sys2Proof/Machine/Routing.lean ====
section
/-! DEFINITION. Versions of replica tables, and the routing of rows one after another (16_experts.md R309, R313, R314). -/

namespace Sys2Proof.Machine

/-! Tables and versions. -/

/-- The die of a replica. -/
def Replica.die (r : Replica) : Nat := dieOf r.core
/-- The experts of a version. -/
def RTable.at_ (t : RTable) (v : Nat) : List Expert := (t.vers.find? v).getD []
/-- Changes a table. -/
def State.modTable (s : State) (k : Nat) (f : RTable → RTable) : State :=
  match s.tables.find? k with
  | none => s
  | some t => { s with tables := s.tables.put k (f t) }
/-- A load counter rises, saturating (R314). -/
def State.loadUp (s : State) (k die e : Nat) : State :=
  s.modTable k fun t => { t with loads := t.loads.put (512 * die + e) (min (2 ^ 32 - 1) (t.loads.get 0 (512 * die + e) + 1)) }

/-! One row (R313, R314). -/

/-- A destination word that assigns no row: `drop` or `absent` (R313). -/
def missWord (bit e j : Nat) : Nat := 2 ^ bit + 2 ^ 49 * j + 2 ^ 40 * e
/-- A destination word that assigns a row (R313). -/
def destWord (e j rep slot core : Nat) (fb redir : Bool) : Nat :=
  2 ^ 63 + 2 ^ 61 * redir.toNat + 2 ^ 59 * fb.toNat + 2 ^ 49 * j + 2 ^ 40 * e + 2 ^ 16 * slot + 2 ^ 12 * rep + core

/-- What the routing of a row gives: its word, or that an instance was lost, after an operation or before any (R270). -/
inductive Routed where
  | word (w : Nat)
  | lost (injected : Bool)
  deriving DecidableEq, Repr

/-- Routes one row of a core through its choices, given with their columns (R314). -/
def State.routeRow (s : State) (n k : Nat) (es : List Expert) (redir : Bool) :
    List (Nat × Nat) → (spill inj : Bool) → Nat → State × Bool × Routed
  | [], _, inj, out => (s, inj, .word out)
  | (j, e) :: l, spill, inj, out =>
    match es[e]? with
    | none => (s, inj, .word out)
    | some x =>
      let L := x.reps.zipIdx.filter fun q => !s.failed.getLsbD q.1.die
      match L with
      | [] => if x.pol then s.routeRow n k es redir l spill inj (missWord 60 e j) else (s, inj, .word (missWord 60 e j))
      | q0 :: _ =>
        match s.count1 (.spread k e) n false with
        | (s, none) => (s, inj, .lost inj)
        | (s, some v) =>
          let q := L.getD (v.toNat % L.length) q0
          match s.count1 (.cap k q.1.serial) n false with
          | (s, none) => (s, true, .lost true)
          | (s, some c) =>
            let base := match s.tables.find? k with | some t => t.bases.get 0 q.1.serial | none => 0
            let slot := (c - base).toNat
            if slot < q.1.cap then (s, true, .word (destWord e j q.2 slot q.1.core (spill && decide (j > 0)) redir))
            else if x.pol then s.routeRow n k es redir l true true (missWord 62 e j)
            else (s, true, .word (missWord 62 e j))

/-- The choices of a row, up to the first that names none (R314). -/
def rowChoices (t : Tile) (kc r : Nat) : List (Nat × Nat) :=
  ((List.range kc).map fun j => (j, tileBytes t (4 * (r * kc + j)) 4)).takeWhile fun q => q.2 ≠ 0xFFFFFFFF

/-! The rows of a `ROUTE` (R314). -/

/-- Writes a row's word and goes to the next row. -/
def RouteRun.put (q : RouteRun) (w : Option Nat) : RouteRun :=
  let o : Patch := { val := q.val, mask := q.mask }
  let o := match w with | some w => o.put (8 * q.row) 8 w | none => o
  { q with row := q.row + 1, val := o.val, mask := o.mask }

/-- Routes the next row of a core's `ROUTE`. Nothing, when an instance is lost before the first operation; after it, the
instruction goes on, and the word of the row is open (R270, R314; log 59). -/
def State.routeNext (s : State) (n : Nat) (q : RouteRun) : State × Option RouteRun :=
  if !q.p.getLsbD q.row then (s, some (q.put (if q.z then some 0 else none)))
  else
    let es := match s.tables.find? q.tbl with | some t => t.at_ q.ver | none => []
    let cs := rowChoices q.a q.kc q.row
    let load (s : State) (w : Nat) : State :=
      match (if w / 2 ^ 63 % 2 = 1 then some (fld w 40 9) else cs.head?.map Prod.snd) with
      | some e => s.loadUp q.tbl (dieOf n) e
      | none => s
    match s.routeRow n q.tbl es q.redir cs false q.inj 0 with
    | (s, _, .lost false) => (s, none)
    | (s, _, .lost true) => let (s, w) := s.openWord; (load s w.toNat, some { q.put (some w.toNat) with inj := true })
    | (s, inj, .word w) => (load s w, some { q.put (some w) with inj := inj })

/-- Routes the rows that are left, at most so many. -/
def State.routeRest (s : State) (n : Nat) : Nat → RouteRun → State × Option RouteRun
  | 0, q => (s, some q)
  | k + 1, q =>
    if q.row ≥ q.rows then (s, some q)
    else match s.routeNext n q with
      | (s, some q) => s.routeRest n k q
      | (s, none) => (s, none)

/-- A stop finds a `ROUTE` under way: once an operation is injected, the instruction completes and retires; before, it
issues again (R314). -/
def State.settleRoute (s : State) (n : Nat) : State :=
  match (s.coreAt n).route with
  | none => s
  | some q =>
    if !q.inj then s.modCore n fun c => { c with route := none }
    else match s.routeRest n q.rows q with
      | (s, none) => s.modCore n fun c => { c with route := none }
      | (s, some q) => s.modCore n fun c =>
        let c := { c.wv q.d q.val q.mask false with route := none, waiting := false, slot := c.slot + 1, retired := c.retired + 1 }
        if c.leads then (c.flow 4 c.npc).1 else c
/-- The counting operations of a core that a stop finds under way are completed (R270, R314). -/
def State.settleOps (s : State) (n : Nat) : State := (s.settleCount n).settleRoute n

end Sys2Proof.Machine
end

