-- ==== Sys2Proof/Machine/Ops.lean ====
section
/-! DEFINITION. The named operations that meanings are made of: issue and the scoreboard's hold, retirement and transfer
of control, waiting, and the taking of an exception with the return from it (04_stream.md R63 to R80; 21_traps.md R355 to
R365). -/

namespace Sys2Proof.Machine

/-! Issue. -/

/-- The union of two sets of registers. -/
def Regs.and (a b : Regs) : Regs := { x := a.x ++ b.x, v := a.v ++ b.v, p := a.p ++ b.p }

/-- The operands can be read and the results taken: the scoreboard holds none (R64), and no register read has a parity error (R385) or is
marked poisoned (R386). -/
def Core.ready (c : Core) (rd wr : Regs) : Bool :=
  !c.held? (rd.and wr) && (c.badReg rd).isNone && (c.poisonReg rd).isNone

/-- A cycle of the core's wait in its own instruction (R64, R69): no slot is counted, pending register results come
nearer. -/
def Core.waits (c : Core) : Core := { c.advance with waiting := true, frozen := false }

/-- A wait of the instruction at the pc. -/
def State.wait (s : State) : State := s.upd Core.waits

/-- A wait that freezes the core for another cause than its own instruction's (R64, R69): nothing comes nearer. -/
def State.freeze (s : State) : State := s.upd fun c => { c with waiting := true, frozen := true }

/-- The scoreboard's hold (R64). A variable-latency result returns when no other step is scheduled (log 1). -/
def State.scoreWait (s : State) (r : Regs) : State :=
  let s := s.count s.core.id 7 1
  if s.agenda = [] ∧ s.core.awaited r then s.upd fun c => { c.landLate.advance with waiting := true, frozen := false } else s.wait

/-- The module-wide numbers of a chain's members, by row and column. -/
def ChainInfo.ids (c : ChainInfo) : List Nat :=
  (List.range c.rows).flatMap fun r => (List.range c.cols).map fun k => c.leader + 32 * r + k

/-- The members of a core's chain that run in it still: one that has left it, ended or stopped is none (R85, R88, R386). -/
def State.mates (s : State) (c : Core) : List Nat :=
  c.chain.ids.filter fun n =>
    let d := s.coreAt n
    d.role = .running && d.chain.leader = c.chain.leader && d.chain.rows = c.chain.rows && d.chain.cols = c.chain.cols
/-- A trap handler runs in the core's chain, on its leader (R361). -/
def State.inHandler (s : State) (c : Core) : Bool :=
  let l := s.coreAt c.chain.leader
  l.frame.isSome && l.chain.leader = l.id

/-- A core that reads a register which a poisoned arrival has marked stops with the instruction unretired, after its record
(R386 step 5). -/
def State.poisonStop (s : State) (file num : Nat) : State :=
  let c := s.core
  (s.note { c.cmdRec 0x21 0 0 8 (file * 256 + num) with
    sync := true, nested := s.inHandler c, chain := c.members > 1, pc := c.pc.toNat }).upd fun c =>
      { c.settle with role := .halted, waiting := false }

/-- An instruction reads its registers: the read of one with a parity error is consumed (R385), it stops on a poisoned arrival (R386), or
it goes on. -/
def reads (rd : Regs) (s : State) (k : State → Out) : Out :=
  match s.core.badReg rd, s.core.poisonReg rd with
  | some (f, n), _ => .next (s.upd fun c => c.consumed 0 2 (256 * f + n))
  | none, some (f, n) => .next (s.poisonStop f n)
  | none, none => k s
/-- Issues an instruction that reads and writes the given registers: the scoreboard holds it (R64), or it reads them. -/
def issue (rd wr : Regs) (s : State) (k : State → Out) : Out :=
  if s.core.held? (rd.and wr) then .next (s.scoreWait (rd.and wr)) else reads rd s k

/-! Retirement and transfer. -/

/-- What every retirement leaves: the slot has passed, the count of instructions has risen, nothing waits. -/
def Core.retireSlot (c : Core) : Core :=
  { c.tick with retired := c.retired + 1, waiting := false, skewWait := false, arrived := false, stage := 0 }

/-- The loop whose body the loop buffer holds: the outermost active one whose body fits (R80). -/
def State.buffered (s : State) : Option LoopLevel :=
  (s.core.loops.toList.filter fun q => q.active && s.holds q).foldl (fun m q => match m with
    | none => some q
    | some b => if q.depth < b.depth then some q else some b) none
/-- A range of the code lies in the body that the loop buffer holds. -/
def State.inBuffer (s : State) (a b : Word) : Bool :=
  match s.buffered with | some q => q.start ≤ a && b ≤ q.stop && a < q.stop | none => false
/-- The empty slots after a back edge: two when the buffer does not hold the body (R74, R80). -/
def State.edgeGap (s : State) (e : Option Level) : Nat :=
  match e with
  | some l => let q := s.core.loops[l]; if s.inBuffer q.start q.stop then 0 else 2
  | none => 0

/-- The instruction at the pc retires and sequential flow goes on at `npc`, by the back edges that are due (R63, R74,
R80). A follower's pc is its leader's affair (R13). -/
def State.retire (s : State) : State :=
  let c := s.core
  if c.leads then
    let (d, e) := c.flow 4 c.npc
    { s with core := { d.retireSlot with gap := s.edgeGap e } }
  else { s with core := c.retireSlot }

/-- A loop and every loop nested inside it end (R75, R76; log 54). -/
def Core.breakLoop (c : Core) (n : LoopLevel) : Core :=
  { c with loops := c.loops.map fun q => if q.active ∧ n.depth ≤ q.depth then { q with cnt := 0, active := false } else q }

/-- Every loop whose body does not hold the target ends, with those nested inside it (R76). -/
def Core.leaveLoops (c : Core) (t : Word) : Core :=
  c.loops.toList.foldl (fun d q => if q.active ∧ ¬ (q.start ≤ t ∧ t < q.stop) then d.breakLoop q else d) c

/-- A taken transfer: the target runs at k + 3 after two empty slots, or at k + 1 inside the loop buffer (R70). -/
def State.transfer (s : State) (t : Word) : State :=
  if s.core.leads then { s with core := { s.core.retireSlot with pc := t, gap := if s.inBuffer t t then 0 else 2 } }
  else { s with core := s.core.retireSlot }

/-! Results. -/

/-- A fixed-latency scalar result and retirement. -/
def State.resX (s : State) (n : Nat) (d : XReg) (v : Word) : Out := .next (s.upd (·.pendX n d v)).retire
/-- A fixed-latency scalar result with flags that join at the same slot (R118). -/
def State.resXF (s : State) (n : Nat) (d : XReg) (v : Word) (f : Flags) : Out :=
  .next (s.upd fun c => (c.pendX n d v).pendF n f).retire
/-- A fixed-latency vector result, the bits that the mask selects, with flags. -/
def State.resV (s : State) (n : Nat) (d : VReg) (t m : Tile) (f : Flags) : Out :=
  .next (s.upd fun c => (c.pendV n d t m).pendF n f).retire
/-- A fixed-latency predicate result with flags. -/
def State.resP (s : State) (n : Nat) (d : PReg) (m : Mask) (f : Flags) : Out :=
  .next (s.upd fun c => (c.pendP n d m).pendF n f).retire

/-- A variable-latency result waits for its return in the scoreboard (R64, R228); `x0` discards it. -/
def Core.lateX (c : Core) (d : XReg) (v : Word) : Core :=
  if d = 0 then c else { c with late := c.late ++ [{ left := 0, slot := c.slot, land := .x d v }] }
/-- A variable-latency vector result. -/
def Core.lateV (c : Core) (d : VReg) (t m : Tile) : Core :=
  { c with late := c.late ++ [{ left := 0, slot := c.slot, land := .v d t m }] }

/-- A result readable in the slot after release (R65), and retirement. -/
def State.nowX (s : State) (d : XReg) (v : Word) : Out := .next (s.upd (·.pendX 1 d v)).retire

/-! Taking an exception. -/

/-- The members of a chain that have raised a trap in this cycle, lowest stream slot first, ties by core number (R362). -/
def State.raisedOf (s : State) (ids : List Nat) : List Core :=
  let cs := (ids.map s.coreAt).filter fun c => c.raised.isSome
  cs.foldl (fun l c => (l.takeWhile fun d => d.slot < c.slot || (d.slot = c.slot && d.id < c.id)) ++
    c :: (l.dropWhile fun d => d.slot < c.slot || (d.slot = c.slot && d.id < c.id))) []

/-- The record of a raised trap (R356, R361). -/
def Core.trapRec (c : Core) (r : Raised) (nested : Bool) : TrapRec :=
  { cause := r.cause, sync := true, nested := nested, chain := c.members > 1, ctx := c.ctx, core := c.id, pos := c.pos
    launch := c.launch.toNat, pc := c.pc.toNat, addr := r.addr.toNat, info0 := r.info0.toNat, info1 := r.info1.toNat }

/-- Cores in the order of their numbers. -/
def byNumber (cs : List Core) : List Core :=
  cs.foldl (fun l c => (l.takeWhile fun d => d.id < c.id) ++ c :: (l.dropWhile fun d => d.id < c.id)) []

/-- A member in a chain stop: everything issued before has landed and its instruction is cancelled (R138, R361). While the
records wait for a slot of the ring, the member is frozen (R360). -/
def Core.halts (c : Core) : Core :=
  { c.settle with raised := c.raised.map fun (r : Raised) => { r with posted := true }
                  waiting := true, frozen := true, skewWait := false, arrived := false, stage := 0 }
/-- A member as the chain stop leaves it. `TRAP` and `BRK` of the member that `%trap` names have passed (R364); what the
others issued will issue again (R361, R362). -/
def Core.stopped (named : Nat) (c : Core) : Core :=
  let past := c.id = named && (match c.raised with | some r => r.after | none => false)
  let c := { c with raised := none, waiting := false, frozen := false }
  if past then
    let c := if c.leads then (c.flow 4 c.npc).1 else c
    { c with slot := c.slot + 1, retired := c.retired + 1 }
  else c

/-- The leader enters the handler: its place, phase, loop levels and watch go into the trap frame, every loop ends, the
watch is disarmed, the phase becomes exchange, `%trap` is written, and the first handler instruction issues three slots
later (R361, R363). -/
def Core.enterHandler (c : Core) (hdl : Nat) (trap : Word) (member : Nat) : Core :=
  { c with
    frame := some { pc := c.pc, slot := c.slot, phase := c.phase, loops := c.loops, watch := c.watch, member := member
                    gap := c.gap, nop := c.nopLeft, npc := c.npc }
    loops := Vector.replicate 3 LoopLevel.off, watch := Watch.off, phase := .exchange, trap := trap
    pc := BitVec.ofNat 64 hdl, gap := 2, nopLeft := 0 }

/-- The end of a task whose trap no handler takes (R362): the launch is killed, or without one the members stop; the
record of cause 0x23 follows. -/
def State.trapKill (s : State) (c : Core) (step : Nat) : State :=
  let lid := c.launch.toNat
  let s := match s.launches.find? lid with
    | some _ => s.killLaunch lid
    | none => (s.mates c).foldl State.stopCore s
  s.note { cause := 0x23, ctx := c.ctx, core := c.id, pos := c.pos, launch := lid, info0 := step }

/-- The end of a core's wrap-up window, also of a diversion that it has yet to meet, on another count of time (R301). -/
def Core.moveEnds (f : Nat → Nat) (c : Core) : Core :=
  { c with steepAt := if c.steepOn then f c.steepAt else c.steepAt
           feed := c.feed.map fun e => { e with steep := e.steep.map fun d => { d with ends := f d.ends } } }
/-- A core that the halt tree stops for a save: what it has issued has landed, register results that have slots to count
excepted, and the instruction that waits is not retired (R93, R138, R366, R369). -/
def Core.saveStop (c : Core) (now : Nat) : Core :=
  let stays (p : Pend) : Bool := p.arr.isSome || (match p.land with | .x _ _ | .v _ _ _ | .p _ _ => true | _ => false)
  let c := (inSlotOrder (c.pend.filter fun p => !stays p)).foldl Core.land { c with pend := c.pend.filter stays }
  let c := c.late.foldl Core.land { c with late := [] }
  { c.moveEnds (· - now) with role := .saved, waiting := false, frozen := false, skewWait := false, arrived := false, stage := 0 }

/-- The leader of the core's chain has issued the `LIVE` that stops the chain, and the core runs on to it (R371, R377). -/
def State.toLive (s : State) (c : Core) : Bool :=
  let l := s.coreAt c.chain.leader
  !c.leads && l.role = .saved && l.livePend && c.feed.any fun e => e.live && decide (c.slot ≤ e.slot)
/-- The halt tree stops the running cores of a context for full saves (R366, R369), but for those on their way to a live point (R377). A
context without a request gets one, past its grace time (R364). -/
def State.haltCtx (s : State) (ctx : Nat) : State :=
  let ids := (s.allCores.filter fun c => c.ctx = ctx && c.role = .running && !c.contained && !s.toLive c).map Core.id
  let s := ids.foldl (fun s n => (s.settleOps n).dropLost n) s
  let s := ids.foldl (fun s n => (s.dropWaiter (ctx / 16) (.core n)).modCore n fun c => c.saveStop s.now) s
  s.modCtx ctx fun c =>
    { c with pre := some { (c.pre.getD { at_ := s.now, g := 0, k := 500, halt := none }) with halt := some s.now }
             saved := c.saved ++ ids.map fun n => ({ id := n, live := false, desc := [] } : SavedCore) }

/-- The halt tree stops a partition, and every context with running cores is to be saved (R364, R366). -/
def State.haltPart (s : State) (part : Nat) : State :=
  (((s.allCores.filter fun c => c.ctx / 16 = part && c.role = .running).map Core.ctx).eraseDups).foldl State.haltCtx s

/-- A chain stop is under way: a record of it waits for a slot of the ring (R360). -/
def State.stopping (s : State) (c : Core) : Bool :=
  (s.mates c).any fun n => !(s.coreAt n).contained && (match (s.coreAt n).raised with | some r => r.posted | none => false)
/-- A raised trap whose record the ring writer has not been given. -/
def Raised.fresh (r : Raised) : Bool := !r.posted
/-- The members halt, and the records of the raised traps reach the ring writer, lowest core number first (R360, R361). -/
def State.haltChain (s : State) (ids : List Nat) (nested : Bool) : State :=
  let rs := (byNumber (s.raisedOf ids)).filterMap fun c =>
    c.raised.bind fun r => if r.fresh then some (c.trapRec r nested, some c.id) else none
  if rs = [] then s
  else
    let ctx := s.core.ctx
    let s := ids.foldl (fun s n => (s.dropWaiter (ctx / 16) (.core n)).settleOps n) s
    (ids.foldl (fun s n => s.modCore n Core.halts) s).post ctx rs

/-- A chain stop for synchronous traps (R361, R362): the records are written, and the leader enters the handler, or the
launch is killed. While a record waits for a slot of the ring, the members stay frozen (R360). Members that their leader has
left behind have none to enter a handler: they end as without one (log 55). With a halt that is due in the cycle the handler is entered
at resumption (R377). -/
def State.chainStop (s : State) : State :=
  let c := s.core
  let ids := (s.mates c).filter fun n => !(s.coreAt n).contained
  let nested := s.inHandler c
  let s := s.haltChain ids nested
  let rs := s.raisedOf ids
  let halts : Bool := match (s.context c.ctx).soft with | some p => p.due s.now | none => false
  if (halts && !nested) || rs.any fun c => match c.raised with | some r => r.word.isNone | none => false then s
  else
    let first := rs.headD c
    let r := first.raised.getD { cause := 0, addr := 0, info0 := 0, info1 := 0, after := false }
    let s := ids.foldl (fun s n => s.modCore n (Core.stopped first.id)) s
    let (hdl, brk) := s.handler c.ctx
    if r.cause = 0x0B ∧ brk ∧ ¬ nested then s.haltPart (c.ctx / 16)
    else if nested then s.trapKill c 5
    else if hdl = 0 ∨ ¬ ids.contains c.chain.leader then s.trapKill c 6
    else s.modCore c.chain.leader fun l => l.enterHandler hdl (r.word.getD 0) first.id

/-- TAKING AN EXCEPTION. The instruction at the pc raises a synchronous trap (R355, R361). In a chain of one core, and in
a handler, the chain stop follows at once; in a larger chain the step that runs the cycle makes it. -/
def State.raise (s : State) (cause : Nat) (addr info0 info1 : Nat) (after : Bool := false) : State :=
  let s := s.upd fun c => { c with raised := some { cause := cause, addr := BitVec.ofNat 64 addr, info0 := BitVec.ofNat 64 info0
                                                    info1 := BitVec.ofNat 64 info1, after := after } }
  if s.core.members = 1 ∨ s.core.frame.isSome then s.chainStop else s

/-- The illegal-operand trap, with the opcode (R357). -/
def State.illegal (s : State) (op : Nat) : Out := .next (s.raise 0x02 0 op 0)
/-- The phase trap (R66). -/
def State.phaseTrap (s : State) (op : Nat) : Out := .next (s.raise 0x03 0 op 0)
/-- The privilege trap. -/
def State.privilege (s : State) (op : Nat) : Out := .next (s.raise 0x04 0 op 0)
/-- The address fault, naming the address. -/
def State.addrFault (s : State) (op addr : Nat) : Out := .next (s.raise 0x05 addr op 0)
/-- The shape fault, naming the record and the row of R51. -/
def State.shapeFault (s : State) (addr row : Nat) : Out := .next (s.raise 0x06 addr row 0)

/-- A class X instruction: the phase check, after the issue checks (R66, R358). -/
def State.classX (s : State) (op : Nat) (k : State → Out) : Out :=
  if s.core.phase = .compute then s.phaseTrap op else k s

/-- How an access of the core ends: it goes on, traps, or waits in a freeze for the reply (R334, R337). -/
def Access.run {α : Type} (a : Access α) (k : State → α → Out) : Out :=
  match a with
  | .ok s x => k s x
  | .fault s v i => .next (s.raise 0x08 v i 0)
  | .wait s => .next s.wait

/-- An instruction that reads poison (R382, R386): the core consumes an uncorrectable error and stops with the
instruction unretired; the step `CORE_CONTAINMENT` carries the containment out. -/
def State.consume (s : State) (addr : Nat) (src : Nat := 1) : State := s.upd fun c => c.consumed addr src

/-! The return. -/

/-- THE RETURN FROM AN EXCEPTION. Phase, loop levels, watch and place of the trap frame are restored; the trapping
member is to pass its slot empty for `ERET.skip` (R361, R365). Results of the handler that are still pending keep their
slots and count as issued before the resumed stream. -/
def Core.leaveHandler (c : Core) (f : TrapFrame) : Core :=
  { c with frame := none, pc := f.pc, npc := f.npc, slot := f.slot, phase := f.phase, loops := f.loops, watch := f.watch
           gap := f.gap, nopLeft := f.nop
           pend := c.pend.map fun (p : Pend) => if p.arr.isNone then { p with slot := 0 } else p
           retired := c.retired + 1, waiting := false, stage := 0 }

/-- A core in a supervisor core or a supervisor context of partition 0 may perform every privileged operation; in a
supervisor context of another partition it is a partition supervisor (R327). -/
def State.isPF (s : State) : Bool :=
  isSupCore s.core.id || ((s.context s.core.ctx).sup && s.core.ctx / 16 = 0)
/-- A supervisor core or context (R9, R327). -/
def State.isSup (s : State) : Bool := isSupCore s.core.id || (s.context s.core.ctx).sup
/-- The running context's partition. -/
def State.myPart (s : State) : Nat := s.core.ctx / 16

end Sys2Proof.Machine
end

