-- ==== Sys2Proof/Machine/Operands.lean ====
section
/-! DEFINITION. Operand forms: the addresses of form M (03_formats.md R40), generic addresses (01_machine.md R23), reads
and writes of every space, the control page (11_memory_isa.md R225), and shape records (R48 to R53). -/

namespace Sys2Proof.Machine

/-! Addresses. -/

/-- Sign-extended displacement. -/
def sx {w : Nat} (d : BitVec w) : Word := d.signExtend 64

/-- The address of a form-M operand with its unit, plus a byte displacement (R40). -/
def Core.ea (c : Core) (m : MAddr) (unit : Nat) (imm : BitVec 32 := 0) : Word :=
  let off := match m.off with
    | .disp d => sx d * BitVec.ofNat 64 unit
    | .index sc xi => c.rx xi <<< sc.val
  c.rx m.base + off + sx imm

/-- The scalar registers that a form-M address reads. -/
def MAddr.reads (m : MAddr) : List XReg :=
  match m.off with | .disp _ => [m.base] | .index _ xi => [m.base, xi]

/-- The space tag of an address (R23). -/
def tag (a : Word) : Nat := a.toNat / 2 ^ 60
/-- Bits 59 to 0. -/
def offset (a : Word) : Nat := a.toNat % 2 ^ 60

/-- Where an access lies, its bytes in their space (R23). -/
inductive Space where
  | glob (va : Nat)
  | share (off : Nat)
  | ctl (off : Nat)
  | win (off : Nat)
  deriving DecidableEq, Repr

/-- First byte of the control page (R23). -/
def ctlBase : Nat := 0xFF000

/-- The size of the core's cluster-shared window as its launch sees it (R21). -/
def State.winSize (s : State) : Nat :=
  if isSupCore s.core.id then 0
  else
    let (l, n) := s.windowOf (clusterOf s.core.id)
    if l = s.core.launch.toNat then n else 0

/-- Resolves an access of `n` bytes by R23, checked at its first and last byte; nothing is an address fault. The spill memory is the one
that R23 and R351 give a context, so its cores share it, whatever R24 says of tag 0xA (log 71). -/
def State.resolve (s : State) (a : Word) (n : Nat) : Option Space :=
  let o := offset a
  let l := o + (n - 1)
  if tag a = 0 then (if l < 2 ^ 57 then some (.glob o) else none)
  else if tag a = 8 then
    if l < s.core.shareSize then some (.share o)
    else if ctlBase ≤ o ∧ l < ctlBase + 4096 then some (.ctl (o - ctlBase))
    else none
  else if tag a = 9 then (if l < s.winSize then some (.win o) else none)
  else if tag a = 10 then
    let c := s.context s.core.ctx
    if l < c.splim then some (.glob (c.spill + o)) else none
  else none

/-- A range of the own share with tag 0x8, the control page excluded: its offset. -/
def Core.inShare (c : Core) (a : Word) (n : Nat) : Option Nat :=
  if tag a = 8 ∧ offset a + n ≤ c.shareSize then some (offset a) else none

/-! The control page (R225). -/

/-- A control page's bytes: counters, masks, slots and overflow entries, everything else zero. -/
def Control.page (k : Control) (share : Nat) : Memory :=
  let m : Memory := []
  let m := (List.finRange 4).foldl (fun (m : Memory) i => m.writeNat (8 * i.val) 8 k.mbx[i].toNat) m
  let m := m.writeNat 0x20 4 (k.slots.foldl (fun a e => a + 2 ^ e.1) 0)
  let m := m.writeNat 0x28 8 ((k.ovq.filter fun e => e.2.live).foldl (fun a e => a + 2 ^ e.1) 0 + 2 ^ 32 * k.rejected.toNat)
  let m := m.writeNat 0x30 8 k.bflags.toNat
  let m := k.slots.foldl (fun (m : Memory) e =>
    m.write (0x100 + 16 * e.1) (leBytes 4 e.2.buf ++ leBytes 4 e.2.max ++ leBytes 2 e.2.src ++
      leBytes 2 (e.2.mask + 2 ^ 15 * e.2.anytag.toNat) ++ leBytes 4 e.2.tag.toNat)) m
  (k.ovq.filter fun e => e.2.live).foldl (fun (m : Memory) e =>
    m.write (0x300 + 16 * e.1) (leBytes 2 e.2.src ++ leBytes 2 e.2.len ++ leBytes 4 e.2.tag.toNat ++
      leBytes 4 e.2.arrival.toNat ++ leBytes 4 (share - 16384 + 1024 * e.1))) m

/-- Bytes of the control page. -/
def Core.ctlRead (c : Core) (off n : Nat) : List Byte := (c.ctl.page c.shareSize).read off n

/-- A store into the control page: it sets the mailbox counters and `bflags`, and has no effect elsewhere (R225). -/
def Core.ctlWrite (c : Core) (off : Nat) (bs : List Byte) : Core :=
  let put (base old : Nat) : Nat := leNat ((List.range 8).map fun i =>
    if off ≤ base + i ∧ base + i < off + bs.length then bs.getD (base + i - off) 0
    else BitVec.ofNat 8 (old / 2 ^ (8 * i)))
  { c with ctl := { c.ctl with
      mbx := c.ctl.mbx.mapIdx fun i v => BitVec.ofNat 64 (put (8 * i) v.toNat)
      bflags := BitVec.ofNat 6 (put 0x30 c.ctl.bflags.toNat) } }

/-! Reads and writes of a space. -/

/-- Translates an access (R331). -/
def State.placeAs (s : State) (who : Who) (sp : Space) (n : Nat) (acc : Acc) : Access Place :=
  match sp with
  | .share o => .ok s (.share o n)
  | .ctl o => .ok s (.ctl o n)
  | .win o => .ok s (.win o n)
  | .glob va => (s.translateRange who va n acc).bind fun s ps => .ok s (.mem ps)
/-- Translates an access of the core that acts. -/
def State.place (s : State) (sp : Space) (n : Nat) (acc : Acc) : Access Place := s.placeAs s.me sp n acc

/-- Translates several accesses, in order. -/
def State.places (s : State) (acc : Acc) : List (Space × Nat) → Access (List Place)
  | [] => .ok s []
  | (sp, n) :: l => (s.place sp n acc).bind fun s p => (s.places acc l).bind fun s ps => .ok s (p :: ps)

/-- Reads bytes as the core sees them, or its engine; nothing for poison (R207 to R209, R216, R382). -/
def State.readPlace (s : State) (p : Place) (eng : Bool := false) : State × Option (List Byte) :=
  let n := s.core.id
  match p with
  | .share o k => (s, if s.core.sharePoisoned o k then none else some (s.core.shareRead o k))
  | .ctl o k => (s, some (s.core.ctlRead o k))
  | .win o k =>
    let a := heldAddr (clusterOf n) o
    let bad (s : State) : Bool := (s.cluster (clusterOf n)).wpois.any fun d => overlap (8 * d) 8 o k
    let s := s.beforeLoad eng n { hpa := a, len := k, kind := 1, gpa := 0 } (bad s)
    (s, if bad s then none else some (s.seenOver n a ((s.cluster (clusterOf n)).window.read o k)))
  | .mem ps =>
    let s := ps.foldl (fun s p => s.beforeLoad eng n p (s.physPoison p.hpa p.len)) s
    (ps.foldl (fun s p => s.observe n p.hpa p.len) s,
     if s.piecesPoison ps then none else some (ps.flatMap fun p => s.seenOver n p.hpa (s.physRead p.hpa p.len)))

/-- The stores that an access makes of its bytes, one for each page, under the page's kind: a release is none on a UO page
(R210). -/
def netStores (core part : Nat) (rel : Option Scope) : List Piece → List Byte → List NetStore
  | [], _ => []
  | p :: ps, bs =>
    { core := core, hpa := p.hpa, gpa := p.gpa, part := part, data := bs.take p.len, kind := p.kind
      rel := if p.kind = 2 then none else rel } :: netStores core part rel ps (bs.drop p.len)
/-- The stores of bytes at a place that the network takes. -/
def State.storesAt (s : State) (p : Place) (bs : List Byte) (rel : Option Scope) : List NetStore :=
  let n := s.core.id
  match p with
  | .win o _ => [{ core := n, hpa := heldAddr (clusterOf n) o, gpa := 0, part := s.myPart, data := bs, kind := 1, rel := rel }]
  | .mem ps => netStores n s.myPart rel ps bs
  | _ => []
/-- Writes bytes as a store (R228): to the network, but for the own share and the control page. With nothing held and nothing
else scheduled, its bytes are in place at once (log 1, log 9). -/
def State.writePlace (s : State) (p : Place) (bs : List Byte) (rel : Option Scope) : State :=
  match p with
  | .share o _ => s.upd fun c => c.shareStore o bs
  | .ctl o _ => s.upd fun c => c.ctlWrite o bs
  | .mem ps => if s.agenda = [] ∧ s.stores = [] then s.writePieces s.myPart ps bs else s.hand (s.storesAt p bs rel)
  | .win _ _ => s.hand (s.storesAt p bs rel)

/-- Reads several places in order; nothing when one reads poison. -/
def State.readPlaces (s : State) : List Place → State × Option (List (List Byte))
  | [] => (s, some [])
  | p :: ps =>
    let (s, b) := s.readPlace p
    let (s, bs) := s.readPlaces ps
    (s, match b, bs with | some b, some bs => some (b :: bs) | _, _ => none)

/-- Writes the places of one access in order. What the network takes is one store a granule (R210). -/
def State.writePlaces (s : State) (ps : List Place) (bs : List (List Byte)) : State :=
  let l := ps.zip bs
  if s.agenda = [] ∧ s.stores = [] then l.foldl (fun s q => s.writePlace q.1 q.2 none) s
  else
    let own (p : Place) : Bool := match p with | .share _ _ | .ctl _ _ => true | _ => false
    ((l.filter fun q => own q.1).foldl (fun s q => s.writePlace q.1 q.2 none) s).hand
      (mergeStores (l.flatMap fun q => s.storesAt q.1 q.2 none))

/-- Reads bytes of a space; nothing for poison. -/
def State.readSpace (s : State) (sp : Space) (n : Nat) : Access (Option (List Byte)) :=
  (s.place sp n .read).bind fun s p => let (s, b) := s.readPlace p; .ok s b
/-- Writes bytes of a space. -/
def State.writeSpace (s : State) (sp : Space) (bs : List Byte) (rel : Option Scope) : Access Unit :=
  (s.place sp bs.length .write).bind fun s p => .ok (s.writePlace p bs rel) ()

/-! Shape records (R48 to R53). -/

/-- A shape record's fields (R48). -/
structure Shape where
  base : Word
  code : Nat          -- byte 8
  rank : Nat
  flags : Nat
  pad  : Nat
  ext  : Vector Nat 4
  str  : Vector Int 4
  deriving DecidableEq, Repr

/-- The fields of 64 bytes (R48). -/
def Shape.ofBytes (bs : List Byte) : Shape :=
  let n (o k : Nat) : Nat := leNat ((bs.drop o).take k)
  { base := BitVec.ofNat 64 (n 0 8), code := n 8 1, rank := n 9 1, flags := n 10 2, pad := n 12 4
    ext := Vector.ofFn fun d => n (16 + 4 * d.val) 4
    str := Vector.ofFn fun d => (BitVec.ofNat 64 (n (32 + 8 * d.val) 8)).toInt }

/-- The record's type, when byte 8 names one (R47, R48). -/
def Shape.ty (h : Shape) : Option Ty := if h.code < 32 then Ty.ofCode h.code else none
/-- `quiet` (R48). -/
def Shape.quiet (h : Shape) : Bool := h.flags % 2 = 1
/-- `BaseOffset` (R50). -/
def baseOffset (a : Word) : Nat := if tag a = 0 then a.toNat % 2 ^ 57 else offset a

/-- A window: sizes and origins of the four dimensions (R50). -/
structure Win where
  w : Vector Nat 4
  o : Vector Int 4
  deriving DecidableEq, Repr

/-- A window of two dimensions with four origins. -/
def Win.of (w0 w1 : Nat) (o0 o1 o2 o3 : Int) : Win := { w := #v[w0, w1, 1, 1], o := #v[o0, o1, o2, o3] }

/-- The in-extent coordinates of a dimension: the lowest, and how many (R50). A dimension at or above `rank` has no
extent: its coordinates all count (log 15). -/
def Shape.span (h : Shape) (w : Win) (d : Fin 4) : Int × Nat :=
  if d.val < h.rank then
    let lo := max 0 w.o[d]
    let hi := min (h.ext[d] : Int) (w.o[d] + w.w[d])
    (lo, (hi - lo).toNat)
  else (w.o[d], w.w[d])

/-- Some unit of the window is in extent. -/
def Shape.anyIn (h : Shape) (w : Win) : Bool := (List.finRange 4).all fun d => (h.span w d).2 != 0

/-- A destination passes R53: the dimensions with more than one in-extent coordinate by increasing stride. -/
def Shape.apart (h : Shape) (w : Win) (u : Nat) : Bool :=
  let ds := (List.finRange 4).filterMap fun d =>
    let n := (h.span w d).2
    if n > 1 then Option.some ((if d.val < h.rank then h.str[d].natAbs else 0), n) else none
  let sorted := ds.foldl (fun l e => (l.takeWhile fun q => q.1 ≤ e.1) ++ e :: (l.dropWhile fun q => q.1 ≤ e.1)) []
  (sorted.foldl (fun (a : Bool × Nat) e => (a.1 && a.2 ≤ e.1 * u, a.2 + e.1 * u * (e.2 - 1))) (true, u)).1

/-- How a record is judged: it moves, nothing moves, or a row of R51 fails. -/
inductive Judged where
  | moves | nothing
  | fails (row : Nat)
  deriving DecidableEq, Repr

/-- The size of a base's space: the 57-bit space, the share, the window, the spill limit (R51). -/
def State.spaceSize (s : State) (a : Word) : Nat :=
  if tag a = 0 then 2 ^ 57 else if tag a = 8 then s.core.shareSize else if tag a = 9 then s.winSize
  else (s.context s.core.ctx).splim

/-- Rows 2 to 9 of R51, in order. -/
def State.judge (s : State) (h : Shape) (w : Win) (admits : Ty → Bool) (dest : Bool) : Judged :=
  match h.ty with
  | none => .fails 2
  | Option.some t =>
    let u := t.size
    if !admits t then .fails 2
    else if h.rank = 0 ∨ h.rank > 4 ∨ h.flags / 2 ≠ 0 then .fails 3
    else if ¬ (tag h.base = 0 ∨ tag h.base = 8 ∨ tag h.base = 9 ∨ tag h.base = 10) ∨
        (tag h.base = 0 ∧ offset h.base / 2 ^ 57 ≠ 0) then .fails 4
    else if baseOffset h.base % (if t.isRec then 16 else u) ≠ 0 then .fails 5
    else if (List.finRange 4).any fun d => w.w[d] = 0 || (d.val < h.rank && h.ext[d] = 0) then .nothing
    else if !h.anyIn w then .moves
    else
      let ds := (List.finRange 4).filter fun d => d.val < h.rank
      let term (d : Fin 4) : Int × Int :=
        let (lo, n) := h.span w d
        let a := (u : Int) * lo * h.str[d]
        let b := (u : Int) * (lo + n - 1) * h.str[d]
        (min a b, max a b)
      let low := ds.foldl (fun (a : Int) d => a + (term d).1) (baseOffset h.base : Int)
      let high := ds.foldl (fun (a : Int) d => a + (term d).2) (baseOffset h.base : Int)
      if ds.any fun d => (term d).1.natAbs ≥ 2 ^ 63 || (term d).2.natAbs ≥ 2 ^ 63 then .fails 7
      else if low < 0 ∨ high + u > s.spaceSize h.base then .fails 8
      else if dest ∧ ¬ h.apart w u then .fails 9
      else .moves

/-- The address of a window unit by its indices, or nothing when it is clipped (R50, R52). -/
def Shape.unitAddr (h : Shape) (w : Win) (i : Fin 4 → Nat) : Option Int :=
  let ds := (List.finRange 4).filter fun d => d.val < h.rank
  if ds.all fun d => 0 ≤ w.o[d] + (i d : Int) && w.o[d] + (i d : Int) < h.ext[d] then
    Option.some (ds.foldl (fun a d => a + ((h.ty.getD .n8).size : Int) * (w.o[d] + (i d : Int)) * h.str[d])
      (baseOffset h.base : Int))
  else none

/-- The units of a window, dimension 0 fastest, over dimensions 0 and 1 (the others have size 1). -/
def Shape.units (h : Shape) (w : Win) : List (Option Int) :=
  (List.range w.w[1]).flatMap fun j => (List.range w.w[0]).map fun i =>
    h.unitAddr w fun d => if d = 0 then i else if d = 1 then j else 0

/-- The bytes that stand in a clipped unit (R48). -/
def Shape.padUnit (h : Shape) : List Byte :=
  match h.ty with
  | none => []
  | Option.some t =>
    if t.isRec then
      let e := if t = .mx4 then h.pad / 256 % 16 * 17 else h.pad / 256 % 256
      leBytes 1 h.pad ++ List.replicate (t.size - 1) (BitVec.ofNat 8 e)
    else if t = .s64 then leBytes 8 ((BitVec.ofNat 32 h.pad).signExtend 64).toNat
    else leBytes t.size (h.pad % 2 ^ 32)

/-- The record at an address, when row 1 of R51 holds: tag 0x8, a multiple of 64, within the share. -/
def Core.shapeAt (c : Core) (a : Word) : Option (List Byte) :=
  if a.toNat % 64 = 0 then (c.inShare a 64).map fun o => c.shareRead o 64 else none

/-- The record at an address reads poison (R382): the core that reads it at issue consumes the error. -/
def Core.recordBad (c : Core) (a : Word) : Bool := c.sharePoisoned (offset a) 64

/-- Where a unit of a base's space lies. -/
def State.unitSpace (s : State) (base : Word) (a : Int) : Space :=
  let n := a.toNat
  if tag base = 0 then .glob n else if tag base = 8 then .share n else if tag base = 9 then .win n
  else .glob ((s.context s.core.ctx).spill + n)

end Sys2Proof.Machine
end

