-- ==== Sys2Proof/Machine/Control.lean ====
section
/-! DEFINITION. The control family: transfers, loops, phases, chains, `XFER`, `DONE` and `EXIT` (04_stream.md R67 to
R89). -/

namespace Sys2Proof.Machine

/-- `ILL`: the illegal-instruction trap with its 23-bit code (R44, R357). -/
def execIll (code : BitVec 23) (s : State) : Out := .next (s.raise 0x01 0 code.toNat 0)

/-- One slot of a `NOP #n` of which `left` slots are still to run: the last one retires it (R63, R78). -/
def State.nopSlot (s : State) (left : Nat) : State :=
  if left ≤ 1 then (s.upd fun c => { c with nopLeft := 0 }).retire
  else s.upd fun c => { c.tick with nopLeft := left - 1, waiting := false }

/-- `NOP #(n + 1)` occupies n + 1 slots (R46, R63). -/
def execNop (n : Fin 2048) (s : State) : Out := .next (s.nopSlot (n.val + 1))

/-- A displacement in words from the instruction's address (R72). -/
def Core.target {w : Nat} (c : Core) (disp : BitVec w) : Word := c.pc + 4 * sx disp

/-- A taken `BR`, `BC`, `BCMP`, `JR` or `RET`: loops whose bodies do not hold the target end (R76). -/
def State.jump (s : State) (t : Word) : State := (s.upd fun c => if c.leads then c.leaveLoops t else c).transfer t

/-- `BR` (R72). -/
def execBr (disp : BitVec 17) (s : State) : Out := .next (s.jump (s.core.target disp))
/-- `BR` to an absolute target (R72). -/
def execBrAbsolute (t : Word) (s : State) : Out := .next (s.jump t)

/-- The quantified condition on the leader's rows (R72). -/
def quant (q : Quant) (m : Mask) (rows : Nat) : Bool :=
  let low := m.toNat % 2 ^ rows
  match q with
  | .any => low ≠ 0
  | .all => low = 2 ^ rows - 1
  | .none => low = 0

/-- Rows of `%vs` (R55). -/
def Core.rows (c : Core) : Nat := fld c.vs.toNat 0 6
/-- Columns of `%vs`. -/
def Core.cols (c : Core) : Nat := fld c.vs.toNat 16 11
/-- The type code of `%vs`. -/
def Core.tyCode (c : Core) : Nat := fld c.vs.toNat 32 5

/-- What a condition reads: it is evaluated in the leader alone (R13). -/
def Core.leadReads (c : Core) (r : Regs) : Regs := if c.leads then r else {}

/-- `BC` (R72). -/
def execBc (q : Quant) (p : PReg) (disp : BitVec 17) (s : State) : Out :=
  issue (s.core.leadReads { p := [p] }) {} s fun s =>
    if quant q (s.core.rp p) s.core.rows then .next (s.jump (s.core.target disp)) else .next s.retire

/-- The integer conditions (R71, R127). -/
def icond (c : ICond) (a b : Word) : Bool :=
  match c with
  | .eq => a = b
  | .ne => a ≠ b
  | .lt => a.slt b
  | .ge => !a.slt b
  | .ltu => a.ult b
  | .geu => !a.ult b

/-- `BCMP` (R72). -/
def execBcmp (c : ICond) (a b : XReg) (disp : BitVec 32) (s : State) : Out :=
  issue (s.core.leadReads { x := [a, b] }) {} s fun s =>
    if icond c (s.core.rx a) (s.core.rx b) then .next (s.jump (s.core.target disp)) else .next s.retire

/-- `JR` (R72). -/
def execJr (a : XReg) (s : State) : Out :=
  issue (s.core.leadReads { x := [a] }) {} s fun s => .next (s.jump (s.core.rx a))
/-- `RET` (R72): as `JR` but for a hint. -/
def execRet (a : XReg) (s : State) : Out :=
  issue (s.core.leadReads { x := [a] }) {} s fun s => .next (s.jump (s.core.rx a))

/-- A call: `x63` receives the address after it, and every loop stays active (R72, R76). -/
def State.call (s : State) (t : Word) : Out :=
  issue {} { x := [63] } s fun s => .next ((s.upd fun c => c.pendX 1 63 c.npc).transfer t)
/-- `CALL` (R72). -/
def execCall (disp : BitVec 17) (s : State) : Out := s.call (s.core.target disp)
/-- `CALL` to an absolute target (R72). -/
def execCallAbsolute (t : Word) (s : State) : Out := s.call t

/-- Opens a loop, in the leader (R73). -/
def State.openLoop (s : State) (op : Nat) (l : Level) (e : Nat) (cnt : Word) : Out :=
  if s.core.loops[l].active then s.illegal op
  else if cnt.toNat ≥ 2 ^ 32 then s.illegal op
  else
    let E := s.core.pc + BitVec.ofNat 64 (4 * e)
    match s.enter E with
    | .wait s => .next s.freeze
    | .fault s cause a i0 i1 => .next (s.raise cause a i0 i1)
    | .ok s _ =>
      if s.core.loops.any fun q => q.active && q.stop < E then s.illegal op
      else if cnt = 0 then .next (s.transfer E)
      else
        let q (c : Core) : LoopLevel :=
          { cnt := cnt.truncate 32, active := true, start := c.npc, stop := E
            depth := c.loops.toList.foldl (fun m q => if q.active then max m (q.depth + 1) else m) 0 }
        .next (s.upd fun c => { c with loops := c.loops.set l (q c) }).retire

/-- `LOOP` (R73). -/
def execLoop (l : Level) (e : Fin 2048) (count : BitVec 32) (s : State) : Out :=
  if s.core.leads then s.openLoop 0x08 l e.val (count.setWidth 64) else .next s.retire
/-- `LOOPR` (R73). -/
def execLoopr (l : Level) (a : XReg) (e : Fin 2048) (s : State) : Out :=
  if s.core.leads then issue { x := [a] } {} s fun s => s.openLoop 0x09 l e.val (s.core.rx a) else .next s.retire

/-- `LOOP_BACK_EDGE`: sequential flow from the last instruction of a body (R74). A core that stands at no such place goes
on as it stands. -/
def execLoopBackEdge (s : State) : Out :=
  match s.core.backEdge s.core.npc with
  | none => .next s
  | some _ =>
    .next (s.upd fun c => let (d, e) := c.flow 4 c.npc; { d with gap := s.edgeGap e })

/-- `LBRK` (R75). -/
def execLbrk (l : Level) (q : Quant) (p : PReg) (s : State) : Out :=
  if !s.core.leads then .next s.retire
  else
    issue { p := [p] } {} s fun s =>
      if !s.core.loops[l].active then s.illegal 0x0A
      else if quant q (s.core.rp p) s.core.rows then
        let e := s.core.loops[l].stop
        .next ((s.upd fun c => c.breakLoop c.loops[l]).transfer e)
      else .next s.retire

/-- `PHASE.x` (R67). -/
def execPhaseX (s : State) : Out := .next (s.upd fun c => { c with phase := .exchange }).retire

/-- A result is pending on a scalar, vector or predicate register (R67). -/
def Core.anyResult (c : Core) : Bool :=
  c.late ≠ [] || c.pend.any fun p => p.arr.isNone && (match p.land with | .x _ _ | .v _ _ _ | .p _ _ => true | _ => false)

/-- `PHASE.c`: it waits until every pending result is readable (R67). -/
def execPhaseC (s : State) : Out :=
  if s.core.anyResult then
    .next (if s.agenda = [] then s.upd fun c => { c.landLate.advance with waiting := true, frozen := false } else s.wait)
  else .next (s.upd fun c => { c with phase := .compute }).retire

/-! Chains. -/

/-- A core on its own: a chain of one with its own fetch unit (R85). -/
def ChainInfo.alone (c : ChainInfo) (id : Nat) : ChainInfo :=
  { leader := id, rows := 1, cols := 1, r := 0, c := 0, number := c.number }

/-- `CHAIN.leave` (R85, R87, R362). -/
def execChainLeave (s : State) : Out :=
  if s.core.frame.isSome ∨ (s.core.leads ∧ s.core.loops.any LoopLevel.active) then s.illegal 0x0C
  else s.classX 0x0C fun s =>
    if s.core.members = 1 then .next s.retire
    else .next (s.upd fun c => { c with chain := c.chain.alone c.id, pc := c.pc, feed := [] }).retire

/-- The tile of a core in its task's rectangle (R86): its leader and the members' numbers. -/
def TaskRect.tile (t : TaskRect) (h w : Nat) : Nat × List Nat :=
  let lead := t.origin + 32 * (h * (t.i / h)) + w * (t.j / w)
  (lead, (List.range h).flatMap fun r => (List.range w).map fun k => lead + 32 * r + k)

/-- How `CHAIN.form` codes the shape that a core waits with. -/
def formCode (h w : Nat) : Nat := 2 ^ 40 + 64 * h + w

/-- The mark of a core that waits in `CHAIN.form` and whose tile has met another shape (R87). -/
def formBad : Nat := 2 ^ 41

/-- The tile becomes one chain at slot 0 of a new stream (R86); its members take their leader's `%dom` (R17). -/
def State.formChain (s : State) (h w : Nat) : State :=
  let (lead, ids) := s.core.rect.tile h w
  let dom := (s.coreAt lead).dom
  ids.foldl (fun s n => s.modCore n fun c =>
    let c := { c.tick with retired := c.retired + 1, waiting := false, skewWait := false, arrived := false, stage := 0 }
    let r := rowOf n - rowOf lead
    let k := colOf n - colOf lead
    { c with
      chain := { leader := lead, rows := h, cols := w, r := r, c := k, number := c.chain.number }, dom := dom
      slot := 0, clk := 0, feed := [], gap := 0, pc := if n = lead then c.npc else c.pc, phase := .exchange
      pend := c.pend.map fun (p : Pend) => { p with slot := 0 } }) s

/-- The tile that a core waits with in `CHAIN.form`. -/
def Core.formTile (c : Core) : List Nat :=
  if c.arrived ∧ 2 ^ 40 ≤ c.stage ∧ c.stage < formBad then (c.rect.tile ((c.stage - 2 ^ 40) / 64) (c.stage % 64)).2 else []
/-- The cores of the task that wait with another shape in a tile of the core's own: they trap in their next cycle (R87). -/
def State.spoilForms (s : State) (h w : Nat) : State :=
  let c := s.core
  let ids := (List.range c.rect.rows).flatMap fun i => (List.range c.rect.cols).map fun j => c.rect.origin + 32 * i + j
  ids.foldl (fun s n =>
    let d := s.coreAt n
    if n ≠ c.id ∧ d.role = .running ∧ d.task = c.task ∧ d.stage ≠ formCode h w ∧ d.formTile.contains c.id then
      s.modCore n fun d => { d with stage := formBad } else s) s

/-- `CHAIN.form` (R86, R87, R405). A core that meets another shape in its tile traps, and so does each core that waits in a tile with
it, in its next cycle. One that is stopped for a save has not ended. -/
def execChainForm (rows : Fin 8) (cols : Fin 32) (s : State) : Out :=
  let h := rows.val + 1
  let w := cols.val + 1
  let c := s.core
  if c.frame.isSome ∨ (c.leads ∧ c.loops.any LoopLevel.active) ∨ c.rect.rows % h ≠ 0 ∨ c.rect.cols % w ≠ 0 then
    s.illegal 0x0C
  else
    let (_, ids) := c.rect.tile h w
    let others := (ids.filter (· ≠ c.id)).map s.coreAt
    if c.stage = formBad || others.any fun d =>
        d.role = .idle || d.task ≠ c.task || (d.arrived && d.stage ≥ 2 ^ 40 && d.stage ≠ formCode h w) then
      ((others.filter fun d => d.role = .running && d.arrived && decide (2 ^ 40 ≤ d.stage)).foldl (fun s d =>
        s.modCore d.id fun d => { d with stage := formBad }) s).illegal 0x0C
    else s.classX 0x0C fun s =>
    let s := s.spoilForms h w
    if others.all fun d => d.arrived && d.stage = formCode h w then .next (s.formChain h w)
    else
      let s := s.upd fun c => { c.waits with arrived := true, stage := formCode h w }
      let late := (c.chain.ids.filter (· ≠ c.id)).any fun n => (s.coreAt n).stage ≠ formCode h w
      .next (s.upd fun c => { c with skewWait := late })

/-! `XFER` (R82). -/

/-- The chain member next to a core in a direction. -/
def Core.nextInChain (c : Core) (d : Dir) : Option Nat :=
  let (r, k) := (c.chain.r, c.chain.c)
  match d with
  | .e => if k + 1 < c.chain.cols then some (c.id + 1) else none
  | .w => if k > 0 then some (c.id - 1) else none
  | .s => if r + 1 < c.chain.rows then some (c.id + 32) else none
  | .n => if r > 0 then some (c.id - 32) else none

/-- Slots from the sender's issue to the arrival (R82). -/
def xferSlots : Dir → Nat
  | .e | .s => 1
  | .w | .n => 4

/-- A value on its way to the neighbour's register: it lands at the neighbour's slot k + 1 or k + 4 (R82). -/
def State.send (s : State) (d : Dir) (l : Landing) (bad : Bool) : State :=
  match s.core.nextInChain d with
  | none => s
  | some n =>
    let k := s.core.slot
    s.modCore n fun c =>
      let p : Pend := { left := k + xferSlots d - c.slot, slot := k, arr := some d, land := l, poison := bad }
      { c with pend := pendInsert p c.pend }

/-- `XFER` of a value (R82, R362). -/
def State.xfer (s : State) (d : Dir) (l : Landing) : Out :=
  if s.core.frame.isSome ∧ (s.core.nextInChain d).isSome then s.illegal 0x0D
  else .next (s.send d l false).retire

/-- `XFER` of a vector (R82). -/
def execXferVector (dir : Dir) (d a : VReg) (s : State) : Out :=
  reads { v := [a] } s fun s => s.xfer dir (.v d (s.core.rv a) (BitVec.allOnes 8192))
/-- `XFER` of a scalar (R82). -/
def execXferScalar (dir : Dir) (d a : XReg) (s : State) : Out :=
  reads { x := [a] } s fun s => if d = 0 then .next s.retire else s.xfer dir (.x d (s.core.rx a))

/-- `XFER_ARRIVAL`: the arrivals whose slot has come land (R82, R83). -/
def execXferArrival (s : State) : Out := .next (s.upd Core.landDue)

/-! Ending a task. -/

/-- The unmatched posted receives complete with stamp 0x81 (R251). -/
def Core.dropReceives (c : Core) : Core :=
  c.ctl.slots.foldl (fun c e => c.stamp e.2.stamp 0x81 0 e.2.seq.toNat) { c with ctl := { c.ctl with slots := [] } }

/-- The core still has commands or stores of its own to wait for (R88). -/
def State.busy (s : State) (n : Nat) : Bool :=
  let c := s.coreAt n
  c.engine ≠ [] || c.matrix ≠ [] || (s.stack.any fun k => k.core = n && k.launch = c.launch) ||
    (s.drains.any fun d => d.core = n && d.launch = c.launch) ||
    c.pend.any fun p => match p.land with | .store _ _ _ | .heap _ _ _ => true | _ => false

/-- A cycle of the wait of `DONE`: stores in flight come nearer too, so that the wait ends (R88; log 16). -/
def Core.drains (c : Core) : Core :=
  { Core.landDue { c with pend := c.pend.map fun (p : Pend) => if p.arr.isNone then { p with left := p.left - 1 } else p } with
    waiting := true, frozen := false, stage := endStage }

/-- The core's part in the task ends (R88, R239, R311): the arrivals that it has taken land, its pins are released, its accesses are performed, and it goes back to
the scheduler. -/
def State.leave (s : State) (n : Nat) : State :=
  let lid := (s.coreAt n).launch.toNat
  let s := (s.landTaken n).releasePins n
  let s := s.fullFence n 3
  let s := s.modCore n fun c => { c.release with retired := c.retired + 1 }
  s.endPart lid n

/-- The launch ends early: what has not started is discarded, and the first code is kept (R89). -/
def State.exitLaunch (s : State) (lid code : Nat) : State :=
  (s.modLaunch lid fun l =>
    if l.exited then l
    else
      let l := { l with exited := true, code := code }
      l.ready.foldl (fun l t => l.discard t false) { l with ready := [] }).closeSource lid

/-- `DONE` and `EXIT`: the core waits for its commands and stores, then ends its part; in a handler the task ends for
every member of the chain, when what each has issued is complete (R88, R89, R213, R362). -/
def State.finish (s : State) (op : Nat) (code : Option Nat) : Out :=
  s.classX op fun s =>
    let ids := if s.core.frame.isSome then s.mates s.core else [s.core.id]
    let s := ids.foldl (fun s n => s.modCore n Core.dropReceives) s
    if ids.any s.busy then .next (ids.foldl (fun s n => s.modCore n Core.drains) s)
    else
      let lid := s.core.launch.toNat
      let s := match code with
        | some k => if s.core.leads then s.exitLaunch lid k else s
        | none => s
      .next (ids.foldl State.leave s)

/-- `DONE` (R88). -/
def execDone (s : State) : Out := s.finish 0x0E none
/-- `EXIT` (R89). -/
def execExit (a : XReg) (s : State) : Out :=
  issue (s.core.leadReads { x := [a] }) {} s fun s => s.finish 0x0F (some ((s.core.rx a).toNat % 256))

end Sys2Proof.Machine
end

