-- ==== Sys2Proof/Machine/Round.lean ====
section
/-! DEFINITION. Number formats, exact values and rounding (05_numbers.md R94 to R98, R103 to R116). An exact value is a
signed fraction; every result is rounded once from it. -/

namespace Sys2Proof.Machine

/-- An exact operand or result: NaN, an infinity, or a finite value of magnitude `n / d` with its sign; zero carries a
sign (R97). -/
inductive Num where
  | nan
  | inf (neg : Bool)
  | fin (neg : Bool) (n d : Nat)
  deriving DecidableEq, Repr

/-- Positive zero. -/
def Num.zero : Num := .fin false 0 1

/-- The magnitude `m * 2^e`. -/
def Num.dy (neg : Bool) (m : Nat) (e : Int) : Num :=
  match e with
  | .ofNat k => .fin neg (m * 2 ^ k) 1
  | .negSucc k => .fin neg m (2 ^ (k + 1))

/-- A signed integer as an exact value. -/
def Num.ofInt (v : Int) : Num := .fin (v < 0) v.natAbs 1

/-- What a binary format does beyond its largest finite magnitude (R108, R113, R116). -/
inductive OvKind where
  | ieee   -- R108: by the mode, to an infinity or the largest finite
  | sat    -- R116: to the largest finite in every mode
  deriving DecidableEq, Repr

/-- The parameters of a binary floating format (R95). -/
structure Fmt where
  eb     : Nat        -- exponent bits
  fb     : Nat        -- fraction bits
  bias   : Nat
  maxCode : Nat       -- magnitude bits of the largest finite value
  infs   : Bool       -- the format has infinities
  nans   : Bool       -- the format has NaNs
  canon  : Nat        -- the canonical NaN
  ov     : OvKind
  deriving DecidableEq, Repr

/-- R95. -/
def fmtF32 : Fmt := ⟨8, 23, 127, 0x7F7FFFFF, true, true, 0x7FC00000, .ieee⟩
/-- R95. -/
def fmtBf16 : Fmt := ⟨8, 7, 127, 0x7F7F, true, true, 0x7FC0, .ieee⟩
/-- R95. -/
def fmtF16 : Fmt := ⟨5, 10, 15, 0x7BFF, true, true, 0x7E00, .ieee⟩
/-- R95; overflow saturates (R116). -/
def fmtE4m3 : Fmt := ⟨4, 3, 7, 0x7E, false, true, 0x7F, .sat⟩
/-- R95; overflow saturates (R116). -/
def fmtE5m2 : Fmt := ⟨5, 2, 15, 0x7B, true, true, 0x7E, .sat⟩
/-- The mx6 element (R95). -/
def fmtE3m2 : Fmt := ⟨3, 2, 3, 0x1F, false, false, 0, .sat⟩
/-- The mx6a element (R95). -/
def fmtE2m3 : Fmt := ⟨2, 3, 1, 0x1F, false, false, 0, .sat⟩
/-- The mx4 element (R95). -/
def fmtE2m1 : Fmt := ⟨2, 1, 1, 0x7, false, false, 0, .sat⟩

/-- The sign bit's place. -/
def Fmt.signBit (f : Fmt) : Nat := 2 ^ (f.eb + f.fb)

/-- A code with its sign. -/
def Fmt.withSign (f : Fmt) (neg : Bool) (code : Nat) : Nat := if neg then f.signBit + code else code

/-- The infinity's magnitude bits. -/
def Fmt.infCode (f : Fmt) : Nat := (2 ^ f.eb - 1) * 2 ^ f.fb

/-- The value of a word of a binary format (R95, R96). -/
def Fmt.value (f : Fmt) (w : Nat) : Num :=
  let neg := w / f.signBit % 2 = 1
  let mag := w % f.signBit
  let e := mag / 2 ^ f.fb
  let fr := mag % 2 ^ f.fb
  if f.nans && (if f.infs then e = 2 ^ f.eb - 1 && fr != 0 else mag = f.canon % f.signBit) then .nan
  else if f.infs && mag = f.infCode then .inf neg
  else if e = 0 then Num.dy neg fr (1 - (f.bias : Int) - f.fb)
  else Num.dy neg (2 ^ f.fb + fr) ((e : Int) - f.bias - f.fb)

/-- `floor (log2 (n / d))` for a positive fraction. -/
def log2Frac (n d : Nat) : Int :=
  let k : Int := (n.log2 : Int) - d.log2
  -- 2^k ≤ n/d, or one less
  let ge : Bool := match k with
    | .ofNat j => d * 2 ^ j ≤ n
    | .negSucc j => d ≤ n * 2 ^ (j + 1)
  if ge then k else k - 1

/-- Whether the value between grid points, the lower one `k` times the step and the rest `r / s` of a step, goes up
(R107, R111). `odd` is the parity of the lower neighbour's last bit. -/
def goesUp (mode : Mode) (neg odd : Bool) (r s rnd : Nat) : Bool :=
  match mode with
  | .rne => 2 * r > s || (2 * r = s && odd)
  | .rtz => false
  | .rdn => neg
  | .rup => !neg
  | .sr => r * 2 ^ 24 / s + rnd ≥ 2 ^ 24

/-- The number of steps `2^q` in `n / d`, and the rest as a fraction of a step: quotient, remainder, divisor. -/
def stepsOf (n d : Nat) (q : Int) : Nat × Nat × Nat :=
  match q with
  | .ofNat j => (n / (d * 2 ^ j), n % (d * 2 ^ j), d * 2 ^ j)
  | .negSucc j => (n * 2 ^ (j + 1) / d, n * 2 ^ (j + 1) % d, d)

/-- The steps of `2^q` that the rounding of `n / d` gives, and whether it was exact. -/
def roundSteps (mode : Mode) (neg : Bool) (n d : Nat) (q : Int) (rnd : Nat) : Nat × Bool :=
  let (k, r, s) := stepsOf n d q
  if r = 0 then (k, true) else (if goesUp mode neg (k % 2 = 1) r s rnd then k + 1 else k, false)

/-- What a binary format delivers beyond its largest finite magnitude (R108, R116). -/
def Fmt.overflow (f : Fmt) (mode : Mode) (neg : Bool) : Nat × Flags :=
  match f.ov with
  | .sat => (f.withSign neg f.maxCode, fOvIxSat)
  | .ieee =>
    let toMax := match mode with | .rtz => true | .rdn => !neg | .rup => neg | _ => false
    (f.withSign neg (if toMax then f.maxCode else f.infCode), fOvIx)

/-- Rounds a positive magnitude `n / d` with its sign into a binary format (R107 to R109, R116). -/
def Fmt.roundMag (f : Fmt) (mode : Mode) (neg : Bool) (n d rnd : Nat) : Nat × Flags :=
  let emin : Int := 1 - (f.bias : Int)
  let e := log2Frac n d
  let e' := if e < emin then emin else e
  let (k, exact) := roundSteps mode neg n d (e' - f.fb) rnd
  -- magnitude bits, with the carry into the exponent
  let code := (e' + f.bias - 1).toNat * 2 ^ f.fb + k
  if code > f.maxCode then f.overflow mode neg
  else
    let tiny := e < emin && (roundSteps mode neg n d (e - f.fb) rnd).1 < 2 ^ (f.fb + (emin - e).toNat)
    (f.withSign neg code, flagIf (!exact) fInexact ||| flagIf (tiny && !exact) fUnderflow)

/-- Rounds an exact value into f32, bf16, f16, e4m3, e5m2 or an MX element (R97, R107 to R109, R113, R116). -/
def Fmt.round (f : Fmt) (mode : Mode) (rnd : Nat) : Num → Nat × Flags
  | .nan => (f.canon, 0)
  | .inf neg => if f.infs then (f.withSign neg f.infCode, 0) else (f.withSign neg f.maxCode, fSaturation)
  | .fin neg n d => if n = 0 then (f.withSign neg 0, 0) else f.roundMag mode neg n d rnd

/-! d8 (R103 to R105). -/

/-- `10^e` as a fraction. -/
def pow10 (e : Int) : Nat × Nat :=
  match e with | .ofNat k => (10 ^ k, 1) | .negSucc k => (1, 10 ^ (k + 1))

/-- The magnitude of the d8 byte bits 6 to 0, a positive `m` (R103). -/
def d8Mag (m : Nat) : Nat × Nat :=
  let v (wf : Nat) (base : Int) : Nat × Nat :=
    let low := m % 2 ^ m.log2                       -- the bits below the marker
    let p := pow10 (base + (low / 2 ^ wf : Nat))
    ((2 ^ wf + 9 * (low % 2 ^ wf)) * p.1, 2 ^ wf * p.2)
  match m.log2 with
  | 6 => v 5 0 | 5 => v 3 (-4) | 4 => v 1 (-12) | 3 => v 0 (-20) | 2 => v 0 (-24) | 1 => v 0 (-26) | _ => v 0 (-27)

/-- The exact value of a d8 byte on the decimal grid (R103). -/
def d8Exact (b : Nat) : Num :=
  if b % 128 = 0 then (if b / 128 % 2 = 1 then .nan else .zero)
  else .fin (b / 128 % 2 = 1) (d8Mag (b % 128)).1 (d8Mag (b % 128)).2

/-- The bf16 value through which every unit reads a d8 operand (R104). -/
def d8Read (b : Nat) : Num := fmtBf16.value (fmtBf16.round .rne 0 (d8Exact b)).1

/-- The largest d8 magnitude index not above `n / d`, by halving. -/
def d8Floor (n d : Nat) : Nat → Nat → Nat
  | 0, lo => lo
  | fuel + 1, lo =>
    let m := lo + 2 ^ fuel
    if m ≤ 127 && (d8Mag m).1 * d ≤ n * (d8Mag m).2 then d8Floor n d fuel m else d8Floor n d fuel lo

/-- Rounds an exact value into d8 (R105, R107, R111). Underflow goes by the exact value (R117; log 62). -/
def d8Round (mode : Mode) (rnd : Nat) : Num → Nat × Flags
  | .nan => (0x80, 0)
  | .inf neg => (if neg then 0xFF else 0x7F, fOvIxSat)
  | .fin neg n d =>
    let sg (m : Nat) : Nat := if m = 0 then 0 else if neg then 128 + m else m
    let (mn, md) := d8Mag 127
    if n = 0 then (0, 0)
    else if n * md ≥ mn * d then (sg 127, flagIf (n * md > mn * d) fOvIxSat)
    else
      let a := d8Floor n d 7 0
      let (an, ad) := if a = 0 then (0, 1) else d8Mag a
      let (bn, bd) := d8Mag (a + 1)
      -- (x - a) / (b - a) as a fraction over n d, a, b
      let r := (n * ad - an * d) * bd
      let s := (bn * ad - an * bd) * d
      if r = 0 then (sg a, 0)
      else
        let m := if goesUp mode neg (a % 2 = 1) r s rnd then a + 1 else a
        (sg m, fInexact ||| flagIf (a = 0) fUnderflow)

/-! Types. -/

/-- Width in bits of an element type. -/
def tyBits (t : Ty) : Nat := 8 * t.size

/-- The integer that the low bits of a word hold, by the type's signedness (R94). -/
def intVal (t : Ty) (w : Nat) : Int :=
  let m := w % 2 ^ tyBits t
  if t.isSigned && 2 * m ≥ 2 ^ tyBits t then (m : Int) - 2 ^ tyBits t else m

/-- The least value of an integer type (R94). -/
def intMin (t : Ty) : Int := if t.isSigned then -(2 ^ (tyBits t - 1)) else 0
/-- The greatest value of an integer type (R94). -/
def intMax (t : Ty) : Int := if t.isSigned then 2 ^ (tyBits t - 1) - 1 else 2 ^ tyBits t - 1

/-- An integer's bits in a type, modulo its width (R94). -/
def intBits (t : Ty) (v : Int) : Nat := (v % (2 ^ tyBits t : Int)).toNat

/-- An integer clamped to a type, and whether it was (R94). -/
def intClamp (t : Ty) (v : Int) : Int × Bool :=
  if v < intMin t then (intMin t, true) else if v > intMax t then (intMax t, true) else (v, false)

/-- The binary format of a floating type; f32 for the others. -/
def fmtOf : Ty → Fmt
  | .bf16 => fmtBf16 | .f16 => fmtF16 | .e4m3 => fmtE4m3 | .e5m2 => fmtE5m2 | _ => fmtF32

/-- The exact value of an element (R94, R96, R104). -/
def tyValue (t : Ty) (w : Nat) : Num :=
  if t.isInt then Num.ofInt (intVal t w)
  else if t = .d8 then d8Read (w % 256)
  else (fmtOf t).value (w % 2 ^ tyBits t)

/-- Rounds an exact value into a floating or d8 element (R105, R113). -/
def tyRound (t : Ty) (mode : Mode) (rnd : Nat) (v : Num) : Nat × Flags :=
  if t = .d8 then d8Round mode rnd v else (fmtOf t).round mode rnd v

/-- A float rounded to an integer of its sign: the magnitude, and whether it was exact (R113, R115). -/
def toIntegral (mode : Mode) (neg : Bool) (n d rnd : Nat) : Nat × Bool := roundSteps mode neg n d 0 rnd

/-- Conversion into an integer type (R113, R115). -/
def tyToInt (t : Ty) (mode : Mode) (rnd : Nat) : Num → Nat × Flags
  | .nan => (0, fInvalid)
  | .inf neg => (intBits t (if neg then intMin t else intMax t), fInvSat)
  | .fin neg n d =>
    let (k, exact) := toIntegral mode neg n d rnd
    let v : Int := if neg then -(k : Int) else k
    let (c, clamped) := intClamp t v
    (intBits t c, if clamped then fInvSat else flagIf (!exact) fInexact)

/-- The canonical NaN of a floating type (R95). -/
def canonNaN (t : Ty) : Nat := if t = .d8 then 0x80 else (fmtOf t).canon

/-- A conversion between element types, with the saturating form of integer to integer (R113, R136, R155). -/
def convert (target source : Ty) (sat : Bool) (mode : Mode) (rnd w : Nat) : Nat × Flags :=
  if target = source then
    if target.isInt || target = .d8 then (w % 2 ^ tyBits target, 0)
    else match tyValue target w with
      | .nan => (canonNaN target, 0)
      | _ => (w % 2 ^ tyBits target, 0)
  else if target.isInt && source.isInt then
    let v := intVal source w
    if sat then
      let (c, clamped) := intClamp target v
      (intBits target c, flagIf clamped fSaturation)
    else (intBits target v, 0)
  else if target.isInt then tyToInt target mode rnd (tyValue source w)
  else tyRound target mode rnd (tyValue source w)

/-! The stochastic generator (R110). -/

/-- R110. -/
def mix64 (z : BitVec 64) : BitVec 64 :=
  let z := (z ^^^ (z >>> 30)) * 0xBF58476D1CE4E5B9#64
  let z := (z ^^^ (z >>> 27)) * 0x94D049BB133111EB#64
  z ^^^ (z >>> 31)

/-- R110. -/
def srDraw (seed : BitVec 64) (row idx : Nat) : Nat :=
  (mix64 (seed + 0x9E3779B97F4A7C15#64 * BitVec.ofNat 64 (row * 2 ^ 16 + idx + 1))).toNat / 2 ^ 40

/-- The number that a rounding draws: one of the generator under SR, none otherwise (R110). -/
def drawFor (mode : Mode) (seed : BitVec 64) (row idx : Nat) : Nat :=
  match mode with | .sr => srDraw seed row idx | _ => 0

/-- The advance of `%srseed` (R112). -/
def seedNext (seed : BitVec 64) : BitVec 64 := seed + 0xD1B54A32D192ED03#64

/-! Exact arithmetic. -/

/-- The sign of a value. -/
def Num.neg? : Num → Bool
  | .nan => false | .inf s => s | .fin s _ _ => s

/-- Sign inversion. -/
def Num.negate : Num → Num
  | .nan => .nan | .inf s => .inf !s | .fin s n d => .fin (!s) n d

/-- A finite value. -/
def Num.isFin : Num → Bool
  | .fin _ _ _ => true | _ => false

/-- NaN. -/
def Num.isNan : Num → Bool
  | .nan => true | _ => false

/-- Zero of either sign. -/
def Num.isZero : Num → Bool
  | .fin _ n _ => n = 0 | _ => false

/-- Signed sum of two finite values; the sign of an exact zero follows R97. -/
def addFin (mode : Mode) (s1 : Bool) (n1 d1 : Nat) (s2 : Bool) (n2 d2 : Nat) : Num :=
  let (a, b, d) :=
    if d1 % d2 = 0 then (n1, n2 * (d1 / d2), d1)
    else if d2 % d1 = 0 then (n1 * (d2 / d1), n2, d2)
    else (n1 * d2, n2 * d1, d1 * d2)
  if s1 = s2 then .fin s1 (a + b) d
  else if a = b then .fin (mode = .rdn) 0 1
  else if b < a then .fin s1 (a - b) d
  else .fin s2 (b - a) d

/-- The exact sum, and the invalid flag of ∞ − ∞ (R97). -/
def Num.add (mode : Mode) : Num → Num → Num × Flags
  | .nan, _ => (.nan, 0)
  | _, .nan => (.nan, 0)
  | .inf s, .inf t => if s = t then (.inf s, 0) else (.nan, fInvalid)
  | .inf s, _ => (.inf s, 0)
  | _, .inf s => (.inf s, 0)
  | .fin s n d, .fin t m e => (addFin mode s n d t m e, 0)

/-- The exact product, and the invalid flag of 0 × ∞ (R97). -/
def Num.mul : Num → Num → Num × Flags
  | .nan, _ => (.nan, 0)
  | _, .nan => (.nan, 0)
  | .inf s, b => if b.isZero then (.nan, fInvalid) else (.inf (s != b.neg?), 0)
  | a, .inf s => if a.isZero then (.nan, fInvalid) else (.inf (s != a.neg?), 0)
  | .fin s n d, .fin t m e => (.fin (s != t) (n * m) (d * e), 0)

/-- The exact quotient, and its flags (R97, R134). -/
def Num.div : Num → Num → Num × Flags
  | .nan, _ => (.nan, 0)
  | _, .nan => (.nan, 0)
  | .inf _, .inf _ => (.nan, fInvalid)
  | .inf s, b => (.inf (s != b.neg?), 0)
  | a, .inf s => (.fin (s != a.neg?) 0 1, 0)
  | .fin s n d, .fin t m e =>
    if m = 0 then (if n = 0 then (.nan, fInvalid) else (.inf (s != t), fDivZero))
    else if n = 0 then (.fin (s != t) 0 1, 0)
    else (.fin (s != t) (n * e) (d * m), 0)

/-- A fused product and sum; 0 × ∞ is invalid even when the addend is NaN (R135). -/
def Num.fma (mode : Mode) (neg sub : Bool) (a b c : Num) : Num × Flags :=
  let (p, f) := a.mul b
  let p := if neg then p.negate else p
  let c := if sub then c.negate else c
  if f != 0 then (.nan, f) else p.add mode c

/-- Comparison of two finite or infinite values: less, by value; −0 = +0 (R97). -/
def Num.lt : Num → Num → Bool
  | .nan, _ => false
  | _, .nan => false
  | .inf s, .inf t => s && !t
  | .inf s, _ => s
  | _, .inf t => !t
  | .fin s n d, .fin t m e =>
    match s, t with
    | false, false => n * e < m * d
    | true, true => m * d < n * e
    | true, false => !(n = 0 && m = 0)
    | false, true => false

/-- Equality of values; −0 = +0, false with a NaN (R97). -/
def Num.eqv (a b : Num) : Bool := !a.isNan && !b.isNan && !a.lt b && !b.lt a

end Sys2Proof.Machine
end

