-- ==== Sys2Proof/Machine/Records.lean ====
section
/-! DEFINITION. Microscaling and decimal records (05_numbers.md R99 to R102, R106; 07_vector.md R157, R158). A record is
held as the number that its bytes form, least significant byte first. -/

namespace Sys2Proof.Machine

/-- The element format of an MX record type (R95). -/
def recFmt : Ty → Fmt
  | .mx4 => fmtE2m1 | .mx6 => fmtE3m2 | .mx6a => fmtE2m3 | _ => fmtE4m3

/-- Bits of one element (R100). -/
def recElemBits : Ty → Nat
  | .mx4 => 4 | .mx6 | .mx6a => 6 | _ => 8

/-- The largest exponent of the element format (R102). -/
def recEmax : Ty → Int
  | .mx8 => 8 | .mx6 => 4 | _ => 2

/-- The scale byte (R99, R100). -/
def recScale (rec : Nat) : Nat := rec % 256

/-- Element `i` of a record as bits (R100). -/
def recElem (t : Ty) (rec i : Nat) : Nat := rec / 2 ^ (8 + recElemBits t * i) % 2 ^ recElemBits t

/-- The decimal scale of a dx8 record, an s8 (R106). -/
def dxScale (rec : Nat) : Int := intVal .s8 rec

/-- A value times a fraction. -/
def Num.scale (v : Num) (p : Nat × Nat) : Num :=
  match v with | .fin s n d => .fin s (n * p.1) (d * p.2) | v => v

/-- `2^e` as a fraction. -/
def pow2 (e : Int) : Nat × Nat :=
  match e with | .ofNat k => (2 ^ k, 1) | .negSucc k => (1, 2 ^ (k + 1))

/-- The factor that a record's scale byte stands for: none is NaN (R99, R106). -/
def recFactor (t : Ty) (rec : Nat) : Option (Nat × Nat) :=
  if t = .dx8 then some (pow10 (dxScale rec))
  else if recScale rec = 255 then none else some (pow2 ((recScale rec : Int) - 127))

/-- Element `i` before its scale (R101, R106). -/
def recElemValue (t : Ty) (rec i : Nat) : Num :=
  if t = .dx8 then d8Read (recElem t rec i) else (recFmt t).value (recElem t rec i)

/-- The exact value of element `i` (R101, R106). -/
def recValue (t : Ty) (rec i : Nat) : Num :=
  match recFactor t rec with
  | none => .nan
  | some p => (recElemValue t rec i).scale p

/-- A record from its scale byte and its elements (R100). -/
def recBuild (t : Ty) (scale : Nat) (es : List Nat) : Nat :=
  scale % 256 + 2 ^ 8 * es.foldr (fun e acc => e % 2 ^ recElemBits t + 2 ^ recElemBits t * acc) 0

/-- The magnitude of a finite value. -/
def Num.mag : Num → Nat × Nat
  | .fin _ n d => (n, d) | _ => (0, 1)

/-- The greatest magnitude of the finite values of a block. -/
def amax (xs : List Num) : Nat × Nat :=
  xs.foldl (fun a x => if a.1 * x.mag.2 < x.mag.1 * a.2 then x.mag else a) (0, 1)

/-- `floor (log10 (n / d))` for a positive fraction. -/
def log10Frac (n d : Nat) : Int :=
  let k := log2Frac n d * 30103 / 100000
  let le (j : Int) : Bool := (pow10 j).1 * d ≤ n * (pow10 j).2
  if le (k + 1) then k + 1 else if le k then k else k - 1

/-- Clamps an integer. -/
def clampI (v lo hi : Int) : Int := if v < lo then lo else if v > hi then hi else v

/-- The scale byte that `VQNT` computes for an MX block of finite values (R102). -/
def mxScale (t : Ty) (xs : List Num) : Nat :=
  let a := amax xs
  let x : Int := if a.1 = 0 then -127 else log2Frac a.1 a.2 - recEmax t
  (clampI x (-127) 127 + 127).toNat

/-- The scale that `VQNT` computes for a dx8 block (R106). -/
def dxScaleOf (xs : List Num) : Int :=
  let isInf (x : Num) : Bool := match x with | .inf _ => true | _ => false
  let a := amax xs
  if xs.any isInf then 127
  else if a.1 = 0 then 0
  else clampI (log10Frac a.1 a.2 - 1) (-128) 127

/-- A formed record: its number, the flags, and whether a finite value was rounded (R112). -/
structure Formed where
  word    : Nat
  flags   : Flags
  rounded : Bool
  deriving DecidableEq, Repr

/-- Rounds the elements of a block, drawing by index, and gathers the flags. -/
def formElems (round : Num → Nat → Nat × Flags) : List Num → Nat → List Nat × Flags
  | [], _ => ([], 0)
  | x :: xs, i =>
    let (e, f) := round x i
    let (es, g) := formElems round xs (i + 1)
    (e :: es, f ||| g)

/-- Forms an MX record from 32 values with a scale byte (R102, R116, R157). -/
def formMx (t : Ty) (mode : Mode) (draw : Nat → Nat) (scale : Nat) (xs : List Num) : Formed :=
  if xs.any (fun x => !x.isFin) then { word := 0xFF, flags := fInvalid, rounded := false }
  else
    let p := pow2 (127 - (scale : Int))
    let (es, f) := formElems (fun x i => (recFmt t).round mode (draw i) (x.scale p)) xs 0
    { word := recBuild t scale es, flags := f, rounded := !xs.isEmpty }

/-- Forms a dx8 record from 32 values with a decimal scale (R105, R106, R157). -/
def formDx (mode : Mode) (draw : Nat → Nat) (scale : Int) (xs : List Num) : Formed :=
  let p := pow10 (-scale)
  let (es, f) := formElems (fun x i => d8Round mode (draw i) (x.scale p)) xs 0
  { word := recBuild .dx8 (intBits .s8 scale) es
    flags := f ||| flagIf (xs.any Num.isNan) fInvalid
    rounded := xs.any Num.isFin }

/-- `VPACK.pack`: a record with the scale byte given (R157). -/
def packRec (t : Ty) (mode : Mode) (draw : Nat → Nat) (scale : Nat) (xs : List Num) : Formed :=
  if t = .dx8 then formDx mode draw (intVal .s8 scale) xs else formMx t mode draw scale xs

/-- `VQNT`: a record with the scale computed (R102, R106, R158). -/
def quantRec (t : Ty) (mode : Mode) (draw : Nat → Nat) (xs : List Num) : Formed :=
  if t = .dx8 then formDx mode draw (dxScaleOf xs) xs else formMx t mode draw (mxScale t xs) xs

end Sys2Proof.Machine
end

