-- ==== Sys2Proof/Machine/Transcend.lean ====
section
/-! DEFINITION. Square root, reciprocal and the faithful functions (06_scalar.md R133, R134; 07_vector.md R161, R162).
A faithful result is the exact value rounded by RNE. Each function is computed as a fraction with far more bits than any
format holds and rounded once from there; operands whose exact result lies on a grid point are taken apart first. That the
working precision decides every rounding as the exact value would is UNVERIFIED (log 8, risk in the unlikely case of a
result nearer than 2^-300 of its size to a midpoint). -/

namespace Sys2Proof.Machine

/-- Fraction bits of the fixed-point numbers below. -/
def fxBits : Nat := 448
/-- One in fixed point. -/
def fxOne : Nat := 2 ^ fxBits
/-- The natural logarithm of 2 in fixed point, rounded down. -/
def fxLn2 : Nat :=
  0xb17217f7d1cf79abc9e3b39803f2f6af40f343267298b62d8a0d175b8baafa2be7b876206debac98559552fb4afa1b10ed2eae35c1382144
/-- π in fixed point, rounded down. -/
def fxPi : Nat :=
  0x3243f6a8885a308d313198a2e03707344a4093822299f31d0082efa98ec4e6c89452821e638d01377be5466cf34e90c6cc0ac29b7c97c50dd

/-- The integer square root, bit by bit from bit `fuel - 1` down. -/
def isqrtGo (n : Nat) : Nat → Nat → Nat
  | 0, r => r
  | k + 1, r => let t := r + 2 ^ k; if t * t ≤ n then isqrtGo n k t else isqrtGo n k r

/-- The integer square root. -/
def isqrt (n : Nat) : Nat := isqrtGo n (n.log2 / 2 + 1) 0

/-- `√(n/d)` as a fraction: exact when it is rational with the bits kept, else between two neighbours of the working
grid. -/
def sqrtFrac (n d : Nat) : Nat × Nat :=
  let k := 400 + d.log2
  let q := n * 4 ^ k / d
  let r := isqrt q
  if r * r * d = n * 4 ^ k then (r, 2 ^ k) else (2 * r + 1, 2 ^ (k + 1))

/-- The series `Σ t^i / i!` in fixed point, for `0 ≤ t < 1`. -/
def fxExpGo (t : Nat) : Nat → Nat → Nat → Nat → Nat
  | 0, _, _, acc => acc
  | fuel + 1, i, term, acc => let term := term * t / fxOne / i; fxExpGo t fuel (i + 1) term (acc + term)

/-- `e^t` in fixed point, for `0 ≤ t < 1`. -/
def fxExp (t : Nat) : Nat := fxExpGo t 90 1 fxOne fxOne

/-- The series `Σ z^(2i+1) / (2i+1)` in fixed point: `artanh z`. -/
def fxArtanhGo (zz : Nat) : Nat → Nat → Nat → Nat → Nat
  | 0, _, _, acc => acc
  | fuel + 1, i, p, acc => let p := p * zz / fxOne; fxArtanhGo zz fuel (i + 2) p (acc + p / i)

/-- `ln m` in fixed point for `1 ≤ m < 2` given in fixed point. -/
def fxLn (m : Nat) : Nat :=
  let z := (m - fxOne) * fxOne / (m + fxOne)
  2 * fxArtanhGo (z * z / fxOne) 145 3 z z

/-- `x^i / i!` terms of alternating sign: `Σ (-1)^j x^(i+2j) / (i+2j)!` in fixed point, positive and negative parts. -/
def fxTrigGo (xx : Nat) : Nat → Nat → Nat → Bool → Int → Int
  | 0, _, _, _, acc => acc
  | fuel + 1, i, term, s, acc =>
    let term := term * xx / fxOne / ((i + 1) * (i + 2))
    fxTrigGo xx fuel (i + 2) term (!s) (if s then acc - term else acc + term)

/-- `sin t` in fixed point for `0 ≤ t ≤ π/4`. -/
def fxSin (t : Nat) : Nat := (fxTrigGo (t * t / fxOne) 45 1 t true t).toNat
/-- `cos t` in fixed point for `0 ≤ t ≤ π/4`. -/
def fxCos (t : Nat) : Nat := (fxTrigGo (t * t / fxOne) 45 0 fxOne true fxOne).toNat

/-- A fixed-point result between two grid points of the working precision. -/
def fxOpen (v : Nat) : Nat × Nat := (2 * v + 1, 2 * fxOne)

/-- The scale of a fraction by `2^e`. -/
def scaleFrac (x : Nat × Nat) (e : Int) : Nat × Nat :=
  match e with | .ofNat k => (x.1 * 2 ^ k, x.2) | .negSucc k => (x.1, x.2 * 2 ^ (k + 1))

/-- A rounded result by RNE with its flags; a result that is not exact carries the inexact flag (R133). -/
def faithful (f : Fmt) (neg : Bool) (x : Nat × Nat) (exact : Bool) : Nat × Flags :=
  let (w, fl) := f.round .rne 0 (.fin neg x.1 x.2)
  (w, fl ||| flagIf (!exact) fInexact)

/-- NaN result. -/
def nanOf (f : Fmt) (fl : Flags) : Nat × Flags := (f.canon, fl)

/-- `√a`, correctly rounded (R133, R134). -/
def fSqrt (f : Fmt) (mode : Mode) (rnd : Nat) : Num → Nat × Flags
  | .nan => nanOf f 0
  | .inf neg => if neg then nanOf f fInvalid else (f.infCode, 0)
  | .fin neg n d =>
    if n = 0 then (f.withSign neg 0, 0)
    else if neg then nanOf f fInvalid
    else let (p, q) := sqrtFrac n d; f.round mode rnd (.fin false p q)

/-- `1 / a`, correctly rounded (R133, R134). -/
def fRcp (f : Fmt) (mode : Mode) (rnd : Nat) (a : Num) : Nat × Flags :=
  let (q, fl) := Num.div (.fin false 1 1) a
  let (w, fl2) := f.round mode rnd q
  (w, fl ||| fl2)

/-- `1 / √a`, faithful; exact for a power of four (R133, R134). -/
def fRsqrt (f : Fmt) : Num → Nat × Flags
  | .nan => nanOf f 0
  | .inf neg => if neg then nanOf f fInvalid else (0, 0)
  | .fin neg n d =>
    if n = 0 then (f.withSign neg f.infCode, fDivZero)
    else if neg then nanOf f fInvalid
    else
      let x := sqrtFrac d n
      let k := 400 + n.log2
      faithful f false x (x.2 = 2 ^ k && x.1 = 2 ^ x.1.log2)

/-- `2^a`, faithful; exact for an integer whose result is representable (R133, R134). -/
def fExp2 (f : Fmt) : Num → Nat × Flags
  | .nan => nanOf f 0
  | .inf neg => if neg then (0, 0) else (f.infCode, 0)
  | .fin neg n d =>
    if n = 0 then f.round .rne 0 (.fin false 1 1)
    else if n ≥ 1024 * d then
      (if neg then faithful f false (1, 2 ^ 1024) false else (f.infCode, fOvIx))
    else
      let i : Int := if neg then -(((n + d - 1) / d : Nat) : Int) else ((n / d : Nat) : Int)
      -- the fraction above the floor, as a fraction over d
      let r : Nat := if neg then (d - n % d) % d else n % d
      if r = 0 then let x := scaleFrac (1, 1) i; f.round .rne 0 (.fin false x.1 x.2)
      else
        let y := fxExp (r * fxLn2 / d)
        faithful f false (scaleFrac (fxOpen y) i) false

/-- `log2 a`, faithful; exact for a power of two (R133, R134). -/
def fLog2 (f : Fmt) : Num → Nat × Flags
  | .nan => nanOf f 0
  | .inf neg => if neg then nanOf f fInvalid else (f.infCode, 0)
  | .fin neg n d =>
    if n = 0 then (f.withSign true f.infCode, fDivZero)
    else if neg then nanOf f fInvalid
    else
      let e := log2Frac n d
      let m := let x := scaleFrac (n, d) (-e); x.1 * fxOne / x.2
      if m = fxOne then f.round .rne 0 (Num.ofInt e)
      else
        -- e + log2 m in fixed point, then its sign
        let v : Int := e * fxOne + (fxLn m * fxOne / fxLn2 : Nat)
        if v < 0 then faithful f true (fxOpen (v.natAbs - 1)) false else faithful f false (fxOpen v.toNat) false

/-- `sin (π r)` for `0 ≤ r ≤ 1/2` given as a fraction: fixed point. -/
def fxSinPi (n d : Nat) : Nat :=
  if 4 * n ≤ d then fxSin (n * fxPi / d) else fxCos ((d - 2 * n) * fxPi / (2 * d))

/-- `sin (π a)` (cosine when `cos`), faithful, by quarter turns (R161, R162). -/
def fTrigPi (f : Fmt) (cos : Bool) : Num → Nat × Flags
  | .nan => nanOf f 0
  | .inf _ => nanOf f fInvalid
  | .fin neg n d =>
    -- half-turn fraction t = 2a mod 4 in quarters: r = n mod 2d
    let r := n % (2 * d)
    if cos then
      let r := if r > d then 2 * d - r else r            -- cos is even and of period 2
      if r = 0 then f.round .rne 0 (.fin false 1 1)
      else if r = d then f.round .rne 0 (.fin true 1 1)
      else if 2 * r = d then (0, 0)
      else if 2 * r < d then faithful f false (fxOpen (fxSinPi (d - 2 * r) (2 * d))) false
      else faithful f true (fxOpen (fxSinPi (2 * r - d) (2 * d))) false
    else
      if r % d = 0 then (f.withSign neg 0, 0)
      else
        let s := if r > d then !neg else neg
        let r := r % d
        let r := if 2 * r > d then d - r else r          -- sin (π - y) = sin y
        if 2 * r = d then f.round .rne 0 (.fin s 1 1)
        else if r * 2 ^ 60 < d then
          -- π r less r³ π³ / 6, kept below π r by one part in 2^100
          faithful f s (r * fxPi * (2 ^ 100) - r * fxPi, d * fxOne * 2 ^ 100) false
        else faithful f s (fxOpen (fxSinPi r d)) false

/-- `y^(2^k)` in fixed point. -/
def fxSquares : Nat → Nat → Nat
  | 0, y => y
  | k + 1, y => fxSquares k (y * y / fxOne)

/-- `tanh a`, faithful (R161, R162). -/
def fTanh (f : Fmt) : Num → Nat × Flags
  | .nan => nanOf f 0
  | .inf neg => f.round .rne 0 (.fin neg 1 1)
  | .fin neg n d =>
    if n = 0 then (f.withSign neg 0, 0)
    else if n ≥ 64 * d then faithful f neg (2 ^ 100 - 1, 2 ^ 100) false
    else if n * 2 ^ 60 < d then faithful f neg (n * 2 ^ 100 - n, d * 2 ^ 100) false
    else
      -- u = e^(-2a) = (e^(-a/64))^128; e^(-t) as the reciprocal of e^t
      let t := n * fxOne / (64 * d)
      let u := fxSquares 7 (fxOne * fxOne / fxExp t)
      let q := (fxOne - u) * fxOne / (fxOne + u)
      faithful f neg (fxOpen q) false

end Sys2Proof.Machine
end

