-- ==== Sys2Proof/Machine/Scalar.lean ====
section
/-! DEFINITION. The scalar integer, predicate, address and special-register instructions (06_scalar.md R121 to R132). -/

namespace Sys2Proof.Machine

/-! Shared shapes. -/

/-- An instruction with one scalar operand and a scalar result. -/
def unX (n : Nat) (d a : XReg) (f : Word → Word) (s : State) : Out :=
  issue { x := [a] } { x := [d] } s fun s => s.resX n d (f (s.core.rx a))
/-- Two scalar operands and a scalar result with its flags. -/
def binX (n : Nat) (d a b : XReg) (f : Word → Word → Word × Flags) (s : State) : Out :=
  issue { x := [a, b] } { x := [d] } s fun s =>
    let r := f (s.core.rx a) (s.core.rx b)
    s.resXF n d r.1 r.2
/-- A scalar operand, a literal, and a scalar result with its flags. -/
def litX (n : Nat) (d a : XReg) (v : Word) (f : Word → Word → Word × Flags) (s : State) : Out :=
  issue { x := [a] } { x := [d] } s fun s =>
    let r := f (s.core.rx a) v
    s.resXF n d r.1 r.2
/-- An operation that sets no flag. -/
def quietly (f : Word → Word → Word) (a b : Word) : Word × Flags := (f a b, 0)

/-! The operations (R123, R124). -/

/-- A clamped sum or difference with the saturation flag (R123). -/
def clampTo (lo hi v : Int) : Word × Flags :=
  let c := clampI v lo hi
  (BitVec.ofInt 64 c, flagIf (c ≠ v) fSaturation)
/-- `ADD` (R123). -/
def addOp (f : AddFn) (a b : Word) : Word × Flags :=
  match f with
  | .wrap => (a + b, 0)
  | .sat => clampTo (-(2 ^ 63)) (2 ^ 63 - 1) (a.toInt + b.toInt)
  | .usat => clampTo 0 (2 ^ 64 - 1) ((a.toNat : Int) + b.toNat)
/-- `SUB` (R123). -/
def subOp (f : AddFn) (a b : Word) : Word × Flags :=
  match f with
  | .wrap => (a - b, 0)
  | .sat => clampTo (-(2 ^ 63)) (2 ^ 63 - 1) (a.toInt - b.toInt)
  | .usat => clampTo 0 (2 ^ 64 - 1) ((a.toNat : Int) - b.toNat)
/-- Bits 127 to 64 of the product (R122). -/
def mulhiOp (f : MulhiFn) (a b : Word) : Word :=
  match f with
  | .s => BitVec.ofInt 64 (a.toInt * b.toInt / 2 ^ 64)
  | .u => BitVec.ofNat 64 (a.toNat * b.toNat / 2 ^ 64)
  | .su => BitVec.ofInt 64 (a.toInt * b.toNat / 2 ^ 64)
/-- The quotient (R124). -/
def divOp (u : Bool) (a b : Word) : Word :=
  if b = 0 then BitVec.allOnes 64
  else if u then BitVec.ofNat 64 (a.toNat / b.toNat) else BitVec.ofInt 64 (a.toInt.tdiv b.toInt)
/-- The remainder (R124). -/
def remOp (u : Bool) (a b : Word) : Word :=
  if b = 0 then a
  else if u then BitVec.ofNat 64 (a.toNat % b.toNat) else BitVec.ofInt 64 (a.toInt.tmod b.toInt)
/-- `AND`, `OR`, `XOR` with operand B inverted by `.n` (R122). -/
def inv (n : Bool) (b : Word) : Word := if n then ~~~b else b
/-- `MIN` (R122). -/
def minOp (u : Bool) (a b : Word) : Word := if (if u then b.ult a else b.slt a) then b else a
/-- `MAX` (R122). -/
def maxOp (u : Bool) (a b : Word) : Word := if (if u then a.ult b else a.slt b) then b else a
/-- Leading zeros of the low `w` bits. -/
def leadingZeros : Nat → Word → Nat
  | 0, _ => 0
  | w + 1, a => if a.getLsbD w then 0 else leadingZeros w a + 1
/-- Trailing zeros of the low bits from `i` on, `w` of them left. -/
def trailingZeros : Nat → Nat → Word → Nat
  | 0, _, _ => 0
  | w + 1, i, a => if a.getLsbD i then 0 else trailingZeros w (i + 1) a + 1
/-- `CLZ` (R122). -/
def clzOp (f : ClzFn) (a : Word) : Word :=
  BitVec.ofNat 64 (match f with
    | .lz => leadingZeros 64 a | .lzw => leadingZeros 32 a
    | .tz => trailingZeros 64 0 a | .tzw => trailingZeros 32 0 a)
/-- Ones among the low `w` bits. -/
def ones : Nat → Word → Nat
  | 0, _ => 0
  | w + 1, a => ones w a + (a.getLsbD w).toNat
/-- `POPC` (R122). -/
def popcOp (w : Bool) (a : Word) : Word := BitVec.ofNat 64 (ones (if w then 32 else 64) a)
/-- `BFX`: bits above 63 read as zero (R126). -/
def bfxOp (sx : Bool) (pos wid : Nat) (a : Word) : Word :=
  let f := a.toNat / 2 ^ pos % 2 ^ wid
  BitVec.ofNat 64 (if sx ∧ f ≥ 2 ^ (wid - 1) then f + (2 ^ 64 - 2 ^ wid) else f)
/-- `BFI`: field bits beyond 63 are dropped (R126). -/
def bfiOp (pos wid : Nat) (d a : Word) : Word :=
  let mask : Word := BitVec.ofNat 64 ((2 ^ wid - 1) * 2 ^ pos)
  (d &&& ~~~mask) ||| ((a <<< pos) &&& mask)

/-! Arithmetic (R122 to R125). -/

/-- `ADD` (R123). -/
def execAdd (f : AddFn) (d a b : XReg) (s : State) : Out := binX 1 d a b (addOp f) s
/-- `ADD` with a literal (R123). -/
def execAddLiteral (f : AddFn) (d a : XReg) (v : Word) (s : State) : Out := litX 1 d a v (addOp f) s
/-- `SUB` (R123). -/
def execSub (f : AddFn) (d a b : XReg) (s : State) : Out := binX 1 d a b (subOp f) s
/-- `SUB` with a literal (R123). -/
def execSubLiteral (f : AddFn) (d a : XReg) (v : Word) (s : State) : Out := litX 1 d a v (subOp f) s
/-- `ADDI` (R125). -/
def execAddi (d a : XReg) (i : BitVec 11) (s : State) : Out := unX 1 d a (· + sx i) s
/-- `MUL` (R122). -/
def execMul (d a b : XReg) (s : State) : Out := binX 3 d a b (quietly (· * ·)) s
/-- `MUL` with a literal (R122). -/
def execMulLiteral (d a : XReg) (v : Word) (s : State) : Out := litX 3 d a v (quietly (· * ·)) s
/-- `MULHI` (R122). -/
def execMulhi (f : MulhiFn) (d a b : XReg) (s : State) : Out := binX 3 d a b (quietly (mulhiOp f)) s
/-- `MULHI` with a literal (R122). -/
def execMulhiLiteral (f : MulhiFn) (d a : XReg) (v : Word) (s : State) : Out := litX 3 d a v (quietly (mulhiOp f)) s
/-- `MAD`, which reads `x[d]` at issue (R122, R123). -/
def execMad (neg : Bool) (d a b : XReg) (s : State) : Out :=
  issue { x := [a, b, d] } { x := [d] } s fun s =>
    let p := s.core.rx a * s.core.rx b
    s.resX 3 d (if neg then s.core.rx d - p else s.core.rx d + p)
/-- `DIV` (R124). -/
def execDiv (u : Bool) (d a b : XReg) (s : State) : Out := binX 12 d a b (quietly (divOp u)) s
/-- `DIV` with a literal (R124). -/
def execDivLiteral (u : Bool) (d a : XReg) (v : Word) (s : State) : Out := litX 12 d a v (quietly (divOp u)) s
/-- `REM` (R124). -/
def execRem (u : Bool) (d a b : XReg) (s : State) : Out := binX 12 d a b (quietly (remOp u)) s
/-- `REM` with a literal (R124). -/
def execRemLiteral (u : Bool) (d a : XReg) (v : Word) (s : State) : Out := litX 12 d a v (quietly (remOp u)) s
/-- `AND` (R122). -/
def execAnd (n : Bool) (d a b : XReg) (s : State) : Out := binX 1 d a b (quietly fun p q => p &&& inv n q) s
/-- `AND` with a literal (R122). -/
def execAndLiteral (n : Bool) (d a : XReg) (v : Word) (s : State) : Out := litX 1 d a v (quietly fun p q => p &&& inv n q) s
/-- `OR` (R122). -/
def execOr (n : Bool) (d a b : XReg) (s : State) : Out := binX 1 d a b (quietly fun p q => p ||| inv n q) s
/-- `OR` with a literal (R122). -/
def execOrLiteral (n : Bool) (d a : XReg) (v : Word) (s : State) : Out := litX 1 d a v (quietly fun p q => p ||| inv n q) s
/-- `XOR` (R122). -/
def execXor (n : Bool) (d a b : XReg) (s : State) : Out := binX 1 d a b (quietly fun p q => p ^^^ inv n q) s
/-- `XOR` with a literal (R122). -/
def execXorLiteral (n : Bool) (d a : XReg) (v : Word) (s : State) : Out := litX 1 d a v (quietly fun p q => p ^^^ inv n q) s
/-- A shift by a register's bits 5 to 0, or by the field (R122, R123). -/
def shift (d a : XReg) (sh : ShAmt) (f : Word → Nat → Word) (s : State) : Out :=
  match sh with
  | .reg b => binX 1 d a b (quietly fun p q => f p (q.toNat % 64)) s
  | .imm i => unX 1 d a (f · i.val) s
/-- `SHL` (R123). -/
def execShl (d a : XReg) (sh : ShAmt) (s : State) : Out := shift d a sh (fun p n => p <<< n) s
/-- `SHR` (R123). -/
def execShr (d a : XReg) (sh : ShAmt) (s : State) : Out := shift d a sh (fun p n => p >>> n) s
/-- `SAR` (R123). -/
def execSar (d a : XReg) (sh : ShAmt) (s : State) : Out := shift d a sh (fun p n => p.sshiftRight n) s
/-- `BFX` (R126). -/
def execBfx (d a : XReg) (pos : Fin 64) (wid : Fin 32) (s : State) : Out := unX 1 d a (bfxOp false pos.val (wid.val + 1)) s
/-- `BFX`, extended (R126). -/
def execBfxExtended (sx : Bool) (d a : XReg) (pos wid : Fin 64) (s : State) : Out :=
  unX 1 d a (bfxOp sx pos.val (wid.val + 1)) s
/-- `BFI` in both lengths: it reads `x[d]` at issue (R126). -/
def bfi (d a : XReg) (pos wid : Nat) (s : State) : Out :=
  binX 1 d a d (quietly fun p q => bfiOp pos wid q p) s
/-- `BFI` (R126). -/
def execBfi (d a : XReg) (pos : Fin 64) (wid : Fin 32) (s : State) : Out := bfi d a pos.val (wid.val + 1) s
/-- `BFI`, extended (R126). -/
def execBfiExtended (d a : XReg) (pos wid : Fin 64) (s : State) : Out := bfi d a pos.val (wid.val + 1) s

/-! Compares, selection, predicates (R127 to R129). -/

/-- The f32 value of a scalar register (R121). -/
def f32Of (a : Word) : Num := tyValue .f32 a.toNat
/-- The floating conditions (R127). -/
def fcond (c : FCond) (a b : Num) : Bool :=
  match c with
  | .feq => a.eqv b
  | .fne => !a.eqv b
  | .flt => a.lt b
  | .fle => a.lt b || a.eqv b
  | .fun_ => a.isNan || b.isNan
/-- A condition of `CMP` (R127). -/
def condOf (c : Cond) (a b : Word) : Bool :=
  match c with
  | .int c => icond c a b
  | .flt c => fcond c (f32Of a) (f32Of b)
/-- Every bit of a predicate at an outcome (R127). -/
def allRows (b : Bool) : Mask := if b then BitVec.allOnes 32 else 0
/-- `CMP` (R127). -/
def execCmp (c : Cond) (p : PReg) (a b : XReg) (s : State) : Out :=
  issue { x := [a, b] } { p := [p] } s fun s => s.resP 1 p (allRows (condOf c (s.core.rx a) (s.core.rx b))) 0
/-- `CMP` with a literal (R127). -/
def execCmpLiteral (c : Cond) (p : PReg) (a : XReg) (v : Word) (s : State) : Out :=
  issue { x := [a] } { p := [p] } s fun s => s.resP 1 p (allRows (condOf c (s.core.rx a) v)) 0
/-- `CMPI` (R127). -/
def execCmpi (c : ICond) (p : PReg) (a : XReg) (i : BitVec 11) (s : State) : Out :=
  issue { x := [a] } { p := [p] } s fun s => s.resP 1 p (allRows (icond c (s.core.rx a) (sx i))) 0
/-- `SEL` (R128). -/
def execSel (d a b : XReg) (p : PReg) (s : State) : Out :=
  issue { x := [a, b], p := [p] } { x := [d] } s fun s =>
    s.resX 1 d (if (s.core.rp p).getLsbD 0 then s.core.rx a else s.core.rx b)
/-- `MIN` (R122). -/
def execMin (u : Bool) (d a b : XReg) (s : State) : Out := binX 1 d a b (quietly (minOp u)) s
/-- `MIN` with a literal (R122). -/
def execMinLiteral (u : Bool) (d a : XReg) (v : Word) (s : State) : Out := litX 1 d a v (quietly (minOp u)) s
/-- `MAX` (R122). -/
def execMax (u : Bool) (d a b : XReg) (s : State) : Out := binX 1 d a b (quietly (maxOp u)) s
/-- `MAX` with a literal (R122). -/
def execMaxLiteral (u : Bool) (d a : XReg) (v : Word) (s : State) : Out := litX 1 d a v (quietly (maxOp u)) s
/-- `CLZ` (R122). -/
def execClz (f : ClzFn) (d a : XReg) (s : State) : Out := unX 1 d a (clzOp f) s
/-- `POPC` (R122). -/
def execPopc (w : Bool) (d a : XReg) (s : State) : Out := unX 1 d a (popcOp w) s
/-- `LI` (R125). -/
def execLi (d : XReg) (i : BitVec 11) (s : State) : Out := issue {} { x := [d] } s fun s => s.resX 1 d (sx i)
/-- `LI` with a literal (R125). -/
def execLiLiteral (d : XReg) (v : Word) (s : State) : Out := issue {} { x := [d] } s fun s => s.resX 1 d v
/-- The truth table of `PLOG` (R129). -/
def plogOp (t : BitVec 4) (a b : Mask) : Mask :=
  let row (i : Nat) (x : Mask) : Mask := if t.getLsbD i then x else 0
  row 0 (~~~a &&& ~~~b) ||| row 1 (~~~a &&& b) ||| row 2 (a &&& ~~~b) ||| row 3 (a &&& b)
/-- `PLOG` (R129). -/
def execPlog (t : BitVec 4) (d a b : PReg) (s : State) : Out :=
  issue { p := [a, b] } { p := [d] } s fun s => s.resP 1 d (plogOp t (s.core.rp a) (s.core.rp b)) 0
/-- `PLOG.fromx` (R129). -/
def execPlogFromx (d : PReg) (a : XReg) (s : State) : Out :=
  issue { x := [a] } { p := [d] } s fun s => s.resP 1 d ((s.core.rx a).truncate 32) 0
/-- `PLOG.tox` (R129). -/
def execPlogTox (d : XReg) (a : PReg) (s : State) : Out :=
  issue { p := [a] } { x := [d] } s fun s => s.resX 1 d ((s.core.rp a).setWidth 64)

/-! Special registers, device time, addresses (R130 to R132). -/

/-- The contents of a special register (R54 to R56). -/
def State.special (s : State) (n : SReg) : Word :=
  let c := s.core
  match n with
  | .vs => c.vs
  | .fflags => c.fflags.setWidth 64
  | .frm => c.frm.setWidth 64
  | .dom => c.dom.setWidth 64
  | .pri => BitVec.ofNat 64 (s.effPri 8 c + 8 * c.priLaunch.toNat)
  | .core => BitVec.ofNat 64 (coreWord c.id)
  | .chain => BitVec.ofNat 64 c.chainWord
  | .launch => c.launch.setWidth 64
  | .task => c.task
  | .sqn => c.sqn.setWidth 64
  | .srseed => c.srseed
  | .steep => c.steep
  | .steepPc => c.steepPc
  | .steepLc => c.steepLc
  | .trap => c.trap
/-- `SRD` (R131). -/
def execSrd (d : XReg) (n : SReg) (s : State) : Out := issue {} { x := [d] } s fun s => s.resX 1 d (s.special n)

/-- A legal value of `%vs` (R55). -/
def vsLegal (v : Word) : Bool :=
  let n := v.toNat
  let r := fld n 0 6
  let k := fld n 16 11
  fld n 6 10 = 0 && fld n 27 5 = 0 && fld n 37 27 = 0 && 1 ≤ r && r ≤ 32 && 1 ≤ k && k ≤ 1024 &&
    (match Ty.ofCode (fld n 32 5) with
     | some t => t.isElem && r * k * t.size ≤ 1024
     | none => false)
/-- The highest domain level that a core may name: its launch's (R55); every level of R17 without one. -/
def State.topLevel (s : State) : Nat :=
  match s.launches.find? s.core.launch.toNat with | some l => l.fields.dom | none => 4
/-- A leader's `%dom` level: in a handler, which runs on it alone, the members of its chain take it with it (R17, R131). -/
def State.setDom (s : State) (d : BitVec 3) : State :=
  let s := if s.core.frame.isSome then
      ((s.mates s.core).filter (· ≠ s.core.id)).foldl (fun s n => s.modCore n fun c => { c with dom := d }) s
    else s
  s.upd fun c => { c with dom := d }
/-- `SWR` (R131). The level of a chain is the leader's (R17). -/
def execSwr (n : SReg) (a : XReg) (s : State) : Out :=
  let keep (f : Core → Core) (s : State) : Out := .next (s.upd f).retire
  match n with
  | .dom =>
    if s.core.leads then
      issue { x := [a] } {} s fun s =>
        let v := s.core.rx a
        if v.toNat ≥ 8 ∨ v.toNat > s.topLevel then s.illegal 0x2A else .next (s.setDom (v.truncate 3)).retire
    else keep (fun c => { c with dom := match c.feed with | e :: _ => e.dom | [] => c.dom }) s
  | .vs => issue { x := [a] } {} s fun s =>
      let v := s.core.rx a
      if vsLegal v then keep (fun c => { c with vs := v }) s else s.illegal 0x2A
  | .frm => issue { x := [a] } {} s fun s =>
      let v := s.core.rx a
      if v.toNat ≤ 4 then keep (fun c => { c with frm := v.truncate 3 }) s else s.illegal 0x2A
  | .fflags => issue { x := [a] } {} s fun s =>
      let v := s.core.rx a
      keep (fun c => { c with fflags := v.truncate 6 }) s
  | .srseed => issue { x := [a] } {} s fun s =>
      let v := s.core.rx a
      keep (fun c => { c with srseed := v }) s
  | _ => s.illegal 0x2A          -- read-only: no scanned granule holds it (R54, R139)

/-- `TIME` (R132): whole nanoseconds. -/
def execTime (d : XReg) (s : State) : Out := issue {} { x := [d] } s fun s => s.resX 1 d (BitVec.ofNat 64 s.now)
/-- `TIME.fx` (R132): 48 bits of nanoseconds and the 16-bit fraction. -/
def execTimeFx (d : XReg) (s : State) : Out := issue {} { x := [d] } s fun s => s.resX 1 d (s.time.dt.truncate 64)

/-- `LEA` (R130). -/
def execLea (d : XReg) (m : MAddr) (s : State) : Out :=
  issue { x := MAddr.reads m } { x := [d] } s fun s => s.resX 1 d (s.core.ea m 1)
/-- `LEA`, extended (R130). -/
def execLeaExtended (d : XReg) (m : MAddr) (imm : BitVec 32) (s : State) : Out :=
  issue { x := MAddr.reads m } { x := [d] } s fun s => s.resX 1 d (s.core.ea m 1 imm)

end Sys2Proof.Machine
end

