-- ==== Sys2Proof/Machine/ScalarFloat.lean ====
section
/-! DEFINITION. Arithmetic on single elements with its flags and its use of the stochastic generator, and the scalar
floating instructions (05_numbers.md R107 to R117; 06_scalar.md R133 to R136). -/

namespace Sys2Proof.Machine

/-- What an operation gives for one element: its bits, its flags, and whether it rounded or converted a finite value
(R112). -/
structure Elt where
  bits  : Nat
  flags : Flags := 0
  used  : Bool := false
  deriving DecidableEq, Repr

/-- How an instruction rounds: mode and seed (R107, R110). -/
structure How where
  mode : Mode
  seed : Word
  deriving DecidableEq, Repr

/-- The number drawn for an element. -/
def How.draw (h : How) (row idx : Nat) : Nat := drawFor h.mode h.seed row idx
/-- How the core rounds by a rounding field (R42, R107). -/
def Core.how (c : Core) (rm : Rm) : How := { mode := Mode.pick rm c.frm.toNat, seed := c.srseed }

/-- Rounds an exact value into an element (R107 to R116). -/
def eltRound (t : Ty) (h : How) (row idx : Nat) (v : Num) (f : Flags := 0) : Elt :=
  let (w, g) := tyRound t h.mode (h.draw row idx) v
  { bits := w, flags := f ||| g, used := v.isFin }
/-- Converts an element (R113, R136, R155). -/
def eltConvert (target source : Ty) (sat : Bool) (h : How) (row idx w : Nat) : Elt :=
  let (r, f) := convert target source sat h.mode (h.draw row idx) w
  { bits := r, flags := f, used := (tyValue source w).isFin }
/-- A pair of bits and flags that no rounding mode took part in. -/
def eltOf (r : Nat × Flags) : Elt := { bits := r.1, flags := r.2 }

/-- The sign bit of a floating element. -/
def tySign (t : Ty) (w : Nat) : Bool := w / 2 ^ (tyBits t - 1) % 2 = 1
/-- An element with its sign cleared. -/
def absBits (t : Ty) (w : Nat) : Nat := w % 2 ^ (tyBits t - 1)
/-- The smaller or larger of two floating elements: a NaN yields the other, −0 is below +0 (R133, R146); both NaN give
the canonical NaN (R134). -/
def floatMinMax (t : Ty) (max : Bool) (a b : Nat) : Nat :=
  let x := tyValue t a
  let y := tyValue t b
  if x.isNan then (if y.isNan then canonNaN t else b)
  else if y.isNan then a
  else
    let less := x.lt y || (x.isZero && y.isZero && tySign t a && !tySign t b)
    if less != max then a else b

/-- The class mask of a scalar floating value (R133). -/
def classMask (t : Ty) (w : Nat) : Nat :=
  let f := fmtOf t
  let neg := tySign t w
  match f.value w with
  | .nan => 2 ^ 8
  | .inf _ => if neg then 2 ^ 0 else 2 ^ 7
  | .fin _ n _ =>
    if n = 0 then (if neg then 2 ^ 3 else 2 ^ 4)
    else if absBits t w / 2 ^ f.fb = 0 then (if neg then 2 ^ 2 else 2 ^ 5)
    else (if neg then 2 ^ 1 else 2 ^ 6)

/-- The square root of a finite value that is not negative rounds it (R112). -/
def sqrtUsed (v : Num) : Bool := v.isFin && (!v.neg? || v.isZero)

/-- `SFOP` on bits (R133, R134). The faithful functions draw nothing, so the seed stands (log 36). -/
def sfOp (f : SfFn) (t : Ty) (h : How) (a b : Nat) : Elt :=
  let x := tyValue t a
  let y := tyValue t b
  let fm := fmtOf t
  let by_ (r : Num × Flags) : Elt := eltRound t h 0 0 r.1 r.2
  match f with
  | .add => by_ (x.add h.mode y)
  | .sub => by_ (x.add h.mode y.negate)
  | .mul => by_ (x.mul y)
  | .div => by_ (x.div y)
  | .min => { bits := floatMinMax t false a b }
  | .max => { bits := floatMinMax t true a b }
  | .sqrt => { eltOf (fSqrt fm h.mode (h.draw 0 0) x) with used := sqrtUsed x }
  | .rcp => by_ (Num.div (.fin false 1 1) x)
  | .rsqrt => eltOf (fRsqrt fm x)
  | .exp2 => eltOf (fExp2 fm x)
  | .log2 => eltOf (fLog2 fm x)
  | .abs => { bits := if x.isNan then canonNaN t else absBits t a }
  | .neg => { bits := if x.isNan then canonNaN t else (a + 2 ^ (tyBits t - 1)) % 2 ^ tyBits t }
  | .cls => { bits := classMask t a }

/-- A fused product and sum on bits, for an element at a place (R98, R135). -/
def fmaOp (neg sub : Bool) (t : Ty) (h : How) (row idx a b c : Nat) : Elt :=
  let r := Num.fma h.mode neg sub (tyValue t a) (tyValue t b) (tyValue t c)
  eltRound t h row idx r.1 r.2

/-- The type that a scalar floating instruction names (R133). -/
def FTy.ty : Option FTy → Ty
  | some .bf16 => .bf16
  | some .f16 => .f16
  | _ => .f32

/-- The low bits of a scalar register that hold a value of a type (R121). -/
def lowBits (t : Ty) (w : Word) : Nat := w.toNat % 2 ^ tyBits t
/-- A scalar value placed in a register (R121): signed narrow integers are sign-extended, everything else
zero-extended. -/
def placeX (t : Ty) (w : Nat) : Word :=
  if t.isSigned then BitVec.ofInt 64 (intVal t w) else BitVec.ofNat 64 w

/-- The seed advances after an instruction in SR mode that rounded a finite value (R112). -/
def State.seedStep (s : State) (h : How) (used : Bool) : State :=
  if h.mode = .sr ∧ used then s.upd fun c => { c with srseed := seedNext c.srseed } else s

/-- A scalar floating result: 4 slots, flags, the seed (R112, R118, R137). -/
def State.resElt (s : State) (d : XReg) (t : Ty) (h : How) (e : Elt) : Out :=
  (s.seedStep h e.used).resXF 4 d (placeX t e.bits) e.flags

/-- `SFOP` in both lengths. -/
def sfop (f : SfFn) (t : Ty) (rm : Rm) (d a b : XReg) (s : State) : Out :=
  issue { x := if f.oneOperand then [a] else [a, b] } { x := [d] } s fun s =>
    let c := s.core
    s.resElt d t (c.how rm) (sfOp f t (c.how rm) (lowBits t (c.rx a)) (lowBits t (c.rx b)))
/-- `SFOP` (R133). -/
def execSfop (f : SfFn) (d a b : XReg) (s : State) : Out := sfop f .f32 .frm d a b s
/-- `SFOP`, extended (R133). -/
def execSfopExtended (f : SfFn) (ty : Option FTy) (rm : Rm) (d a b : XReg) (s : State) : Out :=
  sfop f (FTy.ty ty) rm d a b s

/-- `SFMA` in both lengths; it reads `x[d]` at issue. -/
def sfma (neg sub : Bool) (t : Ty) (rm : Rm) (d a b : XReg) (s : State) : Out :=
  issue { x := [a, b, d] } { x := [d] } s fun s =>
    let c := s.core
    s.resElt d t (c.how rm)
      (fmaOp neg sub t (c.how rm) 0 0 (lowBits t (c.rx a)) (lowBits t (c.rx b)) (lowBits t (c.rx d)))
/-- `SFMA` (R135). -/
def execSfma (neg sub : Bool) (d a b : XReg) (s : State) : Out := sfma neg sub .f32 .frm d a b s
/-- `SFMA`, extended (R135). -/
def execSfmaExtended (neg sub : Bool) (ty : Option FTy) (rm : Rm) (d a b : XReg) (s : State) : Out :=
  sfma neg sub (FTy.ty ty) rm d a b s

/-- `SCVT` in both lengths. -/
def scvt (t u : Ty) (sat : Bool) (rm : Rm) (d a : XReg) (s : State) : Out :=
  issue { x := [a] } { x := [d] } s fun s =>
    let h := s.core.how rm
    s.resElt d t h (eltConvert t u sat h 0 0 (lowBits u (s.core.rx a)))
/-- `SCVT` (R136). -/
def execScvt (target source : Ty) (sat : Bool) (d a : XReg) (s : State) : Out := scvt target source sat .frm d a s
/-- `SCVT`, extended (R136). -/
def execScvtExtended (target source : Ty) (sat : Bool) (rm : Rm) (d a : XReg) (s : State) : Out :=
  scvt target source sat rm d a s

end Sys2Proof.Machine
end

