-- ==== Sys2Proof/Machine/Vector.lean ====
section
/-! DEFINITION. Tiles, row masks and the element-wise vector instructions (07_vector.md R140 to R149, R155, R160 to
R162). -/

namespace Sys2Proof.Machine

/-- Rows, columns and type in force (R140). -/
structure Geo where
  rows : Nat
  cols : Nat
  ty   : Ty
  deriving DecidableEq, Repr

/-- Element size. -/
def Geo.sz (g : Geo) : Nat := g.ty.size
/-- Bytes of a row. -/
def Geo.rb (g : Geo) : Nat := g.cols * g.ty.size

/-- The geometry in force, when the type is admitted and the tile fits (R140, R143). -/
def Core.geo (c : Core) (ty : Option Ty) (adm : Ty → Bool) : Option Geo :=
  match ty.orElse fun _ => Ty.ofCode c.tyCode with
  | none => none
  | some t => if adm t ∧ c.rows * c.cols * t.size ≤ 1024 then some { rows := c.rows, cols := c.cols, ty := t } else none

/-- The doublewords that hold rows of `rb` bytes: those that a mask admits (R141). -/
def rowWords (rows rb : Nat) (p : Mask) : List Nat :=
  ((List.range rows).filter fun r => p.getLsbD r).flatMap fun r =>
    (List.range ((r * rb + rb + 7) / 8 - r * rb / 8)).map (r * rb / 8 + ·)
/-- The registers `rd` as a masked instruction of a geometry reads them: the words of its masked-in rows, `src` bytes a row (R141,
R381). -/
def Core.masked (c : Core) (rd : Regs) (ty : Option Ty) (adm : Ty → Bool) (src : Geo → Nat) (p : PReg) : Regs :=
  { rd with p := p :: rd.p, vw := (c.geo ty adm).map fun g => rowWords g.rows (src g) (c.rp p) }

/-- What a row gives: its bytes as a number, flags, and whether a finite value was rounded. -/
structure RowOut where
  val   : Nat
  flags : Flags := 0
  used  : Bool := false
  deriving DecidableEq, Repr

/-- A row of elements of `n` bytes. -/
def rowOfElts (n : Nat) (es : List Elt) : RowOut :=
  { val := joinElems n (es.map Elt.bits), flags := es.foldl (fun f e => f ||| e.flags) 0, used := es.any Elt.used }

/-- What all rows give. -/
structure TileOut where
  patch : Patch := {}
  flags : Flags := 0
  used  : Bool := false
  deriving DecidableEq, Repr

/-- Rows under a mask: masked-in rows are computed, the others kept or zeroed (R141). `rb` is the bytes of a row in the
destination. -/
def maskRows (rows rb : Nat) (p : Mask) (z : Bool) (f : Nat → RowOut) : TileOut :=
  (List.range rows).foldl (fun (o : TileOut) r =>
    if p.getLsbD r then
      let w := f r
      { patch := o.patch.put (r * rb) rb w.val, flags := o.flags ||| w.flags, used := o.used || w.used }
    else if z then { o with patch := o.patch.put (r * rb) rb 0 }
    else o) {}

/-- The result of a vector instruction: patch, flags, and the seed's advance (R112, R118, R142). -/
def State.resTile (s : State) (n : Nat) (d : VReg) (h : How) (o : TileOut) : Out :=
  (s.seedStep h o.used).resV n d o.patch.val o.patch.mask o.flags

/-- The override of word 2. -/
def VX.over (x : Option VX) : Option Ty := x.bind VX.ty
/-- The rounding field of word 2. -/
def VX.round (x : Option VX) : Rm := match x with | some v => v.rm | none => .frm

/-- A vector instruction of masked rows: it issues, checks its geometry, and computes its rows (R140 to R143). -/
def vrows (op lat : Nat) (m : VMask) (d : VReg) (rd : Regs) (ty : Option Ty) (rm : Rm) (adm : Ty → Bool)
    (chk : Core → Geo → Bool) (rb : Geo → Nat) (f : Core → Geo → How → Nat → RowOut) (s : State)
    (src : Geo → Nat := Geo.rb) : Out :=
  issue (s.core.masked rd ty adm src m.p) { v := [d] } s fun s =>
    let c := s.core
    match c.geo ty adm with
    | none => s.illegal op
    | some g =>
      if !chk c g then s.illegal op
      else
        let h := c.how rm
        s.resTile lat d h (maskRows g.rows (rb g) (c.rp m.p) m.z (f c g h))

/-- An element-wise instruction (R146): `f` gives element (r, c), whose number in the tile is `i`. -/
def velem (op lat : Nat) (m : VMask) (d : VReg) (rd : Regs) (ty : Option Ty) (rm : Rm) (adm : Ty → Bool)
    (chk : Core → Geo → Bool) (f : Core → Geo → How → (r c i : Nat) → Elt) (s : State)
    (src : Geo → Nat := Geo.rb) : Out :=
  vrows op lat m d rd ty rm adm chk Geo.rb (fun c g h r =>
    rowOfElts g.sz ((List.range g.cols).map fun k => f c g h r k (r * g.cols + k))) s src

/-- No further check. -/
def noCheck (_ : Core) (_ : Geo) : Bool := true

/-- The registers that operand B reads. -/
def VSrc.reads (b : VSrc) : Regs :=
  match b with | .vec r => { v := [r] } | .xb c => { x := [c] }
/-- Operand B of element `i` (R144). -/
def Core.srcB (c : Core) (b : VSrc) (t : Ty) (i : Nat) : Nat :=
  match b with
  | .vec r => tileElem (c.rv r) t.size i
  | .xb x => lowBits t (c.rx x)

/-! Operations on elements (R146 to R149). -/

/-- A clamped integer result with the saturation flag (R94). -/
def intSat (t : Ty) (v : Int) : Elt :=
  let (c, out) := intClamp t v
  { bits := intBits t c, flags := flagIf out fSaturation }
/-- A sum or difference. -/
def addElt (neg sat : Bool) (t : Ty) (h : How) (r k a b : Nat) : Elt :=
  if t.isInt then
    let v := if neg then intVal t a - intVal t b else intVal t a + intVal t b
    if sat then intSat t v else { bits := intBits t v }
  else
    let y := tyValue t b
    let q := (tyValue t a).add h.mode (if neg then y.negate else y)
    eltRound t h r k q.1 q.2
/-- A product. -/
def mulElt (f : VMulFn) (t : Ty) (h : How) (r k a b : Nat) : Elt :=
  if t.isInt then
    let v := intVal t a * intVal t b
    match f with
    | .plain => { bits := intBits t v }
    | .hi => { bits := intBits t (v / 2 ^ tyBits t) }
    | .sat => intSat t v
  else
    let q := (tyValue t a).mul (tyValue t b)
    eltRound t h r k q.1 q.2
/-- A fused product and sum. -/
def fmaElt (neg sub : Bool) (t : Ty) (h : How) (r k a b c : Nat) : Elt :=
  if t.isInt then
    let p := intVal t a * intVal t b
    let p := if neg then -p else p
    { bits := intBits t (if sub then p - intVal t c else p + intVal t c) }
  else fmaOp neg sub t h r k a b c
/-- The smaller or larger (R133, R146). -/
def mmBits (t : Ty) (max : Bool) (a b : Nat) : Nat :=
  if t.isInt then (if decide (intVal t a < intVal t b) != max then a else b) else floatMinMax t max a b
/-- `VMINMAX`. -/
def minmaxElt (f : VMmFn) (t : Ty) (a b : Nat) : Elt :=
  match f with
  | .min => { bits := mmBits t false a b }
  | .max => { bits := mmBits t true a b }
  | .minp => { bits := if (tyValue t a).isNan || (tyValue t b).isNan then canonNaN t else mmBits t false a b }
  | .maxp => { bits := if (tyValue t a).isNan || (tyValue t b).isNan then canonNaN t else mmBits t true a b }
/-- `VCMP` (R147). -/
def cmpElt (f : VCmpFn) (t : Ty) (a b : Nat) : Elt :=
  let x := tyValue t a
  let y := tyValue t b
  let b : Bool :=
    if t.isInt then
      match f with
      | .eq => intVal t a = intVal t b
      | .ne => intVal t a ≠ intVal t b
      | .lt => intVal t a < intVal t b
      | .le => intVal t a ≤ intVal t b
      | .un => false
    else
      match f with
      | .eq => x.eqv y
      | .ne => !x.eqv y
      | .lt => x.lt y
      | .le => x.lt y || x.eqv y
      | .un => x.isNan || y.isNan
  { bits := if b then 2 ^ tyBits t - 1 else 0 }
/-- `VLOG`. -/
def logElt (f : VLogFn) (t : Ty) (a b : Nat) : Elt :=
  let all := 2 ^ tyBits t - 1
  { bits := match f with
      | .and => a &&& b
      | .or => a ||| b
      | .xor => a ^^^ b
      | .andn => a &&& (all - b)
      | .not => all - a }
/-- `VSHF` by an amount below the width (R148). -/
def shfElt (f : VShfFn) (t : Ty) (a n : Nat) : Elt :=
  let w := tyBits t
  { bits := match f with
      | .shl => a * 2 ^ n % 2 ^ w
      | .shr => a / 2 ^ n
      | .sar =>
        let v : Int := if 2 * a ≥ 2 ^ w then (a : Int) - 2 ^ w else a
        intBits t (v / 2 ^ n) }
/-- `VCLAMP` (R149). -/
def clampElt (t : Ty) (a lo hi : Nat) : Elt :=
  { bits := if !t.isInt && (tyValue t a).isNan then canonNaN t else mmBits t false (mmBits t true a lo) hi }
/-- `VRND` (R149). -/
def rndElt (t : Ty) (h : How) (r k a : Nat) : Elt :=
  match tyValue t a with
  | .nan => { bits := canonNaN t }
  | .inf _ => { bits := a }
  | .fin neg n d =>
    if n = 0 then { bits := a, used := true }
    else
      let (m, exact) := toIntegral h.mode neg n d (h.draw r k)
      { bits := (tyRound t .rne 0 (.fin neg m 1)).1, flags := flagIf (!exact) fInexact, used := true }
/-- `VSFU` (R161, R162). The faithful functions draw nothing (log 36). -/
def sfuElt (f : VSfuFn) (t : Ty) (h : How) (r k a : Nat) : Elt :=
  let x := tyValue t a
  let fm := fmtOf t
  match f with
  | .exp2 => eltOf (fExp2 fm x)
  | .log2 => eltOf (fLog2 fm x)
  | .rcp => let q := Num.div (.fin false 1 1) x; eltRound t h r k q.1 q.2
  | .rsqrt => eltOf (fRsqrt fm x)
  | .sqrt => { eltOf (fSqrt fm h.mode (h.draw r k) x) with used := sqrtUsed x }
  | .sinpi => eltOf (fTrigPi fm false x)
  | .cospi => eltOf (fTrigPi fm true x)
  | .tanh => eltOf (fTanh fm x)

/-! The element-wise instructions. -/

/-- An instruction with operands va and B. -/
def vbin (op lat : Nat) (m : VMask) (d a : VReg) (b : VSrc) (x : Option VX) (adm : Ty → Bool)
    (f : Ty → How → (r k a b : Nat) → Elt) (s : State) : Out :=
  velem op lat m d (Regs.and { v := [a] } (VSrc.reads b)) (VX.over x) (VX.round x) adm noCheck
    (fun c g h r k i => f g.ty h r k (tileElem (c.rv a) g.sz i) (c.srcB b g.ty i)) s

/-- `VADD` (R146). -/
def execVadd (f : VSat) (m : VMask) (d a : VReg) (b : VSrc) (x : Option VX) (s : State) : Out :=
  vbin 0x50 3 m d a b x f.admits (addElt false (f = .sat)) s
/-- `VSUB` (R146). -/
def execVsub (f : VSat) (m : VMask) (d a : VReg) (b : VSrc) (x : Option VX) (s : State) : Out :=
  vbin 0x51 3 m d a b x f.admits (addElt true (f = .sat)) s
/-- `VMUL` (R146). -/
def execVmul (f : VMulFn) (m : VMask) (d a : VReg) (b : VSrc) (x : Option VX) (s : State) : Out :=
  vbin 0x52 5 m d a b x f.admits (mulElt f) s
/-- `VFMA` (R146). -/
def execVfma (neg sub : Bool) (m : VMask) (d a : VReg) (b : VSrc) (c : VReg) (x : Option VX) (s : State) : Out :=
  velem 0x53 5 m d (Regs.and { v := [a, c] } (VSrc.reads b)) (VX.over x) (VX.round x) Ty.isIF noCheck
    (fun k g h r j i => fmaElt neg sub g.ty h r j (tileElem (k.rv a) g.sz i) (k.srcB b g.ty i) (tileElem (k.rv c) g.sz i)) s
/-- `VMINMAX` (R146). -/
def execVminmax (f : VMmFn) (m : VMask) (d a : VReg) (b : VSrc) (x : Option VX) (s : State) : Out :=
  vbin 0x54 3 m d a b x f.admits (fun t _ _ _ p q => minmaxElt f t p q) s
/-- `VCMP` (R147). -/
def execVcmp (f : VCmpFn) (m : VMask) (d a : VReg) (b : VSrc) (x : Option VX) (s : State) : Out :=
  vbin 0x55 3 m d a b x f.admits (fun t _ _ _ p q => cmpElt f t p q) s
/-- `VSEL` (R147). -/
def execVsel (m : VMask) (d a b c : VReg) (s : State) : Out :=
  velem 0x56 3 m d { v := [a, b, c] } none .frm Ty.isElem noCheck
    (fun k g _ _ _ i => { bits := if tileElem (k.rv c) g.sz i ≠ 0 then tileElem (k.rv a) g.sz i else tileElem (k.rv b) g.sz i }) s
/-- `VLOG` (R147). -/
def execVlog (f : VLogFn) (m : VMask) (d a b : VReg) (s : State) : Out :=
  velem 0x58 3 m d { v := if f = .not then [a] else [a, b] } none .frm Ty.isElem noCheck
    (fun k g _ _ _ i => logElt f g.ty (tileElem (k.rv a) g.sz i) (tileElem (k.rv b) g.sz i)) s
/-- `VSHF` (R148). -/
def execVshf (f : VShfFn) (m : VMask) (d a : VReg) (b : VAmt) (x : Option VX) (s : State) : Out :=
  let rd : Regs := match b with | .vec r => { v := [a, r] } | .xb c => { v := [a], x := [c] } | .imm _ => { v := [a] }
  let chk (_ : Core) (g : Geo) : Bool := match b with | .imm i => i.toNat < tyBits g.ty | _ => true
  velem 0x59 3 m d rd (VX.over x) (VX.round x) Ty.isInt chk
    (fun k g _ _ _ i =>
      let n := match b with
        | .vec r => tileElem (k.rv r) g.sz i
        | .xb c => (k.rx c).toNat
        | .imm v => v.toNat
      shfElt f g.ty (tileElem (k.rv a) g.sz i) (n % tyBits g.ty)) s
/-- `VSFU` (R161). -/
def execVsfu (f : VSfuFn) (m : VMask) (d a : VReg) (x : Option VX) (s : State) : Out :=
  velem 0x5A 10 m d { v := [a] } (VX.over x) (VX.round x) Ty.isFloat noCheck
    (fun c g h r k i => sfuElt f g.ty h r k (tileElem (c.rv a) g.sz i)) s
/-- `VCLAMP` (R149). -/
def execVclamp (m : VMask) (d a b c : VReg) (x : Option VX) (s : State) : Out :=
  velem 0x6C 3 m d { v := [a, b, c] } (VX.over x) (VX.round x) Ty.isIF noCheck
    (fun k g _ _ _ i => clampElt g.ty (tileElem (k.rv a) g.sz i) (tileElem (k.rv b) g.sz i) (tileElem (k.rv c) g.sz i)) s
/-- `VCLAMP` with a literal: an 8-byte type traps (R149). -/
def execVclampLiteral (m : VMask) (d a : VReg) (v : Word) (x : VX) (s : State) : Out :=
  velem 0x6C 3 m d { v := [a] } x.ty x.rm Ty.isIF (fun _ g => g.sz ≠ 8)
    (fun k g _ _ _ i =>
      clampElt g.ty (tileElem (k.rv a) g.sz i) (v.toNat % 2 ^ tyBits g.ty) (v.toNat / 2 ^ 32 % 2 ^ tyBits g.ty)) s
/-- `VRND` (R149). -/
def execVrnd (m : VMask) (d a : VReg) (x : Option VX) (s : State) : Out :=
  velem 0x6D 6 m d { v := [a] } (VX.over x) (VX.round x) Ty.isFloat noCheck
    (fun c g h r k i => rndElt g.ty h r k (tileElem (c.rv a) g.sz i)) s
/-- `VCVT`: the source tile has the source size and must fit as well (R155). -/
def execVcvt (f : VSat) (m : VMask) (d a : VReg) (src : Ty) (x : VX) (s : State) : Out :=
  velem 0x57 6 m d { v := [a] } x.ty x.rm (f.admitsCvt src) (fun _ g => g.rows * g.cols * src.size ≤ 1024)
    (fun c g h r k i => eltConvert g.ty src (f = .sat) h r k (tileElem (c.rv a) src.size i)) s (fun g => g.cols * src.size)

/-! Dot products (R160). -/

/-- The output type of `VDOT`. -/
def dotOut (t : Ty) : Ty := if !t.isInt then .f32 else if t.isSigned then .s32 else .n32
/-- An exact sum of an addend and products; an infinite or invalid term decides in any order (R97, R160). -/
def dotSum (mode : Mode) (terms : List (Num × Flags)) : Num × Flags :=
  let f := terms.foldl (fun a t => a ||| t.2) 0
  if terms.any fun t => t.1.isNan then (.nan, f)
  else
    (terms.drop 1).foldl (fun (a : Num × Flags) t => let b := a.1.add mode t.1; (b.1, a.2 ||| b.2))
      ((terms.headD (.zero, 0)).1, f)
/-- `VDOT` (R160). -/
def execVdot (f : VSat) (m : VMask) (d a b c : VReg) (x : Option VX) (s : State) : Out :=
  vrows 0x68 5 m d { v := [a, b, c] } (VX.over x) (VX.round x) f.admitsDot (fun _ g => g.cols % (4 / g.sz) = 0) Geo.rb
    (fun k g h r =>
      let n := 4 / g.sz
      let js := List.range (g.cols / n)
      rowOfElts 4 (js.map fun j =>
        let pair (i : Nat) : Nat × Nat :=
          let e := r * g.cols + n * j + i
          (tileElem (k.rv a) g.sz e, tileElem (k.rv b) g.sz e)
        let cc := tileElem (k.rv c) 4 (r * (g.cols / n) + j)
        if g.ty.isInt then
          let t := dotOut g.ty
          let v := ((List.range n).map fun i => intVal g.ty (pair i).1 * intVal g.ty (pair i).2).foldl (· + ·) (intVal t cc)
          if f = .sat then intSat t v else { bits := intBits t v }
        else
          let q := dotSum h.mode ((tyValue .f32 cc, 0) ::
            (List.range n).map fun i => (tyValue g.ty (pair i).1).mul (tyValue g.ty (pair i).2))
          eltRound .f32 h r j q.1 q.2)) s

end Sys2Proof.Machine
end

