-- ==== Sys2Proof/Machine/VectorMove.lean ====
section
/-! DEFINITION. Masks, moves, permutations, records, reductions and scans of the vector unit (07_vector.md R147, R150 to
R159, R163, R164). -/

namespace Sys2Proof.Machine

/-- The elements of a row. -/
def rowElems (t : Tile) (g : Geo) (r : Nat) : List Nat :=
  (List.range g.cols).map fun k => tileElem t g.sz (r * g.cols + k)

/-- No mask: every row, nothing zeroed. -/
def noMask : VMask := { p := 0, z := false }

/-! Masks (R147). -/

/-- A mask from one bit a row; bits at or above the rows are zero. -/
def rowMask (rows : Nat) (f : Nat → Bool) : Mask :=
  BitVec.ofNat 32 (((List.range rows).map fun r => if f r then 2 ^ r else 0).sum)
/-- `VMASK.any`, `.all`, `.col0` (R147). -/
def execVmask (f : VMaskFn) (d : PReg) (a : VReg) (s : State) : Out :=
  issue { s.core.masked { v := [a] } none Ty.isElem Geo.rb 0 with p := [] } { p := [d] } s fun s =>
    match s.core.geo none Ty.isElem with
    | none => s.illegal 0x6B
    | some g =>
      s.resP 3 d (rowMask g.rows fun r =>
        let es := rowElems (s.core.rv a) g r
        match f with
        | .any => es.any (· ≠ 0)
        | .all => es.all (· ≠ 0)
        | .col0 => es.headD 0 ≠ 0) 0
/-- `VMASK.expand` (R147). -/
def execVmaskExpand (d : VReg) (a : PReg) (s : State) : Out :=
  vrows 0x6B 3 noMask d { p := [a] } none .frm Ty.isElem noCheck Geo.rb
    (fun c g _ r => { val := if (c.rp a).getLsbD r then 2 ^ (8 * g.rb) - 1 else 0 }) s

/-! Moves (R150 to R154). -/

/-- `VMOV`, `VMOV.brow`, `VMOV.bcol` (R150). -/
def execVmov (f : VMovFn) (m : VMask) (d a : VReg) (x : Option VX) (s : State) : Out :=
  velem 0x5F 3 m d { v := [a] } (VX.over x) (VX.round x) Ty.isElem noCheck
    (fun c g _ r k i =>
      { bits := tileElem (c.rv a) g.sz (match f with | .copy => i | .brow => k | .bcol => r * g.cols) }) s
/-- `VMOV` from a scalar register (R150). -/
def execVmovScalar (m : VMask) (d : VReg) (c : XReg) (x : VX) (s : State) : Out :=
  velem 0x5F 3 m d { x := [c] } x.ty x.rm Ty.isElem noCheck (fun k g _ _ _ _ => { bits := lowBits g.ty (k.rx c) }) s
/-- `VMOV` from a literal (R150). -/
def execVmovLiteral (m : VMask) (d : VReg) (v : Word) (x : VX) (s : State) : Out :=
  velem 0x5F 3 m d {} x.ty x.rm Ty.isElem noCheck (fun _ g _ _ _ _ => { bits := lowBits g.ty v }) s
/-- `VIOTA` (R151). -/
def execViota (f : VIotaFn) (m : VMask) (d : VReg) (start : BitVec 32) (x : Option VX) (s : State) : Out :=
  velem 0x5E 3 m d {} (VX.over x) (VX.round x) Ty.isInt noCheck
    (fun _ g _ r k i =>
      { bits := intBits g.ty (start.toInt + ((match f with | .col => k | .row => r | .lin => i) : Nat)) }) s
/-- `VPERM` (R152). -/
def execVperm (m : VMask) (d a b : VReg) (x : Option VX) (s : State) : Out :=
  velem 0x5D 6 m d { v := [a, b] } (VX.over x) (VX.round x) Ty.isElem noCheck
    (fun c g _ r _ i =>
      let n := tileElem (c.rv b) g.sz i
      { bits := if n < g.cols then tileElem (c.rv a) g.sz (r * g.cols + n) else 0 }) s
/-- `VPERM.tr`: the transpose, a tile of cols rows and rows columns (R152). -/
def execVpermTr (d a : VReg) (x : Option VX) (s : State) : Out :=
  issue { s.core.masked { v := [a] } (VX.over x) Ty.isElem Geo.rb 0 with p := [] } { v := [d] } s fun s =>
    match s.core.geo (VX.over x) Ty.isElem with
    | none => s.illegal 0x5D
    | some g =>
      if g.cols > 32 then s.illegal 0x5D
      else
        let es := (List.range g.cols).flatMap fun k =>
          (List.range g.rows).map fun r => tileElem (s.core.rv a) g.sz (r * g.cols + k)
        let p := ({} : Patch).put 0 (g.rows * g.rb) (joinElems g.sz es)
        s.resV 6 d p.val p.mask 0
/-- The element that `VEXT` and `VINS` name, when the geometry and the two registers admit it (R153). -/
def Core.cell (c : Core) (ty : Option Ty) (col row : XReg) : Option (Geo × Nat) :=
  match c.geo ty Ty.isElem with
  | none => none
  | some g =>
    if (c.rx col).toNat < g.cols ∧ (c.rx row).toNat < g.rows then some (g, (c.rx row).toNat * g.cols + (c.rx col).toNat)
    else none
/-- `VEXT` (R153). -/
def execVext (d : XReg) (a : VReg) (b c : XReg) (ty : Option Ty) (s : State) : Out :=
  issue { x := [b, c], v := [a] } { x := [d] } s fun s =>
    match s.core.cell ty b c with
    | none => s.illegal 0x6E
    | some (g, i) => s.resX 3 d (placeX g.ty (tileElem (s.core.rv a) g.sz i))
/-- `VINS` (R153). -/
def execVins (d : VReg) (a b c : XReg) (ty : Option Ty) (s : State) : Out :=
  issue { x := [a, b, c] } { v := [d] } s fun s =>
    match s.core.cell ty b c with
    | none => s.illegal 0x6F
    | some (g, i) =>
      let p := ({} : Patch).put (i * g.sz) g.sz (lowBits g.ty (s.core.rx a))
      s.resV 3 d p.val p.mask 0
/-- `VSHAPE` (R46, R55, R154). -/
def execVshape (rows : Fin 32) (cols : Fin 2048) (ty : Ty) (s : State) : Out :=
  let v : Word := BitVec.ofNat 64 (rows.val + 1 + 2 ^ 16 * cols.val + 2 ^ 32 * ty.code)
  if vsLegal v then .next (s.upd fun c => { c with vs := v }).retire else s.illegal 0x60

/-! Records (R156 to R158). -/

/-- Byte offset of record `j` of row `r` (R156). -/
def recOff (g : Geo) (rec : Ty) (r j : Nat) : Nat := (r * (g.cols / 32) + j) * rec.size
/-- The geometry of records (R156). -/
def recFits (rec : Ty) (g : Geo) : Bool := g.cols % 32 = 0 && g.rows * (g.cols / 32) * rec.size ≤ 1024
/-- `VPACK.unpack` (R157). -/
def execVpackUnpack (m : VMask) (d a : VReg) (rec : Ty) (x : VX) (s : State) : Out :=
  velem 0x66 6 m d { v := [a] } x.ty x.rm Ty.isFloat (fun _ g => recFits rec g)
    (fun c g h r k _ => eltRound g.ty h r k (recValue rec (tileBytes (c.rv a) (recOff g rec r (k / 32)) rec.size) (k % 32))) s
    (fun g => g.cols / 32 * rec.size)
/-- Records formed row by row from blocks of 32 elements: bytes, flags, use of the generator. -/
def recRow (g : Geo) (rec : Ty) (t : Tile) (r : Nat) (form : Nat → List Num → Formed) : RowOut :=
  let fs := (List.range (g.cols / 32)).map fun j =>
    form j ((List.range 32).map fun i => tyValue g.ty (tileElem t g.sz (r * g.cols + 32 * j + i)))
  { val := joinElems rec.size (fs.map Formed.word), flags := fs.foldl (fun f e => f ||| e.flags) 0
    used := fs.any Formed.rounded }
/-- `VPACK.pack`, by the scale bytes of vb (R157). -/
def execVpackPack (m : VMask) (d a b : VReg) (rec : Ty) (x : VX) (s : State) : Out :=
  vrows 0x66 6 m d { v := [a, b] } x.ty x.rm Ty.isFloat (fun _ g => recFits rec g) (fun g => g.cols / 32 * rec.size)
    (fun c g h r => recRow g rec (c.rv a) r fun j xs =>
      packRec rec h.mode (fun i => h.draw r (32 * j + i)) (tileBytes (c.rv b) (r * (g.cols / 32) + j) 1) xs) s
/-- `VQNT`, by a scale that it computes (R158). -/
def execVqnt (m : VMask) (d a : VReg) (rec : Ty) (x : VX) (s : State) : Out :=
  vrows 0x6A 6 m d { v := [a] } x.ty x.rm Ty.isFloat (fun _ g => recFits rec g) (fun g => g.cols / 32 * rec.size)
    (fun c g h r => recRow g rec (c.rv a) r fun j xs => quantRec rec h.mode (fun i => h.draw r (32 * j + i)) xs) s

/-! Block maxima, reductions, scans (R159, R163, R164). -/

/-- `VBMAX` of one block (R159). -/
def blockMax (abs : Bool) (t : Ty) (es : List Nat) : Elt :=
  if t.isInt then
    if abs then intSat t (es.foldl (fun (m : Int) e => max m ((intVal t e).natAbs : Int)) 0)
    else { bits := intBits t (es.foldl (fun (m : Int) e => max m (intVal t e)) (intMin t)) }
  else if es.any fun e => (tyValue t e).isNan then { bits := canonNaN t }
  else
    let es := if abs then es.map (absBits t) else es
    { bits := es.foldl (floatMinMax t true) (es.headD 0) }
/-- `VBMAX` (R159). -/
def execVbmax (abs : Bool) (m : VMask) (d a : VReg) (x : Option VX) (s : State) : Out :=
  vrows 0x69 6 m d { v := [a] } (VX.over x) (VX.round x) Ty.isIF (fun _ g => g.cols % 32 = 0) Geo.rb
    (fun c g _ r =>
      let es := rowElems (c.rv a) g r
      rowOfElts g.sz ((List.range (g.cols / 32)).map fun j => blockMax abs g.ty ((es.drop (32 * j)).take 32))) s

/-- How a reduction combines: a sum, a maximum, a minimum. -/
inductive Comb where
  | sum | max | min
  deriving DecidableEq, Repr

/-- Combines two values, drawing for an element; flags and use gather (R163). -/
def Comb.op (k : Comb) (t : Ty) (h : How) (row idx : Nat) (a b : Elt) : Elt :=
  let f := a.flags ||| b.flags
  let u := a.used || b.used
  match k with
  | .max => { bits := mmBits t true a.bits b.bits, flags := f, used := u }
  | .min => { bits := mmBits t false a.bits b.bits, flags := f, used := u }
  | .sum =>
    let e := addElt false false t h row idx a.bits b.bits
    { bits := e.bits, flags := f ||| e.flags, used := u || e.used }
/-- The identity (R163). -/
def Comb.unit (k : Comb) (t : Ty) : Nat :=
  match k with
  | .sum => 0
  | .max => if t.isInt then intBits t (intMin t) else (tyRound t .rne 0 (.inf true)).1
  | .min => if t.isInt then intBits t (intMax t) else (tyRound t .rne 0 (.inf false)).1
/-- An element that becomes a result with nothing combined into it: a NaN is the canonical one (R97). -/
def passElt (t : Ty) (a : Nat) : Nat := if !t.isInt && (tyValue t a).isNan then canonNaN t else a
/-- The largest power of two below `n`, for `n ≥ 2`. -/
def halfPow (n : Nat) : Nat := 2 ^ (n - 1).log2
/-- The fixed tree of R163 over the elements from `lo` on; the fuel bounds its depth. -/
def combTree (k : Comb) (t : Ty) (h : How) (at_ : Nat → Nat × Nat) : Nat → Nat → List Nat → Elt
  | 0, _, es => { bits := passElt t (es.headD (k.unit t)) }
  | fuel + 1, lo, es =>
    match es with
    | [] => { bits := k.unit t }
    | [a] => { bits := passElt t a }
    | _ =>
      let m := halfPow es.length
      let (row, idx) := at_ (lo + m)
      k.op t h row idx (combTree k t h at_ fuel lo (es.take m)) (combTree k t h at_ fuel (lo + m) (es.drop m))

/-- The combination of a form of `VRED`. -/
def VRedFn.comb : VRedFn → Comb
  | .sum | .csum => .sum
  | .max | .cmax => .max
  | .min | .cmin => .min
/-- The rows that a mask admits. -/
def liveRows (rows : Nat) (p : Mask) : List Nat := (List.range rows).filter fun r => p.getLsbD r
/-- `VRED` (R163). -/
def execVred (f : VRedFn) (m : VMask) (d a : VReg) (x : Option VX) (s : State) : Out :=
  let k := VRedFn.comb f
  if f.isCol then
    issue (s.core.masked { v := [a] } (VX.over x) Ty.isIF Geo.rb m.p) { v := [d] } s fun s =>
      match s.core.geo (VX.over x) Ty.isIF with
      | none => s.illegal 0x5B
      | some g =>
        let h := s.core.how (VX.round x)
        let live := liveRows g.rows (s.core.rp m.p)
        let es := (List.range g.cols).map fun c =>
          combTree k g.ty h (fun i => (i, c)) 6 0 (live.map fun r => tileElem (s.core.rv a) g.sz (r * g.cols + c))
        let o := rowOfElts g.sz es
        s.resTile 8 d h { patch := ({} : Patch).put 0 g.rb o.val, flags := o.flags, used := o.used }
  else
    vrows 0x5B 8 m d { v := [a] } (VX.over x) (VX.round x) Ty.isIF noCheck Geo.rb
      (fun c g h r => rowOfElts g.sz [combTree k g.ty h (fun i => (r, i)) 11 0 (rowElems (c.rv a) g r)]) s

/-- An element of a line that is scanned: its place, its value, and whether the row that receives the result is masked in. -/
structure ScanElt where
  at_  : Nat
  val  : Nat
  live : Bool
  deriving DecidableEq, Repr
/-- The running combination of a line: the inclusive results in order (R164). The draw of a step is that of the element it writes. A
result that no row receives hands the flags of its step on to the next. -/
def scanIncl (k : Comb) (t : Ty) (h : How) (at_ : Nat → Nat × Nat) : Option (Elt × Bool) → List ScanElt → List Elt
  | _, [] => []
  | none, a :: l => let e : Elt := { bits := passElt t a.val }; e :: scanIncl k t h at_ (some (e, a.live)) l
  | some (q, live), a :: l =>
    let (row, idx) := at_ a.at_
    let e := k.op t h row idx (if live then { bits := q.bits } else { bits := q.bits, flags := q.flags }) { bits := a.val }
    e :: scanIncl k t h at_ (some (e, a.live)) l
/-- A line scanned, to the results of its places. The exclusive form forms every inclusive result but the last, each drawing for
the place after its own. -/
def scanLine (k : Comb) (excl : Bool) (t : Ty) (h : How) (at_ : Nat → Nat × Nat) (l : List ScanElt) : List Elt :=
  if excl then
    let next := (l.zip l.tail).map fun q => { q.1 with live := q.2.live }
    (({ bits := 0 } : Elt) :: scanIncl k t h (fun i => at_ (i + 1)) none next).take l.length
  else scanIncl k t h at_ none l
/-- The combination of a form of `VSCAN`. -/
def VScanFn.comb : VScanFn → Comb
  | .max => .max
  | _ => .sum
/-- The exclusive forms. -/
def VScanFn.excl : VScanFn → Bool
  | .esum | .cesum => true
  | _ => false
/-- `VSCAN` (R164). In the column forms a masked-off row contributes the identity to the running value. -/
def execVscan (f : VScanFn) (m : VMask) (d a : VReg) (x : Option VX) (s : State) : Out :=
  let k := VScanFn.comb f
  let ex := VScanFn.excl f
  match f with
  | .csum | .cesum =>
    issue (s.core.masked { v := [a] } (VX.over x) Ty.isIF Geo.rb m.p) { v := [d] } s fun s =>
      match s.core.geo (VX.over x) Ty.isIF with
      | none => s.illegal 0x5C
      | some g =>
        let h := s.core.how (VX.round x)
        let p := s.core.rp m.p
        let cols := (List.range g.cols).map fun c =>
          scanLine k ex g.ty h (fun r => (r, c)) ((List.range g.rows).map fun r =>
            { at_ := r, live := p.getLsbD r
              val := if p.getLsbD r then tileElem (s.core.rv a) g.sz (r * g.cols + c) else k.unit g.ty })
        s.resTile 8 d h (maskRows g.rows g.rb p m.z fun r => rowOfElts g.sz (cols.map fun l => l.getD r { bits := 0 }))
  | _ =>
    vrows 0x5C 8 m d { v := [a] } (VX.over x) (VX.round x) Ty.isIF noCheck Geo.rb
      (fun c g h r =>
        rowOfElts g.sz (scanLine k ex g.ty h (fun i => (r, i))
          ((rowElems (c.rv a) g r).zipIdx.map fun q => { at_ := q.2, val := q.1, live := true }))) s

end Sys2Proof.Machine
end

