-- ==== Sys2Proof/Machine/Tiles.lean ====
section
/-! DEFINITION. Tile loads and stores, the consuming load, indexed forms, and the heap sift (07_vector.md R165 to
R174). -/

namespace Sys2Proof.Machine

/-- A place further on in a space. -/
def Space.plus (sp : Space) (k : Nat) : Space :=
  match sp with | .glob a => .glob (a + k) | .share o => .share (o + k) | .ctl o => .ctl (o + k) | .win o => .win (o + k)
/-- The own share, the control page excluded (R65). -/
def Space.isShare : Space → Bool
  | .share _ => true | _ => false

/-- The generic address of a place. -/
def Space.address : Space → Nat
  | .glob a => a | .share o => 8 * 2 ^ 60 + o | .ctl o => 8 * 2 ^ 60 + ctlBase + o | .win o => 9 * 2 ^ 60 + o

/-- Part of a tile load: where its bytes lie, how many, and where they go in the register. -/
structure LoadCell where
  sp  : Space
  n   : Nat
  off : Nat
  deriving DecidableEq, Repr

/-- The bytes read, put into a patch. -/
def putCells (p : Patch) : List LoadCell → List (List Byte) → Patch
  | c :: cs, b :: bs => putCells (p.put c.off c.n (leNat b)) cs bs
  | _, _ => p

/-- The reads of a tile load: nothing is written when one reads poison, which the core consumes (R382). -/
def State.loadCells (s : State) (cells : List LoadCell) (p : Patch) (k : State → Patch → Out) : Out :=
  (s.places .read (cells.map fun c => (c.sp, c.n))).run fun s ps =>
    match s.readPlaces ps with
    | (s, none) =>
      let bad := (cells.zip ps).find? fun q => (s.readPlace q.2).2.isNone
      .next (s.consume (match bad with | some q => q.1.sp.address | none => 0))
    | (s, some bs) => k s (putCells p cells bs)
/-- A tile load: class C in the own share, readable at k + 5, else class X (R65, R66, R166). -/
def State.loadTile (s : State) (op : Nat) (d : VReg) (inShare : Bool) (cells : List LoadCell) (p : Patch) : Out :=
  if inShare then s.loadCells cells p fun s p => s.resV 5 d p.val p.mask 0
  else s.classX op fun s => s.loadCells cells p fun s p => .next (s.upd (·.lateV d p.val p.mask)).retire
/-- A tile store: in place from k + 5 in the own share, else class X (R63, R65, R166). -/
def State.storeTile (s : State) (op : Nat) (inShare : Bool) (cells : List (Space × List Byte)) : Out :=
  if inShare then
    .next (s.upd fun c => cells.foldl (fun c q => match q.1 with
      | .share o => c.pendStore 5 o q.2 false
      | _ => c) c).retire
  else s.classX op fun s =>
    (s.places .write (cells.map fun q => (q.1, q.2.length))).run fun s ps =>
      .next (s.writePlaces ps (cells.map Prod.snd)).retire

/-- The zeroed rows of a mask (R141). -/
def zeroRows (g : Geo) (p : Mask) (z : Bool) : Patch :=
  if z then ((List.range g.rows).filter fun r => !p.getLsbD r).foldl (fun q r => q.put (r * g.rb) g.rb 0) {} else {}

/-- The parts of word 2 of an extended tile access; without it, every row. -/
def MX.mask (x : Option MX) : VMask := match x with | some v => v.m | none => noMask
/-- Its displacement. -/
def MX.disp (x : Option MX) : BitVec 32 := match x with | some v => v.imm | none => 0
/-- Its type. -/
def MX.over (x : Option MX) : Option Ty := x.bind MX.ty

/-- The geometry and address of a plain tile access, checked (R140, R166). -/
def tileAccess (op : Nat) (m : MAddr) (x : Option MX) (s : State) (k : State → Geo → Space → Out) : Out :=
  match s.core.geo (MX.over x) Ty.isElem with
  | none => s.illegal op
  | some g =>
    let a := s.core.ea m 16 (MX.disp x)
    if a.toNat % g.sz ≠ 0 then s.addrFault op a.toNat
    else
      match s.resolve a (g.rows * g.rb) with
      | none => s.addrFault op a.toNat
      | some sp => k s g sp

/-- `VLD` (R165, R166). -/
def execVld (d : VReg) (m : MAddr) (x : Option MX) (s : State) : Out :=
  let k := MX.mask x
  issue { x := MAddr.reads m, p := [k.p] } { v := [d] } s fun s =>
    tileAccess 0x61 m x s fun s g sp =>
      let p := s.core.rp k.p
      s.loadTile 0x61 d sp.isShare
        ((liveRows g.rows p).map fun r => { sp := sp.plus (r * g.rb), n := g.rb, off := r * g.rb }) (zeroRows g p k.z)
/-- `VST` (R165, R166). -/
def execVst (m : MAddr) (d : VReg) (x : Option MX) (s : State) : Out :=
  let k := MX.mask x
  issue (s.core.masked { x := MAddr.reads m, v := [d] } (MX.over x) Ty.isElem Geo.rb k.p) {} s fun s =>
    tileAccess 0x62 m x s fun s g sp =>
      s.storeTile 0x62 sp.isShare ((liveRows g.rows (s.core.rp k.p)).map fun r =>
        (sp.plus (r * g.rb), leBytes g.rb (tileBytes (s.core.rv d) (r * g.rb) g.rb)))

/-- The four origins of a shaped access (R165, R167). -/
def origins (c e : Word) (imm : BitVec 32) : Int × Int × Int × Int :=
  ((c.truncate 32).toInt, (e.truncate 32).toInt, (imm.truncate 16).toInt, ((imm >>> 16).truncate 16).toInt)
/-- A shaped tile access, checked (R48 to R53, R167, R382): its record, window, and whether its base lies in the own share. -/
def shapedAccess (op : Nat) (a c e : XReg) (x : MX) (dest : Bool) (s : State)
    (k : State → Geo → Shape → Win → Bool → Out) : Out :=
  match s.core.geo x.ty Ty.isElem with
  | none => s.illegal op
  | some g =>
    let ra := s.core.rx a
    match s.core.shapeAt ra with
    | none => s.shapeFault ra.toNat 1
    | some bs =>
      if s.core.recordBad ra then .next (s.consume ra.toNat) else
      let h := Shape.ofBytes bs
      let (o0, o1, o2, o3) := origins (s.core.rx c) (s.core.rx e) x.imm
      let w := Win.of g.cols g.rows o0 o1 o2 o3
      match s.judge h w (· = g.ty) dest with
      | .fails row => s.shapeFault ra.toNat row
      | _ => k s g h w (tag h.base = 8 && baseOffset h.base < s.core.shareSize)
/-- `VLD.s` (R167): the pad stands in clipped units. -/
def execVldShaped (d : VReg) (a c e : XReg) (x : MX) (s : State) : Out :=
  issue { x := [a, c, e], p := [x.m.p] } { v := [d] } s fun s =>
    shapedAccess 0x61 a c e x false s fun s g h w inShare =>
      let p := s.core.rp x.m.p
      let us := (h.units w).zipIdx.filter fun q => p.getLsbD (q.2 / g.cols)
      let pads := us.filter fun q => q.1.isNone
      let base := pads.foldl (fun (b : Patch) q => b.put (q.2 * g.sz) g.sz (leNat h.padUnit)) (zeroRows g p x.m.z)
      let cells := us.filterMap fun q => q.1.map fun u =>
        ({ sp := s.unitSpace h.base u, n := g.sz, off := q.2 * g.sz } : LoadCell)
      s.loadTile 0x61 d inShare cells base
/-- `VST.s` (R167): clipped units are not written. -/
def execVstShaped (a c e : XReg) (d : VReg) (x : MX) (s : State) : Out :=
  issue (s.core.masked { x := [a, c, e], v := [d] } x.ty Ty.isElem Geo.rb x.m.p) {} s fun s =>
    shapedAccess 0x62 a c e x true s fun s g h w inShare =>
      let p := s.core.rp x.m.p
      let us := (h.units w).zipIdx.filter fun q => p.getLsbD (q.2 / g.cols)
      s.storeTile 0x62 inShare (us.filterMap fun q => q.1.map fun u =>
        (s.unitSpace h.base u, leBytes g.sz (tileElem (s.core.rv d) g.sz q.2)))

/-- `VLDF` (R169): it waits until every covered granule is full, then reads and, for `.take`, empties them. -/
def execVldf (keep : Bool) (d : VReg) (m : MAddr) (x : Option MX) (s : State) : Out :=
  let k := MX.mask x
  issue { x := MAddr.reads m, p := [k.p] } { v := [d] } s fun s =>
    match s.core.geo (MX.over x) Ty.isElem with
    | none => s.illegal 0x63
    | some g =>
      let a := s.core.ea m 16 (MX.disp x)
      match (if a.toNat % 16 = 0 then s.core.inShare a (g.rows * g.rb) else none) with
      | none => s.addrFault 0x63 a.toNat
      | some o =>
        s.classX 0x63 fun s =>
          let p := s.core.rp k.p
          let live := liveRows g.rows p
          let gs := live.flatMap fun r => granules (o + r * g.rb) g.rb
          if gs.all s.core.full.contains then
            s.loadCells (live.map fun r => { sp := .share (o + r * g.rb), n := g.rb, off := r * g.rb }) (zeroRows g p k.z)
              fun s q =>
                let s := if keep then s else s.upd fun c => { c with full := c.full.filter fun i => !gs.contains i }
                s.resV 1 d q.val q.mask 0
          else .next s.wait

/-- The signed integer that an element's bits hold (R170). -/
def signedElem (n w : Nat) : Int := if 2 * w ≥ 2 ^ (8 * n) then (w : Int) - 2 ^ (8 * n) else w
/-- The masked-in elements of an indexed access with their addresses (R170). -/
def indexed (c : Core) (g : Geo) (a : XReg) (b : VReg) (p : Mask) : List (Nat × Word) :=
  (liveRows g.rows p).flatMap fun r => (List.range g.cols).map fun k =>
    let i := r * g.cols + k
    (i, c.rx a + BitVec.ofInt 64 (signedElem g.sz (tileElem (c.rv b) g.sz i) * g.sz))
/-- The places of indexed elements, or the first address that fails (R170). -/
def State.places? (s : State) (n : Nat) : List (Nat × Word) → Except Word (List (Nat × Space))
  | [] => .ok []
  | (i, a) :: l =>
    match (if a.toNat % n = 0 then s.resolve a n else none) with
    | none => .error a
    | some sp => (s.places? n l).map ((i, sp) :: ·)
/-- `VLDX` (R170). -/
def execVldx (d : VReg) (a : XReg) (b : VReg) (m : VMask) (ty : Option Ty) (s : State) : Out :=
  issue (s.core.masked { x := [a], v := [b] } ty Ty.isElem Geo.rb m.p) { v := [d] } s fun s =>
    match s.core.geo ty Ty.isElem with
    | none => s.illegal 0x64
    | some g =>
      let p := s.core.rp m.p
      match s.places? g.sz (indexed s.core g a b p) with
      | .error w => s.addrFault 0x64 w.toNat
      | .ok l =>
        s.loadTile 0x64 d (l.all fun q => q.2.isShare) (l.map fun q => { sp := q.2, n := g.sz, off := q.1 * g.sz })
          (zeroRows g p m.z)
/-- `VSTX`: the later of two elements of one address stands (R170). -/
def execVstx (a : XReg) (b d : VReg) (p : PReg) (ty : Option Ty) (s : State) : Out :=
  issue (s.core.masked { x := [a], v := [b, d] } ty Ty.isElem Geo.rb p) {} s fun s =>
    match s.core.geo ty Ty.isElem with
    | none => s.illegal 0x65
    | some g =>
      match s.places? g.sz (indexed s.core g a b (s.core.rp p)) with
      | .error w => s.addrFault 0x65 w.toNat
      | .ok l =>
        s.storeTile 0x65 (l.all fun q => q.2.isShare)
          (l.map fun q => (q.2, leBytes g.sz (tileElem (s.core.rv d) g.sz q.1)))

/-! The heap sift (R171 to R174). -/

/-- One row's update of a heap in the cluster-shared window; nothing when it reads poison. -/
def Cluster.heapRow (k : Cluster) (n : Nat) (new : Bool) (r : HeapRow) : Option Cluster :=
  if !new && (k.wpois.any fun d => overlap (8 * d) 8 r.off (8 * n)) then none
  else
    let h := if new then Heap.fresh n else Heap.ofBytes n (k.window.read r.off (8 * n))
    let bs := (h.enter r.key r.val).bytes
    some { k with window := k.window.write r.off bs
                  wpois := k.wpois.filter fun d => !(wholeWords r.off bs.length).contains d }
/-- The rows of a heap in the window, in order. -/
def Cluster.heapRows (k : Cluster) (n : Nat) (new : Bool) : List HeapRow → Option Cluster
  | [] => some k
  | r :: l => (k.heapRow n new r).bind fun k => k.heapRows n new l
/-- The own held stores, and those that the core sees, to the rows of a heap in the window are performed before its update (R208,
R224). -/
def State.beforeHeap (s : State) (n : Nat) (rows : List HeapRow) : State :=
  rows.foldl (fun s r => s.before s.core.id { hpa := heldAddr (clusterOf s.core.id) r.off, len := 8 * n, kind := 1, gpa := 0 }) s
/-- `HSIFT` (R171 to R174). -/
def execHsift (k : Fin 16) (new : Bool) (a : XReg) (b d : VReg) (c : XReg) (p : PReg) (s : State) : Out :=
  issue (s.core.masked { x := [a, c], v := [b, d] } none Ty.isElem Geo.rb p) {} s fun s =>
    match s.core.geo none Ty.isElem with
    | none => s.illegal 0x67
    | some g =>
      let col := (s.core.rx c).toNat
      if g.sz ≠ 4 ∨ col ≥ g.cols then s.illegal 0x67
      else
        let h := s.core.rx a
        let o := offset h
        let n := 128 * g.rows
        let ok := h.toNat % 8 = 0 ∧
          ((tag h = 8 ∧ o + n ≤ s.core.shareSize) ∨ (tag h = 9 ∧ o + n ≤ s.winSize))
        if ¬ ok then s.addrFault 0x67 h.toNat
        else
          let rows := (liveRows g.rows (s.core.rp p)).map fun r =>
            ({ off := o + 128 * r, key := tileElem (s.core.rv b) 4 (r * g.cols + col)
               val := tileElem (s.core.rv d) 4 (r * g.cols + col) } : HeapRow)
          if tag h = 8 then .next (s.upd fun c => c.later 12 (.heap (k.val + 1) new rows)).retire
          else s.classX 0x67 fun s =>
            let s := s.beforeHeap (k.val + 1) rows
            match (s.cluster (clusterOf s.core.id)).heapRows (k.val + 1) new rows with
            | none => .next (s.consume h.toNat)
            | some q => .next (s.modCluster (clusterOf s.core.id) fun _ => q).retire

end Sys2Proof.Machine
end

