-- ==== Sys2Proof/Machine/Memory.lean ====
section
/-! DEFINITION. Loads and stores, full and empty bits, atomics, the watch, fences and barriers, and the steps of the
memory system that complete them (04_stream.md R90 to R93; 11_memory_isa.md R225 to R234). -/

namespace Sys2Proof.Machine

/-- Bytes of an access size (R40). -/
def MSize.bytes : MSize → Nat
  | .b => 1 | .h => 2 | .w => 4 | .d => 8

/-! Loads and stores (R227, R228). -/

/-- A value loaded, extended. -/
def extended (sx : Bool) (n v : Nat) : Word :=
  if sx ∧ 2 * v ≥ 2 ^ (8 * n) then BitVec.ofInt 64 ((v : Int) - 2 ^ (8 * n)) else BitVec.ofNat 64 v

/-- `LD` at an address (R228): class C in the own share, readable at k + 4, else class X in the scoreboard. -/
def load (n : Nat) (sx : Bool) (d : XReg) (a : Word) (s : State) : Out :=
  match (if a.toNat % n = 0 then s.resolve a n else none) with
  | none => s.addrFault 0x30 a.toNat
  | some sp =>
    let go (k : State → Word → Out) (s : State) : Out :=
      (s.readSpace sp n).run fun s v =>
        match v with
        | none => .next (s.consume a.toNat)
        | some bs => k s (extended sx n (leNat bs))
    if sp.isShare then go (fun s v => s.resX 4 d v) s
    else s.classX 0x30 (go fun s v => .next (s.upd (·.lateX d v)).retire)

/-- `ST` at an address (R228): class C in the own share, in place from k + 4, else class X. A release takes the stores before
it along (R212); its own share is seen by the core alone, in order as it stands (R63, R214). -/
def store (n : Nat) (rel : Option Scope) (a : Word) (d : XReg) (s : State) : Out :=
  match (if a.toNat % n = 0 then s.resolve a n else none) with
  | none => s.addrFault 0x31 a.toNat
  | some sp =>
    let bs := leBytes n (s.core.rx d).toNat
    match sp with
    | .share o => .next (s.upd fun c => c.pendStore 4 o bs false).retire
    | _ => s.classX 0x31 fun s => (s.writeSpace sp bs rel).run fun s _ => .next s.retire

/-- `LD` (R228). -/
def execLd (sz : MSize) (d : XReg) (m : MAddr) (s : State) : Out :=
  issue { x := MAddr.reads m } { x := [d] } s fun s => load (MSize.bytes sz) false d (s.core.ea m (MSize.bytes sz)) s
/-- `LD`, extended (R227, R228). A load is performed when it issues, before every later access, so that an acquire of any
scope holds of itself (R212; log 9). -/
def execLdExtended (sz : MSize) (d : XReg) (m : MAddr) (imm : BitVec 32) (_acq : Option Scope) (sx : Bool) (s : State) :
    Out :=
  issue { x := MAddr.reads m } { x := [d] } s fun s =>
    load (MSize.bytes sz) sx d (s.core.ea m (MSize.bytes sz) imm) s
/-- `ST` (R228). -/
def execSt (sz : MSize) (m : MAddr) (d : XReg) (s : State) : Out :=
  issue { x := d :: MAddr.reads m } {} s fun s => store (MSize.bytes sz) none (s.core.ea m (MSize.bytes sz)) d s
/-- `ST`, extended (R227, R228). -/
def execStExtended (sz : MSize) (m : MAddr) (d : XReg) (imm : BitVec 32) (rel : Option Scope) (s : State) : Out :=
  issue { x := d :: MAddr.reads m } {} s fun s =>
    store (MSize.bytes sz) rel (s.core.ea m (MSize.bytes sz) imm) d s

/-- `MEMORY_LOAD_RETURN`: the oldest variable-latency result of the core returns (R64, R228). -/
def execMemoryLoadReturn (s : State) : Out := .next (s.upd Core.landLate)
/-- `MEMORY_STORE_PERFORM`: the `i`-th held store is performed at a scope, when nothing must be performed before it (R207 to
R212); past the held stores, the steps at log words that follow performed stores (R341). -/
def execMemoryStorePerform (q : PerformStep) (s : State) : Out :=
  let i := q.i
  let sc := q.sc
  let n := s.stores.length
  .next (if i < n then (if s.mayPerform i sc.lvl then s.bring fun _ j => if j = i then sc.lvl else 0 else s)
    else match s.dirties[i - n]? with
      | some (p, g) => { s with dirties := s.dirties.eraseIdx (i - n) }.logDirty p g
      | none => s)

/-! Full and empty bits (R229). -/

/-- A doubleword of the own share that `LDF` and `STF` may name: its offset. -/
def Core.dword (c : Core) (a : Word) : Option Nat := if a.toNat % 8 = 0 then c.inShare a 8 else none
/-- `LDF` (R229). -/
def execLdf (keep : Bool) (d : XReg) (m : MAddr) (x : Option (BitVec 32)) (s : State) : Out :=
  issue { x := MAddr.reads m } { x := [d] } s fun s =>
    let a := s.core.ea m 8 (x.getD 0)
    match s.core.dword a with
    | none => s.addrFault 0x32 a.toNat
    | some o => s.classX 0x32 fun s =>
      if !s.core.full.contains (o / 16) then .next s.wait
      else if s.core.sharePoisoned o 8 then .next (s.consume a.toNat)
      else
        let v := BitVec.ofNat 64 (s.core.shareNat o 8)
        (if keep then s else s.upd fun c => { c with full := setDel c.full (o / 16) }).nowX d v
/-- `STF` (R229): in place and full from k + 4. -/
def execStf (m : MAddr) (d : XReg) (x : Option (BitVec 32)) (s : State) : Out :=
  issue { x := d :: MAddr.reads m } {} s fun s =>
    let a := s.core.ea m 8 (x.getD 0)
    match s.core.dword a with
    | none => s.addrFault 0x33 a.toNat
    | some o => .next (s.upd fun c => c.pendStore 4 o (leBytes 8 (c.rx d).toNat) true).retire

/-! Atomics (R230, R231). -/

/-- A lane as a signed integer of `n` bytes. -/
def signedOf (n v : Nat) : Int := signedElem n (v % 2 ^ (8 * n))
/-- The value that `ATOM` leaves (R230). -/
def atomNew (op : AtomOp) (n old b c : Nat) : Nat × Flags :=
  let w := 2 ^ (8 * n)
  let b := b % w
  match op with
  | .swap => (b, 0)
  | .cas => (if old = b then c % w else old, 0)
  | .add => ((old + b) % w, 0)
  | .and => (old &&& b, 0)
  | .or => (old ||| b, 0)
  | .xor => (old ^^^ b, 0)
  | .smin => (if signedOf n b < signedOf n old then b else old, 0)
  | .smax => (if signedOf n old < signedOf n b then b else old, 0)
  | .umin => (min old b, 0)
  | .umax => (max old b, 0)
  | .fadd =>
    let q := (tyValue .f32 old).add .rne (tyValue .f32 b)
    let r := tyRound .f32 .rne 0 q.1
    (r.1, q.2 ||| r.2)
  | .fmin => (floatMinMax .f32 false old b, 0)
  | .fmax => (floatMinMax .f32 true old b, 0)
/-- The type of the lanes of `ATOMV`; `.swap` takes bytes as they come. -/
def AtomvOp.ty : AtomvOp → Ty
  | .swap => .n64
  | .add t | .min t | .max t => t
/-- One lane of `ATOMV` (R231). -/
def laneNew (op : AtomvOp) (a b : Nat) : Elt :=
  match op with
  | .swap => { bits := b }
  | .add t => addElt false false t { mode := .rne, seed := 0 } 0 0 a b
  | .min t => { bits := mmBits t false a b }
  | .max t => { bits := mmBits t true a b }
/-- The granule that `ATOMV` leaves (R231). -/
def atomvNew (op : AtomvOp) (old b : Nat) : Nat × Flags :=
  let n := (AtomvOp.ty op).size
  let lane (w i : Nat) : Nat := w / 2 ^ (8 * n * i) % 2 ^ (8 * n)
  let es := (List.range (16 / n)).map fun i => laneNew op (lane old i) (lane b i)
  (joinElems n (es.map Elt.bits), es.foldl (fun f e => f ||| e.flags) 0)

/-- An atomic at the memory: the address checks, the phase, the translation, the page's store, and the read-modify-write
as one step (R230). -/
def atomic (op : Nat) (a : Word) (n : Nat) (o : AtomOrd) (f : Nat → Nat × Flags) (k : State → Nat → State) (s : State) :
    Out :=
  match (if a.toNat % n = 0 ∧ (tag a = 0 ∨ tag a = 10) then s.resolve a n else none) with
  | none => s.addrFault op a.toNat
  | some sp => s.classX op fun s =>
    (s.place sp n .atomic).run fun s pl =>
      match pl with
      | .mem [p] =>
        if !(isBank p.hpa || isHbm p.hpa) then s.addrFault op a.toNat
        else
          let s := (if o.rel ∧ p.kind ≠ 2 then s.release s.core.id o.scope.lvl else s).before s.core.id p
          if s.physPoison p.hpa n then .next (s.consume a.toNat 5)
          else
            let old := s.physNat p.hpa n
            let (w, fl) := f old
            let s := s.writePieces s.myPart [p] (leBytes n w)
            let s := s.upd fun c => { c with ctl := { c.ctl with bflags := c.ctl.bflags ||| fl } }
            .next (k s old).retire
      | _ => s.addrFault op a.toNat

/-- `ATOM` (R230). -/
def execAtom (op : AtomOp) (sz : MSize) (o : AtomOrd) (d a b c : XReg) (imm : BitVec 32) (s : State) : Out :=
  issue { x := [a, b, c] } { x := [d] } s fun s =>
    let n := MSize.bytes sz
    let vb := (s.core.rx b).toNat
    let vc := (s.core.rx c).toNat
    atomic 0x34 (s.core.rx a + sx imm) n o (fun old => atomNew op n old vb vc)
      (fun s old => s.upd (·.lateX d (BitVec.ofNat 64 old))) s
/-- `ATOMV` (R231). With d = e the register holds bytes 8 to 15 (log 75). -/
def execAtomv (op : AtomvOp) (o : AtomOrd) (d e a b c : XReg) (imm : BitVec 32) (s : State) : Out :=
  issue { x := [a, b, c] } { x := [d, e] } s fun s =>
    let v := (s.core.rx b).toNat + 2 ^ 64 * (s.core.rx c).toNat
    atomic 0x35 (s.core.rx a + sx imm) 16 o (fun old => atomvNew op old v)
      (fun s old => s.upd fun c =>
        (c.lateX d (BitVec.ofNat 64 old)).lateX e (BitVec.ofNat 64 (old / 2 ^ 64))) s
/-- `BANK_UNIT_ATOMIC_STEP`: the read-modify-write at the unit that holds an address, translated from a guest-physical one of a
partition (R220, R230, R341); a poisoned word is not changed (R382). -/
def execBankUnitAtomicStep (op : AtomOp) (sz : MSize) (u : UnitAt) (b c : Word) (s : State) : Out :=
  let n := MSize.bytes sz
  let hpa := u.hpa
  if !(isBank hpa || isHbm hpa) ∨ hpa % n ≠ 0 ∨ s.physPoison hpa n then .next s
  else .next ((s.physWrite hpa (leBytes n (atomNew op n (s.physNat hpa n) b.toNat c.toNat).1)).dirty u.part u.gpa)

/-! The watch (R90, R91). -/

/-- A doubleword of the share or the control page: its contents, or nothing for poison. -/
def Core.watched (c : Core) (a : Word) : Option Nat :=
  match c.dword a with
  | some o => if c.sharePoisoned o 8 then none else some (c.shareNat o 8)
  | none => some (leNat (c.ctlRead (offset a - ctlBase) 8))
/-- `WATCH` (R90). -/
def execWatch (m : MAddr) (s : State) : Out :=
  issue { x := MAddr.reads m } {} s fun s =>
    let a := s.core.ea m 8
    let ok := a.toNat % 8 = 0 ∧ tag a = 8 ∧
      (offset a + 8 ≤ s.core.shareSize ∨ (ctlBase ≤ offset a ∧ offset a + 8 ≤ ctlBase + 4096))
    if ¬ ok then s.addrFault 0x36 a.toNat
    else
      match s.core.watched a with
      | none => .next (s.consume a.toNat)
      | some v => .next (s.upd fun c => { c with watch := { addr := a, seen := BitVec.ofNat 64 v, armed := true } }).retire
/-- `WAITW` (R91): the value is readable in the slot after the release. -/
def execWaitw (c : WaitCond) (d a : XReg) (s : State) : Out :=
  issue { x := [a] } { x := [d] } s fun s =>
    if !s.core.watch.armed then s.illegal 0x37
    else s.classX 0x37 fun s =>
      match s.core.watched s.core.watch.addr with
      | none => .next (s.consume s.core.watch.addr.toNat)
      | some n =>
        let v := BitVec.ofNat 64 n
        let held : Bool := match c with
          | .eq => v = s.core.rx a
          | .ne => v ≠ s.core.rx a
          | .chg => v ≠ s.core.watch.seen
        if held then s.nowX d v else .next s.wait

/-! Fences and barriers (R232 to R234). -/

/-- What a fence performs at its scope (R212, R232): an `.acq` nothing more, since every load is performed when it issues; a
`.rel` the SO and RC stores that the core has made or observed; a `.full` those of UO pages too. -/
def State.fenced (s : State) (k : FenceKind) (lvl : Nat) : State :=
  match k with
  | .acq => s
  | .rel => s.release s.core.id lvl
  | .full => s.fullFence s.core.id lvl
/-- `FENCE` (R232). -/
def execFence (k : FenceKind) (sc : Scope) (s : State) : Out := s.classX 0x38 fun s => .next (s.fenced k sc.lvl).retire

/-- A barrier by domain and tag. -/
def Launch.bar (l : Launch) (level dom tag : Nat) : Barrier :=
  (l.bars.find? fun b => b.level = level && b.dom = dom && b.tag = tag).getD
    { level := level, dom := dom, tag := tag, gen := 0, members := [], here := [], active := false, aborted := false
      owed := [] }
/-- Replaces a barrier. -/
def Launch.setBar (l : Launch) (b : Barrier) : Launch :=
  { l with bars := (l.bars.filter fun q => !(q.level = b.level && q.dom = b.dom && q.tag = b.tag)) ++ [b] }

/-- The word that `BAR` writes: the number of the generation that ended last, the first being 0 (R233; 18_prog_wrapup.md,
"The wrap-up's generation is the first, and `x19` = 0"). -/
def Barrier.word (b : Barrier) : Word := b.gen - 1 + (if b.aborted then 1#64 <<< 63 else 0)
/-- An arrival at a barrier (R234): it joins the generation under way or begins one. A core that is no member of the
generation under way waits for the next. -/
def Barrier.arrive (b : Barrier) (n : Nat) (members : List Nat) : Barrier :=
  if b.active then (if b.members.contains n ∧ ¬ b.here.contains n then { b with here := b.here ++ [n] } else b)
  else { b with active := true, members := members, here := [n] }

/-- The scope of a barrier by its domain level (R213), as a level: a chain has its cluster's, or its die's when it spans
clusters. -/
def Core.barLvl (c : Core) : Nat :=
  match c.dom.toNat with
  | 0 => if c.chain.ids.all fun n => clusterOf n = clusterOf c.id then 1 else 2
  | 1 => 1
  | 2 | 3 => 2
  | _ => 3
/-- `BAR` (R213, R233, R234, R405); illegal in a handler (R362). -/
def execBar (tag : Fin 4) (d : XReg) (s : State) : Out :=
  issue {} { x := [d] } s fun s =>
    let level := s.core.dom.toNat
    if level > 4 ∨ s.core.frame.isSome then s.illegal 0x39
    else s.classX 0x39 fun s =>
      let c := s.core
      let s := s.fullFence c.id c.barLvl
      let lid := c.launch.toNat
      match s.launches.find? lid with
      | none => s.nowX d 0                   -- a domain of one core, whose first generation completes
      | some l =>
        let dom := c.domIndex level
        let b := l.bar level dom tag.val
        let s := if b.owed.contains c.id then s
          else (s.modLaunch lid fun l => l.setBar (b.arrive c.id (s.domain l level dom))).completeBars lid
        let b := match s.launches.find? lid with | some l => l.bar level dom tag.val | none => b
        if b.owed.contains c.id then
          (s.modLaunch lid fun l => l.setBar { b with owed := b.owed.filter (· ≠ c.id) }).nowX d b.word
        else
          let late := c.chain.ids.any fun n => b.members.contains n && !b.here.contains n
          .next (s.upd fun c => { c.waits with arrived := true, skewWait := late })
/-- `BARRIER_GENERATION_COMPLETE`: a generation whose members have all arrived completes (R233, R234). -/
def execBarrierGenerationComplete (lid level dom : Nat) (tag : Fin 4) (s : State) : Out :=
  match s.launches.find? lid with
  | none => .next s
  | some l =>
    let b := l.bar level dom tag.val
    .next (if b.full then s.modLaunch lid fun l => (s.adopt l level).setBar (b.ends false) else s)

end Sys2Proof.Machine
end

