-- ==== Sys2Proof/Machine/EngineIssue.lean ====
section
/-! DEFINITION. The issue of engine commands and the receive side of messages (11_memory_isa.md R235, R236, R238, R240,
R242 to R244, R246 to R248). -/

namespace Sys2Proof.Machine

/-! Issue. -/

/-- Why a command is not queued. -/
inductive IssueFail where
  | illegal
  | address (a : Word)
  | poison (a : Word)
  deriving DecidableEq, Repr

/-- What a command takes at issue. -/
structure Taken where
  ops   : List Word
  shape : List Byte := []
  data  : List Byte := []
  bad   : Option Nat := none
  deriving DecidableEq, Repr

/-- A local range with tag 0x8 at an alignment: its offset (R236, R238). -/
def Core.local_ (c : Core) (a : Word) (n align : Nat) : Except IssueFail Nat :=
  match (if a.toNat % align = 0 then c.inShare a (max n 1) else none) with
  | some o => .ok o
  | none => .error (.address a)
/-- The offset of the first poisoned byte of a range of the share. -/
def Core.badAt (c : Core) (o n : Nat) : Option Nat :=
  c.poison.foldl (fun m d =>
    if o < 8 * d + 8 ∧ 8 * d < o + n then
      let k := max o (8 * d) - o
      some (match m with | some j => min j k | none => k)
    else m) none
/-- Local source bytes, taken at issue (R237); their offset is the last operand kept. -/
def Core.source (c : Core) (ops : List Word) (o n : Nat) (shape : List Byte := []) : Taken :=
  { ops := ops ++ [BitVec.ofNat 64 o], shape := shape, data := c.shareRead o n, bad := c.badAt o n }

/-- The issue of an engine command (R235): its predicate, its checks, the queue, its sequence number. -/
def engineIssue (op : Nat) (ins : Instr) (rd : List XReg) (stamp : XReg) (pe : PReg) (chk : Core → Except IssueFail Taken)
    (s : State) : Out :=
  issue { x := stamp :: rd, p := [pe] } {} s fun s =>
    let c := s.core
    if !(c.rp pe).getLsbD 0 then .next s.retire
    else
      match chk c with
      | .error .illegal => s.illegal op
      | .error (.address a) => s.addrFault op a.toNat
      | .error (.poison a) => .next (s.consume a.toNat)
      | .ok t =>
        match c.dword (c.rx stamp) with
        | none => s.addrFault op (c.rx stamp).toNat
        | some o =>
          if c.engine.length ≥ 8 then .next s.freeze
          else
            let e : EngineCmd := { ins := ins, seq := c.sqn, stamp := o, ops := t.ops, shape := t.shape, data := t.data
                                   bad := t.bad, started := false, moved := 0, status := 0x01, waits := 0 }
            .next (s.upd fun c => { c with engine := c.engine ++ [e], sqn := c.sqn + 1 }).retire

/-- A check that takes the illegal-operand trap. -/
def need (b : Bool) : Except IssueFail Unit := if b then .ok () else .error .illegal

/-- A legal destination of `SEND` (R238). -/
def destLegal (mc : Bool) (w : Word) : Bool :=
  let n := w.toNat
  if mc then n < 2 ^ 20 && fld n 4 3 ≤ fld n 7 3 && fld n 10 5 ≤ fld n 15 5 else n < 2 ^ 12
/-- The destinations of `SEND` (R238). -/
def destsOf (mc : Bool) (w : Word) : List Nat :=
  let n := w.toNat
  if mc then
    (List.range (fld n 7 3 + 1 - fld n 4 3)).flatMap fun r => (List.range (fld n 15 5 + 1 - fld n 10 5)).map fun k =>
      256 * fld n 0 4 + 32 * (fld n 4 3 + r) + fld n 10 5 + k
  else [n]

/-- `SEND` (R238). -/
def execSend (mc : Bool) (d a b c : XReg) (tag : BitVec 32) (pe : PReg) (s : State) : Out :=
  engineIssue 0x3C (.send mc d a b c tag pe) [d, a, b] c pe (fun k => do
    need (destLegal mc (k.rx d))
    need ((k.rx b).toNat ≤ 65536)
    let o ← k.local_ (k.rx a) (k.rx b).toNat 16
    return k.source [k.rx d, tag.setWidth 64] o (k.rx b).toNat) s
/-- `SEND` of a literal (R238). -/
def execSendLiteral (mc : Bool) (d c : XReg) (tag : BitVec 32) (pe : PReg) (v : Word) (s : State) : Out :=
  engineIssue 0x3C (.send mc d 0 0 c tag pe) [d] c pe (fun k => do
    need (destLegal mc (k.rx d))
    return { ops := [k.rx d, tag.setWidth 64], data := leBytes 8 v.toNat }) s
/-- `SENDN` (R243). -/
def execSendn (dir : Dir) (d a b c : XReg) (pe : PReg) (s : State) : Out :=
  engineIssue 0x3D (.sendn dir d a b c pe) [d, a, b] c pe (fun k => do
    need ((k.rx b).toNat ≤ 65536)
    let o ← k.local_ (k.rx a) (k.rx b).toNat 16
    if tag (k.rx d) ≠ 8 ∨ (k.rx d).toNat % 16 ≠ 0 then .error (.address (k.rx d))
    return k.source [k.rx d] o (k.rx b).toNat) s
/-- `HALO` (R244): the record is read at issue and validated at the engine. -/
def execHalo (dirs : BitVec 4) (d a b c : XReg) (q : BitVec 32) (pe : PReg) (s : State) : Out :=
  engineIssue 0x3E (.halo dirs d a b c q pe) [d, a, b] c pe (fun k => do
    need (1 ≤ (k.rx b).toNat ∧ (k.rx b).toNat ≤ 16)
    if tag (k.rx d) ≠ 8 ∨ (k.rx d).toNat % 16 ≠ 0 then .error (.address (k.rx d))
    if (k.shapeAt (k.rx a)).isSome ∧ k.recordBad (k.rx a) then .error (.poison (k.rx a))
    return { ops := [k.rx d, k.rx a, k.rx b], shape := (k.shapeAt (k.rx a)).getD [] }) s

/-- The unit size of a record's type, bits 4 to 0 of byte 8 (R246): zero when it is reserved. -/
def recordUnit (rec : List Byte) : Nat := match Ty.ofCode ((rec.getD 8 0).toNat % 32) with | some t => t.size | none => 0
/-- `COPY` in both directions (R246): record address, record, local range, in this order. -/
def copyIssue (out win : Bool) (ins : Instr) (d a b c e : XReg) (w1 : BitVec 32) (pe : PReg) (s : State) : Out :=
  engineIssue 0x40 ins [d, a, b, c] e pe (fun k => do
    let rec ← match k.shapeAt (k.rx a) with | some r => pure r | none => .error (.address (k.rx a))
    if k.recordBad (k.rx a) then .error (.poison (k.rx a))
    let lo := (w1.toNat) % 65536
    let hi := w1.toNat / 65536
    let (n0, n1) := if win then (lo + 1, hi + 1) else (k.cols, k.rows)
    let (o0, o1, o2, o3) := origins (k.rx b) (k.rx c) (if win then 0 else w1)
    let n := n0 * n1 * recordUnit rec
    let o ← if recordUnit rec = 0 then pure 0 else k.local_ (k.rx d) n 16
    let ops : List Word := [k.rx a, BitVec.ofNat 64 o, BitVec.ofNat 64 n0, BitVec.ofNat 64 n1, BitVec.ofInt 64 o0,
      BitVec.ofInt 64 o1, BitVec.ofInt 64 o2, BitVec.ofInt 64 o3]
    return if out then k.source ops o n rec else { ops := ops, shape := rec }) s
/-- `COPY.in` (R246). -/
def execCopyIn (win : Bool) (d a b c e : XReg) (w1 : BitVec 32) (pe : PReg) (s : State) : Out :=
  copyIssue false win (.copyIn win d a b c e w1 pe) d a b c e w1 pe s
/-- `COPY.out` (R246). -/
def execCopyOut (win : Bool) (d a b c e : XReg) (w1 : BitVec 32) (pe : PReg) (s : State) : Out :=
  copyIssue true win (.copyOut win d a b c e w1 pe) d a b c e w1 pe s

/-- `GATHER` and `SCATTER` (R247): reserved bits, row length and row count, then the ranges and the base. -/
def rowsIssue (op : Nat) (out i64 : Bool) (ty : Ty) (ins : Instr) (d a b c e : XReg) (stride : BitVec 32) (pe : PReg)
    (s : State) : Out :=
  let lim := (s.context s.core.ctx).splim
  engineIssue op ins [d, a, b, c] e pe (fun k => do
    let v := (k.rx c).toNat
    let n := fld v 0 17
    let rl := fld v 32 17
    need (fld v 17 15 = 0 ∧ fld v 49 15 = 0 ∧ 1 ≤ rl ∧ rl ≤ 65536 ∧ n ≤ 65536)
    let o ← k.local_ (k.rx d) (n * rl * ty.size) 16
    let base := k.rx a
    if ¬ ((tag base = 0 ∧ offset base / 2 ^ 57 = 0) ∨ (tag base = 10 ∧ offset base < lim)) then .error (.address base)
    let isz := if i64 then 8 else 4
    let io ← k.local_ (k.rx b) (n * isz) 8
    let ops : List Word := [BitVec.ofNat 64 o, base, BitVec.ofNat 64 n, BitVec.ofNat 64 rl, stride.setWidth 64]
    if k.sharePoisoned io (n * isz) then .error (.poison (k.rx b))
    let list := k.shareRead io (n * isz)
    return if out then k.source ops o (n * rl * ty.size) list else { ops := ops, shape := list }) s
/-- `GATHER` (R247). -/
def execGather (i64 : Bool) (ty : Ty) (d a b c e : XReg) (stride : BitVec 32) (pe : PReg) (s : State) : Out :=
  rowsIssue 0x41 false i64 ty (.gather i64 ty d a b c e stride pe) d a b c e stride pe s
/-- `SCATTER` (R247). -/
def execScatter (i64 : Bool) (ty : Ty) (d a b c e : XReg) (stride : BitVec 32) (pe : PReg) (s : State) : Out :=
  rowsIssue 0x42 true i64 ty (.scatter i64 ty d a b c e stride pe) d a b c e stride pe s
/-- `PUT` (R248). -/
def execPut (d a b c e : XReg) (pe : PReg) (s : State) : Out :=
  engineIssue 0x43 (.put d a b c e pe) [d, a, b, c] e pe (fun k => do
    let n := (k.rx c).toNat
    need ((k.rx a).toNat < 65536 ∧ n % 16 = 0 ∧ 16 ≤ n ∧ n ≤ 1048576 ∧ (k.rx b).toNat % 16 = 0)
    let o ← k.local_ (k.rx d) n 16
    return k.source [k.rx a, k.rx b] o n) s

/-! Receives (R239 to R242). -/

/-- A legal selector (R240). -/
def selLegal (w : Word) : Bool := fld w.toNat 12 4 = 0 && fld w.toNat 28 36 = 0
/-- A message matches a selector and tag (R240). -/
def selMatch (src mask : Nat) (anytag : Bool) (tag : BitVec 32) (from_ : Nat) (mtag : BitVec 32) : Bool :=
  (from_ ^^^ src) &&& mask = 0 && (anytag || mtag = tag)
/-- A receive takes an overflow entry in one step of the matching unit (R240). -/
def Core.takeEntry (c : Core) (r : RecvSlot) (j : Nat) (o : OvEntry) : Core :=
  let data := (c.shareRead (c.shareSize - 16384 + 1024 * j) o.len).take r.max
  let c := { c with ctl := { c.ctl with ovq := c.ctl.ovq.del j } }
  (if data = [] then c else c.arrive r.buf data).complete r o.src o.tag o.len
/-- The oldest overflow entry that matches (R225, R240, R242): its number and contents. -/
def Control.oldest (k : Control) (src mask : Nat) (anytag : Bool) (tag : BitVec 32) : Option (Nat × OvEntry) :=
  let l := k.ovq.filter fun e => selMatch src mask anytag tag e.2.src e.2.tag
  l.foldl (fun m e => match m with
    | none => some e
    | some b => if (e.2.arrival - b.2.arrival).toInt < 0 then some e else some b) none
/-- The lowest number below a bound that is not listed. -/
def lowestFree {α : Type} (m : Assoc α) (n : Nat) : Option Nat := (List.range n).find? fun j => (m.find? j).isNone

/-- A receive takes a branch whose payload is still landing in an overflow entry: it lands in the receive's buffer instead (R240). -/
def State.turnMsg (s : State) (n j : Nat) (r : RecvSlot) : State :=
  let s := s.modCore n fun c => { c with ctl := { c.ctl with ovq := c.ctl.ovq.del j } }
  { s with msgs := s.msgs.map fun m => match m.take with
      | some k => if m.dst = n ∧ k.recv.isNone ∧ k.entry = j then
          { m with take := some { k with recv := some r, parts := cutGranules r.buf (m.data.take r.max) } } else m
      | none => m }

/-- `RECV` (R240). It takes its sequence number once, before its wait for a slot. -/
def execRecv (anytag : Bool) (d a b c : XReg) (tag : BitVec 32) (s : State) : Out :=
  issue { x := [d, a, b, c] } {} s fun s =>
    let k := s.core
    let sel := (k.rx b).toNat
    let max := (k.rx a).toNat
    match k.local_ (k.rx d) ((max + 15) / 16 * 16) 16 with
    | .error _ => s.addrFault 0x3B (k.rx d).toNat
    | .ok buf =>
      match (if (k.rx c).toNat % 8 = 0 then k.inShare (k.rx c) 16 else none) with
      | none => s.addrFault 0x3B (k.rx c).toNat
      | some st =>
        if !selLegal (k.rx b) ∨ max > 65536 then s.illegal 0x3B
        else s.classX 0x3B fun s =>
          let k := s.core
          let seq := if k.arrived then BitVec.ofNat 32 k.stage else k.sqn
          let s := if k.arrived then s else s.upd fun c => { c with sqn := c.sqn + 1 }
          let r : RecvSlot := { buf := buf, max := max, src := fld sel 0 12, mask := fld sel 16 12, anytag := anytag, tag := tag
                                stamp := st, seq := seq, order := k.ctl.posts }
          match lowestFree k.ctl.slots 32 with
          | none => .next (s.upd fun c => { c.waits with arrived := true, stage := seq.toNat })
          | some j =>
            match k.ctl.oldest r.src r.mask anytag tag with
            | some (e, o) =>
              .next (if o.live then s.upd fun c => c.takeEntry r e o else s.turnMsg s.core.id e r).retire
            | none =>
              .next (s.upd fun c =>
                { c with ctl := { c.ctl with slots := c.ctl.slots.put j r, posts := c.ctl.posts + 1 } }).retire

/-- A control page without the overflow entries whose payload is still landing. -/
def Control.whole (k : Control) : Control := { k with ovq := k.ovq.filter fun e => e.2.live }
/-- `PROBE` (R242). -/
def execProbe (anytag : Bool) (d a b : XReg) (s : State) : Out :=
  issue { x := [a, b] } { x := [d] } s fun s =>
    let k := s.core
    let sel := (k.rx a).toNat
    if !selLegal (k.rx a) then s.illegal 0x3F
    else s.classX 0x3F fun s =>
      let v := match k.ctl.whole.oldest (fld sel 0 12) (fld sel 16 12) anytag ((k.rx b).truncate 32) with
        | none => 0
        | some (j, e) => 2 ^ 63 + j * 2 ^ 59 + e.len * 2 ^ 48 + e.src * 2 ^ 32 + e.tag.toNat
      .next (s.upd (·.lateX d (BitVec.ofNat 64 v))).retire

end Sys2Proof.Machine
end

