-- ==== Sys2Proof/Machine/EngineRun.lean ====
section
/-! DEFINITION. Engine commands at work: starts, transfers in unit order with their replays, stamps, message arrivals,
puts, and twin sets (11_memory_isa.md R235 to R250; 19_isolation.md R338; 22_containment.md R382; 23_module.md R399). -/

namespace Sys2Proof.Machine

/-! Commands by number. -/

/-- A command completes: its stamp, and its queue entry is free (R235, R236). -/
def State.finishCmd (s : State) (n : Nat) (seq : BitVec 32) (status count : Nat) : State :=
  match (s.coreAt n).engine.find? fun e => e.seq = seq with
  | none => s
  | some e =>
    (s.modCore n fun c => { c.stamp e.stamp status count seq.toNat with engine := c.engine.filter (·.seq ≠ seq) }).count n
      0x0B 1
/-- A trap record about a command of a core (R355, R357). -/
def State.noteCmd (s : State) (n : Nat) (seq : BitVec 32) (cause addr info0 info1 : Nat) : State :=
  s.note ((s.coreAt n).cmdRec cause seq addr info0 info1)
/-- A command of the core that acts ends at once with status 0x80, after its record. -/
def State.abortCmd (s : State) (e : EngineCmd) (cause addr info0 info1 : Nat) : State :=
  (s.noteCmd s.core.id e.seq cause addr info0 info1).modCmd s.core.id e.seq fun e => { e with status := worse e.status 0x80 }
/-- A destination rejects: status 0x82 and a record (R239, R252). -/
def State.rejectCmd (s : State) (n : Nat) (seq : BitVec 32) (dst : Nat) : State :=
  ((s.noteCmd n seq 0x12 0 dst 0x82).modCmd n seq fun e => { e with status := worse e.status 0x82 }).count n 0x0C 1

/-- A core that takes arrivals: it runs a task, or a poisoned arrival has stopped it in one. -/
def Core.takes (c : Core) : Bool := c.role = .running || c.role = .halted
/-- The core's task is saved, and takes no arrival until it is back (R251). -/
def State.isSaved (s : State) (c : Core) : Bool := c.role = .saved && (s.context c.ctx).stored
/-- A core takes arrivals, also while it stands stopped for a save that has yet to be made (R251). -/
def State.takesAt (s : State) (c : Core) : Bool := c.takes || (c.role = .saved && !(s.context c.ctx).stored)
/-- The number under which the machine keeps a saved core of a context that has left the mesh (R251, R375; log 22). -/
def awayId (ctx n : Nat) : Nat := 65536 * (ctx + 1) + n
/-- Where a message for a core is to land: at a task of the sender's context that is saved off that core, when the core runs
none of the context (R239, R251). -/
def State.landsAt (s : State) (ctx n : Nat) : Nat :=
  let d := s.coreAt n
  if n < 4096 ∧ !(d.role ≠ .idle && d.ctx = ctx) ∧ (s.coreAt (awayId ctx n)).role = .saved then awayId ctx n else n

/-! Starts (R235). -/

/-- The address of the first poisoned source byte of a command. -/
def EngineCmd.badAddr (e : EngineCmd) : Nat := 8 * 2 ^ 60 + (e.ops.getLastD 0).toNat + e.bad.getD 0
/-- Operand `i` taken at issue. -/
def EngineCmd.op (e : EngineCmd) (i : Nat) : Word := e.ops.getD i 0

/-- The window of a `COPY` (R246). -/
def EngineCmd.win (e : EngineCmd) : Win :=
  Win.of (e.op 2).toNat (e.op 3).toNat (e.op 4).toInt (e.op 5).toInt (e.op 6).toInt (e.op 7).toInt

/-- `SEND` starts: a branch to each destination (R238, R239). -/
def State.startSend (s : State) (e : EngineCmd) (mc : Bool) : State :=
  let c := s.core
  let ds := destsOf mc (e.op 0)
  let ms := ds.map fun d => ({ src := c.id, dst := d, seq := e.seq, part := c.ctx / 16, ctx := c.ctx
                               tag := (e.op 1).truncate 32, data := e.data } : Msg)
  ({ s with msgs := s.msgs ++ ms }.modCmd c.id e.seq fun e => { e with waits := ds.length }).modCore c.id
    fun c => { c with sent := c.sent + BitVec.ofNat 64 ds.length }

/-- `SENDN` starts (R243). -/
def State.startSendn (s : State) (e : EngineCmd) (dir : Dir) : State :=
  let c := s.core
  match neighbour c.id dir with
  | none => s.rejectCmd c.id e.seq 0xFFFF
  | some d =>
    let m : NMsg := { src := c.id, dst := d, seq := e.seq, dir := dir, off := offset (e.op 0), data := e.data
                      units := e.data.length, halo := false }
    { s with nmsgs := s.nmsgs ++ [m] }.modCmd c.id e.seq fun e => { e with waits := 1 }

/-- The coordinates that `HALO` sends in a direction, row-major (R244). -/
def haloCells (dir : Dir) (nc nr w : Nat) : List (Nat × Nat) :=
  let rows (a n : Nat) (b m : Nat) : List (Nat × Nat) :=
    (List.range n).flatMap fun r => (List.range m).map fun k => (b + k, a + r)
  match dir with
  | .n => rows 0 w 0 nc
  | .s => rows (nr - w) w 0 nc
  | .w => rows 0 nr 0 w
  | .e => rows 0 nr (nc - w) w
/-- A core runs a task of another's launch, or is stopped in one (R243, R251). -/
def State.sameLaunch (s : State) (a b : Nat) : Bool :=
  (s.coreAt b).role ≠ .idle && (s.coreAt a).launch = (s.coreAt b).launch
/-- The part of a `HALO` that goes each way, from the elements counted so far (R244): a way without a neighbour of the launch is
skipped, a sealed neighbour rejects, and at a poisoned element the command ends, the elements before it landing (R382). -/
def State.haloParts (s : State) (e : EngineCmd) (q u : Nat) (at_ : Nat × Nat → Nat) (cells : Dir → List (Nat × Nat)) :
    Nat → List Dir → State
  | _, [] => s
  | k, d :: ds =>
    let c := s.core
    let skip : State := s.modCmd c.id e.seq fun e => { e with status := worse e.status 0x02 }
    match neighbour c.id d with
    | none => skip.haloParts e q u at_ cells k ds
    | some n =>
      if (s.coreAt n).sealed then (s.rejectCmd c.id e.seq n).haloParts e q u at_ cells k ds
      else if !s.sameLaunch c.id (s.landsAt c.ctx n) then skip.haloParts e q u at_ cells k ds
      else
        let all := cells d
        let good := all.takeWhile fun x => !c.sharePoisoned (at_ x) u
        let cut := good.length < all.length
        let m : NMsg := { src := c.id, dst := n, seq := e.seq, dir := d, off := offset (e.op 0) + Dir.num (Dir.back d) * q
                          data := good.flatMap fun x => c.shareRead (at_ x) u, units := good.length, halo := true, cut := cut }
        let s := if cut ∧ good = [] then s
          else { s with nmsgs := s.nmsgs ++ [m] }.modCmd c.id e.seq fun e => { e with waits := e.waits + 1 }
        if cut then s.abortCmd e 0x21 (8 * 2 ^ 60 + at_ (all.getD good.length (0, 0))) 4 (k + good.length)
        else
          s.haloParts e q u at_ cells (k + all.length) ds
/-- `HALO` starts (R244): the record is validated, then a part leaves in each direction of the mask. -/
def State.startHalo (s : State) (e : EngineCmd) (dirs : BitVec 4) (q : Nat) : State :=
  let ra := (e.op 1).toNat
  let shapeFault (row : Nat) : State := s.abortCmd e 0x06 ra row 0
  if e.shape = [] then shapeFault 1
  else
    let h := Shape.ofBytes e.shape
    let nc := h.ext[0]
    let nr := h.ext[1]
    let w := (e.op 2).toNat
    match s.judge h (Win.of nc nr 0 0 0 0) Ty.isElem false with
    | .fails row => shapeFault row
    | j =>
      let u := (h.ty.getD .n8).size
      if h.rank ≠ 2 then shapeFault 3
      else if tag h.base ≠ 8 then shapeFault 4
      else if j = .nothing ∨ w > nc ∨ w > nr ∨ q % 16 ≠ 0 ∨ q < (max (w * nc) (nr * w) * u + 15) / 16 * 16 then
        s.abortCmd e 0x02 0 0x3E 0
      else
        let at_ (x : Nat × Nat) : Nat := ((baseOffset h.base : Int) + u * (x.1 * h.str[0] + x.2 * h.str[1])).toNat
        s.haloParts e q u at_ (fun d => haloCells d nc nr w) 0 ([Dir.e, .s, .w, .n].filter fun d => dirs.getLsbD (Dir.num d))

/-- The outbound window of a partition's number (R399). -/
def State.outWindow (s : State) (part num : Nat) : Option Window :=
  s.windows.find? fun w => w.dir = 1 && w.part = part && w.num = num
/-- A link that has failed before hand-off: status 0x80, with its record (R248, R252). -/
def State.linkLost (s : State) (n : Nat) (seq : BitVec 32) (win : Nat) : State :=
  (s.noteCmd n seq 0x12 0 win 0x80).modCmd n seq fun e => { e with status := worse e.status 0x80 }
/-- `PUT` starts (R248, R399): a link that carries no peer has failed. -/
def State.startPut (s : State) (e : EngineCmd) : State :=
  let c := s.core
  match s.outWindow (c.ctx / 16) (e.op 0).toNat with
  | none => s.rejectCmd c.id e.seq (e.op 0).toNat
  | some w =>
    if (e.op 1).toNat + e.data.length > w.size then s.rejectCmd c.id e.seq (e.op 0).toNat
    else match s.peers.find? w.port with
    | none => s.linkLost c.id e.seq (e.op 0).toNat
    | some p => if p ≠ w.peer then s.rejectCmd c.id e.seq (e.op 0).toNat
    else { s with puts := s.puts ++ [(c.id, e)] }.modCmd c.id e.seq fun e => { e with waits := 1 }

/-- A `COPY` starts: the engine validates its record (R246). -/
def State.startCopy (s : State) (e : EngineCmd) (out : Bool) : State :=
  match s.judge (Shape.ofBytes e.shape) e.win (fun _ => true) out with
  | .fails row => s.abortCmd e 0x06 (e.op 0).toNat row 0
  | _ => s

/-- `ENGINE_COMMAND_START`: the oldest waiting command of the core starts, when fewer than four run (R235). -/
def execEngineCommandStart (s : State) : Out :=
  match s.core.engine.find? fun e => !e.started with
  | none => .next s
  | some e =>
    if (s.core.engine.filter fun e => e.started).length ≥ 4 then .next s
    else
      let s := s.modCmd s.core.id e.seq fun e => { e with started := true }
      let whole (k : State → State) : State := if e.bad.isSome then s.abortCmd e 0x21 e.badAddr 4 0 else k s
      .next (match e.ins with
        | .send mc _ _ _ _ _ _ => whole fun s => s.startSend e mc
        | .sendLiteral mc _ _ _ _ _ => whole fun s => s.startSend e mc
        | .sendn dir _ _ _ _ _ => whole fun s => s.startSendn e dir
        | .halo dirs _ _ _ _ q _ => s.startHalo e dirs q.toNat
        | .put _ _ _ _ _ _ => whole fun s => s.startPut e
        | .copyIn _ _ _ _ _ _ _ _ => s.startCopy e false
        | .copyOut _ _ _ _ _ _ _ _ => s.startCopy e true
        | _ => s)

/-! Transfers in unit order (R338). -/

/-- A transfer: how many units, the far side of each (nothing for a clipped one) or what makes it fail, their bytes, what a unit
counts, its direction, the local region, the bytes of a clipped unit, and the status of a clipped transfer. -/
structure Plan where
  total  : Nat
  unit   : Nat → Except EFail (Option Space)
  size   : Nat
  counts : Nat
  out    : Bool
  local_ : Nat
  pad    : List Byte
  clip   : Nat

/-- The units of a `COPY`, in window order (R246). -/
def State.copyPlan (s : State) (e : EngineCmd) (out : Bool) : Plan :=
  let h := Shape.ofBytes e.shape
  let w := e.win
  { total := match s.judge h w (fun _ => true) out with | .nothing => 0 | _ => w.w[0] * w.w[1]
    unit := fun k => .ok ((h.unitAddr w fun d => if d = 0 then k % w.w[0] else if d = 1 then k / w.w[0] else 0).map
      (s.unitSpace h.base))
    size := (h.ty.getD .n8).size, counts := 1, out := out, local_ := (e.op 1).toNat, pad := h.padUnit
    clip := if h.quiet then 0x01 else 0x02 }
/-- The rows of a `GATHER` or `SCATTER` in index order; a row whose address leaves the space or its alignment fails (R247). -/
def State.rowsPlan (s : State) (e : EngineCmd) (op : Nat) (out i64 : Bool) (ty : Ty) : Plan :=
  let base := e.op 1
  let rl := (e.op 3).toNat
  let isz := if i64 then 8 else 4
  let lim : Int := if tag base = 0 then 2 ^ 57 else (s.context s.core.ctx).splim
  { total := (e.op 2).toNat
    unit := fun i =>
      let a := (baseOffset base : Int) + signedElem isz (leNat ((e.shape.drop (i * isz)).take isz)) * (e.op 4).toNat
      if 0 ≤ a ∧ a + (rl * ty.size : Nat) ≤ lim ∧ a % ty.size = 0 then .ok (some (s.unitSpace base a))
      else .error ⟨0x05, tag base * 2 ^ 60 + (a % 2 ^ 60).toNat, op⟩
    size := rl * ty.size, counts := rl, out := out, local_ := (e.op 0).toNat, pad := [], clip := 0x01 }

/-- A unit of a command's engine, as the maker of accesses. -/
def State.engineWho (s : State) (seq : BitVec 32) (unit : Nat) : Who :=
  { w := .cmd s.core.id seq unit, ctx := s.core.ctx, core := s.core.id, seq := seq, eng := true }

/-- What became of a unit that was moved. -/
inductive Moved where
  | held (h : EHeld)
  | parks
  | fails (f : EFail)
  deriving DecidableEq, Repr
/-- Moves a unit (R338, R382): a stage-2 miss parks it, and an address, a fault or poison fails it. -/
def State.moveUnit (s : State) (e : EngineCmd) (p : Plan) (k : Nat) : State × Moved :=
  match p.unit k with
  | .error f => (s, .fails f)
  | .ok none =>
    let bs := if p.out then [] else p.pad
    (s, .held { unit := k, place := none, data := bs, size := bs.length })
  | .ok (some sp) =>
    let bad := match e.bad with | some b => p.out && decide (k * p.size ≤ b ∧ b < (k + 1) * p.size) | none => false
    if bad then (s, .fails ⟨0x21, e.badAddr, 4⟩)
    else
      match s.placeAs (s.engineWho e.seq k) sp p.size (if p.out then .write else .read) with
      | .wait s => (s, .parks)
      | .fault s v i => (s, .fails ⟨0x08, v, i⟩)
      | .ok s pl =>
        if p.out then (s, .held { unit := k, place := some pl, data := [], size := p.size })
        else
          match s.readPlace pl true with
          | (s, none) => (s, .fails ⟨0x21, sp.address, 4⟩)
          | (s, some bs) => (s, .held { unit := k, place := none, data := bs, size := p.size })

/-- Puts a moved unit among those held, in unit order. -/
def heldInsert (h : EHeld) : List EHeld → List EHeld
  | [] => [h]
  | q :: l => if q.unit < h.unit then q :: heldInsert h l else h :: q :: l
/-- A unit fails (R338): the earliest failing one ends the command, and nothing after it is kept. -/
def Xfer.failAt (x : Xfer) (k : Nat) (f : EFail) : Xfer :=
  match x.fail with
  | some (j, _) => if j ≤ k then x else
      { x with fail := some (k, f), parked := x.parked.filter (· < k), held := x.held.filter (·.unit < k) }
  | none => { x with fail := some (k, f), parked := x.parked.filter (· < k), held := x.held.filter (·.unit < k) }
/-- Every unit that the command is to move has been taken. -/
def Xfer.taken (x : Xfer) (total : Nat) : Bool := x.fail.isSome || x.next ≥ total
/-- The first unit that may not go to its landing: the earliest one parked, else the one that fails or the next (R338). -/
def Xfer.bound (x : Xfer) : Nat :=
  match x.parked with
  | k :: _ => k
  | [] => match x.fail with | some (k, _) => k | none => x.next

/-- A space and the first byte of a place in it, as one granule of the address space names them. -/
def Space.key : Space → Nat × Nat
  | .glob a => (0, a) | .share o => (1, o) | .ctl o => (2, o) | .win o => (3, o)
/-- A range of a space touches a granule. -/
def Space.inGranule (sp : Space) (n : Nat) (g : Nat × Nat) : Bool := sp.key.1 = g.1 && (granules sp.key.2 n).contains g.2
/-- The granules of a unit that a command writes, at a place that a space names. -/
def Place.parts (k : Nat) (sp : Space) (pl : Place) (bs : List Byte) : List EPart :=
  let part (at_ : Nat) (place : Place) (data : List Byte) : EPart :=
    { units := [k], place := place, data := data, gran := (sp.key.1, (sp.key.2 + at_) / 16) }
  match pl with
  | .share o _ => (cutGranules o bs).map fun q => part (q.1 - o) (.share q.1 q.2.length) q.2
  | .ctl _ _ => []
  | .win o _ => (cutGranules o bs).map fun q => part (q.1 - o) (.win q.1 q.2.length) q.2
  | .mem ps => (ps.foldl (fun (a : List EPart × Nat) p =>
      (a.1 ++ (cutGranules p.hpa ((bs.drop a.2).take p.len)).map (fun q =>
        part (a.2 + (q.1 - p.hpa)) (.mem [{ p with hpa := q.1, len := q.2.length, gpa := p.gpa + (q.1 - p.hpa) }]) q.2), a.2 + p.len))
      (([], 0) : List EPart × Nat)).1
/-- A granule as a store that the core `n` makes of it, at the place that held stores are compared by. -/
def EPart.store (q : EPart) (n part : Nat) : NetStore :=
  match q.place with
  | .mem (p :: _) => { core := n, hpa := p.hpa, gpa := p.gpa, part := part, data := q.data, mask := q.mask, kind := p.kind, rel := none }
  | .win o _ => { core := n, hpa := heldAddr (clusterOf n) o, gpa := 0, part := part, data := q.data, mask := q.mask, kind := 1, rel := none }
  | .share o _ | .ctl o _ => { core := n, hpa := o, gpa := 0, part := part, data := q.data, mask := q.mask, kind := 1, rel := none }
  | .mem [] => { core := n, hpa := 0, gpa := 0, part := part, data := [], kind := 1, rel := none }
/-- A granule further on in place of that of a store. -/
def Place.whole (pl : Place) (t : NetStore) : Place :=
  match pl with
  | .share o _ => .share (o / 16 * 16) 16 | .ctl o k => .ctl o k | .win o _ => .win (o / 16 * 16) 16
  | .mem ps => .mem [{ hpa := t.hpa, len := 16, kind := t.kind, gpa := (ps.map Piece.gpa).headD 0 / 16 * 16 }]
/-- A part joins the granules that may land: with one of the same granule it is one part, in which the later unit's bytes stand
(R210, R247). -/
def joinPart (l : List EPart) (q : EPart) : List EPart :=
  let mate (r : EPart) : Bool := r.gran = q.gran && (r.store 0 0).mate (q.store 0 0)
  if l.any mate then l.map fun r =>
    if mate r then
      let t := (r.store 0 0).join (q.store 0 0)
      { units := r.units ++ q.units, place := r.place.whole t, data := t.data, mask := t.mask, gran := r.gran }
    else r
  else l ++ [q]
/-- The granules of the local region that a read fills between two lengths of the bytes gathered; the last one, only partly
covered, when the read is complete (R237). -/
def Plan.localParts (p : Plan) (data : List Byte) (from_ to_ : Nat) : List EPart :=
  (List.range (to_ - from_)).map fun j =>
    let g := from_ + j
    { units := (List.range ((16 * g + 15) / p.size + 1)).drop (16 * g / p.size), place := .share (p.local_ + 16 * g) 16
      data := let bs := (data.drop (16 * g)).take 16; bs ++ List.replicate (16 - bs.length) 0 }

/-- The units before the first that may not go to its landing go to theirs (R338). -/
def EngineCmd.flush (e : EngineCmd) (p : Plan) : EngineCmd :=
  let x := e.xfer
  let b := x.bound
  let go := x.held.takeWhile fun h => h.unit < b
  let done := x.parked = [] && x.taken p.total
  let x' := { x with held := x.held.dropWhile fun h => h.unit < b, passed := b, closed := done }
  if p.out then
    let parts (h : EHeld) : List EPart := match h.place, p.unit h.unit with
      | some pl, .ok (some sp) => pl.parts h.unit sp ((e.data.drop (h.unit * p.size)).take p.size)
      | _, _ => []
    { e with xfer := { x' with ready := (go.flatMap parts).foldl joinPart x.ready } }
  else
    let data := e.data ++ go.flatMap EHeld.data
    let to_ := if done then (data.length + 15) / 16 else data.length / 16
    { e with data := data, xfer := { x' with ready := x.ready ++ p.localParts data (e.data.length / 16) to_ } }

/-- A unit has landed: it has gone to its landing, and no granule of it is left. -/
def EngineCmd.hasLanded (e : EngineCmd) (p : Plan) (k : Nat) : Bool :=
  !(e.xfer.ready.any fun q => q.units.contains k) &&
    (p.out || e.xfer.closed || decide ((k + 1) * p.size ≤ e.data.length / 16 * 16))
/-- The units that have landed, as the stamp counts them: in-extent ones (R246, R247, R251). -/
def EngineCmd.landed (e : EngineCmd) (p : Plan) : Nat :=
  ((List.range e.xfer.passed).map fun k =>
    match p.unit k with | .ok (some _) => if e.hasLanded p k then p.counts else 0 | _ => 0).sum
/-- Some unit is clipped. -/
def Plan.clipped (p : Plan) : Bool := (List.range p.total).any fun k => match p.unit k with | .ok none => true | _ => false

/-- A granule lands (R214, R237): in the own share it is written whole and becomes full. -/
def State.landPart (s : State) (q : EPart) : State :=
  let n := s.core.id
  match q.place with
  | .share o _ => s.upd fun c => c.arrive (o / 16 * 16) (List.replicate (o % 16) 0 ++ q.data)
  | .ctl _ _ => s
  | _ => let t := q.store n s.myPart; (s.beforeEngine n { hpa := t.hpa, len := t.data.length, kind := t.kind, gpa := t.gpa }).perform t
/-- The granules that may land now, by place in the list: none that a unit still to come writes too, so that the granule of a transfer
is written in one step, and one page's bytes in the order of the units (R210, R237, R247). -/
def EngineCmd.landable (e : EngineCmd) (p : Plan) : List Nat :=
  let lim := match e.xfer.fail with | some (k, _) => k | none => p.total
  let shut (q : EPart) : Bool := p.out && (((List.range lim).drop e.xfer.passed).any fun k => match p.unit k with
    | .ok (some sp) => sp.inGranule p.size q.gran
    | _ => false)
  let behind (i : Nat) (q : EPart) : Bool := (e.xfer.ready.take i).any fun r => (r.store 0 0).near (q.store 0 0).hpa q.data.length
  (e.xfer.ready.zipIdx.filter fun q => !shut q.1 && !(p.out && behind q.2 q.1)).map Prod.snd

/-- The bytes kept behind the earliest parked unit. -/
def Xfer.behind (x : Xfer) : Nat :=
  match x.parked with
  | [] => 0
  | k :: _ => ((x.held.filter fun h => k < h.unit).map EHeld.size).sum
/-- The units that may be moved now: parked ones whose page requests have been answered, then the next one, while 64 KiB hold
what comes behind a parked unit (R338). -/
def Xfer.movable (x : Xfer) (asked : Nat → Bool) (total size : Nat) : List Nat :=
  x.parked.filter (fun k => !asked k) ++
    if !x.taken total && (x.parked = [] || x.behind + size ≤ 65536) then [x.next] else []
/-- Moves the first of these units that does not stay parked. The answer is nothing when there is none. -/
def State.takeUnit (s : State) (move : State → Nat → State × Moved) (x : Xfer) : List Nat → State × Option Xfer
  | [] => (s, none)
  | k :: ks =>
    let fresh := k = x.next ∧ !x.parked.contains k
    match move s k with
    | (s, .held h) =>
      (s, some { x with held := heldInsert h x.held, parked := x.parked.filter (· ≠ k), next := if fresh then k + 1 else x.next })
    | (s, .fails f) => (s, some (x.failAt k f))
    | (s, .parks) =>
      if fresh then (s, some { x with parked := x.parked ++ [k], next := k + 1 }) else s.takeUnit move x ks
/-- A unit has been parked. -/
def Xfer.parkedMore (x y : Xfer) : Bool := x.parked.length < y.parked.length
/-- Nothing is left of a transfer but its end. -/
def Xfer.spent (x : Xfer) (total : Nat) : Bool := x.parked = [] && x.ready = [] && x.taken total

/-- A step of a transfer (R236, R338): the `g`-th granule that may land lands; with none so numbered, a unit is moved, or the
command ends with its stamp. -/
def State.runTransfer (s : State) (e : EngineCmd) (p : Plan) (g : Nat) : State :=
  let n := s.core.id
  let put (s : State) (e : EngineCmd) : State := s.modCmd n e.seq fun _ => { e with moved := e.landed p }
  match (e.landable p)[g]?.bind fun i => e.xfer.ready[i]?.map fun q => (i, q) with
  | some (i, q) => put (s.landPart q) { e with xfer := { e.xfer with ready := e.xfer.ready.eraseIdx i } }
  | none =>
    let asked (k : Nat) : Bool := (s.part s.myPart).asked (.cmd n e.seq k)
    match s.takeUnit (fun s k => s.moveUnit e p k) e.xfer (e.xfer.movable asked p.total p.size) with
    | (s, some x) =>
      put s ({ e with xfer := x, status := if e.xfer.parkedMore x then worse e.status 0x03 else e.status }.flush p)
    | (s, none) =>
      if !e.xfer.spent p.total then s
      else
        let e := { e with xfer := { e.xfer with closed := true } }
        match e.xfer.fail with
        | some (k, f) => (s.noteCmd n e.seq f.cause f.addr f.info0 k).finishCmd n e.seq 0x80 (e.landed p)
        | none => s.finishCmd n e.seq (if p.clipped then worse e.status p.clip else e.status) (e.landed p)

/-- `ENGINE_STAMP_WRITE`: the `i`-th running command of the core lands its `g`-th granule, moves a unit, or when nothing is left
of it writes its stamp (R236 to R239, R338). -/
def execEngineStampWrite (q : LandStep) (s : State) : Out :=
  let g := q.g
  match (s.core.engine.filter fun e => e.started)[q.i]? with
  | none => .next s
  | some e =>
    .next (if e.waits > 0 then s
      else if e.status ≥ 0x80 then s.finishCmd s.core.id e.seq e.status e.moved
      else match e.ins with
        | .copyIn _ _ _ _ _ _ _ _ => s.runTransfer e (s.copyPlan e false) g
        | .copyOut _ _ _ _ _ _ _ _ => s.runTransfer e (s.copyPlan e true) g
        | .gather i64 ty _ _ _ _ _ _ _ => s.runTransfer e (s.rowsPlan e 0x41 false i64 ty) g
        | .scatter i64 ty _ _ _ _ _ _ _ => s.runTransfer e (s.rowsPlan e 0x42 true i64 ty) g
        | _ => s.finishCmd s.core.id e.seq e.status e.moved)

/-! Arrivals (R239, R241, R243 to R245). -/

/-- The first posted receive that a message matches, in post order (R241). -/
def Control.matching (k : Control) (src : Nat) (tag : BitVec 32) : Option (Nat × RecvSlot) :=
  let l := k.slots.filter fun e => selMatch e.2.src e.2.mask e.2.anytag e.2.tag src tag
  l.foldl (fun m e => match m with
    | none => some e
    | some b => if e.2.order < b.2.order then some e else some b) none
/-- How a branch fares at its destination: rejected, with the overflow fault for want of an entry, or taken. -/
inductive Branch where
  | rejected (overflow : Bool)
  | taken (k : MsgTake)
  deriving DecidableEq, Repr
/-- The matching unit takes an arrival (R239, R241): its payload is to land in a receive's buffer or in an overflow entry. -/
def Core.takeMsg (c : Core) (m : Msg) : Core × Branch :=
  let take (r : Option RecvSlot) (j o : Nat) (bs : List Byte) : Branch :=
    .taken { recv := r, entry := j, launch := c.launch, task := c.task, parts := cutGranules o bs }
  match c.ctl.matching m.src m.tag with
  | some (j, r) => ({ c with ctl := { c.ctl with slots := c.ctl.slots.del j } }, take (some r) 0 r.buf (m.data.take r.max))
  | none =>
    match lowestFree c.ctl.ovq 16 with
    | some j =>
      if m.data.length ≤ 1024 ∧ c.shareSize ≥ 16384 then
        let n := c.ctl.arrivals + 1
        let o : OvEntry := { src := m.src, len := m.data.length, tag := m.tag, arrival := n, live := false }
        ({ c with ctl := { c.ctl with arrivals := n, ovq := c.ctl.ovq.put j o } },
          take none j (c.shareSize - 16384 + 1024 * j) m.data)
      else (c, .rejected true)
    | none => (c, .rejected true)
/-- The rejection count of the control page (R225, R241). -/
def Core.countRejected (c : Core) : Core :=
  { c with ctl := { c.ctl with rejected := if c.ctl.rejected = BitVec.allOnes 16 then c.ctl.rejected else c.ctl.rejected + 1 } }

/-- The `i`-th branch under way ends, rejected (R239). -/
def State.msgRejected (s : State) (i : Nat) (m : Msg) : State :=
  (({ s with msgs := s.msgs.eraseIdx i }).rejectCmd m.src m.seq m.dst).modCmd m.src m.seq fun e => { e with waits := e.waits - 1 }
/-- A branch comes to its destination (R239, R241). -/
def State.msgArrives (s : State) (i : Nat) (m : Msg) : State :=
  let d := s.coreAt m.dst
  if s.corePart m.dst ≠ some m.part ∨ d.sealed ∨ !s.takesAt d then s.msgRejected i m
  else
    match d.takeMsg m with
    | (_, .rejected _) =>
      let r := { d.cmdRec 0x13 0 0 (m.src + m.tag.toNat * 2 ^ 32) m.data.length with sqn := 0 }
      ((s.modCore m.dst Core.countRejected).note r).msgRejected i m
    | (d, .taken k) => { s.modCore m.dst fun _ => d with msgs := s.msgs.set i { m with take := some k } }
/-- A taken branch lands its `g`-th granule, or when none is left completes (R237, R239). -/
def State.msgLands (s : State) (i g : Nat) (m : Msg) (k : MsgTake) : State :=
  match (if g < k.parts.length then k.parts[g]? else k.parts.head?) with
  | some q => { s.modCore m.dst fun c => c.arrive q.1 q.2 with
      msgs := s.msgs.set i { m with take := some { k with parts := k.parts.eraseIdx (if g < k.parts.length then g else 0) } } }
  | none => { s with msgs := s.msgs.eraseIdx i }.msgDone m k
/-- `MESSAGE_ARRIVAL`: the `i`-th branch under way comes to its destination, and then lands, granule by granule (R237, R239,
R241). One for a core that is saved waits (R251). A destination whose task ends before the last granule rejects the rest. -/
def execMessageArrival (q : LandStep) (s : State) : Out :=
  let i := q.i
  let g := q.g
  match s.msgs[i]? with
  | none => .next s
  | some m =>
    let m := { m with dst := s.landsAt m.ctx m.dst }
    let d := s.coreAt m.dst
    .next (if m.dst ≥ 65536 ∨ (s.isSaved d ∧ (d.ctx = m.ctx ∨ m.take.isSome)) then s
      else match m.take with
        | none => s.msgArrives i m
        | some k => if s.takesAt d ∧ d.launch = k.launch ∧ d.task = k.task then s.msgLands i g m k else s.msgRejected i m)

/-- A `SENDN` or `HALO` part comes to the neighbour (R243 to R245). -/
def State.nmsgArrives (s : State) (i : Nat) (m : NMsg) : State :=
  let d := s.coreAt m.dst
  let gone : State := { s with nmsgs := s.nmsgs.eraseIdx i }.modCmd m.src m.seq fun e => { e with waits := e.waits - 1 }
  if d.sealed then gone.rejectCmd m.src m.seq m.dst
  else if m.halo ∧ !s.sameLaunch m.src m.dst then gone.modCmd m.src m.seq fun e => { e with status := worse e.status 0x02 }
  else if !s.sameLaunch m.src m.dst ∨ m.off + m.data.length > d.shareSize then gone.rejectCmd m.src m.seq m.dst
  else { s with nmsgs := s.nmsgs.set i { m with parts := some (cutGranules m.off m.data) } }
/-- A part lands its `g`-th granule, or when none is left ends (R237, R243 to R245). -/
def State.nmsgLands (s : State) (i g : Nat) (m : NMsg) (ps : List (Nat × List Byte)) : State :=
  match (if g < ps.length then ps[g]? else ps.head?) with
  | some q =>
    { s.modCore m.dst fun c => c.arrive q.1 q.2 with
      nmsgs := s.nmsgs.set i { m with parts := some (ps.eraseIdx (if g < ps.length then g else 0)) } }
  | none => { s with nmsgs := s.nmsgs.eraseIdx i }.nmsgDone m
/-- `NEIGHBOUR_ARRIVAL`: the `i`-th `SENDN` or `HALO` part under way comes to the neighbour, and then lands, granule by granule
(R237, R243 to R245). One for a core that is saved waits (R251). -/
def execNeighbourArrival (q : LandStep) (s : State) : Out :=
  let i := q.i
  let g := q.g
  match s.nmsgs[i]? with
  | none => .next s
  | some m =>
    let m := { m with dst := s.landsAt (s.coreAt m.src).ctx m.dst }
    let d := s.coreAt m.dst
    .next (if m.dst ≥ 65536 ∨ (s.isSaved d ∧ s.sameLaunch m.src m.dst) then s
      else match m.parts with
        | none => s.nmsgArrives i m
        | some ps =>
          if s.sameLaunch m.src m.dst then s.nmsgLands i g m ps
          else ({ s with nmsgs := s.nmsgs.eraseIdx i }.rejectCmd m.src m.seq m.dst).modCmd m.src m.seq fun e =>
            { e with waits := e.waits - 1 })

/-! Puts (R221, R248, R399). -/

/-- The device, as the maker of a window's accesses (R335, R399). -/
def Window.who (w : Window) (k : Waiter) : Who := { w := k, ctx := w.part * 16 + w.ctx, core := 0xFFFF, seq := 0, eng := true }
/-- Adds 1 to a window's counter at its unit (R221, R399); a poisoned one is not changed (R382). -/
def State.bumpWindow (s : State) (w : Window) (k : Waiter) : Access Unit :=
  (s.translateRange { w.who k with eng := false } w.cnt 8 .atomic).bind fun s ps =>
    match ps with
    | [p] => .ok (if s.physPoison p.hpa 8 then s else s.writePieces w.part [p] (leBytes 8 (s.physNat p.hpa 8 + 1))) ()
    | _ => .ok s ()
/-- `PUT_HANDOFF`: the data of a put has left the source buffers (R221, R248). The handed-off counter may wait for a page. A link that
carries no peer any more, or another one, ends the command (R248, R399); and so does the peer's rejection, which comes back before the
stamp is written (log 68). -/
def execPutHandoff (q : HandStep) (s : State) : Out :=
  match s.puts[q.i]? with
  | none => .next s
  | some (n, e) =>
    let num := (e.op 0).toNat
    let gone (s : State) : State := { s with puts := s.puts.eraseIdx q.i }
    let reject (s : State) : Out := .next (((gone s).rejectCmd n e.seq num).finishCmd n e.seq 0x82 0)
    match s.outWindow ((s.coreAt n).ctx / 16) num with
    | none => reject s
    | some w =>
      if (s.peers.find? w.port).isNone then .next (((gone s).linkLost n e.seq num).finishCmd n e.seq 0x80 0)
      else if s.peers.find? w.port ≠ some w.peer then reject s
      else
      let done (s : State) : Out :=
        if q.no then reject s
        else
          .next ({ gone s with putOuts := s.putOuts ++ [({ port := w.port, pnum := w.pnum, off := (e.op 1).toNat, data := e.data } : PutOut)] }.finishCmd
            n e.seq 0x01 e.data.length)
      match s.bumpWindow w (.cmd n e.seq 0) with
      | .wait s => .next s
      | .fault s _ _ => done s
      | .ok s _ => done s

/-- The rejection of a landing goes back to its source (R399). -/
def State.putRejected (s : State) (peer : Word) (wnum : Nat) : State := { s with putNos := s.putNos ++ [{ peer := peer, num := wnum }] }
/-- A put from a peer comes to the inbound entry that matches it; one that matches none, or is too long, is rejected (R399). -/
def State.putArrives (s : State) (peer : Word) (wnum off : Nat) (data : List Byte) : State :=
  match s.windows.find? fun w => w.dir = 2 && w.peer = peer && w.num = wnum with
  | none => s.putRejected peer wnum
  | some w =>
    if off + data.length > w.size then s.putRejected peer wnum
    else { s with putIns := s.putIns ++ [({ serial := s.putSer, win := w, parts := cutGranules (w.base + off) data } : PutIn)]
                  putSer := s.putSer + 1 }
/-- A put lands its `g`-th granule, or when none is left adds 1 to the landed counter (R221). A granule, or a counter, whose
translation faults takes no write (log 39); in a failed die's memory the landing is rejected (R389). -/
def State.putLands (s : State) (i g : Nat) (p : PutIn) : State :=
  let g := if g < p.parts.length then g else 0
  match p.parts[g]? with
  | some q =>
    let rest (s : State) : State := { s with putIns := s.putIns.set i { p with parts := p.parts.eraseIdx g } }
    match s.translateRange (p.win.who (.put p.serial q.1)) q.1 q.2.length .write with
    | .wait s => s
    | .fault s _ _ => rest s
    | .ok s ps =>
      if ps.any fun x => s.deadMem x.hpa then { s with putIns := s.putIns.eraseIdx i }.putRejected p.win.peer p.win.num
      else rest (s.writePieces p.win.part ps q.2)
  | none =>
    let gone (s : State) : State := { s with putIns := s.putIns.eraseIdx i }
    match s.bumpWindow p.win (.put p.serial p.win.cnt) with
    | .wait s => s
    | .fault s _ _ => gone s
    | .ok s _ => gone s
/-- `PUT_LANDING`: a put comes from a peer; or the `i`-th put that is landing lands its `g`-th granule or steps its counter (R221,
R248, R399). -/
def execPutLanding (peer : Word) (wnum off : Nat) (put : PutStep) (s : State) : Out :=
  .next (match put with
    | .comes data => if data = [] then s else s.putArrives peer wnum off data
    | .lands q => match s.putIns[q.i]? with
      | some p => s.putLands q.i q.g p
      | none => s)

/-! Twin sets (R249, R250). -/

/-- The twin set that a register names for `SHADOW` and `PUBLISH`, when it is of the partition and not Caldera's. -/
def State.twinFor (s : State) (w : Word) : Option Twin :=
  if w.toNat ≥ 65536 then none
  else
    match s.twins.find? w.toNat with
    | some t => if t.part = s.myPart ∧ ¬ t.caldera then some t else none
    | none => none
/-- `SHADOW` (R249). -/
def execShadow (d a : XReg) (s : State) : Out :=
  issue { x := [a] } { x := [d] } s fun s =>
    let w := s.core.rx a
    match s.twinFor w with
    | none => s.illegal 0x79
    | some t =>
      if t.isOpen then s.illegal 0x79
      else s.classX 0x79 fun s =>
        let s := { s with twins := s.twins.put w.toNat { t with isOpen := true, epoch := t.epoch + 1 } }
        .next (s.upd (·.lateX d (BitVec.ofNat 64 (t.epoch + 1)))).retire
/-- `PUBLISH` (R222, R250). -/
def execPublish (a : XReg) (s : State) : Out :=
  issue { x := [a] } {} s fun s =>
    let w := s.core.rx a
    match s.twinFor w with
    | none => s.illegal 0x44
    | some t =>
      if !t.isOpen then s.illegal 0x44
      else s.classX 0x44 fun s =>
        .next { s with twins := s.twins.put w.toNat { t with isOpen := false, sel := !t.sel } }.retire

end Sys2Proof.Machine
end

