-- ==== Sys2Proof/Machine/Matrix.lean ====
section
/-! DEFINITION. Matrix commands at issue, their queue, and their status (08_matrix.md R177 to R183, R190 to R198). -/

namespace Sys2Proof.Machine

/-! Types and operands (R177, R180). -/

/-- Elements of the K dimension that a cell holds: the pack factor, which is the class. -/
def matClass : Ty → Nat
  | .mx4 => 4
  | .e4m3 | .e5m2 | .mx8 | .mx6 | .mx6a => 2
  | _ => 1
/-- K per quadrant. -/
def matKq (t : Ty) : Nat := 128 * matClass t
/-- Types whose rule of accumulation is the block. -/
def matBlock : Ty → Bool
  | .bf16 | .f16 | .d8 => false
  | _ => true
/-- Units of a row of K elements: elements or records of 32. -/
def matUnits (t : Ty) (k : Nat) : Nat := if t.isRec then k / 32 else k
/-- Bytes of such a row. -/
def matRow (t : Ty) (k : Nat) : Nat := matUnits t k * t.size
/-- A record type takes K in multiples of 32. -/
def matWhole (t : Ty) (k : Nat) : Bool := !t.isRec || k % 32 = 0

/-- The quadrant of a quadrant operand. -/
def Core.quadOf (c : Core) : QuadOp → Nat
  | .own => indexOf c.id / 2
  | .q n => n.val
/-- The quadrant and bank of a bank operand. -/
def Core.bankOf (c : Core) : BankOp → Nat × Nat
  | .own => (indexOf c.id / 2, indexOf c.id % 2)
  | .acc b n => (n.val, b.val)
/-- The core holds a quadrant of its cluster (R179). -/
def Core.holdsQuad (c : Core) (q : Nat) : Bool := c.held.getLsbD q

/-- A fusion group: its home quadrant, whether it spans two quadrants along N and along K (R178). -/
structure Group where
  home : Nat
  wide : Bool
  tall : Bool
  deriving DecidableEq, Repr
/-- The group of a quadrant in a mode of `MFUSE` (R196). -/
def groupOf (mode q : Nat) : Group :=
  let pairN (a : Nat) : Group := { home := a, wide := true, tall := false }
  let pairK (a : Nat) : Group := { home := a, wide := false, tall := true }
  let one : Group := { home := q, wide := false, tall := false }
  match mode with
  | 1 => if q < 2 then pairN 0 else one
  | 2 => if 2 ≤ q then pairN 2 else one
  | 3 => pairN (q / 2 * 2)
  | 4 => if q % 2 = 0 then pairK 0 else one
  | 5 => if q % 2 = 1 then pairK 1 else one
  | 6 => pairK (q % 2)
  | 7 => { home := 0, wide := true, tall := true }
  | _ => one
/-- The members of a group. -/
def Group.members (g : Group) : List Nat :=
  [g.home] ++ (if g.wide then [g.home + 1] else []) ++ (if g.tall then [g.home + 2] else []) ++
    (if g.wide && g.tall then [g.home + 3] else [])
/-- The K limit for a type. -/
def Group.kMax (g : Group) (t : Ty) : Nat := if g.tall then 2 * matKq t else matKq t
/-- The N limit. -/
def Group.nMax (g : Group) : Nat := if g.wide then 256 else 128
/-- The members that hold the result columns of a bank (R180). -/
def Group.banks (g : Group) : List Nat := if g.wide then [g.home, g.home + 1] else [g.home]

/-- The fusion mode with the held quadrants single (R179). -/
def unfuse (mode : Nat) (held : BitVec 4) : Nat :=
  let hit (a b : Nat) : Bool := held.getLsbD a || held.getLsbD b
  match mode with
  | 1 => if hit 0 1 then 0 else 1
  | 2 => if hit 2 3 then 0 else 2
  | 3 => if hit 0 1 then (if hit 2 3 then 0 else 2) else if hit 2 3 then 1 else 3
  | 4 => if hit 0 2 then 0 else 4
  | 5 => if hit 1 3 then 0 else 5
  | 6 => if hit 0 2 then (if hit 1 3 then 0 else 5) else if hit 1 3 then 4 else 6
  | 7 => if held = 0 then 7 else 0
  | m => m
/-- The fusion mode of a cluster when a mode comes to the quadrants held, the others as they are (R196, R374). -/
def fuseOn (now mode : Nat) (held : BitVec 4) : Nat :=
  let m := unfuse now held + unfuse mode (~~~held)
  if m = 9 then 6 else m

/-! The queue (R182). -/

/-- `MMAP` takes effect when it reaches the head of the queue; the numbers of R197 follow. -/
def Core.popMaps : Nat → Core → Core
  | 0, c => c
  | k + 1, c =>
    match c.matrix with
    | m :: l =>
      (match m.ins with
      | .mmap _ | .mmapOwn | .mmapLiteral _ =>
        { c with map := m.ops.headD 0, matrix := l, mRd := m.seq }.popMaps k
      | _ => c)
    | [] => c

/-- The number of the latest matrix command that is complete with all before it (R197). -/
def State.matrixDone (s : State) (n : Nat) : State :=
  let lid := (s.coreAt n).launch
  let left := (s.stack.filter fun k => k.core = n && k.launch = lid).map (fun k => (k.cmd.seq, k.prev)) ++
    (s.drains.filter fun d => d.core = n && d.launch = lid).map fun d => (d.seq, d.prev)
  s.modCore n fun c =>
    let first := left.foldl (fun (m : Option (BitVec 32 × BitVec 32)) e => match m with
      | some f => if (e.1 - c.mDone).toNat < (f.1 - c.mDone).toNat then some e else m
      | none => some e) none
    { c with mDone := match first with | some e => e.2 | none => c.mRd }

/-- The head of a core's queue leaves it, with any `MMAP` behind it. -/
def State.popMatrix (s : State) (n : Nat) : State :=
  (s.modCore n fun c =>
    match c.matrix with
    | m :: l => { c with matrix := l, mRd := m.seq }.popMaps 2
    | [] => c).matrixDone n

/-- A matrix command joins the queue, or the core freezes while it is full (R182). In SR mode the seed advances at issue
(R112). -/
def State.queueMatrix (s : State) (ins : Instr) (ops : List Word) (shape : List Byte) (mode : Mode) : Out :=
  let c := s.core
  if c.matrix.length ≥ 2 then .next s.freeze
  else
    let m : MatrixCmd := { ins := ins, seq := c.sqn, ops := ops, shape := shape, frm := c.frm, seed := c.srseed, done := 0 }
    let s := s.upd fun c => { c with matrix := c.matrix ++ [m], sqn := c.sqn + 1 }
    let s := (s.upd (Core.popMaps 2)).matrixDone c.id
    .next (s.seedStep { mode := mode, seed := c.srseed } true).retire

/-- The issue of a matrix command under its predicate (R183). -/
def matrixIssue (rd : List XReg) (pe : PReg) (s : State) (k : State → Out) : Out :=
  issue { x := rd, p := [pe] } {} s fun s => if (s.core.rp pe).getLsbD 0 then k s else .next s.retire

/-- An address with tag 0x8 at an alignment in the issuer's share (R23, R201): its offset. -/
def Core.operand (c : Core) (a : Word) (align : Nat) (n : Nat := 1) : Option Nat :=
  if a.toNat % align = 0 then c.inShare a n else none

/-- `MWLD` (R190): record, quadrant, queue. A K that the type does not admit is reported as row 2 of R51, a type that the instruction does
not admit (log 73). -/
def execMwld (q : QuadOp) (a b c : XReg) (k : Fin 1024) (n : Fin 256) (pe : PReg) (s : State) : Out :=
  matrixIssue [a, b, c] pe s fun s =>
    let ra := s.core.rx a
    match s.core.shapeAt ra with
    | none => s.shapeFault ra.toNat 1
    | some bs =>
      if s.core.recordBad ra then .next (s.consume ra.toNat) else
      let h := Shape.ofBytes bs
      let o0 := ((s.core.rx b).truncate 32).toInt
      let o1 := ((s.core.rx c).truncate 32).toInt
      let t := h.ty.getD .n8
      let w := Win.of (max 1 (matUnits t (k.val + 1))) (n.val + 1) o0 o1 0 0
      match s.judge h w (fun t => t.isMat && matWhole t (k.val + 1)) false with
      | .fails row => s.shapeFault ra.toNat row
      | _ =>
        if !s.core.holdsQuad (s.core.quadOf q) then s.illegal 0x70
        else s.queueMatrix (.mwld q a b c k n pe) [BitVec.ofInt 64 o0, BitVec.ofInt 64 o1] bs .rne

/-- `MMA` (R191). -/
def execMma (neg accz : Bool) (ty : Ty) (acc : BankOp) (a b c : XReg) (stride : Fin 16384) (pe : PReg) (s : State) : Out :=
  matrixIssue [a, b, c] pe s fun s =>
    let k := s.core
    let m := (k.rx b).toNat
    if !k.holdsQuad (k.bankOf acc).1 ∨ m = 0 ∨ m > 256 ∨ (k.rx c).toNat + m > 256 then s.illegal 0x71
    else
      match k.operand (k.rx a) 16 with
      | none => s.addrFault 0x71 (k.rx a).toNat
      | some o => s.queueMatrix (.mma neg accz ty acc a b c stride pe) [BitVec.ofNat 64 o, k.rx b, k.rx c] [] .rne

/-- `MMG` (R192). -/
def execMmg (neg accz : Bool) (nt : Fin 8) (ty : Ty) (acc : BankOp) (a b c e : XReg) (k : Fin 1024) (n : Fin 256)
    (stride : Fin 16384) (pe : PReg) (s : State) : Out :=
  matrixIssue [a, b, c, e] pe s fun s =>
    let q := s.core
    if !q.holdsQuad (q.bankOf acc).1 ∨ (q.rx b).toNat ≥ 2 ^ 44 then s.illegal 0x72
    else
      match q.operand (q.rx a) 16 with
      | none => s.addrFault 0x72 (q.rx a).toNat
      | some o =>
        match q.operand (q.rx c) 4 with
        | none => s.addrFault 0x72 (q.rx c).toNat
        | some oc =>
          match q.operand (q.rx e) 16 with
          | none => s.addrFault 0x72 (q.rx e).toNat
          | some oe =>
            s.queueMatrix (.mmg neg accz nt ty acc a b c e k n stride pe)
              [BitVec.ofNat 64 o, q.rx b, BitVec.ofNat 64 oc, BitVec.ofNat 64 oe] [] .rne

/-- Bytes of a destination row: a multiple of 16 (R194, R199). -/
def rowPad (n : Nat) : Nat := (n + 15) / 16 * 16

/-- `MDRAIN` (R194). -/
def execMdrain (clr : Bool) (ty : Ty) (rm : Rm) (acc : BankOp) (a b c : XReg) (n : Fin 256) (stride : Fin 16384)
    (pe : PReg) (s : State) : Out :=
  matrixIssue [a, b, c] pe s fun s =>
    let k := s.core
    let v := (k.rx b).toNat
    let row0 := v % 256
    let m := v / 256
    if m = 0 ∨ m > 256 ∨ row0 + m > 256 ∨ !k.holdsQuad (k.bankOf acc).1 ∨
        16 * stride.val < rowPad ((n.val + 1) * ty.size) then s.illegal 0x73
    else
      match k.operand (k.rx a) 16 with
      | none => s.addrFault 0x73 (k.rx a).toNat
      | some o =>
        match k.operand (k.rx c) 8 8 with
        | none => s.addrFault 0x73 (k.rx c).toNat
        | some st =>
          s.queueMatrix (.mdrain clr ty rm acc a b c n stride pe) [BitVec.ofNat 64 o, k.rx b, BitVec.ofNat 64 st] []
            (k.how rm).mode

/-- `MZERO` (R195). -/
def execMzero (acc : BankOp) (pe : PReg) (s : State) : Out :=
  matrixIssue [] pe s fun s =>
    if !s.core.holdsQuad (s.core.bankOf acc).1 then s.illegal 0x74 else s.queueMatrix (.mzero acc pe) [] [] .rne

/-- `MFUSE` (R196): a quadrant that is not held stays single. -/
def execMfuse (mode : Fin 8) (pe : PReg) (s : State) : Out :=
  matrixIssue [] pe s fun s =>
    if (List.range 4).any fun q => (groupOf mode.val q).members.length > 1 && !s.core.holdsQuad q then s.illegal 0x75
    else s.queueMatrix (.mfuse mode pe) [] [] .rne

/-- A row-to-core map is legal (R193). -/
def mapLegal (v : Word) : Bool := v &&& 0xF8F8F8F8F8F8F8F8#64 = 0
/-- `MMAP` of a register (R193). -/
def execMmap (b : XReg) (s : State) : Out :=
  issue { x := [b] } {} s fun s =>
    if !mapLegal (s.core.rx b) then s.illegal 0x76 else s.queueMatrix (.mmap b) [s.core.rx b] [] .rne
/-- The map whose every entry is the issuer (R193). -/
def ownMap (id : Nat) : Word := BitVec.ofNat 64 (indexOf id * 0x0101010101010101)
/-- `MMAP.own` (R193). -/
def execMmapOwn (s : State) : Out := issue {} {} s fun s => s.queueMatrix .mmapOwn [ownMap s.core.id] [] .rne
/-- `MMAP` of a literal (R193): an illegal one traps as an illegal register value does (log 74). -/
def execMmapLiteral (v : Word) (s : State) : Out :=
  issue {} {} s fun s => if !mapLegal v then s.illegal 0x76 else s.queueMatrix (.mmapLiteral v) [v] [] .rne

/-- `MVB` (R198): a record whose type no `MVB` admits fails where the stacks accept the command. -/
def execMvb (out ty : Ty) (rm : Rm) (d a b c e : XReg) (nv : Fin 8) (pe : PReg) (s : State) : Out :=
  matrixIssue [d, a, b, c, e] pe s fun s =>
    let q := s.core
    let v := (q.rx e).toNat
    let k := fld v 0 24
    let n := fld v 32 24
    let bs := (q.shapeAt (q.rx b)).getD []
    let h := Shape.ofBytes bs
    let unlike : Bool := match h.ty with | some t => t.isMat && !(matClass t = matClass ty && matWhole t k) | none => false
    if bs ≠ [] ∧ q.recordBad (q.rx b) then .next (s.consume (q.rx b).toNat)
    else if k = 0 ∨ n = 0 ∨ fld v 24 8 ≠ 0 ∨ fld v 56 8 ≠ 0 ∨ !matWhole ty k ∨ (bs ≠ [] ∧ (tag h.base ≠ 0 ∨ unlike)) then
      s.illegal 0x77
    else
      match q.operand (q.rx d) 16 ((nv.val + 1) * rowPad (n * out.size)) with
      | none => s.addrFault 0x77 (q.rx d).toNat
      | some od =>
        match q.operand (q.rx a) 16 (nv.val * rowPad (matRow ty k) + matRow ty k) with
        | none => s.addrFault 0x77 (q.rx a).toNat
        | some oa =>
          match q.operand (q.rx c) 8 8 with
          | none => s.addrFault 0x77 (q.rx c).toNat
          | some st =>
            s.queueMatrix (.mvb out ty rm d a b c e nv pe)
              [BitVec.ofNat 64 od, BitVec.ofNat 64 oa, q.rx b, BitVec.ofNat 64 st, q.rx e] bs (q.how rm).mode

/-! Status (R197). -/

/-- A bank's flags and error bit. -/
def Quad.flagsOf (q : Quad) (b : Nat) : Flags := if b = 0 then q.flags0 else q.flags1
/-- Sets a bank's flags. -/
def Quad.setFlags (q : Quad) (b : Nat) (f : Flags) : Quad := if b = 0 then { q with flags0 := f } else { q with flags1 := f }
/-- A bank's error bit. -/
def Quad.errOf (q : Quad) (b : Nat) : Bool := if b = 0 then q.err0 else q.err1
/-- Sets a bank's error bit. -/
def Quad.setErr (q : Quad) (b : Nat) (e : Bool) : Quad := if b = 0 then { q with err0 := e } else { q with err1 := e }
/-- Changes the quadrants of a list. -/
def Cluster.modQuads (k : Cluster) (qs : List Nat) (f : Quad → Quad) : Cluster :=
  { k with quads := k.quads.mapIdx fun i q => if qs.contains i then f q else q }
/-- A quadrant by number. -/
def Cluster.quad (k : Cluster) (q : Nat) : Quad := k.quads.toList.getD q Quad.reset

/-- A scoreboarded status read, class X (R197). -/
def matrixStatus (d : XReg) (s : State) (k : State → State × Word) : Out :=
  issue {} { x := [d] } s fun s => s.classX 0x78 fun s =>
    let (s, v) := k s
    .next (s.upd (·.lateX d v)).retire

/-- `MSTAT.rd`. -/
def execMstatRd (d : XReg) (s : State) : Out := matrixStatus d s fun s => (s, s.core.mRd.setWidth 64)
/-- `MSTAT.done`. -/
def execMstatDone (d : XReg) (s : State) : Out := matrixStatus d s fun s => (s, s.core.mDone.setWidth 64)
/-- The word of `MSTAT.cfg`. -/
def cfgWord (c : Core) (k : Cluster) : Nat :=
  (List.range 4).foldl (fun v i =>
    let q := k.quad i
    v + q.valid.toNat * 2 ^ (8 + i) + q.ty.code * 2 ^ (12 + 5 * i) + q.failed.toNat * 2 ^ (32 + i) +
      q.spare * 2 ^ (36 + 2 * i)) (k.mode + c.held.toNat * 16)
/-- `MSTAT.cfg`. -/
def execMstatCfg (d : XReg) (s : State) : Out :=
  matrixStatus d s fun s => (s, BitVec.ofNat 64 (cfgWord s.core (s.cluster (clusterOf s.core.id))))
/-- `MSTAT.flags`: the flags of the group's bank, cleared by the read (R197, R201). -/
def execMstatFlags (d : XReg) (acc : BankOp) (s : State) : Out :=
  issue {} { x := [d] } s fun s =>
    let (q, b) := s.core.bankOf acc
    if !s.core.holdsQuad q then s.illegal 0x78
    else matrixStatus d s fun s =>
      let cl := clusterOf s.core.id
      let k := s.cluster cl
      let qs := (groupOf k.mode q).banks
      let f := qs.foldl (fun f i => f ||| (k.quad i).flagsOf b) (0 : Flags)
      (s.modCluster cl fun k => k.modQuads qs fun q => q.setFlags b 0, f.setWidth 64)
/-- `MSTAT.nbf`. -/
def execMstatNbf (d : XReg) (s : State) : Out :=
  matrixStatus d s fun s => (s.upd fun c => { c with mvbFlags := 0 }, s.core.mvbFlags.setWidth 64)
/-- `MSTAT.err`. -/
def execMstatErr (d : XReg) (s : State) : Out :=
  matrixStatus d s fun s =>
    (s.upd fun c => { c with mErr := none },
      match s.core.mErr with | some (code, n) => BitVec.ofNat 64 (code + n.toNat * 2 ^ 32) | none => 0)

end Sys2Proof.Machine
end

