-- ==== Sys2Proof/Machine/MatrixRun.lean ====
section
/-! DEFINITION. The matrix unit and the near-bank multipliers at work: turns, accumulation, drains, fusion, and the HBM
stacks (08_matrix.md R181, R184 to R189, R194 to R199). -/

namespace Sys2Proof.Machine

/-! Accumulation (R188, R189). -/

/-- Unit `i` of a row of bytes as a number. -/
def rowUnit (t : Ty) (row : List Byte) (i : Nat) : Nat := leNat ((row.drop (i * t.size)).take t.size)
/-- Element `k` of a row, before the scale of its record. -/
def rowElem (t : Ty) (row : List Byte) (k : Nat) : Num :=
  if t.isRec then recElemValue t (rowUnit t row (k / 32)) (k % 32) else tyValue t (rowUnit t row k)
/-- The scale of block `j` of a row: none is NaN. -/
def rowScale (t : Ty) (row : List Byte) (j : Nat) : Option (Nat × Nat) :=
  if t.isRec then recFactor t (rowUnit t row j) else some (1, 1)

/-- An accumulator as its steps go on: its bits and the flags so far. -/
abbrev Acc32 := Nat × Flags
/-- One rounding into the accumulator. -/
def accAdd (a : Acc32) (p : Num × Flags) : Acc32 :=
  let q := (tyValue .f32 a.1).add .rne p.1
  let r := tyRound .f32 .rne 0 q.1
  (r.1, a.2 ||| p.2 ||| q.2 ||| r.2)
/-- A product, negated for `.neg`. -/
def signedProduct (neg : Bool) (a b : Num) : Num × Flags :=
  let p := a.mul b
  (if neg then p.1.negate else p.1, p.2)

/-- The exact sum of the products of a block, without scales, added in the order of k: a NaN met before two opposite infinities hides their
invalid operation (log 72). -/
def blockSum (ta tb : Ty) (a b : List Byte) (k0 n : Nat) : Num × Flags :=
  match (List.range n).map fun i => (rowElem ta a (k0 + i)).mul (rowElem tb b (k0 + i)) with
  | [] => (.zero, 0)
  | p :: ps => ps.foldl (fun s q => let r := s.1.add .rne q.1; (r.1, s.2 ||| q.2 ||| r.2)) p
/-- A block's contribution: scaled, NaN when a scale is. -/
def blockTerm (neg : Bool) (ta tb : Ty) (a b : List Byte) (k0 n : Nat) : Num × Flags :=
  match rowScale ta a (k0 / 32), rowScale tb b (k0 / 32) with
  | some p, some q =>
    let s := blockSum ta tb a b k0 n
    let v := (s.1.scale p).scale q
    (if neg then v.negate else v, s.2)
  | _, _ => (.nan, 0)

/-- An accumulator after a row of A and a column of B (R188). -/
def accumulate (neg : Bool) (ta tb : Ty) (k : Nat) (a b : List Byte) (acc : Nat) : Acc32 :=
  if matBlock ta || matBlock tb then
    (List.range ((k + 31) / 32)).foldl (fun s j => accAdd s (blockTerm neg ta tb a b (32 * j) (min 32 (k - 32 * j)))) (acc, 0)
  else
    (List.range k).foldl (fun s i => accAdd s (signedProduct neg (rowElem ta a i) (rowElem tb b i))) (acc, 0)
/-- The bits of −0, with which `.accz` begins. -/
def negZero : Nat := 2 ^ 31

/-! Banks and weights of a group (R178, R180). -/

/-- Where an accumulator lies in a quadrant's bank. -/
def accOff (row col : Nat) : Nat := 512 * row + 4 * (col % 128)
/-- The member that holds a column. -/
def Group.colQuad (g : Group) (n : Nat) : Nat := g.home + n / 128
/-- An accumulator. -/
def Cluster.acc (k : Cluster) (g : Group) (b row col : Nat) : Nat :=
  let q := k.quad (g.colQuad col)
  (if b = 0 then q.bank0 else q.bank1).readNat (accOff row col) 4
/-- Writes consecutive accumulators of a row of one quadrant, joining the flags of the bank. -/
def Quad.putAccs (q : Quad) (b off : Nat) (vs : List Nat) (f : Flags) : Quad :=
  let bs := vs.flatMap (leBytes 4)
  let q := q.setFlags b (q.flagsOf b ||| f)
  let q := { q with pois := q.pois.filter fun d => !((wholeWords off bs.length).map (b * 16384 + ·)).contains d }
  if b = 0 then { q with bank0 := q.bank0.write off bs } else { q with bank1 := q.bank1.write off bs }
/-- Writes columns 0 on of a bank row, with their flags. -/
def Cluster.putRow (k : Cluster) (g : Group) (b row : Nat) (vs : List Acc32) : Cluster :=
  let put (k : Cluster) (q : Nat) (l : List Acc32) : Cluster :=
    if l = [] then k
    else k.modQuads [q] fun u => u.putAccs b (512 * row) (l.map Prod.fst) (l.foldl (fun f a => f ||| a.2) 0)
  put (put k g.home (vs.take 128)) (g.home + 1) (vs.drop 128)
/-- A bank row holds a poisoned word below a column count (R382). -/
def Cluster.rowPoisoned (k : Cluster) (g : Group) (b row n : Nat) : Bool :=
  let hit (q cnt : Nat) : Bool := (k.quad q).pois.any fun d =>
    overlap (8 * d) 8 (131072 * b + 512 * row) (4 * cnt)
  hit g.home (min n 128) || (g.wide && n > 128 && hit (g.home + 1) (n - 128))

/-- Bytes of a column of the tile as one quadrant holds it. -/
def colStride (t : Ty) : Nat := matRow t (matKq t)
/-- Column `n` of the group's tile: K elements, in k order. -/
def Cluster.column (k : Cluster) (g : Group) (t : Ty) (kk n : Nat) : List Byte :=
  let part (q cnt : Nat) : List Byte := (k.quad q).weights.read (n % 128 * colStride t) (matRow t cnt)
  let q := g.colQuad n
  if g.tall ∧ kk > matKq t then part q (matKq t) ++ part (q + 2) (kk - matKq t) else part q kk
/-- Latches a tile: its columns, type, K and N; cells beyond K or N hold zero (R190). -/
def Cluster.latch (k : Cluster) (g : Group) (t : Ty) (kk n : Nat) (cols : List (List Byte)) : Cluster :=
  let st := colStride t
  let mem (q : Nat) : Memory :=
    let wide := (q - g.home) % 2
    let high := g.home + 2 ≤ q
    let mine := (cols.drop (128 * wide)).take 128
    Memory.write [] 0 (mine.flatMap fun c =>
      let c := if high then c.drop st else c.take st
      c ++ List.replicate (st - c.length) 0)
  { k with quads := k.quads.mapIdx fun i q =>
      if g.members.contains i then { q with weights := mem i, ty := t, k := kk, n := n, valid := true } else q }

/-! Commands at the unit. -/

/-- The home quadrant of the group that a core's queue head names; `MFUSE` stands with the lowest quadrant whose group it
changes. `MVB` and `MMAP` never enter the arbiter. -/
def State.requests (s : State) (c : Core) : Option Nat :=
  let mode := (s.cluster (clusterOf c.id)).mode
  match c.matrix with
  | [] => none
  | m :: _ =>
    match m.ins with
    | .mwld q _ _ _ _ _ _ => some (groupOf mode (c.quadOf q)).home
    | .mma _ _ _ acc _ _ _ _ _ => some (groupOf mode (c.bankOf acc).1).home
    | .mmg _ _ _ _ acc _ _ _ _ _ _ _ _ => some (groupOf mode (c.bankOf acc).1).home
    | .mdrain _ _ _ acc _ _ _ _ _ _ => some (groupOf mode (c.bankOf acc).1).home
    | .mzero acc _ => some (groupOf mode (c.bankOf acc).1).home
    | .mfuse tgt _ =>
      let new := fuseOn mode tgt.val c.held
      some (groupOf mode (((List.range 4).find? fun i => groupOf mode i ≠ groupOf new i).getD (indexOf c.id / 2))).home
    | _ => none

/-- Changes the command at the head of a core's queue. -/
def State.modHead (s : State) (n : Nat) (f : MatrixCmd → MatrixCmd) : State :=
  s.modCore n fun c => { c with matrix := match c.matrix with | m :: l => f m :: l | [] => [] }

/-- How a turn goes: the command waits for a translation, has more turns, or is complete. -/
inductive Turn where
  | wait (s : State)
  | more (s : State)
  | done (s : State)

/-- A command fails at the unit (R187): the register, the record, the bank's error bit, the weight-valid bit. -/
def State.matrixFail (s : State) (m : MatrixCmd) (code : Nat) (bank : Option (Group × Nat)) (wipe : Option Group)
    (rec : Nat × Nat × Nat × Nat := (0x10, 0, code, 0)) : State :=
  let c := s.core
  let s := s.upd fun c => { c with mErr := c.mErr.orElse fun _ => some (code, m.seq) }
  let s := s.note (c.cmdRec rec.1 m.seq rec.2.1 rec.2.2.1 rec.2.2.2)
  let cl := clusterOf c.id
  let s := match bank with
    | some (g, b) => s.modCluster cl fun k => k.modQuads g.banks fun q => q.setErr b true
    | none => s
  match wipe with
  | some g => s.modCluster cl fun k => k.modQuads g.members fun q => { q with valid := false }
  | none => s
/-- The first failing check of a list. -/
def firstFail (l : List (Nat × Bool)) : Option Nat := (l.find? fun e => e.2).map Prod.fst

/-- The checks of a command on a bank, of ownership and failed quadrants (R181, R187). -/
def State.bankChecks (s : State) (g : Group) (b : Nat) : List (Nat × Bool) :=
  let k := s.cluster (clusterOf s.core.id)
  [(4, indexOf s.core.id ≠ 2 * g.home + b), (8, g.members.any fun q => (k.quad q).failed)]
/-- A command fails its checks: code 4 leaves the bank alone. -/
def State.bankFail (s : State) (m : MatrixCmd) (g : Group) (b code : Nat) : State :=
  s.matrixFail m code (if code = 4 then none else some (g, b)) none

/-! Reading B (R52, R186, R338). -/

/-- A unit of the matrix unit's reads, as the maker of accesses. -/
def State.matrixWho (s : State) (seq : BitVec 32) (unit : Nat) : Who :=
  { w := .matrix s.core.id seq unit, ctx := s.core.ctx, core := s.core.id, seq := seq, eng := true }
/-- Takes a unit that may be moved now: a parked one, or the next while 64 KiB keep what comes behind a parked one. -/
def State.readUnit (who : Nat → Who) (pad : List Byte) (u : Nat) (a : State × Xfer) (q : Option Space × Nat) : State × Xfer :=
  let (s, x) := a
  let k := q.2
  let again := x.parked.contains k
  if !again ∧ !(k = x.next ∧ x.fail = none ∧ (x.parked = [] ∨ x.behind + u ≤ 65536)) then a
  else
    let x' := { x with next := max x.next (k + 1) }
    let keep (s : State) (pl : Option Place) (bs : List Byte) : State × Xfer :=
      (s, { x' with held := heldInsert { unit := k, place := pl, data := bs, size := u } x.held
                    parked := x.parked.filter (· ≠ k) })
    match q.1 with
    | none => keep s none pad
    | some sp =>
      match s.placeAs (who k) sp u .read with
      | .wait s => (s, if again then x else { x' with parked := x.parked ++ [k] })
      | .fault s v i => (s, x'.failAt k ⟨0x08, v, i⟩)
      | .ok s pl =>
        match s.readPlace pl true with
        | (s, none) => (s, x'.failAt k ⟨0x21, sp.address, 4⟩)
        | (s, some bs) => keep s (some pl) bs
/-- The units of a window that describes B, each with its number. -/
def State.windowUnits (s : State) (h : Shape) (w : Win) : List (Option Space × Nat) :=
  ((h.units w).map fun a => a.map (s.unitSpace h.base)).zipIdx
/-- Moves what can be moved of the window that describes B. The flag tells whether nothing is left to wait for. -/
def State.readWindow (s : State) (seq : BitVec 32) (h : Shape) (w : Win) (x : Xfer) : State × Xfer × Bool :=
  let us := s.windowUnits h w
  let (s, x) := us.foldl (State.readUnit (s.matrixWho seq) h.padUnit (h.ty.getD .n8).size) (s, x)
  (s, x, x.parked = [] && x.taken us.length)

/-- How a load of weights goes: it waits for a page, it has ended the command, or the weights stand. -/
inductive Loaded where
  | wait (s : State) (x : Xfer)
  | ended (s : State)
  | ok (s : State)

/-- Loads B into a group (R190): the limits, then the tile. Another command that holds weights of the group holds them no more. -/
def State.loadWeights (s : State) (m : MatrixCmd) (g : Group) (bank : Option (Group × Nat)) (h : Shape) (o0 o1 : Int)
    (k n : Nat) : Loaded :=
  let t := h.ty.getD .n8
  let cl := clusterOf s.core.id
  if k > g.kMax t ∨ n > g.nMax ∨ !matWhole t k then
    .ended (s.matrixFail m 3 bank (if bank.isSome then none else some g))
  else
    match s.readWindow m.seq h (Win.of (matUnits t k) n o0 o1 0 0) m.xfer with
    | (s, x, false) => .wait s x
    | (s, x, true) =>
      match x.fail with
      | some (i, f) =>
        .ended (s.matrixFail m 5 bank (some g) (if f.cause = 0x21 then (0x21, f.addr, f.info0, i) else (0x10, 0, 5, 0)))
      | none =>
        let us := x.held.map EHeld.data
        let kk := matUnits t k
        let s := s.modCluster cl fun c => c.latch g t k n ((List.range n).map fun i => ((us.drop (i * kk)).take kk).flatten)
        .ok (((List.range 8).map (8 * cl + ·)).foldl (fun s i =>
          if i ≠ s.core.id ∧ s.requests (s.coreAt i) = some g.home then s.modHead i fun m => { m with holds := none } else s) s)

/-- A turn of `MWLD` (R190). -/
def State.turnMwld (s : State) (m : MatrixCmd) (q : QuadOp) (k n : Nat) : Turn :=
  let cl := s.cluster (clusterOf s.core.id)
  let g := groupOf cl.mode (s.core.quadOf q)
  if g.members.any fun q => (cl.quad q).failed then .done (s.matrixFail m 8 none none)
  else
    match s.loadWeights m g none (Shape.ofBytes m.shape) (m.ops.getD 0 0).toInt (m.ops.getD 1 0).toInt k n with
    | .wait s x => .wait (s.modHead s.core.id fun _ => { m with xfer := x })
    | .ended s | .ok s => .done s

/-- One row of A through the weights that stand (R191). -/
def State.productRow (s : State) (g : Group) (b row : Nat) (neg accz : Bool) (ta : Ty) (n : Nat) (a : List Byte) : State :=
  s.modCluster (clusterOf s.core.id) fun k =>
    let q := k.quad g.home
    k.putRow g b row ((List.range n).map fun j =>
      accumulate neg ta q.ty q.k a (k.column g q.ty q.k j) (if accz then negZero else k.acc g b row j))

/-- A source row, a table or a record in the share that reads poison ends the command there (R382): with code 5 and the error bit of the bank that it was for (log 66). -/
def State.poisonRow (s : State) (m : MatrixCmd) (g : Group) (b : Nat) (off unit : Nat) : State :=
  s.matrixFail m 5 (some (g, b)) none (0x21, 8 * 2 ^ 60 + off, 4, unit)
/-- A row of accumulators that a product adds to holds a poisoned word (R382). -/
def State.accPoisoned (s : State) (g : Group) (b row : Nat) (accz : Bool) (n : Nat) : Bool :=
  !accz && (s.cluster (clusterOf s.core.id)).rowPoisoned g b row n
/-- It ends the command there; a bank's word has no address (R382; log 66). -/
def State.poisonAcc (s : State) (m : MatrixCmd) (g : Group) (b unit : Nat) : State :=
  s.matrixFail m 5 (some (g, b)) none (0x21, 0, 4, unit)

/-- Rows of a pass, in order, up to one that reads poison. -/
def State.productRows (s : State) (m : MatrixCmd) (g : Group) (b : Nat) (neg accz : Bool) (ta : Ty) (aOff stride row0 : Nat) :
    List Nat → State × Bool
  | [] => (s, true)
  | i :: is =>
    let q := (s.cluster (clusterOf s.core.id)).quad g.home
    let n := matRow ta q.k
    if s.core.sharePoisoned (aOff + i * stride) n then (s.poisonRow m g b (aOff + i * stride) i, false)
    else if s.accPoisoned g b (row0 + i) accz q.n then (s.poisonAcc m g b i, false)
    else
      (s.productRow g b (row0 + i) neg accz ta q.n (s.core.shareRead (aOff + i * stride) n)).productRows m g b neg accz ta
        aOff stride row0 is

/-- A residue mismatch in a column of a quadrant (R384): a spare takes the column's place and the pass is replayed, or with none left
the quadrant has failed. -/
def State.remap (s : State) (cl i : Nat) : State :=
  let q := (s.cluster cl).quad i
  let die := cl / 32
  let ev (s : State) (code : Nat) : State := s.event die code 0xFF 0xFFFF none none
  let s := s.modCluster cl fun k => k.modQuads [i] fun q =>
    { q with struck := q.struck.drop 1, retired := if q.spare = 0 then q.retired else q.retired ++ q.struck.take 1
             failed := q.failed || q.spare = 0 }
  if q.spare = 0 then ev s 0x06 else (ev s 0x05).count s.core.id 0x0E 1
/-- The residue checks of a pass of a group (R384): every struck column in use is remapped, until a quadrant has failed. -/
def State.residue (s : State) (g : Group) : State :=
  let cl := clusterOf s.core.id
  let s := s.modCluster cl fun k => k.modQuads g.members fun q => { q with struck := q.struck.filter fun n => !q.retired.contains n }
  g.members.foldl (fun s i => ((s.cluster cl).quad i).struck.foldl (fun s _ =>
    if ((s.cluster cl).quad i).failed then s else s.remap cl i) s) s
/-- A quadrant of a group has failed. -/
def State.groupFailed (s : State) (g : Group) : Bool := g.members.any fun i => ((s.cluster (clusterOf s.core.id)).quad i).failed

/-- A turn of `MMA`: up to 32 rows (R191). The checks are made at each turn, before its pass. -/
def State.turnMma (s : State) (m : MatrixCmd) (neg accz : Bool) (ty : Ty) (acc : BankOp) (stride : Nat) : Turn :=
  let cl := s.cluster (clusterOf s.core.id)
  let (q, b) := s.core.bankOf acc
  let g := groupOf cl.mode q
  let w := cl.quad g.home
  let (a, n, row0) := ((m.ops.getD 0 0).toNat, (m.ops.getD 1 0).toNat, (m.ops.getD 2 0).toNat)
  match firstFail (s.bankChecks g b ++
      [(2, !w.valid), (1, matClass ty ≠ matClass w.ty), (3, w.k > g.kMax ty || w.n > g.nMax || !matWhole ty w.k),
       (9, a + (n - 1) * stride + matRow ty w.k > s.core.shareSize)]) with
  | some code => .done (s.bankFail m g b code)
  | none =>
    let lo := 32 * m.done
    let s := s.residue g
    if s.groupFailed g then .done (s.bankFail m g b 8) else
    let (s, ok) := s.productRows m g b neg accz ty a stride row0 ((List.range (min 32 (n - lo))).map (lo + ·))
    if ok ∧ lo + 32 < n then .more s else .done s

/-- An offset vector from zero, not falling (R192). -/
def offsetsOk : Nat → List Nat → Bool
  | _, [] => true
  | a, b :: l => a ≤ b && offsetsOk b l
/-- The group of a row: the largest g with off[g] ≤ r that is not empty (R192). -/
def groupOfRow (off : List Nat) (r : Nat) : Nat := ((off.dropLast).filter fun o => o ≤ r).length - 1

/-- Loads the weights of a group of `MMG` as its table entry tells (R187, R190, R192). -/
def State.loadGroup (s : State) (m : MatrixCmd) (g : Group) (b : Nat) (ty : Ty) (tab k n gi : Nat) : Loaded :=
  let c := s.core
  let e := tab + 16 * gi
  let ra : Word := BitVec.ofNat 64 (c.shareNat e 8)
  let o := offset ra
  let fails (code : Nat) : Loaded := .ended (s.bankFail m g b code)
  if c.sharePoisoned e 16 then .ended (s.poisonRow m g b e gi)
  else if tag ra ≠ 8 ∨ o % 64 ≠ 0 then fails 6
  else if o + 64 > c.shareSize then fails 9
  else if c.sharePoisoned o 64 then .ended (s.poisonRow m g b o gi)
  else
    let h := Shape.ofBytes (c.shareRead o 64)
    let t := h.ty.getD .n8
    let o0 := (BitVec.ofNat 32 (c.shareNat (e + 8) 4)).toInt
    let o1 := (BitVec.ofNat 32 (c.shareNat (e + 12) 4)).toInt
    if !(h.ty.any Ty.isMat) then fails 6
    else if matClass t ≠ matClass ty then fails 1
    else if k > g.kMax t ∨ n > g.nMax ∨ !matWhole t k then fails 3
    else
      match s.judge h (Win.of (matUnits t k) n o0 o1 0 0) Ty.isMat false with
      | .fails row => fails (if row = 8 ∧ tag h.base = 8 then 9 else 6)
      | _ => s.loadWeights m g (some (g, b)) h o0 o1 k n

/-- Rows of a tile of `MMG`, loading the weights of a group where they are not those held (R192). The answer is the command with
what it has done, or nothing when it has failed. -/
def State.groupedRows (s : State) (m : MatrixCmd) (g : Group) (b : Nat) (neg accz : Bool) (ty : Ty)
    (aOff stride t0 tab k n : Nat) (off : List Nat) : List Nat → Turn × Option MatrixCmd
  | [] => (.done s, some m)
  | r :: rs =>
    let gi := groupOfRow off r
    match (if m.holds = some gi then .ok s else s.loadGroup m g b ty tab k n gi) with
    | .wait s x => (.wait (s.modHead s.core.id fun _ => { m with xfer := x }), none)
    | .ended s => (.done s, none)
    | .ok s =>
      let a := aOff + r * stride
      if s.core.sharePoisoned a (matRow ty k) then (.done (s.poisonRow m g b a r), none)
      else if s.accPoisoned g b (r - 32 * t0) accz n then (.done (s.poisonAcc m g b r), none)
      else
        (s.productRow g b (r - 32 * t0) neg accz ty n (s.core.shareRead a (matRow ty k))).groupedRows
          { m with holds := some gi, xfer := {}, row := m.row + 1 } g b neg accz ty aOff stride t0 tab k n off rs

/-- A turn of `MMG`: one tile (R192). One that waits for a page goes on where it was. -/
def State.turnMmg (s : State) (m : MatrixCmd) (neg accz : Bool) (nt : Nat) (ty : Ty) (acc : BankOp) (k n stride : Nat) :
    Turn :=
  let cl := clusterOf s.core.id
  let (q, b) := s.core.bankOf acc
  let g := groupOf (s.cluster cl).mode q
  let op (i : Nat) : Nat := (m.ops.getD i 0).toNat
  let t0 := fld (op 1) 0 32
  let gs := fld (op 1) 32 12 + 1
  let (aOff, xoff, tab) := (op 0, op 2, op 3)
  let size := s.core.shareSize
  let inside := xoff + 4 * (gs + 1) ≤ size ∧ tab + 16 * gs ≤ size
  let off := if inside then (List.range (gs + 1)).map fun i => s.core.shareNat (xoff + 4 * i) 4 else []
  let total := off.getLastD 0
  let last := min total (32 * (t0 + nt))
  match firstFail (s.bankChecks g b ++ [(3, k > g.kMax ty || n > g.nMax || !matWhole ty k), (9, !(decide inside))]) with
  | some code => .done (s.bankFail m g b code)
  | none =>
    if s.core.sharePoisoned xoff (4 * (gs + 1)) then .done (s.poisonRow m g b xoff 0) else
    match firstFail [(9, last > 32 * t0 && aOff + (last - 1) * stride + matRow ty k > size),
       (6, off.headD 1 ≠ 0 || !offsetsOk 0 off)] with
    | some code => .done (s.bankFail m g b code)
    | none =>
    let t := t0 + m.done
    let s := s.residue g
    if s.groupFailed g then .done (s.bankFail m g b 8) else
    let rows := ((List.range 32).map (32 * t + ·)).filter (· < total)
    match s.groupedRows m g b neg accz ty aOff stride t0 tab k n off (rows.drop m.row) with
    | (.done s, some m) =>
      if m.done + 1 < nt then .more (s.modHead s.core.id fun _ => { m with row := 0 }) else .done s
    | (r, _) => r

/-- The cluster core that a bank row drains to (R193). -/
def mapEntry (map : Word) (row : Nat) : Nat := map.toNat / 2 ^ (8 * (row / 32)) % 8
/-- A destination of `MDRAIN` is of the launch, not sealed, with rows and stamp in its share (R194). -/
def State.drainTo (s : State) (n : Nat) (d st rows stride rb : Nat) : Bool :=
  let c := s.coreAt n
  c.shareSize > 0 && c.launch = s.core.launch && !c.sealed && d + (rows - 1) * stride + rb ≤ c.shareSize &&
    st + 8 ≤ c.shareSize

/-- The granules of bytes for a core's share. -/
def granuleItems (dest off : Nat) (bs : List Byte) : List DrainItem :=
  (List.range ((bs.length + 15) / 16)).map fun g => { dest := dest, off := off + 16 * g, data := (bs.drop (16 * g)).take 16 }
/-- A granule or a stamp lands in a core's share, where that is the launch's still (R168, R194, R200). -/
def State.landItem (s : State) (launch seq : BitVec 32) (i : DrainItem) : State :=
  s.modCore i.dest fun c =>
    if c.launch ≠ launch ∨ c.shareSize ≤ i.off then c
    else match i.stamp with
      | some (st, n) => c.stamp i.off st n seq.toNat
      | none => c.arrive i.off i.data
/-- What may land of a list, a stamp after its core's last granule. -/
def landable (closed : Bool) (l : List DrainItem) : List DrainItem :=
  l.filter fun i => i.stamp.isNone || (closed && !l.any fun j => j.stamp.isNone && j.dest = i.dest)
/-- Nothing of a drain is left to land. -/
def Drain.over (d : Drain) : Bool := d.closed && d.items.isEmpty
/-- Items join those of the drain of the acting core's command. -/
def State.addDrain (s : State) (m : MatrixCmd) (items : List DrainItem) (closed : Bool) : State :=
  let c := s.core
  let mine (d : Drain) : Bool := d.core = c.id && d.launch = c.launch && d.seq = m.seq
  let l := if s.drains.any mine then
      s.drains.map fun d => if mine d then { d with items := d.items ++ items, closed := closed } else d
    else s.drains ++ [{ core := c.id, launch := c.launch, seq := m.seq, prev := c.mRd, items := items, closed := closed }]
  { s with drains := l.filter fun d => !d.over }
/-- Item `g` of those that may land from the drains of a cluster, those of one core in their order (R185). -/
def State.drainStep (s : State) (cl g : Nat) : State :=
  let ds := s.drains.filter fun d => clusterOf d.core = cl
  let firsts := ds.filter fun d => (ds.find? fun e => e.core = d.core) = some d
  match (firsts.flatMap fun d => (landable d.closed d.items).map fun i => (d, i))[g]? with
  | none => s
  | some (d, i) =>
    let s := s.landItem d.launch d.seq i
    let l := s.drains.map fun e => if e = d then { e with items := e.items.erase i } else e
    ({ s with drains := l.filter fun e => !e.over }).matrixDone d.core

/-- A turn of `MDRAIN`: 32 rows (R194). The destinations are checked once, before the first; the granules land later, in any
order (R168, R224). -/
def State.turnMdrain (s : State) (m : MatrixCmd) (clr : Bool) (ty : Ty) (rm : Rm) (acc : BankOp) (n stride : Nat) : Turn :=
  let cln := clusterOf s.core.id
  let cl := s.cluster cln
  let (q, b) := s.core.bankOf acc
  let g := groupOf cl.mode q
  match firstFail (s.bankChecks g b ++ [(3, decide (n > g.nMax))]) with
  | some code => .done (s.bankFail m g b code)
  | none =>
    let v := (m.ops.getD 1 0).toNat
    let (row0, cnt) := (v % 256, v / 256)
    let (d, st) := ((m.ops.getD 0 0).toNat, (m.ops.getD 2 0).toNat)
    let rb := rowPad (n * ty.size)
    let map := s.core.map
    let rowsOf (i : Nat) : List Nat := ((List.range cnt).map (row0 + ·)).filter fun r => mapEntry map r = i
    let dests := ((List.range 8).filter fun i => rowsOf i ≠ []).map fun i => (i, 8 * cln + i)
    let ok (e : Nat × Nat) : Bool := if m.done = 0 then s.drainTo e.2 d st (rowsOf e.1).length stride rb else m.good.contains e.2
    let good := dests.filter ok
    let s := if m.done = 0 then (dests.filter fun e => !ok e).foldl (fun s _ => s.matrixFail m 7 none none) s else s
    let stamps (status : Nat) (count : Nat → Nat) : List DrainItem :=
      good.map fun e => { dest := e.2, off := st, data := [], stamp := some (status, count e.1) }
    let err := g.banks.any (fun i => (cl.quad i).errOf b) ||
      ((List.range cnt).any fun i => cl.rowPoisoned g b (row0 + i) n)
    if m.done = 0 ∧ err then .done (s.addDrain m (stamps 0x80 fun _ => 0) true)
    else
      let lo := 32 * m.done
      let mode := Mode.pick rm m.frm.toNat
      let h : How := { mode := mode, seed := m.seed }
      let s := s.addDrain m [] false
      let s := ((List.range (min 32 (cnt - lo))).map (row0 + lo + ·)).foldl (fun s row =>
        let es := (List.range n).map fun j => eltConvert ty .f32 false h row j (cl.acc g b row j)
        let s := s.modCluster cln fun k => k.putRow g b row (es.zipIdx.map fun e =>
          (if clr then 0 else cl.acc g b row e.2, e.1.flags))
        let bs := es.flatMap fun e => leBytes ty.size e.bits
        match good.find? fun e => e.1 = mapEntry map row with
        | none => s
        | some e => s.addDrain m (granuleItems e.2 (d + ((rowsOf e.1).idxOf row) * stride)
            (bs ++ List.replicate (rb - bs.length) 0)) false) s
      if lo + 32 < cnt then .more (s.modHead s.core.id fun m => { m with good := good.map Prod.snd })
      else .done (s.addDrain m (stamps 0x01 fun i => (rowsOf i).length * n) true)

/-- A turn of `MZERO` (R195). -/
def State.turnMzero (s : State) (m : MatrixCmd) (acc : BankOp) : Turn :=
  let cln := clusterOf s.core.id
  let (q, b) := s.core.bankOf acc
  let g := groupOf (s.cluster cln).mode q
  match firstFail (s.bankChecks g b) with
  | some code => .done (s.bankFail m g b code)
  | none => .done (s.modCluster cln fun k => k.modQuads g.banks fun q =>
      let q := (q.setFlags b 0).setErr b false
      let q := { q with pois := q.pois.filter fun d => d / 16384 ≠ b }
      if b = 0 then { q with bank0 := [] } else { q with bank1 := [] })

/-- A turn of the command has begun and waits for a page: it holds the group's arbiter (R184, R192). -/
def MatrixCmd.midTurn (m : MatrixCmd) : Bool := m.row > 0 || m.xfer.next > 0
/-- A command has begun at the unit. -/
def MatrixCmd.begun (m : MatrixCmd) : Bool := m.done > 0 || m.midTurn
/-- An `MFUSE` of a core to a mode changes the group of a quadrant. -/
def Cluster.changes (k : Cluster) (c : Core) (mode i : Nat) : Bool := groupOf k.mode i ≠ groupOf (fuseOn k.mode mode c.held) i
/-- A turn of `MFUSE` (R185, R196): it waits while a command stands begun on a quadrant whose group changes, and those quadrants
lose their weights. Quadrants that the task does not hold keep their group. -/
def State.turnMfuse (s : State) (mode : Nat) : Turn :=
  let cl := clusterOf s.core.id
  let k := s.cluster cl
  let new := fuseOn k.mode mode s.core.held
  let changes := k.changes s.core mode
  let busy := (List.range 8).any fun i =>
    let c := s.coreAt (8 * cl + i)
    (c.matrix.head?.any MatrixCmd.begun) && ((s.requests c).any fun h => (groupOf k.mode h).members.any changes)
  if busy then .wait (s.modHead s.core.id fun m => { m with waits := true })
  else .done (s.modCluster cl fun k =>
    { k with mode := new, quads := k.quads.mapIdx fun i q => if changes i then { q with valid := false } else q })

/-- A turn of the command at the head of the acting core's queue. -/
def State.turn (s : State) (m : MatrixCmd) : Turn :=
  match m.ins with
  | .mwld q _ _ _ k n _ => s.turnMwld m q (k.val + 1) (n.val + 1)
  | .mma neg accz ty acc _ _ _ stride _ => s.turnMma m neg accz ty acc (16 * stride.val)
  | .mmg neg accz nt ty acc _ _ _ _ k n stride _ =>
    s.turnMmg m neg accz (nt.val + 1) ty acc (k.val + 1) (n.val + 1) (16 * stride.val)
  | .mdrain clr ty rm acc _ _ _ n stride _ => s.turnMdrain m clr ty rm acc (n.val + 1) (16 * stride.val)
  | .mzero acc _ => s.turnMzero m acc
  | .mfuse mode _ => s.turnMfuse mode.val
  | _ => .done s

/-! Arbitration (R184). -/

/-- Runs something with another core as the one that acts. -/
def State.asCore (s : State) (n : Nat) (f : State → State) : State := (f (s.focus n)).focus s.core.id

/-- A core's command may not start yet: an `MFUSE` that has come to its turn waits on a quadrant of its group (R185). -/
def State.fuseBars (s : State) (n h : Nat) : Bool :=
  let cl := clusterOf n
  let k := s.cluster cl
  !((s.coreAt n).matrix.head?.any fun m => m.begun || m.waits) &&
    (List.range 8).any fun i =>
      let c := s.coreAt (8 * cl + i)
      match c.matrix with
      | m :: _ => m.waits && (match m.ins with
          | .mfuse mode _ => (groupOf k.mode h).members.any (k.changes c mode.val)
          | _ => false)
      | [] => false
/-- Tries requesters in order until one takes its turn or holds the arbiter in it; the answer tells which one has taken one. -/
def State.tryTurns (s : State) : List Nat → State × Option Nat
  | [] => (s, none)
  | n :: ns =>
    let home := s.core.id
    match (s.coreAt n).matrix with
    | [] => s.tryTurns ns
    | m :: _ =>
      match (s.focus n).turn m with
      | .wait s =>
        if s.core.matrix.head?.any MatrixCmd.midTurn then (s.focus home, none) else (s.focus home).tryTurns ns
      | .more s =>
        ((s.upd fun c => { c with matrix := match c.matrix with | m :: l => { m with done := m.done + 1 } :: l | [] => [] }).focus
          home, some n)
      | .done s => ((s.popMatrix n).focus home, some n)

/-- The order in which a group's arbiter looks at its requesters: round robin after the last one served, which comes first
while it has turns left of its weight. Before any turn, `turns` is 0 and core 0 comes first (log 3). -/
def arbOrder (last turns weight : Nat) (base : Nat) : List Nat :=
  let rr := (List.range 8).map fun i => (last + 1 + i) % 8
  ((if 0 < turns ∧ turns < weight then [last] else []) ++ rr).map (base + ·)

/-- One turn of the group whose home is `h`. -/
def State.groupTurn (s : State) (cl h : Nat) : State :=
  let k := s.cluster cl
  if (groupOf k.mode h).home ≠ h then s
  else
    let i : Fin 4 := Fin.ofNat 4 h
    let last := k.served[i]
    let turns := k.turns[i]
    let weight := (s.coreAt (8 * cl + last)).weight
    let want := ((List.range 8).map (8 * cl + ·)).filter fun n => s.requests { s.coreAt n with id := n } = some h && !s.fuseBars n h
    if want = [] then s
    else
      let mid := want.filter fun n => (s.coreAt n).matrix.head?.any MatrixCmd.midTurn
      let order := if mid ≠ [] then mid else (arbOrder last turns weight (8 * cl)).filter want.contains
      let (s, who) := s.tryTurns order.eraseDups
      match who with
      | none => s
      | some n =>
        let x := n % 8
        let s := s.modCluster cl fun k =>
          { k with served := k.served.set i x, turns := k.turns.set i (if x = last ∧ turns < weight then turns + 1 else 1) }
        (want.filter (· ≠ n)).foldl (fun s n => s.count n 0x0A 1) s

/-! `MVB` (R198, R199). -/

/-- An `MVB` ends: stamp and numbers. -/
def State.finishMvb (s : State) (n : Nat) (m : MatrixCmd) (status count : Nat) : State :=
  (s.modCore n fun c => c.stamp (m.ops.getD 3 0).toNat status count m.seq.toNat).matrixDone n

/-- The stacks accept the `MVB` at the head of a core's queue: its A vectors are read, its record validated (R186,
R198). -/
def State.acceptMvb (s : State) (n : Nat) : State :=
  match (s.coreAt n).matrix with
  | [] => s
  | m :: _ =>
    match m.ins with
    | .mvb _ ty _ _ _ _ _ _ nv _ => s.asCore n fun s =>
      let c := s.core
      let op (i : Nat) : Nat := (m.ops.getD i 0).toNat
      let k := fld (op 4) 0 24
      let nn := fld (op 4) 32 24
      let h := Shape.ofBytes m.shape
      let t := h.ty.getD .n8
      let fail (cause addr i0 i1 : Nat) : State :=
        ((s.note (c.cmdRec cause m.seq addr i0 i1)).popMatrix n).finishMvb n m 0x80 0
      if m.shape = [] then fail 0x06 (op 2) 1 0
      else
        match s.judge h (Win.of (matUnits t k) nn 0 0 0 0) (fun t => t.isMat) false with
        | .fails row => fail 0x06 (op 2) row 0
        | j =>
          let ra := matRow ty k
          let offs := (List.range (nv.val + 1)).map fun i => op 1 + i * rowPad ra
          if j = .nothing then (s.popMatrix n).finishMvb n m 0x01 0
          else
            match offs.find? fun o => c.sharePoisoned o ra with
            | some o => fail 0x21 (8 * 2 ^ 60 + o) 4 0
            | none =>
              let e : StackCmd := { core := n, ctx := c.ctx, launch := c.launch, cmd := m, data := offs.map fun o => c.shareRead o ra, prev := c.mRd
                                    rep := false }
              { s with stack := s.stack ++ [e] }.popMatrix n
    | _ => s

/-- `MATRIX_TURN`: one turn in each group of a cluster that has a requester (R184), with the acceptance of the `MVB`s at
the heads of the queues (R199); or the landing of one granule or stamp of a drain (R194). -/
def execMatrixTurn (t : TurnStep) (s : State) : Out :=
  match t.land with
  | some g => .next (s.drainStep t.cluster g)
  | none =>
    let s := (List.range 8).foldl (fun s i => s.acceptMvb (8 * t.cluster + i)) s
    .next ((List.range 4).foldl (fun s h => s.groupTurn t.cluster h) s)

/-- The HBM stack of every byte of a row of B, when it is one (R199). -/
def oneStack (us : List EHeld) : Bool :=
  let hs := us.flatMap fun q => match q.place with
    | some (.mem ps) => ps.flatMap fun p => [p.hpa, p.hpa + p.len - 1]
    | _ => []
  hs.all fun a => isHbm a && hbmStack a = hbmStack (hs.headD 0)

/-- The elements of an `MVB` for the first `rows` rows of B: for each vector its converted bytes, and the
flags. A draw goes by the vector and the row of B (R110; log 62). -/
def mvbResults (out ta tb : Ty) (k : Nat) (h : How) (as_ cols : List (List Byte)) : List (List Byte) × Flags :=
  as_.zipIdx.foldl (fun acc a =>
    let es := cols.zipIdx.map fun c =>
      let r := accumulate false ta tb k a.1 c.1 negZero
      let e := eltConvert out .f32 false h a.2 c.2 r.1
      (leBytes out.size e.bits, r.2 ||| e.flags)
    (acc.1 ++ [es.flatMap Prod.fst], es.foldl (fun f e => f ||| e.2) acc.2)) ([], 0)

/-- The same command in the stacks' list. -/
def StackCmd.is (x y : StackCmd) : Bool := x.core = y.core && x.launch = y.launch && x.cmd.seq = y.cmd.seq
/-- A command in the stacks' list takes another state. -/
def State.setStack (s : State) (x : StackCmd) : State :=
  { s with stack := s.stack.map fun y => if x.is y then x else y }
/-- A command leaves the list. -/
def State.endStack (s : State) (x : StackCmd) : State :=
  { s with stack := s.stack.filter fun y => !x.is y }.matrixDone x.core
/-- Runs something as the core of an accepted `MVB`, in the context and the launch of its issue (R200). -/
def State.asIssued (s : State) (x : StackCmd) (f : State → State × StackCmd) : State × StackCmd :=
  let c := s.coreAt x.core
  let (t, y) := f ((s.focus x.core).upd fun d => { d with ctx := x.ctx, launch := x.launch })
  ((t.upd fun d => { d with ctx := c.ctx, launch := c.launch }).focus s.core.id, y)
/-- What an accepted `MVB` has formed: its vectors' bytes, granule by granule, and the stamp. -/
def StackCmd.results (x : StackCmd) (vs : List (List Byte)) (od rb st status count : Nat) : StackCmd :=
  { x with out := some ((vs.zipIdx.flatMap fun v => granuleItems x.core (od + v.2 * rb) v.1) ++
      [{ dest := x.core, off := st, data := [], stamp := some (status, count) }]) }
/-- An accepted `MVB` reads B and, when nothing is left to wait for, forms its results, row of B by row of B (R199, R338). -/
def State.mvbRun (s : State) (x : StackCmd) : State × StackCmd :=
  match x.cmd.ins with
  | .mvb out ty rm _ _ _ _ _ nv _ =>
    let m := x.cmd
    let op (i : Nat) : Nat := (m.ops.getD i 0).toNat
    let k := fld (op 4) 0 24
    let nn := fld (op 4) 32 24
    let h := Shape.ofBytes m.shape
    let t := h.ty.getD .n8
    let ku := matUnits t k
    let mine := (s.coreAt x.core).launch = x.launch
    s.asIssued x fun s =>
      match s.readWindow m.seq h (Win.of ku nn 0 0 0 0) x.xfer with
      | (s, y, false) => (s, { x with rep := x.rep || y.parked ≠ [], xfer := y })
      | (s, y, true) =>
        let whole := y.held.length / ku
        let row (n : Nat) := (y.held.drop (n * ku)).take ku
        let off := (List.range whole).find? fun n => !oneStack (row n)
        let rows := off.getD whole
        let cols := (List.range rows).map fun n => (row n).flatMap EHeld.data
        let (vs, f) := mvbResults out ty t k { mode := Mode.pick rm m.frm.toNat, seed := m.seed } x.data cols
        let rb := rowPad (nn * out.size)
        let vs := if rows = nn then vs.map fun v => v ++ List.replicate (rb - v.length) 0 else vs
        let s := if mine then s.upd fun c => { c with mvbFlags := c.mvbFlags ||| f } else s
        let ends (s : State) (status : Nat) : State × StackCmd := (s, x.results vs (op 0) rb (op 3) status ((nv.val + 1) * rows))
        let rowVa := ((baseOffset h.base : Int) + (t.size : Int) * rows * h.str[1]).toNat
        match off, y.fail with
        | some n, _ => ends (s.note (s.core.cmdRec 0x11 m.seq rowVa n 0)) 0x80
        | none, some (i, e) => ends (s.note (s.core.cmdRec e.cause m.seq e.addr e.info0 i)) 0x80
        | none, none => ends s (if x.rep then 0x03 else 0x01)
  | _ => (s, { x with out := some [] })
/-- One granule of an `MVB`'s results lands, which one is free, or at the end its stamp (R199, R224). -/
def State.mvbLand (s : State) (x : StackCmd) (l : List DrainItem) : State :=
  let (s, w) := s.openWord
  let able := landable true l
  match able[w.toNat % able.length]? with
  | none => s.endStack x
  | some i =>
    let s := s.landItem x.launch x.cmd.seq i
    let rest := l.erase i
    if rest = [] then s.endStack x else s.setStack { x with out := some rest }
/-- The first command of a list that can go on does, and one that waits for a page keeps none behind it waiting (R199, R338). -/
def State.mvbStep (s : State) : List StackCmd → State
  | [] => s
  | x :: l =>
    match x.out with
    | some items => s.mvbLand x items
    | none =>
      let (s, y) := s.mvbRun x
      let s := s.setStack y
      if y.out.isSome then s else s.mvbStep l
/-- `MVB_STACK_EXECUTE`: accepted `MVB`s in the order of their arrival (R199, R338). -/
def execMvbStackExecute (s : State) : Out := .next (s.mvbStep s.stack)

end Sys2Proof.Machine
end

