-- ==== Sys2Proof/Machine/Sched.lean ====
section
/-! DEFINITION. Queues, the taking of launches, their sources, and the start of tasks (14_scheduling.md R274 to R291,
R404; 16_experts.md R321). -/

namespace Sys2Proof.Machine

/-! The launch record (R274, R280). -/

/-- The fields of a launch record. -/
def LaunchRec.ofBytes (bs : List Byte) : LaunchRec :=
  let u := recNat bs
  let sh := u 32 4
  let fl := u 44 4
  { entry := u 0 8, steep := u 8 8, frame := u 16 8, fstride := u 24 4, est := u 28 4
    rows := sh % 8 + 1, cols := fld sh 8 5 + 1
    share := 32768 * (if u 36 1 = 0 then 6 else u 36 1), quads := u 37 1, pri := u 38 1, cls := u 39 1, dom := u 40 1
    budget := u 42 2, rst := fl % 2 = 1, src := fld fl 1 2, nspec := fld fl 4 3, after := fld fl 9 1 = 1
    deadline := u 48 8, chains := u 56 4, count := u 60 4, pjoin := u 64 8, cstamp := u 72 8, vmap := u 80 8
    work := u 88 8, ispec := u 96 8 }

/-- An address field: tag 0x0 and aligned. -/
def addrOk (a align : Nat) : Bool := a / 2 ^ 57 = 0 && a % align = 0

/-- The first failing check of R280 among codes 1 to 3, or 0. -/
def recCode (bs : List Byte) : Nat :=
  let u := recNat bs
  let r := LaunchRec.ofBytes bs
  if r.est / 2 ^ 24 ≠ 0 ∨ fld (u 32 4) 3 5 ≠ 0 ∨ u 32 4 / 2 ^ 13 ≠ 0 ∨ r.pri > 7 ∨ r.cls > 15 ∨ r.dom > 7 ∨ u 41 1 ≠ 0 ∨
      fld (u 44 4) 3 1 ≠ 0 ∨ fld (u 44 4) 7 2 ≠ 0 ∨ u 44 4 / 2 ^ 10 ≠ 0 ∨ u 104 24 ≠ 0 ∨ r.src = 3 ∨ r.nspec > 4 then 1
  else if !(addrOk r.entry 4 && addrOk r.steep 4 && addrOk r.frame 1 && addrOk r.pjoin 16 && addrOk r.cstamp 8 &&
      addrOk r.vmap 64 && addrOk r.work (if r.src = 2 then 64 else 1) && addrOk r.ispec 16) ∨ (r.src ≠ 0 ∧ r.frame ≠ 0) ∨
      (r.src = 0 ∧ r.work ≠ 0) ∨ (r.nspec = 0 ∧ r.ispec ≠ 0) then 2
  else if r.budget = 0 ∨ r.budget > 1000 ∨ r.dom > 4 ∨ (r.src = 0 ∧ r.chains = 0) ∨ (r.src = 2 ∧ r.count = 0) ∨
      (r.src ≠ 2 ∧ r.count ≠ 0) ∨ u 36 1 > 31 ∨ r.quads > 128 ∨ r.fstride % 8 ≠ 0 then 3
  else 0

/-! Placement (R288). -/

/-- The cores of a rectangle by its north-west core. -/
def rectCores (origin rows cols : Nat) : List Nat :=
  (List.range rows).flatMap fun r => (List.range cols).map fun k => origin + 32 * r + k

/-- A core runs no task, or is one of those that are about to be free. -/
def State.idle (s : State) (gone : List Nat) (n : Nat) : Bool := (s.coreAt n).role = .idle || gone.contains n
/-- A slice is reserved by a running task: some core of its cluster that runs one holds its quadrant. -/
def State.sliceBusy (s : State) (sl : Nat) (gone : List Nat := []) : Bool :=
  (List.range 8).any fun i => !s.idle gone (8 * (sl / 4) + i) && (s.coreAt (8 * (sl / 4) + i)).held.getLsbD (sl % 4)
/-- A slice is kept for the successor of a segment (R290). -/
def State.sliceKept (s : State) (sl : Nat) : Bool := s.succs.any fun k => k.slices.contains sl

/-- Quadrants that a chain must hold. -/
def LaunchRec.need (r : LaunchRec) (touched : Nat) : Nat := max r.quads touched

/-- The slices that a rectangle reserves, when it fits: with `ever`, as if every slice were idle and no share held; the cores
`gone` are about to be free. -/
def State.fit (s : State) (l : Launch) (origin : Nat) (ever : Bool) (gone : List Nat := []) : Option (List Nat) :=
  let r := l.fields
  let ids := rectCores origin r.rows r.cols
  let p := s.part l.part
  let free (sl : Nat) : Bool :=
    p.slices.getLsbD sl && !s.out.contains sl && (ever || !(s.sliceBusy sl gone || s.sliceKept sl))
  let touched := (ids.map sliceOf).eraseDups
  let cls := (ids.map clusterOf).eraseDups
  if !(touched.all free) then none
  else if !ever && !ids.all (s.idle gone) then none
  else
    let keeps (n : Nat) : Bool := !ever && l.cores.contains n
    let room := cls.all fun cl =>
      let fresh := (ids.filter fun n => clusterOf n = cl && !keeps n).length * r.share
      let used := if ever then 0 else ((s.sharesOf cl).map Prod.snd).sum
      fresh + used ≤ poolBytes
    let more := cls.flatMap fun cl => ((List.range 4).map (4 * cl + ·)).filter fun sl => free sl && !touched.contains sl
    let extra := r.need touched.length - touched.length
    if !room || more.length < extra then none else some (touched ++ more.take extra)

/-- The north-west cores of a die, row by row, where a shape stays on the die. -/
def origins0 (die rows cols : Nat) : List Nat :=
  (List.range (9 - rows)).flatMap fun r => (List.range (33 - cols)).map fun k => 256 * die + 32 * r + k
/-- The dies of a partition that have not failed. -/
def State.diesOf (s : State) (p : Nat) : List Nat :=
  (List.range 16).filter fun d => s.dieOfPart p d && !s.failed.getLsbD d
/-- The dies where a launch's chain could ever be placed. -/
def State.everDies (s : State) (l : Launch) : List Nat :=
  (s.diesOf l.part).filter fun d => (origins0 d l.fields.rows l.fields.cols).any fun o => (s.fit l o true).isSome

/-- What a segment's cores last ran, for the entry granule of a task's code (R288). -/
def Launch.granKey (l : Launch) (code : Nat) : Nat := 1 + l.ctx * 2 ^ 42 + code / 32768
/-- Touched segments of a rectangle whose cores last ran the entry granule. -/
def State.warm (s : State) (l : Launch) (code origin : Nat) : Nat :=
  ((rectCores origin l.fields.rows l.fields.cols).map clusterOf).eraseDups.countP fun cl => (s.cluster cl).gran = l.granKey code

/-- The rectangle that the scheduler prefers among dies for a task with that code: the most such segments, then the lowest
die, row and column. With a segment named, only rectangles that touch it are looked at, its cores about to be free. -/
def State.choose (s : State) (l : Launch) (code : Nat) (dies : List Nat) (seg : Option Nat := none) (gone : List Nat := []) :
    Option (Nat × List Nat) :=
  let on (o : Nat) : Bool := seg.all fun k => (rectCores o l.fields.rows l.fields.cols).any fun n => clusterOf n = k
  let all := dies.flatMap fun d => ((origins0 d l.fields.rows l.fields.cols).filter on).filterMap fun o =>
    (s.fit l o false gone).map fun sl => (o, sl, s.warm l code o)
  (all.foldl (fun (m : Option (Nat × List Nat × Nat)) e => match m with
    | none => some e
    | some b => if b.2.2 < e.2.2 then some e else some b) none).map fun e => (e.1, e.2.1)

/-! Queues (R277, R278, R398). -/

/-- Changes a queue. -/
def State.modQueue (s : State) (q : Nat) (f : Queue → Queue) : State :=
  match s.queues.find? q with
  | none => s
  | some k => { s with queues := s.queues.put q (f k) }
/-- A queue holds records that have not been taken. -/
def Queue.active (k : Queue) : Bool := if k.dev then k.recs ≠ [] else !k.err && k.qrd < k.qwr
/-- A queue is not empty: also one in its error state keeps its records (R278, R350). -/
def Queue.holds (k : Queue) : Bool := if k.dev then k.recs ≠ [] else k.qrd < k.qwr
/-- Queues of a partition that hold a hardware slot. -/
def State.mappedOf (s : State) (p : Nat) : Nat := (s.queues.filter fun e => e.2.part = p && e.2.mapped).length
/-- A queue that has become active joins the order; one that has stopped gives up its slot (R278). -/
def State.touchQueue (s : State) (q : Nat) : State :=
  match s.queues.find? q with
  | none => s
  | some k =>
    if k.active then
      if k.mapped ∨ (s.part k.part).qorder.contains q then s
      else s.modPart k.part fun p => { p with qorder := p.qorder ++ [q] }
    else
      (s.modQueue q fun k => { k with mapped := false }).modPart k.part fun p => { p with qorder := p.qorder.filter (· ≠ q) }

/-- `QUEUE_MAP`: a free slot of the share goes to the first queue of the order (R278). -/
def execQueueMap (q : Nat) (s : State) : Out :=
  match s.queues.find? q with
  | none => .next s
  | some k =>
    let p := s.part k.part
    if p.qorder.head? ≠ some q ∨ s.mappedOf k.part ≥ p.qs then .next s
    else .next ((s.modQueue q fun k => { k with mapped := true, since := s.now }).modPart k.part fun p =>
      { p with qorder := p.qorder.drop 1 })
/-- A quantum in nanoseconds. -/
def quantum : Nat := 20000
/-- `QUEUE_QUANTUM_EXPIRY` (R278). -/
def execQueueQuantumExpiry (q : Nat) (s : State) : Out :=
  match s.queues.find? q with
  | none => .next s
  | some k =>
    if !k.mapped ∨ s.now < k.since + quantum then .next s
    else
      match (s.part k.part).qorder with
      | [] => .next (s.modQueue q fun k => { k with since := s.now })
      | w :: ws =>
        let s := s.modQueue q fun k => { k with mapped := false }
        let s := s.modQueue w fun k => { k with mapped := true, since := s.now }
        .next (s.modPart k.part fun p => { p with qorder := ws ++ [q] })

/-- A queue enters its error state, once, with its record (R340). -/
def State.queueError (s : State) (q : Nat) : State :=
  match s.queues.find? q with
  | none => s
  | some k =>
    if k.err then s
    else ((s.modQueue q fun k => { k with err := true, copy := [] }).touchQueue q).note
      { cause := 0x17, ctx := k.ctx, addr := k.qbase, info0 := q }

/-! Sources (R275). -/

/-- A task that the scheduler expands (R282). -/
def Launch.expand (l : Launch) (i : Nat) (frame : Word) : TaskRec :=
  { code := l.fields.entry, frame := frame, join := 0, est := l.fields.est, tpri := 0, own := false, rst := l.fields.rst
    index := some i, rcd := none, order := 0, since := 0, hits := 0, guard := false }
/-- Records that the task queue still takes (R282). -/
def Launch.room (l : Launch) : Nat := 65536 - (l.ready.length + l.run.length)
/-- The tasks of an inline or ragged source become ready in index order, as the task queue takes them. -/
def Launch.supply (l : Launch) (now : Nat) : Launch :=
  if l.fields.src = 1 ∨ l.srcEnd then l
  else
    let n := min (l.total - l.next) l.room
    let l := (List.range n).foldl (fun l j =>
      let i := l.next + j
      let t := if l.fields.src = 0 then l.expand i (BitVec.ofNat 64 (l.fields.frame + i * l.fields.fstride))
        else { l.expand i (BitVec.ofNat 64 (l.fields.work + 64 * i)) with rcd := some (l.fields.work + 64 * i) }
      l.enter t now) l |> fun m => { m with next := l.next + n }
    { l with srcEnd := l.next = l.total }

/-- A source that closes early is closed now, or a ring is when the page of its header has come (R404). -/
def State.closeNow (s : State) (lid : Nat) : State := (s.closeSource lid).settleLaunch lid
/-- `TASK_RING_ENTRY_TAKE`: the scheduler reads a ring's header and takes its next entry (R275, R340, R404). -/
def execTaskRingEntryTake (lid : Nat) (s : State) : Out :=
  match s.launches.find? lid with
  | none => .next s
  | some l =>
    if l.fields.src ≠ 1 ∨ l.srcEnd then .next s
    else if l.closing then .next (s.closeNow lid)
    else
      let error (s : State) : Out := .next ((s.ringError lid).settleLaunch lid)
      match s.ringHead l lid with
      | .wait s => .next s
      | .fault s _ _ => error s
      | .ok s none => error s
      | .ok s (some h) =>
        let s := s.modLaunch lid fun l => { l with ringWr := h.wr }
        if l.next = h.wr then
          .next (if h.closed then (s.modLaunch lid fun l => { l with srcEnd := true }).settleLaunch lid else s)
        else if l.room = 0 then .next s
        else
          match s.ringRead l lid (l.fields.work + 64 + 8 * (l.next % 2 ^ h.lg)) 8 with
          | .wait s => .next s
          | .fault s _ _ => error s
          | .ok s none => error s
          | .ok s (some e) =>
            .next ((s.modLaunch lid fun l =>
              { (l.enter (l.expand l.next (BitVec.ofNat 64 (leNat e))) s.now) with next := l.next + 1 }).fileTasks lid)

/-- The tasks of a launch that wait, with one changed. -/
def Launch.modReady (l : Launch) (order : Nat) (f : TaskRec → TaskRec) : Launch :=
  { l with ready := l.ready.map fun t => if t.order = order then f t else t }
/-- A tile record is refused (R321). -/
def State.tileBad (s : State) (l : Launch) (lid : Nat) (t : TaskRec) (va : Nat) : State :=
  let s := s.modLaunch lid fun l =>
    { l with ready := l.ready.filter (·.order ≠ t.order), absent := l.absent + 1
             todo := l.todo ++ (match t.index with
               | some u => if l.fields.vmap ≠ 0 then [.codes u 1 false] else []
               | none => []) ++ [.out] }
  (s.note { cause := 0x18, ctx := l.ctx, launch := lid, addr := va }).settleLaunch lid

/-- Reads the first of these ragged tasks' records whose page is not waited for (R321, R404): a read that waits holds back
its own task alone. -/
def State.readTileRecord (s : State) (l : Launch) (lid : Nat) : List TaskRec → State
  | [] => s
  | t :: ts =>
    let va := t.rcd.getD 0
    match s.translateRange { l.who lid with w := .tile lid t.order } va 40 .read with
    | .wait s => s.readTileRecord l lid ts
    | .fault s _ _ => s.tileBad l lid t va
    | .ok s ps =>
      if s.piecesPoison ps then s.tileBad l lid t va
      else
        let r := s.readPieces ps
        let rows := recNat r 8 2
        if rows > 32 ∨ recNat r 10 2 ≥ 4 ∨ !(addrOk (recNat r 16 8) 1 && addrOk (recNat r 24 8) 1 && addrOk (recNat r 32 8) 1)
        then s.tileBad l lid t va
        else if rows = 0 then
          (s.modLaunch lid fun l => { l with ready := l.ready.filter (·.order ≠ t.order), todo := l.todo ++ [.out] }).settleLaunch
            lid
        else s.modLaunch lid fun l => l.modReady t.order fun t =>
          { t with rcd := none, est := (l.fields.est * rows + 31) / 32 }
/-- The records that the task queue has room for again become tasks (R275, R282). -/
def State.resupply (s : State) (lid : Nat) : State := (s.modLaunch lid fun l => if l.closing then l else l.supply s.now).fileTasks lid
/-- `TILE_RECORD_READ`: the record of a ragged task that has not been read (R321, R404); one that starts no task makes room for a
further one. -/
def execTileRecordRead (lid : Nat) (s : State) : Out :=
  match s.launches.find? lid with
  | none => .next s
  | some l => .next ((s.readTileRecord l lid (l.ready.filter fun t => t.rcd.isSome)).resupply lid)

/-! Taking (R280). -/

/-- A launch id that no live launch and no queued record has (R280). -/
def State.freshLid (s : State) : Nat → Nat → Nat
  | 0, n => n
  | k + 1, n =>
    let n := n % 2 ^ 32
    if n = 0 ∨ (s.launches.find? n).isSome ∨ s.queues.any (fun e => e.2.recs.any fun r => r.lid = n) then s.freshLid k (n + 1)
    else n
/-- Gives a launch id. -/
def State.newLid (s : State) : State × Nat :=
  let n := s.freshLid (2 + s.launches.length + (s.queues.map fun e => e.2.recs.length).sum) s.nextLid
  ({ s with nextLid := n + 1 }, n)

/-- The image that holds a launch's entry, of those announced the newest (R33; log 17). -/
def State.imageOf (s : State) (l : Launch) : Option Image :=
  (s.images.filter fun i => i.ctx = l.ctx && i.base ≤ l.fields.entry && l.fields.entry < i.base + i.size).getLast?
/-- Where the block ends. -/
def Image.stop (i : Image) : Nat := i.block.foldl (fun m b => max m (b.1 + b.2.length)) 0

/-- Creates the instances of a launch one after another; nothing when one is refused (R258). -/
def State.makeNets (s : State) (part ctx lid : Nat) : Nat → List ISpec → Option State
  | _, [] => some s
  | i, sp :: l =>
    if s.specBad part sp then none
    else (s.addNet (.launch lid (Fin.ofNat 4 i)) (sp.net part ctx)).makeNets part ctx lid (i + 1) l

/-- A launch as it is taken, before its checks. -/
def Launch.taken (r : LaunchRec) (k : Queue) (q lid : Nat) (parent : Option Nat) (pri die : Nat) : Launch :=
  { fields := r, part := k.part, ctx := k.ctx, queue := q, parent := parent, pri := pri, die := die
    outst := 0, absent := 0, ran := 0, exited := false, code := 0, past := false, killed := false, reject := 0
    next := 0, ringWr := 0, srcEnd := false, ready := [], pend := [], order := 0, qva := queueVa lid, run := [], todo := [], ending := false
    cores := [], slicel := [], stash := [], qstash := [], adopt := [], bars := [] }

/-- The tick at which a deadline passes (R297): none for the value that lies beyond any time. -/
def LaunchRec.tick (r : LaunchRec) : Option Nat :=
  if r.deadline = 2 ^ 64 - 1 then none else some ((r.deadline + 63) / 64 * 64)
/-- The deadline has passed. -/
def State.late (s : State) (r : LaunchRec) : Bool := match r.tick with | some t => t ≤ s.now | none => false

/-- The record has left its queue. -/
def Queue.advance (k : Queue) (lid : Nat) : Queue :=
  if k.dev then { k with recs := k.recs.drop 1, last := some lid, copy := [] }
  else { k with qrd := k.qrd + 1, last := some lid, copy := [] }

/-- A rejected launch ends at once (R281). -/
def State.rejectLaunch (s : State) (l : Launch) (lid code addr : Nat) : State :=
  let l := { l with reject := code, srcEnd := true }
  let s := { s with launches := s.launches.put lid l }
  let s := if l.fields.cstamp = 0 then
      s.note { cause := 0x15, ctx := l.ctx, launch := lid, addr := addr, info0 := code, info1 := l.queue }
    else s
  s.settleLaunch lid

/-- A launch that has passed: its tasks become ready, or with its deadline passed are counted absent (R280, R297). -/
def State.acceptLaunch (s : State) (l : Launch) (lid : Nat) : State :=
  let late := s.late l.fields
  let l := if late then { l with past := true } else l.supply s.now
  let s := (({ s with launches := s.launches.put lid l }).makeQueue l lid).fileTasks lid
  let s := if late then s.closeSource lid else s
  (s.modLaunch lid fun m => s.tables.foldl (fun m e =>
    if e.1 / 64 = l.part then { m with adopt := (List.range 5).foldl (fun a lv => a.put (64 * lv + e.1 % 64) e.2.cur) m.adopt }
    else m) m).settleLaunch lid

/-- Judges a record and makes the launch (R280). Instance specifications that cannot be read make it code 6: R404 has no row for that read
(log 34). -/
def State.takeRecord (s : State) (q : Nat) (k : Queue) (bs : List Byte) (addr : Nat) (lid? : Option Nat)
    (parent : Option Nat) : State :=
  let r := LaunchRec.ofBytes bs
  let p := s.part k.part
  let die := ((s.diesOf k.part).head?).getD 0
  let go (s : State) (code : Option Nat) (specs : List ISpec) : State :=
    let (s, lid) := match lid? with | some n => (s, n) | none => s.newLid
    let l := Launch.taken r k q lid parent (min r.pri p.pcap) die
    let l := { l with image := s.imageOf l }
    let s := (s.modQueue q fun k => k.advance lid).touchQueue q
    match code with
    | some c => s.rejectLaunch l lid c addr
    | none =>
      match s.makeNets k.part k.ctx lid 0 specs with
      | none => s.rejectLaunch l lid 6 addr
      | some s => s.acceptLaunch l lid
  let code := recCode bs
  let l := Launch.taken r k q 0 parent r.pri die
  if code ≠ 0 then go s (some code) []
  else if (s.everDies l).isEmpty || (match s.imageOf l with | some i => decide (i.stop > r.share) | none => false) then go s (some 4) []
  else if r.cls ≠ 0 ∧ (p.cls.find? r.cls).isNone then go s (some 5) []
  else if r.nspec = 0 then go s none []
  else
    let who : Who := { w := .queue q, ctx := k.ctx, core := 0xFFFF, seq := 0, eng := false }
    match s.readVa who r.ispec (16 * r.nspec) with
    | .wait s => s.modQueue q fun k => { k with copy := bs }
    | .fault s _ _ => go s (some 6) []
    | .ok s a => go s none ((List.range r.nspec).map fun i => { w0 := recNat a (16 * i) 8, w1 := recNat a (16 * i + 8) 8 })

/-- `LAUNCH_TAKE`: the scheduler takes the next record of a mapped queue, unless `after` holds it (R274, R278, R280,
R404). -/
def execLaunchTake (q : Nat) (s : State) : Out :=
  match s.queues.find? q with
  | none => .next s
  | some k =>
    if !k.mapped ∨ !k.active ∨ !(s.context k.ctx).live then .next s
    else
      let held (bs : List Byte) : Bool := (LaunchRec.ofBytes bs).after &&
        (match k.last with | some n => (s.launches.find? n).isSome | none => false)
      if k.dev then
        match k.recs with
        | [] => .next s
        | e :: _ => .next (if held e.bytes then s else s.takeRecord q k e.bytes 0 (some e.lid) e.parent)
      else
        let addr := k.qbase + 128 * (k.qrd % (k.qsize / 128))
        if k.copy ≠ [] then .next (s.takeRecord q k k.copy addr none none)
        else
          let who : Who := { w := .queue q, ctx := k.ctx, core := 0xFFFF, seq := 0, eng := false }
          match s.translateRange who addr 128 .read with
          | .wait s => .next s
          | .fault s _ _ => .next (s.queueError q)
          | .ok s ps =>
            if s.piecesPoison ps then .next (s.queueError q)
            else
              let bs := s.readPieces ps
              .next (if held bs then s else s.takeRecord q k bs addr none none)

/-! The start of a task (R179, R287 to R289). -/

/-- A task's base priority (R282). -/
def Launch.basePri (l : Launch) (t : TaskRec) : Nat := if t.own then min t.tpri l.pri else l.pri
/-- A task's slack (R289). -/
def slack (now deadline est : Nat) : Int :=
  (deadline / 64 * 64 : Nat) - (now / 64 * 64 : Nat) - (((est * 20 + 16) / 17 * 64 : Nat) : Int)

/-- A ready task with its launch. -/
structure Candidate where
  lid   : Nat
  pri   : Nat
  slack : Int
  task  : TaskRec
  deriving DecidableEq, Repr
/-- Ranks before (R289). -/
def Candidate.before (a b : Candidate) : Bool :=
  if a.pri ≠ b.pri then b.pri < a.pri
  else if a.slack ≠ b.slack then a.slack < b.slack
  else if a.task.since ≠ b.task.since then a.task.since < b.task.since
  else if a.lid ≠ b.lid then a.lid < b.lid
  else a.task.order ≤ b.task.order
/-- Puts a candidate in its rank. -/
def rankIn (c : Candidate) : List Candidate → List Candidate
  | [] => [c]
  | d :: l => if d.before c then d :: rankIn c l else c :: d :: l

/-- A launch may start tasks: none after its deadline, in a context that is being or has been taken off the cores, or
beyond the number of chains it runs at once (R274, R297, R367). -/
def State.mayStart (s : State) (l : Launch) : Bool :=
  let c := s.context l.ctx
  !l.past && !l.killed && !l.ending && c.pre.isNone && c.saved = [] &&
    !(l.fields.src != 0 && l.fields.chains != 0 && l.run.length ≥ l.fields.chains)
/-- The ready tasks in rank order. -/
def State.ranked (s : State) : List Candidate :=
  (s.launches.flatMap fun e =>
    if s.mayStart e.2 then (e.2.ready.filter fun t => t.rcd.isNone).map fun t =>
      ({ lid := e.1, pri := e.2.basePri t, slack := slack s.now e.2.fields.deadline t.est, task := t } : Candidate)
    else []).foldl (fun l c => rankIn c l) []

/-- Marks the ready tasks that have waited 100 µs (R289). -/
def State.guardAll (s : State) : State :=
  { s with launches := s.launches.map fun e =>
      (e.1, { e.2 with ready := e.2.ready.map fun t => { t with guard := t.guard || t.since + 100000 ≤ s.now } }) }
/-- `STARVATION_GUARD` (R289): the marks that keep lower ranks from starting. -/
def execStarvationGuard (s : State) : Out := .next s.guardAll

/-- The first task in rank order that fits, and its place: a task that has waited too long holds the dies where it could ever
be placed (R289). With a segment named, it is the successor of that segment. -/
def State.pick (s : State) (seg : Option Nat) (gone : List Nat) : List Nat → List Candidate → Option (Candidate × Nat × List Nat)
  | _, [] => none
  | shut, c :: l =>
    match s.launches.find? c.lid with
    | none => s.pick seg gone shut l
    | some k =>
      match s.choose k c.task.code ((s.diesOf k.part).filter fun d => !shut.contains d) seg gone with
      | some (o, sl) => some (c, o, sl)
      | none => s.pick seg gone (if c.task.guard then shut ++ s.everDies k else shut) l

/-- The ready task that a successor names, while its launch may start tasks and its slices are in service. -/
def State.taskOf (s : State) (k : Successor) : Option (Launch × TaskRec) :=
  (s.launches.find? k.lid).bind fun l =>
    if s.mayStart l && k.slices.all fun sl => (s.part l.part).slices.getLsbD sl && !s.out.contains sl then
      (l.ready.find? fun t => t.order = k.order && t.rcd.isNone).map fun t => (l, t)
    else none
/-- Successors that can start no more are none (R290). -/
def State.pruneSuccs (s : State) : State := { s with succs := s.succs.filter fun k => (s.taskOf k).isSome }
/-- The dies that tasks of higher rank which have waited too long hold against a task (R289). -/
def State.shutFor (s : State) (k : Successor) : List Nat :=
  ((s.ranked.takeWhile fun c => !(c.lid = k.lid && c.task.order = k.order)).filter fun c => c.task.guard).flatMap fun c =>
    match s.launches.find? c.lid with | some l => s.everDies l | none => []
/-- A successor can start: its cores and slices are free, its rectangle fits still, and no task of higher rank holds its die
(R21, R289, R290). -/
def State.succStarts (s : State) (k : Successor) (l : Launch) : Bool :=
  (rectCores k.origin l.fields.rows l.fields.cols).all (s.idle []) && (k.slices.all fun sl => !s.sliceBusy sl) &&
    ({ s with succs := s.succs.filter (· ≠ k) }.fit l k.origin false).isSome && !(s.shutFor k).contains (dieOf k.origin)
/-- The task that starts next, with its launch and its place: a successor that can (R290), else the first in rank order that fits. -/
def State.nextStart (s : State) : Option (Nat × TaskRec × Nat × List Nat) :=
  let ready := s.succs.findSome? fun k => (s.taskOf k).bind fun q =>
    if s.succStarts k q.1 then some (k.lid, q.2, k.origin, k.slices) else none
  match ready with
  | some r => some r
  | none => (s.pick none [] [] s.ranked).map fun q => (q.1.lid, q.1.task, q.2.1, q.2.2)

/-- A quadrant zero-filled: the spare map and the failed mark are kept (R339, R346, R384). -/
def Quad.clear (q : Quad) : Quad :=
  { Quad.reset with failed := q.failed, retired := q.retired, struck := q.struck, faults := q.faults }
/-- A quadrant at the start of a task (R179). -/
def Quad.begin (q : Quad) : Quad := { q with valid := false, flags0 := 0, flags1 := 0, err0 := false, err1 := false }

/-- The share as a launch finds it on a core: kept from its last task there, or new with the `.local` block (R287). -/
def State.shareFor (s : State) (l : Launch) (c : Core) (lid : Nat) : Stash :=
  if c.launch.toNat = lid ∧ c.shareSize > 0 then
    { core := c.id, share := c.share, size := c.shareSize, full := c.full, poison := c.poison, sqn := c.sqn }
  else
    match l.stash.find? fun k => k.core = c.id with
    | some k => k
    | none =>
      let blk := match l.image with | some i => i.block | none => []
      { core := c.id, share := blk.foldl (fun m b => m.write b.1 b.2) [], size := l.fields.share, full := [], poison := []
        sqn := 0 }
/-- A share of another launch on the core is kept aside. -/
def State.stashShare (s : State) (c : Core) (lid : Nat) : State :=
  if c.shareSize = 0 ∨ c.launch.toNat = lid then s
  else s.modLaunch c.launch.toNat fun l => { l with stash := l.stash ++
    [({ core := c.id, share := c.share, size := c.shareSize, full := c.full, poison := c.poison, sqn := c.sqn } : Stash)] }

/-- A slice passes to a launch at the start of a task: what another live launch left in it is kept aside for that launch, and
the launch finds what it left, or a zero-filled slice (R179, R339; log 33). -/
def State.takeQuad (s : State) (sl lid : Nat) : State :=
  let q := (s.cluster (sl / 4)).quads[sl % 4]?.getD Quad.reset
  let mine := (s.launches.find? lid).bind fun l => l.qstash.find? sl
  let new := if q.owner = lid then q else match mine with
    | some k => { k with failed := q.failed, retired := q.retired, struck := q.struck, faults := q.faults }
    | none => q.clear
  let s := if q.owner = lid then s else
    (s.modLaunch q.owner fun l => { l with qstash := l.qstash.put sl q }).modLaunch lid fun l => { l with qstash := l.qstash.del sl }
  s.modCluster (sl / 4) fun k =>
    { k with quads := k.quads.mapIdx fun i q => if i = sl % 4 then { new.begin with owner := lid } else q }

/-- A core's counts by context, those of the context that it last ran among them (R366). -/
def Core.tallied (c : Core) : Assoc (Word × Word × Word) := c.tally.put c.ctx (c.retired, c.sent, c.received)
/-- A core at the start of a task (R287, R300). -/
def Core.begin (c : Core) (l : Launch) (lid : Nat) (t : TaskRec) (origin : Nat) (held : BitVec 4) (k : Stash) : Core :=
  let i := rowOf c.id - rowOf origin
  let j := colOf c.id - colOf origin
  { Core.reset c.id with
    x := (Vector.replicate 64 (0 : Word)).set 1 t.frame
    pc := BitVec.ofNat 64 t.code, dom := BitVec.ofNat 3 l.fields.dom
    priEff := BitVec.ofNat 3 (l.basePri t), priLaunch := BitVec.ofNat 3 l.pri
    chain := { leader := origin, rows := l.fields.rows, cols := l.fields.cols, r := i, c := j
               number := BitVec.ofNat 12 (t.index.getD 0) }
    rect := { origin := origin, rows := l.fields.rows, cols := l.fields.cols, i := i, j := j }
    launch := BitVec.ofNat 32 lid, task := t.va l
    sqn := k.sqn, mRd := k.sqn - 1, mDone := k.sqn - 1, map := ownMap c.id, held := held, weight := c.weight
    share := k.share, shareSize := k.size, full := k.full, poison := k.poison
    sealed := c.sealed, tlb := c.tlb, role := .running, ctx := l.ctx
    retired := (c.tallied.get (0, 0, 0) l.ctx).1, sent := (c.tallied.get (0, 0, 0) l.ctx).2.1
    received := (c.tallied.get (0, 0, 0) l.ctx).2.2, tally := c.tallied, events := c.events }

/-- A task starts on a rectangle with the slices that it reserves. -/
def State.beginTask (s : State) (lid : Nat) (t : TaskRec) (origin : Nat) (slices : List Nat) : State :=
  match s.launches.find? lid with
  | none => s
  | some l =>
    let r := l.fields
    let ids := rectCores origin r.rows r.cols
    let cls := (ids.map clusterOf).eraseDups
    let heldOf (cl : Nat) : BitVec 4 := slices.foldl (fun m sl => if sl / 4 = cl then m ||| (1#4 <<< (sl % 4)) else m) 0
    let s := cls.foldl (fun s cl => s.modCluster cl fun k => { k with mode := unfuse k.mode (heldOf cl), gran := l.granKey t.code }) s
    let s := slices.foldl (fun s sl => s.takeQuad sl lid) s
    let s := ids.foldl (fun s n =>
      let c := s.coreAt n
      let k := s.shareFor l c lid
      (s.stashShare c lid).modCore n fun c => c.begin l lid t origin (heldOf (clusterOf n)) k) s
    let s := s.modLaunch lid fun l =>
      let l := { l with
        ready := l.ready.filter (·.order ≠ t.order), ran := l.ran + (if t.hits = 0 then 1 else 0)
        run := l.run ++ [({ task := t, origin := origin, rows := r.rows, cols := r.cols, left := ids } : RunTask)]
        cores := ids.foldl setAdd l.cores, slicel := slices.foldl setAdd l.slicel
        stash := l.stash.filter fun k => !ids.contains k.core }
      l.supply s.now
    let s := s.modCtx l.ctx fun c => { c with ran := slices.foldl setAdd c.ran }
    let s := { s with succs := s.succs.filter fun k => k.lid ≠ lid ∨ k.order ≠ t.order }
    cls.foldl State.syncWindow (s.fileTasks lid)

/-- `TASK_START`: the scheduler starts the task whose turn it is, on the rectangle that it prefers, when that rectangle's
north-west core is the one named (R288 to R290). -/
def execTaskStart (core : Nat) (s : State) : Out :=
  let s := s.guardAll.pruneSuccs
  match s.nextStart with
  | none => .next s
  | some (lid, t, o, sl) => .next (if o = core then s.beginTask lid t o sl else s)

/-- Every core of a segment that runs a task has begun the wait of R88, and some core does. -/
def State.segmentEnds (s : State) (cluster : Nat) : Bool :=
  let cs := ((List.range 8).map fun i => s.coreAt (8 * cluster + i)).filter fun c => c.role != .idle
  cs != [] && cs.all Core.finishing
/-- `SEGMENT_PRELOAD`: the scheduler picks the successor of a segment whose cores have all begun the wait of R88, and the loader
scans the entry granule, if it has no scan record; the caches that it fills hold nothing else (R290). -/
def execSegmentPreload (cluster : Nat) (s : State) : Out :=
  let s := s.guardAll.pruneSuccs
  if !s.segmentEnds cluster ∨ s.succs.any (fun k => k.seg = cluster) then .next s
  else
    let gone := (s.allCores.filter Core.finishing).map Core.id
    match s.pick (some cluster) gone [] s.ranked with
    | none => .next s
    | some (c, o, sl) =>
      let s := { s with succs := s.succs ++ [({ seg := cluster, lid := c.lid, order := c.task.order, origin := o, slices := sl } : Successor)] }
      .next (match s.walk (match s.launches.find? c.lid with | some l => l.ctx | none => 0) c.task.code .fetch with
        | .ok x => (s.scanned ((s.twinned x false).hpa / 32768)).1
        | _ => s)

/-- `JOIN_DECREMENT`: a decrement that a launch still has to make is made, or waits; and so is an end step before it that waits
(R283, R284, R404). -/
def execJoinDecrement (lid : Nat) (va : Word) (s : State) : Out :=
  match s.launches.find? lid with
  | none => .next s
  | some l => .next (match l.todo with
    | .join w :: _ => if w = va.toNat then s.settleLaunch lid else s
    | [] => s
    | _ => s.settleLaunch lid)

end Sys2Proof.Machine
end

