-- ==== Sys2Proof/Machine/LaunchIsa.lean ====
section
/-! DEFINITION. `LAUNCH`, `TASK` and `JOIN` (14_scheduling.md R282, R283, R285, R286). -/

namespace Sys2Proof.Machine

/-- A record of `n` bytes at an address of tag 0x0 or 0x8, aligned, wholly within its space (R286). -/
def State.recordSpace (s : State) (a : Word) (n align : Nat) : Option Space :=
  if a.toNat % align = 0 ∧ (tag a = 0 ∨ tag a = 8) then s.resolve a n else none

/-- A join block address: tag 0x0 and a multiple of 16 (R286). -/
def blockOk (a : Nat) : Bool := a / 2 ^ 57 = 0 && a % 16 = 0

/-- A refusal's result (R286). -/
def refused (code : Nat) : Word := BitVec.ofNat 64 (2 ^ 63 + code)

/-- The fields of a task record (R282). -/
def TaskRec.ofBytes (bs : List Byte) : TaskRec :=
  let u := recNat bs
  let w := u 24 8
  { code := u 0 8, frame := BitVec.ofNat 64 (u 8 8), join := u 16 8, est := fld w 8 24, tpri := fld w 2 3
    own := fld w 1 1 = 1, rst := w % 2 = 1, index := none, rcd := none, order := 0, since := 0, hits := 0, guard := false }

/-- A field of a task record breaks R282; the join block has checks of its own (R286). -/
def taskBreaks (bs : List Byte) : Bool :=
  let t := TaskRec.ofBytes bs
  !addrOk t.code 4 || fld (recNat bs 24 8) 5 3 != 0 || (!t.own && t.tpri != 0)

/-- The instruction retires with its result to come (R286), after its release at module scope (R285). -/
def State.answer (s : State) (d : XReg) (v : Word) : Out := .next (s.upd (·.lateX d v)).retire

/-- Reads the record of an instruction that creates work; poison is consumed (R382). -/
def State.takeBytes (s : State) (a : Word) (sp : Space) (n : Nat) (k : State → List Byte → Out) : Out :=
  (s.readSpace sp n).run fun s v =>
    match v with
    | none => .next (s.consume a.toNat)
    | some bs => k s bs

/-- A launch record is copied into a device queue (R286): the result. -/
def State.submit (s : State) (q : Nat) (bs : List Byte) (child : Bool) : State × Word :=
  match s.queues.find? q with
  | none => (s, refused 2)
  | some k =>
    if !k.dev ∨ k.part ≠ s.myPart then (s, refused 2)
    else if k.recs.length ≥ k.cap then (s, refused 1)
    else
      let me := s.core.launch.toNat
      let mine := child && (s.launches.find? me).isSome
      let (s, lid) := s.newLid
      let s := if mine then s.modLaunch me fun l => { l with outst := l.outst + 1 } else s
      let r : QRec := { bytes := bs, lid := lid, parent := if mine then some me else none }
      ((s.modQueue q fun k => { k with recs := k.recs ++ [r] }).touchQueue q, BitVec.ofNat 64 lid)

/-- `LAUNCH` (R285, R286). -/
def execLaunch (child : Bool) (d a b : XReg) (s : State) : Out :=
  issue { x := [a, b] } { x := [d] } s fun s =>
    let q := (s.core.rx b).toNat
    match s.recordSpace (s.core.rx a) 128 64 with
    | none => s.addrFault 0x45 (s.core.rx a).toNat
    | some sp =>
      if q ≥ 4096 then s.illegal 0x45
      else s.classX 0x45 fun s => s.takeBytes (s.core.rx a) sp 128 fun s bs =>
        let (s, v) := (s.release s.core.id 3).submit q bs child
        s.answer d v

/-- The join block of a record, when it names one, is translated as a load (R286): whether it lies on bank store, or has
none. -/
def State.blockPage (s : State) (va : Nat) (op : Nat) (k : State → Bool → Out) : Out :=
  if va = 0 then k s true
  else if !blockOk va then s.addrFault op va
  else (s.translateRange s.me va 16 .read).run fun s ps => k s (ps.all fun p => isBank p.hpa)

/-- The refusals that `TASK` and `JOIN` share, in the order of R286, after the release; else the launch that the core
runs. -/
def State.taskChecks (s : State) (bank : Bool) (t : TaskRec) (d : XReg) (k : State → Launch → Out) : Out :=
  if !bank then s.answer d (refused 5)
  else
    let lid := s.core.launch.toNat
    match s.launches.find? lid with
    | none => s.answer d (refused 1)
    | some l =>
      if l.past ∨ l.exited then
        (s.modLaunch lid fun l => { l with absent := l.absent + 1
                                           todo := l.todo ++ if t.join ≠ 0 then [.join t.join] else [] }).settleLaunch lid
          |>.answer d (refused 6)
      else k s l

/-- `TASK` (R285, R286). -/
def execTask (d a : XReg) (s : State) : Out :=
  issue { x := [a] } { x := [d] } s fun s =>
    match s.recordSpace (s.core.rx a) 32 32 with
    | none => s.addrFault 0x46 (s.core.rx a).toNat
    | some sp => s.classX 0x46 fun s => s.takeBytes (s.core.rx a) sp 32 fun s bs =>
      if taskBreaks bs then (s.release s.core.id 3).answer d (refused 3)
      else
        let t := TaskRec.ofBytes bs
        s.blockPage t.join 0x46 fun s bank => (s.release s.core.id 3).taskChecks bank t d fun s l =>
          if l.room = 0 then s.answer d (refused 1)
          else ((s.modLaunch s.core.launch.toNat fun l => l.enter t s.now).fileTasks s.core.launch.toNat).answer d 0

/-- Entries of a pending table (R286). -/
def pendingSize : Nat := 1024
/-- The lowest free entry. -/
def Launch.freeEntry (l : Launch) : Option Nat := (List.range pendingSize).find? fun e => (l.pend.find? e).isNone

/-- The word that an arm step leaves in a block (R283). -/
def armWord (entry : Nat) : Nat := 1 + 2 * entry

/-- The arm step at the bank unit (R283): refused, the continuation enqueued at once, or armed. -/
def State.arm (s : State) (l : Launch) (ps : List Piece) (block : Word) (t : TaskRec) (d : XReg) : Out :=
  match l.freeEntry with
  | none => s.answer d (refused 1)
  | some e =>
    let w := s.readPieces ps
    let lid := s.core.launch.toNat
    if s.piecesPoison ps then
      .next ((s.event (dieOf s.core.id) 2 s.myPart s.core.id (some block.toNat) none).consume block.toNat 5)
    else if recNat w 8 8 % 2 = 1 then s.answer d (refused 4)
    else if recNat w 0 8 = 0 then ((s.modLaunch lid fun l => l.enter t s.now).fileTasks lid).answer d 0
    else
      let s := s.writePieces s.myPart ps (leBytes 8 (recNat w 0 8) ++ leBytes 8 (armWord e))
      (s.modLaunch lid fun l => { l with pend := l.pend.put e { task := t, block := block.toNat }, outst := l.outst + 1 }).answer d
        (BitVec.ofNat 64 (recNat w 0 8))

/-- `JOIN` (R283, R285, R286). -/
def execJoin (d a b : XReg) (s : State) : Out :=
  issue { x := [a, b] } { x := [d] } s fun s =>
    let block := s.core.rx a
    match s.recordSpace (s.core.rx b) 32 32 with
    | none => s.addrFault 0x47 (s.core.rx b).toNat
    | some sp =>
      if !blockOk block.toNat then s.addrFault 0x47 block.toNat
      else s.classX 0x47 fun s => s.takeBytes (s.core.rx b) sp 32 fun s bs =>
        (s.translateRange s.me block.toNat 16 .read).run fun s ps =>
          if taskBreaks bs then (s.release s.core.id 3).answer d (refused 3)
          else
            let t := TaskRec.ofBytes bs
            s.blockPage t.join 0x47 fun s bank =>
              (s.release s.core.id 3).taskChecks (bank && ps.all fun p => isBank p.hpa) t d fun s l => s.arm l ps block t d

end Sys2Proof.Machine
end

