-- ==== Sys2Proof/Machine/Deadlines.lean ====
section
/-! DEFINITION. Deadlines, the steep diversion, the steep budget, and `VALID` (15_deadlines.md R297 to R305; 21_traps.md
R377). -/

namespace Sys2Proof.Machine

/-! When a deadline passes (R297, R298). -/

/-- A store has disarmed the block of the continuation in an entry: the block names that entry no more (R283, R298). -/
def State.disarmed (s : State) (l : Launch) (e : Nat × Pending) : Bool :=
  match s.walk l.ctx e.2.block .read with
  | .ok x => let w := s.physNat ((s.twinned x false).hpa + 8) 8; w % 2 = 0 || w / 2 % 2 ^ 15 != e.1
  | _ => false

/-- The deadline acts on a launch: barriers abort, waiting tasks are discarded (R298). -/
def State.deadline (s : State) (lid : Nat) : State :=
  let s := s.abortBars lid
  match s.launches.find? lid with
  | none => s
  | some l =>
    let gone := l.pend.filter fun e => s.disarmed l e
    let s := s.modLaunch lid fun l =>
      let l := l.ready.foldl (fun l t => l.discard t true) { l with past := true, ready := [] }
      gone.foldl (fun l e => { (l.discard e.2.task true) with pend := l.pend.del e.1 }) l
    (s.closeSource lid).settleLaunch lid

/-- `DEADLINE_PASS` (R297, R298). The diversions of its cores follow, each a step of its own. -/
def execDeadlinePass (lid : Nat) (s : State) : Out :=
  match s.launches.find? lid with
  | none => .next s
  | some l => .next (if l.past ∨ l.killed ∨ l.ending ∨ !s.late l.fields then s else s.deadline lid)

/-! The diversion (R299, R300). -/

/-- A loop counter as the diversion registers show it. -/
def LoopLevel.shown (q : LoopLevel) : Nat := if q.active then q.cnt.toNat else 0

/-- `%steep` (R300). -/
def steepWord (ls : Vector LoopLevel 3) (handler wait compute : Bool) : Word :=
  BitVec.ofNat 64 (2 ^ 32 * ls[2].shown + 2 ^ 13 * ls[2].active.toNat + 2 ^ 12 * ls[1].active.toNat +
    2 ^ 11 * ls[0].active.toNat + 2 ^ 10 * handler.toNat + 2 ^ 9 * wait.toNat + 2 ^ 8 * compute.toNat + 1)
/-- `%steep_lc` (R300). -/
def steepLcWord (ls : Vector LoopLevel 3) : Word := BitVec.ofNat 64 (2 ^ 32 * ls[1].shown + ls[0].shown)

/-- The open range at the diversion: the unit of the task's index, when it was empty (R303). -/
def State.openAt (s : State) (c : Core) : Option (Nat × Nat) :=
  match c.openUnits with
  | some (f, n) => some (f, n)
  | none => match s.launches.find? c.launch.toNat with
    | none => none
    | some l => match l.runOf c.id with
      | some r => r.task.index.map fun i => (i, 1)
      | none => none

/-- A core is diverted: what it has issued has landed, the instruction at slot k is abandoned (R299). -/
def Core.divert (c : Core) (d : Steep) (entry : Word) (units : Option (Nat × Nat)) : Core :=
  { c.settle with
    steep := d.word, steepPc := d.pc, steepLc := d.lc, steepOn := true, steepAt := d.ends, openUnits := units
    loops := Vector.replicate 3 LoopLevel.off, watch := Watch.off, phase := .exchange, frame := none, raised := none
    priEff := BitVec.ofNat 3 (min 7 (c.priLaunch.toNat + 1)), slot := d.slot, nopLeft := 0
    gap := if c.leads then 3 else 0, pc := if c.leads then entry else c.pc
    waiting := false, frozen := false, skewWait := false, arrived := false, stage := 0, livePend := false, skip := false
    route := none }

/-- A core that abandons its `BAR` is owed its generation no more (R298, R299). -/
def Launch.unowe (l : Launch) (n : Nat) : Launch :=
  { l with bars := l.bars.map fun b => { b with owed := b.owed.filter (· ≠ n) } }
/-- A member diverts now; one that is to be contained does not (R390). -/
def State.divertCore (s : State) (n : Nat) (d : Steep) (entry : Word) : State :=
  if (s.coreAt n).contained then s else
  let u := s.openAt (s.coreAt n)
  let s := s.modLaunch (s.coreAt n).launch.toNat fun l => l.unowe n
  (s.dropWaiter ((s.coreAt n).ctx / 16) (.core n)).modCore n fun c => c.divert d entry u

/-- Bits 56 to 0 of an address of code: `%steep_pc` shows no others (R300). -/
def codeBits (a : Word) : Word := (a.truncate 57 : BitVec 57).setWidth 64
/-- The slot of the diversion and what its registers hold: the leader's slot, or while a handler is entered or runs the
trapping instruction's (R299, R300, R377). -/
def State.steepOf (s : State) (c : Core) (ends : Nat) : Steep :=
  match c.frame with
  | none => { slot := c.slot, word := steepWord c.loops false (c.waiting && !c.frozen) (c.phase = .compute), pc := codeBits c.pc
              lc := steepLcWord c.loops, ends := ends }
  | some f =>
    let t := s.coreAt f.member
    if f.member = c.id then
      { slot := f.slot, word := steepWord f.loops true false (f.phase = .compute), pc := codeBits f.pc, lc := steepLcWord f.loops
        ends := ends }
    else
      let (pc, ls) := match t.feed.find? fun e => e.slot = t.slot with | some e => (e.pc, e.loops) | none => (f.pc, f.loops)
      { slot := t.slot, word := steepWord ls true false (t.phase = .compute), pc := codeBits pc, lc := steepLcWord ls
        ends := ends }

/-- A chain that stands in a trap stop, as one that runs a handler: both are abandoned, and slot k is the trapping instruction's
(R377). -/
def State.leaveStop (s : State) (lead : Nat) : State :=
  let c := s.coreAt lead
  if !s.stopping c then s
  else
    let ids := (s.mates c).filter fun n => !(s.coreAt n).contained
    let first := (s.raisedOf ids).headD c
    if c.frame.isSome then ids.foldl (fun s n => s.modCore n fun d => { d with raised := none, waiting := false, frozen := false }) s
    else (ids.foldl (fun s n => s.modCore n (Core.stopped first.id)) s).modCore lead fun d => d.enterHandler 0 d.trap first.id
/-- A chain is diverted: the leader at once, each follower when it has issued what lies before slot k (R299, R377). -/
def State.divertChain (s : State) (lead : Nat) (l : Launch) : State :=
  let ids := (s.coreAt lead).chain.ids
  let s := (ids.foldl State.settleOps s).leaveStop lead
  let c := s.coreAt lead
  let d := s.steepOf c (s.now + 1000 * l.fields.budget)
  let entry := BitVec.ofNat 64 l.fields.steep
  let mark : FeedEntry := { slot := d.slot, pc := d.pc, npc := d.pc, ins := .steepDiversion lead, dom := c.dom, live := false, loops := c.loops
                            steep := some d }
  let s := (ids.filter (· ≠ lead)).foldl (fun s n =>
    if (s.coreAt n).chain.leader ≠ lead then s
    else if c.frame.isSome ∧ d.slot ≤ (s.coreAt n).slot then (s.modCore n fun f => { f with feed := [] }).divertCore n d entry
    else s.modCore n fun f => { f with feed := (f.feed.filter fun e => e.slot < d.slot) ++ [mark] }) s
  (s.divertCore lead d entry).modCore lead fun c => { c with clk := d.slot }

/-- The first two steps of a deadline are complete: the source is closed, and every unit has been marked (R298). -/
def Launch.discarded (l : Launch) : Bool :=
  l.past && (l.srcEnd || l.fields.src != 1) && !l.todo.any fun e => match e with | .codes _ _ disc => disc | _ => false
/-- The core's chain is frozen: another member waits, and not in a `BAR` that has ended, or the chain stands in a trap stop or runs a
handler (R14, R361; log 64). -/
def State.heldUp (s : State) (l : Launch) (n : Nat) : Bool :=
  let c := s.coreAt n
  s.inHandler c || s.stopping c ||
    (s.mates c).any fun m => m ≠ n && (s.coreAt m).waiting && !l.bars.any fun b => b.owed.contains m
/-- A follower whose leader has ended, with no diversion of it still to come (R85, R299; log 69). -/
def State.leftBehind (s : State) (l : Launch) (c : Core) : Bool :=
  !c.leads && !(c.feed.any fun e => e.steep.isSome) &&
    (match l.runOf c.id with | some r => !r.left.contains c.chain.leader | none => false)
/-- A core may be diverted: the first steps of the deadline are complete, the core leads a chain or has been left behind in one, it runs
ordinary task code, and the aborted barriers of the launch have retired, but for those of a chain that is frozen (R298, R299). -/
def State.divertible (s : State) (n : Nat) (l : Launch) : Bool :=
  let c := s.coreAt n
  l.discarded && c.role = .running && !c.steepOn && (c.leads || s.leftBehind l c) && !c.contained &&
    !(l.bars.any fun b => b.owed.any fun m => !s.heldUp l m)
/-- A member that its leader has left behind is diverted at its own slot, and goes on as a chain of its own (R299; log 69). -/
def State.divertAlone (s : State) (n : Nat) (l : Launch) : State :=
  let s := s.settleOps n
  let c := s.coreAt n
  let (pc, ls) := match c.feed with | e :: _ => (e.pc, e.loops) | [] => (c.pc, c.loops)
  let d : Steep := { slot := c.slot, word := steepWord ls false (c.waiting && !c.frozen) (c.phase = .compute), pc := codeBits pc
                     lc := steepLcWord ls, ends := s.now + 1000 * l.fields.budget }
  let s := s.modCore n fun c => { c with chain := { c.chain with leader := n, rows := 1, cols := 1, r := 0, c := 0 }, feed := [], clk := d.slot }
  s.divertCore n d (BitVec.ofNat 64 l.fields.steep)
/-- The diversion of a core that can be diverted, with that of its chain. -/
def State.divertOf (s : State) (n : Nat) : State :=
  match s.launches.find? (s.coreAt n).launch.toNat with
  | none => s
  | some l => if !s.divertible n l then s else if (s.coreAt n).leads then s.divertChain n l else s.divertAlone n l

/-- `STEEP_DIVERSION` of the chain that a core leads; in a follower that has come to slot k of its leader's diversion, its
own (R299). -/
def execSteepDiversion (core : Nat) (s : State) : Out :=
  let c := s.core
  match c.feed with
  | e :: es =>
    match e.steep with
    | some d =>
      if e.ins = .steepDiversion core ∧ e.slot = c.slot then
        .next (((s.upd fun c => { c with feed := es }).divertCore c.id d c.pc).upd Core.tick)
      else .next (s.divertOf core)
    | none => .next (s.divertOf core)
  | [] => .next (s.divertOf core)

/-! The budget (R301). -/

/-- The cores of a chain whose window has closed, that a core led at its diversion, and that have not ended: those of one launch that have
been diverted, or are about to be (R301). -/
def State.steepers (s : State) (lead : Nat) : List Core :=
  let cs := s.allCores.filter fun c => c.role = .running && c.chain.leader = lead && c.launch != 0
  match cs.find? fun c => c.steepOn && decide (c.steepAt ≤ s.now) with
  | none => []
  | some m => cs.filter fun c => c.launch = m.launch && (c.steepOn || c.feed.any fun e => e.steep.isSome)

/-- The overrun bits of the open ranges of a chain, and the header's bit, also when there is no range (R301, R303). -/
def Launch.overruns (l : Launch) (cs : List Core) : List EndStep :=
  if l.fields.vmap = 0 then []
  else
    let us := (cs.filterMap Core.openUnits).eraseDups
    if us = [] then [.over 0 0] else us.map fun u => .over u.1 u.2

/-- `STEEP_BUDGET_EXPIRY`: the window of a chain closes (R301). -/
def execSteepBudgetExpiry (core : Nat) (s : State) : Out :=
  let cs := s.steepers core
  match cs with
  | [] => .next s
  | c :: _ =>
    let lid := c.launch.toNat
    let s := s.abortBars lid
    let s := s.modLaunch lid fun l => { l with todo := l.todo ++ l.overruns cs }
    let s := s.note { cause := 0x19, chain := decide (c.members > 1), ctx := c.ctx, core := core, launch := lid }
    let s := cs.foldl (fun s c => s.stopCore c.id) s
    .next (cs.foldl (fun s c => s.endPart lid c.id) s)

/-! `VALID` (R304, R305). -/

/-- A page that may hold a validity map: bank store or HBM (R303). -/
def mapPage (hpa : Nat) : Bool := isBank hpa || isHbm hpa
/-- Some page of a range is translated to another kind of memory. -/
def State.badPage (s : State) (va n : Nat) : Bool :=
  (granulePieces (n / 32768 + 2) va n).any fun q =>
    match s.walk s.core.ctx q.1 .read with | .ok x => !mapPage (s.twinned x false).hpa | _ => false

/-- The unit count in a map's header as the core sees it, when it can be read without a page request. -/
def State.headerUnits (s : State) (va : Nat) : Option Nat :=
  match s.walk s.core.ctx va .read with
  | .ok x => let a := (s.twinned x false).hpa; some (leNat (s.seenOver s.core.id a (s.physRead a 4)))
  | _ => none

/-- First byte and number of bytes that hold the codes of units. -/
def codeRange (vmap f n : Nat) : Nat × Nat :=
  if n = 0 then (vmap + codeOff f, 0) else (vmap + codeOff f, codeOff (f + n - 1) - codeOff f + 1)

/-- The steps that write the codes of units f to f + n - 1, one for each of `cnt` bytes: the bits written, and what they
become (R304). -/
def codeSteps (f n code cnt : Nat) : List (Byte × Byte) :=
  (List.range cnt).map fun j =>
    let u := f - f % 4 + 4 * j
    let put (c : Nat) : Byte := BitVec.ofNat 8 (((List.range 4).filter fun i => f ≤ u + i && u + i < f + n).map fun i => c * 4 ^ i).sum
    (put 3, put code)
/-- Those steps as stores of their bytes, each a release at module scope that the unit performs by itself (R212, R304). -/
def codeStores (core part : Nat) : List Piece → List (Byte × Byte) → List NetStore
  | [], _ => []
  | p :: ps, bs =>
    ((bs.take p.len).mapIdx fun i b =>
      { core := core, hpa := p.hpa + i, gpa := p.gpa, part := part, data := [b.2], mask := [b.1], kind := p.kind
        rel := if p.kind = 2 then none else some .mod }) ++ codeStores core part ps (bs.drop p.len)

/-- The code of `VALID` (R303). -/
def VCode.num : VCode → Nat
  | .absent => 0 | .partial_ => 1 | .complete => 2

/-- The open range after `VALID.open`. -/
def openRange (f n : Nat) : Option (Nat × Nat) := if n = 0 then none else some (f, n)

/-- `VALID` on units f to f + n - 1 (R304): the checks in their order (R358), then the open range or the codes. -/
def valid (code : Option VCode) (f n : Nat) (s : State) : Out :=
  let vmap := match s.launches.find? s.core.launch.toNat with | some l => l.fields.vmap | none => 0
  let (va, cnt) := codeRange vmap f (min n (2 ^ 24))
  if vmap = 0 then s.illegal 0x4C
  else if vmap % 64 ≠ 0 then s.addrFault 0x4C vmap
  else if s.badPage vmap 64 then s.addrFault 0x4C vmap
  else if code.isSome ∧ s.badPage va cnt then s.addrFault 0x4C va
  else if decide (n > 2 ^ 24) || (match s.headerUnits vmap with | some u => decide (n > 0) && decide (f + n > u) | none => false) then s.illegal 0x4C
  else s.classX 0x4C fun s =>
    (s.readSpace (.glob vmap) 4).run fun s b => match b with
      | none => .next (s.consume vmap 5)
      | some h => if n > 0 ∧ f + n > leNat h then s.illegal 0x4C
      else match code with
        | none => .next (s.upd fun c => { c with openUnits := openRange f n }).retire
        | some v =>
          (s.translateRange s.me va cnt .atomic).run fun s ps =>
            .next (s.hand (codeStores s.core.id s.myPart ps (codeSteps f n (VCode.num v) cnt))).retire

/-- `VALID.code xa, xb` (R304). -/
def execValid (c : VCode) (a b : XReg) (s : State) : Out :=
  issue { x := [a, b] } {} s fun s => valid (some c) (s.core.rx a).toNat (s.core.rx b).toNat s
/-- `VALID.code xa, #n` (R304). -/
def execValidImmediate (c : VCode) (a : XReg) (n : BitVec 32) (s : State) : Out :=
  issue { x := [a] } {} s fun s => valid (some c) (s.core.rx a).toNat n.toNat s
/-- `VALID.open xa, xb` (R304). -/
def execValidOpen (a b : XReg) (s : State) : Out :=
  issue { x := [a, b] } {} s fun s => valid none (s.core.rx a).toNat (s.core.rx b).toNat s
/-- `VALID.open xa, #n` (R304). -/
def execValidOpenImmediate (a : XReg) (n : BitVec 32) (s : State) : Out :=
  issue { x := [a] } {} s fun s => valid none (s.core.rx a).toNat n.toNat s

end Sys2Proof.Machine
end

