-- ==== Sys2Proof/Machine/Experts.lean ====
section
/-! DEFINITION. Replica tables, pins, routing, and the placement of replicas by Caldera (16_experts.md R307 to R319). -/

namespace Sys2Proof.Machine

/-! Tables and versions. -/

/-- The table that a number names in the core's partition. -/
def State.tableOf (s : State) (w : Word) : Option (Nat × RTable) :=
  if w.toNat ≥ 64 then none
  else (s.tables.find? (64 * s.myPart + w.toNat)).map fun t => (64 * s.myPart + w.toNat, t)
/-- A pin slot of some core, also of one that is saved off the mesh, holds a version (R309, R311). -/
def State.slotHolds (s : State) (k v : Nat) : Bool :=
  s.allCores.any fun c => c.ctx / 16 = k / 64 && c.pins.toList.any fun q => q = some { tbl := k % 64, ver := v }
/-- Pins hold a version: its in-flight instance does not count zero; with the instance lost, the slots themselves tell (R309,
R311). -/
def State.pinned (s : State) (k v : Nat) : Bool :=
  match s.net (.flight k v) with
  | some n => if n.lost then s.slotHolds k v else !n.quiet || n.total != 0
  | none => false
/-- A launch has adopted a version that its members may still pin (R310). -/
def State.adopted (s : State) (k v : Nat) : Bool :=
  s.launches.any fun e => e.2.part = k / 64 && e.2.adopt.any fun a => a.1 % 64 = k % 64 && a.2 = v
/-- Versions that stop being live go, with their in-flight instances (R309, R317). -/
def State.prune (s : State) (k : Nat) : State :=
  match s.tables.find? k with
  | none => s
  | some t =>
    let gone := (t.vers.keys).filter fun v => v ≠ t.cur && !(v = t.before && t.pubAt = s.now) && !s.pinned k v && !s.adopted k v
    gone.foldl (fun s v => (s.endNet (.flight k v)).modTable k fun t => { t with vers := t.vers.del v }) s
/-- A publication would make a fifth version live (R309). -/
def State.fifth (s : State) (k : Nat) : Bool :=
  match s.tables.find? k with
  | none => false
  | some t => 4 ≤ (t.vers.keys.filter fun v => s.pinned k v).length
/-- The number after a version's (R309). -/
def nextVer (v : Nat) : Nat := if (v + 1) % 2 ^ 32 = 0 then 1 else (v + 1) % 2 ^ 32

/-- An instance of Caldera's: bitonic, width 2 (R308). -/
def calderaNet (home part ctx : Nat) : Net := Net.new 1 false false home 0 0 0 part ctx
/-- Caldera entries of a die that are in use (R308). -/
def State.calderaUsed (s : State) (die : Nat) : Nat :=
  (s.nets.filter fun e => e.2.home = die && match e.1 with | .launch _ _ | .part _ _ | .queue _ _ => false | _ => true).length
/-- Caldera entries of a die: the balancer entries that the partitions' shares leave (R26, R350; log 20). -/
def State.calderaRoom (s : State) (die : Nat) : Nat :=
  2048 - 32 * (s.parts.map fun e => e.2.bal).sum - s.calderaUsed die

/-- A Caldera event (R397). -/
def State.calderaEvent (s : State) (k die expert ver kind : Nat) : State :=
  s.event die 0x0C (k / 64) 0xFFFF (some (k % 64 + 2 ^ 16 * expert + 2 ^ 32 * ver)) (some kind)

/-- Replicas of a version that a later one leaves out, with their experts (R317 step 4). -/
def leftOut (old new : List Expert) : List (Nat × Replica) :=
  old.zipIdx.flatMap fun e => (e.1.reps.filter fun r => !((new.flatMap Expert.reps).any fun q => q.serial = r.serial)).map fun r => (e.2, r)

/-- Sets the current version (R317 step 3): the next number, its in-flight instance, and the replicas that it leaves out
draining. -/
def State.setVersion (s : State) (k : Nat) (es : List Expert) : State :=
  match s.tables.find? k with
  | none => s
  | some t =>
    let v := nextVer t.cur
    let out := leftOut (t.at_ t.cur) es
    let net := { calderaNet t.home (k / 64) t.ctx with lost := s.failed.getLsbD t.home }
    let s := s.addNet (.flight k v) net
    (s.modTable k fun t => { t with vers := t.vers.put v es, cur := v, drain := t.drain ++ out, pubAt := s.now
                                    before := if t.pubAt = s.now ∧ t.before ≠ 0 then t.before else t.cur }).prune k

/-! Pins (R311). -/

/-- A counting instance of Caldera's is lost (R270); it has no handle for the record (log 5). -/
def State.lostTrap (s : State) : Out :=
  let (s, w) := s.openWord
  .next (s.raise 0x09 0 w.toNat 0)

/-- The version that the core's domain has adopted (R310). -/
def State.adoptedVer (s : State) (k : Nat) (t : RTable) : Nat :=
  match s.launches.find? s.core.launch.toNat with
  | some l => (l.adopt.find? (64 * s.core.dom.toNat + k % 64)).getD t.cur
  | none => t.cur

/-- `RTPIN.pin` (R311). -/
def execRtpinPin (d a : XReg) (sl : Fin 4) (s : State) : Out :=
  issue { x := [a] } { x := [d] } s fun s =>
    match s.tableOf (s.core.rx a) with
    | none => s.illegal 0x4E
    | some (k, t) =>
      if s.core.pins[sl].isSome then s.illegal 0x4E
      else s.classX 0x4E fun s =>
        let v := s.adoptedVer k t
        match s.count1 (.flight k v) s.core.id false with
        | (s, none) => s.lostTrap
        | (s, some _) =>
          .next (s.upd fun c => { c with pins := c.pins.set sl (some { tbl := k % 64, ver := v }) }.lateX d
            (BitVec.ofNat 64 (v + 2 ^ 32 * (t.at_ v).length))).retire
/-- `RTPIN.rel` (R311). -/
def execRtpinRel (sl : Fin 4) (s : State) : Out :=
  match s.core.pins[sl] with
  | none => s.illegal 0x4E
  | some p => s.classX 0x4E fun s =>
    match s.count1 (.flight (64 * s.myPart + p.tbl) p.ver) s.core.id true with
    | (s, none) => s.lostTrap
    | (s, some _) =>
      .next ((s.upd fun c => { c with pins := c.pins.set sl none }).prune (64 * s.myPart + p.tbl)).retire
/-- `RTPIN.health` (R311, R319). -/
def execRtpinHealth (d : XReg) (s : State) : Out :=
  issue {} { x := [d] } s fun s => s.classX 0x4E fun s => .next (s.upd (·.lateX d (s.failed.setWidth 64))).retire
/-- `RTPIN.cur` (R311). -/
def execRtpinCur (d a : XReg) (s : State) : Out :=
  issue { x := [a] } { x := [d] } s fun s =>
    match s.tableOf (s.core.rx a) with
    | none => s.illegal 0x4E
    | some (_, t) => s.classX 0x4E fun s => .next (s.upd (·.lateX d (BitVec.ofNat 64 t.cur))).retire

/-! Routing (R312 to R316). -/

/-- The `ROUTE` of the core goes on: all rows at once with nothing else scheduled, else one row in a turn (log 1). -/
def State.routeOn (s : State) (q : RouteRun) : Out :=
  match (if s.agenda = [] then s.routeRest s.core.id q.rows q else if q.row < q.rows then s.routeNext s.core.id q else (s, some q)) with
  | (s, none) => (s.upd fun c => { c with route := none }).lostTrap
  | (s, some q) =>
    if q.row < q.rows then .next (s.upd fun c => { c.waits with route := some q })
    else .next (s.upd fun c => { c.lateV q.d q.val q.mask with route := none }).retire

/-- `ROUTE.disp` and `ROUTE.redir` (R312, R314). -/
def route (redir : Bool) (d a : VReg) (kc : Fin 8) (sl : Fin 4) (m : VMask) (s : State) : Out :=
  match s.core.route with
  | some q => s.routeOn q
  | none =>
    issue { v := [a], p := [m.p] } { v := [d] } s fun s =>
      match s.core.pins[sl] with
      | none => s.illegal 0x4D
      | some p =>
        let k := 64 * s.myPart + p.tbl
        let es := match s.tables.find? k with | some t => t.at_ p.ver | none => []
        let n := kc.val + 1
        let t := s.core.rv a
        let msk := s.core.rp m.p
        let bad := (List.range s.core.rows).any fun r => msk.getLsbD r && (List.range n).any fun j =>
          let e := tileBytes t (4 * (r * n + j)) 4
          decide (e ≠ 0xFFFFFFFF) && decide (e ≥ es.length)
        if bad then s.illegal 0x4D
        else s.classX 0x4D fun s =>
          s.routeOn { redir := redir, d := d, tbl := k, ver := p.ver, a := t, kc := n, p := msk, z := m.z, rows := s.core.rows }
/-- `ROUTE.disp` (R314). -/
def execRouteDisp (d a : VReg) (kc : Fin 8) (sl : Fin 4) (m : VMask) (s : State) : Out := route false d a kc sl m s
/-- `ROUTE.redir` (R314). -/
def execRouteRedir (d a : VReg) (kc : Fin 8) (sl : Fin 4) (m : VMask) (s : State) : Out := route true d a kc sl m s

/-- How much newer the current version is than a live one (R309). -/
def RTable.age (t : RTable) (v : Nat) : Nat := (t.cur + 2 ^ 32 - v) % 2 ^ 32
/-- The replica of an expert with a gateway core: in the current version, else in the newest live one that lists it
(R315). -/
def State.closing (s : State) (k : Nat) (t : RTable) (e core : Nat) : Option Replica :=
  let has (v : Nat) : Option Replica := match (t.at_ v)[e]? with
    | some x => x.reps.find? fun r => r.core = core
    | none => none
  let vs := t.vers.keys.filter fun v => (v = t.cur || s.pinned k v) && (has v).isSome
  (vs.foldl (fun (m : Option Nat) v => match m with
    | none => some v
    | some w => if t.age v < t.age w then some v else some w) none).bind has

/-- `ROUTE.close` (R315). -/
def execRouteClose (d a : XReg) (s : State) : Out :=
  issue { x := [a] } { x := [d] } s fun s =>
    let w := (s.core.rx a).toNat
    if fld w 6 10 ≠ 0 ∨ fld w 25 7 ≠ 0 ∨ w / 2 ^ 44 ≠ 0 then s.illegal 0x4D
    else
      match s.tableOf (BitVec.ofNat 64 (w % 64)) with
      | none => s.illegal 0x4D
      | some (k, t) =>
        match s.closing k t (fld w 16 9) (fld w 32 12) with
        | none => s.illegal 0x4D
        | some r => s.classX 0x4D fun s =>
          match s.net (.cap k r.serial) with
          | none => s.lostTrap
          | some n =>
            if n.lost then s.lostTrap
            else if !n.quiet then .next s.wait
            else
              let b := t.bases.get 0 r.serial
              let s := s.modTable k fun t => { t with bases := t.bases.put r.serial n.total }
              .next (s.upd (·.lateX d (n.total - b))).retire

/-- The weights base of a row's replica (R316); for a replica that does not exist the spec states none (log 5). -/
def State.infoRow (s : State) (es : List Expert) (w : Nat) : State × Nat :=
  if w / 2 ^ 63 % 2 = 0 then (s, 0)
  else
    match es[fld w 40 9]? with
    | none => (s, 0)
    | some x =>
      match x.reps[fld w 12 4]? with
      | some r => (s, r.wbase)
      | none => let (s, v) := s.openWord; (s, v.toNat)

/-- `ROUTE.info` (R316). -/
def execRouteInfo (d a : VReg) (sl : Fin 4) (m : VMask) (s : State) : Out :=
  issue { v := [a], p := [m.p] } { v := [d] } s fun s =>
    match s.core.pins[sl] with
    | none => s.illegal 0x4D
    | some p =>
      let k := 64 * s.myPart + p.tbl
      let es := match s.tables.find? k with | some t => t.at_ p.ver | none => []
      let t := s.core.rv a
      let msk := s.core.rp m.p
      if (List.range s.core.rows).any fun r => msk.getLsbD r && decide (fld (tileBytes t (8 * r) 8) 40 9 ≥ es.length) then
        s.illegal 0x4D
      else s.classX 0x4D fun s =>
        let (s, o) := (List.range s.core.rows).foldl (fun (q : State × Patch) r =>
          if msk.getLsbD r then
            let (s, v) := q.1.infoRow es (tileBytes t (8 * r) 8)
            (s, q.2.put (8 * r) 8 v)
          else if m.z then (q.1, q.2.put (8 * r) 8 0) else q) (s, ({} : Patch))
        .next (s.upd (·.lateV d o.val o.mask)).retire

/-! Placement (R317, R318). -/

/-- The gateway core that a die's driver reserved, lowest first (R317, R348). -/
def State.gateway (s : State) (die : Nat) : Option Nat :=
  ((List.range 256).find? fun i => (s.gates.get 0 die).getLsbD i).map (256 * die + ·)
/-- Idle slices of a partition on a die. -/
def State.idleSlices (s : State) (p die : Nat) : Nat :=
  ((List.range 128).filter fun i =>
    let sl := 128 * die + i
    (s.part p).slices.getLsbD sl && !s.out.contains sl && !s.sliceBusy sl).length
/-- The die for a new replica: the most idle slices among those without a replica of the expert and with a gateway, ties to
the lower die (R317). -/
def State.replicaDie (s : State) (p : Nat) (x : Expert) : Option Nat :=
  let ds := (s.diesOf p).filter fun d => !(x.reps.any fun r => r.die = d) && (s.gateway d).isSome && s.calderaRoom d > 0
  ds.foldl (fun (m : Option Nat) d => match m with
    | none => some d
    | some b => if s.idleSlices p b < s.idleSlices p d then some d else some b) none

/-- Ranges of addresses that the leaves of a stage-2 table and the tables under it name (R329, R330). -/
def State.leaves2 (s : State) : Nat → Nat → Nat → List (Nat × Nat)
  | 0, _, _ => []
  | n + 1, lvl, t => (List.range 4096).flatMap fun i =>
      let e := s.physNat (t + 8 * i) 8
      if !pteV e || malformed 2 lvl e then []
      else if pteLf e then [(pteOa e, 2 ^ pageBits lvl)]
      else (t, 32768) :: s.leaves2 n (lvl + 1) (pteOa e)
/-- Ranges of host-physical addresses in use: twin sets, what stage 2 of some partition maps or reads, and bytes that hold anything. -/
def State.inUse (s : State) : List (Nat × Nat) :=
  (s.twins.map fun e => (e.2.base, e.2.span)) ++
    (s.parts.flatMap fun e => (e.2.s2root, 32768) :: s.leaves2 4 0 e.2.s2root) ++ s.mem.map fun c => (c.1, 1)
/-- The first run of `span` bytes from `i` times 64 KiB on in a die's HBM that meets no range in use, tried up to some times, from the
start again at the end. -/
def freeFrame (used : List (Nat × Nat)) (die span rooms : Nat) : Nat → Nat → Option Nat
  | 0, _ => none
  | k + 1, i =>
    let a := die * 2 ^ 37 + 65536 * i
    match used.find? fun u => u.1 < a + span && a < u.1 + u.2 with
    | none => some a
    | some u =>
      let j := (u.1 + u.2 - die * 2 ^ 37 + 65535) / 65536
      freeFrame used die span rooms k (if j < rooms then j else 0)
/-- The base of a twin set of `span` bytes on a die's HBM: at a multiple of 64 KiB inside its 96 GB, and off everything in use; where
there is Caldera's choice (R317, R328, R332; log 14). -/
def State.hbmFrame (s : State) (die span free : Nat) : Option Nat :=
  let rooms := (96 * 10 ^ 9 - span) / 65536 + 1
  let used := s.inUse
  freeFrame used die span rooms (2 * used.length + 2) (Sys2Proof.Config.replicaFrame free % rooms)
/-- A twin set's number that nothing uses, from the highest down. -/
def State.freeTwin (s : State) : Nat → Option Nat
  | 0 => none
  | n + 1 => if (s.twins.find? n).isNone then some n else s.freeTwin n

/-- A copy of a replica begins (R317 step 2): its instance, its twin set on the die's HBM, and its place among the
copies. The frame and the base are Caldera's choice (log 14). -/
def State.startReplica (s : State) (k e : Nat) : State :=
  match s.tables.find? k with
  | none => s
  | some t =>
    match (t.at_ t.cur)[e]? with
    | none => s
    | some x =>
      match x.reps.head?, (s.replicaDie (k / 64) x).bind fun d => (s.hbmFrame d (2 * x.wbytes) s.free).map fun a => (d, a)
          , s.freeTwin 65536 with
      | some r0, some (die, base), some set =>
        let serial := t.serial
        let rep : Replica :=
          { core := (s.gateway die).getD 0, cap := r0.cap, wbase := (Sys2Proof.Config.replicaBase s.free).toNat
            gbase := if x.gbytes = 0 then 0 else (Sys2Proof.Config.replicaBase (s.free + 1)).toNat
            serial := serial, set := some set }
        let tw : Twin := { part := k / 64, base := base, span := 2 * x.wbytes, sel := false
                           isOpen := true, epoch := 1, caldera := true }
        let s := { s with free := s.free + 2, twins := s.twins.put set tw }
        let s := s.addNet (.cap k serial) (calderaNet die (k / 64) t.ctx)
        s.modTable k fun t => { t with
          serial := serial + 1, copies := t.copies ++ [{ expert := e, rep := rep, done := decide (x.wbytes = 0) }] }
      | _, _, _ => s

/-- Zero-fills the frames of a replica: its twin set's, or those that its addresses translate to (R317, R339). -/
def State.scrubReplica (s : State) (ctx : Nat) (x : Expert) (r : Replica) : State :=
  let pages (s : State) (a n : Nat) : State := (granulePieces (n / 32768 + 2) a n).foldl (fun s q =>
    match s.walk ctx q.1 .write with | .ok y => s.physZero (s.twinned y false).hpa q.2 | _ => s) s
  let s := match r.set with
    | some set => match s.twins.find? set with
      | some t => { s.physZero t.base t.span with twins := s.twins.del set }
      | none => s
    | none => pages s r.wbase x.wbytes
  if r.gbase = 0 then s else pages s r.gbase x.gbytes

/-- A lease that Caldera holds for a copy ends with it. -/
def State.endCopyLease (s : State) (k serial : Nat) : State :=
  (s.leases.filter fun e => e.2.copy = some (k, serial)).foldl (fun s e =>
    { s with leases := s.leases.del e.1 }.dropWaiters (e.2.ctx / 16) fun w => match w with | .lease d g _ => 16 * d + g = e.1 | _ => false) s
/-- A copy has failed (R318). -/
def State.copyFail (s : State) (k : Nat) (c : RCopy) : State :=
  match s.tables.find? k with
  | none => s
  | some t =>
    let s := s.endCopyLease k c.rep.serial
    let s := match c.rep.set.bind fun n => s.twins.find? n with
      | some w => s.physZero w.base w.span
      | none => s
    let s := match c.rep.set with | some n => { s with twins := s.twins.del n } | none => s
    let s := (s.endNet (.cap k c.rep.serial)).modTable k fun t =>
      { t with copies := t.copies.filter fun q => q.rep.serial ≠ c.rep.serial
               loads := t.loads.filter fun q => q.1 % 512 ≠ c.expert }
    s.calderaEvent k c.rep.die c.expert (nextVer t.cur) 5

/-- The host-physical address of byte `o` of the shadow pages of a set (R332). -/
def Twin.shadow (w : Twin) (o : Nat) : Nat := w.base + 65536 * (o / 32768) + (if w.sel then 0 else 32768) + o % 32768
/-- The copy that an engine of Caldera's carries out, with its source and its twin set. -/
def State.copyOf (s : State) (k serial : Nat) : Option (RCopy × Nat × Twin) :=
  match s.tables.find? k with
  | none => none
  | some t =>
    match t.copies.find? fun c => c.rep.serial = serial with
    | none => none
    | some c =>
      match (t.at_ t.cur)[c.expert]?.bind fun x => x.reps.head?, c.rep.set.bind fun n => s.twins.find? n with
      | some r, some w => some (c, r.wbase, w)
      | _, _ => none
/-- A command of a copy is complete: so many bytes have been copied (R317). -/
def State.copied (s : State) (k serial n : Nat) : State :=
  match s.tables.find? k with
  | none => s
  | some t =>
    let all (e : Nat) : Nat := match (t.at_ t.cur)[e]? with | some x => x.wbytes | none => 0
    s.modTable k fun t => { t with copies := t.copies.map fun c =>
      if c.rep.serial = serial then { c with off := c.off + n, done := decide (c.off + n ≥ all c.expert) } else c }
/-- The command of a copy's next stretch; how long it is, is Caldera's choice (log 14). -/
def copyDesc (free src rest : Nat) : List Byte :=
  leBytes 8 0 ++ leBytes 8 src ++ leBytes 8 0 ++ leBytes 8 (min rest (16 + 16 * (Sys2Proof.Config.replicaStretch free % 2 ^ 24))) ++
    leBytes 32 0
/-- The first copy to a die that no engine works on. -/
def State.waitingCopy (s : State) (die : Nat) : Option (Nat × RCopy) :=
  (s.tables.flatMap fun e => (e.2.copies.filter fun c => !c.done && c.rep.die = die &&
    !(s.leases.any fun l => l.2.copy = some (e.1, c.rep.serial))).map fun c => (e.1, c)).head?
/-- An uncorrectable error has struck a copy's shadow pages (R318). -/
def State.copyStruck (s : State) (c : RCopy) : Bool :=
  s.failed.getLsbD c.rep.die || (match c.rep.set.bind fun n => s.twins.find? n with
    | some w => s.physPoison w.base w.span
    | none => true)

/-- The load of an expert over all dies. -/
def RTable.load (t : RTable) (e : Nat) : Nat := ((t.loads.filter fun q => q.1 % 512 = e).map Prod.snd).sum

/-- An expert that an interval finds hot: table, expert, load, replicas. -/
structure Hot where
  tbl    : Nat
  expert : Nat
  load   : Nat
  reps   : Nat
  deriving DecidableEq, Repr
/-- Comes first in the order of R317 step 2; between experts of one number, the lower table. -/
def Hot.before (a b : Hot) : Bool :=
  a.load * b.reps > b.load * a.reps ||
    (a.load * b.reps = b.load * a.reps && (a.expert < b.expert || (a.expert = b.expert && a.tbl < b.tbl)))
/-- The hot experts in that order. -/
def hotOrder (hot : List Hot) : List Hot :=
  hot.foldl (fun l a => (l.takeWhile fun b => !a.before b) ++ a :: (l.dropWhile fun b => !a.before b)) []

/-- Tokens that a replica's instance has handed out in its round. -/
def State.drawn (s : State) (k : Nat) (t : RTable) (r : Replica) : Nat :=
  match s.net (.cap k r.serial) with | some n => (n.total - t.bases.get 0 r.serial).toNat | none => 0
/-- The coldest replica of an expert: the fewest tokens of the round, the highest index on ties (R317 step 3; log 21). -/
def State.coldest (s : State) (k : Nat) (t : RTable) (x : Expert) : Option Replica :=
  x.reps.foldl (fun (m : Option Replica) r => match m with
    | none => some r
    | some b => if s.drawn k t r ≤ s.drawn k t b then some r else some b) none

/-- Copies of the running intervals in the module. -/
def State.copying (s : State) : Nat := (s.tables.map fun e => e.2.copies.countP fun c => !c.kept).sum

/-- The experts of a table that are hot by its load counters, and that Caldera may replicate (R317 steps 1 and 2). -/
def State.hotOf (s : State) (k : Nat) (t : RTable) : List Hot :=
  let es := (t.at_ t.cur).zipIdx
  let total := (es.map fun e => t.load e.2).sum
  let live := ((t.at_ t.cur).flatMap Expert.reps).countP fun r => !s.failed.getLsbD r.die
  (es.filter fun e => decide (e.1.reps.length > 0) && decide (e.1.reps.length < 8) && !(t.copies.any fun c => c.expert = e.2) &&
    decide (16 * t.load e.2 * live > t.hot * total * e.1.reps.length)).map fun e =>
      { tbl := k, expert := e.2, load := t.load e.2, reps := e.1.reps.length }
/-- The replicas of a table that the interval retires: the coldest of each cold expert (R317 steps 1 and 3). -/
def State.coldOf (s : State) (k : Nat) (t : RTable) : List (Nat × Nat) :=
  let es := (t.at_ t.cur).zipIdx
  let total := (es.map fun e => t.load e.2).sum
  let live := ((t.at_ t.cur).flatMap Expert.reps).countP fun r => !s.failed.getLsbD r.die
  (es.filter fun e => decide (e.1.reps.length ≥ 2) && decide (16 * t.load e.2 * live < t.cold * total * e.1.reps.length)).filterMap
    fun e => (s.coldest k t e.1).map fun r => (e.2, r.serial)
/-- The interval of a table has ended (R317). -/
def RTable.over (t : RTable) (now : Nat) : Bool := !t.fixed && t.due ≤ now

/-- A copy can enter the next version: no replica of its expert is on its die, and there are fewer than eight (R307; log 14). One that
cannot, because `CFG.rrep` has given the expert replicas meanwhile, is discarded as one that failed. -/
def State.copyFits (s : State) (t : RTable) (c : RCopy) : Bool :=
  match (t.at_ t.cur)[c.expert]? with
  | none => false
  | some x =>
    let reps := x.reps.filter fun r => !s.failed.getLsbD r.die && !t.retire.contains (c.expert, r.serial)
    reps.length < 8 && !(reps.any fun r => r.die = c.rep.die)
/-- The experts of the next version: without the replicas that retire or have failed, with the copied ones appended (R317
step 3). -/
def State.nextExperts (s : State) (t : RTable) : List Expert :=
  (t.at_ t.cur).mapIdx fun e x =>
    { x with reps := (x.reps.filter fun r => !s.failed.getLsbD r.die && !t.retire.contains (e, r.serial)) ++
        ((t.copies.filter fun c => c.done && c.expert = e).map RCopy.rep) }

/-- The twin set of a copied replica is published (R222, R250). -/
def State.showTwin (s : State) (n : Option Nat) : State :=
  match n with
  | none => s
  | some n => match s.twins.find? n with
    | some w => { s with twins := s.twins.put n { w with isOpen := false, sel := !w.sel } }
    | none => s

/-- The publication of a table (R317 step 3): the twin sets, then the version; or it is deferred (R309), and keeps its shadows. -/
def State.publishTable (s : State) (k : Nat) : State :=
  match s.tables.find? k with
  | none => s
  | some t0 =>
    let s := (t0.copies.filter fun c => s.copyStruck c || !s.copyFits t0 c).foldl (fun s c => s.copyFail k c) s
    match s.tables.find? k with
    | none => s
    | some t =>
      let es := s.nextExperts t
      if es = t.at_ t.cur then s.modTable k fun t => { t with pub := false, retire := [] }
      else if s.fifth k then
        if t.fixed then s
        else (s.modTable k fun t => { t with
          pub := false, retire := [], copies := t.copies.map fun c => { c with kept := true } }).calderaEvent
            k t.home 0 (nextVer t.cur) 4
      else
        let v := nextVer t.cur
        let s := t.copies.foldl (fun s c => (s.showTwin c.rep.set).calderaEvent k c.rep.die c.expert v 1) s
        let s := s.modTable k fun t => { t with pub := false, retire := [], copies := [] }
        (s.setVersion k es).calderaEvent k t.home 0 v 3

/-- `CALDERA_PUBLISH`: when every copy of the interval has written its stamp, the version is published, or deferred (R309, R317
step 3). -/
def execCalderaPublish (tbl : Nat) (s : State) : Out :=
  match s.tables.find? tbl with
  | none => .next s
  | some t => .next (if t.pub && t.copies.all RCopy.done then s.publishTable tbl else s)

/-- `PLACEMENT_INTERVAL_END`: copies that are not finished fail, and what the interval had to publish is published; then the
loads are measured and the copies of the next interval begin (R317 steps 1 and 2, R318). Up to 16 hot experts of the module are
taken together with those of the tables whose interval ends with this one. -/
def execPlacementIntervalEnd (tbl : Nat) (s : State) : Out :=
  match s.tables.find? tbl with
  | none => .next s
  | some t =>
    if !t.over s.now then .next s
    else
      let s := (t.copies.filter fun c => !c.done).foldl (fun s c => s.copyFail tbl c) s
      let s := if t.pub then s.publishTable tbl else s
      match s.tables.find? tbl with
      | none => .next s
      | some t =>
        let hot := hotOrder ((s.tables.filter fun e => e.2.over s.now).flatMap fun e => s.hotOf e.1 e.2)
        let cold := s.coldOf tbl t
        let n := 16 - s.copying
        let s := s.modTable tbl fun t => { t with loads := [], due := t.due + 1000 * t.ival, retire := cold, pub := true }
        .next (((hot.take n).filter fun h => h.tbl = tbl).foldl (fun s h => s.startReplica tbl h.expert) s)

/-- A version lists a replica. -/
def listed (es : List Expert) (serial : Nat) : Bool := es.any fun x => x.reps.any fun r => r.serial = serial

/-- One f32 addition of a gradient merge, at the bank arithmetic units (R120, R317). -/
def mergeWord (a b : Nat) : Nat := (atomNew .fadd 4 a b 0).1
/-- Merges a retiring replica's gradient buffer into that of replica 0 of the current version, f32 element by element; what does
not translate, and what is poisoned, is left (log 21). -/
def State.mergeGrad (s : State) (ctx src dst : Nat) : List Nat → State
  | [] => s
  | o :: l =>
    let s := match s.walk ctx (src + o) .read, s.walk ctx (dst + o) .atomic with
      | .ok a, .ok b =>
        let pa := (s.twinned a false).hpa
        let y := s.twinned b false
        if s.physPoison pa 4 || s.physPoison y.hpa 4 then s
        else s.writePieces (ctx / 16) [{ hpa := y.hpa, len := 4, kind := y.kind, gpa := y.gpa }]
          (leBytes 4 (mergeWord (s.physNat y.hpa 4) (s.physNat pa 4)))
      | _, _ => s
    s.mergeGrad ctx src dst l

/-- `REPLICA_RETIRE`: a drained replica that no pinned version lists is merged, scrubbed and freed (R317 steps 4 and 5); one on a
failed die goes without its merge (R319). -/
def execReplicaRetire (tbl serial : Nat) (s : State) : Out :=
  match s.tables.find? tbl with
  | none => .next s
  | some t =>
    match t.drain.find? fun q => q.2.serial = serial with
    | none => .next s
    | some (e, r) =>
      let quiet := match s.net (.cap tbl serial) with | some n => n.quiet | none => true
      if !quiet || (t.vers.any fun v => listed v.2 serial && s.pinned tbl v.1) then .next s
      else
        match (t.at_ t.cur)[e]? with
        | none => .next (s.modTable tbl fun t => { t with drain := t.drain.filter fun q => q.2.serial ≠ serial })
        | some x =>
          let dead := s.failed.getLsbD r.die
          let s := match x.reps.head? with
            | some r0 =>
              if t.merge ∧ !dead ∧ r.gbase ≠ 0 ∧ r0.gbase ≠ 0 then
                s.mergeGrad t.ctx r.gbase r0.gbase ((List.range (x.gbytes / 4)).map (4 * ·))
              else s
            | none => s
          let s := s.scrubReplica t.ctx x r
          let s := (s.endNet (.cap tbl serial)).modTable tbl fun t =>
            { t with drain := t.drain.filter fun q => q.2.serial ≠ serial, bases := t.bases.del serial }
          .next ((s.calderaEvent tbl r.die e t.cur (if dead ∧ t.merge ∧ r.gbase ≠ 0 then 6 else 2)).prune tbl)

/-! A die fails (R319). -/

/-- The replicas of an expert that some live version lists on a surviving die. -/
def State.survivors (s : State) (t : RTable) (e : Nat) : List Replica :=
  (t.vers.flatMap fun v => match v.2[e]? with | some x => x.reps | none => []).filter fun r => !s.failed.getLsbD r.die
/-- Instances of an expert that are lost get replacements on its lowest surviving replica die, with B = 0 (R319). -/
def State.replaceNets (s : State) (k : Nat) (t : RTable) (e : Nat) : State :=
  match (s.survivors t e).map Replica.die with
  | [] => s
  | d :: ds =>
    let home := ds.foldl min d
    let again (s : State) (key : NetKey) : State := match s.net key with
      | some n => if n.lost then s.addNet key (calderaNet home (k / 64) t.ctx) else s
      | none => s
    let caps := (t.vers.flatMap fun v => match v.2[e]? with | some x => x.reps.map Replica.serial | none => []).eraseDups
    caps.foldl (fun s n =>
      let lost := match s.net (.cap k n) with | some q => q.lost | none => false
      let s := again s (.cap k n)
      if lost then s.modTable k fun t => { t with bases := t.bases.del n } else s) (again s (.spread k e))
/-- What Caldera does to a table when a die fails: copies to it fail, and those of experts that lose every replica with it; what drained on
it is retired without its merge, lost instances are replaced, and a version without the die's replicas is published at once, unless it is deferred. -/
def State.tableDie (s : State) (k die : Nat) : State :=
  match s.tables.find? k with
  | none => s
  | some t =>
    let sourceless (c : RCopy) : Bool := match (t.at_ t.cur)[c.expert]? with | some x => x.reps.all fun r => r.die = die | none => true
    let s := (t.copies.filter fun c => c.rep.die = die || sourceless c).foldl (fun s c => s.copyFail k c) s
    let s := (t.drain.filter fun q => q.2.die = die).foldl (fun s q =>
      let s := match (t.at_ t.cur)[q.1]? with | some x => s.scrubReplica t.ctx x q.2 | none => s
      (((s.endNet (.cap k q.2.serial)).modTable k fun t =>
        { t with drain := t.drain.filter fun p => p.2.serial ≠ q.2.serial, bases := t.bases.del q.2.serial }).calderaEvent
          k die q.1 t.cur 6).prune k) s
    let es := (t.at_ t.cur).map fun x => { x with reps := x.reps.filter fun r => r.die ≠ die }
    let s := (List.range es.length).foldl (fun s e => s.replaceNets k t e) s
    if es = t.at_ t.cur then s
    else if s.fifth k then (s.modTable k fun t => { t with pub := t.pub || t.fixed }).calderaEvent k t.home 0 (nextVer t.cur) 4
    else (s.setVersion k es).calderaEvent k t.home 0 (nextVer t.cur) 3

/-- Zero-fills and frees the twin sets that Caldera holds for a table (R339). -/
def State.freeCaldera (s : State) (k : Nat) : State :=
  match s.tables.find? k with
  | none => s
  | some t =>
    let s := t.copies.foldl (fun s c => s.endCopyLease k c.rep.serial) s
    let sets := (t.vers.flatMap fun v => v.2.flatMap Expert.reps) ++ t.drain.map Prod.snd ++ t.copies.map RCopy.rep
    (sets.filterMap Replica.set).eraseDups.foldl (fun s n => match s.twins.find? n with
      | some w => { s.physZero w.base w.span with twins := s.twins.del n }
      | none => s) s

end Sys2Proof.Machine
end

