-- ==== Sys2Proof/Machine/Isolation.lean ====
section
/-! DEFINITION. Invalidation, the dirty harvest, scrubbing, seals, and the steps of walkers, page requests and the scanner
(19_isolation.md R331 to R346; 21_traps.md R376; 03_formats.md R57). -/

namespace Sys2Proof.Machine

/-- A privileged instruction (R9, R327, R352): outside a supervisor core or context, or beyond a partition supervisor's
authority, it takes the privilege trap. -/
def State.guarded (s : State) (op : Nat) (allowed : Bool) (k : State → Out) : Out :=
  if s.isSup && allowed then k s else s.privilege op
/-- A partition that the core may name: any for the physical function's own, else its own (R327). -/
def State.mayName (s : State) (p : Nat) : Bool := s.isPF || s.myPart = p

/-! Invalidation (R345). -/

/-- Every TLB of the module drops the entries that a test picks; accesses translated through them are performed first. -/
def State.dropTlb (s : State) (p : TlbEntry → Bool) : State :=
  let s := s.bring fun _ _ => 3
  let f (c : Core) : Core := { c with tlb := c.tlb.filter fun e => !p e }
  { s with core := f s.core, others := s.others.map fun e => (e.1, f e.2)
           l2tlb := s.l2tlb.map fun e => (e.1, e.2.filter fun t => !p t) }

/-- Some engine unit of a core or pooled engine has been translated, perhaps through an entry that a test picks, and has not
been performed (R345): a unit keeps no virtual address, so that it counts for every page of its context. -/
def State.unitsThrough (s : State) (p : TlbEntry → Bool) : Bool :=
  let via (ctx : Nat) (q : Option Place) : Bool := match q with
    | some (.mem ps) => ps.any fun m =>
        p { ctx := ctx, vpage := 0, gpa := m.gpa, hpa := m.hpa, size := 0, bits := 0, set := 0, vsize := 2 ^ 64, gsize := 2 ^ 39 }
    | _ => false
  let x (ctx : Nat) (x : Xfer) : Bool := (x.ready.any fun q => via ctx (some q.place)) || x.held.any fun h => via ctx h.place
  (s.allCores.any fun c => c.engine.any fun e => x c.ctx e.xfer) ||
    s.leases.any fun e => e.2.cmds.any fun m => x e.2.ctx m.xfer
/-- `TLBI` of a partition or one of its contexts: `bits` are the operand bits that may be set (R345). It waits while a unit
translated through a dropped entry has not been performed. -/
def tlbi (a : XReg) (rd : List XReg) (bits : Nat) (p : Nat → TlbEntry → Bool) (s : State) : Out :=
  issue { x := a :: rd } {} s fun s =>
    let w := (s.core.rx a).toNat
    s.guarded 0x7B (s.mayName (w % 64)) fun s =>
      if w &&& bits ≠ w then s.illegal 0x7B
      else s.classX 0x7B fun s => .next (if s.unitsThrough (p w) then s.wait else (s.dropTlb (p w)).retire)
/-- The context that an operand names. -/
def tlbiCtxOf (w : Nat) : Nat := 16 * (w % 64) + fld w 8 4
/-- `TLBI.vf` (R345). -/
def execTlbiVf (a : XReg) (s : State) : Out := tlbi a [] 0x3F (fun w e => decide (e.ctx / 16 = w % 64)) s
/-- `TLBI.ctx` (R345). -/
def execTlbiCtx (a : XReg) (s : State) : Out := tlbi a [] 0xF3F (fun w e => decide (e.ctx = tlbiCtxOf w)) s
/-- `TLBI.va` (R345). -/
def execTlbiVa (a b : XReg) (s : State) : Out :=
  let v := (s.core.rx b).toNat
  tlbi a [b] 0xF3F (fun w e => decide (e.ctx = tlbiCtxOf w) && decide (e.vpage / e.vsize = v / e.vsize)) s
/-- `TLBI.gpa` (R345). -/
def execTlbiGpa (a b : XReg) (s : State) : Out :=
  let g := (s.core.rx b).toNat
  tlbi a [b] 0x3F (fun w e => decide (e.ctx / 16 = w % 64) && decide (e.gpa / e.gsize = g / e.gsize)) s
/-- `TLBI.all` (R345). -/
def execTlbiAll (s : State) : Out :=
  s.guarded 0x7B s.isPF fun s => s.classX 0x7B fun s =>
    .next (if s.unitsThrough (fun _ => true) then s.wait else (s.dropTlb fun _ => true).retire)

/-! The dirty harvest (R341). -/

/-- `DHARV` (R341). -/
def execDharv (d a b : XReg) (s : State) : Out :=
  issue { x := [a, b] } { x := [d] } s fun s =>
    let w := (s.core.rx a).toNat
    let g := (s.core.rx b).toNat
    s.guarded 0x7C (s.mayName (w % 64)) fun s =>
      let p := s.part (w % 64)
      if w ≥ 64 ∨ g % 2 ^ 21 ≠ 0 ∨ g ≥ p.dspan ∨ p.dlog = 0 then s.illegal 0x7C
      else s.classX 0x7C fun s =>
        let h := p.dlog + 8 * (g / 2 ^ 21)
        let v := s.physNat h 8
        .next ((s.physPut h 8 0).upd (·.lateX d (BitVec.ofNat 64 v))).retire

/-! Scrubbing (R346). -/

/-- A range that `SCRUB.mem` takes: whole granules of one region of the device's own memory (R346). -/
def scrubOk (a n : Nat) : Bool :=
  a % 32768 = 0 && n % 32768 = 0 && 32768 ≤ n && n ≤ 2 ^ 30 && !isHost a && !hpaReserved a && !hpaReserved (a + n - 1) &&
    hpaRegion a = hpaRegion (a + n - 1)
/-- `SCRUB.mem` (R346). -/
def execScrubMem (d a b : XReg) (s : State) : Out :=
  issue { x := [a, b] } { x := [d] } s fun s =>
    let h := (s.core.rx a).toNat
    let n := (s.core.rx b).toNat
    s.guarded 0x7F s.isPF fun s =>
      if !scrubOk h n then s.illegal 0x7F
      else s.classX 0x7F fun s => .next (((s.fence s.core.id).physZero h n).upd (·.lateX d 0)).retire

/-- A slice that runs a task: its quadrant is reserved or one of its cores is not idle (R346). -/
def State.sliceRuns (s : State) (sl : Nat) : Bool :=
  s.sliceBusy sl || (s.coreAt (2 * sl)).role != .idle || (s.coreAt (2 * sl + 1)).role != .idle
/-- A core with its registers zero-filled, special registers and loop levels among them, and with `share` its share and full
bits too (R346). -/
def Core.scrub (c : Core) (share : Bool) : Core :=
  let c := { c with
    x := Vector.replicate 64 0, v := Vector.replicate 16 0, p := Vector.replicate 8 0, xPoison := 0, vPoison := 0, pPoison := 0, xBad := 0, vBad := [], pBad := 0, sBad := [], lBad := 0
    loops := Vector.replicate 3 LoopLevel.off, watch := Watch.off, pc := 0, npc := 0, vs := 0, fflags := 0, frm := 0, dom := 0
    srseed := 0, task := 0, steep := 0, steepPc := 0, steepLc := 0, trap := 0, mErr := none, mvbFlags := 0, ctl := Control.empty }
  if share then { c with share := [], full := [], poison := [] } else c
/-- What launches for which `mine` holds, or none, have left on a slice is zero-filled: shares and quadrants kept aside, and
unless a task runs there the quadrant and the two cores (R339, R346, R370). -/
def State.scrubData (s : State) (sl : Nat) (mine : Nat → Bool) : State :=
  let s := { s with launches := s.launches.map fun (e : Nat × Launch) => if mine e.1 then
      (e.1, { e.2 with qstash := e.2.qstash.del sl
                       stash := e.2.stash.map fun (k : Stash) =>
                         if sliceOf k.core = sl then { k with share := [], full := [], poison := [] } else k })
    else e }
  if s.sliceRuns sl then s
  else
    let s := s.modCluster (sl / 4) fun k =>
      { k with quads := k.quads.mapIdx fun i (q : Quad) => if i = sl % 4 ∧ mine q.owner then { q.clear with owner := q.owner } else q }
    let one (s : State) (n : Nat) : State := s.modCore n fun c => c.scrub (mine c.launch.toNat)
    one (one s (2 * sl)) (2 * sl + 1)
/-- The cores of a slice that has been scrubbed are unsealed, and it comes back into service (R376, R386). -/
def State.reopenSlice (s : State) (sl : Nat) : State :=
  let back (c : Core) : Core := { c with sealed := false, contained := false }
  let s := (s.modCore (2 * sl) back).modCore (2 * sl + 1) back
  { s with out := s.out.filter (· ≠ sl) }
/-- A slice zero-filled, whatever it holds (R339, R346). -/
def State.scrubSlice (s : State) (sl : Nat) : State := (s.scrubData sl fun _ => true).reopenSlice sl
/-- `SCRUB.slice` (R346). -/
def execScrubSlice (d a : XReg) (s : State) : Out :=
  issue { x := [a] } { x := [d] } s fun s =>
    let sl := (s.core.rx a).toNat
    s.guarded 0x7F s.isPF fun s =>
      if sl ≥ 2048 then s.illegal 0x7F
      else s.classX 0x7F fun s =>
        if s.sliceRuns sl then .next (s.upd (·.lateX d (refused 2))).retire
        else .next ((s.scrubSlice sl).upd (·.lateX d 0)).retire

/-! Seals (R376). -/

/-- A core that `SEAL` may name (R376). -/
def State.maySeal (s : State) (w : Word) : Bool := s.isPF || s.corePart (w.toNat % 4096) = some s.myPart
/-- `SEAL` in its three forms: the previous state, and the new one (R376). -/
def sealCore (set : Option Bool) (d a : XReg) (s : State) : Out :=
  issue { x := [a] } { x := [d] } s fun s =>
    let w := s.core.rx a
    s.guarded 0x7E (s.maySeal w) fun s =>
      if w.toNat ≥ 4096 then s.illegal 0x7E
      else s.classX 0x7E fun s =>
        let old := (s.coreAt w.toNat).sealed
        let s := match set with
          | some b => s.modCore w.toNat fun c => { c with sealed := b }
          | none => s
        .next (s.upd (·.lateX d (if old then 1 else 0))).retire
/-- `SEAL.q` (R376). -/
def execSealQ (d a : XReg) (s : State) : Out := sealCore none d a s
/-- `SEAL.on` (R376). -/
def execSealOn (d a : XReg) (s : State) : Out := sealCore (some true) d a s
/-- `SEAL.off` (R376). -/
def execSealOff (d a : XReg) (s : State) : Out := sealCore (some false) d a s

/-! Steps of the translation hardware. -/

/-- `CODE_GRANULE_SCAN`: a granule without a scan record is scanned (R57). -/
def execCodeGranuleScan (hpa : Nat) (s : State) : Out := .next (s.scanned (hpa / 32768)).1

/-- The access kinds by code (R335). -/
def Acc.ofCode (n : Nat) : Acc := if n = 0 then .read else if n = 1 then .write else if n = 2 then .fetch else .atomic
/-- `PAGE_WALK`: a die walker fills the TLBs (R331, R333); for a core that waits in an access of the context, a stage-2 fault
files its page request (R335). -/
def execPageWalk (ctx : Nat) (va : Word) (acc : Nat) (s : State) : Out :=
  if ctx = s.core.ctx ∧ s.core.waiting then
    .next (match s.translate s.me va.toNat (Acc.ofCode acc) with
      | .ok s _ => s
      | .wait s => s
      | .fault _ _ _ => s)
  else
    .next (match s.walk ctx va.toNat (Acc.ofCode acc) with
      | .ok x => (s.grants ctx va.toNat).fillTlb s.core.id x.ent
      | _ => s)

/-- `PAGE_REQUEST_REPLY`: the next record of a partition's reply ring (R336). On retry every waiter walks again; on fail each
takes its fault when its turn comes (R337, R338). -/
def execPageRequestReply (part : Nat) (s : State) : Out :=
  let p := s.part part
  let prod := s.physNat p.rpl 8
  let cons := s.physNat (p.rpl + 8) 8
  if p.rpl = 0 ∨ prod ≤ cons then .next s
  else
    let r := s.physRead (p.rpl + 64 + 16 * (cons % 256)) 16
    let s := s.physPut (p.rpl + 8) 8 (cons + 1)
    let rid := leNat (r.take 2)
    let code := (r.getD 2 0).toNat
    match p.reqs.find? fun q => q.rid = rid with
    | some q =>
      if code > 1 ∨ (r.drop 3).any (· ≠ 0) then .next (s.event s.eventDie 0x0F part 0xFFFF none none)
      else
        let s := s.modPart part fun p =>
          { p with reqs := p.reqs.filter fun q => q.rid ≠ rid, fails := p.fails ++ if code = 1 then q.waiters else [] }
        .next (q.waiters.foldl (fun s w => match w.who with | .launch lid => s.settleLaunch lid | _ => s) s)
    | none => .next (s.event s.eventDie 0x0F part 0xFFFF none none)

end Sys2Proof.Machine
end

