-- ==== Sys2Proof/Machine/Configure.lean ====
section
/-! DEFINITION. `CFG` and its functions (19_isolation.md R347 to R352; 16_experts.md R307, R308). -/

namespace Sys2Proof.Machine

/-- The target operand's value (R347). -/
def CfgTarget.value (c : Core) : CfgTarget → Word
  | .reg b => c.rx b
  | .lit v => v
/-- The register that the target reads. -/
def CfgTarget.reads : CfgTarget → List XReg
  | .reg b => [b]
  | .lit _ => []

/-- The function ends with its result: 0, or a refusal code (R347). -/
def State.cfgEnd (s : State) (d : XReg) (code : Nat) : Out :=
  .next (s.upd (·.lateX d (if code = 0 then 0 else refused code))).retire

/-- What a function is given: its parameter block, the partition and the object (R347). -/
structure CfgArgs where
  blk  : List Byte
  part : Nat
  obj  : Nat
  deriving DecidableEq, Repr
/-- A number in the block. -/
def CfgArgs.get (g : CfgArgs) (o n : Nat) : Nat := recNat g.blk o n
/-- Bytes of the block that must be zero. -/
def CfgArgs.zeros (g : CfgArgs) (o n : Nat) : Bool := recNat g.blk o n = 0

/-- A `CFG` function with a block of `n` bytes (R347, R352): its issue checks, `pre` among them, the phase, the authority,
then its work. `auth` is whether a partition supervisor of its own partition may do it. -/
def configure (n : Nat) (auth : Bool) (d a : XReg) (t : CfgTarget) (pre : State → CfgArgs → Bool)
    (k : State → CfgArgs → Out) (s : State) : Out :=
  issue { x := a :: CfgTarget.reads t } { x := [d] } s fun s =>
    let c := s.core
    let at_ := c.rx a
    let w := (CfgTarget.value c t).toNat
    s.guarded 0x7D true fun s =>
      match (if n = 0 then some 0 else if at_.toNat % 64 = 0 then c.inShare at_ n else none) with
      | none => s.addrFault 0x7D at_.toNat
      | some o =>
        let g : CfgArgs := { blk := c.shareRead o n, part := w % 64, obj := fld w 16 16 }
        if fld w 6 10 ≠ 0 ∨ w / 2 ^ 32 ≠ 0 ∨ !pre s g then s.illegal 0x7D
        else s.classX 0x7D fun s =>
          if n ≠ 0 ∧ c.sharePoisoned o n then .next (s.consume at_.toNat)
          else if !s.isPF ∧ !(auth && decide (s.myPart = g.part)) then s.cfgEnd d 1
          else k s g
/-- No check of the function's own at issue. -/
def noIssueCheck (_ : State) (_ : CfgArgs) : Bool := true

/-! Partitions (R350). -/

/-- A quota summed over the partitions, one of them as it will be. -/
def State.quota (s : State) (p : Nat) (new : Nat) (f : Partition → Nat) : Nat :=
  ((s.parts.filter fun e => e.1 ≠ p).map fun e => f e.2).sum + new
/-- The block of `.part` breaks R350. -/
def partBad (g : CfgArgs) : Bool :=
  g.get 0 8 % 512 != 0 || hpaReserved (g.get 0 8) || g.get 24 1 > 7 || g.get 25 1 = 0 || g.get 26 1 > 64 || g.get 27 1 > 16 ||
    !g.zeros 28 4 || g.get 32 8 % 8 != 0 || g.get 40 8 % 2 ^ 21 != 0 || !g.zeros 48 16
/-- `CFG.part` (R348, R350). -/
def execCfgPart (d a : XReg) (t : CfgTarget) (s : State) : Out :=
  configure 320 false d a t noIssueCheck (fun s g =>
    let p := s.part g.part
    let new : BitVec 2048 := BitVec.ofNat 2048 (g.get 64 256)
    let moved := (List.range 2048).filter fun sl => new.getLsbD sl != p.slices.getLsbD sl
    let added := moved.filter fun sl => new.getLsbD sl
    if partBad g then s.cfgEnd d 3
    else if s.quota g.part (g.get 25 1) Partition.qs > 256 ∨ s.quota g.part (g.get 26 1) Partition.bal > 64 ∨
        s.quota g.part (g.get 27 1) Partition.lq > 16 then s.cfgEnd d 4
    else if moved.any (fun sl => s.sliceRuns sl) ∨ added.any (fun sl => (s.sliceHolder sl).isSome) then s.cfgEnd d 2
    else
      let s := added.foldl State.scrubSlice s
      (s.modPart g.part fun p =>
        { p with s2root := g.get 0 8, prq := g.get 8 8, rpl := g.get 16 8, pcap := g.get 24 1, qs := g.get 25 1
                 bal := g.get 26 1, lq := g.get 27 1, dlog := g.get 32 8, dspan := g.get 40 8, slices := new }).cfgEnd d 0) s

/-- Every slice of a partition is idle and every queue empty (R350). -/
def State.partIdle (s : State) (p : Nat) : Bool :=
  ((List.range 2048).all fun sl => !((s.part p).slices.getLsbD sl && s.sliceRuns sl)) &&
    s.queues.all fun e => e.2.part ≠ p || !e.2.holds
/-- The networks of a table go (R308), and with it what Caldera holds for it, scrubbed (R339). -/
def State.dropTable (s : State) (k : Nat) : State :=
  let s := s.freeCaldera k
  let mine (n : NetKey) : Bool := match n with | .spread t _ | .cap t _ | .flight t _ => t = k | _ => false
  { s with nets := s.nets.filter fun e => !mine e.1, tables := s.tables.del k }
/-- `CFG.pdel` (R348, R350). -/
def execCfgPdel (d a : XReg) (t : CfgTarget) (s : State) : Out :=
  configure 0 false d a t noIssueCheck (fun s g =>
    let p := g.part
    if (s.parts.find? p).isNone then s.cfgEnd d 5
    else if !s.partIdle p then s.cfgEnd d 2
    else
      let s := (List.range 256).foldl (fun s i => s.endNet (.part p i)) s
      let s := (List.range 64).foldl (fun s i => s.dropTable (64 * p + i)) s
      let s := { s with ctxs := s.ctxs.filter (fun e => e.1 / 16 ≠ p), images := s.images.filter (fun i => i.ctx / 16 ≠ p), queues := s.queues.filter (fun e => e.2.part ≠ p)
                        twins := s.twins.filter (fun e => e.2.part ≠ p), parts := s.parts.del p }
      s.cfgEnd d 0) s

/-! Contexts (R351, R373). -/

/-- The block of `.ctx` breaks R351. -/
def ctxBad (g : CfgArgs) : Bool :=
  g.get 0 8 % 512 != 0 || !addrOk (g.get 8 8) 1 || !addrOk (g.get 16 8) 1 || !addrOk (g.get 24 8) 1 ||
    !addrOk (g.get 32 8) 32768 || g.get 48 1 > 3 || g.get 49 1 < 4 || g.get 49 1 > 16 || !g.zeros 50 14
/-- Where the area starts and where its later granules lie, pinned (R351): nothing when one faults or the size is not as R373 asks. -/
def State.pinArea (s : State) (ctx va : Nat) : Option (List Nat) :=
  match s.ringAt ctx (va + 48) 8 .write with
  | some h =>
    let n := s.placesNat h
    if n = 0 ∨ n % 32768 ≠ 0 ∨ n / 2 ^ 57 ≠ 0 then none else (s.ringAt ctx va n .write).map fun l => l.map Prod.fst
  | none => none
/-- The context as its block sets it (R351). -/
def Context.from (c : Context) (g : CfgArgs) : Context :=
  { c with live := g.get 48 1 / 2 % 2 = 1, sup := g.get 48 1 % 2 = 1, s1root := g.get 0 8, tring := g.get 8 8
           savea := g.get 16 8, saveb := g.get 24 8, spill := g.get 32 8, splim := g.get 40 8, tlg := g.get 49 1
           cons := if c.tring = g.get 8 8 then c.cons else 0, badA := false, badB := false }
/-- A context with another stage-1 table holds none of the code that was loaded before (R33; log 17). -/
def State.dropCode (s : State) (k root : Nat) : State :=
  if (s.context k).s1root = root then s else { s with images := s.images.filter fun i => i.ctx ≠ k }
/-- `CFG.ctx` (R327, R348, R351). -/
def execCfgCtx (d a : XReg) (t : CfgTarget) (s : State) : Out :=
  configure 64 true d a t noIssueCheck (fun s g =>
    let k := 16 * g.part + g.obj
    if (s.parts.find? g.part).isNone ∨ g.obj ≥ 16 then s.cfgEnd d 5
    else if ctxBad g then s.cfgEnd d 3
    else if !s.isPF ∧ ((s.context k).sup ∨ g.get 48 1 % 2 = 1) then s.cfgEnd d 1
    else
      let s' := (s.dropCode k (g.get 0 8)).modCtx k fun c => c.from g
      match s'.pinArea k (g.get 16 8), s'.pinArea k (g.get 24 8) with
      | some la, some lb => (s'.modCtx k fun c => { c with pinA := la, pinB := lb }).cfgEnd d 0
      | _, _ => s.cfgEnd d 3) s

/-! Queues (R277, R348, R398). -/

/-- A queue as it is created. Its context is not among the parameters (log 20). -/
def State.newQueue (s : State) (q part cap : Nat) (dev : Bool) : State :=
  let k : Queue := { dev := dev, part := part, ctx := 16 * part + (Sys2Proof.Config.openContext s.free).toNat, cap := cap, recs := []
                     qbase := 0, qsize := 0, qwr := 0, qrd := 0, err := false, mapped := false, copy := [], since := 0, last := none }
  { s with free := s.free + 1, queues := s.queues.put q k }
/-- A capacity of a device queue (R348). -/
def capOk (n : Nat) : Bool := 2 ≤ n && n ≤ 65536 && 2 ^ n.log2 = n
/-- `CFG.queue` (R348). -/
def execCfgQueue (d a : XReg) (t : CfgTarget) (s : State) : Out :=
  configure 64 false d a t noIssueCheck (fun s g =>
    let op := g.get 0 1
    let q := g.obj
    let mine : Option Queue := match s.queues.find? q with | some k => if k.part = g.part then some k else none | none => none
    if (s.parts.find? g.part).isNone ∨ q ≥ 4096 then s.cfgEnd d 5
    else if op > 3 ∨ !g.zeros 1 3 ∨ !g.zeros 8 56 ∨ (if op = 1 then !capOk (g.get 4 4) else g.get 4 4 != 0) then s.cfgEnd d 3
    else if op ≤ 1 then
      if (s.queues.find? q).isSome then s.cfgEnd d 2 else (s.newQueue q g.part (g.get 4 4) (op = 1)).cfgEnd d 0
    else
      match mine with
      | none => s.cfgEnd d 5
      | some k =>
        if op = 2 then
          (((s.dropWaiter g.part (.queue q)).modQueue q fun k =>
            { k with qwr := 0, qrd := 0, err := false, recs := [], copy := [] }).touchQueue q).cfgEnd d 0
        else if k.active ∨ k.mapped then s.cfgEnd d 2
        else { s.dropWaiter g.part (.queue q) with queues := s.queues.del q }.cfgEnd d 0) s

/-! Counting instances, tables, classes and the rest (R348). -/

/-- The specification in a block (R258). -/
def CfgArgs.spec (g : CfgArgs) : ISpec := { w0 := g.get 0 8, w1 := g.get 8 8 }
/-- `CFG.inst` (R258, R270, R348). Destroying waits until nothing is in flight. -/
def execCfgInst (d a : XReg) (t : CfgTarget) (s : State) : Out :=
  configure 64 true d a t (fun s g => (g.spec.w0 = 0 && g.spec.w1 = 0) || !s.specBad g.part g.spec) (fun s g =>
    let k : NetKey := .part g.part g.obj
    if (s.parts.find? g.part).isNone ∨ g.obj ≥ 256 then s.cfgEnd d 5
    else if g.spec.w0 = 0 ∧ g.spec.w1 = 0 then
      match s.net k with
      | none => s.cfgEnd d (if s.core.waiting ∧ s.core.stage = 1 then 0 else 5)
      | some n =>
        if n.ops = [] then (s.endNet k).cfgEnd d 0 else .next ((s.endNet k).wait.upd fun c => { c with stage := 1 })
    else if (s.net k).isSome then s.cfgEnd d 2
    else (s.addNet k (g.spec.net g.part (16 * g.part))).cfgEnd d 0) s

/-- A replica record of 32 bytes (R307): nothing when it is malformed. -/
def replicaOf (bs : List Byte) (serial : Nat) : Option Replica :=
  let u := recNat bs
  if u 0 2 ≥ 4096 ∨ u 2 1 ≠ 1 ∨ u 3 1 ≠ 0 ∨ u 4 4 = 0 ∨ u 4 4 > 2 ^ 24 ∨ u 8 8 / 2 ^ 57 ≠ 0 ∨ u 16 8 / 2 ^ 57 ≠ 0 ∨ u 24 8 ≠ 0 then none
  else some { core := u 0 2, cap := u 4 4, wbase := u 8 8, gbase := u 16 8, serial := serial, set := none }
/-- Replica records one after another, with their serials. -/
def replicasOf (bs : List Byte) (serial : Nat) : Nat → Option (List Replica)
  | 0 => some []
  | n + 1 =>
    match replicaOf (bs.take 32) serial, replicasOf (bs.drop 32) (serial + 1) n with
    | some r, some l => some (r :: l)
    | _, _ => none
/-- No two replicas on one die (R307). -/
def diesDiffer (rs : List Replica) : Bool := (rs.map Replica.die).eraseDups.length = rs.length
/-- An expert record of 288 bytes (R307). -/
def expertOf (bs : List Byte) (serial : Nat) : Option Expert :=
  let u := recNat bs
  if u 0 1 > 8 ∨ u 1 1 > 1 ∨ u 2 6 ≠ 0 ∨ u 8 8 % 32768 ≠ 0 ∨ u 24 8 ≠ 0 then none
  else
    match replicasOf (bs.drop 32) serial (u 0 1) with
    | some rs => if diesDiffer rs then some { pol := u 1 1 = 1, wbytes := u 8 8, gbytes := u 16 8, reps := rs } else none
    | none => none
/-- Expert records one after another. -/
def expertsOf (bs : List Byte) (serial : Nat) : Nat → Option (List Expert)
  | 0 => some []
  | n + 1 =>
    match expertOf (bs.take 288) serial with
    | none => none
    | some x => (expertsOf (bs.drop 288) (serial + x.reps.length) n).map fun l => x :: l
/-- The header of an image breaks R307. -/
def imageBad (h : List Byte) : Bool :=
  let u := recNat h
  u 4 2 = 0 || u 4 2 > 512 || u 6 1 > 3 || u 7 1 != 0 || (u 8 4 != 0 && (u 8 4 < 500 || u 8 4 > 64000)) || u 16 48 != 0
/-- A threshold or interval, with the value that zero stands for (R307). -/
def orDefault (v dflt : Nat) : Nat := if v = 0 then dflt else v
/-- Creates a table with its instances (R307, R308): a refusal code, or the state. -/
def State.makeTable (s : State) (k home ctx : Nat) (h : List Byte) (es : List Expert) : Except Nat State :=
  let u := recNat h
  let p := k / 64
  let reps := es.flatMap Expert.reps
  let spreads := es.zipIdx.filterMap fun e => e.1.reps.head?.map fun r => (e.2, r.die)
  let uses (die : Nat) : Nat :=
    (reps.filter fun r => r.die = die).length + (spreads.filter fun q => q.2 = die).length + (if home = die then 1 else 0)
  if reps.any fun r => s.corePart r.core != some p then .error 3
  else if (List.range 16).any fun die => uses die > s.calderaRoom die then .error 4
  else
    let s := spreads.foldl (fun s q => s.addNet (.spread k q.1) (calderaNet q.2 p ctx)) s
    let s := reps.foldl (fun s r => s.addNet (.cap k r.serial) (calderaNet r.die p ctx)) s
    let s := s.addNet (.flight k 1) (calderaNet home p ctx)
    let ival := orDefault (u 8 4) 2000
    let t : RTable :=
      { ctx := ctx, home := home, merge := u 6 1 % 2 = 1, fixed := u 6 1 / 2 = 1, ival := ival, hot := orDefault (u 12 2) 32
        cold := orDefault (u 14 2) 4, cur := 1, vers := [(1, es)], serial := reps.length, bases := [], drain := [], loads := []
        copies := [], due := s.now + 1000 * ival, retire := [], pub := false }
    .ok { s with tables := s.tables.put k t }
/-- `CFG.rtab` (R307, R308, R348). -/
def execCfgRtab (d a : XReg) (t : CfgTarget) (s : State) : Out :=
  configure 64 true d a t noIssueCheck (fun s g =>
    let k := 64 * g.part + g.obj
    let va := g.get 0 8
    let home := g.get 8 4
    if (s.parts.find? g.part).isNone ∨ g.obj ≥ 64 then s.cfgEnd d 5
    else if va / 2 ^ 57 ≠ 0 then s.cfgEnd d 3
    else if va = 0 then
      match s.tables.find? k with
      | none => s.cfgEnd d 5
      | some t => if t.vers.any fun v => s.pinned k v.1 then s.cfgEnd d 2 else (s.dropTable k).cfgEnd d 0
    else if (s.tables.find? k).isSome then s.cfgEnd d 2
    else if home ≥ 16 ∨ !s.dieOfPart g.part home then s.cfgEnd d 3
    else
      (s.readVa s.me va 64).run fun s h =>
        if imageBad h then s.cfgEnd d 3
        else
          (s.readVa s.me (va + 64) (288 * recNat h 4 2)).run fun s b =>
            match expertsOf b 0 (recNat h 4 2) with
            | none => s.cfgEnd d 3
            | some es =>
              let own := decide (s.myPart = g.part)
              let ctx := if own then s.core.ctx else 16 * g.part + (Sys2Proof.Config.openContext s.free).toNat
              match (if own then s else { s with free := s.free + 1 }).makeTable k home ctx h es with
              | .error code => s.cfgEnd d code
              | .ok s => s.cfgEnd d 0) s

/-- 90 % of the rate in MB/s of the resource that a pair names (R3, R291, R395): HBM, LPDDR, the two meshes, the die-to-die
links, PCI Express. -/
def grantLimit (i : Nat) : Nat :=
  (match i with
    | 0 => 179200000
    | 1 => 2400000
    | 5 => 512000
    | i => Sys2Proof.Config.resourceRate i) * 9 / 10
/-- The sum of the rates granted on a resource, without one class. -/
def State.granted (s : State) (p cls : Nat) (i : Fin 6) : Nat :=
  (s.parts.map fun e => ((e.2.cls.filter fun q => e.1 ≠ p || q.1 ≠ cls).map fun q => q.2.rates[i].toNat).sum).sum
/-- `CFG.cls` (R291, R348). -/
def execCfgCls (d a : XReg) (t : CfgTarget) (s : State) : Out :=
  configure 96 false d a t noIssueCheck (fun s g =>
    if (s.parts.find? g.part).isNone ∨ g.obj = 0 ∨ g.obj ≥ 16 then s.cfgEnd d 5
    else if (List.finRange 6).any fun i => s.granted g.part g.obj i + g.get (16 * i.val) 8 > grantLimit i.val then s.cfgEnd d 4
    else
      let c : ClassCfg := { rates := Vector.ofFn fun i => BitVec.ofNat 64 (g.get (16 * i.val) 8)
                            bursts := Vector.ofFn fun i => BitVec.ofNat 64 (g.get (16 * i.val + 8) 8) }
      (s.modPart g.part fun p => { p with cls := p.cls.put g.obj c }).cfgEnd d 0) s

/-- `CFG.mwt` (R184, R348). -/
def execCfgMwt (d a : XReg) (t : CfgTarget) (s : State) : Out :=
  configure 64 false d a t noIssueCheck (fun s g =>
    if g.obj ≥ 4096 ∨ s.corePart g.obj ≠ some g.part then s.cfgEnd d 5
    else if g.get 0 1 = 0 ∨ g.get 0 1 > 4 then s.cfgEnd d 3
    else (s.modCore g.obj fun c => { c with weight := g.get 0 1 }).cfgEnd d 0) s

/-- `CFG.gw` (R317, R348). -/
def execCfgGw (d a : XReg) (t : CfgTarget) (s : State) : Out :=
  configure 32 false d a t noIssueCheck (fun s g =>
    if g.obj ≥ 16 then s.cfgEnd d 5
    else ({ s with gates := s.gates.put g.obj (BitVec.ofNat 256 (g.get 0 32)) }).cfgEnd d 0) s

/-- `CFG.twin` (R332, R348). -/
def execCfgTwin (d a : XReg) (t : CfgTarget) (s : State) : Out :=
  configure 64 false d a t noIssueCheck (fun s g =>
    if (s.parts.find? g.part).isNone then s.cfgEnd d 5
    else if g.get 0 8 % 65536 ≠ 0 ∨ g.get 8 8 % 65536 ≠ 0 ∨ g.get 16 1 > 1 then s.cfgEnd d 3
    else if g.get 16 1 = 0 then
      if (s.twins.find? g.obj).isSome then s.cfgEnd d 2
      else if g.get 8 8 = 0 ∨ hpaReserved (g.get 0 8) ∨ hpaReserved (g.get 0 8 + g.get 8 8 - 1) then s.cfgEnd d 3
      else
        let w : Twin := { part := g.part, base := g.get 0 8, span := g.get 8 8, sel := false, isOpen := false, epoch := 0, caldera := false }
        ({ s with twins := s.twins.put g.obj w }).cfgEnd d 0
    else
      match s.twins.find? g.obj with
      | none => s.cfgEnd d 5
      | some w =>
        if w.part ≠ g.part then s.cfgEnd d 5
        else if w.isOpen ∨ w.caldera then s.cfgEnd d 2
        else ({ s with twins := s.twins.del g.obj }).cfgEnd d 0) s

/-- The instances of new replicas of an expert: the capacity instances, and the spreading instance when it has none or has
lost it (R308, R319). -/
def State.addReplicas (s : State) (k e ctx : Nat) (all new : List Replica) : State :=
  let s := new.foldl (fun s r => s.addNet (.cap k r.serial) (calderaNet r.die (k / 64) ctx)) s
  let lost := match s.net (.spread k e) with | some n => n.lost | none => true
  match all.head? with
  | some r => if lost then s.addNet (.spread k e) (calderaNet r.die (k / 64) ctx) else s
  | none => s
/-- `CFG.rrep` (R348, R349). -/
def execCfgRrep (d a : XReg) (t : CfgTarget) (s : State) : Out :=
  configure 320 true d a t noIssueCheck (fun s g =>
    let k := 64 * g.part + g.obj
    match (if g.obj ≥ 64 then none else s.tables.find? k) with
    | none => s.cfgEnd d 5
    | some t =>
      let e := g.get 0 2
      let n := g.get 2 1
      match (t.at_ t.cur)[e]?, (if n = 0 ∨ n > 8 ∨ !g.zeros 3 61 then none else replicasOf (g.blk.drop 64) t.serial n) with
      | some x, some rs =>
        let all := x.reps ++ rs
        if (rs.any fun r => s.corePart r.core != some g.part || s.failed.getLsbD r.die) || !diesDiffer all then s.cfgEnd d 3
        else if all.length > 8 ∨ rs.any (fun r => s.calderaRoom r.die = 0) then s.cfgEnd d 4
        else if s.fifth k then s.cfgEnd d 2
        else
          let s := s.addReplicas k e t.ctx all rs
          let s := s.modTable k fun t => { t with serial := t.serial + n }
          let es := (t.at_ t.cur).mapIdx fun i y => if i = e then { y with reps := all } else y
          ((s.setVersion k es).calderaEvent k t.home e (nextVer t.cur) 7).cfgEnd d 0
      | _, _ => s.cfgEnd d 3) s

end Sys2Proof.Machine
end

