-- ==== Sys2Proof/Machine/Traps.lean ====
section
/-! DEFINITION. `TRAP`, `BRK`, `ERET`, `LIVE` and `YIELD`, and the steps of the ring writer (21_traps.md R360 to R365, R371,
R372). -/

namespace Sys2Proof.Machine

/-- `TRAP` (R364): the software trap; its resume position is the next instruction. -/
def execTrap (n : BitVec 11) (s : State) : Out := .next (s.raise 0x0A 0 n.toNat 0 (after := true))
/-- `BRK` (R364): the breakpoint, which with `brkhalt` stops the partition. -/
def execBrk (n : BitVec 11) (s : State) : Out := .next (s.raise 0x0B 0 n.toNat 0 (after := true))

/-! The return (R361, R365). -/

/-- `TRAP` and `BRK` have been issued: their slot is not passed again (R364, R365). -/
def Core.trapIssued (c : Core) : Bool := c.trap.toNat % 65536 = 0x0A || c.trap.toNat % 65536 = 0x0B
/-- `ERET` in its forms: the trapping member's slot may pass empty, and a chain of one core may go on at a target (R365). The
address at which the leader goes on is checked as a branch target, a fetch fault before the phase (R358); a fault there is
nested (R362). -/
def State.eret (s : State) (skip : Bool) (dest : Option Word) : Out :=
  match s.core.frame with
  | none => s.illegal 0x49
  | some f =>
    if dest.isSome ∧ s.core.members > 1 then s.illegal 0x49
    else
      match s.enter (dest.getD f.pc) with
      | .wait s => s.classX 0x49 fun s => .next s.freeze
      | .fault s cause a i0 i1 =>
        if cause = 0x07 then .next (s.raise cause a i0 i1) else s.classX 0x49 fun s => .next (s.raise cause a i0 i1)
      | .ok s _ => s.classX 0x49 fun s =>
        let s := s.upd fun c => c.tick.leaveHandler f
        let s := match dest with
          | some t => s.upd fun c => { c with pc := t, gap := 0, nopLeft := 0 }
          | none => s
        .next (if skip ∧ !s.core.trapIssued then s.modCore f.member fun c => { c with skip := true } else s)
/-- `ERET` (R365). -/
def execEret (s : State) : Out := s.eret false none
/-- `ERET.skip` (R365). -/
def execEretSkip (s : State) : Out := s.eret true none
/-- `ERET.to` (R365). -/
def execEretTo (a : XReg) (s : State) : Out :=
  issue { x := [a] } {} s fun s => s.eret false (some (s.core.rx a))

/-! Live points (R371, R372). -/

/-- The six share ranges of a live descriptor: offset and length. -/
def liveRanges (d : List Byte) : List (Nat × Nat) := (List.range 6).map fun i => (recNat d (16 + 8 * i) 4, recNat d (20 + 8 * i) 4)
/-- Reserved bits, or a range outside the share (R371). -/
def liveBad (share : Nat) (d : List Byte) : Bool :=
  recNat d 11 1 > 1 || recNat d 12 4 != 0 ||
    (liveRanges d).any fun r => r.2 != 0 && (r.1 % 16 != 0 || r.2 % 16 != 0 || decide (r.1 + r.2 > share))
/-- The descriptor that names everything (R372). -/
def liveAll (share : Nat) : List Byte :=
  List.replicate 11 0xFF ++ [1] ++ List.replicate 4 0 ++ leBytes 4 0 ++ leBytes 4 share ++ List.replicate 40 0

/-- A soft request that the leader finds pending; a follower does as its leader did at the same slot (R368, R371). -/
def State.livePending (s : State) : Bool :=
  if s.core.leads then (s.context s.core.ctx).soft.isSome
  else match s.core.feed with | e :: _ => e.live | [] => false
/-- A live point with its descriptor: the member retires with 1 and stops for a live save, or goes on with 0 (R371). -/
def State.livePoint (s : State) (d : XReg) (desc : List Byte) : Out :=
  if s.livePending then
    let s := (s.upd fun c => c.wx d 1 false).retire
    let id := s.core.id
    let s := (s.dropWaiter s.myPart (.core id)).upd fun c => { c.saveStop s.now with livePend := true }
    .next (s.modCtx s.core.ctx fun c => { c with saved := c.saved ++ [({ id := id, live := true, desc := desc } : SavedCore)] })
  else s.answer d 0

/-- `LIVE` at a descriptor address (R371). -/
def live (d : XReg) (a : Word) (s : State) : Out :=
  if s.core.frame.isSome then s.illegal 0x4A
  else match (if a.toNat % 64 = 0 then s.core.inShare a 64 else none) with
    | none => s.addrFault 0x4A a.toNat
    | some o =>
      if s.core.sharePoisoned o 64 then .next (s.consume a.toNat)
      else
        let desc := s.core.shareRead o 64
        if liveBad s.core.shareSize desc then s.illegal 0x4A
        else s.classX 0x4A fun s => s.livePoint d desc
/-- `LIVE xd, xb` (R371). -/
def execLive (d b : XReg) (s : State) : Out :=
  issue { x := [b] } { x := [d] } s fun s => live d (s.core.rx b) s
/-- `LIVE xd, =addr` (R371). -/
def execLiveLiteral (d : XReg) (v : Word) (s : State) : Out := issue {} { x := [d] } s fun s => live d v s

/-- `YIELD` (R372). -/
def execYield (d : XReg) (s : State) : Out :=
  issue {} { x := [d] } s fun s =>
    if s.core.frame.isSome then s.illegal 0x4B
    else s.classX 0x4B fun s => s.livePoint d (liveAll s.core.shareSize)

/-- What `YIELD.poll` answers (R372): whole microseconds are left. -/
def Preempt.poll (p : Preempt) (now : Nat) : Word :=
  let g := p.at_ + 1000 * p.g
  BitVec.ofNat 64 (if g ≤ now then 3 else 1 + 2 ^ 32 * min ((g - now) / 1000) (2 ^ 32 - 1))
/-- `YIELD.poll` (R372). -/
def execYieldPoll (d : XReg) (s : State) : Out :=
  issue {} { x := [d] } s fun s => s.classX 0x4B fun s =>
    s.answer d (match (s.context s.core.ctx).soft with | some p => p.poll s.now | none => 0)

/-! The ring writer (R360). -/

/-- `TRAP_RECORD_WRITE`: the records that wait at a context's ring are written while slots are free (R360). -/
def execTrapRecordWrite (ctx : Nat) (s : State) : Out := .next (s.ringFlush ctx (s.context ctx).wrecs.length)
/-- A record that has waited 1 µs and is not synchronous (R360). -/
def WaitRec.tired (r : WaitRec) (now : Nat) : Bool := r.at_ + 1000 ≤ now && (r.bytes.getD 2 0).toNat % 2 = 0
/-- `TRAP_RECORD_DROP`: the oldest asynchronous record of a context that has found its ring full for 1 µs is dropped (R360). -/
def execTrapRecordDrop (ctx : Nat) (s : State) : Out :=
  let s := s.ringFlush ctx (s.context ctx).wrecs.length
  match (s.context ctx).wrecs.find? fun r => r.tired s.now with
  | none => .next s
  | some r => .next ((s.ringLose ctx 0xFFFF false).modCtx ctx fun c => { c with wrecs := c.wrecs.erase r })

end Sys2Proof.Machine
end

