-- ==== Sys2Proof/Machine/Save.lean ====
section
/-! DEFINITION. The pre-emption ladder, save areas and resumption (21_traps.md R366 to R375). -/

namespace Sys2Proof.Machine

/-! Killing a context (R370). -/

/-- The slices that a context has run on, while they are its partition's (R370). -/
def State.ctxSlices (s : State) (ctx : Nat) : List Nat :=
  (s.context ctx).ran.filter fun sl => (s.part (ctx / 16)).slices.getLsbD sl
/-- A slice scrubbed after a kill as `SCRUB.slice` does: but what launches of other contexts keep there, or run there, stands (R370;
log 56). -/
def State.scrubAfter (s : State) (ctx sl : Nat) : State :=
  let s := s.scrubData sl fun lid => match s.launches.find? lid with | some l => l.ctx = ctx | none => true
  if s.sliceRuns sl then s else s.reopenSlice sl
/-- A queue loses its records: a child that was to be counts no longer for its parent (R286, R370). -/
def State.emptyQueue (s : State) (q : Nat) : State :=
  match s.queues.find? q with
  | none => s
  | some k =>
    let s := ((s.dropWaiter k.part (.queue q)).modQueue q fun k => { k with recs := [], qrd := k.qwr, copy := [] }).touchQueue q
    k.recs.foldl (fun s r => match r.parent with
      | none => s
      | some p => (s.modLaunch p fun l => { l with outst := l.outst - 1 }).settleLaunch p) s
/-- The code that was loaded in a context is announced no more (log 17). -/
def State.forgetCode (s : State) (ctx : Nat) : State := { s with images := s.images.filter fun i => i.ctx ≠ ctx }
/-- A context is killed and reset: its launches end with 0x81, its queues are emptied, its operations are compensated, the
slices it ran on are scrubbed, and a record with the ladder step follows (R370). -/
def State.killContext (s : State) (ctx step : Nat) : State :=
  let slices := s.ctxSlices ctx
  let lids := (s.launches.filter fun e => e.2.ctx = ctx).map Prod.fst
  let s := lids.foldl State.killLaunch s
  let s := ((s.allCores.filter fun c => c.ctx = ctx && c.role != .idle).map Core.id).foldl State.stopCore s
  let s := { s with others := s.others.filter fun e => e.1 < 65536 * (ctx + 1) || 65536 * (ctx + 2) ≤ e.1 }
  let s := ((s.queues.filter fun e => e.2.ctx = ctx).map Prod.fst).foldl State.emptyQueue s
  let s := slices.foldl (fun s sl => s.scrubAfter ctx sl) s
  ((s.modCtx ctx fun c => { c with pre := none, saved := [], sliced := [], stored := false, ran := [] }).forgetCode ctx).note
    { cause := 0x23, ctx := ctx, info0 := step }

/-! Areas (R373). -/

/-- The offset of a pinned area in the first of its granules: no rule aligns an area (R351, R373). -/
def areaStart (pin : List Nat) : Nat := pin.headD 0 % 32768
/-- The places of a range of a pinned area. -/
def areaPieces (pin : List Nat) (off n : Nat) : List (Nat × Nat) :=
  (granulePieces (n / 32768 + 2) (areaStart pin + off) n).map fun q =>
    (let g := pin.getD (q.1 / 32768) 0; g - g % 32768 + q.1 % 32768, q.2)
/-- A range of an area that can be written: inside it, in memory that works and meets no uncorrectable error (R373). -/
def State.areaOk (s : State) (pin : List Nat) (off n : Nat) : Bool :=
  off + n ≤ 32768 * (pin.length - (if areaStart pin = 0 then 0 else 1)) && (areaPieces pin off n).all fun q => !s.deadMem q.1 && !s.physPoison q.1 q.2
/-- Writes bytes into an area. -/
def State.areaWrite (s : State) (pin : List Nat) (off : Nat) (bs : List Byte) : State :=
  s.placesWrite (areaPieces pin off bs.length) bs
/-- Bytes of an area. -/
def State.areaRead (s : State) (pin : List Nat) (off n : Nat) : List Byte :=
  s.placesRead (areaPieces pin off n)
/-- A number in an area. -/
def State.areaNat (s : State) (pin : List Nat) (off n : Nat) : Nat := leNat (s.areaRead pin off n)

/-! Core records (R374). -/

/-- What a live save keeps (R371): everything in a full save. -/
structure Kept where
  x   : Nat
  v   : Nat
  p   : Nat
  mat : Bool
  rng : List (Nat × Nat)
  deriving DecidableEq, Repr
/-- What the save of a core keeps. -/
def SavedCore.kept (k : SavedCore) (share : Nat) : Kept :=
  if k.live then { x := recNat k.desc 0 8, v := recNat k.desc 8 2, p := recNat k.desc 10 1, mat := recNat k.desc 11 1 = 1
                   rng := liveRanges k.desc }
  else { x := 2 ^ 64 - 1, v := 2 ^ 16 - 1, p := 255, mat := true, rng := [(0, share)] }

/-- The bytes of three loop levels. -/
def loopBytes (ls : Vector LoopLevel 3) : List Byte :=
  ls.toList.flatMap fun q => leBytes 4 q.cnt.toNat ++ leBytes 4 q.active.toNat ++ leBytes 8 q.start.toNat ++ leBytes 8 q.stop.toNat
/-- The bytes of a watch. -/
def watchBytes (w : Watch) : List Byte := leBytes 8 w.addr.toNat ++ leBytes 8 w.seen.toNat ++ leBytes 8 w.armed.toNat
/-- Slots that a register's pending result has still to count: of several, the last to land (log 49). -/
def Core.slotsLeft (c : Core) (r : Regs) : Nat :=
  (c.pend.filter fun p => p.arr.isNone && p.hits r).foldl (fun m p => max m p.left) 0
/-- A core with its pending register results in place. -/
def Core.landed (c : Core) : Core := (inSlotOrder (c.pend.filter fun p => p.arr.isNone)).foldl Core.land c
/-- A value of the register file where a mask names the register. -/
def keepIf (mask i v : Nat) : Nat := if mask.testBit i then v else 0
/-- A value that a pending result will replace. -/
def replacedIf (left v : Nat) : Nat := if left = 0 then 0 else v
/-- Open bytes of a save area. -/
def openBytes (use n : Nat) : List Byte := (List.range n).map (Sys2Proof.Config.saveByte use)
/-- The 1,024 bytes of a held arrival's data: a scalar fills the first eight. -/
def Pend.data (p : Pend) : List Byte :=
  match p.land with
  | .v _ t _ => leBytes 1024 t.toNat
  | .x _ v => leBytes 8 v.toNat
  | _ => []

/-- The control block, registers and control page of a core record, as pieces with their offsets; `num` is the core's
number, `resume` its resume address, `stop` tells that its chain stands in a trap stop with the handler not yet entered, `use` numbers the
open bytes (R374). -/
def Core.record (c : Core) (num : Nat) (k : SavedCore) (resume : Word) (stop : Bool) (use : Nat) : List (Nat × List Byte) :=
  let m := k.kept c.shareSize
  let d := c.landed
  let f := c.frame.getD { pc := 0, slot := 0, phase := .exchange, loops := Vector.replicate 3 LoopLevel.off, watch := Watch.off
                          member := 0, npc := 0, gap := 0, nop := 0 }
  let held := c.pend.filter fun p => p.arr.isSome
  let xl (i : Fin 64) : Nat := keepIf m.x i (c.slotsLeft { x := [i] })
  let vl (i : Fin 16) : Nat := keepIf m.v i (c.slotsLeft { v := [i] })
  let pl (i : Fin 8) : Nat := keepIf m.p i (c.slotsLeft { p := [i] })
  [(0x000, leBytes 8 resume.toNat),
   (0x008, leBytes 8 ((c.phase = .compute : Bool).toNat + 2 * c.frame.isSome.toNat + 4 * stop.toNat + 8 * k.live.toNat + 16 * c.skip.toNat)),
   (0x010, leBytes 8 c.chainWord),
   (0x018, leBytes 8 (num % 4096 + 2 ^ 16 * c.nopLeft)),
   (0x020, loopBytes c.loops),
   (0x068, leBytes 8 c.vs.toNat ++ leBytes 8 (c.fflags.toNat + 2 ^ 8 * c.frm.toNat + 2 ^ 16 * c.dom.toNat) ++
     leBytes 8 c.srseed.toNat ++ leBytes 8 c.steep.toNat ++ leBytes 8 c.steepPc.toNat ++ leBytes 8 c.steepLc.toNat ++
     leBytes 8 c.trap.toNat),
   (0x0A0, watchBytes c.watch),
   (0x0B8, leBytes 8 f.pc.toNat ++ leBytes 8 (f.phase = .compute : Bool).toNat ++ loopBytes f.loops ++ watchBytes f.watch),
   (0x128, c.pins.toList.flatMap fun q => match q with
     | some q => leBytes 8 (q.tbl + 2 ^ 8 + 2 ^ 32 * q.ver) | none => leBytes 8 0),
   (0x148, leBytes 8 c.retired.toNat ++ leBytes 8 c.sent.toNat ++ leBytes 8 c.received.toNat),
   (0x160, ((List.finRange 64).map xl ++ (List.finRange 16).map vl ++ (List.finRange 8).map pl).flatMap (leBytes 1)),
   (0x1B8, leBytes 8 held.length),
   (0x1C0, leBytes 8 c.map.toNat ++ leBytes 8 c.shareSize ++ leBytes 8 c.sqn.toNat),
   (0x200, (List.finRange 64).flatMap fun (i : Fin 64) => leBytes 8 (keepIf m.x i d.x[i].toNat)),
   (0x400, (List.finRange 8).flatMap fun (i : Fin 8) => leBytes 4 (keepIf m.p i d.p[i].toNat)),
   (0x800, (List.finRange 16).flatMap fun (i : Fin 16) => leBytes 1024 (keepIf m.v i d.v[i].toNat)),
   (0x4800, (List.finRange 64).flatMap fun i => leBytes 8 (replacedIf (xl i) c.x[i].toNat)),
   (0x4A00, (List.finRange 8).flatMap fun i => leBytes 4 (replacedIf (pl i) c.p[i].toNat)),
   (0x4C00, (List.finRange 16).flatMap fun i => leBytes 1024 (replacedIf (vl i) c.v[i].toNat)),
   (0x8C00, (held.take 8).zipIdx.flatMap fun q => openBytes (use + q.2) 64),
   (0x9000, (held.take 8).flatMap fun p => p.data ++ List.replicate (1024 - p.data.length) 0),
   (0xB000, c.ctlRead 0 0x400)]

/-- The bits of full granules, eight to a byte. -/
def fullBytes (full : List Nat) (granules : Nat) : List Byte :=
  (List.range ((granules + 7) / 8)).map fun i =>
    BitVec.ofNat 8 ((List.range 8).foldl (fun a j => if full.contains (8 * i + j) then a + 2 ^ j else a) 0)
/-- A granule of the share that a save keeps. -/
def Kept.granule (m : Kept) (g : Nat) : Bool := m.rng.any fun r => r.1 ≤ 16 * g && 16 * g < r.1 + r.2
/-- A share image: the bytes of the ranges kept, then the full bits of their granules (R374). -/
def Core.image (c : Core) (m : Kept) : List Byte :=
  (List.range (c.shareSize / 16)).flatMap (fun g => if m.granule g then c.shareRead (16 * g) 16 else List.replicate 16 0) ++
    fullBytes (c.full.filter m.granule) (c.shareSize / 16)
/-- The bytes that a share image takes up: whole 32 KiB. -/
def imageSize (share : Nat) : Nat := (share + share / 128 + 32767) / 32768 * 32768
/-- Bytes of a slice record. -/
def sliceSize : Nat := 327680
/-- A slice record (R374). -/
def SavedSlice.record (k : SavedSlice) (use : Nat) : List (Nat × List Byte) :=
  [(0, openBytes use 4096), (0x1000, k.quad.weights.read 0 61440), (0x10000, k.quad.bank0.read 0 131072),
   (0x30000, k.quad.bank1.read 0 131072)]

/-! Saving (R369, R373). -/

/-- Places the records and images of the saved cores one after another. -/
def placeImages (s : State) : Nat → Nat → List SavedCore → List SavedCore × Nat
  | _, img, [] => ([], img)
  | i, img, k :: l =>
    let (r, e) := placeImages s (i + 1) (img + imageSize (s.coreAt k.id).shareSize) l
    ({ k with at_ := 4096 + 65536 * i, img := img } :: r, e)
/-- The slices that the saved cores hold and that a save keeps, with their records' offsets (R200, R371). -/
def State.heldSlices (s : State) (ks : List SavedCore) (base : Nat) : List SavedSlice :=
  let all := (ks.flatMap fun k =>
    let c := s.coreAt k.id
    if (k.kept c.shareSize).mat then ((List.range 4).filter fun q => c.held.getLsbD q).map (4 * clusterOf k.id + ·) else []).eraseDups
  all.zipIdx.map fun q => { slice := q.1, at_ := base + sliceSize * q.2, mode := (s.cluster (q.1 / 4)).mode
                            quad := (s.cluster (q.1 / 4)).quads[q.1 % 4]?.getD Quad.reset }
/-- A save as it will lie in an area. -/
structure Layout where
  cores  : List SavedCore
  slices : List SavedSlice
  used   : Nat
  deriving DecidableEq, Repr
/-- The layout of a context's save. -/
def State.layout (s : State) (ks : List SavedCore) : Layout :=
  let (cs, e) := placeImages s 0 ((4096 + 65536 * ks.length + 32767) / 32768 * 32768) ks
  let sl := s.heldSlices cs e
  { cores := cs, slices := sl, used := e + sliceSize * sl.length }

/-- The chain of a saved core stands in a trap stop whose records are not all written (R360, R374). -/
def State.stopPending (s : State) (c : Core) : Bool :=
  c.chain.ids.any fun n => let d := s.coreAt n; d.role = .saved && d.chain.leader = c.chain.leader && d.raised.isSome

/-- A saved core's resume address (R374): a follower's is that of the instruction it issues next, its leader's where it has been handed
none (R361). -/
def State.resumePc (s : State) (c : Core) : Word :=
  if c.leads ∨ c.nopLeft > 0 then c.pc
  else
    match c.feed.find? fun e => c.slot ≤ e.slot with
    | some e => e.pc
    | none => let l := s.coreAt c.chain.leader; match l.frame with | some f => f.pc | none => l.pc

/-- Writes a save into an area: `sstate` 1, the records, then `sstate` 2 (R373). -/
def State.writeArea (s : State) (pin : List Nat) (l : Layout) (stime : Nat) : State :=
  let gen := s.areaNat pin 8 8 + 1
  let s := s.areaWrite pin 0 (leBytes 8 1 ++ leBytes 8 gen)
  let s := s.areaWrite pin 4096 (List.replicate (l.used - 4096) 0)
  let s := l.cores.foldl (fun s k =>
    let c := s.coreAt k.id
    let s := (c.record k.id k (s.resumePc c) (s.stopPending c) s.free).foldl (fun s q => s.areaWrite pin (k.at_ + q.1) q.2) s
    { s.areaWrite pin k.img (c.image (k.kept c.shareSize)) with free := s.free + 8 }) s
  let s := l.slices.foldl (fun s k =>
    { (k.record s.free).foldl (fun s q => s.areaWrite pin (k.at_ + q.1) q.2) s with free := s.free + 1 }) s
  let s := s.areaWrite pin 16 (leBytes 4 l.cores.length ++ leBytes 4 l.slices.length ++ leBytes 8 l.used ++ leBytes 8 stime)
  s.areaWrite pin 0 (leBytes 8 2)

/-- A core under another number: its own, its leader's, its rectangle's, and those of diversions it has yet to meet. -/
def Core.renumber (f : Nat → Nat) (c : Core) : Core :=
  { c with id := f c.id, chain := { c.chain with leader := f c.chain.leader }, rect := { c.rect with origin := f c.rect.origin }
           frame := c.frame.map fun t => { t with member := f t.member }
           feed := c.feed.map fun e => match e.ins with
             | .steepDiversion n => { e with ins := .steepDiversion (f n) }
             | _ => e }
/-- The domain of a barrier whose members go under other numbers (R17). -/
def Barrier.domAt (b : Barrier) (ids : List Nat) (f : Nat → Nat) : Nat :=
  match b.members with
  | [] => if b.level = 0 ∧ ids.contains b.dom then f b.dom else b.dom
  | n :: _ =>
    if !(b.members.all ids.contains) then b.dom
    else if b.level = 0 then f b.dom
    else if f n ≥ 4096 then b.dom
    else if b.level = 1 then clusterOf (f n) else if b.level = 2 then dieOf (f n) * 4 + rowOf (f n) / 2
    else if b.level = 3 then dieOf (f n) else b.dom
/-- A launch whose cores `ids` go under other numbers: running tasks and barriers (R233, R375). -/
def Launch.renumber (ids : List Nat) (f : Nat → Nat) (l : Launch) : Launch :=
  let g (n : Nat) : Nat := if ids.contains n then f n else n
  { l with run := l.run.map fun r => if r.left.any ids.contains then { r with origin := f r.origin, left := r.left.map g } else r
           bars := l.bars.map fun b =>
             { b with dom := b.domAt ids f, members := b.members.map g, here := b.here.map g, owed := b.owed.map g } }
/-- What a live save does not keep is lost: marks of registers and poisoned words (R371). -/
def Core.trim (c : Core) (m : Kept) : Core :=
  { c with xPoison := c.xPoison &&& BitVec.ofNat 64 m.x, vPoison := c.vPoison &&& BitVec.ofNat 16 m.v
           pPoison := c.pPoison &&& BitVec.ofNat 8 m.p, poison := c.poison.filter fun d => m.granule (d / 2) }
/-- A mesh core without a task: what belongs to the core and not to the task stays. -/
def Core.vacant (c : Core) : Core :=
  { Core.reset c.id with weight := c.weight, sealed := c.sealed, contained := c.contained, tlb := c.tlb, events := c.events
                         tally := c.tally }
/-- A record that waits for a core follows it under another number. -/
def State.followRec (s : State) (ctx a b : Nat) : State :=
  s.modCtx ctx fun c => { c with wrecs := c.wrecs.map fun (r : WaitRec) => if r.who = some a then { r with who := some b } else r }
/-- The saved cores of a context leave the mesh: the machine keeps each under its own number (R369; log 22). -/
def State.offload (s : State) (ctx : Nat) : State :=
  let ks := (s.context ctx).saved
  let ids := ks.map SavedCore.id
  let f (n : Nat) : Nat := if n < 65536 then awayId ctx n else n
  let s := ks.foldl (fun s k =>
    let s := s.fence k.id
    let c := s.coreAt k.id
    let d := { (c.trim (k.kept c.shareSize)).renumber f with tlb := [], sealed := false, contained := false }
    ((s.setCore d).modCore k.id Core.vacant).followRec ctx k.id d.id) s
  let s := { s with launches := s.launches.map fun e =>
    if e.2.ctx = ctx then (e.1, { e.2.renumber ids f with cores := e.2.cores.filter fun n => !ids.contains n }) else e }
  ((ids.map clusterOf).eraseDups.foldl State.syncWindow s).modCtx ctx fun c => { c with stored := true }

/-- Every core of the context has stopped, and what it issued to its engines, units and networks has ended (R369). -/
def State.saveReady (s : State) (ctx : Nat) : Bool :=
  let c := s.context ctx
  c.pre.isSome && c.saved != [] && !c.stored &&
    s.allCores.all fun k => k.ctx != ctx || k.role = .idle ||
      (k.role = .saved && k.engine = [] && k.matrix = [] && !(s.stack.any fun q => q.core = k.id && q.launch = k.launch) &&
        !(s.drains.any fun d => d.launch = k.launch && (d.core = k.id || d.items.any fun i => i.dest = k.id)) &&
        !(s.nets.any fun e => (e.2.mine k.id).isSome))
/-- A failed area (R373). -/
def State.areaFail (s : State) (ctx : Nat) (b : Bool) : State :=
  let c := s.context ctx
  let s := s.areaWrite (if b then c.pinB else c.pinA) 0 (leBytes 8 3)
  (s.modCtx ctx fun c => if b then { c with badB := true } else { c with badA := true }).note
    { cause := 0x22, ctx := ctx, addr := if b then c.saveb else c.savea }
/-- The cores whose tasks still run, in record order: a core that a containment has taken out is not saved (R390). -/
def State.stillSaved (s : State) (ctx : Nat) : List SavedCore :=
  (s.context ctx).saved.filter fun k => let c := s.coreAt k.id; c.role = .saved && c.ctx = ctx
/-- `FULL_SAVE`: the state of a context goes to area A, to area B when A fails, or the context is killed (R369, R373). -/
def execFullSave (ctx : Nat) (s : State) : Out :=
  if !s.saveReady ctx then .next s
  else
    let s := s.modCtx ctx fun c => { c with saved := s.stillSaved ctx }
    let c := s.context ctx
    let l := s.layout c.saved
    let stime := match c.pre with | some p => p.halt.getD s.now | none => s.now
    let keep (s : State) (pin : List Nat) : State :=
      ((s.writeArea pin l stime).modCtx ctx fun c => { c with saved := l.cores, sliced := l.slices }).offload ctx
    if !c.badA ∧ s.areaOk c.pinA 0 l.used then .next (keep s c.pinA)
    else
      let s := if c.badA then s else s.areaFail ctx false
      if !c.badB ∧ s.areaOk c.pinB 0 l.used then .next (keep s c.pinB)
      else
        let s := s.modCtx ctx fun c => { c with badB := true }
        .next (s.killContext ctx 4)

/-! The ladder (R367 to R370). -/

/-- A time of a request, 0 selecting the default (R367). -/
def orElse0 (v d : Nat) : Nat := if v = 0 then d else v
/-- `PREEMPT_REQUEST` (R367). A context on which one stands keeps it. -/
def execPreemptRequest (ctx g k : Nat) (s : State) : Out :=
  .next (if (s.context ctx).pre.isSome then s
    else s.modCtx ctx fun c => { c with pre := some { at_ := s.now, g := orElse0 g 50, k := orElse0 k 500, halt := none } })
/-- `PREEMPT_GRACE_EXPIRY`: at G the cores that still run stop for full saves (R369). -/
def execPreemptGraceExpiry (ctx : Nat) (s : State) : Out :=
  match (s.context ctx).soft with
  | none => .next s
  | some p => .next (if !p.due s.now then s else s.haltCtx ctx)
/-- Some core of the context has not been saved. -/
def State.unsaved (s : State) (ctx : Nat) : Bool :=
  !(s.context ctx).stored && s.allCores.any fun c => c.ctx = ctx && c.role != .idle
/-- `PREEMPT_KILL_EXPIRY`: at K a context whose save is unfinished is killed (R370). -/
def execPreemptKillExpiry (ctx : Nat) (s : State) : Out :=
  match (s.context ctx).pre with
  | none => .next s
  | some p => .next (if s.now < p.at_ + 1000 * p.k ∨ !s.unsaved ctx then s else s.killContext ctx 3)

/-! Resumption (R375). -/

/-- The area to resume from: the one whose `sstate` is 2 with the higher `gen` (R373). -/
def State.resumeArea (s : State) (c : Context) : Option (List Nat) :=
  let ok (pin : List Nat) : Bool := s.areaNat pin 0 8 = 2
  let gen (pin : List Nat) : Nat := s.areaNat pin 8 8
  if ok c.pinA then (if ok c.pinB ∧ gen c.pinA < gen c.pinB then some c.pinB else some c.pinA)
  else if ok c.pinB then some c.pinB else none

/-- Loop levels from their bytes. -/
def loopsOf (bs : List Byte) : Vector LoopLevel 3 :=
  Vector.ofFn fun i =>
    let o := 24 * i.val
    { cnt := BitVec.ofNat 32 (recNat bs o 4), active := recNat bs (o + 4) 4 ≠ 0, start := BitVec.ofNat 64 (recNat bs (o + 8) 8)
      stop := BitVec.ofNat 64 (recNat bs (o + 16) 8), depth := 0 }
/-- The nesting of restored loops, which the record does not hold, is the one that the core had (log 54). -/
def nestAs (ls : Vector LoopLevel 3) (old : Vector LoopLevel 3) : Vector LoopLevel 3 :=
  Vector.ofFn fun i => { ls[i] with depth := old[i].depth }
/-- A watch from its bytes. -/
def watchOf (bs : List Byte) : Watch :=
  { addr := BitVec.ofNat 64 (recNat bs 0 8), seen := BitVec.ofNat 64 (recNat bs 8 8), armed := recNat bs 16 8 ≠ 0 }
/-- Bit 0 of a field names a phase. -/
def phaseOf (v : Nat) : Phase := if v % 2 = 1 then .compute else .exchange

/-- A value of a register from a record, which takes the place of what a result writes. -/
def Landing.renew (old new : Landing) : Landing :=
  match old, new with
  | .v _ _ m, .v r t _ => .v r t m
  | _, l => l
/-- The results that a register waits for again (R138): of several on their way to it the record gives the last to land, and the others
return as they were (log 49). -/
def Core.backPends (c : Core) (r : Regs) (left : Nat) (l : Landing) (poison : Bool) : List Pend :=
  if left = 0 then []
  else
    let own := c.pend.filter fun p => p.arr.isNone && p.hits r
    match (inSlotOrder own).getLast? with
    | none => [{ left := left, slot := 0, land := l, poison := poison }]
    | some q => own.map fun p => if p = q then { p with left := left, land := p.land.renew l } else p

/-- A core restored from its record over what the record does not hold (R374, R375). -/
def Core.restore (c : Core) (r : Nat → Nat → List Byte) : Core :=
  let u (o n : Nat) : Nat := leNat (r o n)
  let w (o : Nat) : Word := BitVec.ofNat 64 (u o 8)
  let bits := u 8 8
  let left (i : Nat) : Nat := u (0x160 + i) 1
  let px (i : Fin 64) : List Pend := c.backPends { x := [i] } (left i) (.x i (w (0x200 + 8 * i))) (c.xPoison.getLsbD i)
  let pv (i : Fin 16) : List Pend :=
    c.backPends { v := [i] } (left (64 + i)) (.v i (BitVec.ofNat 8192 (u (0x800 + 1024 * i) 1024)) (BitVec.allOnes 8192))
      (c.vPoison.getLsbD i)
  let pp (i : Fin 8) : List Pend :=
    c.backPends { p := [i] } (left (80 + i)) (.p i (BitVec.ofNat 32 (u (0x400 + 4 * i) 4))) (c.pPoison.getLsbD i)
  let c := { c with
    pc := w 0, phase := phaseOf bits, skip := bits.testBit 4, nopLeft := fld (u 0x18 8) 16 12
    loops := nestAs (loopsOf (r 0x20 72)) c.loops, raised := if bits.testBit 2 then c.raised else none
    vs := w 0x68, fflags := BitVec.ofNat 6 (u 0x70 8), frm := BitVec.ofNat 3 (fld (u 0x70 8) 8 3)
    dom := BitVec.ofNat 3 (fld (u 0x70 8) 16 3), srseed := w 0x78, steep := w 0x80, steepPc := w 0x88, steepLc := w 0x90
    trap := w 0x98, watch := watchOf (r 0xA0 24)
    frame := if bits.testBit 1 then c.frame.map fun (f : TrapFrame) => { f with
        pc := w 0xB8, phase := phaseOf (u 0xC0 8), loops := nestAs (loopsOf (r 0xC8 72)) f.loops
        watch := watchOf (r 0x110 24) } else none
    pins := Vector.ofFn fun i =>
      let q := u (0x128 + 8 * i.val) 8
      if q.testBit 8 then some { tbl := q % 64, ver := q / 2 ^ 32 } else none
    retired := w 0x148, sent := w 0x150, received := w 0x158, map := w 0x1C0, sqn := BitVec.ofNat 32 (u 0x1D0 8)
    x := Vector.ofFn fun i => if left i = 0 then w (0x200 + 8 * i) else w (0x4800 + 8 * i)
    p := Vector.ofFn fun i => BitVec.ofNat 32 (if left (80 + i) = 0 then u (0x400 + 4 * i) 4 else u (0x4A00 + 4 * i) 4)
    v := Vector.ofFn fun i =>
      BitVec.ofNat 8192 (if left (64 + i) = 0 then u (0x800 + 1024 * i) 1024 else u (0x4C00 + 1024 * i) 1024)
    pend := ((List.finRange 64).flatMap px ++ (List.finRange 16).flatMap pv ++ (List.finRange 8).flatMap pp ++
      c.pend.filter fun (p : Pend) => p.arr.isSome).foldl (fun l p => pendInsert p l) [] }
  c.ctlWrite 0 (r 0xB000 0x38)
/-- A share restored from its image (R374). -/
def Core.restoreShare (c : Core) (r : Nat → Nat → List Byte) : Core :=
  let f := r c.shareSize (c.shareSize / 128)
  { c with share := Memory.write [] 0 (r 0 c.shareSize)
           full := (List.range (c.shareSize / 16)).filter fun g => (f.getD (g / 8) 0).toNat.testBit (g % 8) }

/-- The first running task of a context's launches that is still off the mesh, with its launch. -/
def State.nextAway (s : State) (ctx : Nat) : Option (Nat × RunTask) :=
  (s.launches.filterMap fun e =>
    if e.2.ctx = ctx then (e.2.run.find? fun r => r.origin ≥ 65536).map fun r => (e.1, r) else none).head?
/-- The slices that a saved task holds, by the numbers that its cores had, in rising order. -/
def State.awaySlices (s : State) (r : RunTask) : List Nat :=
  let held := r.left.flatMap fun v =>
    let n := v % 65536
    sliceOf n :: ((List.range 4).filter fun q => (s.coreAt v).held.getLsbD q).map (4 * clusterOf n + ·)
  (List.range 2048).filter held.contains

/-- The fusion groups of several quadrants in each mode (R196). -/
def fuseGroups (mode : Nat) : List (List Nat) :=
  match mode with
  | 1 => [[0, 1]] | 2 => [[2, 3]] | 3 => [[0, 1], [2, 3]] | 4 => [[0, 2]] | 5 => [[1, 3]] | 6 => [[0, 2], [1, 3]] | 7 => [[0, 1, 2, 3]]
  | _ => []
/-- How slices of one cluster are joined, when they can be: as an N pair, a K pair or all four (R178). -/
def fuseKind (g : List Nat) : Option Nat :=
  if !(g.all fun sl => sl / 4 = g.headD 0 / 4) then none
  else
    match g.map (· % 4) with
    | [0, 1] | [2, 3] => some 1 | [0, 2] | [1, 3] => some 2 | [0, 1, 2, 3] => some 3
    | _ => none
/-- A fusion mode with one more group. -/
def addGroup (mode : Nat) (g : List Nat) : Nat :=
  ((List.range 8).find? fun m => (fuseGroups m).length = (fuseGroups mode).length + 1 && (fuseGroups mode ++ [g]).all (fuseGroups m).contains).getD mode
/-- Where the fusion groups of saved slices come to lie when these go to others in turn: nothing when a group cannot stand there. -/
def State.backGroups (s : State) (ctx : Nat) (slices ts : List Nat) : Option (List (List Nat)) :=
  let to_ (sl : Nat) : Nat := match (slices.zip ts).find? fun q => q.1 = sl with | some q => q.2 | none => sl
  let saved := ((s.context ctx).sliced.filter fun k => slices.contains k.slice).map fun k => (k.slice / 4, k.mode)
  let gs := (saved.eraseDups.flatMap fun q => (fuseGroups q.2).map fun g => g.map (4 * q.1 + ·)).filter fun g => g.all slices.contains
  if gs.all fun g => fuseKind (g.map to_) = fuseKind g then some (gs.map fun g => g.map to_) else none
/-- The quadrants, as numbers in rising order, of every set of `k` of a cluster's. -/
def quadSets (k : Nat) : List (List Nat) :=
  ((List.range 16).map fun m => (List.range 4).filter fun q => m.testBit q).filter fun l => l.length = k
/-- The slices of a rectangle that a saved task may return to, in the order of those it held (R288, R375): where each cluster goes to one
cluster, the same ones of it, so that quadrants keep their numbers, or else others that keep the saved groups; and where it does not, those
that the scheduler would reserve, when the groups can stand there (log 22). Nothing when it does not fit: on the die, idle, with its slices
free and room for its shares. -/
def State.awayFits (s : State) (l : Launch) (r : RunTask) (core : Nat) : Option (List Nat) :=
  let o := r.origin % 65536
  let ids := rectCores core r.rows r.cols
  let there (n : Nat) : Nat := core + 32 * (rowOf n - rowOf o) + (colOf n - colOf o)
  let slices := s.awaySlices r
  let room := (ids.map clusterOf).eraseDups.all fun cl =>
    ((r.left.filter fun v => clusterOf (there (v % 65536)) = cl).map fun v => (s.coreAt v).shareSize).sum +
      ((s.sharesOf cl).map Prod.snd).sum ≤ poolBytes
  if !(core < 4096 && colOf core + r.cols ≤ 32 && rowOf core + r.rows ≤ 8 && room &&
      ids.all fun n => (s.coreAt n).role = .idle) then none
  else
    let pairs := (r.left.map fun v => (clusterOf (v % 65536), clusterOf (there (v % 65536)))).eraseDups
    let free (t : Nat) : Bool := (s.part l.part).slices.getLsbD t && !s.out.contains t && !s.sliceBusy t
    let in_ (a b : Nat) : Option (List (Nat × Nat)) :=
      let olds := slices.filter fun sl => sl / 4 = a
      let good (ts : List Nat) : Bool :=
        ts.all free && (ids.all fun n => clusterOf n != b || ts.contains (sliceOf n)) && (s.backGroups l.ctx olds ts).isSome
      ((olds.map (· % 4) :: quadSets olds.length).map fun qs => qs.map (4 * b + ·)).find? good |>.map fun ts => olds.zip ts
    let each : Option (List (Nat × Nat)) :=
      if (pairs.map Prod.fst).eraseDups.length = pairs.length ∧ (pairs.map Prod.snd).eraseDups.length = pairs.length then
        pairs.foldl (fun (m : Option (List (Nat × Nat))) q => match m, in_ q.1 q.2 with
          | some m, some l => some (m ++ l)
          | _, _ => none) (some [])
      else none
    match each with
    | some m => some (slices.map fun sl => match m.find? fun q => q.1 = sl with | some q => q.2 | none => sl)
    | none =>
      match s.fit l core false with
      | none => none
      | some ts =>
        let ts := (List.range 2048).filter ts.contains
        if slices.length ≤ ts.length ∧ (s.backGroups l.ctx slices ts).isSome then some ts else none
/-- A slice restored from its record; the spare map and the failed mark belong to the new one (R375, R384). The quadrants held stand
alone until the groups return. -/
def State.restoreSlice (s : State) (pin : List Nat) (k : SavedSlice) (lid t : Nat) (held : BitVec 4) : State :=
  let m (o n : Nat) : Memory := Memory.write [] 0 (s.areaRead pin (k.at_ + o) n)
  s.modCluster (t / 4) fun c =>
    { c with mode := unfuse c.mode held
             quads := c.quads.mapIdx fun i q => if i = t % 4 then
               { k.quad with weights := m 0x1000 61440, bank0 := m 0x10000 131072, bank1 := m 0x30000 131072
                             failed := q.failed, retired := q.retired, struck := q.struck, faults := q.faults, owner := lid } else q }
/-- A saved task returns to the mesh (R375). With the last one the request ends, but for cores that have been halted meanwhile. -/
def State.comeBack (s : State) (ctx : Nat) (pin : List Nat) (lid : Nat) (r : RunTask) (core : Nat) (ts : List Nat) : State :=
  let c := s.context ctx
  let o := r.origin % 65536
  let f (v : Nat) : Nat := core + 32 * (rowOf (v % 65536) - rowOf o) + (colOf (v % 65536) - colOf o)
  let slices := s.awaySlices r
  let groups := (s.backGroups ctx slices ts).getD []
  let heldAt (cl : Nat) : BitVec 4 := ts.foldl (fun m t => if t / 4 = cl then m ||| (1#4 <<< (t % 4)) else m) 0
  let s := ts.foldl (fun s t => s.takeQuad t lid) s
  let s := (slices.zip ts).foldl (fun s q =>
    match c.sliced.find? fun k => k.slice = q.1 with
    | some k => s.restoreSlice pin k lid q.2 (heldAt (q.2 / 4))
    | none => s.modCluster (q.2 / 4) fun k =>
      { k with quads := k.quads.mapIdx fun i q' => if i = q.2 % 4 then { q'.clear with owner := lid } else q' }) s
  let s := groups.foldl (fun s g => s.modCluster (g.headD 0 / 4) fun k => { k with mode := addGroup k.mode (g.map (· % 4)) }) s
  let s := r.left.foldl (fun s v =>
    let old := s.coreAt v
    let here := s.coreAt (f v)
    match c.saved.find? fun k => k.id = v % 65536 with
    | none => s
    | some k =>
      let d := (old.restore fun a n => s.areaRead pin (k.at_ + a) n).restoreShare fun a n => s.areaRead pin (k.img + a) n
      let d := { (d.renumber f).moveEnds (· + s.now) with
        role := .running, livePend := false, held := heldAt (clusterOf (f v)), weight := here.weight, sealed := here.sealed
        contained := here.contained, tlb := here.tlb, events := here.events, tally := here.tallied }
      let s := { s with msgs := s.msgs.map fun (m : Msg) => if s.landsAt m.ctx m.dst = v then { m with dst := f v } else m
                        nmsgs := s.nmsgs.map fun (m : NMsg) => if s.landsAt (s.coreAt m.src).ctx m.dst = v then { m with dst := f v } else m }
      let s := (s.setCore d).modCtx ctx fun c => { c with saved := c.saved.erase k }
      { s.followRec ctx v (f v) with others := s.others.del v }) s
  let ids := r.left
  let s := s.modLaunch lid fun l =>
    { l.renumber ids f with cores := (ids.map f).foldl setAdd l.cores
                            slicel := ts.foldl setAdd l.slicel }
  let s := s.modCtx ctx fun c => { c with ran := ts.foldl setAdd c.ran }
  let s := (ids.map fun v => clusterOf (f v)).eraseDups.foldl (fun s cl =>
    (match s.launches.find? lid with
      | some l => s.modCluster cl fun k => { k with gran := l.granKey r.task.code }
      | none => s).syncWindow cl) s
  if (s.nextAway ctx).isNone then
    s.modCtx ctx fun c => { c with pre := if c.saved = [] then none else c.pre, sliced := [], stored := false }
  else s
/-- `CONTEXT_RESUME`: the next saved task of a context returns to the rectangle whose north-west core is named; a context
that has nothing to return ends its request (R375). -/
def execContextResume (ctx core : Nat) (s : State) : Out :=
  let c := s.context ctx
  match s.nextAway ctx with
  | some (lid, r) =>
    match s.resumeArea c with
    | none => .next s
    | some pin =>
      .next (match (s.launches.find? lid).bind fun l => s.awayFits l r core with
        | some ts => s.comeBack ctx pin lid r core ts
        | none => s)
  | none => .next (if s.unsaved ctx then s else s.modCtx ctx fun c => { c with pre := none, saved := [], sliced := [], stored := false })

end Sys2Proof.Machine
end

