-- ==== Sys2Proof/Machine/Arrays.lean ====
section
/-! DEFINITION. The coded on-chip arrays: words with their interleaved parity, the vertical parity rows of their sub-arrays,
rebuilds and the patrol sweep (22_containment.md R378 to R381). -/

namespace Sys2Proof.Machine

/-! Words are numbered through all arrays: below 2^54 a number is a host-physical address div 8; above, bits 53 to 40 name the
array (0 shares by core, 1 accumulator banks by slice, 2 vector registers by core, 3 cluster-shared windows by cluster), bits 39
to 17 its number, and bits 16 to 0 the doubleword (log 23). A sub-array is 256 words in a row. -/

/-- The array of a word's number. -/
def wordKind (w : Nat) : Nat := fld w 40 14
/-- Which of the arrays of its kind. -/
def wordUnit (w : Nat) : Nat := fld w 17 23
/-- The doubleword in it. -/
def wordAt (w : Nat) : Nat := fld w 0 17
/-- A word of a coded on-chip array: of the bank store, or of an array by kind (R378). -/
def isCoded (w : Nat) : Bool := if w < 2 ^ 54 then isBank (8 * w) else wordKind w < 4
/-- The die that holds a word. -/
def wordDie (w : Nat) : Nat :=
  if w < 2 ^ 54 then hpaDie (8 * w)
  else if wordKind w = 1 then wordUnit w / 128
  else if wordKind w = 3 then wordUnit w / 32
  else dieOf (wordUnit w)

/-- A doubleword of an accumulator bank. -/
def Quad.word (q : Quad) (d : Nat) : Nat := (if d / 16384 = 0 then q.bank0 else q.bank1).readNat (8 * (d % 16384)) 8
/-- A doubleword of a bank replaced. -/
def Quad.setWord (q : Quad) (d v : Nat) : Quad :=
  if d / 16384 = 0 then { q with bank0 := q.bank0.write (8 * (d % 16384)) (leBytes 8 v) }
  else { q with bank1 := q.bank1.write (8 * (d % 16384)) (leBytes 8 v) }
/-- The value of a word. -/
def State.word (s : State) (w : Nat) : BitVec 64 :=
  let n := wordUnit w
  let d := wordAt w
  BitVec.ofNat 64 (
    if w < 2 ^ 54 then s.physNat (8 * w) 8
    else match wordKind w with
      | 0 => (s.coreAt n).share.readNat (8 * d) 8
      | 1 => ((s.cluster (n / 4)).quad (n % 4)).word d
      | 2 => tileBytes ((s.coreAt n).v.toList.getD (d / 128) 0) (8 * (d % 128)) 8
      | _ => (s.cluster n).window.readNat (8 * d) 8)
/-- Puts a value into a word's cells. -/
def State.setWord (s : State) (w : Nat) (v : BitVec 64) : State :=
  let n := wordUnit w
  let d := wordAt w
  if w < 2 ^ 54 then { s with mem := s.mem.write (8 * w) (leBytes 8 v.toNat) }
  else match wordKind w with
    | 0 => s.modCore n fun c => { c with share := c.share.write (8 * d) (leBytes 8 v.toNat) }
    | 1 => s.modCluster (n / 4) fun k => k.modQuads [n % 4] fun q => q.setWord d v.toNat
    | 2 => s.modCore n fun c =>
      let o : Patch := ({} : Patch).put (8 * (d % 128)) 8 v.toNat
      { c with v := c.v.mapIdx fun i t => if i = d / 128 then (t &&& ~~~o.mask) ||| o.val else t }
    | _ => s.modCluster n fun k => { k with window := k.window.write (8 * d) (leBytes 8 v.toNat) }
/-- Marks a word poisoned; such a word of a vector register is consumed when it is read (R381, R385). -/
def State.poisonWord (s : State) (w : Nat) : State :=
  let n := wordUnit w
  let d := wordAt w
  if w < 2 ^ 54 then { s with mpois := setAdd s.mpois w }
  else match wordKind w with
    | 0 => s.modCore n fun c => { c with poison := setAdd c.poison d }
    | 1 => s.modCluster (n / 4) fun k => k.modQuads [n % 4] fun q => { q with pois := setAdd q.pois d }
    | 2 => s.modCore n fun c => { c with vBad := setAdd c.vBad (d % 2048) }
    | _ => s.modCluster n fun k => { k with wpois := setAdd k.wpois d }

/-! Codes (R379). -/

/-- The eight parity bits of a word: bit j covers lane j of every byte. -/
def lanes (w : BitVec 64) : BitVec 8 :=
  (List.range 8).foldl (fun p i => p ^^^ (w >>> (8 * i)).truncate 8) 0
/-- What differs between the parity bits that a word holds and those of its data. -/
def Flip.syndrome (f : Flip) : BitVec 8 := lanes f.data ^^^ f.par
/-- The word of a sub-array by place. -/
def subWords (k : Nat) : List Nat := (List.range 256).map (256 * k + ·)
/-- The bits of a word that have flipped and that no read has met. -/
def State.flipped (s : State) (w : Nat) : BitVec 64 :=
  match s.flips.find? fun f => f.word = w with | some f => f.data | none => 0
/-- What a word's cells hold. -/
def State.stored (s : State) (w : Nat) : BitVec 64 := s.word w ^^^ s.flipped w
/-- The XOR of words. -/
def xorAll (l : List (BitVec 64)) : BitVec 64 := l.foldl (· ^^^ ·) 0
/-- The vertical parity row of a sub-array: the XOR of its words, up to what flips have left in it. A write changes it by the old
and the new value. -/
def State.vertical (s : State) (k : Nat) : BitVec 64 := xorAll ((subWords k).map s.word) ^^^ s.rows.get 0 k
/-- A word as the recovery engine rebuilds it: the row with the other 255 words (R380). -/
def State.rebuilt (s : State) (w : Nat) : BitVec 64 :=
  s.vertical (w / 256) ^^^ xorAll (((subWords (w / 256)).filter (· ≠ w)).map s.stored)

/-- The words of a sub-array whose syndrome is nonzero. -/
def State.flagged (s : State) (k : Nat) : List Flip := s.flips.filter fun f => f.word / 256 = k && f.syndrome != 0
/-- A flip is over: the cells hold `v`, and the row stands as it was. -/
def State.settleFlip (s : State) (w : Nat) (v : BitVec 64) : State :=
  let d := s.word w ^^^ v
  { s with flips := s.flips.filter (fun f => f.word ≠ w), rows := s.rows.set 0 (w / 256) (s.rows.get 0 (w / 256) ^^^ d) }.setWord w v
/-- A word that is lost (R381): it is poisoned, and event 0x02 is entered. -/
def State.loseWord (s : State) (w : Nat) : State :=
  ((s.settleFlip w (s.stored w)).poisonWord w).event (wordDie w) 0x02 0xFF 0xFFFF
    (if w < 2 ^ 54 then some (8 * w) else none) none
/-- A rebuild is counted, at the core too when the word is of its share or its vector registers (R394). -/
def State.countWord (s : State) (w : Nat) : State :=
  if 2 ^ 54 ≤ w ∧ (wordKind w = 0 ∨ wordKind w = 2) then s.count (wordUnit w) 6 1 else s.countDie (wordDie w) 6 1
/-- The recovery engine at a sub-array: its one flagged word is rebuilt, or with two of them, or when the rebuilt word shows a
syndrome still, what is flagged is lost (R380, R381). -/
def State.recover (s : State) (k : Nat) : State :=
  match s.flagged k with
  | [] => s
  | [f] =>
    if f.stuck then s.loseWord f.word
    else
      ((s.settleFlip f.word (s.rebuilt f.word)).event (wordDie f.word) 0x01 0xFF 0xFFFF
        (if f.word < 2 ^ 54 then some (8 * f.word) else none) none).countWord f.word
  | fs => fs.foldl (fun s f => s.loseWord f.word) s
/-- What the accesses that follow meet: flagged words are rebuilt or lost, and flips that no syndrome shows stand in the cells
(R381; log 23). -/
def State.detect (s : State) : State :=
  if s.flips = [] then s
  else
    let s := ((s.flips.map fun f => f.word / 256).eraseDups).foldl State.recover s
    s.flips.foldl (fun s f => s.settleFlip f.word (s.stored f.word)) s

/-- `WORD_REBUILD`: the recovery engine at the sub-array of a word that shows a syndrome (R380, R381). -/
def execWordRebuild (w : Nat) (s : State) : Out :=
  .next (if (s.flagged (w / 256)).any fun f => f.word = w then s.recover (w / 256) else s)

/-- A sub-array whose row does not match its words, none of which is flagged: all 256 are poisoned, and the row is formed anew
(R381). -/
def State.sweepSub (s : State) (k : Nat) : State :=
  let s := { s with rows := s.rows.del k }
  ((subWords k).foldl State.poisonWord s).event (wordDie (256 * k)) 0x10 0xFF 0xFFFF
    (if 256 * k < 2 ^ 54 then some (8 * (256 * k)) else none) none
/-- `PATROL_SWEEP`: the sweep of a die reads a sub-array, between other accesses, or what is left of its pass, which it then counts
(R381, R394). -/
def execPatrolSweep (die : Nat) (sub : Option Nat) (s : State) : Out :=
  let s := s.detect
  let bad := s.rows.keys.filter fun k => wordDie (256 * k) = die
  .next (match sub with
    | some k => if bad.contains k then s.sweepSub k else s
    | none => bad.foldl State.sweepSub { s.countDie die 0x0F 1 with sweeps := s.sweeps.put die s.now })
/-- A die's sweep is due: its last pass ended 10 ms ago (R381). -/
def State.sweepDue (s : State) (die : Nat) : Bool := !s.failed.getLsbD die && decide (s.sweeps.get 0 die + 10000000 ≤ s.now)

end Sys2Proof.Machine
end

