-- ==== Sys2Proof/Machine/Inflate.lean ====
section
/-! DEFINITION. The decoding of a raw DEFLATE stream (RFC 1951), which the pooled engines' inflate performs (19_isolation.md
R344). -/

namespace Sys2Proof.Machine

/-- A stream being decoded: the bits that are left, the bytes written, newest first, and how many. -/
structure Deflate where
  bits : List Bool
  out  : List Byte
  len  : Nat
  deriving DecidableEq, Repr

/-- The bits of bytes, least significant first. -/
def bitsOf (bs : List Byte) : List Bool := bs.flatMap fun b => (List.range 8).map b.getLsbD

/-- Takes `n` bits as a number, least significant first. -/
def Deflate.take (d : Deflate) : Nat → Option (Deflate × Nat)
  | 0 => some (d, 0)
  | n + 1 =>
    match d.bits with
    | [] => none
    | b :: bs => (Deflate.take { d with bits := bs } n).map fun q => (q.1, b.toNat + 2 * q.2)

/-- A code table: lengths by symbol give, per length, the first code and the symbols in order. -/
structure Huff where
  rows : List (Nat × Nat × List Nat)      -- length, first code, symbols
  deriving DecidableEq, Repr

/-- The canonical code of the lengths of symbols 0, 1, …. -/
def Huff.ofLengths (ls : List Nat) : Huff :=
  let go := (List.range 15).foldl (fun (a : Nat × List (Nat × Nat × List Nat)) i =>
    let n := i + 1
    let syms := (ls.zipIdx.filter fun q => q.1 = n).map Prod.snd
    (2 * (a.1 + syms.length), a.2 ++ [(n, a.1, syms)])) (0, [])
  { rows := go.2 }
/-- No length has more codes than the bits admit. -/
def Huff.ok (h : Huff) : Bool := h.rows.all fun r => r.2.1 + r.2.2.length ≤ 2 ^ r.1

/-- Takes one symbol, bit by bit, first bit most significant. -/
def Deflate.symbol (d : Deflate) : List (Nat × Nat × List Nat) → Nat → Option (Deflate × Nat)
  | [], _ => none
  | (_, first, syms) :: rows, code =>
    match d.bits with
    | [] => none
    | b :: bs =>
      let code := 2 * code + b.toNat
      let d := { d with bits := bs }
      if first ≤ code ∧ code < first + syms.length then some (d, syms.getD (code - first) 0)
      else d.symbol rows code

/-- Base and extra bits of the length symbols 257 to 285. -/
def lengthCode (s : Nat) : Option (Nat × Nat) :=
  if s < 257 ∨ s > 285 then none
  else if s = 285 then some (258, 0)
  else if s < 265 then some (s - 254, 0)
  else let e := (s - 261) / 4; some (3 + 2 ^ e * (4 + (s - 261) % 4), e)
/-- Base and extra bits of the distance symbols. -/
def distCode (s : Nat) : Option (Nat × Nat) :=
  if s > 29 then none
  else if s < 4 then some (s + 1, 0)
  else let e := s / 2 - 1; some (1 + 2 ^ e * (2 + s % 2), e)

/-- Copies `n` bytes from a distance back. -/
def Deflate.copy (d : Deflate) (dist : Nat) : Nat → Deflate
  | 0 => d
  | n + 1 => Deflate.copy { d with out := d.out.getD (dist - 1) 0 :: d.out, len := d.len + 1 } dist n

/-- How decoding ends: whole, beyond the limit, or at a defect of the stream, after the bytes that it has put out. -/
inductive Inflated where
  | ok (bs : List Byte)
  | over (bs : List Byte)
  | bad (bs : List Byte)
  deriving DecidableEq, Repr

/-- The bytes put out so far. -/
def Deflate.bytes (d : Deflate) : List Byte := d.out.reverse

/-- What a symbol of a block does: a byte, the end, or a copy of bytes from a distance back. Nothing: the stream is invalid. -/
def Deflate.item (lit dist : Huff) (d : Deflate) : Option (Deflate × Bool) :=
  match d.symbol lit.rows 0 with
  | none => none
  | some (d, s) =>
    if s < 256 then some ({ d with out := BitVec.ofNat 8 s :: d.out, len := d.len + 1 }, false)
    else if s = 256 then some (d, true)
    else
      match lengthCode s with
      | none => none
      | some (lb, le) =>
        match d.take le with
        | none => none
        | some (d, lx) =>
          match d.symbol dist.rows 0 with
          | none => none
          | some (d, t) =>
            match distCode t with
            | none => none
            | some (db, de) =>
              match d.take de with
              | none => none
              | some (d, dx) => if db + dx > d.len then none else some (d.copy (db + dx) (lb + lx), false)
/-- The symbols of a block up to its end. -/
def Deflate.block (lit dist : Huff) (limit : Nat) : Nat → Deflate → Except Inflated Deflate
  | 0, d => .error (.bad d.bytes)
  | k + 1, d =>
    if d.len > limit then .error (.over d.bytes)
    else
      match d.item lit dist with
      | none => .error (.bad d.bytes)
      | some (d, true) => .ok d
      | some (d, false) => Deflate.block lit dist limit k d

/-- The fixed codes. -/
def fixedLit : Huff :=
  Huff.ofLengths (List.replicate 144 8 ++ List.replicate 112 9 ++ List.replicate 24 7 ++ List.replicate 8 8)
/-- The fixed distance code. -/
def fixedDist : Huff := Huff.ofLengths (List.replicate 30 5)

/-- The order in which the lengths of the code length code stand. -/
def clOrder : List Nat := [16, 17, 18, 0, 8, 7, 9, 6, 10, 5, 11, 4, 12, 3, 13, 2, 14, 1, 15]

/-- Takes numbers of `w` bits. -/
def Deflate.takes (d : Deflate) (w : Nat) : Nat → Option (Deflate × List Nat)
  | 0 => some (d, [])
  | n + 1 =>
    match d.take w with
    | none => none
    | some (d, v) => (d.takes w n).map fun q => (q.1, v :: q.2)

/-- The code lengths of a dynamic block, `n` in all. -/
def Deflate.lengths (h : Huff) (n : Nat) : Nat → Deflate → List Nat → Option (Deflate × List Nat)
  | 0, _, _ => none
  | k + 1, d, ls =>
    if ls.length = n then some (d, ls)
    else if ls.length > n then none
    else
      match d.symbol h.rows 0 with
      | none => none
      | some (d, s) =>
        if s < 16 then Deflate.lengths h n k d (ls ++ [s])
        else
          let (w, base) := if s = 16 then (2, 3) else if s = 17 then (3, 3) else (7, 11)
          match d.take w with
          | none => none
          | some (d, x) =>
            if s = 16 then
              match ls.getLast? with
              | none => none
              | some v => Deflate.lengths h n k d (ls ++ List.replicate (base + x) v)
            else Deflate.lengths h n k d (ls ++ List.replicate (base + x) 0)

/-- The two codes of a dynamic block. -/
def Deflate.dynamic (d : Deflate) : Option (Deflate × Huff × Huff) :=
  match d.take 5 with
  | none => none
  | some (d, hlit) =>
    match d.take 5 with
    | none => none
    | some (d, hdist) =>
      match d.take 4 with
      | none => none
      | some (d, hclen) =>
        match d.takes 3 (hclen + 4) with
        | none => none
        | some (d, cl) =>
          let lens := (List.range 19).map fun s => match clOrder.findIdx? (· = s) with
            | some i => cl.getD i 0
            | none => 0
          let h := Huff.ofLengths lens
          match Deflate.lengths h (hlit + 257 + hdist + 1) 400 d [] with
          | none => none
          | some (d, ls) =>
            let a := Huff.ofLengths (ls.take (hlit + 257))
            let b := Huff.ofLengths (ls.drop (hlit + 257))
            if h.ok && a.ok && b.ok && hlit ≤ 29 && hdist ≤ 29 then some (d, a, b) else none

/-- A stored block: it starts at a byte boundary; `total` is the stream's length in bits. -/
def Deflate.stored (d : Deflate) : Option Deflate :=
  let d := { d with bits := d.bits.drop (d.bits.length % 8) }
  match d.take 16 with
  | none => none
  | some (d, n) =>
    match d.take 16 with
    | none => none
    | some (d, m) =>
      if n + m ≠ 65535 then none
      else (d.takes 8 n).map fun q =>
        { q.1 with out := (q.2.map (BitVec.ofNat 8)).reverse ++ q.1.out, len := q.1.len + n }

/-- One block of a stream, with whether it is the last. -/
def Deflate.oneBlock (limit : Nat) (d0 : Deflate) : Except Inflated (Deflate × Bool) :=
  let bad : Except Inflated (Deflate × Bool) := .error (.bad d0.bytes)
  match d0.take 1 with
  | none => bad
  | some (d, last) =>
    match d.take 2 with
    | none => bad
    | some (d, ty) =>
      let body (lit dist : Huff) (d : Deflate) : Except Inflated (Deflate × Bool) :=
        match Deflate.block lit dist limit (d.bits.length + 1) d with
        | .error r => .error r
        | .ok d => .ok (d, last = 1)
      match ty with
      | 0 => match d.stored with | none => bad | some d => .ok (d, last = 1)
      | 1 => body fixedLit fixedDist d
      | 2 => match d.dynamic with | none => bad | some (d, a, b) => body a b d
      | _ => bad
/-- The blocks of a stream. -/
def Deflate.blocks (limit : Nat) : Nat → Deflate → Inflated
  | 0, d => .bad d.bytes
  | k + 1, d =>
    match d.oneBlock limit with
    | .error r => r
    | .ok (d, last) => if d.len > limit then .over d.bytes else if last then .ok d.bytes else Deflate.blocks limit k d

/-- Decodes one raw DEFLATE stream; `limit` is the most output bytes. -/
def inflate (src : List Byte) (limit : Nat) : Inflated :=
  Deflate.blocks limit (8 * src.length + 1) { bits := bitsOf src, out := [], len := 0 }

end Sys2Proof.Machine
end

