-- ==== Sys2Proof/Machine/Pooled.lean ====
section
/-! DEFINITION. Pooled engines: leases and the commands that they run (19_isolation.md R342 to R344; 22_containment.md
R382). -/

namespace Sys2Proof.Machine

/-! Leases. -/

/-- A handle (R343). -/
def leaseHandle (die eng serial : Nat) : Nat := eng + 16 * die + 256 * serial
/-- The lease that a handle names, when the context holds it (R343). -/
def State.leaseOf (s : State) (h : Word) : Option (Nat × Lease) :=
  let k := h.toNat % 256
  match s.leases.find? k with
  | some l => if l.serial.toNat = h.toNat / 256 ∧ l.ctx = s.core.ctx then some (k, l) else none
  | none => none
/-- A waiter still waits: its core has not been stopped meanwhile (R352). -/
def State.stillWaits (s : State) (w : LeaseWait) : Bool :=
  let c := s.coreAt w.core
  c.waiting && c.stage = 1
/-- Leases and waiting requests of a partition on a die (R342). -/
def State.leaseUse (s : State) (part die : Nat) : Nat :=
  (s.leases.filter fun e => e.1 / 16 = die && e.2.ctx / 16 = part).length +
    (s.lwaits.filter fun w => w.die = die && w.part = part && s.stillWaits w).length
/-- An engine of a die without a lease. -/
def State.freeEngine (s : State) (die : Nat) : Option Nat :=
  (List.range 16).find? fun e => (s.leases.find? (16 * die + e)).isNone
/-- A lease's length in nanoseconds (R342). -/
def leaseTime : Nat := 10000
/-- Grants an engine to a core: the handle. Serials are not zero (R343). -/
def State.grantLease (s : State) (die eng n : Nat) : State × Nat :=
  let serial := if s.lserial + 1 = 0 then 1 else s.lserial + 1
  let l : Lease := { ctx := (s.coreAt n).ctx, core := n, serial := serial, ends := s.now + leaseTime, cmds := [], count := 0
                     rel := false }
  ({ s with leases := s.leases.put (16 * die + eng) l, lserial := serial }, leaseHandle die eng serial.toNat)

/-- A refusal of `LEASE` (R343). -/
def refusal (code : Nat) : Word := BitVec.ofNat 64 (2 ^ 63 + code)

/-- The core joins the waiters of a die (R342, R343). -/
def State.askLease (s : State) (die p : Nat) : State :=
  let w : LeaseWait := { die := die, core := s.core.id, part := p }
  State.upd (State.wait { s with lwaits := s.lwaits ++ [w] }) fun c => { c with stage := 1 }

/-- `LEASE.get` (R342, R343). -/
def execLeaseGet (d a : XReg) (s : State) : Out :=
  issue { x := [a] } { x := [d] } s fun s =>
    let die := (s.core.rx a).toNat
    if die ≥ 16 then s.illegal 0x7A
    else s.classX 0x7A fun s =>
      let c := s.core
      if c.waiting ∧ c.stage > 1 then .next (s.upd (·.lateX d (BitVec.ofNat 64 c.stage))).retire
      else if c.waiting ∧ c.stage = 1 ∧ s.lwaits.any (fun w => w.core = c.id) then .next s.wait
      else
        let s := { s with lwaits := s.lwaits.filter fun w => w.core ≠ c.id }
        let p := s.myPart
        if !s.dieOfPart p die then .next (s.upd (·.lateX d (refusal 3))).retire
        else if s.leaseUse p die ≥ (s.part p).lq then .next (s.upd (·.lateX d (refusal 2))).retire
        else
          match s.freeEngine die with
          | some e =>
            if s.lwaits.any fun w => w.die = die && s.stillWaits w then
              .next (s.askLease die p)
            else
              let (s, h) := s.grantLease die e c.id
              .next (s.upd (·.lateX d (BitVec.ofNat 64 h))).retire
          | none =>
            .next (s.askLease die p)

/-- Caldera leases a free engine for the next stretch of a copy to a die, within the partition's quota (R317, R342; log 14). -/
def State.leaseCopy (s : State) (die eng : Nat) : State :=
  match s.waitingCopy die with
  | none => s
  | some (k, c) =>
    match s.tables.find? k, s.copyOf k c.rep.serial with
    | some t, some (_, src, w) =>
      if s.leaseUse (k / 64) die ≥ (s.part (k / 64)).lq then s
      else
        let serial := if s.lserial + 1 = 0 then 1 else s.lserial + 1
        let m : PooledCmd := { desc := copyDesc s.free (src + c.off) (w.span / 2 - c.off), core := 0xFFFF, num := 0 }
        let l : Lease := { ctx := t.ctx, core := 0xFFFF, serial := serial, ends := s.now + leaseTime, cmds := [m], count := 1
                           rel := true, copy := some (k, c.rep.serial) }
        { s with leases := s.leases.put (16 * die + eng) l, lserial := serial, free := s.free + 1 }
    | _, _ => s
/-- `LEASE_GRANT`: a free engine of a die goes to the oldest waiter (R342), or with none to a copy of Caldera's. A waiter that a stop
has taken off is passed over. -/
def execLeaseGrant (die : Nat) (s : State) : Out :=
  let s := { s with lwaits := s.lwaits.filter fun w => w.die ≠ die || s.stillWaits w }
  match s.lwaits.find? fun w => w.die = die, s.freeEngine die with
  | some w, some e =>
    let (s, h) := s.grantLease die e w.core
    .next (({ s with lwaits := s.lwaits.filter fun q => q.core ≠ w.core }).modCore w.core fun c => { c with stage := h })
  | none, some e => .next (s.leaseCopy die e)
  | _, none => .next s

/-- A handle's bits above the serial are zero (R343, R352). -/
def handleOk (h : Word) : Bool := h.toNat < 2 ^ 40

/-- `LEASE.cmd` (R343). -/
def execLeaseCmd (d a b : XReg) (s : State) : Out :=
  issue { x := [a, b] } { x := [d] } s fun s =>
    let c := s.core
    if !handleOk (c.rx a) then s.illegal 0x7A
    else
      match c.shapeAt (c.rx b) with
      | none => s.addrFault 0x7A (c.rx b).toNat
      | some desc =>
        let st := BitVec.ofNat 64 (leNat ((desc.drop 32).take 8))
        if (c.dword st).isNone then s.addrFault 0x7A st.toNat
        else s.classX 0x7A fun s =>
          if c.recordBad (c.rx b) then .next (s.consume (c.rx b).toNat)
          else
            match s.leaseOf (c.rx a) with
            | none => .next (s.upd (·.lateX d (refusal 4))).retire
            | some (k, l) =>
              if l.rel then .next (s.upd (·.lateX d (refusal 4))).retire
              else if l.cmds.length ≥ 4 then .next (s.upd (·.lateX d (refusal 5))).retire
              else
                let m : PooledCmd := { desc := desc, core := c.id, num := l.count }
                let s := { s with leases := s.leases.put k { l with cmds := l.cmds ++ [m], count := l.count + 1 } }
                .next (s.upd (·.lateX d (BitVec.ofNat 64 l.count))).retire

/-- A lease goes when it was released and its commands have ended (R343). -/
def State.reapLease (s : State) (k : Nat) : State :=
  match s.leases.find? k with
  | some l => if l.rel ∧ l.cmds = [] then { s with leases := s.leases.del k } else s
  | none => s
/-- `LEASE.rel` (R343). -/
def execLeaseRel (a : XReg) (s : State) : Out :=
  issue { x := [a] } {} s fun s =>
    if !handleOk (s.core.rx a) then s.illegal 0x7A
    else s.classX 0x7A fun s =>
      .next (match s.leaseOf (s.core.rx a) with
        | some (k, l) => ({ s with leases := s.leases.put k { l with rel := true } }).reapLease k
        | none => s).retire

/-! Commands (R344). -/

/-- The `sqn` field of a command's stamp and records (R343). -/
def PooledCmd.sqn (m : PooledCmd) (l : Lease) : Nat := l.serial.toNat % 2 ^ 24 * 256 + m.num % 256
/-- A number in a descriptor. -/
def PooledCmd.get (m : PooledCmd) (o n : Nat) : Nat := leNat ((m.desc.drop o).take n)

/-- A command of Caldera's has written its stamp: its bytes are copied, or the copy fails (R317, R318). -/
def State.copyStamp (s : State) (k serial : Nat) (m : PooledCmd) (status : Nat) : State :=
  if status = 0x01 ∨ status = 0x03 then s.copied k serial (m.get 24 8)
  else match (s.tables.find? k).bind fun t => t.copies.find? fun c => c.rep.serial = serial with
    | some c => s.copyFail k c
    | none => s
/-- A command's stamp into the issuer's share (R236, R343), when the core still runs in the lease's context; that of a copy goes to
Caldera. -/
def State.pooledStamp (s : State) (l : Lease) (m : PooledCmd) (status : Nat) : State :=
  match l.copy with
  | some (k, serial) => s.copyStamp k serial m status
  | none =>
    let o := offset (BitVec.ofNat 64 (m.get 32 8))
    s.modCore m.core fun c =>
      if c.ctx = l.ctx ∧ o + 8 ≤ c.shareSize then c.stamp o status m.moved (m.sqn l) else c
/-- A command's trap record (R343, R344, R355); a copy of Caldera's has none but its event (R318). -/
def State.pooledNote (s : State) (l : Lease) (m : PooledCmd) (cause addr info0 info1 : Nat) : State :=
  if l.copy.isSome then s
  else
    s.note { cause := cause, ctx := l.ctx, core := m.core, pos := (s.coreAt m.core).pos, launch := (s.coreAt m.core).launch.toNat
             sqn := m.sqn l, addr := addr, info0 := info0, info1 := info1 }

/-- The page requests of an engine's command wait for it no more (R337). -/
def State.pooledGone (s : State) (k : Nat) (l : Lease) : State :=
  s.dropWaiters (l.ctx / 16) fun w => match w with | .lease d e _ => 16 * d + e = k | _ => false
/-- `LEASE_EXPIRY`: after its time a lease ends, its commands with it (R343). -/
def execLeaseExpiry (die eng : Nat) (s : State) : Out :=
  let k := 16 * die + eng
  match s.leases.find? k with
  | none => .next s
  | some l =>
    if s.now < l.ends then .next s
    else
      let h := leaseHandle die eng l.serial.toNat
      let s := l.cmds.foldl (fun s m => (s.pooledNote l m 0x14 0 h 0).pooledStamp l m 0x80) s
      .next ({ s with leases := s.leases.del k }.pooledGone k l)

/-- A descriptor that breaks R344: a reserved value or a source that overlaps the destination. -/
def PooledCmd.bad (m : PooledCmd) : Bool :=
  let op := m.get 0 1
  let src := m.get 8 8
  let dst := m.get 16 8
  let n := m.get 24 8
  let arg := m.get 40 8
  let out := if op = 3 ∨ op = 4 then arg else n
  let far (a : Nat) : Bool := a / 2 ^ 57 != 0 || a % 16 != 0
  op > 4 || m.get 1 7 != 0 || m.get 48 16 != 0 || far dst || (if op = 1 then src != 0 else far src) ||
    n < 16 || n > 2 ^ 28 || n % 16 != 0 || (if op = 1 then false else if op ≥ 3 then arg % 16 != 0 else arg != 0) ||
    (op != 1 && overlap src n dst out)

/-- The bytes of a fill (R344). -/
def fillBytes (pat n : Nat) : List Byte := (List.range n).map fun i => BitVec.ofNat 8 (pat / 2 ^ (8 * (i % 8)))
/-- Element-wise f32 addition with its flags (R344). -/
def addBytes : Nat → List Byte → List Byte → List Byte × Flags
  | 0, _, _ => ([], 0)
  | n + 1, a, b =>
    let (w, f) := atomNew .fadd 4 (leNat (a.take 4)) (leNat (b.take 4)) 0
    let (r, g) := addBytes n (a.drop 4) (b.drop 4)
    (leBytes 4 w ++ r, f ||| g)

/-- Bytes as stored blocks, which make a raw DEFLATE stream of them. -/
def storedStream : Nat → List Byte → List Byte
  | 0, _ => []
  | k + 1, bs =>
    let n := min 65535 bs.length
    (if n = bs.length then 1 else 0) :: leBytes 2 n ++ leBytes 2 (65535 - n) ++ bs.take n ++
      (if n = bs.length then [] else storedStream k (bs.drop n))
/-- The stream that a compression makes is open among those that decompress to its source (log 10). -/
def deflate (free : Nat) (src : List Byte) : List Byte :=
  let bs := (List.range (Sys2Proof.Config.deflateLength free)).map (Sys2Proof.Config.deflateByte free)
  if inflate bs src.length = .ok src then bs else storedStream (src.length / 65535 + 1) src
/-- Makes the output of a compression or decompression, as far as it goes, padded with zero to a granule (R344). -/
def State.pooledMake (s : State) (m : PooledCmd) : State × PooledCmd :=
  let src := m.xfer.held.flatMap EHeld.data
  let lim := m.get 40 8
  let made (bs : List Byte) (short : Bool) : PooledCmd :=
    { m with xfer := {}, made := some (bs ++ List.replicate ((16 - bs.length % 16) % 16) 0), short := short }
  if m.get 0 1 = 3 then
    let bs := deflate s.free src
    ({ s with free := s.free + 1 }, made (bs.take lim) (lim < bs.length))
  else
    (s, match inflate src lim with
      | .ok bs => made bs false
      | .over bs => made (bs.take lim) true
      | .bad bs => made bs true)

/-- How many units a command has: granules of its source, or of the output that it has made. -/
def PooledCmd.total (m : PooledCmd) : Nat :=
  match m.made with
  | some bs => bs.length / 16
  | none => m.get 24 8 / 16
/-- Moves a unit: its source is read, as an agent of the die sees it (R203, R212), where it has one, and its destination translated
(R338, R344, R382). An addition keeps the
bytes of the destination before those of the source. A copy of Caldera's goes to the shadow pages of its set, from `at_` on
(R317). -/
def State.pooledUnit (s : State) (die : Nat) (who : Who) (m : PooledCmd) (at_ : Option (Twin × Nat)) (k : Nat) : State × Moved :=
  let op := m.get 0 1
  let src := m.get 8 8 + 16 * k
  let dst := m.get 16 8 + 16 * k
  let to_ (s : State) (bs : List Byte) : State × Moved :=
    match at_ with
    | some (w, o) =>
      let a := w.shadow (o + 16 * k)
      if s.physPoison a 16 then (s, .fails ⟨0x21, a, 4⟩)
      else (s, .held { unit := k, place := some (.mem [{ hpa := a, len := 16, kind := 1, gpa := 0 }]), data := bs, size := 16 })
    | none =>
      match s.translateRange who dst 16 .write with
      | .wait s => (s, .parks)
      | .fault s v i => (s, .fails ⟨0x08, v, i⟩)
      | .ok s ps => (s, .held { unit := k, place := some (.mem ps), data := bs, size := 16 })
  let get (s : State) (a : Nat) (next : State → List Byte → State × Moved) : State × Moved :=
    match s.translateRange who a 16 .read with
    | .wait s => (s, .parks)
    | .fault s v i => (s, .fails ⟨0x08, v, i⟩)
    | .ok s ps =>
      let s := ps.foldl (fun s p => s.beforeLoad true (dieAgent die) p (s.physPoison p.hpa p.len)) s
      if s.piecesPoison ps then (s, .fails ⟨0x21, a, 4⟩)
      else next s (ps.flatMap fun p => s.seenOver (dieAgent die) p.hpa (s.physRead p.hpa p.len))
  match m.made with
  | some bs => to_ s ((bs.drop (16 * k)).take 16)
  | none =>
    if op = 0 then get s src to_
    else if op = 1 then to_ s (fillBytes (m.get 40 8) 16)
    else if op = 2 then get s src fun s a => get s dst fun s b => to_ s (b ++ a)
    else get s src fun s a => (s, .held { unit := k, place := none, data := a, size := 16 })

/-- The units before the first that may not go to its landing go to theirs; the flags of an addition join the issuer's (R338,
R344). -/
def State.pooledFlush (s : State) (m : PooledCmd) (x : Xfer) : State × PooledCmd :=
  if m.get 0 1 ≥ 3 ∧ m.made = none then (s, { m with xfer := x })
  else
    let b := x.bound
    let go := (x.held.takeWhile fun h => h.unit < b).map fun h =>
      (h, if m.get 0 1 = 2 then addBytes 4 (h.data.take 16) (h.data.drop 16) else (h.data, 0))
    let f := go.foldl (fun f q => f ||| q.2.2) (0 : Flags)
    let s := if f = 0 then s else s.modCore m.core fun c => { c with ctl := { c.ctl with bflags := c.ctl.bflags ||| f } }
    (s, { m with xfer := { x with
      held := x.held.dropWhile fun h => h.unit < b, passed := b
      ready := x.ready ++ go.filterMap fun q => q.1.place.map fun pl => { units := [q.1.unit], place := pl, data := q.2.1 } } })

/-- How a step of a command ends: there is more to do, it is complete, or it has failed at a unit. -/
inductive Pooled where
  | more (s : State) (m : PooledCmd)
  | done (s : State) (m : PooledCmd)
  | fails (s : State) (m : PooledCmd) (f : EFail) (unit : Nat)
/-- A step of a command (R338, R344): the `g`-th granule that may land lands; with none so numbered, a unit is moved, the output
is made, or the command ends. -/
def State.pooledStep (s : State) (die : Nat) (who : Nat → Who) (part : Nat) (at_ : Option (Twin × Nat)) (m : PooledCmd) (g : Nat) :
    Pooled :=
  match m.xfer.ready[g]? with
  | some q =>
    let s := match q.place with
      | .mem ps =>
        let s := ps.foldl (fun s p => s.beforeEngine (dieAgent die) p) s
        if at_.isSome then ps.foldl (fun s p => s.physWrite p.hpa q.data) s else s.writePieces part ps q.data
      | _ => s
    .more s { m with moved := m.moved + 1, xfer := { m.xfer with ready := m.xfer.ready.eraseIdx g } }
  | none =>
    let x := m.xfer
    match s.takeUnit (fun s k => s.pooledUnit die (who k) m at_ k) x (x.movable (fun k => (s.part part).asked (who k).w) m.total 16) with
    | (s, some y) =>
      let (s, m) := s.pooledFlush { m with waited := m.waited || x.parkedMore y } y
      .more s m
    | (s, none) =>
      if !x.spent m.total then .more s m
      else
        match x.fail with
        | some (k, f) => .fails s m f k
        | none =>
          if m.get 0 1 ≥ 3 ∧ m.made = none then let (s, m) := s.pooledMake m; .more s m
          else if m.short then .fails s m ⟨0x02, 0, 0x7A⟩ m.moved
          else .done s m

/-- `POOLED_ENGINE_COMMAND`: the oldest command of an engine's lease goes a step on, and stamps when it has ended (R338, R343,
R344). -/
def execPooledEngineCommand (die : Nat) (e : LandStep) (s : State) : Out :=
  let eng := e.i
  let g := e.g
  let k := 16 * die + eng
  match s.leases.find? k with
  | none => .next s
  | some l =>
    match l.cmds with
    | [] => .next s
    | m :: ms =>
      let who (u : Nat) : Who :=
        { w := .lease die eng u, ctx := l.ctx, core := m.core, seq := BitVec.ofNat 32 (m.sqn l), eng := true }
      let at_ := l.copy.bind fun q => (s.copyOf q.1 q.2).map fun c => (c.2.2, c.1.off)
      let ends (s : State) (m : PooledCmd) (status : Nat) : State :=
        let s := ({ s with leases := s.leases.put k { l with cmds := ms } }.pooledGone k l).pooledStamp l m status
        (if l.copy.isSome then s else s.count m.core 0x0B 1).reapLease k
      let fails (s : State) (m : PooledCmd) (f : EFail) (u : Nat) : State :=
        ends (s.pooledNote l m f.cause f.addr f.info0 u) m 0x80
      .next (if s.now ≥ l.ends then s
        else if l.copy.isSome ∧ at_.isNone then ends s m 0x80
        else if l.copy.isNone ∧ m.bad then fails s m ⟨0x02, 0, 0x7A⟩ 0
        else match s.pooledStep die who (l.ctx / 16) at_ m g with
          | .more s m => { s with leases := s.leases.put k { l with cmds := m :: ms } }
          | .done s m => ends s m (if m.waited then 0x03 else 0x01)
          | .fails s m f u => fails s m f u)

end Sys2Proof.Machine
end

