-- ==== Sys2Proof/Machine/Containment.lean ====
section
/-! DEFINITION. The containment of cores, the failure of a die, the copies of the tephra record,
and the clock steps (22_containment.md R385 to R392; 23_module.md R402). -/

namespace Sys2Proof.Machine

/-! Containment (R386, R387). -/

/-- Steps 2 to 4 of R386 at a core that has consumed an error: its mailboxes are sealed, its work ends as at a kill (R200, R251), its
pins are released, the record and event 0x07 follow, and its slice leaves service. What step 5 needs of its place in the chain
stays until the task has ended on it. -/
def State.containSteps (s : State) (n : Nat) : State :=
  let c := s.coreAt n
  match c.raised with
  | none => s
  | some r =>
    let nested := s.inHandler c
    let s := s.stopCore n
    let s := s.modCore n fun d => { d with sealed := true, contained := true, role := c.role, chain := c.chain, feed := c.feed
                                           openUnits := c.openUnits }
    let s := (s.note (c.trapRec r nested)).event (dieOf n) 0x07 (c.ctx / 16) n (some r.addr.toNat) none
    if n < 4096 then { s with out := setAdd s.out (sliceOf n) } else s

/-- The task of a launch that runs on the cores `ids` ends on them after a containment (R386 step 7, R387, R390): the others
stop, and with no further chain of the task left R387 says what becomes of it. `core` was contained, with the open ranges `us`. -/
def State.taskLost (s : State) (lid core : Nat) (ids : List Nat) (us : List (Nat × Nat)) : State :=
  let s := (ids.filter fun n => (s.coreAt n).role ≠ .idle).foldl State.stopCore s
  match (s.launches.find? lid).bind fun l => l.run.find? fun r => r.left.any ids.contains with
  | none => s
  | some r =>
    let r := { r with lost := some core, codes := r.codes ++ us }
    if r.left.any fun n => !ids.contains n then
      let s := s.modLaunch lid fun l => { l with run := l.run.map fun q => if q.origin = r.origin then r else q }
      (r.left.filter ids.contains).foldl (fun s n => s.endPart lid n) s
    else s.runLost lid r

/-! The tephra record's copies (R392). -/

/-- A die copies its ring to its reserved region. A copy may be cut short after a number of entries, which the spec leaves open
(log 5): its header then says so. -/
def State.tephraCopy (s : State) (die : Nat) : State :=
  if s.failed.getLsbD die then s
  else
    let t := s.tephra.get { evs := [], wrapped := false } die
    let evs := t.evs.take (Sys2Proof.Config.tephraCut s.free)
    let torn : Bool := evs.length < t.evs.length
    { s with free := s.free + 1 }.physWrite (tephraBase die) (leBytes 4 evs.length ++
      leBytes 4 (t.wrapped.toNat + 2 * torn.toNat) ++ leBytes 56 0 ++ evs.flatMap TephraEv.bytes)
/-- Every die that can copies its ring. -/
def State.tephraCopies (s : State) : State := (List.range 16).foldl State.tephraCopy s

/-! A die fails (R389). -/

/-- The handle of a network, which only software's networks have (R259). -/
def NetKey.handle? : NetKey → Option Nat
  | .launch _ i => some (256 + i.val)
  | .part _ i => some i
  | _ => none
/-- A network is lost (R270): the cores with an operation in flight on it keep it until they take their trap; the event is its home die's,
or with that failed the lowest working die's (log 19). -/
def State.loseNet (s : State) (e : NetKey × Net) : State :=
  let die := if s.failed.getLsbD e.2.home then s.eventDie else e.2.home
  (((s.setNet e.1 { e.2 with lost := true, ops := e.2.ops.filter fun o => !o.dead }).reapNet e.1).releaseUnpins).event die 0x0A e.2.part 0xFFFF (NetKey.handle? e.1) none
/-- An address of a launch lies in a failed die's memory. -/
def State.inDead (s : State) (l : Launch) (va : Nat) : Bool :=
  va != 0 && (match s.walk l.ctx va .read with | .ok x => s.deadMem (s.twinned x false).hpa | _ => false)
/-- What a launch needs has been lost with the failing die (R389 step 4). -/
def State.launchLost (s : State) (die lid : Nat) (l : Launch) : Bool :=
  queueDie lid = die || s.inDead l l.fields.pjoin || s.inDead l l.fields.vmap || (l.fields.src = 1 && s.inDead l l.fields.work) ||
    (l.pend.any fun e => s.inDead l e.2.block) || (l.ready.any fun t => s.inDead l t.join) ||
    (l.run.any fun r => s.inDead l r.task.join) || (s.diesOf l.part).isEmpty
/-- A die failure is entered on every surviving die, and once in the event queue (R389, R397). -/
def State.dieEvent (s : State) (die : Nat) : State :=
  let first := s.eventDie
  let s := s.event first 0x09 0xFF 0xFFFF (some die) none
  ((List.range 16).filter fun d => d ≠ first && !s.failed.getLsbD d).foldl (fun s d =>
    let (s, a) := s.arg none
    s.tephraAdd { dt := s.now, code := 0x09, die := d, part := 0xFF, core := 0xFFFF, arg0 := die, arg1 := a }) s
/-- The tasks that ran on a die end with their open ranges (R303, R387, R389 step 2), and its other cores stop. -/
def State.tasksLost (s : State) (die : Nat) : State :=
  let s := (s.launches.flatMap fun e => (e.2.run.filter fun r => r.origin < 65536 && dieOf r.origin = die).map fun r => (e.1, r)).foldl
    (fun s q => match q.2.left with
      | [] => s
      | n :: _ => s.taskLost q.1 n q.2.left ((q.2.left.filterMap fun n => s.openAt (s.coreAt n)).eraseDups)) s
  ((s.allCores.filter fun c => c.id < 4112 && dieOf c.id = die && c.role != .idle).map Core.id).foldl State.stopCore s
/-- The leases of a die end with it, their commands with stamp 0x80 (log 23). -/
def State.leasesLost (s : State) (die : Nat) : State :=
  (s.leases.filter fun e => e.1 / 16 = die).foldl (fun s e =>
    let s := e.2.cmds.foldl (fun s m => s.pooledStamp e.2 m 0x80) s
    { s with leases := s.leases.del e.1 }) s
/-- A die fails, in the order of R389, but for the copies of the tephra rings. -/
def State.dieFails (s : State) (die : Nat) : State :=
  let s := { s with failed := s.failed ||| (1#16 <<< die) }
  let s := s.dieEvent die
  let s := (s.nets.filter fun e => e.2.home = die && !e.2.lost && shareOf 0 e.1 != .own).foldl State.loseNet s
  let busy := (s.allCores.filter fun c => c.id < 4112 && dieOf c.id = die && c.role != .idle).map Core.id
  let s := busy.foldl (fun s n =>
    let (s, w) := s.openWord
    (s.modCore n fun c => c.consumed 0 w.toNat).containSteps n) s
  let s := (List.range 256).foldl (fun s i => s.modCore (256 * die + i) fun c => { c with sealed := true, contained := true }) s
  let s := { s with out := (List.range 128).foldl (fun l i => setAdd l (128 * die + i)) s.out, clock := s.clock.del die }
  let s := s.tasksLost die
  let s := s.leasesLost die
  let s := { s with
    launches := s.launches.map fun (e : Nat × Launch) =>
      (e.1, if e.2.die = die then { e.2 with die := (s.diesOf e.2.part).headD die } else e.2)
    nets := s.nets.map fun (e : NetKey × Net) =>
      (e.1, if e.2.home = die ∧ shareOf 0 e.1 = Share.own then { e.2 with home := (s.diesOf e.2.part).headD die } else e.2) }
  let s := ((s.launches.filter fun e => s.launchLost die e.1 e.2).map Prod.fst).foldl State.killLaunch s
  (s.tables.map Prod.fst).foldl (fun s k => s.tableDie k die) s
/-- A die fails, and the surviving dies copy their rings (R389, R392). -/
def State.failDie (s : State) (die : Nat) : State := (s.dieFails die).tephraCopies
/-- `DIE_FAILURE` (R389). -/
def execDieFailure (die : Nat) (s : State) : Out :=
  .next (if die ≥ 16 ∨ s.failed.getLsbD die then s else s.failDie die)

/-- `CORE_CONTAINMENT`: a core that has consumed an uncorrectable error is contained, and its task ends (R386, R387); a supervisor
core's containment fails its die (R389). -/
def execCoreContainment (core : Nat) (s : State) : Out :=
  let c := s.coreAt core
  if !c.contained ∨ c.role = .idle then .next s
  else
    let us := (s.openAt c).toList
    let s := (c.chain.ids.filter fun n => n = core || (s.coreAt n).contained).foldl State.containSteps s
    let s := s.taskLost c.launch.toNat core c.chain.ids us
    .next (if isSupCore core ∧ !s.failed.getLsbD (dieOf core) then s.failDie (dieOf core) else s)

/-! Clock steps (R402). -/

/-- The main clock of a die in MHz. -/
def State.clockOf (s : State) (die : Nat) : Nat := s.clock.get 850 die
/-- The next lower clock. -/
def slower (f : Nat) : Nat := if f = 850 then 765 else if f = 765 then 680 else if f = 680 then 595 else 425
/-- The next higher clock. -/
def faster (f : Nat) : Nat := if f = 425 then 595 else if f = 595 then 680 else if f = 680 then 765 else 850
/-- A die takes another clock. -/
def State.setClock (s : State) (die f : Nat) : State :=
  if f = s.clockOf die ∨ die ≥ 16 ∨ s.failed.getLsbD die then s
  else ({ s with clock := s.clock.set 850 die f }).event die 0x12 0xFF 0xFFFF none (some f)
/-- `CLOCK_STEP_DOWN` (R402). -/
def execClockStepDown (die : Nat) (s : State) : Out := .next (s.setClock die (slower (s.clockOf die)))
/-- `CLOCK_STEP_UP` (R402). -/
def execClockStepUp (die : Nat) (s : State) : Out := .next (s.setClock die (faster (s.clockOf die)))

end Sys2Proof.Machine
end

