-- ==== Sys2Proof/Machine/Counting.lean ====
section
/-! DEFINITION. `CNT` and the steps of the counting networks (12_geyser.md R253, R254, R259 to R270). -/

namespace Sys2Proof.Machine

/-- The network that a handle names in the core's partition and launch (R259). One that is being destroyed is none but for
an operation in flight on it (R270). -/
def State.handle (s : State) (h : Word) : Option (NetKey × Net) :=
  let i := h.toNat % 256
  let k : Option NetKey :=
    if h.toNat ≥ 512 then none
    else if h.toNat ≥ 256 then (if i < 4 then some (.launch s.core.launch.toNat (Fin.ofNat 4 i)) else none)
    else some (.part s.myPart i)
  match k with
  | none => none
  | some k => match s.net k with
    | some n => if n.dying && (n.mine s.core.id).isNone then none else some (k, n)
    | none => none

/-- An operation at the input of a wire (R262). -/
def State.injects (s : State) (anti : Bool) (wire : Nat) : CntOp :=
  { core := s.core.id, ctx := s.core.ctx, anti := anti, wire := wire, pos := .wire wire, value := none, dead := false }

/-- `CNT` (R262). With nothing else scheduled the operation is carried through at once; else it is in flight and its steps
carry it (log 1). -/
def count (anti : Bool) (d a : XReg) (wire : Option XReg) (s : State) : Out :=
  issue { x := a :: wire.toList } { x := [d] } s fun s =>
    match s.handle (s.core.rx a) with
    | none => s.illegal 0x3A
    | some (k, n) =>
      let w := match wire with | none => s.core.id % 2 ^ n.lw | some b => (s.core.rx b).toNat
      if w ≥ 2 ^ n.lw then s.illegal 0x3A
      else s.classX 0x3A fun s =>
        if n.lost then .next (((s.setNet k (n.forget s.core.id)).reapNet k).raise 0x09 0 (s.core.rx a).toNat 0)
        else
          let fresh := (n.mine s.core.id).isNone
          let n := if fresh then { n with ops := n.ops ++ [s.injects anti w] } else n
          let back : Bool := match n.mine s.core.id with | some o => o.value.isSome | none => false
          if s.agenda = [] ∨ back then
            let s := s.turnOf n s.core.id
            let (n', v) := n.take s.core.id s.now
            let steps := if back then 0 else (network n.lw n.per).1.length * 2 / 2 ^ n.lw
            (((s.setNet k n').reapNet k).countDie n.home 0x0D steps).nowX d (v.getD 0)
          else .next ((s.setNet k n).upd fun c => { c.waits with stage := d.val + 1 })

/-- `CNT.tk` (R262). -/
def execCntToken (d a : XReg) (wire : Option XReg) (s : State) : Out := count false d a wire s
/-- `CNT.at` (R262). -/
def execCntAntiToken (d a : XReg) (wire : Option XReg) (s : State) : Out := count true d a wire s

/-- The `i`-th operation of a network takes its next step; a compensating operation that has returned is gone (R269). -/
def Net.stepOp (n : Net) (i : Nat) : Net :=
  match n.ops[i]? with
  | none => n
  | some o =>
    let (n, o) := n.step1 o
    if o.value.isSome ∧ o.core ≥ 4096 ∧ o.dead then { n with ops := n.ops.eraseIdx i } else { n with ops := n.ops.set i o }

/-- A step is made, and stands in the order of its cycle. -/
def Net.steps1 (n : Net) (i : Nat) (q : NetStep) : Net :=
  (n.stepOp i).made q.time [q]

/-- `BALANCER_STEP`: the `i`-th operation of a network takes the step of the balancer before it (R253, R262). One that its cycle's
order leaves behind waits for the next cycle (R263). -/
def execBalancerStep (key : NetKey) (i : Nat) (s : State) : Out :=
  match s.net key with
  | none => .next s
  | some n => .next (match n.stepAt i s.now with
    | some q => if !q.exit && n.inOrder q then (s.setNet key (n.steps1 i q)).countDie n.home 0x0D 1 else s
    | none => s)
/-- `EXIT_STEP`: the `i`-th operation of a network takes its exit's step and its value returns (R254, R262, R263). -/
def execExitStep (key : NetKey) (i : Nat) (s : State) : Out :=
  match s.net key with
  | none => .next s
  | some n => .next (match n.stepAt i s.now with
    | some q => if q.exit && n.inOrder q then ((s.setNet key (n.steps1 i q)).reapNet key).releaseUnpins else s
    | none => s)

/-- A VOID record's doubleword (R268). -/
def voidWord (v : Word) : Nat := 0xFE * 2 ^ 56 + v.toNat % 2 ^ 56
/-- The VOID write of a token's value: a release of the home die's supervisor core (R269); a fault enters the tephra record. -/
def State.voidWrite (s : State) (n : Net) (ctx : Nat) (v : Word) : State :=
  let s := s.release (4096 + n.home) 3
  let va := n.base + v.toNat % 2 ^ n.clg * 2 ^ n.slg
  match s.walk ctx va .write with
  | .ok x =>
    let y := s.twinned x false
    s.writePieces n.part [{ hpa := y.hpa, len := 8, kind := y.kind, gpa := y.gpa }] (leBytes 8 (voidWord v))
  | _ => s.event n.home 0x0D n.part 0xFFFF (some va) none

/-- Every operation that a killed context had in flight has returned (R269). -/
def State.allBack (s : State) (ctx : Nat) : Bool :=
  s.nets.all fun e => e.2.ops.all fun o => !(o.dead && o.core < 4096 && o.ctx = ctx) || o.value.isSome

/-- `KILL_COMPENSATION`: the home die's supervisor core compensates the `i`-th operation of a network, whose issuer was
killed (R269). The void base is translated in the killed context (log 67). -/
def execKillCompensation (key : NetKey) (i : Nat) (s : State) : Out :=
  match s.net key with
  | none => .next s
  | some n =>
    match n.ops[i]? with
    | none => .next s
    | some o =>
      if !o.dead ∨ o.core ≥ 4096 ∨ !s.allBack o.ctx then .next s
      else
        let n := { n with ops := n.ops.eraseIdx i }
        let s := s.setNet key n
        .next (if n.lost then (s.reapNet key).releaseUnpins
          else if n.void then
            ((if o.anti then s else s.voidWrite n o.ctx (o.value.getD 0)).reapNet key).releaseUnpins
          else
            let q : CntOp := { o with core := 4096 + n.home, anti := !o.anti, pos := .wire o.wire, value := none }
            s.setNet key { n with ops := n.ops ++ [q] })

end Sys2Proof.Machine
end

