-- ==== Sys2Proof/Machine/TimePort.lean ====
section
/-! DEFINITION. The discipline of device time and the 1588 port (15_deadlines.md R294 to R296; 23_module.md R400). Offsets
are the source's time less device time, in nanoseconds. -/

namespace Sys2Proof.Machine

/-- The state of the discipline changes, with its event (R295, R397). -/
def State.timeState (s : State) (st : BitVec 2) : State :=
  if s.time.state = st then s
  else ({ s with time := { s.time with state := st } }).event s.eventDie 0x0B 255 0xFFFF none none

/-- An offset of one millisecond in nanoseconds (R296). -/
def slewLimit : Int := 1000000

/-- Device time moves on at once. -/
def TimePort.jump (t : TimePort) (ns : Int) : TimePort := { t.setFine ((t.fine : Int) + ns * 2 ^ 40).toNat with slew := 0 }

/-- A correction (R296): a forward offset above 1 ms, or the first one that lies ahead, is a step; any other is slewed. -/
def TimePort.correct (t : TimePort) (off : Int) : TimePort :=
  let t' := if off > slewLimit ∨ (¬ t.given ∧ off > 0) then t.jump off else { t with slew := off * 2 ^ 40 }
  { t' with given := true }

/-- A source corrects device time and sets the rate word (R294, R296), whose value the spec leaves to the discipline
(log 7). -/
def State.discipline (s : State) (off : Int) : State :=
  let r := Sys2Proof.Config.rateWord s.free
  { s with free := s.free + 1, time := { s.time.correct off with rate := r, offset := BitVec.ofInt 32 off } }

/-- The source of the discipline is lost: PTM while it delivers, else holdover (R295). -/
def State.dropSource (s : State) : State :=
  let s := { s with time := { s.time with within := 0, twoStep := none } }
  if s.time.state = 0 ∧ s.time.ptm then s.timeState 1
  else if s.time.state = 0 ∨ s.time.state = 1 then
    ({ s with time := { s.time with lost := s.now, ptm := false } }).timeState 2
  else s

/-- The selection of a master starts again (R400). -/
def State.reselect (s : State) : State :=
  let s := { s with time := { s.time with master := none, within := 0, twoStep := none, req := false } }
  if s.time.state = 0 then s.dropSource else s

/-- A measured offset of the 1588 port (R295): it corrects device time unless PTM is the source, and after sixteen sync
intervals within 50 ns the port is locked. -/
def State.measured (s : State) (off : Int) : State :=
  let n := if off.natAbs ≤ 50 then s.time.within + 1 else 0
  let s := if s.time.state = 1 then { s with time := { s.time with offset := BitVec.ofInt 32 off } } else s.discipline off
  let s := { s with time := { s.time with within := n, twoStep := none } }
  if n ≥ 16 then s.timeState 0 else if s.time.state = 0 then s.dropSource else s

/-! The best master clock algorithm (R400; the data set comparison of IEEE 1588-2019, PRESUMED: log 11). -/

/-- The first difference of two rows of values decides: the lower is better. -/
def lowerFirst : List (Nat × Nat) → Bool
  | [] => false
  | (a, b) :: l => if a < b then true else if b < a then false else lowerFirst l
/-- A data set is better than another: by its grandmaster; for one grandmaster by the steps from it, then by the sender. -/
def announceBetter (a b : Announce) : Bool :=
  if a.gm = b.gm then lowerFirst [(a.steps.toNat, b.steps.toNat), (a.src.toNat, b.src.toNat)]
  else lowerFirst [(a.prio1.toNat, b.prio1.toNat), (a.cls.toNat, b.cls.toNat), (a.acc.toNat, b.acc.toNat), (a.var.toNat, b.var.toNat),
    (a.prio2.toNat, b.prio2.toNat), (a.gm.toNat, b.gm.toNat)]

/-- The port runs: it is enabled, and the start has not skipped it (R396, R403). -/
def State.portRuns (s : State) : Bool := s.time.enabled && !s.skipped 10
/-- A message of the selected master in the port's domain (R396, R400). -/
def State.heeds (s : State) (m : PtpMsg) : Bool :=
  s.portRuns && m.domain = s.time.domain && (match s.time.master with | some a => a.src = m.src | none => false)

/-- `PTP_ANNOUNCE`: the data set of an announce message of the port's domain feeds the selection of a master (R400). One that is 255 steps
or more from its grandmaster takes no part. -/
def execPtpAnnounce (a : Announce) (s : State) : Out :=
  let take (s : State) : State := { s with time := { s.time with master := some a } }
  .next (if !s.portRuns ∨ a.domain ≠ s.time.domain ∨ a.steps.toNat ≥ 255 then s
    else match s.time.master with
      | none => take s
      | some b => if a.src = b.src then take s else if announceBetter a b then take s.reselect else s)
/-- `PTP_SYNC`: the sync time that the message carries less the time of its arrival; a two-step master's follow-up brings
the rest (R400). -/
def execPtpSync (m : PtpMsg) (twoStep : Bool) (s : State) : Out :=
  .next (if !s.heeds m then s
    else if twoStep then { s with time := { s.time with twoStep := some m.value } }
    else s.measured (m.value + s.time.delay))
/-- `PTP_FOLLOW_UP` (R400). -/
def execPtpFollowUp (m : PtpMsg) (s : State) : Out :=
  .next (match s.time.twoStep with
    | some o => if s.heeds m then s.measured (o + m.value + s.time.delay) else s
    | none => s)
/-- `PTP_DELAY_RESP`: the response to the outstanding request completes the measurement (R400). -/
def execPtpDelayResp (m : PtpMsg) (s : State) : Out :=
  .next (if s.time.req ∧ s.heeds m then { s with time := { s.time with delay := m.value, req := false } } else s)
/-- `DELAY_REQUEST` (R400). -/
def execDelayRequest (s : State) : Out :=
  .next (if s.portRuns ∧ s.time.master.isSome then { s with time := { s.time with req := true } } else s)
/-- `PTP_MANAGEMENT`: no management message is answered (R400). -/
def execPtpManagement (_data : List Byte) (s : State) : Out := .next s
/-- `PTM_EXCHANGE`: it corrects device time while 1588 is not locked; PTM runs on link 0 (R295, R395). -/
def execPtmExchange (offset : Int) (s : State) : Out :=
  .next (if !s.pcie.getLsbD 0 then s
    else
      let s := { s with time := { s.time with ptm := true } }
      if s.time.state = 0 then s else (s.discipline offset).timeState 1)
/-- `TIME_SOURCE_LOSS` (R295). -/
def execTimeSourceLoss (s : State) : Out := .next s.dropSource
/-- Ten seconds in nanoseconds. -/
def holdoverTime : Nat := 10000000000
/-- `HOLDOVER_EXPIRY` (R295). -/
def execHoldoverExpiry (s : State) : Out :=
  .next (if s.time.state = 2 ∧ s.time.lost + holdoverTime ≤ s.now then
    ({ s with time := { s.time with rate := nominalRate } }).timeState 3
  else s)
/-- `PTP_CONTROL_WRITE`: the register at 0x200 (R396, R400). -/
def execPtpControlWrite (v : Word) (s : State) : Out :=
  let t := s.time
  let dom := v.truncate 7
  let en := v.getLsbD 8
  let s' := { s with time := { t with domain := dom, enabled := en } }
  .next (if dom = t.domain ∧ en = t.enabled then s' else s'.reselect)

end Sys2Proof.Machine
end

