-- ==== Sys2Proof/Machine/Module.lean ====
section
/-! DEFINITION. The host interface: queue registers, the registers of BAR0, windows, SPDM, links, host writes, resets and the
start sequence (19_isolation.md R340; 22_containment.md R392, R393; 23_module.md R395 to R403; 01_machine.md R2). -/

namespace Sys2Proof.Machine

/-- A function is there: link 0 is up, and after a failed start only the physical function is presented (R393, R395). -/
def State.presents (s : State) (fn : Nat) : Bool := s.pcie.getLsbD 0 && (decide (fn = 0) || s.start != 2)

/-! Host queues (R340, R398). -/

/-- A size that R398 admits for a ring. -/
def ringSizeOk (n : Nat) : Bool := 128 ≤ n && n ≤ 2 ^ 26 && 2 ^ n.log2 = n
/-- `QUEUE_DOORBELL`: a write to `qwr` (R340, R398). -/
def execQueueDoorbell (q : Nat) (v : Word) (s : State) : Out :=
  match s.queues.find? q with
  | none => .next s
  | some k =>
    if k.dev ∨ k.err ∨ !s.presents k.part then .next s
    else
      let n := v.toNat
      if !ringSizeOk k.qsize ∨ k.qbase % 128 ≠ 0 ∨ s.ringOut k.ctx k.qbase k.qsize ∨ n < k.qwr ∨ n > k.qrd + k.qsize / 128 then
        .next (s.queueError q)
      else .next ((s.modQueue q fun k => { k with qwr := n }).touchQueue q)
/-- `QUEUE_BASE_SIZE_WRITE`: a write to `qbase` or `qsize`, an error while records are untaken (R398). -/
def execQueueBaseSizeWrite (q : Nat) (size : Bool) (v : Word) (s : State) : Out :=
  match s.queues.find? q with
  | none => .next s
  | some k =>
    if k.dev ∨ !s.presents k.part then .next s
    else
      let s := if k.qwr > k.qrd then s.queueError q else s
      .next (s.modQueue q fun k => if size then { k with qsize := v.toNat } else { k with qbase := v.toNat })

/-! Windows (R399). -/

/-- An entry of the window table. What its reserved bytes and the high bits of `wctx` hold is not looked at: no rule gives a nonzero
value there a fate (log 58). -/
def Window.ofBytes (bs : List Byte) : Window :=
  let u := recNat bs
  { part := u 0 2, num := u 2 2, dir := u 4 1, port := u 5 1, ctx := u 6 2 % 16, peer := BitVec.ofNat 64 (u 8 8), pnum := u 16 2
    base := u 24 8, size := u 32 8, cnt := u 40 8 }
/-- `WINDOW_TABLE_LOAD`: a write of the entry count; the device reads the table (R396, R399). -/
def execWindowTableLoad (count : Nat) (s : State) : Out :=
  if count > 4096 then .next s
  else .next { s with
    winCount := count
    windows := ((List.range count).map fun i => Window.ofBytes (s.physRead (s.winBase + 64 * i) 64)).filter fun w => w.dir = 1 || w.dir = 2 }

/-! Registers (R396). -/

/-- `TEPHRA_COPY_REQUEST`: every die that can copies its ring (R392, R396). -/
def execTephraCopyRequest (s : State) : Out := .next s.tephraCopies

/-- A write to an event counter: its source at +0, its value at +8 (R394, R396). -/
def EvCounter.write (e : EvCounter) (off : Nat) (v : Word) : EvCounter :=
  if off = 0 then { e with src := v.toNat % 256 } else if off = 8 then { e with val := v } else e
/-- `REGISTER_WRITE`: a write to a register of a function's BAR0 (R396), when the function is there (R395). Registers of the physical
function ignore the writes of the others, reserved bits are ignored (R5), the bases of tables are rounded down (log 76), and what is only
read takes no write. -/
def execRegisterWrite (fn off : Nat) (v : Word) (s : State) : Out :=
  let n := v.toNat
  if !s.presents fn then .next s
  else if 0x40000 ≤ off ∧ off < 0x80000 then
    let q := (off - 0x40000) / 64
    match s.queues.find? q with
    | none => .next s
    | some k =>
      if k.part ≠ fn then .next s
      else if off % 64 = 0 then execQueueBaseSizeWrite q false v s
      else if off % 64 = 8 then execQueueBaseSizeWrite q true v s
      else if off % 64 = 16 then execQueueDoorbell q v s
      else .next s
  else if fn ≠ 0 then .next s
  else if off = 0x100 then .next { s with winBase := n - n % 64 }
  else if off = 0x108 then execWindowTableLoad n s
  else if off = 0x200 then execPtpControlWrite v s
  else if off = 0x300 then .next { s with evBase := n - n % 4096 }
  else if off = 0x308 then .next (if 6 ≤ n ∧ n ≤ 16 then { s with evLg := n } else s)
  else if off = 0x318 then .next { s with evCons := v }
  else if off = 0x10000 then .next (if n = 1 then s.tephraCopies else s)
  else if 0x4000 ≤ off ∧ off < 0x4000 + 16 * 512 then
    let i := (off - 0x4000) / 16
    .next { s with dieEv := s.dieEv.put i ((s.dieEv.get { src := 0, val := 0 } i).write (off % 16) v) }
  else if 0x100000 ≤ off ∧ off < 0x100000 + 16 * 32768 then
    let i := (off - 0x100000) / 16
    .next (s.modCore (i / 8) fun c => { c with events := c.events.mapIdx fun j e => if j = i % 8 then e.write (off % 16) v else e })
  else .next s

/-- The start record's image (R393). -/
def State.startBytes (s : State) : List Byte :=
  leBytes 4 s.boots.toNat ++ leBytes 2 s.record.length ++ leBytes 58 0 ++ s.record.flatMap fun e =>
    leBytes 2 e.step ++ leBytes 1 e.tries ++ leBytes 1 e.out ++ leBytes 2 e.alt ++ leBytes 2 0 ++ leBytes 4 e.ms ++ leBytes 4 e.detail
/-- A register of a host queue's block (R398); its last bytes read zero. -/
def Queue.read (k : Queue) (off : Nat) : Nat :=
  if off = 0 then k.qbase else if off = 8 then k.qsize else if off = 16 then k.qwr else if off = 24 then k.qrd
  else if off = 32 then (if k.err then 2 else if k.active then 1 else 0) else 0
/-- An event-counter register (R394, R396): the source, or the value. -/
def EvCounter.read (e : EvCounter) (off : Nat) : Nat := if off = 0 then e.src else if off = 8 then e.val.toNat else 0
/-- What a read of the doubleword at an offset of a function's BAR0 gives (R396, R398): reserved bits and reserved offsets read zero
(R5), and so do the registers of the physical function and the blocks of queues of other partitions in a virtual function. The
tephra copy request reads zero, since the copies end in the step that starts them. Until the module is ready every register
but the one at offset 0 reads zero (R403). A function that is not there answers nothing (R393, R395). -/
def State.barRead (s : State) (fn off : Nat) : Option Word :=
  if !s.presents fn then none
  else some (BitVec.ofNat 64 (
    if off = 0 then fn % 64 + 256 * s.start.toNat + 1024 * s.failed.toNat
    else if s.start ≠ 1 then 0
    else if 0x40000 ≤ off ∧ off < 0x80000 then
      match s.queues.find? ((off - 0x40000) / 64) with
      | some k => if k.part = fn ∧ !k.dev then k.read (off % 64) else 0
      | none => 0
    else if fn ≠ 0 then 0
    else if off = 0x100 then s.winBase
    else if off = 0x108 then s.winCount
    else if off = 0x200 then s.time.domain.toNat + 256 * s.time.enabled.toNat
    else if off = 0x208 then s.time.state.toNat + 2 ^ 32 * s.time.offset.toNat
    else if off = 0x300 then s.evBase
    else if off = 0x308 then s.evLg
    else if off = 0x310 then s.evProd.toNat
    else if off = 0x318 then s.evCons.toNat
    else if off = 0x320 then s.evLost.toNat
    else if 0x3000 ≤ off ∧ off < 0x4000 then leNat ((s.startBytes.drop (off - 0x3000)).take 8)
    else if 0x4000 ≤ off ∧ off < 0x4000 + 16 * 512 then
      (s.dieEv.get { src := 0, val := 0 } ((off - 0x4000) / 16)).read (off % 16)
    else if 0x100000 ≤ off ∧ off < 0x100000 + 16 * 32768 then
      let i := (off - 0x100000) / 16
      ((s.coreAt (i / 8)).events.toList.getD (i % 8) { src := 0, val := 0 }).read (off % 16)
    else 0))
/-- A byte of the physical function's BAR1: the reserved tephra regions, read-only (R396). -/
def State.bar1Read (s : State) (off : Nat) : Option Byte :=
  if s.presents 0 then (s.physRead (tephraBase (off / 262144) + off % 262144) 1).head? else none

/-! SPDM (R401). The layouts are those of DMTF SPDM 1.2 (PRESUMED: log 11). -/

/-- A response: version 1.2, its code, what the fields name by offset, and bytes that the spec does not give (log 11). -/
def State.spdmAnswer (s : State) (code : Nat) (fields : List (Nat × List Byte)) : State × List Byte :=
  let n := s.free
  let fs := (0, leBytes 1 0x12 ++ leBytes 1 code) :: fields
  let len := fs.foldl (fun m f => max m (f.1 + f.2.length)) (max 4 (Sys2Proof.Config.spdmLength n))
  let free := (List.range len).map (Sys2Proof.Config.spdmByte n)
  ({ s with free := n + 1 }, fs.foldl (fun r f => r.take f.1 ++ f.2 ++ r.drop (f.1 + f.2.length)) free)
/-- An error of the responder. -/
def spdmError (why : Nat) : Nat × List (Nat × List Byte) := (0x7F, [(2, leBytes 1 why)])
/-- The responder answers a request on link 0's mailbox with a code and fields; one that comes in its order takes the exchange from stage
`need` on to `goal`, and any other meets an error (log 11). -/
def State.spdmStep (s : State) (need goal : Nat) (req : List Byte) (ans : Nat × List (Nat × List Byte)) : State :=
  if !s.presents 0 then s
  else if s.spdm.stage < need then
    let (s, r) := let e := spdmError 0x04; s.spdmAnswer e.1 e.2
    { s with spdm := { s.spdm with last := r } }
  else
    let (s, r) := s.spdmAnswer ans.1 ans.2
    { s with spdm := { stage := goal, log := (if goal = 1 then [] else s.spdm.log) ++ req ++ r, last := r } }
/-- A request that is refused. -/
def State.spdmRefuse (s : State) : State :=
  if !s.presents 0 then s else let (s, r) := let e := spdmError 0x01; s.spdmAnswer e.1 e.2; { s with spdm := { s.spdm with last := r } }
/-- `SPDM_GET_VERSION` (R401): version 1.2 alone. -/
def execSpdmGetVersion (req : List Byte) (s : State) : Out :=
  .next (s.spdmStep 0 1 req (0x04, [(0, leBytes 1 0x10), (5, leBytes 1 1 ++ leBytes 2 0x1200)]))
/-- `SPDM_GET_CAPABILITIES` (R401). -/
def execSpdmGetCapabilities (req : List Byte) (s : State) : Out := .next (s.spdmStep 1 2 req (0x61, []))
/-- `SPDM_NEGOTIATE_ALGORITHMS` (R401): TPM_ALG_SHA_256 for measurements, TPM_ALG_ECDSA_ECC_NIST_P256 and TPM_ALG_SHA_256 only. -/
def execSpdmNegotiateAlgorithms (req : List Byte) (s : State) : Out :=
  .next (s.spdmStep 2 3 req (0x63, [(8, leBytes 4 0x02 ++ leBytes 4 0x10 ++ leBytes 4 0x01)]))
/-- `SPDM_GET_DIGESTS` (R401): slot 0 alone has a chain. -/
def execSpdmGetDigests (req : List Byte) (s : State) : Out := .next (s.spdmStep 3 3 req (0x01, [(3, leBytes 1 0x01)]))
/-- `SPDM_GET_CERTIFICATE`: slot 0 only (R401). -/
def execSpdmGetCertificate (slot : Nat) (req : List Byte) (s : State) : Out :=
  .next (if slot = 0 then s.spdmStep 3 3 req (0x02, [(2, leBytes 1 0)]) else s.spdmRefuse)
/-- `SPDM_CHALLENGE` (R401). -/
def execSpdmChallenge (req : List Byte) (s : State) : Out := .next (s.spdmStep 3 3 req (0x03, []))
/-- The head of measurement block `i` in a MEASUREMENTS response from `o` on: its index, the DMTF layout and a SHA-256 digest, whose value
is free. -/
def measureBlock (o i : Nat) : Nat × List Byte := (o, leBytes 1 i ++ leBytes 1 1 ++ leBytes 2 35 ++ leBytes 1 (i - 1) ++ leBytes 2 32)
/-- The answer to GET_MEASUREMENTS (R401): blocks 1 to 4 are the boot ROM, the supervisor firmware, the Caldera firmware and the start
record's header; the request's fourth byte asks for their number, for one of them or for all. Nothing for any other. -/
def measurements (op : Nat) : Option (Nat × List (Nat × List Byte)) :=
  if op = 0 then some (0x60, [(2, leBytes 1 4), (4, leBytes 4 0)])
  else if op = 0xFF then
    some (0x60, (4, leBytes 1 4 ++ leBytes 3 156) :: ((List.range 4).map fun i => measureBlock (8 + 39 * i) (i + 1)) ++ [(163, leBytes 1 0)])
  else if op ≤ 4 then some (0x60, [(4, leBytes 1 1 ++ leBytes 3 39), measureBlock 8 op, (46, leBytes 1 0)])
  else none
/-- `SPDM_GET_MEASUREMENTS` (R401). -/
def execSpdmGetMeasurements (req : List Byte) (s : State) : Out :=
  .next (match measurements (req.getD 3 0).toNat with
    | some a => s.spdmStep 3 3 req a
    | none => s.spdmRefuse)

/-! The start (R403). -/

/-- An address of a reserved tephra region (R392). -/
def inTephra (a : Nat) : Bool := (List.range 16).any fun d => tephraBase d ≤ a && a < tephraBase d + 262144
/-- A quadrant after the array test: the columns that are faulty for good are found again (R384, R403). -/
def Quad.tested (q : Quad) : Quad :=
  { Quad.reset with faults := q.faults, retired := q.faults.take 2, failed := decide (q.faults.length > 2) }
/-- A cluster after the array test. -/
def Cluster.tested (c : Cluster) : Cluster := { Cluster.reset with quads := c.quads.map Quad.tested }
/-- Everything volatile of the module is gone but, after a warm reset, the tephra regions (R2, R392, R403). Module flash and fuses keep
what they hold, and host memory, which is none of the module's, stays (log 4); the agenda and the counter of free values are the
model's own (log 1, log 5). -/
def State.wiped (s : State) (warm : Bool) : State :=
  { State.reset with agenda := s.agenda, free := s.free, boots := s.boots, record := s.record, rollback := s.rollback
                     mem := s.mem.filter fun c => isHost c.1 || (warm && inTephra c.1)
                     clusters := s.clusters.map fun e => (e.1, e.2.tested) }

/-- What a step of the start may do when it fails twice. -/
inductive Fallback where
  | skip | die | other | stop
  deriving DecidableEq, Repr
/-- The table of R403. -/
def fallback (step : Nat) : Fallback :=
  if step = 9 ∨ step = 10 then .skip else if step = 2 ∨ step = 6 then .die else if step = 7 ∨ step = 11 then .stop else .other
/-- The header of a reserved region that step 5 finds not valid is replaced by an empty one (R403). -/
def State.checkHeader (s : State) (die : Nat) : State :=
  let b := tephraBase die
  if s.physNat b 4 > 4096 ∨ s.physNat (b + 4) 4 / 4 ≠ 0 ∨ s.physNat (b + 8) 56 ≠ 0 then { s with mem := s.mem.zero b 64 } else s
/-- The work of a step that matters to the state: headers, links, the time port, the start status (R403). -/
def State.startWork (s : State) (step out : Nat) : State :=
  if step = 5 then (List.range 16).foldl State.checkHeader s
  else if step = 8 then
    let (s, w) := if out = 2 then s.openWord else (s, 1)
    { s with pcie := if w.getLsbD 0 then 3 else 1 }
  else if step = 11 then { s with start := 1 }
  else s
/-- One step of the start with its entry and event: whether the start goes on (R393, R403; log 12). A firmware image below the
anti-rollback counter is refused, and with the backup refused too the start fails (R401). A die that the step marks failed fails as in R389; in step 2 there is no memory yet
to copy the tephra rings to. -/
def State.startStep (s : State) (step : Nat) : State × Bool :=
  let use := s.free
  let s := { s with free := use + 1 }
  let w := Sys2Proof.Config.startOutcome use step
  let low (slot : Nat) : Bool := step = 1 && decide ((Sys2Proof.Config.imageVersion use slot).toNat < s.rollback)
  let fails : Bool := w % 3 = 2 || low 0
  let both : Bool := step = 1 && (w / 3 % 2 = 1 || low 1)
  let fb := fallback step
  let out : Nat := if !fails then 1 else if both then 4 else match fb with | .skip => 3 | .stop => 4 | _ => 2
  let gone : BitVec 16 := if fails ∧ fb = .die then Sys2Proof.Config.startFailed use step else 0
  let s := ((List.range 16).filter fun d => gone.getLsbD d && !s.failed.getLsbD d).foldl
    (fun s d => if step = 2 then s.dieFails d else s.failDie d) s
  let d := Sys2Proof.Config.startDetail use step
  let alt := if out ≠ 2 then 0 else if fb = .die then s.failed.toNat else (Sys2Proof.Config.openWord use).toNat % 65536
  let e : StartEntry := { step := step, tries := if fails ∨ w % 3 = 1 then 2 else 1, out := out, alt := alt
                          ms := d.toNat % 2 ^ 32, detail := d.toNat / 2 ^ 32 }
  let s := { s with record := s.record.map fun (x : StartEntry) => if x.step = step then e else x }
  let s := s.event s.eventDie 0x11 0xFF 0xFFFF none (some out)
  if out = 4 ∨ s.failed = BitVec.allOnes 16 then ({ s with start := 2 }, false) else (s.startWork step out, true)
/-- The steps from one on. -/
def State.startFrom : Nat → State → Nat → State
  | 0, s, _ => s
  | n + 1, s, step => let (s, go) := s.startStep step; if go then State.startFrom n s (step + 1) else s
/-- The record of a start in which no step has run (R393). -/
def emptyRecord : List StartEntry :=
  (List.range 11).map fun i => { step := i + 1, tries := 0, out := 0, alt := 0, ms := 0, detail := 0 }
/-- The start sequence (R403): the boot is counted and the record begun anew (R393). -/
def State.boot (s : State) : State := State.startFrom 11 { s with boots := s.boots + 1, record := emptyRecord } 1

/-- `POWER_ON` (R403). -/
def execPowerOn (s : State) : Out := .next (s.wiped false).boot
/-- `COLD_RESET` (R2, R403). -/
def execColdReset (s : State) : Out := .next (s.wiped false).boot
/-- `WARM_RESET`: the tephra rings are copied, and the start runs again (R392, R403). -/
def execWarmReset (s : State) : Out := .next (s.tephraCopies.wiped true).boot
/-- `POWER_LOSS`: every volatile state is gone (R2, R389). -/
def execPowerLoss (s : State) : Out := .next (s.wiped false)

/-! Links (R248, R395, R399). -/

/-- PTM delivers no more (R295, R395). -/
def State.ptmLost (s : State) : State :=
  let s' := { s with time := { s.time with ptm := false } }
  if s.time.state = 1 then s'.dropSource else s'
/-- `PCIE_LINK_FAILURE` (R395): with link 0 go the functions, and every context is killed. -/
def execPcieLinkFailure (link : Fin 2) (s : State) : Out :=
  let s := { s with pcie := s.pcie &&& ~~~(1#2 <<< link.val) }
  if link = 1 then .next s
  else
    let s := s.ptmLost
    .next ((s.ctxs.map Prod.fst).foldl (fun s c => let (s, w) := s.openWord; s.killContext c w.toNat) s)
/-- `SLOVAS_LINK_TRAINING`: the peers exchange their serials (R399); no port trains when the start has skipped them (R403). -/
def execSlovasLinkTraining (port : Nat) (peer : Word) (s : State) : Out :=
  .next (if port < 16 ∧ !s.skipped 9 then { s with peers := s.peers.put port peer } else s)
/-- `SLOVAS_LINK_FAILURE`: a `PUT` that is not handed off ends with 0x80, and what is on the link is lost (R248). -/
def execSlovasLinkFailure (port : Nat) (s : State) : Out :=
  let mine (q : Nat × EngineCmd) : Bool := match s.outWindow ((s.coreAt q.1).ctx / 16) (q.2.op 0).toNat with
    | some w => w.port = port | none => false
  let gone := s.puts.filter mine
  let s := { s with peers := s.peers.del port, puts := s.puts.filter (fun q => !mine q), putOuts := s.putOuts.filter fun o => o.port ≠ port }
  .next (gone.foldl (fun s q => (s.linkLost q.1 q.2.seq (q.2.op 0).toNat).finishCmd q.1 q.2.seq 0x80 0) s)

/-! The host and memory. -/

/-- `HOST_WRITE_TO_DEVICE_MEMORY`: a host write is performed (R60, R215); it comes over link 0 (R395). -/
def execHostWriteToDeviceMemory (_ctx hpa : Nat) (data : List Byte) (s : State) : Out :=
  .next (if !s.pcie.getLsbD 0 ∨ hpaReserved hpa ∨ hpaReserved (hpa + data.length - 1) ∨ isHost hpa then s else s.physWrite hpa data)
/-- `FETCH_RETURN`: the fetch of the core returns its words, and its freeze ends (R36, R69). -/
def execFetchReturn (s : State) : Out :=
  match s.enter s.core.pc with
  | .ok s _ => .next (s.upd fun c => if c.frozen then { c with waiting := false, frozen := false } else c)
  | _ => .next s

end Sys2Proof.Machine
end

