-- ==== Sys2Proof/Machine/Dispatch.lean ====
section
/-! DEFINITION. The dispatch: one arm per constructor of `Instr`, each a call of its meaning. -/

namespace Sys2Proof.Machine

def exec (i : Instr) (s : State) : Host.Outcome State Fault Refusal :=
  match i with
  | .ill code => Sys2Proof.Machine.execIll code s
  | .nop n => Sys2Proof.Machine.execNop n s
  | .br disp => Sys2Proof.Machine.execBr disp s
  | .brAbsolute t => Sys2Proof.Machine.execBrAbsolute t s
  | .bc q p disp => Sys2Proof.Machine.execBc q p disp s
  | .bcmp c a b disp => Sys2Proof.Machine.execBcmp c a b disp s
  | .jr a => Sys2Proof.Machine.execJr a s
  | .call disp => Sys2Proof.Machine.execCall disp s
  | .callAbsolute t => Sys2Proof.Machine.execCallAbsolute t s
  | .ret a => Sys2Proof.Machine.execRet a s
  | .loop l e count => Sys2Proof.Machine.execLoop l e count s
  | .loopr l a e => Sys2Proof.Machine.execLoopr l a e s
  | .lbrk l q p => Sys2Proof.Machine.execLbrk l q p s
  | .phaseX => Sys2Proof.Machine.execPhaseX s
  | .phaseC => Sys2Proof.Machine.execPhaseC s
  | .chainLeave => Sys2Proof.Machine.execChainLeave s
  | .chainForm rows cols => Sys2Proof.Machine.execChainForm rows cols s
  | .xferVector dir d a => Sys2Proof.Machine.execXferVector dir d a s
  | .xferScalar dir d a => Sys2Proof.Machine.execXferScalar dir d a s
  | .done => Sys2Proof.Machine.execDone s
  | .exit a => Sys2Proof.Machine.execExit a s
  | .add f d a b => Sys2Proof.Machine.execAdd f d a b s
  | .addLiteral f d a v => Sys2Proof.Machine.execAddLiteral f d a v s
  | .sub f d a b => Sys2Proof.Machine.execSub f d a b s
  | .subLiteral f d a v => Sys2Proof.Machine.execSubLiteral f d a v s
  | .addi d a im => Sys2Proof.Machine.execAddi d a im s
  | .mul d a b => Sys2Proof.Machine.execMul d a b s
  | .mulLiteral d a v => Sys2Proof.Machine.execMulLiteral d a v s
  | .mulhi f d a b => Sys2Proof.Machine.execMulhi f d a b s
  | .mulhiLiteral f d a v => Sys2Proof.Machine.execMulhiLiteral f d a v s
  | .mad neg d a b => Sys2Proof.Machine.execMad neg d a b s
  | .div u d a b => Sys2Proof.Machine.execDiv u d a b s
  | .divLiteral u d a v => Sys2Proof.Machine.execDivLiteral u d a v s
  | .rem u d a b => Sys2Proof.Machine.execRem u d a b s
  | .remLiteral u d a v => Sys2Proof.Machine.execRemLiteral u d a v s
  | .and n d a b => Sys2Proof.Machine.execAnd n d a b s
  | .andLiteral n d a v => Sys2Proof.Machine.execAndLiteral n d a v s
  | .or n d a b => Sys2Proof.Machine.execOr n d a b s
  | .orLiteral n d a v => Sys2Proof.Machine.execOrLiteral n d a v s
  | .xor n d a b => Sys2Proof.Machine.execXor n d a b s
  | .xorLiteral n d a v => Sys2Proof.Machine.execXorLiteral n d a v s
  | .shl d a sc => Sys2Proof.Machine.execShl d a sc s
  | .shr d a sc => Sys2Proof.Machine.execShr d a sc s
  | .sar d a sc => Sys2Proof.Machine.execSar d a sc s
  | .bfx d a pos wid => Sys2Proof.Machine.execBfx d a pos wid s
  | .bfxExtended sx d a pos wid => Sys2Proof.Machine.execBfxExtended sx d a pos wid s
  | .bfi d a pos wid => Sys2Proof.Machine.execBfi d a pos wid s
  | .bfiExtended d a pos wid => Sys2Proof.Machine.execBfiExtended d a pos wid s
  | .cmp c p a b => Sys2Proof.Machine.execCmp c p a b s
  | .cmpLiteral c p a v => Sys2Proof.Machine.execCmpLiteral c p a v s
  | .cmpi c p a im => Sys2Proof.Machine.execCmpi c p a im s
  | .sel d a b p => Sys2Proof.Machine.execSel d a b p s
  | .min u d a b => Sys2Proof.Machine.execMin u d a b s
  | .minLiteral u d a v => Sys2Proof.Machine.execMinLiteral u d a v s
  | .max u d a b => Sys2Proof.Machine.execMax u d a b s
  | .maxLiteral u d a v => Sys2Proof.Machine.execMaxLiteral u d a v s
  | .clz f d a => Sys2Proof.Machine.execClz f d a s
  | .popc w d a => Sys2Proof.Machine.execPopc w d a s
  | .li d im => Sys2Proof.Machine.execLi d im s
  | .liLiteral d v => Sys2Proof.Machine.execLiLiteral d v s
  | .plog t d a b => Sys2Proof.Machine.execPlog t d a b s
  | .plogFromx d a => Sys2Proof.Machine.execPlogFromx d a s
  | .plogTox d a => Sys2Proof.Machine.execPlogTox d a s
  | .srd d n => Sys2Proof.Machine.execSrd d n s
  | .swr n a => Sys2Proof.Machine.execSwr n a s
  | .time d => Sys2Proof.Machine.execTime d s
  | .timeFx d => Sys2Proof.Machine.execTimeFx d s
  | .lea d m => Sys2Proof.Machine.execLea d m s
  | .leaExtended d m imm => Sys2Proof.Machine.execLeaExtended d m imm s
  | .sfop f d a b => Sys2Proof.Machine.execSfop f d a b s
  | .sfopExtended f ty rm d a b => Sys2Proof.Machine.execSfopExtended f ty rm d a b s
  | .sfma neg sub d a b => Sys2Proof.Machine.execSfma neg sub d a b s
  | .sfmaExtended neg sub ty rm d a b => Sys2Proof.Machine.execSfmaExtended neg sub ty rm d a b s
  | .scvt target source sat d a => Sys2Proof.Machine.execScvt target source sat d a s
  | .scvtExtended target source sat rm d a => Sys2Proof.Machine.execScvtExtended target source sat rm d a s
  | .ld sz d m => Sys2Proof.Machine.execLd sz d m s
  | .ldExtended sz d m imm acq sx => Sys2Proof.Machine.execLdExtended sz d m imm acq sx s
  | .st sz m d => Sys2Proof.Machine.execSt sz m d s
  | .stExtended sz m d imm rel => Sys2Proof.Machine.execStExtended sz m d imm rel s
  | .memoryStorePerform q => Sys2Proof.Machine.execMemoryStorePerform q s
  | .ldf keep d m x => Sys2Proof.Machine.execLdf keep d m x s
  | .stf m d x => Sys2Proof.Machine.execStf m d x s
  | .atom op sz o d a b c imm => Sys2Proof.Machine.execAtom op sz o d a b c imm s
  | .atomv op o d e a b c imm => Sys2Proof.Machine.execAtomv op o d e a b c imm s
  | .watch m => Sys2Proof.Machine.execWatch m s
  | .waitw c d a => Sys2Proof.Machine.execWaitw c d a s
  | .fence k sc => Sys2Proof.Machine.execFence k sc s
  | .bar tag d => Sys2Proof.Machine.execBar tag d s
  | .barrierGenerationComplete lid level dom tag => Sys2Proof.Machine.execBarrierGenerationComplete lid level dom tag s
  | .cntToken d a wire => Sys2Proof.Machine.execCntToken d a wire s
  | .cntAntiToken d a wire => Sys2Proof.Machine.execCntAntiToken d a wire s
  | .balancerStep key im => Sys2Proof.Machine.execBalancerStep key im s
  | .exitStep key im => Sys2Proof.Machine.execExitStep key im s
  | .killCompensation key im => Sys2Proof.Machine.execKillCompensation key im s
  | .recv anytag d a b c tag => Sys2Proof.Machine.execRecv anytag d a b c tag s
  | .send mc d a b c tag pe => Sys2Proof.Machine.execSend mc d a b c tag pe s
  | .sendLiteral mc d c tag pe v => Sys2Proof.Machine.execSendLiteral mc d c tag pe v s
  | .messageArrival q => Sys2Proof.Machine.execMessageArrival q s
  | .sendn dir d a b c pe => Sys2Proof.Machine.execSendn dir d a b c pe s
  | .halo dirs d a b c q pe => Sys2Proof.Machine.execHalo dirs d a b c q pe s
  | .neighbourArrival q => Sys2Proof.Machine.execNeighbourArrival q s
  | .probe anytag d a b => Sys2Proof.Machine.execProbe anytag d a b s
  | .copyIn win d a b c e w1 pe => Sys2Proof.Machine.execCopyIn win d a b c e w1 pe s
  | .copyOut win d a b c e w1 pe => Sys2Proof.Machine.execCopyOut win d a b c e w1 pe s
  | .gather i64 ty d a b c e stride pe => Sys2Proof.Machine.execGather i64 ty d a b c e stride pe s
  | .scatter i64 ty d a b c e stride pe => Sys2Proof.Machine.execScatter i64 ty d a b c e stride pe s
  | .put d a b c e pe => Sys2Proof.Machine.execPut d a b c e pe s
  | .engineStampWrite q => Sys2Proof.Machine.execEngineStampWrite q s
  | .putHandoff im => Sys2Proof.Machine.execPutHandoff im s
  | .publish a => Sys2Proof.Machine.execPublish a s
  | .shadow d a => Sys2Proof.Machine.execShadow d a s
  | .launch child d a b => Sys2Proof.Machine.execLaunch child d a b s
  | .task d a => Sys2Proof.Machine.execTask d a s
  | .join d a b => Sys2Proof.Machine.execJoin d a b s
  | .joinDecrement lid va => Sys2Proof.Machine.execJoinDecrement lid va s
  | .trap n => Sys2Proof.Machine.execTrap n s
  | .brk n => Sys2Proof.Machine.execBrk n s
  | .eret => Sys2Proof.Machine.execEret s
  | .eretSkip => Sys2Proof.Machine.execEretSkip s
  | .eretTo a => Sys2Proof.Machine.execEretTo a s
  | .live d b => Sys2Proof.Machine.execLive d b s
  | .liveLiteral d v => Sys2Proof.Machine.execLiveLiteral d v s
  | .yield d => Sys2Proof.Machine.execYield d s
  | .yieldPoll d => Sys2Proof.Machine.execYieldPoll d s
  | .valid c a b => Sys2Proof.Machine.execValid c a b s
  | .validImmediate c a n => Sys2Proof.Machine.execValidImmediate c a n s
  | .validOpen a b => Sys2Proof.Machine.execValidOpen a b s
  | .validOpenImmediate a n => Sys2Proof.Machine.execValidOpenImmediate a n s
  | .routeDisp d a kc sc m => Sys2Proof.Machine.execRouteDisp d a kc sc m s
  | .routeRedir d a kc sc m => Sys2Proof.Machine.execRouteRedir d a kc sc m s
  | .routeClose d a => Sys2Proof.Machine.execRouteClose d a s
  | .routeInfo d a sc m => Sys2Proof.Machine.execRouteInfo d a sc m s
  | .rtpinPin d a sc => Sys2Proof.Machine.execRtpinPin d a sc s
  | .rtpinRel sc => Sys2Proof.Machine.execRtpinRel sc s
  | .rtpinHealth d => Sys2Proof.Machine.execRtpinHealth d s
  | .rtpinCur d a => Sys2Proof.Machine.execRtpinCur d a s
  | .vadd f m d a b x => Sys2Proof.Machine.execVadd f m d a b x s
  | .vsub f m d a b x => Sys2Proof.Machine.execVsub f m d a b x s
  | .vmul f m d a b x => Sys2Proof.Machine.execVmul f m d a b x s
  | .vfma neg sub m d a b c x => Sys2Proof.Machine.execVfma neg sub m d a b c x s
  | .vminmax f m d a b x => Sys2Proof.Machine.execVminmax f m d a b x s
  | .vcmp f m d a b x => Sys2Proof.Machine.execVcmp f m d a b x s
  | .vsel m d a b c => Sys2Proof.Machine.execVsel m d a b c s
  | .vcvt f m d a src x => Sys2Proof.Machine.execVcvt f m d a src x s
  | .vlog f m d a b => Sys2Proof.Machine.execVlog f m d a b s
  | .vshf f m d a b x => Sys2Proof.Machine.execVshf f m d a b x s
  | .vsfu f m d a x => Sys2Proof.Machine.execVsfu f m d a x s
  | .vred f m d a x => Sys2Proof.Machine.execVred f m d a x s
  | .vscan f m d a x => Sys2Proof.Machine.execVscan f m d a x s
  | .vperm m d a b x => Sys2Proof.Machine.execVperm m d a b x s
  | .vpermTr d a x => Sys2Proof.Machine.execVpermTr d a x s
  | .viota f m d start x => Sys2Proof.Machine.execViota f m d start x s
  | .vmov f m d a x => Sys2Proof.Machine.execVmov f m d a x s
  | .vmovScalar m d c x => Sys2Proof.Machine.execVmovScalar m d c x s
  | .vmovLiteral m d v x => Sys2Proof.Machine.execVmovLiteral m d v x s
  | .vshape rows cols ty => Sys2Proof.Machine.execVshape rows cols ty s
  | .vld d m x => Sys2Proof.Machine.execVld d m x s
  | .vldShaped d a c e x => Sys2Proof.Machine.execVldShaped d a c e x s
  | .vst m d x => Sys2Proof.Machine.execVst m d x s
  | .vstShaped a c e d x => Sys2Proof.Machine.execVstShaped a c e d x s
  | .vldf keep d m x => Sys2Proof.Machine.execVldf keep d m x s
  | .vldx d a b m ty => Sys2Proof.Machine.execVldx d a b m ty s
  | .vstx a b d p ty => Sys2Proof.Machine.execVstx a b d p ty s
  | .vpackUnpack m d a rt x => Sys2Proof.Machine.execVpackUnpack m d a rt x s
  | .vpackPack m d a b rt x => Sys2Proof.Machine.execVpackPack m d a b rt x s
  | .hsift k new a b d c p => Sys2Proof.Machine.execHsift k new a b d c p s
  | .vdot f m d a b c x => Sys2Proof.Machine.execVdot f m d a b c x s
  | .vbmax abs m d a x => Sys2Proof.Machine.execVbmax abs m d a x s
  | .vqnt m d a rt x => Sys2Proof.Machine.execVqnt m d a rt x s
  | .vmask f d a => Sys2Proof.Machine.execVmask f d a s
  | .vmaskExpand d a => Sys2Proof.Machine.execVmaskExpand d a s
  | .vclamp m d a b c x => Sys2Proof.Machine.execVclamp m d a b c x s
  | .vclampLiteral m d a v x => Sys2Proof.Machine.execVclampLiteral m d a v x s
  | .vrnd m d a x => Sys2Proof.Machine.execVrnd m d a x s
  | .vext d a b c ty => Sys2Proof.Machine.execVext d a b c ty s
  | .vins d a b c ty => Sys2Proof.Machine.execVins d a b c ty s
  | .mwld q a b c k n pe => Sys2Proof.Machine.execMwld q a b c k n pe s
  | .mma neg accz ty acc a b c stride pe => Sys2Proof.Machine.execMma neg accz ty acc a b c stride pe s
  | .mmg neg accz nt ty acc a b c e k n stride pe => Sys2Proof.Machine.execMmg neg accz nt ty acc a b c e k n stride pe s
  | .mdrain clr ty rm acc a b c n stride pe => Sys2Proof.Machine.execMdrain clr ty rm acc a b c n stride pe s
  | .mzero acc pe => Sys2Proof.Machine.execMzero acc pe s
  | .mfuse mode pe => Sys2Proof.Machine.execMfuse mode pe s
  | .mmap b => Sys2Proof.Machine.execMmap b s
  | .mmapOwn => Sys2Proof.Machine.execMmapOwn s
  | .mmapLiteral v => Sys2Proof.Machine.execMmapLiteral v s
  | .mvb out ty rm d a b c e nv pe => Sys2Proof.Machine.execMvb out ty rm d a b c e nv pe s
  | .matrixTurn t => Sys2Proof.Machine.execMatrixTurn t s
  | .mstatRd d => Sys2Proof.Machine.execMstatRd d s
  | .mstatDone d => Sys2Proof.Machine.execMstatDone d s
  | .mstatCfg d => Sys2Proof.Machine.execMstatCfg d s
  | .mstatFlags d acc => Sys2Proof.Machine.execMstatFlags d acc s
  | .mstatNbf d => Sys2Proof.Machine.execMstatNbf d s
  | .mstatErr d => Sys2Proof.Machine.execMstatErr d s
  | .leaseGet d a => Sys2Proof.Machine.execLeaseGet d a s
  | .leaseCmd d a b => Sys2Proof.Machine.execLeaseCmd d a b s
  | .leaseRel a => Sys2Proof.Machine.execLeaseRel a s
  | .leaseGrant die => Sys2Proof.Machine.execLeaseGrant die s
  | .leaseExpiry die eng => Sys2Proof.Machine.execLeaseExpiry die eng s
  | .pooledEngineCommand die eng => Sys2Proof.Machine.execPooledEngineCommand die eng s
  | .tlbiVf a => Sys2Proof.Machine.execTlbiVf a s
  | .tlbiCtx a => Sys2Proof.Machine.execTlbiCtx a s
  | .tlbiVa a b => Sys2Proof.Machine.execTlbiVa a b s
  | .tlbiGpa a b => Sys2Proof.Machine.execTlbiGpa a b s
  | .tlbiAll => Sys2Proof.Machine.execTlbiAll s
  | .dharv d a b => Sys2Proof.Machine.execDharv d a b s
  | .cfgPart d a t => Sys2Proof.Machine.execCfgPart d a t s
  | .cfgPdel d a t => Sys2Proof.Machine.execCfgPdel d a t s
  | .cfgCtx d a t => Sys2Proof.Machine.execCfgCtx d a t s
  | .cfgQueue d a t => Sys2Proof.Machine.execCfgQueue d a t s
  | .cfgInst d a t => Sys2Proof.Machine.execCfgInst d a t s
  | .cfgRtab d a t => Sys2Proof.Machine.execCfgRtab d a t s
  | .cfgCls d a t => Sys2Proof.Machine.execCfgCls d a t s
  | .cfgMwt d a t => Sys2Proof.Machine.execCfgMwt d a t s
  | .cfgGw d a t => Sys2Proof.Machine.execCfgGw d a t s
  | .cfgTwin d a t => Sys2Proof.Machine.execCfgTwin d a t s
  | .cfgRrep d a t => Sys2Proof.Machine.execCfgRrep d a t s
  | .sealQ d a => Sys2Proof.Machine.execSealQ d a s
  | .sealOn d a => Sys2Proof.Machine.execSealOn d a s
  | .sealOff d a => Sys2Proof.Machine.execSealOff d a s
  | .scrubMem d a b => Sys2Proof.Machine.execScrubMem d a b s
  | .scrubSlice d a => Sys2Proof.Machine.execScrubSlice d a s
  | .pageRequestReply part => Sys2Proof.Machine.execPageRequestReply part s
  | .launchTake q => Sys2Proof.Machine.execLaunchTake q s
  | .queueMap q => Sys2Proof.Machine.execQueueMap q s
  | .queueQuantumExpiry q => Sys2Proof.Machine.execQueueQuantumExpiry q s
  | .taskRingEntryTake lid => Sys2Proof.Machine.execTaskRingEntryTake lid s
  | .tileRecordRead lid => Sys2Proof.Machine.execTileRecordRead lid s
  | .taskStart core => Sys2Proof.Machine.execTaskStart core s
  | .deadlinePass lid => Sys2Proof.Machine.execDeadlinePass lid s
  | .steepDiversion core => Sys2Proof.Machine.execSteepDiversion core s
  | .steepBudgetExpiry core => Sys2Proof.Machine.execSteepBudgetExpiry core s
  | .preemptGraceExpiry ctx => Sys2Proof.Machine.execPreemptGraceExpiry ctx s
  | .fullSave ctx => Sys2Proof.Machine.execFullSave ctx s
  | .preemptKillExpiry ctx => Sys2Proof.Machine.execPreemptKillExpiry ctx s
  | .trapRecordWrite ctx => Sys2Proof.Machine.execTrapRecordWrite ctx s
  | .trapRecordDrop ctx => Sys2Proof.Machine.execTrapRecordDrop ctx s
  | .coreContainment core => Sys2Proof.Machine.execCoreContainment core s
  | .placementIntervalEnd tbl => Sys2Proof.Machine.execPlacementIntervalEnd tbl s
  | .calderaPublish tbl => Sys2Proof.Machine.execCalderaPublish tbl s
  | .replicaRetire tbl serial => Sys2Proof.Machine.execReplicaRetire tbl serial s
  | .bankUnitAtomicStep op sz u b c => Sys2Proof.Machine.execBankUnitAtomicStep op sz u b c s
  | .putLanding peer wnum off put => Sys2Proof.Machine.execPutLanding peer wnum off put s
  | .codeGranuleScan hpa => Sys2Proof.Machine.execCodeGranuleScan hpa s
  | .pageWalk ctx va acc => Sys2Proof.Machine.execPageWalk ctx va acc s
  | .segmentPreload cluster => Sys2Proof.Machine.execSegmentPreload cluster s
  | .ptpAnnounce data => Sys2Proof.Machine.execPtpAnnounce data s
  | .ptpSync offset twoStep => Sys2Proof.Machine.execPtpSync offset twoStep s
  | .ptpFollowUp offset => Sys2Proof.Machine.execPtpFollowUp offset s
  | .ptpDelayResp delay => Sys2Proof.Machine.execPtpDelayResp delay s
  | .ptpManagement data => Sys2Proof.Machine.execPtpManagement data s
  | .ptmExchange offset => Sys2Proof.Machine.execPtmExchange offset s
  | .preemptRequest ctx g k => Sys2Proof.Machine.execPreemptRequest ctx g k s
  | .contextResume ctx core => Sys2Proof.Machine.execContextResume ctx core s
  | .wordRebuild word => Sys2Proof.Machine.execWordRebuild word s
  | .patrolSweep die sub => Sys2Proof.Machine.execPatrolSweep die sub s
  | .dieFailure die => Sys2Proof.Machine.execDieFailure die s
  | .clockStepDown die => Sys2Proof.Machine.execClockStepDown die s
  | .clockStepUp die => Sys2Proof.Machine.execClockStepUp die s
  | .queueDoorbell q v => Sys2Proof.Machine.execQueueDoorbell q v s
  | .queueBaseSizeWrite q size v => Sys2Proof.Machine.execQueueBaseSizeWrite q size v s
  | .windowTableLoad count => Sys2Proof.Machine.execWindowTableLoad count s
  | .ptpControlWrite v => Sys2Proof.Machine.execPtpControlWrite v s
  | .registerWrite fn off v => Sys2Proof.Machine.execRegisterWrite fn off v s
  | .spdmGetVersion req => Sys2Proof.Machine.execSpdmGetVersion req s
  | .spdmGetCapabilities req => Sys2Proof.Machine.execSpdmGetCapabilities req s
  | .spdmNegotiateAlgorithms req => Sys2Proof.Machine.execSpdmNegotiateAlgorithms req s
  | .spdmGetDigests req => Sys2Proof.Machine.execSpdmGetDigests req s
  | .spdmGetCertificate slot req => Sys2Proof.Machine.execSpdmGetCertificate slot req s
  | .spdmChallenge req => Sys2Proof.Machine.execSpdmChallenge req s
  | .spdmGetMeasurements req => Sys2Proof.Machine.execSpdmGetMeasurements req s
  | .pcieLinkFailure link => Sys2Proof.Machine.execPcieLinkFailure link s
  | .slovasLinkTraining port peer => Sys2Proof.Machine.execSlovasLinkTraining port peer s
  | .slovasLinkFailure port => Sys2Proof.Machine.execSlovasLinkFailure port s
  | .hostWriteToDeviceMemory ctx hpa data => Sys2Proof.Machine.execHostWriteToDeviceMemory ctx hpa data s
  | .loopBackEdge => Sys2Proof.Machine.execLoopBackEdge s
  | .xferArrival => Sys2Proof.Machine.execXferArrival s
  | .memoryLoadReturn => Sys2Proof.Machine.execMemoryLoadReturn s
  | .engineCommandStart => Sys2Proof.Machine.execEngineCommandStart s
  | .mvbStackExecute => Sys2Proof.Machine.execMvbStackExecute s
  | .starvationGuard => Sys2Proof.Machine.execStarvationGuard s
  | .timeSourceLoss => Sys2Proof.Machine.execTimeSourceLoss s
  | .holdoverExpiry => Sys2Proof.Machine.execHoldoverExpiry s
  | .tephraCopyRequest => Sys2Proof.Machine.execTephraCopyRequest s
  | .powerOn => Sys2Proof.Machine.execPowerOn s
  | .warmReset => Sys2Proof.Machine.execWarmReset s
  | .powerLoss => Sys2Proof.Machine.execPowerLoss s
  | .coldReset => Sys2Proof.Machine.execColdReset s
  | .delayRequest => Sys2Proof.Machine.execDelayRequest s
  | .fetchReturn => Sys2Proof.Machine.execFetchReturn s

end Sys2Proof.Machine
end

