-- ==== Sys2Proof/Machine/Strikes.lean ====
section
/-! DEFINITION. Errors that strike the hardware, and the taster (22_containment.md R378 to R388; log 61). -/

namespace Sys2Proof.Machine

/-! Strikes. -/

/-- Bits flip in a word of a coded array, beside those that have flipped in it already. -/
def State.addFlip (s : State) (f : Flip) : State :=
  if !isCoded f.word then s
  else match s.flips.find? fun g => g.word = f.word with
    | none => { s with flips := s.flips ++ [f] }
    | some g => { s with flips := (s.flips.filter fun g => g.word ≠ f.word) ++
        [{ word := f.word, data := g.data ^^^ f.data, par := g.par ^^^ f.par, stuck := g.stuck || f.stuck }] }
/-- The 32-byte code word of HBM or LPDDR is lost: its words are poisoned (R378, R382). -/
def State.loseCode (s : State) (hpa : Nat) : State :=
  if isHbm hpa ∨ isLpddr hpa then (List.range 4).foldl (fun s i => s.poisonWord (hpa / 32 * 4 + i)) s else s
/-- Every generation pending on a die aborts (R298, R388). -/
def State.abortDie (s : State) (die : Nat) : State :=
  { s with launches := s.launches.map fun (e : Nat × Launch) =>
      (e.1, { e.2 with bars := e.2.bars.map fun b => if b.active && b.members.any (fun n => dieOf n = die) then b.ends true else b }) }
/-- A parity error in a scalar or predicate register (R378); `x0` and `p0` are hard-wired (R10). -/
def Core.parity (c : Core) (pred : Bool) (num : Nat) : Core :=
  if num = 0 then c
  else if pred then { c with pBad := c.pBad ||| (1#8 <<< num) } else { c with xBad := c.xBad ||| (1#64 <<< num) }
/-- An error in the loop buffer is consumed while it holds the only copy of the code; else the code is fetched again (R378,
R385). -/
def State.strikeBuffer (s : State) (core : Nat) : State :=
  let t := s.focus core
  if t.core.role = .running ∧ !t.core.contained ∧ t.buffered.isSome then (t.upd fun c => c.consumed 0 3).focus s.core.id else s

/-- The launch that owns an entry of the scheduler's queues is killed, also one whose record still stands in a device queue (R388). -/
def State.killQueued (s : State) (lid : Nat) : State :=
  if (s.launches.find? lid).isSome then s.killLaunch lid
  else
    match List.find? (fun (e : Nat × Queue) => e.2.recs.any fun r => r.lid = lid) s.queues with
    | none => s
    | some (q, k) =>
      match k.recs.find? fun r => r.lid = lid with
      | none => s
      | some r =>
        let l := Launch.taken (LaunchRec.ofBytes r.bytes) k q lid r.parent 0 (((s.diesOf k.part).head?).getD 0)
        let s := s.modQueue q fun k => { k with recs := k.recs.filter fun r => r.lid ≠ lid }
        { s with launches := s.launches.put lid l }.killLaunch lid
/-- A special register joins those with a parity error. -/
def setAddS (l : List SReg) (n : SReg) : List SReg := if l.contains n then l else l ++ [n]
/-- What an error that strikes does at once (R378 to R388). What is coded with SECDED corrects one bit in place. -/
def State.strike (s : State) : Strike → State
  | .words fs => fs.foldl State.addFlip s
  | .row k bits => { s with rows := s.rows.set 0 k (s.rows.get 0 k ^^^ bits) }
  | .code hpa symbols => if symbols ≤ 1 then s else s.loseCode hpa
  | .reg core pred num => s.modCore core fun c => c.parity pred num
  | .special core n => s.modCore core fun c => { c with sBad := setAddS c.sBad n }
  | .loop core l => s.modCore core fun c => { c with lBad := c.lBad ||| (1#3 <<< l.val) }
  | .buffer core => s.strikeBuffer core
  | .tlb core i => s.modCore core fun c => { c with tlb := c.tlb.eraseIdx i }
  | .l2tlb die i => { s with l2tlb := s.l2tlb.put die ((s.l2tlb.get [] die).eraseIdx i) }
  | .scan gran => { s with scans := s.scans.del gran }
  | .compute core again => s.modCore core fun c => { c with taste := some again }
  | .column slice col hard => s.modCluster (slice / 4) fun k => k.modQuads [slice % 4] fun q =>
      { q with struck := q.struck ++ [col], faults := if hard then setAdd q.faults col else q.faults }
  | .net key bits =>
    if bits ≤ 1 then s
    else match s.net key, key with
      | some _, .queue lid _ => s.killQueued lid
      | some n, _ => if n.lost then s else s.loseNet (key, n)
      | none, _ => s
  | .queue lid bits => if bits ≤ 1 then s else s.killQueued lid
  | .barrier die bits => if bits ≤ 1 then s else s.abortDie die
  | .die die bits => if bits ≤ 1 ∨ die ≥ 16 ∨ s.failed.getLsbD die then s else s.failDie die

/-! Special registers and loop counters (R378, R385). -/

/-- The opcode of an instruction (R45). -/
def Instr.opcode (i : Instr) : Nat := match encode i with | some r => fld r.w0 2 7 | none => 0
/-- The rounding field of an instruction that rounds by it (R107). -/
def Instr.rounding (i : Instr) : Option Nat :=
  match i, encode i with
  | _, none => none
  | .mdrain .., some r | .mvb .., some r => some r.rm
  | _, some r =>
    if [0x2D, 0x2E, 0x2F, 0x50, 0x51, 0x52, 0x53, 0x57, 0x5A, 0x5B, 0x5C, 0x66, 0x68, 0x6A, 0x6D].contains r.op then some r.rm
    else none
/-- The special registers that an instruction reads for its rounding: `%frm` where its field is zero, and `%srseed` in mode SR (R107,
R110). -/
def Core.rounding (c : Core) (i : Instr) : List SReg :=
  match Instr.rounding i with
  | none => []
  | some rm => (if rm = 0 then [.frm] else []) ++ (if (if rm = 0 then c.frm.toNat + 1 else rm) = 5 then [.srseed] else [])
/-- The special registers that an instruction reads: the one that `SRD` names, `%vs` where rows or a window go by it, `%dom` in
`BAR`, and what a rounding needs. -/
def Core.specials (c : Core) (i : Instr) : List SReg :=
  match i with
  | .srd _ n => [n]
  | .bar .. => [.dom]
  | .bc .. | .lbrk .. | .routeDisp .. | .routeRedir .. | .routeInfo .. => [.vs]
  | .copyIn win .. | .copyOut win .. => if win then [] else [.vs]
  | _ =>
    let o := Instr.opcode i
    (if 0x50 ≤ o ∧ o < 0x70 ∧ o ≠ 0x60 then [.vs] else []) ++ c.rounding i
/-- The special register that an instruction writes. -/
def Instr.writesS (i : Instr) : Option SReg :=
  match i with
  | .swr n _ => some n
  | _ => if Instr.opcode i = 0x60 then some .vs else none
/-- The instruction reads a special register with a parity error, or its back edge a loop counter with one. -/
def Core.readsBad (c : Core) (i : Instr) : Bool :=
  (c.specials i).any c.sBad.contains || (match c.backEdge c.npc with | some l => c.lBad.getLsbD l.val | none => false)
/-- An instruction that would retire, but reads such a register, is consumed instead (R385). The spec gives these registers no file
number for the record (log 61). -/
def State.reading (s : State) (i : Instr) (run : State → Out) : Out :=
  if s.core.sBad = [] ∧ s.core.lBad = 0 then run s
  else
    match run s with
    | .next t =>
      let n := s.core.id
      if (t.coreAt n).retired = s.core.retired then .next t
      else if s.core.readsBad i then let (s, w) := s.openWord; .next (s.upd fun c => c.consumed 0 2 w.toNat)
      else .next (t.modCore n fun c => { c with
          sBad := c.sBad.filter fun q => some q ≠ Instr.writesS i
          lBad := match i with | .loop l _ _ | .loopr l _ _ => c.lBad &&& ~~~(1#3 <<< l.val) | _ => c.lBad })
    | o => o

/-! The taster (R383). -/

/-- The instructions that the taster recomputes: scalar ones, with transfers, loads and stores, and vector ones, told apart; the
matrix unit's, the engines' and the counting ones are not tasted (R383; log 61). -/
def Instr.tasted (i : Instr) : Option Bool :=
  let o := Instr.opcode i
  if 0x50 ≤ o ∧ o < 0x70 then some true
  else if (2 ≤ o ∧ o < 0x0B) ∨ (0x10 ≤ o ∧ o < 0x34) then some false
  else none
/-- A core fault (R383): the record names the instruction, its opcode and the unit. -/
def Core.faulted (c : Core) (op : Nat) (vec : Bool) : Core :=
  { c with contained := true, waiting := false, taste := none
           raised := some { cause := 0x20, addr := c.pc, info0 := BitVec.ofNat 64 op, info1 := if vec then 1 else 2, after := false } }
/-- An instruction runs under the taster: where its retirement meets a mismatch, it executes once more, to the same result, or with a
second mismatch the core takes a core fault and nothing is retired (R383). -/
def State.tasting (s : State) (i : Instr) (run : State → Out) : Out :=
  match s.core.taste, Instr.tasted i with
  | some again, some vec =>
    let n := s.core.id
    let seen (s : State) : State := ((s.event (dieOf n) 0x03 s.myPart n none none).count n 5 1)
    match run s with
    | .next t =>
      if (t.coreAt n).retired = s.core.retired then .next t
      else if again then
        .next (((seen s).event (dieOf n) 0x04 s.myPart n none none).upd fun c => c.faulted (Instr.opcode i) vec)
      else .next ((seen t).modCore n fun c => { c with taste := none })
    | o => o
  | _, _ => run s

end Sys2Proof.Machine
end

