-- ==== Sys2Proof/Machine/Progress.lean ====
section
/-! DEFINITION. The turns of cores: fetch, the feeding of followers, the cycles of a chain, and what moves when nothing is
scheduled (01_machine.md R12 to R14; 03_formats.md R59; 04_stream.md R63, R69, R78, R405; 21_traps.md R361; log 1). -/

namespace Sys2Proof.Machine

/-- Goes on from a next state. -/
def onNext (o : Out) (f : State → State) : Out :=
  match o with
  | .next s => .next (f s)
  | .fault r => .fault r
  | .refused r => .refused r

/-! One core's slot. -/

/-- The words of the granule from a host-physical address on, at most five (R35, R58). -/
def State.codeWords (s : State) (hpa : Nat) : List Nat :=
  (List.range (min 5 (8192 - hpa % 32768 / 4))).map fun j => s.physNat (hpa + 4 * j) 4

/-- Fetches the instruction at the pc and hands it on, with its length in words (R59, R69). -/
def State.fetch (s : State) (k : Instr → Nat → State → Out) : Out :=
  match s.enter s.core.pc with
  | .wait s => .next s.freeze
  | .fault s cause a i0 i1 => .next (s.raise cause a i0 i1)
  | .ok s hpa =>
    match decodeWords (s.codeWords hpa) with
    | .error _ => .fault .malformedWord
    | .ok (i, n) => k i n s

/-- The value of `%dom` that a leader's `SWR` gives its followers (R131). A slot that the leader passes over gives them none: the members
keep one level (R17, R365; log 48). -/
def Core.domOf (c : Core) (i : Instr) : BitVec 3 :=
  match i with | .swr .dom a => if c.skip then c.dom else (c.rx a).truncate 3 | _ => c.dom
/-- An entry of a follower's feed: the instruction and its length in words. -/
def State.feedEntry (s : State) (i : Instr) (n : Nat) : FeedEntry :=
  { slot := s.core.slot, pc := s.core.pc, npc := s.core.pc + BitVec.ofNat 64 (4 * n), ins := i, dom := s.core.domOf i, live := (s.context s.core.ctx).soft.isSome
    loops := s.core.loops }
/-- The leader hands its instruction to the followers that have not come past its slot (R12, R13). In a handler it runs
alone (R361). -/
def State.feed (s : State) (i : Instr) (n : Nat) : State :=
  if s.core.members = 1 ∨ s.core.frame.isSome then s
  else
    let e := s.feedEntry i n
    let lead := s.core.id
    (s.core.chain.ids.filter (· ≠ lead)).foldl (fun s n => s.modCore n fun c =>
      if c.chain.leader = lead ∧ c.slot ≤ e.slot then { c with feed := (c.feed.filter fun q => q.slot < e.slot) ++ [e] } else c) s

/-- The instruction at the pc issues: the address after it is known, the followers get it, and its meaning runs. -/
def State.issueIns (i : Instr) (n : Nat) (s : State) : Out :=
  State.tasting ((s.upd fun c => { c with npc := c.pc + BitVec.ofNat 64 (4 * n) }).feed i n) i fun s => s.reading i (exec i)

/-- The slot of an instruction that is not issued passes empty (R365). -/
def State.passOver (n : Nat) (s : State) : State :=
  let r := s.core.retired
  ((s.upd fun c => { c with npc := c.pc + BitVec.ofNat 64 (4 * n) }).retire).upd fun c => { c with retired := r, skip := false }

/-- A leader's slot: an empty one (R70), one of a `NOP #n` (R78), one to pass over (R365), or an instruction's. -/
def State.leaderSlot (s : State) : Out :=
  if s.core.gap > 0 then .next (s.upd fun c => { c.tick with gap := c.gap - 1, waiting := false })
  else if s.core.nopLeft > 0 then .next (s.nopSlot s.core.nopLeft)
  else if s.core.skip then s.fetch fun i n s => .next ((s.feed i n).passOver n)
  else s.fetch fun i n s => s.issueIns i n

/-- The slot at which its leader's diversion diverts the follower has come, also inside a `NOP #n` (R299). -/
def Core.divertsHere (c : Core) : Bool :=
  match c.feed with
  | e :: _ => e.slot = c.slot && (match e.ins with | .steepDiversion _ => true | _ => false)
  | [] => false
/-- A follower's slot: its diversion, what its leader issued there, or an empty one (R12, R13, R299). -/
def State.followerSlot (s : State) : Out :=
  let s := s.upd fun c => { c with feed := c.feed.filter fun e => c.slot ≤ e.slot }
  if s.core.nopLeft > 0 && !s.core.divertsHere then .next (s.nopSlot s.core.nopLeft)
  else
    match s.core.feed with
    | [] => .next (s.upd fun c => { c.tick with waiting := false })
    | e :: es =>
      if s.core.slot < e.slot then .next (s.upd fun c => { c.tick with waiting := false })
      else if s.core.skip then .next (s.upd fun c => { { c with feed := es, skip := false }.tick with waiting := false })
      else State.tasting (s.upd fun c => { c with pc := e.pc, npc := e.npc }) e.ins fun s => s.reading e.ins (exec e.ins)

/-- A member that has consumed an error issues nothing: where it would have sent an `XFER`, a poisoned arrival goes out
(R386). -/
def State.ghostSlot (s : State) : State :=
  let s := s.containSteps s.core.id
  match s.core.feed.find? fun e => e.slot = s.core.slot with
  | none => s.upd fun c => { c with slot := c.slot + 1 }
  | some e =>
    let s := match e.ins with
      | .xferVector dir d _ => s.send dir (.v d 0 (BitVec.allOnes 8192)) true
      | .xferScalar dir d _ => if d = 0 then s else s.send dir (.x d 0) true
      | _ => s
    s.upd fun c => { c with slot := c.slot + 1 }

/-- A core's slot, by its place in its chain. -/
def State.slotOf (s : State) (n : Nat) : Out :=
  let s := s.focus n
  if s.core.contained then .next s.ghostSlot
  else if s.core.leads then s.leaderSlot else s.followerSlot

/-! A chain's cycle (R12, R14, R361, R405). -/

/-- A follower that no leader drives any more: it issues what it has been handed (R85, R371). -/
def State.outlives (s : State) (c : Core) : Bool :=
  let l := s.coreAt c.chain.leader
  !c.leads && (c.feed != [] || c.nopLeft > 0) &&
    (l.role != .running || l.chain.leader != c.chain.leader || l.chain.rows != c.chain.rows || l.chain.cols != c.chain.cols)
/-- The members of the core's chain that it still holds in step: those that run in the chain, its leader among them or, once
that has left the chain or ended, those that issue what they have been handed (R12, R14). -/
def State.inStep (s : State) (c : Core) : List Nat := (s.mates c).filter fun n => c.leads || s.outlives (s.coreAt n)
/-- The members that issue in the cycle: each a fixed skew behind the chain's clock, and never past a slot that the
leader has determined, the one of its skew wait included. -/
def State.acting (s : State) (head : Core) : List Nat :=
  (s.inStep head).filter fun n =>
    let c := s.coreAt n
    decide (c.slot + 2 * c.chain.r + 2 * c.chain.c ≤ head.clk) &&
      (c.leads || !head.leads || decide (c.slot < head.slot + head.skewWait.toNat))

/-- What a member's slot would leave of the member, tried from the start of the cycle. -/
def State.tried (s : State) (n : Nat) : Option Core :=
  match s.slotOf n with
  | .next t => some (t.coreAt n)
  | _ => none
/-- A member whose wait freezes the chain. -/
def Core.stalls (c : Core) : Bool := c.waiting && !c.skewWait && c.raised.isNone
/-- Slots of members one after another. -/
def State.slots (s : State) : List Nat → Out
  | [] => .next s
  | n :: l =>
    match s.slotOf n with
    | .next t => t.slots l
    | o => o
/-- The trap that a member raised in its trial is raised in the chain: the cycle's instructions are cancelled (R361). A
leader's `TRAP` or `BRK`, which passes, goes to the followers (R13, R364). -/
def State.takeRaised (s : State) (n : Nat) : State :=
  match s.slotOf n with
  | .next t =>
    let c := t.coreAt n
    let past := match c.raised with | some r => r.after && c.leads | none => false
    let s := s.modCore n fun d => { d with raised := c.raised, pc := c.pc, npc := c.npc }
    if past then (c.chain.ids.filter (· ≠ n)).foldl (fun s m => s.modCore m fun d => { d with feed := (t.coreAt m).feed }) s
    else s
  | _ => s
/-- The chain's clock after a cycle in which nothing froze it: with the leader's slots, or past a skew wait (R405). `old` stood
at the head before the cycle, and `c` is that core after it. -/
def clockAfter (old c : Core) : Nat :=
  if old.leads ∧ c.role = .running ∧ c.chain = old.chain ∧ (c.slot ≠ old.slot ∨ c.retired ≠ old.retired) then c.slot
  else old.clk + 1
/-- The members that go on in the chain take its clock, so that the skew stays when the leader leaves (R14). -/
def State.setClocks (s : State) (ids : List Nat) (leader clk : Nat) : State :=
  ids.foldl (fun s n => if (s.coreAt n).chain.leader = leader then s.modCore n fun c => { c with clk := clk } else s) s

/-- A cycle of a chain, made by its head: the leader, or the first of the members that its leader has left behind. When the leader
consumes an error, the followers issue nothing from that cycle on (R386 step 6). -/
def State.chainCycle (s : State) : Out :=
  let head := s.core
  let after (n : Nat) : Core := (s.tried n).getD (s.coreAt n)
  let ids := if head.leads ∧ (after head.id).contained then [head.id] else s.acting head
  let raisers := ids.filter fun n => (after n).raised.isSome && !(after n).contained
  let waiters := ids.filter fun n => (after n).stalls
  if raisers ≠ [] then .next ((raisers.foldl State.takeRaised s).focus head.id).chainStop
  else if waiters ≠ [] then
    onNext (s.slots waiters) fun t =>
      let t := t.focus head.id
      if waiters.contains head.id then t else t.freeze
  else
    onNext (s.slots ids) fun t =>
      let t := (t.focus head.id).setClocks (s.inStep head) head.chain.leader (clockAfter head (t.coreAt head.id))
      if head.chain.ids.any fun n => (t.coreAt n).raised.isSome && !(t.coreAt n).contained then t.chainStop else t

/-! A turn. -/

/-- A core that can take a turn: a leader, or the first of the members that a leader has left behind. -/
def State.runs (s : State) (c : Core) : Bool :=
  c.role = .running && (c.leads || (s.outlives c && (s.inStep c).head? == some c.id))

/-- The event counters of a turn: the cycle, the slot or the freeze, the retirement (R394). -/
def State.meter (s : State) (old : Core) : State :=
  let c := s.coreAt old.id
  let s := s.count old.id 1 1
  let s := s.count old.id (if c.waiting then 4 else 2) 1
  if c.retired = old.retired then s else s.count old.id 3 1

/-- The event counters of another member in a cycle of a chain, frozen or not: the cycle, the freeze or a slot that has passed,
the retirement (R14, R394). -/
def State.meterMate (frozen : Bool) (s : State) (old : Core) : State :=
  let c := s.coreAt old.id
  let s := s.count old.id 1 1
  let s := if frozen then s.count old.id 4 1 else if c.slot = old.slot ∧ c.retired = old.retired then s else s.count old.id 2 1
  if c.retired = old.retired then s else s.count old.id 3 1
/-- The event counters of a cycle of a chain, which its head makes (R394). -/
def State.meterChain (s : State) (head : Core) (mates : List Core) : State :=
  let c := s.coreAt head.id
  mates.foldl (State.meterMate (c.waiting && !c.skewWait)) (s.meter head)

/-- A turn of a core: the cycle of the chain it leads, its own slot, or nothing. -/
def State.takeTurn (s : State) (n : Nat) : Out :=
  let s := s.focus n
  let c := s.core
  if !s.runs c then .next s
  else if c.contained then exec (.coreContainment n) s
  else if s.stopping c then .next (s.chainStop.meter c)
  else if c.members > 1 ∧ c.frame.isNone then onNext s.chainCycle fun t => t.meterChain c (((s.inStep c).filter (· ≠ n)).map s.coreAt)
  else onNext s.leaderSlot fun t => t.meter c

/-! The placing of an instruction (log 2). -/

/-- The frame in bank store that holds the placed code. -/
def codeFrame : Nat := 2 ^ 54
/-- A translation of the page of the pc to that frame, readable and executable. -/
def Core.codeEntry (c : Core) : TlbEntry :=
  let v := c.pc.toNat - c.pc.toNat % 32768
  { ctx := c.ctx, vpage := v, gpa := codeFrame, hpa := codeFrame, size := 32768, bits := 5, set := 0
    vsize := 32768, gsize := 32768 }
/-- A core about to fetch at its pc, on its own when it leads no chain. -/
def Core.poised (c : Core) : Core :=
  { c with role := .running, gap := 0, nopLeft := 0, skip := false, contained := false, raised := none
           chain := { leader := c.id, rows := 1, cols := 1, r := 0, c := 0, number := c.chain.number }
           pc := c.pc - BitVec.ofNat 64 (c.pc.toNat % 4), tlb := c.codeEntry :: c.tlb }
/-- The state with an instruction of `nbits` bits stored at the pc of the core that acts, whose turn comes next: its bytes, five
words in all, stand in a frame that the core's TLB names, in a granule that the scanner has passed. -/
def State.placed (s : State) (_nbits w : Nat) : State :=
  let s := s.upd Core.poised
  let o := s.core.pc.toNat % 32768
  { s with agenda := [.turn s.core.id], mem := s.mem.write (codeFrame + o) ((bytesOfNat 20 w).take (32768 - o))
           scans := s.scans.put (codeFrame / 32768) (.passed (2 ^ (o / 4))) }

/-! What moves when nothing is scheduled. -/

/-- A step that the state makes ready, with the core that it concerns. -/
abbrev Ready := Option Nat × Instr

/-- Stops and timers: containments, deadlines, diversions, budgets, leases, the ladder, trap records, holdover. -/
def State.readyStops (s : State) : List Ready :=
  (s.allCores.filterMap fun c => if c.contained ∧ c.role ≠ .idle then some (none, .coreContainment c.id) else none) ++
  (s.launches.filterMap fun e =>
    if s.late e.2.fields ∧ !e.2.past ∧ !e.2.killed ∧ !e.2.ending then some (none, .deadlinePass e.1) else none) ++
  (s.allCores.filterMap fun c =>
    match s.launches.find? c.launch.toNat with
    | some l => if s.divertible c.id l then some (some c.id, .steepDiversion c.id) else none
    | none => none) ++
  (s.allCores.filterMap fun c =>
    if c.role = .running ∧ c.steepOn ∧ c.steepAt ≤ s.now then some (none, .steepBudgetExpiry c.chain.leader) else none) ++
  (s.leases.filterMap fun e => if e.2.ends ≤ s.now then some (none, .leaseExpiry (e.1 / 16) (e.1 % 16)) else none) ++
  (s.ctxs.flatMap fun e =>
    (if e.2.wrecs = [] then [] else [(none, .trapRecordWrite e.1), (none, .trapRecordDrop e.1)]) ++
    (match e.2.pre with
     | none => []
     | some _ => [(none, .preemptKillExpiry e.1), (none, .preemptGraceExpiry e.1), (none, .fullSave e.1)])) ++
  (if s.time.state = 2 then [(none, .holdoverExpiry)] else [])

/-- The scheduler: quanta, slots, queues, sources, starts, barriers, decrements. -/
def State.readySched (s : State) : List Ready :=
  (s.queues.flatMap fun e =>
    if e.2.mapped then [(none, .queueQuantumExpiry e.1), (none, .launchTake e.1)]
    else if e.2.active then [(none, .queueMap e.1)] else []) ++
  (s.launches.flatMap fun e =>
    (if e.2.fields.src = 1 ∧ !e.2.srcEnd then [(none, .taskRingEntryTake e.1)] else []) ++
    (if e.2.ready.any fun t => t.rcd.isSome then [(none, .tileRecordRead e.1)] else []) ++
    (match e.2.todo with | .join va :: _ => [(none, .joinDecrement e.1 (BitVec.ofNat 64 va))] | [] => [] | _ => [(none, .joinDecrement e.1 0)]) ++
    ((e.2.bars.filter Barrier.full).map fun b => (none, .barrierGenerationComplete e.1 b.level b.dom (Fin.ofNat 4 b.tag)))) ++
  ((s.allCores.filter Core.finishing).map fun c => (none, .segmentPreload (clusterOf c.id))) ++
  (match s.ranked with
   | [] => []
   | _ => match s.guardAll.pruneSuccs.nextStart with
     | some (_, _, o, _) => [(none, .taskStart o)]
     | none => [])

/-- Engines, arrivals, units, networks, leases, page replies. -/
def State.readyUnits (s : State) : List Ready :=
  (s.allCores.flatMap fun c =>
    if c.engine = [] then [] else
      (some c.id, .engineCommandStart) :: (List.range 4).map fun i => (some c.id, .engineStampWrite ⟨i, 0⟩)) ++
  (List.range s.msgs.length).map (fun i => (none, .messageArrival ⟨i, 0⟩)) ++
  (List.range s.nmsgs.length).map (fun i => (none, .neighbourArrival ⟨i, 0⟩)) ++
  (List.range s.puts.length).map (fun i => (none, .putHandoff ⟨i, false⟩)) ++
  (List.range s.putIns.length).map (fun i => (none, .putLanding 0 0 0 (.lands ⟨i, 0⟩))) ++
  (s.drains.map fun d => (none, .matrixTurn ⟨clusterOf d.core, some 0⟩)) ++
  ((s.allCores.filter fun c => c.matrix ≠ []).map fun c => (none, .matrixTurn ⟨clusterOf c.id, none⟩)) ++
  (if s.stack = [] then [] else [(none, .mvbStackExecute)]) ++
  (s.nets.flatMap fun e => (List.range e.2.ops.length).flatMap fun i =>
    [(none, .balancerStep e.1 i), (none, .exitStep e.1 i), (none, .killCompensation e.1 i)]) ++
  (s.lwaits.map fun w => (none, .leaseGrant w.die)) ++
  ((s.leases.filter fun e => e.2.cmds ≠ []).map fun e => (none, .pooledEngineCommand (e.1 / 16) ⟨e.1 % 16, 0⟩)) ++
  (s.parts.filterMap fun e => if e.2.rpl = 0 then none else some (none, .pageRequestReply e.1)) ++
  (if s.stores = [] ∧ s.dirties = [] then [] else [(none, .memoryStorePerform ⟨0, .mod⟩)])

/-- Caldera: intervals, publications, retirements. -/
def State.readyCaldera (s : State) : List Ready :=
  s.tables.flatMap fun e =>
    (if e.2.fixed then [] else [(none, .placementIntervalEnd e.1)]) ++
    (if e.2.pub then [(none, .calderaPublish e.1)] else []) ++ (e.2.drain.map fun q => (none, .replicaRetire e.1 q.2.serial)) ++
    (e.2.copies.filter fun c => !c.done).map fun c => (none, .leaseGrant c.rep.die)

/-- Every step that the state may make ready, in the order in which they are tried. -/
def State.readySteps (s : State) : List Ready := s.readyStops ++ s.readySched ++ s.readyUnits ++ s.readyCaldera

/-- A core without its event counters. -/
def Core.uncounted (c : Core) : Core := { c with events := Vector.replicate 8 { src := 0, val := 0 } }
/-- The state without its event counters. -/
def State.uncounted (s : State) : State :=
  { s with core := s.core.uncounted, others := s.others.map fun e => (e.1, e.2.uncounted), dieEv := [] }
/-- Makes a step, when it changes anything but event counters. -/
def State.tryStep (s : State) (q : Ready) : Option Out :=
  match exec q.2 (match q.1 with | some n => s.focus n | none => s) with
  | .next t => let t := t.focus s.core.id; if t.uncounted = s.uncounted then none else some (.next t)
  | o => some o

/-- The core whose turn comes next: cores that can take one follow one another in the order of their numbers. -/
def State.nextCore (s : State) : Nat :=
  let l := s.allCores.filter s.runs
  match l.find? fun c => s.core.id < c.id with
  | some c => c.id
  | none => match l with | c :: _ => c.id | [] => s.core.id

/-- What moves when nothing is scheduled: a patrol sweep that is due (R381), a step that the state makes ready, or else the next
core's turn (log 1). -/
def State.auto (s : State) : Out :=
  match (List.range 16).find? s.sweepDue with
  | some d => execPatrolSweep d none s
  | none =>
    match s.readySteps.findSome? s.tryStep with
    | some o => o
    | none => s.takeTurn s.nextCore

end Sys2Proof.Machine
end

