-- ==== Sys2Proof/Machine/Step.lean ====
section
/-! DEFINITION. One step of the machine (log 1), and the placing of an instruction where the next step fetches it (log 2). -/

namespace Sys2Proof.Machine

/-- One step: what the agenda names first, or with nothing on it a cycle of device time and what moves by itself. -/
def step (s : State) : Host.Outcome State Fault Refusal :=
  match s.agenda with
  | [] => s.detect.cycle.auto
  | .turn n :: l => State.takeTurn { s with agenda := l }.detect n
  | .event i :: l => exec i { s with agenda := l }.detect
  | .cycle :: l => .next ({ s with agenda := l }).cycle
  | .strike e :: l => .next (State.strike { s with agenda := l } e)
  | .image i :: l => .next { s with agenda := l, images := s.images ++ [i] }

/-- The state with an instruction stored where the next step fetches: see `State.placed` (log 2). -/
def State.withFetchWord (s : State) (nbits w : Nat) : State := s.placed nbits w

end Sys2Proof.Machine
end

