-- ==== Sys2Proof/Safety.lean ====
section
/-! DEFINITION. What the statements mean by a safe step and a well-formed state, and the next states that instructions of
one shape share. -/

namespace Sys2Proof.Safety

open Sys2Proof.Machine

/-- The step ends in a next state: the machine stops neither in a fault nor in a refusal. -/
def Completes (s : State) : Prop := ∃ t, step s = .next t

/-- Host-physical memory is in its canonical form: strictly rising addresses, no byte listed that reads zero anyway. -/
def MemOk (s : State) : Prop := s.mem.wf = true

/-- The instruction at the pc can read `rd` and write `wr`: no register that it reads is marked poisoned (R386), and the
scoreboard holds none of them (R64). -/
def Free (s : State) (rd wr : Regs) : Prop := s.core.ready rd wr = true

/-- The next state of an instruction that retires with a scalar result to be readable `n` slots on, and flags that join with
it (R63, R118). -/
def xNext (s : State) (n : Nat) (d : XReg) (v : Word) (f : Flags := 0) : State :=
  (s.upd fun c => (c.pendX n d v).pendF n f).retire
/-- The same for a vector result: the bits of `t` that `m` selects (R141). -/
def vNext (s : State) (n : Nat) (d : VReg) (t m : Tile) (f : Flags := 0) : State :=
  (s.upd fun c => (c.pendV n d t m).pendF n f).retire
/-- The same for a predicate result. -/
def pNext (s : State) (n : Nat) (d : PReg) (m : Mask) : State := (s.upd fun c => c.pendP n d m).retire
/-- The next state of an instruction that retires with a scalar result of variable latency, last in the scoreboard's order
(R64). -/
def lateNext (s : State) (d : XReg) (v : Word) : State := (s.upd fun c => c.lateX d v).retire

/-- An exact integer held to a range, with the saturation flag when that changes it (R94, R123). -/
def clamped (lo hi r : Int) : Word × Flags :=
  let c := max lo (min r hi)
  (BitVec.ofInt 64 c, if c = r then 0 else 32)

/-- The next state of a scalar floating instruction: 4 slots, its flags, and in mode SR the advance of the seed when a finite
value was rounded (R112, R137). -/
def eltNext (s : State) (d : XReg) (t : Ty) (h : How) (e : Elt) : State :=
  let seeded := if h.mode = .sr ∧ e.used = true then s.upd fun c => { c with srseed := c.srseed + 0xD1B54A32D192ED03 } else s
  xNext seeded 4 d (if t.isSigned then BitVec.ofInt 64 (intVal t e.bits) else BitVec.ofNat 64 e.bits) e.flags

/-- The slots that pass one after another with no instruction. -/
def slots : Nat → Core → Core
  | 0, c => c
  | n + 1, c => slots n c.tick

/-- A vector register once a result has landed in it: the bits that the mask selects are new (R141). -/
def after (old t m : Tile) : Tile := (old &&& ~~~m) ||| (t &&& m)

/-- The instruction completes with a vector result `lat` slots on that holds, in `rows` rows of `cols` elements of `sz` bytes
from byte 0 on, the elements `e` in the rows that `p` admits; a row that it does not admit is zeroed with `z` and else stays;
bytes beyond the rows stay (R140, R141). The flags are those of the admitted rows' elements (R117), and in mode SR the seed
advances when one of those rounded a finite value (R112). -/
def Writes (s : State) (i : Instr) (lat : Nat) (d : VReg) (h : How) (rows cols sz : Nat) (p : Mask) (z : Bool)
    (e : Nat → Nat → Elt) : Prop :=
  let used : Prop := h.mode = .sr ∧ ∃ r < rows, p.getLsbD r = true ∧ ∃ k < cols, (e r k).used = true
  ∃ (s1 : State) (t m : Tile) (f : Flags), exec i s = .next (vNext s1 lat d t m f) ∧
    (used → s1 = s.upd fun c => { c with srseed := c.srseed + 0xD1B54A32D192ED03 }) ∧ (¬ used → s1 = s) ∧
    (∀ b < 6, f.getLsbD b = true ↔ ∃ r < rows, p.getLsbD r = true ∧ ∃ k < cols, (e r k).flags.getLsbD b = true) ∧
    ∀ old : Tile,
      (∀ r < rows, ∀ k < cols, tileElem (after old t m) sz (r * cols + k) =
        if p.getLsbD r then (e r k).bits % 2 ^ (8 * sz) else if z then 0 else tileElem old sz (r * cols + k)) ∧
      ∀ j < 1024, rows * cols * sz ≤ j → tileBytes (after old t m) j 1 = tileBytes old j 1

/-- The issue of an instruction with a mask: it traps when the geometry does not admit the type in force, or another check of
its own fails; else it writes its rows. -/
def Masked (s : State) (i : Instr) (op lat : Nat) (m : VMask) (d : VReg) (rd : Regs) (ty : Option Ty) (rm : Rm) (adm : Ty → Bool)
    (chk : Geo → Bool) (cols sz : Geo → Nat) (e : Geo → How → Nat → Nat → Elt) : Prop :=
  Free s rd { v := [d] } →
    (s.core.geo ty adm = none → exec i s = .next (s.raise 0x02 0 op 0)) ∧
    ∀ g, s.core.geo ty adm = some g →
      (chk g = false → exec i s = .next (s.raise 0x02 0 op 0)) ∧
      (chk g = true → Writes s i lat d (s.core.how rm) g.rows (cols g) (sz g) (s.core.rp m.p) m.z (e g (s.core.how rm)))

/-- The issue of an engine command whose own checks pass exactly when `legal` holds, and that takes `t` at issue (R235,
R236): predicated off it only retires; a stamp address that is no doubleword of the own share takes an address fault; a full
queue freezes the core; else the command joins the queue with `%sqn`, which advances. -/
def Enqueues (s : State) (i ins : Instr) (op : Nat) (rd : List XReg) (stamp : XReg) (pe : PReg) (legal : Prop) (t : Taken) :
    Prop :=
  let c := s.core
  let a := c.rx stamp
  let e : EngineCmd := { ins := ins, seq := c.sqn, stamp := offset a, ops := t.ops, shape := t.shape, data := t.data
                         bad := t.bad, started := false, moved := 0, status := 0x01, waits := 0 }
  let named := a.toNat % 8 = 0 ∧ tag a = 8 ∧ offset a + 8 ≤ c.shareSize
  Free s { x := stamp :: rd, p := [pe] } {} →
    ((c.rp pe).getLsbD 0 = false → exec i s = .next s.retire) ∧
    ((c.rp pe).getLsbD 0 = true → legal →
      (¬ named → exec i s = .next (s.raise 0x05 a.toNat op 0)) ∧
      (named → 8 ≤ c.engine.length → exec i s = .next s.freeze) ∧
      (named → c.engine.length < 8 →
        exec i s = .next (s.upd fun c => { c with engine := c.engine ++ [e], sqn := c.sqn + 1 }).retire))

/-- The issue of an engine command whose own check fails: a trap of the given cause, when the predicate is set (R235). -/
def Rejects (s : State) (i : Instr) (rd : List XReg) (stamp : XReg) (pe : PReg) (cause addr info : Nat) : Prop :=
  Free s { x := stamp :: rd, p := [pe] } {} → (s.core.rp pe).getLsbD 0 = true → exec i s = .next (s.raise cause addr info 0)

/-- A range of the own share with tag 0x8 at an alignment, the control page excluded (R236, R238). -/
def LocalRange (c : Core) (a : Word) (n align : Nat) : Prop :=
  a.toNat % align = 0 ∧ tag a = 8 ∧ offset a + max n 1 ≤ c.shareSize

end Sys2Proof.Safety
end

