-- ==== Sys2Proof/Certificates/Slice0/Obligations.lean ====
section
/-! DEFINITION. The statements for the provers. Each docstring names the rules of spec/ that the statement formalises. Next
states that instructions of one shape share are named in Sys2Proof/Safety.lean; the registers that a clause takes to be free
are exactly those that the instruction reads and writes. -/

open Sys2Proof
open Sys2Proof.Machine
open Sys2Proof.Safety

/-! Scalar instructions (06_scalar.md). -/

/-- R122 to R125: sums, differences, products, quotients and remainders, in the register and the literal form, with the
saturation flag. -/
def Obligations.IntegerArithmeticResults : Prop :=
  ∀ (s : State) (d a b : XReg) (v : Word) (i : BitVec 11),
    let x := s.core.rx a
    let z := s.core.rx d
    let both (reg lit : Instr) (n : Nat) (r : Word → Word × Flags) : Prop :=
      (Free s { x := [a, b] } { x := [d] } → exec reg s = .next (xNext s n d (r (s.core.rx b)).1 (r (s.core.rx b)).2)) ∧
      (Free s { x := [a] } { x := [d] } → exec lit s = .next (xNext s n d (r v).1 (r v).2))
    both (.add .wrap d a b) (.addLiteral .wrap d a v) 1 (fun y => (x + y, 0)) ∧
    both (.add .sat d a b) (.addLiteral .sat d a v) 1 (fun y => clamped (-2 ^ 63) (2 ^ 63 - 1) (x.toInt + y.toInt)) ∧
    both (.add .usat d a b) (.addLiteral .usat d a v) 1 (fun y => clamped 0 (2 ^ 64 - 1) (x.toNat + y.toNat)) ∧
    both (.sub .wrap d a b) (.subLiteral .wrap d a v) 1 (fun y => (x - y, 0)) ∧
    both (.sub .sat d a b) (.subLiteral .sat d a v) 1 (fun y => clamped (-2 ^ 63) (2 ^ 63 - 1) (x.toInt - y.toInt)) ∧
    both (.sub .usat d a b) (.subLiteral .usat d a v) 1 (fun y => clamped 0 (2 ^ 64 - 1) ((x.toNat : Int) - y.toNat)) ∧
    both (.mul d a b) (.mulLiteral d a v) 3 (fun y => (x * y, 0)) ∧
    both (.mulhi .s d a b) (.mulhiLiteral .s d a v) 3
      (fun y => ((x.signExtend 128 * y.signExtend 128).extractLsb' 64 64, 0)) ∧
    both (.mulhi .u d a b) (.mulhiLiteral .u d a v) 3
      (fun y => ((x.setWidth 128 * y.setWidth 128).extractLsb' 64 64, 0)) ∧
    both (.mulhi .su d a b) (.mulhiLiteral .su d a v) 3
      (fun y => ((x.signExtend 128 * y.setWidth 128).extractLsb' 64 64, 0)) ∧
    both (.div false d a b) (.divLiteral false d a v) 12 (fun y => (if y = 0 then -1 else x.sdiv y, 0)) ∧
    both (.div true d a b) (.divLiteral true d a v) 12 (fun y => (if y = 0 then -1 else x / y, 0)) ∧
    both (.rem false d a b) (.remLiteral false d a v) 12 (fun y => (if y = 0 then x else x.srem y, 0)) ∧
    both (.rem true d a b) (.remLiteral true d a v) 12 (fun y => (if y = 0 then x else x % y, 0)) ∧
    (Free s { x := [a, b, d] } { x := [d] } →
      exec (.mad false d a b) s = .next (xNext s 3 d (z + x * s.core.rx b)) ∧
      exec (.mad true d a b) s = .next (xNext s 3 d (z - x * s.core.rx b))) ∧
    (Free s { x := [a] } { x := [d] } → exec (.addi d a i) s = .next (xNext s 1 d (x + i.signExtend 64)))

/-- R122, R125, R126, R128, R129 (`.tox`): logic, shifts, fields, extremes, counts, selection and loads of values, with the
fields and counts said bit by bit. R127, R129: every bit of the predicate is the outcome of the compare; truth tables and
moves go bit by bit. -/
def Obligations.BitFieldAndPredicateResults : Prop :=
  (∀ (s : State) (d a b : XReg) (p : PReg) (v : Word) (i : BitVec 11) (sh pos wid : Fin 64) (wid32 : Fin 32) (sx : Bool),
     let x := s.core.rx a
     let z := s.core.rx d
     let both (reg lit : Instr) (r : Word → Word) : Prop :=
       (Free s { x := [a, b] } { x := [d] } → exec reg s = .next (xNext s 1 d (r (s.core.rx b)))) ∧
       (Free s { x := [a] } { x := [d] } → exec lit s = .next (xNext s 1 d (r v)))
     let field (j : Instr) (w : Nat) (sgn : Bool) : Prop :=
       ∃ r : Word, exec j s = .next (xNext s 1 d r) ∧
         ∀ k < 64, r.getLsbD k = if k < w then x.getLsbD (pos.val + k) else sgn && x.getLsbD (pos.val + w - 1)
     let insert (j : Instr) (w : Nat) : Prop :=
       ∃ r : Word, exec j s = .next (xNext s 1 d r) ∧
         ∀ k < 64, r.getLsbD k = if pos.val ≤ k ∧ k < pos.val + w then x.getLsbD (k - pos.val) else z.getLsbD k
     let count (j : Instr) (w : Nat) (bit : Nat → Nat) : Prop :=
       ∃ n ≤ w, exec j s = .next (xNext s 1 d (BitVec.ofNat 64 n)) ∧ (∀ k < n, x.getLsbD (bit k) = false) ∧
         (n < w → x.getLsbD (bit n) = true)
     both (.and false d a b) (.andLiteral false d a v) (fun y => x &&& y) ∧
     both (.and true d a b) (.andLiteral true d a v) (fun y => x &&& ~~~y) ∧
     both (.or false d a b) (.orLiteral false d a v) (fun y => x ||| y) ∧
     both (.or true d a b) (.orLiteral true d a v) (fun y => x ||| ~~~y) ∧
     both (.xor false d a b) (.xorLiteral false d a v) (fun y => x ^^^ y) ∧
     both (.xor true d a b) (.xorLiteral true d a v) (fun y => x ^^^ ~~~y) ∧
     both (.min false d a b) (.minLiteral false d a v) (fun y => if y.toInt < x.toInt then y else x) ∧
     both (.min true d a b) (.minLiteral true d a v) (fun y => if y.toNat < x.toNat then y else x) ∧
     both (.max false d a b) (.maxLiteral false d a v) (fun y => if x.toInt < y.toInt then y else x) ∧
     both (.max true d a b) (.maxLiteral true d a v) (fun y => if x.toNat < y.toNat then y else x) ∧
     (Free s { x := [a, b] } { x := [d] } →
       exec (.shl d a (.reg b)) s = .next (xNext s 1 d (x <<< ((s.core.rx b).toNat % 64))) ∧
       exec (.shr d a (.reg b)) s = .next (xNext s 1 d (x >>> ((s.core.rx b).toNat % 64))) ∧
       exec (.sar d a (.reg b)) s = .next (xNext s 1 d (x.sshiftRight ((s.core.rx b).toNat % 64)))) ∧
     (Free s { x := [a] } { x := [d] } →
       exec (.shl d a (.imm sh)) s = .next (xNext s 1 d (x <<< sh.val)) ∧
       exec (.shr d a (.imm sh)) s = .next (xNext s 1 d (x >>> sh.val)) ∧
       exec (.sar d a (.imm sh)) s = .next (xNext s 1 d (x.sshiftRight sh.val)) ∧
       field (.bfx d a pos wid32) (wid32.val + 1) false ∧
       field (.bfxExtended sx d a pos wid) (wid.val + 1) sx ∧
       count (.clz .lz d a) 64 (63 - ·) ∧ count (.clz .lzw d a) 32 (31 - ·) ∧
       count (.clz .tz d a) 64 id ∧ count (.clz .tzw d a) 32 id ∧
       exec (.popc false d a) s = .next (xNext s 1 d (BitVec.ofNat 64 ((List.range 64).countP x.getLsbD))) ∧
       exec (.popc true d a) s = .next (xNext s 1 d (BitVec.ofNat 64 ((List.range 32).countP x.getLsbD)))) ∧
     (Free s { x := [a, d] } { x := [d] } →
       insert (.bfi d a pos wid32) (wid32.val + 1) ∧ insert (.bfiExtended d a pos wid) (wid.val + 1)) ∧
     (Free s { x := [a, b], p := [p] } { x := [d] } →
       exec (.sel d a b p) s = .next (xNext s 1 d (if (s.core.rp p).getLsbD 0 then x else s.core.rx b))) ∧
     (Free s {} { x := [d] } →
       exec (.li d i) s = .next (xNext s 1 d (i.signExtend 64)) ∧ exec (.liLiteral d v) s = .next (xNext s 1 d v)) ∧
     (Free s { p := [p] } { x := [d] } → exec (.plogTox d p) s = .next (xNext s 1 d ((s.core.rp p).setWidth 64)))) ∧
  (∀ (s : State) (p q r : PReg) (a b : XReg) (v : Word) (i : BitVec 11) (t : BitVec 4),
     let x := s.core.rx a
     let all (o : Bool) : Mask := if o then -1 else 0
     let f32 (w : Word) : Machine.Num := tyValue .f32 (w.toNat % 2 ^ 32)
     let cond (c : Cond) (o : Word → Bool) : Prop :=
       (Free s { x := [a, b] } { p := [p] } → exec (.cmp c p a b) s = .next (pNext s 1 p (all (o (s.core.rx b))))) ∧
       (Free s { x := [a] } { p := [p] } → exec (.cmpLiteral c p a v) s = .next (pNext s 1 p (all (o v))))
     let icond (c : ICond) (o : Word → Bool) : Prop :=
       cond (.int c) o ∧
       (Free s { x := [a] } { p := [p] } → exec (.cmpi c p a i) s = .next (pNext s 1 p (all (o (i.signExtend 64)))))
     icond .eq (fun y => x = y) ∧ icond .ne (fun y => x ≠ y) ∧
     icond .lt (fun y => x.toInt < y.toInt) ∧ icond .ge (fun y => y.toInt ≤ x.toInt) ∧
     icond .ltu (fun y => x.toNat < y.toNat) ∧ icond .geu (fun y => y.toNat ≤ x.toNat) ∧
     cond (.flt .feq) (fun y => (f32 x).eqv (f32 y)) ∧ cond (.flt .fne) (fun y => !(f32 x).eqv (f32 y)) ∧
     cond (.flt .flt) (fun y => (f32 x).lt (f32 y)) ∧
     cond (.flt .fle) (fun y => (f32 x).lt (f32 y) || (f32 x).eqv (f32 y)) ∧
     cond (.flt .fun_) (fun y => (f32 x).isNan || (f32 y).isNan) ∧
     (Free s { p := [q, r] } { p := [p] } →
       ∃ m : Mask, exec (.plog t p q r) s = .next (pNext s 1 p m) ∧
         ∀ k < 32, m.getLsbD k = t.getLsbD (2 * ((s.core.rp q).getLsbD k).toNat + ((s.core.rp r).getLsbD k).toNat)) ∧
     (Free s { x := [a] } { p := [p] } → exec (.plogFromx p a) s = .next (pNext s 1 p (x.extractLsb' 0 32))))

/-- R133, R135 to R137: every floating result is placed in the register 4 slots on with its flags, and in mode SR the seed
advances when a finite value was rounded (R112); that `RSQRT`, `EXP2` and `LOG2`, which round to nearest in every mode, never
advance it is the model's reading (notes/assumptions/36.md). `num` gives exact values; `eltRound` rounds an exact value. -/
def Obligations.ScalarFloatResults : Prop :=
  ∀ (s : State) (d a b : XReg) (ty : Option FTy) (rm : Rm) (neg sub sat : Bool) (u v : Ty),
    let run (t : Ty) (rm : Rm) (op : SfFn → Instr) (fma : Instr) : Prop :=
      let h := s.core.how rm
      let bits (r : XReg) : Nat := (s.core.rx r).toNat % 2 ^ tyBits t
      let num (r : XReg) : Machine.Num := tyValue t (bits r)
      let two (f : SfFn) (e : Elt) : Prop := Free s { x := [a, b] } { x := [d] } → exec (op f) s = .next (eltNext s d t h e)
      let one (f : SfFn) (e : Elt) : Prop := Free s { x := [a] } { x := [d] } → exec (op f) s = .next (eltNext s d t h e)
      let rounded (r : Machine.Num × Flags) : Elt := eltRound t h 0 0 r.1 r.2
      two .add (rounded ((num a).add h.mode (num b))) ∧ two .sub (rounded ((num a).add h.mode (num b).negate)) ∧
      two .mul (rounded ((num a).mul (num b))) ∧ two .div (rounded ((num a).div (num b))) ∧
      two .min { bits := floatMinMax t false (bits a) (bits b) } ∧ two .max { bits := floatMinMax t true (bits a) (bits b) } ∧
      one .rcp (rounded (Machine.Num.div (.fin false 1 1) (num a))) ∧
      one .sqrt { eltOf (fSqrt (fmtOf t) h.mode (h.draw 0 0) (num a)) with used := sqrtUsed (num a) } ∧
      one .rsqrt (eltOf (fRsqrt (fmtOf t) (num a))) ∧ one .exp2 (eltOf (fExp2 (fmtOf t) (num a))) ∧
      one .log2 (eltOf (fLog2 (fmtOf t) (num a))) ∧
      one .abs { bits := if (num a).isNan then canonNaN t else bits a % 2 ^ (tyBits t - 1) } ∧
      one .neg { bits := if (num a).isNan then canonNaN t else (bits a + 2 ^ (tyBits t - 1)) % 2 ^ tyBits t } ∧
      one .cls { bits := classMask t (bits a) } ∧
      (Free s { x := [a, b, d] } { x := [d] } →
        exec fma s = .next (eltNext s d t h (rounded (Machine.Num.fma h.mode neg sub (num a) (num b) (num d)))))
    run .f32 .frm (.sfop · d a b) (.sfma neg sub d a b) ∧
    run (match ty with | some .bf16 => .bf16 | some .f16 => .f16 | _ => .f32) rm (.sfopExtended · ty rm d a b)
      (.sfmaExtended neg sub ty rm d a b) ∧
    (Free s { x := [a] } { x := [d] } →
      exec (.scvt u v sat d a) s = .next (eltNext s d u (s.core.how .frm)
        (eltConvert u v sat (s.core.how .frm) 0 0 ((s.core.rx a).toNat % 2 ^ tyBits v))) ∧
      exec (.scvtExtended u v sat rm d a) s = .next (eltNext s d u (s.core.how rm)
        (eltConvert u v sat (s.core.how rm) 0 0 ((s.core.rx a).toNat % 2 ^ tyBits v))))

/-- R54, R55, R130 to R132: what `SRD`, `TIME` and `LEA` write, the register layouts said field by field. What `%core` reads
on a supervisor core is the model's choice (notes/assumptions/63.md). R54 to R56, R131: a legal value is written and governs
from the next slot; any other takes the illegal-operand trap with the register as it was. In a chain the level is the
leader's value. Without a launch the highest level that may be named is 4 (the model's reading: notes/assumptions/25.md).
That a write of a read-only number, which the scanner rejects, would take that trap too is the model's choice
(notes/assumptions/77.md). -/
def Obligations.SpecialRegisters : Prop :=
  (∀ (s : State) (d : XReg) (n : SReg) (m : MAddr) (i : BitVec 32),
     let c := s.core
     let h := c.chain
     (Free s {} { x := [d] } →
       exec (.srd d n) s = .next (xNext s 1 d (match n with
         | .vs => c.vs | .srseed => c.srseed | .task => c.task | .steep => c.steep | .steepPc => c.steepPc
         | .steepLc => c.steepLc | .trap => c.trap
         | .fflags => c.fflags.setWidth 64 | .frm => c.frm.setWidth 64 | .dom => c.dom.setWidth 64
         | .launch => c.launch.setWidth 64 | .sqn => c.sqn.setWidth 64
         | .pri => BitVec.ofNat 64 (s.effPri 8 c + 8 * c.priLaunch.toNat)
         | .core => BitVec.ofNat 64 (colOf c.id + 256 * rowOf c.id + 65536 * dieOf c.id)
         | .chain => BitVec.ofNat 64 (h.r + 2 ^ 8 * h.c + 2 ^ 16 * (h.rows - 1) + 2 ^ 24 * (h.cols - 1) + 2 ^ 32 * h.number.toNat))) ∧
       exec (.time d) s = .next (xNext s 1 d (BitVec.ofNat 64 s.now)) ∧
       exec (.timeFx d) s = .next (xNext s 1 d (s.time.dt.setWidth 64)) ∧
       s.now = s.time.dt.toNat / 65536) ∧
     (Free s { x := match m.off with | .disp _ => [m.base] | .index _ xi => [m.base, xi] } { x := [d] } →
       let off := match m.off with | .disp b => b.signExtend 64 | .index sc xi => c.rx xi * 2 ^ sc.val
       exec (.lea d m) s = .next (xNext s 1 d (c.rx m.base + off)) ∧
       exec (.leaExtended d m i) s = .next (xNext s 1 d (c.rx m.base + off + i.signExtend 64)))) ∧
  (∀ (s : State) (a : XReg),
     let v := s.core.rx a
     let keep (n : SReg) (f : Core → Core) : Prop := exec (.swr n a) s = .next (s.upd f).retire
     let trap (n : SReg) : Prop := exec (.swr n a) s = .next (s.raise 0x02 0 0x2A 0)
     let shape : Prop := ∃ (r k : Nat) (t : Ty), 1 ≤ r ∧ r ≤ 32 ∧ 1 ≤ k ∧ k ≤ 1024 ∧ t.isElem = true ∧ r * k * t.size ≤ 1024 ∧
       v = BitVec.ofNat 64 (r + 2 ^ 16 * k + 2 ^ 32 * t.code)
     let top := match s.launches.find? s.core.launch.toNat with | some l => l.fields.dom | none => 4
     (Free s { x := [a] } {} →
       (shape → keep .vs fun c => { c with vs := v }) ∧ (¬ shape → trap .vs) ∧
       (v.toNat ≤ 4 → keep .frm fun c => { c with frm := v.setWidth 3 }) ∧ (4 < v.toNat → trap .frm) ∧
       keep .fflags (fun c => { c with fflags := v.setWidth 6 }) ∧ keep .srseed (fun c => { c with srseed := v }) ∧
       (s.core.leads = true → v.toNat < 8 ∧ v.toNat ≤ top → keep .dom fun c => { c with dom := v.setWidth 3 }) ∧
       (s.core.leads = true → 8 ≤ v.toNat ∨ top < v.toNat → trap .dom)) ∧
     (s.core.leads = false → ∀ e l, s.core.feed = e :: l → keep .dom fun c => { c with dom := e.dom }) ∧
     ∀ n ∈ [SReg.pri, .core, .chain, .launch, .task, .sqn, .steep, .steepPc, .steepLc, .trap], trap n)

/-- R63, R118: a result is readable in the slot of its latency and not before, and the flags join `%fflags` in that slot; a
vector result changes the selected bits alone. R10: `x0` reads zero and `p0` reads all ones, and a result into either is
discarded while the instruction retires as any other. R64: in an exchange phase an instruction that reads or writes a
register with a result pending is held without passing a slot; in a compute phase it issues and reads the old value. `ADD`
stands for the instructions that the scoreboard covers. -/
def Obligations.RegisterWritesAndTheScoreboard : Prop :=
  (∀ (c : Core) (n : Nat) (r : XReg) (v : Word) (q : VReg) (t m : Tile) (p : PReg) (k : Mask) (f : Flags), 1 ≤ n →
     (r ≠ 0 → (c.pend.any fun e => e.hits { x := [r] }) = false →
       (∀ i < n, (slots i (c.pendX n r v)).rx r = c.rx r) ∧ (slots n (c.pendX n r v)).rx r = v) ∧
     ((c.pend.any fun e => e.hits { v := [q] }) = false →
       (∀ i < n, (slots i (c.pendV n q t m)).rv q = c.rv q) ∧
       (slots n (c.pendV n q t m)).rv q = ((c.rv q &&& ~~~m) ||| (t &&& m))) ∧
     (p ≠ 0 → (c.pend.any fun e => e.hits { p := [p] }) = false →
       (∀ i < n, (slots i (c.pendP n p k)).rp p = c.rp p) ∧ (slots n (c.pendP n p k)).rp p = k) ∧
     (∀ i < n, (slots i (c.pendF n f)).fflags = (slots i c).fflags) ∧
     (slots n (c.pendF n f)).fflags = (slots n c).fflags ||| f) ∧
  (∀ (s : State) (n : Nat) (v : Word) (m : Mask) (f : Flags) (bad : Bool),
     s.core.rx 0 = 0 ∧ s.core.rp 0 = BitVec.allOnes 32 ∧ s.core.wx 0 v bad = s.core ∧ s.core.wp 0 m bad = s.core ∧
     xNext s n 0 v = s.retire ∧ pNext s n 0 m = s.retire ∧ lateNext s 0 v = s.retire ∧
     xNext s n 0 v f = (s.upd fun c => c.pendF n f).retire) ∧
  (∀ (s : State) (d a b : XReg),
     let pending := s.core.pending { x := [a, b, d] }
     let late := s.core.awaited { x := [a, b, d] }
     ((s.core.phase = .exchange ∧ pending = true) ∨ late = true →
       ∃ t, exec (.add .wrap d a b) s = .next t ∧ t.core.pc = s.core.pc ∧ t.core.slot = s.core.slot ∧
         t.core.retired = s.core.retired ∧ t.core.waiting = true ∧ t.mem = s.mem ∧ t.others = s.others) ∧
     (s.core.phase = .compute → late = false → s.core.badReg { x := [a, b] } = none → s.core.poisonReg { x := [a, b] } = none →
       exec (.add .wrap d a b) s = .next (xNext s 1 d (s.core.rx a + s.core.rx b))))

/-! Control, loops, phases and chains (04_stream.md). -/

/-- R13, R70, R72, R76: the leader goes to the target after two empty slots (none inside a body that the loop buffer holds),
a loop whose body does not hold the target ends with those opened inside it, a call keeps them all and leaves the address
after it in `x63`; a condition that does not hold, and a follower, go on in sequence. Which loops are opened inside another
is said by their depth, that is by when they were opened (the model's choice: notes/assumptions/54.md). -/
def Obligations.BranchesAndCalls : Prop :=
  ∀ (s : State) (p : PReg) (a b : XReg) (d17 : BitVec 17) (d32 : BitVec 32) (w : Word),
    let c := s.core
    let goes (i : Instr) (t : Word) : Prop :=
      ∃ u, exec i s = .next u ∧ u.core.pc = t ∧ u.core.retired = c.retired + 1 ∧ (u.core.gap = 0 ∨ u.core.gap = 2) ∧
        ((∀ l : Level, ¬ (c.loops[l].active = true ∧ c.loops[l].start ≤ t ∧ t < c.loops[l].stop)) → u.core.gap = 2) ∧
        (∀ l : Level, u.core.loops[l] = if c.loops[l].active = true ∧ (∃ m : Level, c.loops[m].active = true ∧
            ¬ (c.loops[m].start ≤ t ∧ t < c.loops[m].stop) ∧ c.loops[m].depth ≤ c.loops[l].depth) then
          { c.loops[l] with cnt := 0, active := false } else c.loops[l]) ∧ u.mem = s.mem ∧ u.others = s.others
    let decides (i : Instr) (cond : Prop) (t : Word) : Prop :=
      (c.leads = true → cond → goes i t) ∧ (c.leads = true → ¬ cond → exec i s = .next s.retire) ∧
        (c.leads = false → exec i s = .next s.retire)
    let bit (k : Nat) : Bool := (c.rp p).getLsbD k
    let rows := c.vs.toNat % 64
    decides (.br d17) True (c.pc + 4 * d17.signExtend 64) ∧ decides (.brAbsolute w) True w ∧
    (Free s { x := [a] } {} → decides (.jr a) True (c.rx a) ∧ decides (.ret a) True (c.rx a)) ∧
    (Free s { p := [p] } {} → rows ≤ 32 →
      decides (.bc .any p d17) (∃ k < rows, bit k = true) (c.pc + 4 * d17.signExtend 64) ∧
      decides (.bc .all p d17) (∀ k < rows, bit k = true) (c.pc + 4 * d17.signExtend 64) ∧
      decides (.bc .none p d17) (∀ k < rows, bit k = false) (c.pc + 4 * d17.signExtend 64)) ∧
    (Free s { x := [a, b] } {} →
      decides (.bcmp .eq a b d32) (c.rx a = c.rx b) (c.pc + 4 * d32.signExtend 64) ∧
      decides (.bcmp .ne a b d32) (c.rx a ≠ c.rx b) (c.pc + 4 * d32.signExtend 64) ∧
      decides (.bcmp .lt a b d32) ((c.rx a).toInt < (c.rx b).toInt) (c.pc + 4 * d32.signExtend 64) ∧
      decides (.bcmp .ge a b d32) ((c.rx b).toInt ≤ (c.rx a).toInt) (c.pc + 4 * d32.signExtend 64) ∧
      decides (.bcmp .ltu a b d32) ((c.rx a).toNat < (c.rx b).toNat) (c.pc + 4 * d32.signExtend 64) ∧
      decides (.bcmp .geu a b d32) ((c.rx b).toNat ≤ (c.rx a).toNat) (c.pc + 4 * d32.signExtend 64)) ∧
    (Free s {} { x := [63] } →
      let linked := s.upd fun c => c.pendX 1 63 c.npc
      let calls (i : Instr) (t : Word) : Prop :=
        (c.leads = true → ∃ u, exec i s = .next u ∧ u = linked.transfer t ∧ u.core.pc = t ∧ u.core.loops = c.loops ∧
          (u.core.gap = 0 ∨ u.core.gap = 2)) ∧ (c.leads = false → exec i s = .next linked.retire)
      calls (.call d17) (c.pc + 4 * d17.signExtend 64) ∧ calls (.callAbsolute w) w)

/-- R73 to R75: entering a loop, its back edge, and leaving it with the loops nested in it. The count of `LOOPR` has at most
32 bits; a level that is active, or an end beyond an active loop's, is illegal. A loop is nested in those that were active
when it was opened: its depth is above theirs (the model's reading: notes/assumptions/54.md). -/
def Obligations.Loops : Prop :=
  ∀ (s : State) (l : Level) (e : Fin 2048) (n : BitVec 32) (a : XReg) (q : Quant) (p : PReg),
    let c := s.core
    let ends := c.pc + BitVec.ofNat 64 (4 * e.val)
    let opens (i : Instr) (op : Nat) (cnt : Word) : Prop :=
      (c.loops[l].active = true ∨ 2 ^ 32 ≤ cnt.toNat → exec i s = .next (s.raise 0x02 0 op 0)) ∧
      ∀ u x, c.loops[l].active = false → cnt.toNat < 2 ^ 32 → s.enter ends = .ok u x →
        ((∃ m : Level, u.core.loops[m].active = true ∧ u.core.loops[m].stop < ends) → exec i s = .next (u.raise 0x02 0 op 0)) ∧
        ((∀ m : Level, u.core.loops[m].active = true → ends ≤ u.core.loops[m].stop) →
          (cnt = 0 → exec i s = .next (u.transfer ends)) ∧
          (cnt ≠ 0 → ∃ k, (∀ m : Level, u.core.loops[m].active = true → u.core.loops[m].depth < k) ∧
            exec i s = .next (u.upd fun c =>
              let q : LoopLevel := { cnt := cnt.setWidth 32, active := true, start := c.npc, stop := ends, depth := k }
              { c with loops := c.loops.set l q }).retire))
    (c.leads = true → opens (.loop l e n) 0x08 (n.setWidth 64)) ∧
    (c.leads = true → Free s { x := [a] } {} → opens (.loopr l a e) 0x09 (c.rx a)) ∧
    (c.leads = false → exec (.loop l e n) s = .next s.retire ∧ exec (.loopr l a e) s = .next s.retire ∧
      exec (.lbrk l q p) s = .next s.retire) ∧
    (c.leads = true → Free s { p := [p] } {} →
      (c.loops[l].active = false → exec (.lbrk l q p) s = .next (s.raise 0x02 0 0x0A 0)) ∧
      (c.loops[l].active = true → quant q (c.rp p) c.rows = false → exec (.lbrk l q p) s = .next s.retire) ∧
      (c.loops[l].active = true → quant q (c.rp p) c.rows = true →
        ∃ u, exec (.lbrk l q p) s = .next u ∧ u.core.pc = c.loops[l].stop ∧
          ∀ m : Level, u.core.loops[m] =
            if c.loops[m].active = true ∧ c.loops[l].depth ≤ c.loops[m].depth then
              { c.loops[m] with cnt := 0, active := false } else c.loops[m])) ∧
    (c.loops[l].active = true → c.loops[l].stop = c.npc → c.loops[l].start ≤ c.pc → c.pc < c.loops[l].stop →
      (∀ m : Level, m ≠ l → c.loops[m].active = false) →
      ∃ u, exec .loopBackEdge s = .next u ∧ u.core.retired = c.retired ∧ u.core.x = c.x ∧
        (1 < c.loops[l].cnt.toNat → u.core.pc = c.loops[l].start ∧ u.core.loops[l].cnt = c.loops[l].cnt - 1 ∧
          u.core.loops[l].active = true) ∧
        (c.loops[l].cnt.toNat ≤ 1 → u.core.pc = c.npc ∧ u.core.loops[l].active = false ∧ u.core.gap = 0))

/-- R46, R63, R67, R80: a `NOP` of one slot and the phases; `NOP #n` retires in its last slot; `PHASE.c` waits until every
result is readable. Outside a loop the leader's sequential flow goes on at the next instruction with no empty slot. R88, R89,
R213, R362: `DONE` waits for the core's commands and stores; it and `EXIT` then end the core's part in the task; `EXIT` by
the leader sets the launch's code, first come first kept. In a handler the task ends for every member, once what each has
issued is complete. -/
def Obligations.NopsPhasesAndEnds : Prop :=
  (∀ (s : State) (n : Fin 2048),
     let c := s.core
     (n.val = 0 → exec (.nop n) s = .next (s.upd fun c => { c with nopLeft := 0 }).retire) ∧
     (0 < n.val → ∃ u, exec (.nop n) s = .next u ∧ u.core.nopLeft = n.val ∧ u.core.slot = c.slot + 1 ∧ u.core.pc = c.pc ∧
       u.core.retired = c.retired) ∧
     (∃ u, exec .phaseX s = .next u ∧ u = (s.upd fun c => { c with phase := .exchange }).retire ∧ u.core.phase = .exchange) ∧
     (c.anyResult = false → ∃ u, exec .phaseC s = .next u ∧ u = (s.upd fun c => { c with phase := .compute }).retire ∧
       u.core.phase = .compute) ∧
     (c.anyResult = true → ∃ u, exec .phaseC s = .next u ∧ u.core.phase = c.phase ∧ u.core.pc = c.pc ∧
       u.core.retired = c.retired ∧ u.core.slot = c.slot ∧ u.core.waiting = true) ∧
     ((∀ l : Level, c.loops[l].active = false) → c.leads = true →
       s.retire.core.pc = c.npc ∧ s.retire.core.gap = 0 ∧ s.retire.core.slot = c.slot + 1 ∧
         s.retire.core.retired = c.retired + 1) ∧
     (c.leads = false → s.retire.core.pc = c.pc)) ∧
  (∀ (s : State) (a : XReg),
     let c := s.core
     let ids := if c.frame.isSome then s.mates c else [c.id]
     let s1 := ids.foldl (fun s n => s.modCore n Core.dropReceives) s
     let s2 := if c.leads then s1.exitLaunch c.launch.toNat ((c.rx a).toNat % 256) else s1
     let free := Free s (if c.leads then { x := [a] } else {}) {}
     (c.phase = .compute → exec .done s = .next (s.raise 0x03 0 0x0E 0)) ∧
     (free → c.phase = .compute → exec (.exit a) s = .next (s.raise 0x03 0 0x0F 0)) ∧
     (c.phase = .exchange → (∃ n ∈ ids, s1.busy n = true) →
       ∃ u, exec .done s = .next u ∧ u.core.retired = c.retired ∧ u.core.pc = c.pc ∧ u.core.role = c.role) ∧
     (c.phase = .exchange → (∀ n ∈ ids, s1.busy n = false) →
       exec .done s = .next (ids.foldl State.leave s1) ∧ (free → exec (.exit a) s = .next (ids.foldl State.leave s2))) ∧
     (c.phase = .exchange → c.frame = none → s1.busy c.id = false → s.launches.find? c.launch.toNat = none →
       ∃ u, exec .done s = .next u ∧ (u.coreAt c.id).role = .idle ∧ (u.coreAt c.id).chain.leader = c.id) ∧
     ∀ lid l, s.launches.find? lid = some l →
       ∃ l', (s.exitLaunch lid ((c.rx a).toNat % 256)).launches.find? lid = some l' ∧ l'.exited = true ∧
         l'.code = if l.exited then l.code else (c.rx a).toNat % 256)

/-- R17, R86, R87: `CHAIN.leave` makes the core a chain of its own that goes on at its own place; `CHAIN.form`, once every
other core of the tile waits with the same shape, starts a new stream in exchange phase for all of them, with their leader's
`%dom`; a core that meets another shape traps, and each core of the tile that waits is marked to trap in its turn. R82, R83:
a value sent east or south lands at the neighbour's slot k + 1, one sent west or north at k + 4; at the edge of the chain,
and into `x0`, nothing is sent; the scoreboard takes no part. -/
def Obligations.ChainsAndTransfers : Prop :=
  (∀ (s : State) (h : Fin 8) (w : Fin 32),
     let c := s.core
     let (lead, ids) := c.rect.tile (h.val + 1) (w.val + 1)
     let others := (ids.filter (· ≠ c.id)).map s.coreAt
     c.frame = none → (c.leads = true → ∀ l : Level, c.loops[l].active = false) →
     (c.phase = .compute → exec .chainLeave s = .next (s.raise 0x03 0 0x0C 0)) ∧
     (c.phase = .exchange → c.members = 1 → exec .chainLeave s = .next s.retire) ∧
     (c.phase = .exchange → c.members ≠ 1 → ∃ u, exec .chainLeave s = .next u ∧ u.core.retired = c.retired + 1 ∧
       u.core.chain = { leader := c.id, rows := 1, cols := 1, r := 0, c := 0, number := c.chain.number } ∧ u.core.feed = []) ∧
     (¬ (h.val + 1 ∣ c.rect.rows ∧ w.val + 1 ∣ c.rect.cols) → exec (.chainForm h w) s = .next (s.raise 0x02 0 0x0C 0)) ∧
     (h.val + 1 ∣ c.rect.rows → w.val + 1 ∣ c.rect.cols →
       (c.stage = formBad → (∀ d ∈ others, d.arrived = false) → exec (.chainForm h w) s = .next (s.raise 0x02 0 0x0C 0)) ∧
       ∀ d ∈ others, d.role = .running → d.task = c.task → d.arrived = true → 2 ^ 40 ≤ d.stage →
         d.stage ≠ formCode (h.val + 1) (w.val + 1) → (∀ e ∈ others, e.id ≠ c.id) →
         ∃ s1 : State, exec (.chainForm h w) s = .next (s1.raise 0x02 0 0x0C 0) ∧ s1.core = c ∧ (s1.coreAt d.id).stage = formBad) ∧
     (h.val + 1 ∣ c.rect.rows → w.val + 1 ∣ c.rect.cols → c.phase = .compute → c.stage ≠ formBad →
       (∀ d ∈ others, d.role = .running ∧ d.task = c.task ∧ d.arrived = false) →
       exec (.chainForm h w) s = .next (s.raise 0x03 0 0x0C 0)) ∧
     (h.val + 1 ∣ c.rect.rows → w.val + 1 ∣ c.rect.cols → c.phase = .exchange → c.stage ≠ formBad →
       (∀ d ∈ others, d.role = .running ∧ d.task = c.task ∧ d.arrived = true ∧
         d.stage = formCode (h.val + 1) (w.val + 1)) →
       ∃ u, exec (.chainForm h w) s = .next u ∧ ∀ n ∈ ids,
         (u.coreAt n).chain.leader = lead ∧ (u.coreAt n).chain.rows = h.val + 1 ∧ (u.coreAt n).chain.cols = w.val + 1 ∧
         (u.coreAt n).chain.number = (s.coreAt n).chain.number ∧ (u.coreAt n).dom = (s.coreAt lead).dom ∧ (u.coreAt n).slot = 0 ∧ (u.coreAt n).phase = .exchange ∧
         (u.coreAt n).retired = (s.coreAt n).retired + 1) ∧
     (h.val + 1 ∣ c.rect.rows → w.val + 1 ∣ c.rect.cols → c.phase = .exchange → c.stage ≠ formBad →
       (∀ d ∈ others, d.role = .running ∧ d.task = c.task ∧ d.arrived = false) → others ≠ [] →
       ∃ u, exec (.chainForm h w) s = .next u ∧ u.core.arrived = true ∧ u.core.retired = c.retired ∧ u.core.pc = c.pc)) ∧
  (∀ (s : State) (dir : Dir) (vd va : VReg) (d a : XReg),
     let c := s.core
     let after := c.slot + (match dir with | .e | .s => 1 | .w | .n => 4)
     let sends (i : Instr) (l : Landing) : Prop :=
       (c.nextInChain dir = none → exec i s = .next s.retire) ∧
       ∀ n, c.nextInChain dir = some n → n ≠ c.id →
         (c.frame.isSome = true → exec i s = .next (s.raise 0x02 0 0x0D 0)) ∧
         (c.frame = none → ∃ u, exec i s = .next u ∧ u.core.retired = c.retired + 1 ∧ u.core.slot = c.slot + 1 ∧ u.mem = s.mem ∧
           let e : Pend := { left := after - (s.coreAt n).slot, slot := c.slot, arr := some dir, land := l }
           u.coreAt n = { s.coreAt n with id := n, pend := pendInsert e (s.coreAt n).pend })
     (c.badReg { v := [va] } = none → c.poisonReg { v := [va] } = none → sends (.xferVector dir vd va) (.v vd (c.rv va) (BitVec.allOnes 8192))) ∧
     (c.badReg { x := [a] } = none → c.poisonReg { x := [a] } = none → (d ≠ 0 → sends (.xferScalar dir d a) (.x d (c.rx a))) ∧
       (d = 0 → exec (.xferScalar dir d a) s = .next s.retire)) ∧
     (∃ u, exec .xferArrival s = .next u ∧ u = s.upd Core.landDue ∧
       ∀ r v, r ≠ 0 → c.pend = [{ left := 0, slot := c.slot, arr := some dir, land := .x r v }] →
         u.core.rx r = v ∧ u.core.pend = []))

/-! Memory (10_memory.md, 11_memory_isa.md). -/

/-- R40, R64, R65, R66, R225, R228: a load from the own share is readable 4 slots on; every other load is of class X, waits
in the scoreboard, and returns when it is the oldest; the value is extended as the form says; misalignment or an address
outside every space is an address fault. A load is performed in the step that issues it (the model's choice:
notes/assumptions/9.md). R64, R228: the oldest pending load of a core returns; its register takes the value. -/
def Obligations.LoadsAndReturns : Prop :=
  (∀ (s : State) (sz : MSize) (d : XReg) (m : MAddr) (imm : BitVec 32) (acq : Option Scope) (sx : Bool),
     let c := s.core
     let n := MSize.bytes sz
     let value (sx : Bool) (bs : List Byte) : Word :=
       if sx then (BitVec.ofNat (8 * n) (leNat bs)).signExtend 64 else (BitVec.ofNat (8 * n) (leNat bs)).setWidth 64
     let loads (i : Instr) (sx : Bool) (a : Word) : Prop :=
       (a.toNat % n ≠ 0 ∨ s.resolve a n = none → exec i s = .next (s.raise 0x05 a.toNat 0x30 0)) ∧
       (a.toNat % n = 0 → tag a = 8 → offset a + n ≤ c.shareSize →
         (c.sharePoisoned (offset a) n = false → exec i s = .next (xNext s 4 d (value sx (c.shareRead (offset a) n)))) ∧
         (c.sharePoisoned (offset a) n = true → ∃ u, exec i s = .next u ∧ u.core.contained = true ∧ u.core.pc = c.pc ∧
           u.core.retired = c.retired)) ∧
       ∀ sp, a.toNat % n = 0 → s.resolve a n = some sp → sp.isShare = false →
         (c.phase = .compute → exec i s = .next (s.raise 0x03 0 0x30 0)) ∧
         ∀ u bs, c.phase = .exchange → s.readSpace sp n = .ok u (some bs) → bs.length = n →
           exec i s = .next (lateNext u d (value sx bs))
     Free s { x := match m.off with | .disp _ => [m.base] | .index _ xi => [m.base, xi] } { x := [d] } →
       loads (.ld sz d m) false (c.ea m n) ∧ loads (.ldExtended sz d m imm acq sx) sx (c.ea m n imm)) ∧
  (∀ (s : State) (p : Pend) (l : List Pend), s.core.late = p :: l →
     ∃ t, exec .memoryLoadReturn s = .next t ∧ t.core.late = l ∧ t.core.pc = s.core.pc ∧ t.mem = s.mem ∧ t.others = s.others ∧
       (∀ r v, p.land = .x r v → r ≠ 0 → t.core.rx r = v) ∧ (∀ r, p.hits { x := [r] } = false → t.core.rx r = s.core.rx r) ∧
       (∀ r, p.hits { v := [r] } = false → t.core.rv r = s.core.rv r))

/-- R66, R228: a store to the own share is in place 4 slots on; any other store is of class X and goes to its space, a
release with its scope. R63, R228: the bytes of a store to the own share stand there in the slot k + 4 and not before, and no
other byte of the share changes. R228 and the frame of a global store: memory changes in the bytes that the translated
address names and in nothing else, but for the doubleword of the partition's dirty log (R341). With other steps scheduled the
network holds the store and memory does not change; with stores held and nothing else scheduled, it goes to memory after
those that must go before it (notes/assumptions/9.md). R203 to R212, R217, R224: a held store is seen further out, or goes to
memory with its bytes and no other (the dirty log apart), unless an earlier store must go before it: one of its core to the
same granule, an SO store before an SO store, an SO or RC store before a release. No order holds between others, UO stores
and releases among them. R341: the step at the log word that follows a performed write sets the granule's dirty bit. -/
def Obligations.StoresAndTheirFrames : Prop :=
  (∀ (s : State) (sz : MSize) (d : XReg) (m : MAddr) (imm : BitVec 32) (rel : Option Scope),
     let c := s.core
     let n := MSize.bytes sz
     let bs := leBytes n (c.rx d).toNat
     let stores (i : Instr) (r : Option Scope) (a : Word) : Prop :=
       (a.toNat % n ≠ 0 ∨ s.resolve a n = none → exec i s = .next (s.raise 0x05 a.toNat 0x31 0)) ∧
       (a.toNat % n = 0 → tag a = 8 → offset a + n ≤ c.shareSize →
         exec i s = .next (s.upd fun c => c.pendStore 4 (offset a) bs false).retire) ∧
       ∀ sp, a.toNat % n = 0 → s.resolve a n = some sp → sp.isShare = false →
         (c.phase = .compute → exec i s = .next (s.raise 0x03 0 0x31 0)) ∧
         ∀ u x, c.phase = .exchange → s.writeSpace sp bs r = .ok u x → exec i s = .next u.retire
     Free s { x := d :: match m.off with | .disp _ => [m.base] | .index _ xi => [m.base, xi] } {} →
       stores (.st sz m d) none (c.ea m n) ∧ stores (.stExtended sz m d imm rel) rel (c.ea m n imm)) ∧
  (∀ (c : Core) (n off : Nat) (bs : List Byte), 1 ≤ n → c.pend = [] → bs ≠ [] →
     (∀ i < n, (slots i (c.pendStore n off bs false)).share = c.share) ∧
     ∀ a, (slots n (c.pendStore n off bs false)).share.byte a =
       if off ≤ a ∧ a < off + bs.length then bs.getD (a - off) 0 else c.share.byte a) ∧
  (∀ (s u : State) (sz : MSize) (d : XReg) (m : MAddr) (p : Piece),
     let c := s.core
     let n := MSize.bytes sz
     let a := c.ea m n
     let bs := leBytes n (c.rx d).toNat
     let log := u.part u.myPart
     let w := log.dlog + 8 * (p.gpa / 32768 / 64)
     let h : NetStore := { core := u.core.id, hpa := p.hpa, gpa := p.gpa, part := u.myPart, data := bs, kind := p.kind, rel := none }
     Free s { x := d :: match m.off with | .disp _ => [m.base] | .index _ xi => [m.base, xi] } {} → c.phase = .exchange →
     a.toNat % n = 0 → tag a = 0 → offset a + n ≤ 2 ^ 57 → s.place (.glob (offset a)) n .write = .ok u (.mem [p]) → p.len = n →
     (u.agenda ≠ [] → exec (.st sz m d) s = .next { u with stores := u.stores ++ [h] }.retire) ∧
     (u.agenda = [] → u.stores = [] → u.deadMem p.hpa = false → ∃ t, exec (.st sz m d) s = .next t ∧ t.stores = [] ∧ ∀ b,
       log.dlog = 0 ∨ log.dspan ≤ p.gpa ∨ b < w ∨ w + 8 ≤ b →
         t.mem.byte b = if p.hpa ≤ b ∧ b < p.hpa + n then bs.getD (b - p.hpa) 0 else u.mem.byte b) ∧
     (u.agenda = [] → u.stores ≠ [] → p.hpa + n ≤ 2 ^ 57 → ∃ t, exec (.st sz m d) s = .next t ∧
       (∀ g ∈ t.stores, ∃ g0 ∈ u.stores, g = { g0 with lvl := g.lvl }) ∧
       (u.deadMem p.hpa = false → (∀ g ∈ h :: u.stores, (u.part g.part).dlog = 0) →
         ∀ i < n, t.mem.byte (p.hpa + i) = bs.getD i 0))) ∧
  (∀ (s : State) (i : Nat) (sc : Scope),
     (∀ h, s.stores[i]? = some h → s.mayPerform i sc.lvl = true → (∀ g ∈ s.stores, g.lvl < g.top) →
       ∃ t, exec (.memoryStorePerform ⟨i, sc⟩) s = .next t ∧ t.core = s.core ∧
         (h.cap sc.lvl < h.top → t.mem = s.mem ∧ t.stores.Perm (s.stores.set i { h with lvl := h.cap sc.lvl })) ∧
         (h.top ≤ h.cap sc.lvl → t.stores.Perm (s.stores.eraseIdx i) ∧
           (h.hpa + h.data.length ≤ 2 ^ 57 → h.mask = [] → s.deadMem h.hpa = false → (s.part h.part).dlog = 0 → ∀ b,
             t.mem.byte b = if h.hpa ≤ b ∧ b < h.hpa + h.data.length then h.data.getD (b - h.hpa) 0 else s.mem.byte b))) ∧
     (i < s.stores.length → s.mayPerform i sc.lvl = false → exec (.memoryStorePerform ⟨i, sc⟩) s = .next s) ∧
     (∀ h j g, s.stores[i]? = some h → j < i → s.stores[j]? = some g → h.lvl = 0 → g.lvl = 0 → sc ≠ .core →
       (g.core = h.core ∧ (g.hpa / 16 * 16 < h.hpa + h.data.length ∧ h.hpa / 16 * 16 < g.hpa + g.data.length ∨
         g.kind = 0 ∧ h.kind = 0 ∨ g.kind ≠ 2 ∧ ∃ r : Scope, h.rel = some r ∧ r ≠ .core)) → s.mayPerform i sc.lvl = false) ∧
     (∀ g h, s.stores = [g, h] → ¬ (g.kind = 0 ∧ h.kind = 0) → (h.rel = none ∨ g.kind = 2) →
       g.near h.hpa h.data.length = false → s.mayPerform 1 sc.lvl = true)) ∧
  (∀ (s : State) (i part g : Nat) (sc : Scope), s.dirties[i]? = some (part, g) →
     let a := (s.part part).dlog + 8 * (g / 64)
     ∃ t, exec (.memoryStorePerform ⟨s.stores.length + i, sc⟩) s = .next t ∧ t.dirties = s.dirties.eraseIdx i ∧ t.core = s.core ∧
       ((s.part part).dlog ≠ 0 → s.deadMem a = false → t.physNat a 8 = s.physNat a 8 ||| 2 ^ (g % 64)) ∧
       ((s.part part).dlog = 0 → t.mem = s.mem))

/-- R229: `LDF` waits for a full granule, reads it and leaves it empty unless it keeps it; `STF` stores and fills 4 slots on.
Only a doubleword of the own share may be named. R90 to R93: `WATCH` arms the watch with what it sees; `WAITW` retires with
the value once its condition holds and waits until then, passing no slot. -/
def Obligations.FullBitsAndWatches : Prop :=
  (∀ (s : State) (keep : Bool) (d : XReg) (m : MAddr) (x : Option (BitVec 32)),
     let c := s.core
     let a := c.ea m 8 (x.getD 0)
     let o := offset a
     let named := a.toNat % 8 = 0 ∧ tag a = 8 ∧ o + 8 ≤ c.shareSize
     let regs := match m.off with | .disp _ => [m.base] | .index _ xi => [m.base, xi]
     (Free s { x := regs } { x := [d] } →
       (¬ named → exec (.ldf keep d m x) s = .next (s.raise 0x05 a.toNat 0x32 0)) ∧
       (named → c.phase = .compute → exec (.ldf keep d m x) s = .next (s.raise 0x03 0 0x32 0)) ∧
       (named → c.phase = .exchange → c.full.contains (o / 16) = false →
         ∃ t, exec (.ldf keep d m x) s = .next t ∧ t.core.pc = c.pc ∧ t.core.retired = c.retired ∧ t.core.waiting = true) ∧
       (named → c.phase = .exchange → c.full.contains (o / 16) = true → c.sharePoisoned o 8 = false →
         let s1 := if keep then s else s.upd fun c => { c with full := setDel c.full (o / 16) }
         exec (.ldf keep d m x) s = .next (xNext s1 1 d (BitVec.ofNat 64 (c.shareNat o 8))))) ∧
     (Free s { x := d :: regs } {} →
       (¬ named → exec (.stf m d x) s = .next (s.raise 0x05 a.toNat 0x33 0)) ∧
       (named → exec (.stf m d x) s = .next (s.upd fun c => c.pendStore 4 o (leBytes 8 (c.rx d).toNat) true).retire))) ∧
  (∀ (s : State) (m : MAddr) (k : WaitCond) (d a : XReg),
     let c := s.core
     let w := c.ea m 8
     let named := w.toNat % 8 = 0 ∧ tag w = 8 ∧ (offset w + 8 ≤ c.shareSize ∨ (0xFF000 ≤ offset w ∧ offset w + 8 ≤ 0x100000))
     (Free s { x := match m.off with | .disp _ => [m.base] | .index _ xi => [m.base, xi] } {} →
       (¬ named → exec (.watch m) s = .next (s.raise 0x05 w.toNat 0x36 0)) ∧
       (∀ v, named → c.watched w = some v → exec (.watch m) s = .next
         (s.upd fun c => { c with watch := { addr := w, seen := BitVec.ofNat 64 v, armed := true } }).retire)) ∧
     (Free s { x := [a] } { x := [d] } →
       (c.watch.armed = false → exec (.waitw k d a) s = .next (s.raise 0x02 0 0x37 0)) ∧
       (c.watch.armed = true → c.phase = .compute → exec (.waitw k d a) s = .next (s.raise 0x03 0 0x37 0)) ∧
       ∀ n, c.watch.armed = true → c.phase = .exchange → c.watched c.watch.addr = some n →
         let v := BitVec.ofNat 64 n
         let holds := match k with | .eq => v = c.rx a | .ne => v ≠ c.rx a | .chg => v ≠ c.watch.seen
         (holds → exec (.waitw k d a) s = .next (xNext s 1 d v)) ∧
         (¬ holds → ∃ t, exec (.waitw k d a) s = .next t ∧ t.core.pc = c.pc ∧ t.core.slot = c.slot ∧
           t.core.retired = c.retired ∧ t.core.waiting = true)))

/-- R220, R230, R231: an atomic reads, computes and writes in one step at a bank or stack, its old value returning as a load
does; flags join the control page. The operation of `ATOM` is said on the bytes of the access. R146, R231: the lanes of
`ATOMV` are combined each on its own: `.swap` takes the operand; an integer sum wraps and sets no flag; a float sum rounds to
nearest even and sets the flags of its lanes; `.min` and `.max` order as R146 does, a NaN yielding the other operand. -/
def Obligations.Atomics : Prop :=
  (∀ (s : State) (op : AtomOp) (vop : AtomvOp) (sz : MSize) (o : AtomOrd) (d e a b c : XReg) (imm : BitVec 32),
     let addr := s.core.rx a + imm.signExtend 64
     let vb := (s.core.rx b).toNat
     let vc := (s.core.rx c).toNat
     let perform (i : Instr) (n : Nat) (u : State) (p : Piece) (f : Nat → Nat × Flags) (ret : Core → Nat → Core) : Prop :=
       let u1 := (if o.rel ∧ p.kind ≠ 2 then u.release u.core.id o.scope.lvl else u).before u.core.id p
       let old := u1.physNat p.hpa n
       u1.physPoison p.hpa n = false →
         exec i s = .next (((u1.writePieces u1.myPart [p] (leBytes n (f old).1)).upd fun c =>
           { c with ctl := { c.ctl with bflags := c.ctl.bflags ||| (f old).2 } }).upd fun c => ret c old).retire
     let runs (i : Instr) (opc n : Nat) (f : Nat → Nat × Flags) (ret : Core → Nat → Core) : Prop :=
       (addr.toNat % n ≠ 0 ∨ (tag addr ≠ 0 ∧ tag addr ≠ 10) ∨ s.resolve addr n = none →
         exec i s = .next (s.raise 0x05 addr.toNat opc 0)) ∧
       ∀ sp, addr.toNat % n = 0 → (tag addr = 0 ∨ tag addr = 10) → s.resolve addr n = some sp →
         (s.core.phase = .compute → exec i s = .next (s.raise 0x03 0 opc 0)) ∧
         ∀ u p, s.core.phase = .exchange → s.place sp n .atomic = .ok u (.mem [p]) →
           (isBank p.hpa = false → isHbm p.hpa = false → exec i s = .next (u.raise 0x05 addr.toNat opc 0)) ∧
           (isBank p.hpa = true ∨ isHbm p.hpa = true → perform i n u p f ret)
     let n := MSize.bytes sz
     let word (old : Nat) : Nat × Flags :=
       let O := BitVec.ofNat (8 * n) old
       let B := BitVec.ofNat (8 * n) vb
       match op with
       | .swap => (B.toNat, 0)
       | .cas => (if O = B then (BitVec.ofNat (8 * n) vc).toNat else O.toNat, 0)
       | .add => ((O + B).toNat, 0) | .and => ((O &&& B).toNat, 0) | .or => ((O ||| B).toNat, 0) | .xor => ((O ^^^ B).toNat, 0)
       | .smin => (if B.toInt < O.toInt then B.toNat else O.toNat, 0)
       | .smax => (if O.toInt < B.toInt then B.toNat else O.toNat, 0)
       | .umin => (min O.toNat B.toNat, 0) | .umax => (max O.toNat B.toNat, 0)
       | .fadd =>
         let q := (tyValue .f32 O.toNat).add .rne (tyValue .f32 B.toNat)
         let r := tyRound .f32 .rne 0 q.1
         (r.1, q.2 ||| r.2)
       | .fmin => (floatMinMax .f32 false O.toNat B.toNat, 0) | .fmax => (floatMinMax .f32 true O.toNat B.toNat, 0)
     (Free s { x := [a, b, c] } { x := [d] } →
       runs (.atom op sz o d a b c imm) 0x34 n word fun k old => k.lateX d (BitVec.ofNat 64 old)) ∧
     (Free s { x := [a, b, c] } { x := [d, e] } →
       runs (.atomv vop o d e a b c imm) 0x35 16 (fun old => atomvNew vop old (vb + 2 ^ 64 * vc)) fun k old =>
         (k.lateX d (BitVec.ofNat 64 old)).lateX e (BitVec.ofNat 64 (old / 2 ^ 64))) ∧
     ∀ part gpa hpa x y, (isBank hpa = true ∨ isHbm hpa = true) → hpa % n = 0 → s.physPoison hpa n = false →
       exec (.bankUnitAtomicStep op sz ⟨part, gpa, hpa⟩ x y) s =
         .next ((s.physWrite hpa (leBytes n (atomNew op n (s.physNat hpa n) x.toNat y.toNat).1)).dirty part gpa)) ∧
  (∀ (old v : Nat), old < 2 ^ 128 → v < 2 ^ 128 →
     atomvNew .swap old v = (v, 0) ∧
     ∀ t ∈ [Ty.n32, .s32, .n64, .s64, .f32, .bf16], ∀ i < 16 / t.size,
       let w := 2 ^ (8 * t.size)
       let lane (g i : Nat) : Nat := g / w ^ i % w
       let a := lane old i
       let b := lane v i
       let sum := atomvNew (.add t) old v
       let lo := atomvNew (.min t) old v
       let hi := atomvNew (.max t) old v
       let num (k : Nat) : Int := if t = .n32 ∨ t = .n64 ∨ 2 * k < w then (k : Int) else (k : Int) - w
       let x := tyValue t a
       let y := tyValue t b
       let added (j : Nat) : Nat × Flags :=
         let q := (tyValue t (lane old j)).add .rne (tyValue t (lane v j))
         let r := tyRound t .rne 0 q.1
         (r.1, q.2 ||| r.2)
       let below := x.lt y = true ∨ (x.isZero = true ∧ y.isZero = true ∧ w ≤ 2 * a ∧ 2 * b < w)
       lo.2 = 0 ∧ hi.2 = 0 ∧
       (t ≠ .f32 → t ≠ .bf16 → sum.2 = 0 ∧ lane sum.1 i = (a + b) % w ∧
         lane lo.1 i = (if num a ≤ num b then a else b) ∧ lane hi.1 i = (if num a ≤ num b then b else a)) ∧
       (t = .f32 ∨ t = .bf16 →
         lane sum.1 i = (added i).1 ∧ sum.2 = (List.range (16 / t.size)).foldl (fun f j => f ||| (added j).2) 0 ∧
         (x.isNan = true → y.isNan = true → lane lo.1 i = canonNaN t ∧ lane hi.1 i = canonNaN t) ∧
         (x.isNan = true → y.isNan = false → lane lo.1 i = b ∧ lane hi.1 i = b) ∧
         (x.isNan = false → y.isNan = true → lane lo.1 i = a ∧ lane hi.1 i = a) ∧
         (x.isNan = false → y.isNan = false →
           (below → lane lo.1 i = a ∧ lane hi.1 i = b) ∧ (¬ below → lane lo.1 i = b ∧ lane hi.1 i = a))))

/-- R212, R232: a `.rel` fence takes the SO and RC stores that the core has made or observed to its scope, a `.full` one
those of UO pages too; an `.acq` only retires, every earlier load having been performed (the model's reading:
notes/assumptions/9.md). R213, R233, R234: an arrival is a full fence at the domain's scope; the last arrival of a generation
completes it and reads its number; an earlier one waits; every core that a completed generation owes its number reads it.
That outside a launch a domain is the core alone, so that its generation completes at once with 0, is the model's reading
(notes/assumptions/27.md). -/
def Obligations.FencesAndBarriers : Prop :=
  (∀ (s : State) (k : FenceKind) (sc : Scope),
     (s.core.phase = .compute → exec (.fence k sc) s = .next (s.raise 0x03 0 0x38 0)) ∧
     (s.core.phase = .exchange → (k = .acq → exec (.fence k sc) s = .next s.retire) ∧
       (k ≠ .acq → ∃ t, exec (.fence k sc) s = .next t ∧ t.core = s.retire.core ∧
         (∀ h ∈ t.stores, h.core = s.core.id ∨ h.seen.contains s.core.id = true → (k = .full ∨ h.kind ≠ 2) → sc.lvl ≤ h.lvl) ∧
         ∀ h ∈ t.stores, ∃ g ∈ s.stores, h = { g with lvl := h.lvl } ∧ g.lvl ≤ h.lvl))) ∧
  (∀ (s : State) (tag : Fin 4) (d : XReg),
     let c := s.core
     let level := c.dom.toNat
     let s1 := s.fullFence c.id c.barLvl
     let lid := c.launch.toNat
     Free s {} { x := [d] } →
     (4 < level ∨ c.frame.isSome = true → exec (.bar tag d) s = .next (s.raise 0x02 0 0x39 0)) ∧
     (level ≤ 4 → c.frame = none → c.phase = .compute → exec (.bar tag d) s = .next (s.raise 0x03 0 0x39 0)) ∧
     (level ≤ 4 → c.frame = none → c.phase = .exchange →
       (s1.launches.find? lid = none → exec (.bar tag d) s = .next (xNext s1 1 d 0)) ∧
       ∀ l, s1.launches.find? lid = some l →
         let dom := c.domIndex level
         let b := l.bar level dom tag.val
         let b1 := b.arrive c.id (s1.domain l level dom)
         (b.owed.contains c.id = true → ∃ u, exec (.bar tag d) s = .next (xNext u 1 d b.word) ∧ u.core = s1.core) ∧
         (b.owed.contains c.id = false → (b.active = true → b.members.contains c.id = true) → b1.full = true →
           ∃ u, exec (.bar tag d) s = .next (xNext u 1 d b.gen) ∧ u.core = s1.core) ∧
         (b.owed.contains c.id = false → b1.full = false → ∃ t, exec (.bar tag d) s = .next t ∧ t.core.arrived = true ∧
           t.core.pc = c.pc ∧ t.core.retired = c.retired)) ∧
     ∀ id dom l, s.launches.find? id = some l →
       ((l.bar level dom tag.val).full = true →
         ∃ t l', exec (.barrierGenerationComplete id level dom tag) s = .next t ∧ t.launches.find? id = some l' ∧
           (l'.bar level dom tag.val).gen = (l.bar level dom tag.val).gen + 1 ∧ (l'.bar level dom tag.val).active = false ∧
           (l'.bar level dom tag.val).owed = (l.bar level dom tag.val).here) ∧
       ((l.bar level dom tag.val).full = false → exec (.barrierGenerationComplete id level dom tag) s = .next s))

/-! Counting networks (12_geyser.md). -/

/-- R253, R254, R262, R263: a token or anti-token takes a balancer's or an exit's step by the toggle and counter that it
finds, and leaves them changed; steps of one cycle at one place go by port, then by core, so that one which another of its
cycle has passed waits; on a lost network none is taken. R256: a network placed on a die takes free router entries of its
share, lowest router first, as far as there are any. Each exit counter in turn takes a cell at the router of the balancer
that feeds it or, when none is free there, at the nearest with a free cell, the lower number first. R259 to R262, R270: `CNT`
carries its token or anti-token through the network that its handle names and writes the value returned; a handle that names
none and a wire beyond the network are illegal, a network that was lost traps. With other steps scheduled the operation is in
flight and the core waits (notes/assumptions/1.md). R268, R269: once every operation of a killed context has returned, each
is compensated: by the opposite operation of the home die's supervisor core, or, on a network that voids, by a VOID record
for a token and by nothing for an anti-token. That a void base is translated in the killed context is the model's choice
(notes/assumptions/67.md). -/
def Obligations.CountingNetworks : Prop :=
  (∀ (s : State) (key : NetKey) (n : Net) (i : Nat) (o : CntOp), s.net key = some n → n.ops[i]? = some o → o.value = none →
     (n.lost = true → exec (.balancerStep key i) s = .next s ∧ exec (.exitStep key i) s = .next s) ∧
     (n.lost = false → s.unpins = [] →
     let passed (exit : Bool) (num : Nat) : Prop := ∃ p ∈ n.steps, p.time = s.now ∧ p.exit = exit ∧ p.num = num ∧
       (n.port o < p.port ∨ n.port o = p.port ∧ o.core < p.core)
     (∀ b, n.lead o.pos = .bal b →
       let t := n.togg.getD b false
       (passed false b → exec (.balancerStep key i) s = .next s) ∧
       (¬ passed false b → ∃ u m, exec (.balancerStep key i) s = .next u ∧ u.net key = some m ∧ m.togg = n.togg.set b (!t) ∧
         m.exits = n.exits ∧ m.ops = n.ops.set i { o with pos := .out b (if o.anti then !t else t) } ∧ u.core = s.core ∧
         u.mem = s.mem)) ∧
     (∀ j, n.lead o.pos = .exit j → ¬ (4096 ≤ o.core ∧ o.dead = true) →
       let c := n.exits.getD j 0
       let w := BitVec.ofNat 64 (2 ^ n.lw)
       (passed true j → exec (.exitStep key i) s = .next s) ∧
       (¬ passed true j → ∃ u m, exec (.exitStep key i) s = .next u ∧ u.net key = some m ∧ m.togg = n.togg ∧
         m.exits = n.exits.set j (if o.anti then c - w else c + w) ∧
         m.ops = n.ops.set i { o with value := some (if o.anti then c - w else c) } ∧ u.core = s.core ∧ u.mem = s.mem)))) ∧
  (∀ (s : State) (k : NetKey) (n : Net),
     let sh := shareOf n.part k
     let m := s.placeNet k n
     let used := s.taken sh n.home Net.place
     (∀ r ∈ m.place, r < 32) ∧ m.place.Pairwise (· ≤ ·) ∧
     ((network n.lw n.per).1.length ≤ (freePlaces (s.shareSize sh) used).length → m.place.length = (network n.lw n.per).1.length) ∧
     (∀ r < 32, used.count r ≤ s.shareSize sh → used.count r + m.place.count r ≤ s.shareSize sh) ∧
     (∀ r < 32, ∀ q ∈ m.place, r < q → used.count r + m.place.count r ≥ s.shareSize sh) ∧
     m.cells.length = (network n.lw n.per).2.length ∧
     (∀ j b q, (network n.lw n.per).2[j]? = some (.out b q) →
       let at_ := m.place.getD b 0
       let held (r : Nat) : Nat := (s.taken sh n.home Net.cells).count r + (m.cells.take j).count r
       let away (r : Nat) : Nat := ((r : Int) / 4 - at_ / 4).natAbs + ((r : Int) % 4 - at_ % 4).natAbs
       let c := m.cells.getD j 0
       (held at_ < s.shareSize sh → c = at_) ∧
       ∀ r < 32, held r < s.shareSize sh → c < 32 ∧ held c < s.shareSize sh ∧ (away c < away r ∨ (away c = away r ∧ c ≤ r))) ∧
     { m with place := n.place, cells := n.cells } = n) ∧
  (∀ (s : State) (anti : Bool) (d a : XReg) (wire : Option XReg),
     let c := s.core
     let i : Instr := if anti then .cntAntiToken d a wire else .cntToken d a wire
     Free s { x := a :: wire.toList } { x := [d] } →
     (s.handle (c.rx a) = none → exec i s = .next (s.raise 0x02 0 0x3A 0)) ∧
     ∀ k n, s.handle (c.rx a) = some (k, n) →
       let w := match wire with | none => c.id % 2 ^ n.lw | some b => (c.rx b).toNat
       let o : CntOp := { core := c.id, ctx := c.ctx, anti := anti, wire := w, pos := .wire w, value := none, dead := false }
       (2 ^ n.lw ≤ w → exec i s = .next (s.raise 0x02 0 0x3A 0)) ∧
       (w < 2 ^ n.lw → c.phase = .compute → exec i s = .next (s.raise 0x03 0 0x3A 0)) ∧
       (w < 2 ^ n.lw → c.phase = .exchange → n.lost = true → ∃ u : State,
         exec i s = .next (u.raise 0x09 0 (c.rx a).toNat 0) ∧ u.core = c ∧ u.mem = s.mem) ∧
       (w < 2 ^ n.lw → c.phase = .exchange → n.lost = false → n.mine c.id = none →
         (s.agenda = [] → ∃ u v, exec i s = .next (xNext u 1 d v) ∧ u.core = c ∧ u.mem = s.mem ∧
           ({ n with ops := n.ops ++ [o] }.carry o 40).2.value.getD 0 = v) ∧
         (s.agenda ≠ [] → ∃ u m, exec i s = .next u ∧ u.core.pc = c.pc ∧ u.core.retired = c.retired ∧ u.net k = some m ∧
           m.ops = n.ops ++ [o])) ∧
       ∀ q v, w < 2 ^ n.lw → c.phase = .exchange → n.lost = false → n.mine c.id = some q → q.value = some v →
         ∃ u, exec i s = .next (xNext u 1 d v) ∧ u.core = c ∧ u.mem = s.mem) ∧
  (∀ (s : State) (key : NetKey) (n : Net) (i : Nat) (o : CntOp), s.net key = some n → n.ops[i]? = some o →
     (o.dead = false ∨ 4096 ≤ o.core ∨ s.allBack o.ctx = false → exec (.killCompensation key i) s = .next s) ∧
     (o.dead = true → o.core < 4096 → s.allBack o.ctx = true → n.lost = false → n.dying = false → s.unpins = [] →
       (n.void = false → ∃ u m, exec (.killCompensation key i) s = .next u ∧ u.net key = some m ∧ m.ops = n.ops.eraseIdx i ++
         [{ o with core := 4096 + n.home, anti := !o.anti, pos := .wire o.wire, value := none }] ∧ u.mem = s.mem) ∧
       (n.void = true → o.anti = true → ∃ u m, exec (.killCompensation key i) s = .next u ∧ u.net key = some m ∧
         m.ops = n.ops.eraseIdx i ∧ u.mem = s.mem) ∧
       (n.void = true → o.anti = false → ∃ u, exec (.killCompensation key i) s = .next u ∧
         let r := (s.setNet key { n with ops := n.ops.eraseIdx i }).voidWrite n o.ctx (o.value.getD 0)
         u.mem = r.mem ∧ u.stores = r.stores ∧ ∃ m, u.net key = some m ∧ m.ops = n.ops.eraseIdx i)))

/-! Engine commands and messages (11_memory_isa.md). -/

/-- R235 to R238, R243, R244, R248: the checks of `SEND`, `SENDN`, `HALO` and `PUT` at issue, what each takes, and its place
in the queue. The queue entry holds the source bytes as they stand at issue (the model's reading of R237:
notes/assumptions/31.md). -/
def Obligations.SendsAndPutsAreQueued : Prop :=
  ∀ (s : State) (mc : Bool) (dir : Dir) (dirs : BitVec 4) (d a b c e : XReg) (tg q : BitVec 32) (pe : PReg) (v : Word),
    let k := s.core
    let n := (k.rx b).toNat
    let w := (k.rx d).toNat
    let data (r : XReg) (n : Nat) (ops : List Word) : Taken :=
      let o := offset (k.rx r)
      { ops := ops ++ [BitVec.ofNat 64 o], data := k.shareRead o n, bad := k.badAt o n }
    let dest := if mc then w < 2 ^ 20 ∧ w / 2 ^ 4 % 8 ≤ w / 2 ^ 7 % 8 ∧ w / 2 ^ 10 % 32 ≤ w / 2 ^ 15 % 32 else w < 4096
    let there := tag (k.rx d) = 8 ∧ w % 16 = 0
    let unread := k.shapeAt (k.rx a) ≠ none ∧ k.sharePoisoned (offset (k.rx a)) 64 = true
    let put := (k.rx a).toNat < 65536 ∧ 16 ≤ (k.rx c).toNat ∧ (k.rx c).toNat ≤ 2 ^ 20 ∧ (k.rx c).toNat % 16 = 0 ∧ n % 16 = 0
    let send : Instr := .send mc d a b c tg pe
    let lit : Instr := .sendLiteral mc d c tg pe v
    let sendn : Instr := .sendn dir d a b c pe
    let halo : Instr := .halo dirs d a b c q pe
    let puti : Instr := .put d a b c e pe
    Enqueues s send send 0x3C [d, a, b] c pe (dest ∧ n ≤ 65536 ∧ LocalRange k (k.rx a) n 16)
      (data a n [k.rx d, tg.setWidth 64]) ∧
    (¬ (dest ∧ n ≤ 65536) → Rejects s send [d, a, b] c pe 0x02 0 0x3C) ∧
    (dest → n ≤ 65536 → ¬ LocalRange k (k.rx a) n 16 → Rejects s send [d, a, b] c pe 0x05 (k.rx a).toNat 0x3C) ∧
    Enqueues s lit (.send mc d 0 0 c tg pe) 0x3C [d] c pe dest { ops := [k.rx d, tg.setWidth 64], data := leBytes 8 v.toNat } ∧
    (¬ dest → Rejects s lit [d] c pe 0x02 0 0x3C) ∧
    Enqueues s sendn sendn 0x3D [d, a, b] c pe (n ≤ 65536 ∧ LocalRange k (k.rx a) n 16 ∧ there) (data a n [k.rx d]) ∧
    (65536 < n → Rejects s sendn [d, a, b] c pe 0x02 0 0x3D) ∧
    (n ≤ 65536 → LocalRange k (k.rx a) n 16 → ¬ there → Rejects s sendn [d, a, b] c pe 0x05 w 0x3D) ∧
    Enqueues s halo halo 0x3E [d, a, b] c pe (1 ≤ n ∧ n ≤ 16 ∧ there ∧ ¬ unread)
      { ops := [k.rx d, k.rx a, k.rx b], shape := (k.shapeAt (k.rx a)).getD [] } ∧
    (¬ (1 ≤ n ∧ n ≤ 16) → Rejects s halo [d, a, b] c pe 0x02 0 0x3E) ∧
    Enqueues s puti puti 0x43 [d, a, b, c] e pe (put ∧ LocalRange k (k.rx d) (k.rx c).toNat 16)
      (data d (k.rx c).toNat [k.rx a, k.rx b]) ∧
    (¬ put → Rejects s puti [d, a, b, c] e pe 0x02 0 0x43)

/-- R235, R246, R247: the same for `COPY`, `GATHER` and `SCATTER`. `COPY.out` and `SCATTER` take their local source bytes at
issue (the model's reading of R237: notes/assumptions/31.md). -/
def Obligations.TransfersAreQueued : Prop :=
  ∀ (s : State) (win i64 : Bool) (ty : Ty) (d a b c e : XReg) (w1 stride : BitVec 32) (pe : PReg) (rec : List Byte),
    let k := s.core
    let copyIn : Instr := .copyIn win d a b c e w1 pe
    let copyOut : Instr := .copyOut win d a b c e w1 pe
    let gather : Instr := .gather i64 ty d a b c e stride pe
    let scatter : Instr := .scatter i64 ty d a b c e stride pe
    let n0 := if win then w1.toNat % 65536 + 1 else k.cols
    let n1 := if win then w1.toNat / 65536 + 1 else k.rows
    let u := recordUnit rec
    let low (r : XReg) : Word := ((k.rx r).setWidth 32).signExtend 64
    let o2 : Word := if win then 0 else (w1.setWidth 16).signExtend 64
    let o3 : Word := if win then 0 else ((w1 >>> 16).setWidth 16).signExtend 64
    let at_ := if u = 0 then 0 else offset (k.rx d)
    let ops := [k.rx a, BitVec.ofNat 64 at_, BitVec.ofNat 64 n0, BitVec.ofNat 64 n1, low b, low c, o2, o3]
    let copies := k.shapeAt (k.rx a) = some rec ∧ k.sharePoisoned (offset (k.rx a)) 64 = false ∧ (u ≠ 0 → LocalRange k (k.rx d) (n0 * n1 * u) 16)
    let v := (k.rx c).toNat
    let rows := v % 2 ^ 17
    let len := v / 2 ^ 32 % 2 ^ 17
    let isz := if i64 then 8 else 4
    let counts := v / 2 ^ 17 % 2 ^ 15 = 0 ∧ v / 2 ^ 49 = 0 ∧ 1 ≤ len ∧ len ≤ 65536 ∧ rows ≤ 65536
    let filled := counts ∧ LocalRange k (k.rx d) (rows * len * ty.size) 16
    let based := (tag (k.rx a) = 0 ∧ offset (k.rx a) / 2 ^ 57 = 0) ∨
      (tag (k.rx a) = 10 ∧ offset (k.rx a) < (s.context k.ctx).splim)
    let legal := filled ∧ based ∧ LocalRange k (k.rx b) (rows * isz) 8 ∧ k.sharePoisoned (offset (k.rx b)) (rows * isz) = false
    let rops := [BitVec.ofNat 64 (offset (k.rx d)), k.rx a, BitVec.ofNat 64 rows, BitVec.ofNat 64 len, stride.setWidth 64]
    let list := k.shareRead (offset (k.rx b)) (rows * isz)
    let o := offset (k.rx d)
    Enqueues s copyIn copyIn 0x40 [d, a, b, c] e pe copies { ops := ops, shape := rec } ∧
    Enqueues s copyOut copyOut 0x40 [d, a, b, c] e pe copies
      { ops := ops ++ [BitVec.ofNat 64 at_], shape := rec, data := k.shareRead at_ (n0 * n1 * u), bad := k.badAt at_ (n0 * n1 * u) } ∧
    (k.shapeAt (k.rx a) = none → Rejects s copyIn [d, a, b, c] e pe 0x05 (k.rx a).toNat 0x40 ∧
      Rejects s copyOut [d, a, b, c] e pe 0x05 (k.rx a).toNat 0x40) ∧
    Enqueues s gather gather 0x41 [d, a, b, c] e pe legal { ops := rops, shape := list } ∧
    Enqueues s scatter scatter 0x42 [d, a, b, c] e pe legal
      { ops := rops ++ [BitVec.ofNat 64 o], shape := list, data := k.shareRead o (rows * len * ty.size)
        bad := k.badAt o (rows * len * ty.size) } ∧
    (¬ counts → Rejects s gather [d, a, b, c] e pe 0x02 0 0x41 ∧ Rejects s scatter [d, a, b, c] e pe 0x02 0 0x42) ∧
    (filled → ¬ based → Rejects s gather [d, a, b, c] e pe 0x05 (k.rx a).toNat 0x41 ∧
      Rejects s scatter [d, a, b, c] e pe 0x05 (k.rx a).toNat 0x42)

/-- R235, R238, R243, R244, R246 to R248: the oldest waiting command starts while fewer than four run. A `SEND` sends a
branch to each destination, a `SENDN` a part to its neighbour, a `HALO` whose record stands one part to each neighbour of its
mask that is of the launch: the border rows or columns of the tile, element by element from the places that the record names;
another way is skipped, status 0x02. A `PUT` whose window has room waits at the window's port, or where the port's link
carries no peer fails; a `COPY` whose record fails ends, status 0x80; another, `GATHER` and `SCATTER` only start. R50, R52,
R237, R246, R247, R338: a transfer takes its units in order, its bytes going on in that order: `COPY` the units of its
window, at the addresses that the record gives them, with the pad for a clipped one that it reads; `GATHER` and `SCATTER` the
rows of their list. What a read has gathered fills the local region granule by granule, each written whole and then full; a
write puts the local bytes at their unit's place. R236, R246, R247: a stamp is one doubleword: status, saturating count,
sequence number; its granule becomes full; the command's queue entry is free. A `SEND`, `SENDN`, `HALO` or `PUT` that still
waits for its branches writes nothing, then the status and count that they have left. A transfer whose units have all landed
counts those in extent; clipping makes its status 0x02, unless the record is quiet; an error makes it 0x80. -/
def Obligations.EngineCommandsStartAndStamp : Prop :=
  (∀ (s : State) (e : EngineCmd), s.core.engine.find? (fun e => !e.started) = some e →
     let c := s.core
     let running := (c.engine.filter fun e => e.started).length
     let branch (n : Nat) : Msg := { src := c.id, dst := n, seq := e.seq, part := c.ctx / 16, ctx := c.ctx
                                     tag := (e.ops.getD 1 0).setWidth 32, data := e.data }
     let part (dir : Dir) (n : Nat) : NMsg := { src := c.id, dst := n, seq := e.seq, dir := dir, data := e.data
                                                off := offset (e.ops.getD 0 0), units := e.data.length, halo := false }
     (4 ≤ running → exec .engineCommandStart s = .next s) ∧
     (running < 4 → ∃ t, exec .engineCommandStart s = .next t ∧
       (∀ i64 ty d a b x y w pe, e.ins = .gather i64 ty d a b x y w pe ∨ e.ins = .scatter i64 ty d a b x y w pe →
         t.core = { c with engine := c.engine.map fun q => if q.seq = e.seq then { q with started := true } else q }) ∧
       (∀ mc d a b x tg pe, e.ins = .send mc d a b x tg pe → e.bad = none →
         t.msgs = s.msgs ++ (destsOf mc (e.ops.getD 0 0)).map branch ∧
         ∀ q ∈ t.core.engine, q.seq = e.seq → q.started = true ∧ q.waits = (destsOf mc (e.ops.getD 0 0)).length) ∧
       (∀ dir d a b x pe n, e.ins = .sendn dir d a b x pe → e.bad = none → neighbour c.id dir = some n →
         t.nmsgs = s.nmsgs ++ [part dir n]) ∧
       (∀ win d a b x y w pe out, e.ins = (if out then .copyOut win d a b x y w pe else .copyIn win d a b x y w pe) →
         let j := s.judge (Shape.ofBytes e.shape) e.win (fun _ => true) out
         ((∀ row, j ≠ .fails row) →
           t.core = { c with engine := c.engine.map fun q => if q.seq = e.seq then { q with started := true } else q }) ∧
         ∀ row, j = .fails row → ∀ q ∈ t.core.engine, q.seq = e.seq → 0x80 ≤ q.status) ∧
       (∀ dirs d a b x q pe ty, e.ins = .halo dirs d a b x q pe → e.shape ≠ [] →
         let h := Shape.ofBytes e.shape
         let nc := h.ext[0]
         let nr := h.ext[1]
         let w := (e.ops.getD 2 0).toNat
         let q := q.toNat
         let j := s.judge h (Win.of nc nr 0 0 0 0) Ty.isElem false
         let inside (dir : Dir) (k r : Nat) : Bool := match dir with
           | .n => decide (r < w) | .s => decide (nr - w ≤ r) | .w => decide (k < w) | .e => decide (nc - w ≤ k)
         let cells (dir : Dir) : List (Nat × Nat) :=
           (List.range nr).flatMap fun r => ((List.range nc).filter fun k => inside dir k r).map fun k => (k, r)
         let place (x : Nat × Nat) : Nat := ((offset h.base : Int) + ty.size * (x.1 * h.str[0] + x.2 * h.str[1])).toNat
         let ways := [Dir.e, .s, .w, .n].filter fun dir => dirs.getLsbD (match dir with | .e => 0 | .s => 1 | .w => 2 | .n => 3)
         let region (dir : Dir) : Nat := match dir with | .e => 2 | .s => 3 | .w => 0 | .n => 1
         let parts := ways.filterMap fun dir => (neighbour c.id dir).bind fun n =>
           if s.sameLaunch c.id (s.landsAt c.ctx n) then
             some ({ src := c.id, dst := n, seq := e.seq, dir := dir, off := offset (e.ops.getD 0 0) + region dir * q
                     data := (cells dir).flatMap fun x => c.shareRead (place x) ty.size, units := (cells dir).length
                     halo := true } : NMsg)
           else none
         (∀ row, j = .fails row → t.nmsgs = s.nmsgs ∧ ∀ r ∈ t.core.engine, r.seq = e.seq → 0x80 ≤ r.status) ∧
         ((∀ row, j ≠ .fails row) → h.ty = some ty → h.rank = 2 → tag h.base = 8 → 1 ≤ w → w ≤ nc → w ≤ nr → q % 16 = 0 →
           (max (w * nc) (nr * w) * ty.size + 15) / 16 * 16 ≤ q →
           (∀ dir ∈ ways, ∀ n, neighbour c.id dir = some n → (s.coreAt n).sealed = false) →
           (∀ dir ∈ ways, ∀ x ∈ cells dir, c.sharePoisoned (place x) ty.size = false) →
           t.nmsgs = s.nmsgs ++ parts ∧ ∀ r ∈ t.core.engine, r.seq = e.seq →
             r.started = true ∧ (parts.length < ways.length → 0x02 ≤ r.status))) ∧
       (∀ d a b x y pe w, e.ins = .put d a b x y pe → e.bad = none → s.outWindow (c.ctx / 16) (e.ops.getD 0 0).toNat = some w →
         (e.ops.getD 1 0).toNat + e.data.length ≤ w.size → s.peers.find? w.port = some w.peer →
         ∃ q, t.puts = s.puts ++ [(c.id, q)] ∧ q.data = e.data ∧ q.seq = e.seq) ∧
       (∀ d a b x y pe w, e.ins = .put d a b x y pe → e.bad = none → s.outWindow (c.ctx / 16) (e.ops.getD 0 0).toNat = some w →
         (e.ops.getD 1 0).toNat + e.data.length ≤ w.size → s.peers.find? w.port = none →
         t.puts = s.puts ∧ ∀ q ∈ t.core.engine, q.seq = e.seq → 0x80 ≤ q.status))) ∧
  ((∀ (s : State) (i g k : Nat) (e : EngineCmd), (s.core.engine.filter fun e => e.started)[i]? = some e → e.waits = 0 →
      e.status < 0x80 → e.bad = none → e.xfer = { next := k, passed := k } →
      let run : Out := exec (.engineStampWrite ⟨i, g⟩) s
      let op (j : Nat) : Word := e.ops.getD j 0
      let granule (data : List Byte) (loc j : Nat) : Place × List Byte :=
        (.share (loc + 16 * j) 16, (List.range 16).map fun b => data.getD (16 * j + b) 0)
      let gathers (t : State) (total loc : Nat) (bs : List Byte) : Prop := ∀ q ∈ t.core.engine, q.seq = e.seq →
        let had := e.data.length / 16
        let got := if k + 1 = total then (q.data.length + 15) / 16 else q.data.length / 16
        q.data = e.data ++ bs ∧ q.status = e.status ∧ q.xfer.next = k + 1 ∧
        q.xfer.ready.map (fun r => (r.place, r.data)) = (List.range (got - had)).map fun j => granule q.data loc (had + j)
      let reads (total size loc : Nat) (sp : Space) : Prop := ∀ u pl v bs,
        s.placeAs (s.engineWho e.seq k) sp size .read = .ok u pl → u.readPlace pl true = (v, some bs) →
          ∃ t, run = .next t ∧ gathers t total loc bs
      let writes (size : Nat) (sp : Space) : Prop := ∀ u p, s.placeAs (s.engineWho e.seq k) sp size .write = .ok u (.mem [p]) →
        p.len = size → 0 < size → p.hpa % 16 + size ≤ 16 → (k + 1) * size ≤ e.data.length →
          ∃ t, run = .next t ∧ ∀ q ∈ t.core.engine, q.seq = e.seq → q.status = e.status ∧ q.xfer.next = k + 1 ∧
            q.xfer.ready.map (fun r => (r.place, r.data)) = [(.mem [p], (e.data.drop (k * size)).take size)]
      (∀ win d a b c y w pe out ty, e.ins = (if out then .copyOut win d a b c y w pe else .copyIn win d a b c y w pe) →
        let h := Shape.ofBytes e.shape
        let n0 := (op 2).toNat
        let n1 := (op 3).toNat
        let x (d : Fin 4) : Int := (op (4 + d.val)).toInt + (if d.val = 0 then k % n0 else if d.val = 1 then k / n0 else 0 : Nat)
        let inside : Prop := ∀ d : Fin 4, d.val < h.rank → 0 ≤ x d ∧ x d < h.ext[d]
        let sum : Int := ((List.finRange 4).map fun d => if d.val < h.rank then x d * h.str[d] else 0).sum
        let sp := s.unitSpace h.base ((if tag h.base = 0 then h.base.toNat % 2 ^ 57 else offset h.base : Nat) + ty.size * sum)
        let fill : Nat := h.pad / 256 % 256
        let pad : List Byte :=
          if ty.isRec then leBytes 1 h.pad ++ List.replicate (ty.size - 1) (BitVec.ofNat 8 (if ty = .mx4 then fill % 16 * 17 else fill))
          else leBytes ty.size (if ty = .s64 then ((BitVec.ofNat 32 h.pad).signExtend 64).toNat else h.pad)
        s.judge h e.win (fun _ => true) out = .moves → h.ty = some ty → k < n0 * n1 →
          (inside → out = false → reads (n0 * n1) ty.size (op 1).toNat sp) ∧ (inside → out = true → writes ty.size sp) ∧
          (¬ inside → out = false → ∃ t, run = .next t ∧ gathers t (n0 * n1) (op 1).toNat pad) ∧
          (¬ inside → out = true → ∃ t, run = .next t ∧ ∀ q ∈ t.core.engine, q.seq = e.seq → q.xfer.next = k + 1 ∧
            q.xfer.ready = [])) ∧
      (∀ i64 ty d a b c y w pe (out : Bool), e.ins = (if out then .scatter i64 ty d a b c y w pe else .gather i64 ty d a b c y w pe) →
        let base := op 1
        let size := (op 3).toNat * ty.size
        let isz := if i64 then 8 else 4
        let a : Int := (if tag base = 0 then base.toNat % 2 ^ 57 else offset base : Nat) +
          (BitVec.ofNat (8 * isz) (leNat ((e.shape.drop (k * isz)).take isz))).toInt * (op 4).toNat
        k < (op 2).toNat → 0 ≤ a → a + size ≤ (if tag base = 0 then 2 ^ 57 else (s.context s.core.ctx).splim : Nat) →
          a % ty.size = 0 →
          (out = false → reads (op 2).toNat size (op 0).toNat (s.unitSpace base a)) ∧
          (out = true → writes size (s.unitSpace base a)))) ∧
   (∀ (s : State) (i g : Nat) (e : EngineCmd) (r : EPart), (s.core.engine.filter fun e => e.started)[i]? = some e → e.waits = 0 →
      e.status < 0x80 →
      let run : Out := exec (.engineStampWrite ⟨i, g⟩) s
      ((∃ win d a b c y w pe, e.ins = .copyIn win d a b c y w pe) ∨ (∃ i64 ty d a b c y w pe, e.ins = .gather i64 ty d a b c y w pe) →
        ∀ o n, e.xfer.ready[g]? = some r → r.place = .share o n → o % 16 = 0 → r.data.length = 16 →
          ∃ t, run = .next t ∧ t.mem = s.mem ∧ t.core.full.contains (o / 16) = true ∧
            (∀ b, t.core.share.byte b = if o ≤ b ∧ b < o + 16 then r.data.getD (b - o) 0 else s.core.share.byte b) ∧
            ∀ q ∈ t.core.engine, q.seq = e.seq → q.xfer.ready = e.xfer.ready.eraseIdx g) ∧
      ((∃ win d a b c y w pe, e.ins = .copyOut win d a b c y w pe ∧ (e.ops.getD 2 0).toNat * (e.ops.getD 3 0).toNat ≤ e.xfer.passed) ∨
          (∃ i64 ty d a b c y w pe, e.ins = .scatter i64 ty d a b c y w pe ∧ (e.ops.getD 2 0).toNat ≤ e.xfer.passed) →
        ∀ p, e.xfer.ready = [r] → e.xfer.fail = none → g = 0 → r.place = .mem [p] → r.mask = [] → s.stores = [] →
          p.hpa + r.data.length ≤ 2 ^ 57 → s.deadMem p.hpa = false → (s.part s.myPart).dlog = 0 →
          ∃ t, run = .next t ∧ (∀ b, t.mem.byte b =
              if p.hpa ≤ b ∧ b < p.hpa + r.data.length then r.data.getD (b - p.hpa) 0 else s.mem.byte b) ∧
            ∀ q ∈ t.core.engine, q.seq = e.seq → q.xfer.ready = []))) ∧
  (∀ (s : State) (i g : Nat) (e : EngineCmd), (s.core.engine.filter fun e => e.started)[i]? = some e →
     s.core.engine.find? (fun q => q.seq = e.seq) = some e →
     let run : Out := exec (.engineStampWrite ⟨i, g⟩) s
     let stamped (status count : Nat) : Prop := ∃ t, run = .next t ∧ t.core.engine = s.core.engine.filter (fun q => q.seq ≠ e.seq) ∧
       t.core.shareNat e.stamp 8 = (status * 2 ^ 56 + min count (2 ^ 24 - 1) * 2 ^ 32 + e.seq.toNat) % 2 ^ 64 ∧
       t.core.full.contains (e.stamp / 16) = true ∧ t.core.pc = s.core.pc ∧ t.mem = s.mem ∧
       ∀ x, x < e.stamp ∨ e.stamp + 8 ≤ x → t.core.share.byte x = s.core.share.byte x
     let parted : Prop := (∃ mc d a b c tg pe, e.ins = .send mc d a b c tg pe) ∨ (∃ dir d a b c pe, e.ins = .sendn dir d a b c pe) ∨
       (∃ dirs d a b c q pe, e.ins = .halo dirs d a b c q pe) ∨ ∃ d a b c y pe, e.ins = .put d a b c y pe
     let x := e.xfer
     let moved (total : Nat) : Prop := x.parked = [] ∧ x.ready = [] ∧ x.fail = none ∧ x.next = total ∧ x.passed = total
     (0 < e.waits → run = .next s) ∧
     (e.waits = 0 → 0x80 ≤ e.status ∨ parted → stamped e.status e.moved) ∧
     (e.waits = 0 → e.status < 0x80 →
       (∀ win d a b c y w pe (out : Bool), e.ins = (if out then .copyOut win d a b c y w pe else .copyIn win d a b c y w pe) →
         let h := Shape.ofBytes e.shape
         let n0 := (e.ops.getD 2 0).toNat
         let n1 := (e.ops.getD 3 0).toNat
         let x (k : Nat) (d : Fin 4) : Int :=
           (e.ops.getD (4 + d.val) 0).toInt + (if d.val = 0 then k % n0 else if d.val = 1 then k / n0 else 0 : Nat)
         let inside (k : Nat) : Bool :=
           (List.finRange 4).all fun d => !decide (d.val < h.rank) || decide (0 ≤ x k d ∧ x k d < h.ext[d])
         let units := (List.range (n0 * n1)).countP inside
         s.judge h e.win (fun _ => true) out = .moves → moved (n0 * n1) →
           stamped (if units < n0 * n1 then max e.status (if h.flags % 2 = 1 then 0x01 else 0x02) else e.status) units) ∧
       (∀ i64 ty d a b c y w pe (out : Bool), e.ins = (if out then .scatter i64 ty d a b c y w pe else .gather i64 ty d a b c y w pe) →
         let rows := (e.ops.getD 2 0).toNat
         let len := (e.ops.getD 3 0).toNat
         let base := e.ops.getD 1 0
         let isz := if i64 then 8 else 4
         let lim : Int := if tag base = 0 then 2 ^ 57 else (s.context s.core.ctx).splim
         let at_ (j : Nat) : Int := (if tag base = 0 then base.toNat % 2 ^ 57 else offset base : Nat) +
           (BitVec.ofNat (8 * isz) (leNat ((e.shape.drop (j * isz)).take isz))).toInt * (e.ops.getD 4 0).toNat
         moved rows → (∀ j < rows, 0 ≤ at_ j ∧ at_ j + (len * ty.size : Nat) ≤ lim ∧ at_ j % ty.size = 0) →
           stamped e.status (rows * len)) ∧
       ∀ j f win d a b c y w pe, e.ins = .copyIn win d a b c y w pe → x.parked = [] → x.ready = [] → x.fail = some (j, f) →
         ∃ t, run = .next t ∧ t.core.engine = s.core.engine.filter (fun q => q.seq ≠ e.seq) ∧
           t.core.shareNat e.stamp 8 / 2 ^ 56 = 0x80))

/-- R237, R239, R241, R251: a branch that comes to a core of its partition that takes arrivals goes to the first posted
receive it matches, else to a free overflow slot, else it is rejected; it then lands granule by granule, and at last
completes. A destination that takes nothing of the partition keeps its share as it was; one whose save is stored, in the
sender's context, lets it wait, and one halted for a save still takes it. The sender's count of open branches falls by one.
R237, R243 to R245, R251: a neighbour's part comes to a core of the sender's launch, lands granule by granule, and then adds
1 to the mailbox of the side it comes from, unless an error has cut it short; one for a core of another launch changes
neither there, and one for a core saved in the launch waits. That a part which an error has cut short steps no counter is the
model's reading (notes/assumptions/57.md). R240, R242: `RECV` takes the oldest overflow entry it matches, else it is posted;
it waits while no slot is free. An entry whose payload is still landing turns to the receive's buffer. `PROBE` answers with
the envelope of the oldest entry that has landed, or 0. -/
def Obligations.ArrivalsAndReceives : Prop :=
  (∀ (s : State) (i g : Nat) (m : Msg), s.msgs[i]? = some m → m.src ≠ m.dst → s.landsAt m.ctx m.dst = m.dst → m.dst < 4096 →
     let d := s.coreAt m.dst
     let away : Prop := d.role = .saved ∧ (s.context d.ctx).stored = true
     let takes : Prop := d.role = .running ∨ d.role = .halted ∨ (d.role = .saved ∧ (s.context d.ctx).stored = false)
     let there := s.corePart m.dst = some m.part ∧ d.sealed = false ∧ takes
     let goesTo (r : Option RecvSlot) (j o : Nat) (bs : List Byte) : Branch :=
       .taken { recv := r, entry := j, launch := d.launch, task := d.task, parts := cutGranules o bs }
     let closes (t : State) (f : EngineCmd → EngineCmd) : Prop := ∀ e ∈ (t.coreAt m.src).engine, e.seq = m.seq →
       ∃ q ∈ (s.coreAt m.src).engine, q.seq = m.seq ∧ e = f q ∧ e.waits = q.waits - 1
     (away → d.ctx = m.ctx → exec (.messageArrival ⟨i, g⟩) s = .next s) ∧
     (m.take = none → there →
       (∀ k, (d.takeMsg m).2 = .taken k → ∃ t, exec (.messageArrival ⟨i, g⟩) s = .next t ∧
         t.msgs = s.msgs.set i { m with take := some k } ∧ t.coreAt m.dst = { (d.takeMsg m).1 with id := m.dst }) ∧
       (∀ j r, d.ctl.matching m.src m.tag = some (j, r) → (d.takeMsg m).2 = goesTo (some r) 0 r.buf (m.data.take r.max) ∧
         (d.takeMsg m).1.ctl.slots = d.ctl.slots.del j) ∧
       (d.ctl.matching m.src m.tag = none →
         (∀ j, m.data.length ≤ 1024 → 16384 ≤ d.shareSize → lowestFree d.ctl.ovq 16 = some j →
           (d.takeMsg m).2 = goesTo none j (d.shareSize - 16384 + 1024 * j) m.data ∧ (d.takeMsg m).1.ctl.ovq.find? j =
             some { src := m.src, len := m.data.length, tag := m.tag, arrival := d.ctl.arrivals + 1, live := false }) ∧
         (1024 < m.data.length ∨ d.shareSize < 16384 ∨ lowestFree d.ctl.ovq 16 = none →
           ∃ t, exec (.messageArrival ⟨i, g⟩) s = .next t ∧ t.msgs = s.msgs.eraseIdx i ∧ (t.coreAt m.dst).share = d.share))) ∧
     (m.take = none → ¬ there → ¬ (away ∧ d.ctx = m.ctx) →
       ∃ t, exec (.messageArrival ⟨i, g⟩) s = .next t ∧ t.msgs = s.msgs.eraseIdx i ∧ (t.coreAt m.dst).share = d.share) ∧
     ∀ k, m.take = some k → takes → d.launch = k.launch → d.task = k.task →
       (∀ q, k.parts[g]? = some q → ∃ t, exec (.messageArrival ⟨i, g⟩) s = .next t ∧
         t.msgs = s.msgs.set i { m with take := some { k with parts := k.parts.eraseIdx g } } ∧
         t.coreAt m.dst = { d.arrive q.1 q.2 with id := m.dst }) ∧
       (k.parts = [] → ∃ t, exec (.messageArrival ⟨i, g⟩) s = .next t ∧ t.msgs = s.msgs.eraseIdx i ∧
         t.coreAt m.dst = { d.endMsg m k with id := m.dst } ∧
         closes t fun q => { q with waits := q.waits - 1, moved := m.data.length, status := match k.recv with
           | some r => if r.max < m.data.length then max q.status 0x02 else q.status
           | none => q.status })) ∧
  (∀ (s : State) (i g : Nat) (m : NMsg), s.nmsgs[i]? = some m → m.src ≠ m.dst → s.landsAt (s.coreAt m.src).ctx m.dst = m.dst →
     m.dst < 4096 →
     let d := s.coreAt m.dst
     let run : Out := exec (.neighbourArrival ⟨i, g⟩) s
     let away : Prop := d.role = .saved ∧ (s.context d.ctx).stored = true
     (s.sameLaunch m.src m.dst = true → away → run = .next s) ∧
     (s.sameLaunch m.src m.dst = true → ¬ away →
       (m.parts = none → d.sealed = false → m.off + m.data.length ≤ d.shareSize →
         run = .next { s with nmsgs := s.nmsgs.set i { m with parts := some (cutGranules m.off m.data) } }) ∧
       (∀ ps q, m.parts = some ps → ps[g]? = some q → ∃ t, run = .next t ∧
         t.nmsgs = s.nmsgs.set i { m with parts := some (ps.eraseIdx g) } ∧ t.coreAt m.dst = { d.arrive q.1 q.2 with id := m.dst }) ∧
       (m.parts = some [] → ∃ t, run = .next t ∧ t.nmsgs = s.nmsgs.eraseIdx i ∧ (t.coreAt m.dst).share = d.share ∧
         ∀ j : Fin 4, (t.coreAt m.dst).ctl.mbx[j] =
           if m.cut = false ∧ j.val = (match m.dir with | .e => 2 | .s => 3 | .w => 0 | .n => 1) then d.ctl.mbx[j] + 1
           else d.ctl.mbx[j])) ∧
     (s.sameLaunch m.src m.dst = false → ∃ t, run = .next t ∧ t.nmsgs = s.nmsgs.eraseIdx i ∧
       (t.coreAt m.dst).share = d.share ∧ (t.coreAt m.dst).ctl = d.ctl)) ∧
  (∀ (s : State) (anytag : Bool) (d a b c : XReg) (tg : BitVec 32),
     let k := s.core
     let max := (k.rx a).toNat
     let sel (r : XReg) : Nat := (k.rx r).toNat
     let legal (r : XReg) : Prop := sel r / 2 ^ 12 % 16 = 0 ∧ sel r / 2 ^ 28 = 0
     let oldest (q : Control) (r : XReg) (g : BitVec 32) : Option (Nat × OvEntry) :=
       q.oldest (sel r % 4096) (sel r / 65536 % 4096) anytag g
     let recv : Instr := .recv anytag d a b c tg
     let waits (t : State) : Prop := t.core.pc = k.pc ∧ t.core.retired = k.retired ∧ t.core.sqn = k.sqn + 1 ∧ t.core.arrived = true
     (Free s { x := [d, a, b, c] } {} → LocalRange k (k.rx d) ((max + 15) / 16 * 16) 16 →
       (k.rx c).toNat % 8 = 0 → tag (k.rx c) = 8 → offset (k.rx c) + 16 ≤ k.shareSize →
       (65536 < max ∨ ¬ legal b → exec recv s = .next (s.raise 0x02 0 0x3B 0)) ∧
       (max ≤ 65536 → legal b → k.phase = .compute → exec recv s = .next (s.raise 0x03 0 0x3B 0)) ∧
       (max ≤ 65536 → legal b → k.phase = .exchange → k.arrived = false →
         (lowestFree k.ctl.slots 32 = none → ∃ t, exec recv s = .next t ∧ waits t) ∧
         (∀ j n o, lowestFree k.ctl.slots 32 = some j → oldest k.ctl b tg = some (n, o) → o.live = false →
           ∃ t r, exec recv s = .next t ∧ t.core.sqn = k.sqn + 1 ∧ t.core.retired = k.retired + 1 ∧
             t.core.ctl.ovq = k.ctl.ovq.del n ∧ t.core.ctl.slots = k.ctl.slots ∧ r.buf = offset (k.rx d) ∧ r.max = max ∧
             r.stamp = offset (k.rx c) ∧ r.seq = k.sqn ∧ ∀ (p : Nat) (m : Msg) (q : MsgTake), s.msgs[p]? = some m → m.take = some q →
               t.msgs[p]? = some (if m.dst = k.id ∧ q.recv = none ∧ q.entry = n then
                 { m with take := some { q with recv := some r, parts := cutGranules r.buf (m.data.take max) } } else m)) ∧
         (∀ j, lowestFree k.ctl.slots 32 = some j → oldest k.ctl b tg = none →
           ∃ t, exec recv s = .next t ∧ t.core.sqn = k.sqn + 1 ∧ t.core.retired = k.retired + 1 ∧ ∃ r,
             t.core.ctl.slots.find? j = some r ∧ r.buf = offset (k.rx d) ∧ r.max = max ∧ r.src = sel b % 4096 ∧
             r.mask = sel b / 65536 % 4096 ∧ r.anytag = anytag ∧ r.tag = tg ∧ r.stamp = offset (k.rx c) ∧ r.seq = k.sqn) ∧
         (∀ j n o, lowestFree k.ctl.slots 32 = some j → oldest k.ctl b tg = some (n, o) → o.live = true →
           ∃ t, exec recv s = .next t ∧ t.core.sqn = k.sqn + 1 ∧ t.core.retired = k.retired + 1 ∧
             t.core.ctl.ovq = k.ctl.ovq.del n ∧ t.core.ctl.slots = k.ctl.slots))) ∧
     (Free s { x := [a, b] } { x := [d] } →
       let probe : Instr := .probe anytag d a b
       let value : Word := match oldest k.ctl.whole a ((k.rx b).setWidth 32) with
         | none => 0
         | some (j, e) => BitVec.ofNat 64 (2 ^ 63 + j * 2 ^ 59 + e.len * 2 ^ 48 + e.src * 2 ^ 32 + e.tag.toNat)
       (¬ legal a → exec probe s = .next (s.raise 0x02 0 0x3F 0)) ∧
       (legal a → k.phase = .compute → exec probe s = .next (s.raise 0x03 0 0x3F 0)) ∧
       (legal a → k.phase = .exchange → exec probe s = .next (lateNext s d value))))

/-- R221, R248, R335, R399: a hand-off steps the window's counter, frees the command and leaves the data on its way to the
peer's window; a put from a peer comes to the window that matches it, within the window's size, and nowhere else; its
granules land each by itself, and then the landed counter steps; another put is rejected to its source. A counter whose page
is missing waits for it. A window whose link carries no peer any more makes the status 0x80, another peer or the peer's
rejection, which comes back before the stamp, 0x82 (when it comes is the model's reading: notes/assumptions/68.md). R222,
R249, R250: `SHADOW` opens a twin set of the partition and returns its epoch plus one; `PUBLISH` closes it and turns its
selector; a set of another partition or in the wrong state is illegal. -/
def Obligations.PutsAndTwinSets : Prop :=
  (∀ (s : State) (i g n : Nat) (e : EngineCmd) (w : Window) (k : Waiter) (peer : Word) (num off : Nat) (data : List Byte),
     let inbound := s.windows.find? fun w => w.dir = 2 && w.peer = peer && w.num = num
     let given (no : Bool) (u : State) (outs : List PutOut) : Prop := ∃ t, exec (.putHandoff ⟨i, no⟩) s = .next t ∧
       t.puts = u.puts.eraseIdx i ∧ t.putOuts = outs ∧ (t.coreAt n).engine = (u.coreAt n).engine.filter fun q => q.seq ≠ e.seq
     let stamped (no : Bool) (u : State) (status : Nat) : Prop := ∀ q, (u.coreAt n).engine.find? (fun q => q.seq = e.seq) = some q →
       ∃ t, exec (.putHandoff ⟨i, no⟩) s = .next t ∧ (t.coreAt n).shareNat q.stamp 8 / 2 ^ 56 = status
     (s.puts[i]? = some (n, e) → s.outWindow ((s.coreAt n).ctx / 16) (e.ops.getD 0 0).toNat = some w →
       (s.peers.find? w.port = none → given false s s.putOuts ∧ stamped false s 0x80) ∧
       (s.peers.find? w.port ≠ none → s.peers.find? w.port ≠ some w.peer → given false s s.putOuts ∧ stamped false s 0x82) ∧
       (s.peers.find? w.port = some w.peer →
       (∀ u no, s.bumpWindow w (.cmd n e.seq 0) = .wait u → exec (.putHandoff ⟨i, no⟩) s = .next u) ∧
       ∀ u x, s.bumpWindow w (.cmd n e.seq 0) = .ok u x →
         given true u u.putOuts ∧ stamped true u 0x82 ∧ stamped false u 0x01 ∧ given false u
           (u.putOuts ++ [{ port := w.port, pnum := w.pnum, off := (e.ops.getD 1 0).toNat, data := e.data }]))) ∧
     (∀ u p, s.translateRange { w.who k with eng := false } w.cnt 8 .atomic = .ok u [p] → u.physPoison p.hpa 8 = false →
       s.bumpWindow w k = .ok (u.writePieces w.part [p] (leBytes 8 (u.physNat p.hpa 8 + 1))) ()) ∧
     (data ≠ [] →
       let rejected : State := { s with putNos := s.putNos ++ [{ peer := peer, num := num }] }
       (inbound = none → exec (.putLanding peer num off (.comes data)) s = .next rejected) ∧
       (inbound = some w →
         (w.size < off + data.length → exec (.putLanding peer num off (.comes data)) s = .next rejected) ∧
         (off + data.length ≤ w.size → exec (.putLanding peer num off (.comes data)) s = .next { s with
           putIns := s.putIns ++ [{ serial := s.putSer, win := w, parts := cutGranules (w.base + off) data }]
           putSer := s.putSer + 1 }))) ∧
     (s.putIns[i]? = none → exec (.putLanding peer num off (.lands ⟨i, g⟩)) s = .next s) ∧
     ∀ p, s.putIns[i]? = some p →
       (∀ q u ps, p.parts[g]? = some q →
         s.translateRange (p.win.who (.put p.serial q.1)) q.1 q.2.length .write = .ok u ps →
         (∀ x ∈ ps, u.deadMem x.hpa = false) →
         let v := u.writePieces p.win.part ps q.2
         exec (.putLanding peer num off (.lands ⟨i, g⟩)) s =
           .next { v with putIns := v.putIns.set i { p with parts := p.parts.eraseIdx g } }) ∧
       ∀ u x, p.parts = [] → s.bumpWindow p.win (.put p.serial p.win.cnt) = .ok u x →
         exec (.putLanding peer num off (.lands ⟨i, g⟩)) s = .next { u with putIns := u.putIns.eraseIdx i }) ∧
  (∀ (s : State) (d a : XReg),
     let n := (s.core.rx a).toNat
     (Free s { x := [a] } { x := [d] } →
       (s.twinFor (s.core.rx a) = none → exec (.shadow d a) s = .next (s.raise 0x02 0 0x79 0)) ∧
       ∀ t, s.twinFor (s.core.rx a) = some t →
         (t.isOpen = true → exec (.shadow d a) s = .next (s.raise 0x02 0 0x79 0)) ∧
         (t.isOpen = false → s.core.phase = .compute → exec (.shadow d a) s = .next (s.raise 0x03 0 0x79 0)) ∧
         (t.isOpen = false → s.core.phase = .exchange → exec (.shadow d a) s =
           .next (lateNext { s with twins := s.twins.put n { t with isOpen := true, epoch := t.epoch + 1 } } d
             (BitVec.ofNat 64 (t.epoch + 1))))) ∧
     (Free s { x := [a] } {} →
       (s.twinFor (s.core.rx a) = none → exec (.publish a) s = .next (s.raise 0x02 0 0x44 0)) ∧
       ∀ t, s.twinFor (s.core.rx a) = some t →
         (t.isOpen = false → exec (.publish a) s = .next (s.raise 0x02 0 0x44 0)) ∧
         (t.isOpen = true → s.core.phase = .compute → exec (.publish a) s = .next (s.raise 0x03 0 0x44 0)) ∧
         (t.isOpen = true → s.core.phase = .exchange → exec (.publish a) s =
           .next { s with twins := s.twins.put n { t with isOpen := false, sel := !t.sel } }.retire)) ∧
     ∀ t, s.twinFor (s.core.rx a) = some t → n < 65536 ∧ s.twins.find? n = some t ∧ t.part = s.core.ctx / 16 ∧ t.caldera = false)

/-! Queues, launches and tasks (14_scheduling.md). -/

/-- R277, R278: a free slot of the share goes to the queue at the head of the partition's order; after 20 µs the slot goes to
the head of the order and the queue goes to its end. R274, R278, R280, R285: which record `LAUNCH_TAKE` takes, when it takes
none, and that an `after` record waits for the launch before it; checks of a record that give reason code 1, and what a
record that passes them all holds. That a queue of a context which is not live takes nothing is the model's reading
(notes/assumptions/34.md). R275, R282: an inline source makes chain `i` with the frame `frame + i * fstride`, in index order,
and ends with the last. R275, R321, R340, R404: the scheduler's reads of a ring's header, of its entry, and of a ragged
task's record; a ring that breaks a rule, or whose header is poisoned, enters its error state. R282: records for which the
task queue has room again become tasks. A ring is used whatever bytes 17 to 63 of its header hold (the model's choice:
notes/assumptions/58.md). R89, R281, R297, R298, R303: a source that closes early, by an `EXIT`, a kill or a deadline,
supplies nothing more; what it has yet to supply is counted absent, and after a deadline its units are marked. -/
def Obligations.QueuesAndSources : Prop :=
  (∀ (s : State) (q : Nat) (k : Queue), s.queues.find? q = some k →
     let p := s.part k.part
     (p.qorder.head? ≠ some q ∨ p.qs ≤ s.mappedOf k.part → exec (.queueMap q) s = .next s) ∧
     (∀ l, p.qorder = q :: l → s.mappedOf k.part < p.qs → ∃ t, exec (.queueMap q) s = .next t ∧
       t.queues.find? q = some { k with mapped := true, since := s.now } ∧ (t.part k.part).qorder = l ∧ t.core = s.core) ∧
     (k.mapped = false ∨ s.now < k.since + 20000 → exec (.queueQuantumExpiry q) s = .next s) ∧
     (k.mapped = true → k.since + 20000 ≤ s.now →
       (p.qorder = [] → ∃ t, exec (.queueQuantumExpiry q) s = .next t ∧
         t.queues.find? q = some { k with since := s.now } ∧ t.parts = s.parts) ∧
       ∀ w l kw, p.qorder = w :: l → w ≠ q → s.queues.find? w = some kw → ∃ t, exec (.queueQuantumExpiry q) s = .next t ∧
         t.queues.find? q = some { k with mapped := false } ∧
         t.queues.find? w = some { kw with mapped := true, since := s.now } ∧ (t.part k.part).qorder = l ++ [q])) ∧
  (∀ (s : State) (q : Nat) (k : Queue) (e : QRec) (l : List QRec) (bs : List Byte),
     let r := LaunchRec.ofBytes bs
     (s.queues.find? q = none → exec (.launchTake q) s = .next s) ∧
     (s.queues.find? q = some k → k.mapped = false ∨ k.active = false ∨ (s.context k.ctx).live = false →
       exec (.launchTake q) s = .next s) ∧
     (s.queues.find? q = some k → k.mapped = true → (s.context k.ctx).live = true → k.dev = true → k.recs = e :: l →
       ((LaunchRec.ofBytes e.bytes).after = true → (∃ n, k.last = some n ∧ (s.launches.find? n).isSome = true) →
         exec (.launchTake q) s = .next s) ∧
       ((LaunchRec.ofBytes e.bytes).after = false → exec (.launchTake q) s =
         .next (s.takeRecord q k e.bytes 0 (some e.lid) e.parent))) ∧
     (7 < r.pri ∨ 15 < r.cls ∨ 4 < r.nspec ∨ r.src = 3 → recCode bs = 1) ∧
     (recCode bs = 0 → r.pri ≤ 7 ∧ r.cls ≤ 15 ∧ r.dom ≤ 4 ∧ 1 ≤ r.budget ∧ r.budget ≤ 1000 ∧ r.quads ≤ 128 ∧ r.entry % 4 = 0 ∧
       r.pjoin % 16 = 0 ∧ r.cstamp % 8 = 0 ∧ r.vmap % 64 = 0 ∧ (r.src = 0 → 1 ≤ r.chains ∧ r.work = 0) ∧
       (r.src ≠ 0 → r.frame = 0)) ∧
     ({ k with dev := true, recs := e :: l }.advance 5).recs = l) ∧
  (∀ (l : Launch) (now : Nat), l.fields.src = 0 → l.srcEnd = false → l.next = 0 → l.ready = [] → l.run = [] →
     l.fields.chains ≤ 65536 →
     let m := l.supply now
     m.srcEnd = true ∧ m.next = l.fields.chains ∧ m.outst = l.outst + l.fields.chains ∧ m.ready.length = l.fields.chains ∧
     ∀ i (h : i < m.ready.length), m.ready[i].frame = BitVec.ofNat 64 (l.fields.frame + i * l.fields.fstride) ∧
       m.ready[i].code = l.fields.entry ∧ m.ready[i].index = some i ∧ m.ready[i].join = 0 ∧ m.ready[i].since = now) ∧
  (∀ (s u v : State) (lid : Nat) (l : Launch) (h : RingHead) (b e : List Byte) (t : TaskRec) (ts : List TaskRec) (ps : List Piece),
     s.launches.find? lid = some l →
     let run : Out := exec (.taskRingEntryTake lid) s
     (l.fields.src ≠ 1 ∨ l.srcEnd = true → run = .next s) ∧
     (s.ringRead l lid l.fields.work 17 = .ok u (some b) →
       let wr := leNat (b.take 8)
       let lg := leNat ((b.drop 16).take 1)
       let lawful := 1 ≤ lg ∧ lg ≤ 20 ∧ l.ringWr ≤ wr ∧ wr ≤ l.next + 2 ^ lg ∧
         u.ringOut l.ctx l.fields.work (64 + 8 * 2 ^ lg) = false
       (lawful → s.ringHead l lid = .ok u (some { wr := wr, closed := decide (leNat ((b.drop 8).take 8) ≠ 0), lg := lg })) ∧
       (¬ lawful → s.ringHead l lid = .ok u none)) ∧
     (s.ringRead l lid l.fields.work 17 = .ok u none → s.ringHead l lid = .ok u none) ∧
     (l.fields.src = 1 → l.srcEnd = false → l.past = false → l.exited = false → l.killed = false →
       (s.ringHead l lid = .wait u → run = .next u) ∧
       (s.ringHead l lid = .ok u none → run = .next ((u.ringError lid).settleLaunch lid)) ∧
       (s.ringHead l lid = .ok u (some h) →
         let u1 := u.modLaunch lid fun l => { l with ringWr := h.wr }
         (l.next = h.wr → run = .next (if h.closed then (u1.modLaunch lid fun l => { l with srcEnd := true }).settleLaunch lid
           else u1)) ∧
         (l.next ≠ h.wr → l.room ≠ 0 → u1.ringRead l lid (l.fields.work + 64 + 8 * (l.next % 2 ^ h.lg)) 8 = .ok v (some e) →
           ∀ k, v.launches.find? lid = some k → ∃ w m n, run = .next w ∧ w.launches.find? lid = some m ∧
             m.next = k.next + 1 ∧ m.outst = k.outst + 1 ∧ m.ready = k.ready ++ [n] ∧
             n.frame = BitVec.ofNat 64 (leNat e) ∧ n.code = k.fields.entry ∧ n.index = some k.next))) ∧
     ((l.ready.filter fun t => t.rcd.isSome) = [] → exec (.tileRecordRead lid) s = .next (s.resupply lid)) ∧
     (∃ m, (s.resupply lid).launches.find? lid = some m ∧
       let n := if l.closing = true then l else l.supply s.now
       m.ready = n.ready ∧ m.next = n.next ∧ m.outst = n.outst ∧ m.srcEnd = n.srcEnd) ∧
     ((l.ready.filter fun t => t.rcd.isSome) = t :: ts →
       s.translateRange { l.who lid with w := .tile lid t.order } (t.rcd.getD 0) 40 .read = .ok u ps →
       u.piecesPoison ps = false →
       let r := u.readPieces ps
       let rows := leNat ((r.drop 8).take 2)
       leNat ((r.drop 10).take 2) < 4 →
       (∀ o ∈ [16, 24, 32], leNat ((r.drop o).take 8) < 2 ^ 57) → 1 ≤ rows → rows ≤ 32 →
       exec (.tileRecordRead lid) s = .next ((u.modLaunch lid fun l => { l with ready := l.ready.map fun q =>
         if q.order = t.order then { q with rcd := none, est := (l.fields.est * rows + 31) / 32 } else q }).resupply lid))) ∧
  (∀ (s u : State) (lid : Nat) (l : Launch) (h : RingHead), s.launches.find? lid = some l →
     let loses (t : State) (n : Nat) : Prop := ∃ m, t.launches.find? lid = some m ∧ m.srcEnd = true ∧
       m.absent = l.absent + n ∧ m.next = l.next + n ∧ m.ready = l.ready ∧
       m.todo = l.todo ++ if 0 < n ∧ l.past = true ∧ l.fields.vmap ≠ 0 then [.codes l.next n true] else []
     (l.srcEnd = true → s.closeSource lid = s) ∧
     (l.srcEnd = false → l.fields.src = 0 → loses (s.closeSource lid) (l.fields.chains - l.next)) ∧
     (l.srcEnd = false → l.fields.src = 2 → loses (s.closeSource lid) (l.fields.count - l.next)) ∧
     (l.srcEnd = false → l.fields.src = 1 →
       (s.ringHead l lid = .wait u → s.closeSource lid = u) ∧
       (s.ringHead l lid = .ok u (some h) → u.launches.find? lid = some l → loses (s.closeSource lid) (h.wr - l.next))))

/-- R54, R55, R287, R366: what a task's core holds at its start; the counts go on in the same context. R288 to R290: the
start of the task whose turn it is, the marks of tasks that have waited 100 µs, and the preload of a segment whose cores have
all begun their wait, which picks its successor and changes the scan record of a granule. -/
def Obligations.SchedulingAndTaskStart : Prop :=
  (∀ (c : Core) (l : Launch) (lid : Nat) (t : TaskRec) (origin : Nat) (held : BitVec 4) (k : Stash),
     let b := c.begin l lid t origin held k
     b.rx 1 = t.frame ∧ (∀ r : XReg, r ≠ 1 → b.rx r = 0) ∧ (∀ r : VReg, b.rv r = 0) ∧ (∀ r : PReg, r ≠ 0 → b.rp r = 0) ∧
     b.pc = BitVec.ofNat 64 t.code ∧ b.phase = .exchange ∧ b.slot = 0 ∧ b.fflags = 0 ∧ b.frm = 0 ∧ b.srseed = 0 ∧
     b.vs = 32 + 2 ^ 16 * 8 + 2 ^ 32 * 8 ∧ b.dom = BitVec.ofNat 3 l.fields.dom ∧ b.steep = 0 ∧ b.steepPc = 0 ∧ b.steepLc = 0 ∧
     b.trap = 0 ∧ (∀ i : Level, b.loops[i] = LoopLevel.off) ∧ b.watch.armed = false ∧ b.pend = [] ∧ b.late = [] ∧
     b.engine = [] ∧ b.matrix = [] ∧ b.frame = none ∧ b.role = .running ∧ b.ctl = Control.empty ∧
     b.chain.rows = l.fields.rows ∧ b.chain.cols = l.fields.cols ∧ b.chain.leader = origin ∧
     b.launch = BitVec.ofNat 32 lid ∧ b.share = k.share ∧ b.shareSize = k.size ∧ b.sqn = k.sqn ∧
     (c.ctx = l.ctx → b.retired = c.retired ∧ b.sent = c.sent ∧ b.received = c.received)) ∧
  (∀ (s : State) (core cluster : Nat),
     let s1 := s.guardAll.pruneSuccs
     (s1.nextStart = none → exec (.taskStart core) s = .next s1) ∧
     (∀ lid t o sl, s1.nextStart = some (lid, t, o, sl) →
       exec (.taskStart core) s = .next (if o = core then s1.beginTask lid t o sl else s1)) ∧
     (s1.succs = [] → ∀ c o sl, s1.pick none [] [] s1.ranked = some (c, o, sl) → s1.nextStart = some (c.lid, c.task, o, sl)) ∧
     (∃ t, exec .starvationGuard s = .next t ∧ t.core = s.core ∧ t.mem = s.mem ∧
       ∀ lid l, s.launches.find? lid = some l → ∃ m, t.launches.find? lid = some m ∧ m.ready.length = l.ready.length ∧
         ∀ i (h : i < l.ready.length) (h' : i < m.ready.length),
           m.ready[i].guard = (l.ready[i].guard || decide (l.ready[i].since + 100000 ≤ s.now)) ∧
           m.ready[i].code = l.ready[i].code) ∧
     ∃ t, exec (.segmentPreload cluster) s = .next t ∧ t = { s1 with scans := t.scans, succs := t.succs } ∧
       (s1.segmentEnds cluster = false → t = s1) ∧ ∀ k ∈ t.succs, k ∈ s1.succs ∨ k.seg = cluster)

/-- R285, R286: `LAUNCH` copies its record into a device queue of the partition; the reason of a refusal is in the result,
and a child keeps its parent. R282, R285, R286: `TASK` puts a task into its launch's task queue and its record into the
queue's memory, or answers with the reason of its refusal. Without a launch the reason is that of a full queue (the model's
reading: notes/assumptions/26.md). -/
def Obligations.LaunchAndTaskInstructions : Prop :=
  (∀ (s u : State) (child : Bool) (d a b : XReg) (sp : Space) (bs : List Byte),
     let c := s.core
     let r := c.rx a
     let q := (c.rx b).toNat
     let i : Instr := .launch child d a b
     Free s { x := [a, b] } { x := [d] } →
     (r.toNat % 64 ≠ 0 ∨ (tag r ≠ 0 ∧ tag r ≠ 8) ∨ s.resolve r 128 = none → exec i s = .next (s.raise 0x05 r.toNat 0x45 0)) ∧
     (r.toNat % 64 = 0 → tag r = 0 ∨ tag r = 8 → s.resolve r 128 = some sp →
       (4096 ≤ q → exec i s = .next (s.raise 0x02 0 0x45 0)) ∧
       (q < 4096 → c.phase = .compute → exec i s = .next (s.raise 0x03 0 0x45 0)) ∧
       (q < 4096 → c.phase = .exchange → s.readSpace sp 128 = .ok u (some bs) →
         let v := u.release u.core.id 3
         exec i s = .next (lateNext (v.submit q bs child).1 d (v.submit q bs child).2))) ∧
     (∀ k, s.queues.find? q = some k →
       (k.dev = false ∨ k.part ≠ c.ctx / 16 → s.submit q bs child = (s, BitVec.ofNat 64 (2 ^ 63 + 2))) ∧
       (k.dev = true → k.part = c.ctx / 16 → k.cap ≤ k.recs.length → s.submit q bs child = (s, BitVec.ofNat 64 (2 ^ 63 + 1))) ∧
       (k.dev = true → k.part = c.ctx / 16 → k.recs.length < k.cap → ∃ n k', (s.submit q bs child).2 = BitVec.ofNat 64 n ∧
         (s.submit q bs child).1.queues.find? q = some k' ∧ k'.recs = k.recs ++ [{ bytes := bs, lid := n, parent :=
           if child = true ∧ (s.launches.find? c.launch.toNat).isSome = true then some c.launch.toNat else none }])) ∧
     (s.queues.find? q = none → s.submit q bs child = (s, BitVec.ofNat 64 (2 ^ 63 + 2)))) ∧
  (∀ (s u : State) (d a : XReg) (sp : Space) (bs : List Byte),
     let c := s.core
     let r := c.rx a
     let t := TaskRec.ofBytes bs
     let v := u.release u.core.id 3
     let i : Instr := .task d a
     let lid := v.core.launch.toNat
     Free s { x := [a] } { x := [d] } →
     (r.toNat % 32 ≠ 0 ∨ (tag r ≠ 0 ∧ tag r ≠ 8) ∨ s.resolve r 32 = none → exec i s = .next (s.raise 0x05 r.toNat 0x46 0)) ∧
     (r.toNat % 32 = 0 → tag r = 0 ∨ tag r = 8 → s.resolve r 32 = some sp →
       (c.phase = .compute → exec i s = .next (s.raise 0x03 0 0x46 0)) ∧
       (c.phase = .exchange → s.readSpace sp 32 = .ok u (some bs) →
         (taskBreaks bs = true → exec i s = .next (lateNext v d (BitVec.ofNat 64 (2 ^ 63 + 3)))) ∧
         (taskBreaks bs = false → t.join = 0 →
           (v.launches.find? lid = none → exec i s = .next (lateNext v d (BitVec.ofNat 64 (2 ^ 63 + 1)))) ∧
           ∀ l, v.launches.find? lid = some l →
             (l.past = false → l.exited = false → 65536 ≤ l.ready.length + l.run.length →
               exec i s = .next (lateNext v d (BitVec.ofNat 64 (2 ^ 63 + 1)))) ∧
             (l.past = false → l.exited = false → l.ready.length + l.run.length < 65536 →
               ∃ w m n, exec i s = .next (lateNext w d 0) ∧ w.launches.find? lid = some m ∧ m.ready = l.ready ++ [n] ∧
                 m.outst = l.outst + 1 ∧ n.code = t.code ∧ n.frame = t.frame ∧ n.join = 0 ∧ n.since = v.now ∧
                 (l.filed ≤ l.order → w.physRead (queueHpa lid + 32 * n.slot) 32 = n.bytes lid))))))

/-- R283, R285, R286: `JOIN` arms a block that still counts, enqueues the continuation when it counts zero, and is refused at
an armed block, its record's address checked before the block's; a decrement takes one from the count, releases the
continuation of an armed block at one, and reports an underflow at zero. R283, R284, R404: the step that makes a decrement
which a launch still owes, after the end steps before it that wait; a block that counts more than one then counts one less.
-/
def Obligations.Joins : Prop :=
  (∀ (s u v : State) (d a b : XReg) (sp : Space) (bs : List Byte) (ps : List Piece) (l : Launch) (e n f : Nat) (t : TaskRec)
     (k : Word),
     let c := s.core
     let i : Instr := .join d a b
     let record : Prop := (c.rx b).toNat % 32 = 0 ∧ (tag (c.rx b) = 0 ∨ tag (c.rx b) = 8) ∧ s.resolve (c.rx b) 32 ≠ none
     (Free s { x := [a, b] } { x := [d] } → (¬ record → exec i s = .next (s.raise 0x05 (c.rx b).toNat 0x47 0)) ∧
       (record → ¬ ((c.rx a).toNat < 2 ^ 57 ∧ (c.rx a).toNat % 16 = 0) → exec i s = .next (s.raise 0x05 (c.rx a).toNat 0x47 0))) ∧
     (Free s { x := [a, b] } { x := [d] } → (c.rx a).toNat < 2 ^ 57 → (c.rx a).toNat % 16 = 0 → (c.rx b).toNat % 32 = 0 →
       tag (c.rx b) = 0 ∨ tag (c.rx b) = 8 → s.resolve (c.rx b) 32 = some sp → c.phase = .exchange →
       s.readSpace sp 32 = .ok u (some bs) → u.translateRange u.me (c.rx a).toNat 16 .read = .ok v ps →
       let w := v.release v.core.id 3
       (taskBreaks bs = true → exec i s = .next (lateNext w d (BitVec.ofNat 64 (2 ^ 63 + 3)))) ∧
       (taskBreaks bs = false → (TaskRec.ofBytes bs).join = 0 →
         ((ps.all fun p => isBank p.hpa) = false → exec i s = .next (lateNext w d (BitVec.ofNat 64 (2 ^ 63 + 5)))) ∧
         ((ps.all fun p => isBank p.hpa) = true → w.launches.find? w.core.launch.toNat = some l → l.past = false →
           l.exited = false → exec i s = w.arm l ps (c.rx a) (TaskRec.ofBytes bs) d))) ∧
     (l.freeEntry = none → s.arm l ps k t d = .next (lateNext s d (BitVec.ofNat 64 (2 ^ 63 + 1)))) ∧
     (l.freeEntry = some e → s.piecesPoison ps = false →
       let count := leNat ((s.readPieces ps).take 8)
       let armed := leNat (((s.readPieces ps).drop 8).take 8) % 2 = 1
       (armed → s.arm l ps k t d = .next (lateNext s d (BitVec.ofNat 64 (2 ^ 63 + 4)))) ∧
       (¬ armed → count = 0 → s.arm l ps k t d =
         .next (lateNext ((s.modLaunch c.launch.toNat fun l => l.enter t s.now).fileTasks c.launch.toNat) d 0)) ∧
       (¬ armed → count ≠ 0 → s.arm l ps k t d = .next (lateNext
         ((s.writePieces (c.ctx / 16) ps (leBytes 8 count ++ leBytes 8 (1 + 2 * e))).modLaunch c.launch.toNat fun l =>
           { l with pend := l.pend.put e { task := t, block := k.toNat }, outst := l.outst + 1 }) d (BitVec.ofNat 64 count)))) ∧
     (1 < n → joinStep n f = (n - 1, f, false, none)) ∧ joinStep 0 f = (0, f, true, none) ∧
     (f % 2 = 1 → joinStep 1 f = (0, f - 1, false, some (f / 2 % 2 ^ 15))) ∧ (f % 2 = 0 → joinStep 1 f = (0, f, false, none))) ∧
  (∀ (s u : State) (lid owner : Nat) (va : Word) (l : Launch) (p : Piece), s.launches.find? lid = some l →
     (l.todo = [] → exec (.joinDecrement lid va) s = .next s) ∧
     (∀ w ws, l.todo = .join w :: ws → w ≠ va.toNat → exec (.joinDecrement lid va) s = .next s) ∧
     (∀ x ws, l.todo = x :: ws → (∀ w, x = .join w → w = va.toNat) → exec (.joinDecrement lid va) s = .next (s.settleLaunch lid)) ∧
     (s.translateRange (l.who lid) va.toNat 16 .atomic = .ok u [p] → u.physPoison p.hpa 16 = false → 1 < u.physNat p.hpa 8 →
       ∃ t, s.joinDec lid va.toNat owner = .ok t () ∧
         ((u.part (l.ctx / 16)).dlog = 0 → t.physNat p.hpa 8 = u.physNat p.hpa 8 - 1 ∧
           t.physNat (p.hpa + 8) 8 = u.physNat (p.hpa + 8) 8)))

/-! Deadlines and validity (15_deadlines.md). -/

/-- R297 to R299, R301: a deadline passes at the next multiple of 64 ns; the leader of a single-core chain is then diverted
to its steep entry with its place and loop counters in `%steep`, `%steep_pc` and `%steep_lc`; nothing happens before. R301:
the step that closes a chain's wrap-up window acts only once the window has closed; then every member stops as at a kill and
ends its part, and a record of cause 0x19 follows the overrun marks. R303, R304: `VALID.open` keeps the range of units;
`VALID` hands the network one store for each byte of four units, which writes the 2-bit codes of exactly the units named,
each a release of module scope; without a launch both are illegal. -/
def Obligations.DeadlinesAndValidity : Prop :=
  (∀ (s : State) (lid : Nat) (l : Launch), s.launches.find? lid = some l →
     let c := s.core
     let r := l.fields
     (l.past = true ∨ l.killed = true ∨ l.ending = true ∨ s.late r = false → exec (.deadlinePass lid) s = .next s) ∧
     (l.past = false → l.killed = false → l.ending = false → s.late r = true →
       exec (.deadlinePass lid) s = .next (s.deadline lid)) ∧
     (s.late r = true ↔ r.deadline ≠ 2 ^ 64 - 1 ∧ (r.deadline + 63) / 64 * 64 ≤ s.now) ∧
     (c.launch.toNat = lid → c.chain.leader = c.id → c.chain.rows = 1 → c.chain.cols = 1 → c.feed = [] → c.frame = none →
       (s.divertible c.id l = false → exec (.steepDiversion c.id) s = .next s) ∧
       (s.divertible c.id l = true → s.stopping c = false → (∀ e ∈ s.nets, e.2.mine c.id = none) → c.route = none →
         ∃ t, exec (.steepDiversion c.id) s = .next t ∧ t.core.pc = BitVec.ofNat 64 r.steep ∧
           t.core.steepPc = BitVec.ofNat 64 (c.pc.toNat % 2 ^ 57) ∧
           t.core.steepOn = true ∧ t.core.phase = .exchange ∧ t.core.slot = c.slot ∧ t.core.retired = c.retired ∧
           t.core.gap = 3 ∧ (∀ i : Level, t.core.loops[i] = LoopLevel.off) ∧ t.core.watch.armed = false ∧
           t.core.steep.getLsbD 0 = true ∧ (t.core.steep.getLsbD 8 = decide (c.phase = .compute)) ∧
           (t.core.steepLc.setWidth 32 = if c.loops[(0 : Level)].active then c.loops[(0 : Level)].cnt else 0) ∧
           t.core.priEff = BitVec.ofNat 3 (min 7 (c.priLaunch.toNat + 1)) ∧ t.core.steepAt = s.now + 1000 * r.budget))) ∧
  (∀ (s : State) (core : Nat),
     let cs := s.steepers core
     (∀ d ∈ cs, d.role = .running ∧ d.chain.leader = core ∧ ∃ c ∈ cs, c.launch = d.launch ∧ c.steepOn = true ∧ c.steepAt ≤ s.now) ∧
     (∀ d ∈ s.allCores, d.role = .running → d.chain.leader = core → d.launch ≠ 0 → d.steepOn = true → d.steepAt ≤ s.now → cs ≠ []) ∧
     ((∀ c ∈ cs, c.steepOn = false ∨ s.now < c.steepAt) → exec (.steepBudgetExpiry core) s = .next s) ∧
     ∀ c l, cs = c :: l → (∃ d ∈ cs, d.steepOn = true ∧ d.steepAt ≤ s.now) →
       let lid := c.launch.toNat
       let s1 := (s.abortBars lid).modLaunch lid fun m => { m with todo := m.todo ++ m.overruns cs }
       let s2 := s1.note { cause := 0x19, chain := decide (c.members > 1), ctx := c.ctx, core := core, launch := lid }
       let s3 := cs.foldl (fun s c => s.stopCore c.id) s2
       exec (.steepBudgetExpiry core) s = .next (cs.foldl (fun s c => s.endPart lid c.id) s3)) ∧
  (∀ (s : State) (a b : XReg) (im : BitVec 32) (code : VCode) (l : Launch),
     let c := s.core
     let vmap := l.fields.vmap
     let f := (c.rx a).toNat
     let range (n : Nat) : Nat × Nat := (vmap + (64 + f / 4), if n = 0 then 0 else (64 + (f + n - 1) / 4) - (64 + f / 4) + 1)
     let checked (n : Nat) : Prop := vmap ≠ 0 ∧ vmap % 64 = 0 ∧ s.badPage vmap 64 = false ∧ n ≤ 2 ^ 24 ∧
       (∀ u, s.headerUnits vmap = some u → n = 0 ∨ f + n ≤ u) ∧ c.phase = .exchange
     let opens (i : Instr) (n : Nat) : Prop := ∀ u h, checked n → s.readSpace (.glob vmap) 4 = .ok u (some h) →
       (n = 0 ∨ f + n ≤ leNat h) →
       exec i s = .next (u.upd fun c => { c with openUnits := if n = 0 then none else some (f, n) }).retire
     let marks (i : Instr) (n : Nat) : Prop := ∀ u h v ps, checked n → s.badPage (range n).1 (range n).2 = false →
       s.readSpace (.glob vmap) 4 = .ok u (some h) → (n = 0 ∨ f + n ≤ leNat h) →
       u.translateRange u.me (range n).1 (range n).2 .atomic = .ok v ps →
       exec i s = .next (v.hand (codeStores v.core.id v.myPart ps (codeSteps f n (VCode.num code) (range n).2))).retire
     (s.launches.find? c.launch.toNat = none → Free s { x := [a] } {} →
       exec (.validImmediate code a im) s = .next (s.raise 0x02 0 0x4C 0) ∧
       exec (.validOpenImmediate a im) s = .next (s.raise 0x02 0 0x4C 0)) ∧
     (s.launches.find? c.launch.toNat = some l →
       (Free s { x := [a] } {} → opens (.validOpenImmediate a im) im.toNat ∧ marks (.validImmediate code a im) im.toNat) ∧
       (Free s { x := [a, b] } {} → opens (.validOpen a b) (c.rx b).toNat ∧ marks (.valid code a b) (c.rx b).toNat)) ∧
     (∀ (f n k cnt : Nat), k < 4 → (codeSteps f n k cnt).length = cnt ∧
       ∀ j < cnt, ∀ i < 4,
         let u := f - f % 4 + 4 * j + i
         let q := (codeSteps f n k cnt).getD j (0, 0)
         q.1.toNat / 4 ^ i % 4 = (if f ≤ u ∧ u < f + n then 3 else 0) ∧
           q.2.toNat / 4 ^ i % 4 = if f ≤ u ∧ u < f + n then k else 0) ∧
     ∀ (core part : Nat) (p : Piece) (bs : List (Byte × Byte)) (i : Nat) (q : Byte × Byte), bs.length ≤ p.len → bs[i]? = some q →
       ∃ t, (codeStores core part [p] bs)[i]? = some t ∧ t.core = core ∧ t.hpa = p.hpa + i ∧ t.data = [q.2] ∧ t.mask = [q.1] ∧
         t.kind = p.kind ∧ (p.kind ≠ 2 → t.rel = some .mod))

/-! Traps, live points and records (21_traps.md). -/

/-- R355, R356, R360 to R364: `TRAP`, `BRK`, an illegal instruction, and every other synchronous trap, in a chain of one
core: the record reaches the ring writer; while it waits for a slot the core is frozen; once it is written the core enters
the handler with `%trap` as the record gives it and its place, phase, loops and watch in the trap frame, the place after
`TRAP` and `BRK` being that of the stopped core (R356). A stop that meets a halt which is due is saved as it stands and
enters at its resumption (R377). Without a handler the task ends. R358, R361, R365: `ERET` restores phase, loop levels, watch
and place of the trap frame; `.skip` lets the trapping member's slot pass empty but for `TRAP` and `BRK`; `.to` goes on at
its target, in a chain of one core. A fetch fault at the place to go on at comes before the phase. Outside a handler all are
illegal. That `.skip` skips nothing after `TRAP` and `BRK` is the model's reading (notes/assumptions/48.md). -/
def Obligations.TrapEntryAndReturn : Prop :=
  (∀ (s : State) (n : BitVec 11) (code : BitVec 23) (hdl : Nat) (brk : Bool) (cause info : Nat) (after : Bool) (i : Instr),
     let c := s.core
     ((i = .trap n ∧ cause = 0x0A ∧ info = n.toNat ∧ after = true) ∨ (i = .brk n ∧ cause = 0x0B ∧ info = n.toNat ∧ after = true) ∨
       (i = .ill code ∧ cause = 0x01 ∧ info = code.toNat ∧ after = false) → exec i s = .next (s.raise cause 0 info 0 after)) ∧
     (c.chain.leader = c.id → c.chain.rows = 1 → c.chain.cols = 1 → c.frame = none → c.role = .running → c.contained = false →
       ∀ addr i0 i1,
         let r : Raised := { cause := cause, addr := BitVec.ofNat 64 addr, info0 := BitVec.ofNat 64 i0, info1 := BitVec.ofNat 64 i1
                             after := after }
         let s1 := s.upd fun c => { c with raised := some r }
         let v := (((s1.dropWaiter (c.ctx / 16) (.core c.id)).settleOps c.id).modCore c.id Core.halts).post c.ctx
           [(s1.core.trapRec r false, some c.id)]
         let t := s.raise cause addr i0 i1 after
         ∀ q, (v.coreAt c.id).raised = some q →
           (q.word = none ∨ (∃ p, (v.context c.ctx).soft = some p ∧ p.due v.now = true) → t = v) ∧
           ∀ w, q.word = some w → (∀ p, (v.context c.ctx).soft = some p → p.due v.now = false) →
             let z := v.modCore c.id (Core.stopped c.id)
             let k := z.coreAt c.id
             z.handler c.ctx = (hdl, brk) →
             (hdl ≠ 0 → q.cause ≠ 0x0B ∨ brk = false →
               let h := t.coreAt c.id
               h.pc = BitVec.ofNat 64 hdl ∧ h.phase = .exchange ∧ h.gap = 2 ∧ (∀ l : Level, h.loops[l] = LoopLevel.off) ∧
               h.watch.armed = false ∧ h.x = k.x ∧ h.trap = w ∧
               h.frame = some { pc := k.pc, slot := k.slot, phase := k.phase, loops := k.loops, watch := k.watch, member := c.id
                                gap := k.gap, nop := k.nopLeft, npc := k.npc }) ∧
             (hdl = 0 → q.cause ≠ 0x0B ∨ brk = false → t = z.trapKill s1.core 6) ∧
             (q.cause = 0x0B → brk = true → t = z.haltPart (c.ctx / 16)))) ∧
  (∀ (s u : State) (a : XReg) (f : TrapFrame) (x : Nat),
     let c := s.core
     let back (i : Instr) (to_ : Option Word) (skip : Bool) : Prop :=
       c.frame = some f → (to_ ≠ none → c.members ≤ 1) →
       (∀ v a i0 i1, s.enter (to_.getD f.pc) = .fault v 0x07 a i0 i1 → exec i s = .next (v.raise 0x07 a i0 i1)) ∧
       (s.enter (to_.getD f.pc) = .ok u x → u.core.phase = .compute → exec i s = .next (u.raise 0x03 0 0x49 0)) ∧
       (s.enter (to_.getD f.pc) = .ok u x → u.core.phase = .exchange →
         ∃ t, exec i s = .next t ∧ t.core.frame = none ∧ t.core.pc = to_.getD f.pc ∧ t.core.phase = f.phase ∧
           t.core.loops = f.loops ∧ t.core.watch = f.watch ∧ t.core.slot = f.slot ∧ t.core.retired = u.core.retired + 1 ∧
           let k := u.core
           (f.member = k.id → t.core.skip =
             if skip = true ∧ k.trap.toNat % 65536 ≠ 0x0A ∧ k.trap.toNat % 65536 ≠ 0x0B then true else k.skip) ∧
           (to_ = none → t.core.npc = f.npc ∧ t.core.gap = f.gap ∧ t.core.nopLeft = f.nop))
     (c.frame = none → exec .eret s = .next (s.raise 0x02 0 0x49 0) ∧ exec .eretSkip s = .next (s.raise 0x02 0 0x49 0)) ∧
     back .eret none false ∧ back .eretSkip none true ∧
     (Free s { x := [a] } {} → (c.frame = none ∨ 1 < c.members → exec (.eretTo a) s = .next (s.raise 0x02 0 0x49 0)) ∧
       back (.eretTo a) (some (c.rx a)) false))

/-- R371, R372: a live point retires with 0 when no soft request is pending, else with 1 and the member stops for a live
save; `YIELD.poll` tells how much of the grace time is left. That the grace time is rounded down to whole microseconds is the
model's reading (notes/assumptions/47.md). R360, R363: a record is written at the producer index, numbered by it, and the
index advances; a ring that holds `2^tlg` records takes none; the ring writer writes what waits and tells the chain stop that
waits for it its `%trap`, and drops the oldest asynchronous record that has waited 1 µs; the record of a chain that stands
saved waits for its resumption (R377). -/
def Obligations.LivePointsAndTrapRings : Prop :=
  (∀ (s : State) (d b : XReg) (w : Word),
     let c := s.core
     let yields (i : Instr) (desc : List Byte) : Prop :=
       (s.livePending = false → exec i s = .next (lateNext s d 0)) ∧
       (s.livePending = true → ∃ t k, exec i s = .next t ∧ t.core.role = .saved ∧ t.core.livePend = true ∧
         t.core.retired = c.retired + 1 ∧ (t.context c.ctx).saved = (s.context c.ctx).saved ++ [k] ∧ k.id = c.id ∧
         k.live = true ∧ k.desc = desc ∧ (d ≠ 0 → c.pend = [] → c.late = [] → t.core.rx d = 1))
     let live (i : Instr) (a : Word) : Prop :=
       let o := offset a
       let desc := c.shareRead o 64
       (c.frame.isSome = true → exec i s = .next (s.raise 0x02 0 0x4A 0)) ∧
       (c.frame = none → ¬ (a.toNat % 64 = 0 ∧ tag a = 8 ∧ o + 64 ≤ c.shareSize) → exec i s = .next (s.raise 0x05 a.toNat 0x4A 0)) ∧
       (c.frame = none → a.toNat % 64 = 0 → tag a = 8 → o + 64 ≤ c.shareSize → c.sharePoisoned o 64 = false →
         (liveBad c.shareSize desc = true → exec i s = .next (s.raise 0x02 0 0x4A 0)) ∧
         (liveBad c.shareSize desc = false → c.phase = .compute → exec i s = .next (s.raise 0x03 0 0x4A 0)) ∧
         (liveBad c.shareSize desc = false → c.phase = .exchange → yields i desc))
     (c.chain.leader = c.id → s.livePending = ((s.context c.ctx).pre.isSome && !(s.context c.ctx).stored)) ∧
     (Free s { x := [b] } { x := [d] } → live (.live d b) (c.rx b)) ∧
     (Free s {} { x := [d] } → live (.liveLiteral d w) w ∧
       (c.frame.isSome = true → exec (.yield d) s = .next (s.raise 0x02 0 0x4B 0)) ∧
       (c.frame = none → c.phase = .compute → exec (.yield d) s = .next (s.raise 0x03 0 0x4B 0)) ∧
       (c.frame = none → c.phase = .exchange → yields (.yield d) (liveAll c.shareSize)) ∧
       (c.phase = .exchange → exec (.yieldPoll d) s = .next (lateNext s d (match (s.context c.ctx).pre with
         | none => 0
         | some p => if (s.context c.ctx).stored = true then 0 else if p.at_ + 1000 * p.g ≤ s.now then 3
           else BitVec.ofNat 64 (1 + 2 ^ 32 * min ((p.at_ + 1000 * p.g - s.now) / 1000) (2 ^ 32 - 1))))))) ∧
  (∀ (s u : State) (ctx rno : Nat) (h a : List (Nat × Nat)) (bs : List Byte) (r : WaitRec),
     let c := s.context ctx
     let prod := s.placesNat (cutPlaces h 0 8)
     let cons := s.placesNat (cutPlaces h 8 8)
     let apart (p q : Nat × Nat) : Prop := p.1 + p.2 ≤ q.1 ∨ q.1 + q.2 ≤ p.1
     (s.ringAt ctx c.tring 40 .write = some h → prod < cons ∨ cons < c.cons ∨ 2 ^ c.tlg ≤ prod - cons →
       ∃ v, s.ringPut ctx bs = .full v ∧ v.mem = s.mem) ∧
     (s.ringAt ctx c.tring 40 .write = none → s.ringPut ctx bs = .fault s) ∧
     (s.ringAt ctx c.tring 40 .write = some h → cons ≤ prod → c.cons ≤ cons → prod - cons < 2 ^ c.tlg →
       ∀ s1, s1 = (s.modCtx ctx fun c => { c with cons := cons }) →
       s1.ringAt ctx (c.tring + 64 + 64 * (prod % 2 ^ c.tlg)) 64 .write = some a → (h ++ a).Pairwise apart →
       (∀ q ∈ h ++ a, s.deadMem q.1 = false) → (h.map Prod.snd).sum = 40 → (a.map Prod.snd).sum = 64 → bs.length = 64 →
       ∃ v, s.ringPut ctx bs = .wrote v prod ∧ v.placesNat (cutPlaces h 0 8) = (prod + 1) % 2 ^ 64 ∧
         v.placesRead a = recordNumbered bs c.lostp prod ∧ v.core = s.core) ∧
     (c.wrecs = [] → exec (.trapRecordWrite ctx) s = .next s ∧ exec (.trapRecordDrop ctx) s = .next s) ∧
     ((∀ q ∈ c.wrecs, s.recHeld q = true) → exec (.trapRecordWrite ctx) s = .next s) ∧
     (c.wrecs = [r] → s.recHeld r = false → s.ringPut ctx r.bytes = .wrote u rno →
       exec (.trapRecordWrite ctx) s = .next ((u.answerRec r (r.word c.lostp rno)).modCtx ctx fun c => { c with wrecs := [] })) ∧
     (∀ w n, r.who = some n → (s.answerRec r w).coreAt n = { s.coreAt n with id := n, raised := (s.coreAt n).raised.map fun q =>
       { q with word := some w } }) ∧
     (∀ n, r.who = some n → s.recHeld r = decide ((s.coreAt n).role = .saved)) ∧ (r.who = none → s.recHeld r = false) ∧
     (∀ l, c.wrecs = r :: l → s.recHeld r = false → s.ringPut ctx r.bytes = .full u → exec (.trapRecordWrite ctx) s = .next u ∧
       ((∀ q ∈ c.wrecs, q.tired s.now = false) → exec (.trapRecordDrop ctx) s = .next u) ∧
       (r.tired s.now = true → exec (.trapRecordDrop ctx) s =
         .next ((u.ringLose ctx 0xFFFF false).modCtx ctx fun c => { c with wrecs := c.wrecs.erase r }))))

/-- R367 to R370: a request keeps the context's times, 0 selecting 50 µs and 500 µs; at G the running cores of the context
stop for full saves; at K a context whose save is unfinished is killed; before those times nothing happens. R369, R373, R375:
a save is made once every core of the context has stopped and has nothing under way; it goes to area A when that has room; a
resumed context's next task returns where its rectangle fits, from the area whose state is 2 with the higher generation. -/
def Obligations.PreemptionAndSaves : Prop :=
  (∀ (s : State) (ctx g k : Nat),
     let c := s.context ctx
     (∃ t, exec (.preemptRequest ctx g k) s = .next t ∧ (c.pre.isSome = true → t = s) ∧
       (c.pre = none → (t.context ctx).pre =
         some { at_ := s.now, g := if g = 0 then 50 else g, k := if k = 0 then 500 else k, halt := none } ∧ t.core = s.core)) ∧
     (c.pre = none → exec (.preemptGraceExpiry ctx) s = .next s ∧ exec (.preemptKillExpiry ctx) s = .next s) ∧
     ∀ p, c.pre = some p →
       (s.now < p.at_ + 1000 * p.g ∨ p.halt.isSome = true ∨ c.stored = true → exec (.preemptGraceExpiry ctx) s = .next s) ∧
       (p.at_ + 1000 * p.g ≤ s.now → p.halt = none → c.stored = false → ∃ t, exec (.preemptGraceExpiry ctx) s = .next t ∧ t = s.haltCtx ctx ∧
         (s.others = [] → s.core.ctx = ctx → s.core.chain.leader = s.core.id → s.core.role = .running → s.core.contained = false → s.core.route = none →
           (∀ e ∈ s.nets, e.2.mine s.core.id = none) → t.core.role = .saved ∧ t.core.pc = s.core.pc ∧
             t.core.retired = s.core.retired ∧
             (t.context ctx).saved = c.saved ++ [{ id := s.core.id, live := false, desc := [] }])) ∧
       (s.now < p.at_ + 1000 * p.k ∨ s.unsaved ctx = false → exec (.preemptKillExpiry ctx) s = .next s) ∧
       (p.at_ + 1000 * p.k ≤ s.now → s.unsaved ctx = true → exec (.preemptKillExpiry ctx) s = .next (s.killContext ctx 3))) ∧
  (∀ (s : State) (ctx core lid : Nat) (r : RunTask) (pin : List Nat),
     let c := s.context ctx
     (s.saveReady ctx = false → exec (.fullSave ctx) s = .next s) ∧
     (s.saveReady ctx = true → c.badA = false →
       s.areaOk c.pinA 0 (s.layout (s.stillSaved ctx)).used = true →
       ∃ t, exec (.fullSave ctx) s = .next t ∧ (t.context ctx).stored = true ∧ (t.context ctx).pre = c.pre ∧
         (t.context ctx).badA = false) ∧
     (s.nextAway ctx = none → s.unsaved ctx = true → exec (.contextResume ctx core) s = .next s) ∧
     (s.nextAway ctx = none → s.unsaved ctx = false → ∃ t, exec (.contextResume ctx core) s = .next t ∧
       (t.context ctx).pre = none ∧ (t.context ctx).saved = [] ∧ t.core = s.core) ∧
     (s.nextAway ctx = some (lid, r) → (s.resumeArea c = none → exec (.contextResume ctx core) s = .next s) ∧
       ∀ l, s.launches.find? lid = some l → s.resumeArea c = some pin →
         (s.awayFits l r core = none → exec (.contextResume ctx core) s = .next s) ∧
         (∀ ts, s.awayFits l r core = some ts →
           (∀ n ∈ rectCores core r.rows r.cols, (s.coreAt n).role = .idle) ∧ colOf core + r.cols ≤ 32 ∧ rowOf core + r.rows ≤ 8 ∧
             exec (.contextResume ctx core) s = .next (s.comeBack ctx pin lid r core ts))) ∧
     (s.resumeArea c = some pin → (pin = c.pinA ∨ pin = c.pinB) ∧ s.areaNat pin 0 8 = 2 ∧
       (s.areaNat c.pinA 0 8 = 2 → s.areaNat c.pinA 8 8 ≤ s.areaNat pin 8 8) ∧
       (s.areaNat c.pinB 0 8 = 2 → s.areaNat c.pinB 8 8 ≤ s.areaNat pin 8 8)))

/-! Experts (16_experts.md). -/

/-- R310, R311: pinning takes a token of the adopted version's in-flight network and keeps table and version in the slot;
releasing gives it back; an occupied slot, an empty one, and a table that does not exist are illegal. That `.cur` on a table
that does not exist is illegal too is the model's reading (notes/assumptions/42.md). R309, R317, R318: the end of an interval
acts when it is due on a table that is not fixed; a publication waits for the copies, takes the next version number, none
while five versions would be live, and nothing when nothing changed; a replica retires when its instance is quiet and no
pinned version lists it; a version stays while it is current, pinned or adopted. -/
def Obligations.ReplicaPinsAndPlacement : Prop :=
  (∀ (s u : State) (d a : XReg) (sl : Fin 4) (k w : Nat) (t : RTable) (v : Word) (p : Pin),
     let c := s.core
     let x := c.rx a
     (Free s { x := [a] } { x := [d] } →
       (s.tableOf x = none → exec (.rtpinPin d a sl) s = .next (s.raise 0x02 0 0x4E 0) ∧
         exec (.rtpinCur d a) s = .next (s.raise 0x02 0 0x4E 0)) ∧
       (s.tableOf x = some (k, t) → c.phase = .compute → exec (.rtpinCur d a) s = .next (s.raise 0x03 0 0x4E 0)) ∧
       (s.tableOf x = some (k, t) → c.phase = .exchange →
         exec (.rtpinCur d a) s = .next (lateNext s d (BitVec.ofNat 64 t.cur)) ∧
         (c.pins[sl].isSome = true → exec (.rtpinPin d a sl) s = .next (s.raise 0x02 0 0x4E 0)) ∧
         (c.pins[sl] = none → s.adoptedVer k t = w → s.count1 (.flight k w) c.id false = (u, some v) →
           exec (.rtpinPin d a sl) s =
             .next (lateNext (u.upd fun c => { c with pins := c.pins.set sl (some { tbl := k % 64, ver := w }) }) d
               (BitVec.ofNat 64 (w + 2 ^ 32 * (t.at_ w).length)))))) ∧
     (c.pins[sl] = none → exec (.rtpinRel sl) s = .next (s.raise 0x02 0 0x4E 0)) ∧
     (c.pins[sl] = some p → c.phase = .compute → exec (.rtpinRel sl) s = .next (s.raise 0x03 0 0x4E 0)) ∧
     (c.pins[sl] = some p → c.phase = .exchange →
       s.count1 (.flight (64 * (c.ctx / 16) + p.tbl) p.ver) c.id true = (u, some v) →
       exec (.rtpinRel sl) s =
         .next ((u.upd fun c => { c with pins := c.pins.set sl none }).prune (64 * (c.ctx / 16) + p.tbl)).retire) ∧
     (Free s {} { x := [d] } → c.phase = .exchange →
       exec (.rtpinHealth d) s = .next (lateNext s d (s.failed.setWidth 64)))) ∧
  (∀ (s : State) (tbl serial : Nat) (t : RTable), s.tables.find? tbl = some t →
     (t.fixed = true ∨ s.now < t.due → exec (.placementIntervalEnd tbl) s = .next s) ∧
     (t.fixed = false → t.due ≤ s.now → ∃ u m, exec (.placementIntervalEnd tbl) s = .next u ∧
       u.tables.find? tbl = some m ∧ m.loads = [] ∧ m.due = t.due + 1000 * t.ival ∧ m.pub = true ∧ (t.pub = false → m.cur = t.cur)) ∧
     (t.pub = false ∨ (t.copies.all fun c => c.done) = false → exec (.calderaPublish tbl) s = .next s) ∧
     (∀ v es, t.vers.find? v = some es → v = t.cur ∨ s.pinned tbl v = true ∨ s.adopted tbl v = true →
       ∃ m, (s.prune tbl).tables.find? tbl = some m ∧ m.vers.find? v = some es) ∧
     (t.pub = true → t.copies = [] →
       (s.nextExperts t = t.at_ t.cur → ∃ u m, exec (.calderaPublish tbl) s = .next u ∧ u.tables.find? tbl = some m ∧
         m.pub = false ∧ m.cur = t.cur ∧ m.vers = t.vers) ∧
       (s.nextExperts t ≠ t.at_ t.cur → s.fifth tbl = true → ∃ u m, exec (.calderaPublish tbl) s = .next u ∧
         u.tables.find? tbl = some m ∧ m.cur = t.cur ∧ m.vers = t.vers) ∧
       (s.nextExperts t ≠ t.at_ t.cur → s.fifth tbl = false → ∃ u m, exec (.calderaPublish tbl) s = .next u ∧
         u.tables.find? tbl = some m ∧ m.pub = false ∧ m.cur = (if (t.cur + 1) % 2 ^ 32 = 0 then 1 else (t.cur + 1) % 2 ^ 32) ∧
         m.at_ m.cur = s.nextExperts t)) ∧
     ((t.drain.find? fun q => q.2.serial = serial) = none → exec (.replicaRetire tbl serial) s = .next s) ∧
     ∀ e r, (t.drain.find? fun q => q.2.serial = serial) = some (e, r) →
       (∀ n, s.net (.cap tbl serial) = some n → n.quiet = false → exec (.replicaRetire tbl serial) s = .next s) ∧
       ((∀ n, s.net (.cap tbl serial) = some n → n.quiet = true) →
         (t.vers.any fun v => listed v.2 serial && s.pinned tbl v.1) = false →
         ∃ u m, exec (.replicaRetire tbl serial) s = .next u ∧ u.tables.find? tbl = some m ∧
           m.drain = t.drain.filter fun q => q.2.serial ≠ serial))

/-- R312 to R316: `ROUTE.disp` and `.redir` write what the rows give in row order, all in one turn when nothing else is
scheduled, and a choice beyond the table is illegal; a masked-off row draws nothing; a row goes to the replica that the
spreading count names, at the slot that the capacity count names, or its word says why it goes nowhere; `.close` ends the
round of a quiet capacity instance with the tokens it handed out; `.info` answers with the weights bases of the replicas that
valid words name, and with 0 for a word that is not valid. That the rows go in one turn only when nothing else is scheduled
is the model's choice (notes/assumptions/1.md). -/
def Obligations.Routing : Prop :=
  ∀ (s u u1 u2 : State) (d a : XReg) (vd va : VReg) (kc : Fin 8) (sl : Fin 4) (m : VMask) (p : Pin) (f : RouteRun) (k : Nat)
    (t : RTable) (r : Replica) (n : Net),
    let c := s.core
    let key := 64 * (c.ctx / 16) + p.tbl
    let es := match s.tables.find? key with | some t => t.at_ p.ver | none => []
    let choice (i j : Nat) : Nat := tileBytes (c.rv va) (4 * (i * (kc.val + 1) + j)) 4
    let inTable := ∀ i < c.rows, (c.rp m.p).getLsbD i = true → ∀ j ≤ kc.val, choice i j = 0xFFFFFFFF ∨ choice i j < es.length
    let w := (c.rx a).toNat
    let ins (redir : Bool) : Instr := if redir then .routeRedir vd va kc sl m else .routeDisp vd va kc sl m
    let run (redir : Bool) : RouteRun := { redir := redir, d := vd, tbl := key, ver := p.ver, a := c.rv va, kc := kc.val + 1
                                           p := c.rp m.p, z := m.z, rows := c.rows }
    (Free s { v := [va], p := [m.p] } { v := [vd] } → c.phase = .exchange → c.route = none →
      (c.pins[sl] = none → (∀ b, exec (ins b) s = .next (s.raise 0x02 0 0x4D 0)) ∧
        exec (.routeInfo vd va sl m) s = .next (s.raise 0x02 0 0x4D 0)) ∧
      (c.pins[sl] = some p → ¬ inTable → ∀ b, exec (ins b) s = .next (s.raise 0x02 0 0x4D 0)) ∧
      (c.pins[sl] = some p → inTable → ∀ b,
        (s.agenda = [] → s.routeRest c.id c.rows (run b) = (u, some f) →
          exec (ins b) s = .next (u.upd fun c => { c.lateV vd f.val f.mask with route := none }).retire) ∧
        (s.agenda ≠ [] → 1 < c.rows → s.routeNext c.id (run b) = (u, some f) →
          exec (ins b) s = .next (u.upd fun c => { c.waits with route := some f }))) ∧
      (c.pins[sl] = some p → (∀ i < c.rows, (c.rp m.p).getLsbD i = true →
          tileBytes (c.rv va) (8 * i) 8 / 2 ^ 40 % 512 < es.length) →
        ∃ (v : State) (q : Patch), exec (.routeInfo vd va sl m) s = .next (v.upd fun c => c.lateV vd q.val q.mask).retire ∧ v.core = c ∧
          v.mem = s.mem ∧ ∀ (old : Tile) (i : Nat), i < c.rows → i < 128 →
            let w := tileBytes (c.rv va) (8 * i) 8
            let new := tileElem (after old q.val q.mask) 8 i
            ((c.rp m.p).getLsbD i = false → new = if m.z then 0 else tileElem old 8 i) ∧
            ((c.rp m.p).getLsbD i = true → (w / 2 ^ 63 = 0 → new = 0) ∧
              ∀ x r, w / 2 ^ 63 = 1 → es[w / 2 ^ 40 % 512]? = some x → x.reps[w / 2 ^ 12 % 16]? = some r →
                new = r.wbase % 2 ^ 64))) ∧
    (Free s { x := [a] } { x := [d] } → w / 2 ^ 6 % 2 ^ 10 = 0 → w / 2 ^ 25 % 2 ^ 7 = 0 → w / 2 ^ 44 = 0 →
      s.tableOf (BitVec.ofNat 64 (w % 64)) = some (k, t) →
      (s.closing k t (w / 2 ^ 16 % 2 ^ 9) (w / 2 ^ 32 % 2 ^ 12) = none → exec (.routeClose d a) s = .next (s.raise 0x02 0 0x4D 0)) ∧
      (s.closing k t (w / 2 ^ 16 % 2 ^ 9) (w / 2 ^ 32 % 2 ^ 12) = some r → c.phase = .exchange →
        s.net (.cap k r.serial) = some n → n.lost = false →
        (n.quiet = false → ∃ v, exec (.routeClose d a) s = .next v ∧ v.core.pc = c.pc ∧ v.core.retired = c.retired) ∧
        (n.quiet = true → exec (.routeClose d a) s =
          .next (lateNext (s.modTable k fun t => { t with bases := t.bases.put r.serial n.total }) d
            (n.total - t.bases.get 0 r.serial))))) ∧
    (f.p.getLsbD f.row = false → ∃ q, s.routeNext c.id f = (s, some q) ∧ q.row = f.row + 1 ∧
      ∀ old : Tile, f.row < 128 → (∀ j < 64, f.mask.getLsbD (64 * f.row + j) = false ∧ f.val.getLsbD (64 * f.row + j) = false) →
        tileElem (after old q.val q.mask) 8 f.row = if f.z then 0 else tileElem old 8 f.row) ∧
    ∀ (redir spill inj : Bool) (i j e out : Nat) (l : List (Nat × Nat)) (x : Expert) (v y : Word) (q : Replica × Nat)
      (es : List Expert),
      let live := x.reps.zipIdx.filter fun q => !s.failed.getLsbD q.1.die
      let base := match u2.tables.find? k with | some t => t.bases.get 0 q.1.serial | none => 0
      let slot := (y - base).toNat
      s.routeRow i k es redir [] spill inj out = (s, inj, .word out) ∧
      (es[e]? = some x →
        (live = [] → x.pol = false → s.routeRow i k es redir ((j, e) :: l) spill inj out =
          (s, inj, .word (2 ^ 60 + 2 ^ 49 * j + 2 ^ 40 * e))) ∧
        (live = [] → x.pol = true → s.routeRow i k es redir ((j, e) :: l) spill inj out =
          s.routeRow i k es redir l spill inj (2 ^ 60 + 2 ^ 49 * j + 2 ^ 40 * e)) ∧
        (live ≠ [] → s.count1 (.spread k e) i false = (u1, some v) → live[v.toNat % live.length]? = some q →
          u1.count1 (.cap k q.1.serial) i false = (u2, some y) →
          (q.1.cap ≤ slot → x.pol = false → s.routeRow i k es redir ((j, e) :: l) spill inj out =
            (u2, true, .word (2 ^ 62 + 2 ^ 49 * j + 2 ^ 40 * e))) ∧
          (q.1.cap ≤ slot → x.pol = true → s.routeRow i k es redir ((j, e) :: l) spill inj out =
            u2.routeRow i k es redir l true true (2 ^ 62 + 2 ^ 49 * j + 2 ^ 40 * e)) ∧
          (slot < q.1.cap → ∃ w, s.routeRow i k es redir ((j, e) :: l) spill inj out = (u2, true, .word w) ∧
            (slot < 2 ^ 24 → e < 2 ^ 9 → j < 8 → q.1.core < 4096 → q.2 < 16 → w / 2 ^ 63 = 1 ∧ w % 2 ^ 12 = q.1.core ∧
              w / 2 ^ 12 % 16 = q.2 ∧ w / 2 ^ 16 % 2 ^ 24 = slot ∧ w / 2 ^ 40 % 2 ^ 9 = e ∧ w / 2 ^ 49 % 8 = j ∧
              (w / 2 ^ 61 % 2 = 1 ↔ redir = true) ∧ (w / 2 ^ 59 % 2 = 1 ↔ spill = true ∧ 0 < j)))))

/-! The vector unit (07_vector.md). -/

/-- R140 to R149, R155, R161: the element-wise instructions write each admitted row's elements from the operands' elements of
the same place, or from the broadcast scalar's low bits. -/
def Obligations.VectorElementwise : Prop :=
  ∀ (s : State) (m : VMask) (d a b2 c : VReg) (b : VSrc) (am : VAmt) (x : Option VX) (y : VX) (w : Word) (src : Ty)
    (sv : VSat) (fm : VMulFn) (fmm : VMmFn) (fc : VCmpFn) (fl : VLogFn) (fs : VShfFn) (fu : VSfuFn) (neg sub : Bool),
    let k := s.core
    let ty := x.bind VX.ty
    let rm := match x with | some v => v.rm | none => .frm
    let el (g : Geo) (r : VReg) (i : Nat) : Nat := tileElem (k.rv r) g.ty.size i
    let bb (g : Geo) (i : Nat) : Nat :=
      match b with | .vec r => tileElem (k.rv r) g.ty.size i | .xb q => (k.rx q).toNat % 2 ^ tyBits g.ty
    let regs (l : List VReg) : Regs :=
      match b with | .vec r => { v := l ++ [r], p := [m.p] } | .xb q => { x := [q], v := l, p := [m.p] }
    let amount (g : Geo) (i : Nat) : Nat :=
      match am with | .vec r => tileElem (k.rv r) g.ty.size i | .xb q => (k.rx q).toNat | .imm n => n.toNat
    let amountRegs : Regs :=
      match am with | .vec r => { v := [a, r], p := [m.p] } | .xb q => { x := [q], v := [a], p := [m.p] } | .imm _ => { v := [a], p := [m.p] }
    let width (g : Geo) : Nat := g.ty.size
    let bin (i : Instr) (op lat : Nat) (adm : Ty → Bool) (f : Ty → How → Nat → Nat → Nat → Nat → Elt) : Prop :=
      Masked s i op lat m d (regs [a]) ty rm adm (fun _ => true) Geo.cols width
        fun g h r j => f g.ty h r j (el g a (r * g.cols + j)) (bb g (r * g.cols + j))
    bin (.vadd sv m d a b x) 0x50 3 sv.admits (addElt false (sv = .sat)) ∧
    bin (.vsub sv m d a b x) 0x51 3 sv.admits (addElt true (sv = .sat)) ∧
    bin (.vmul fm m d a b x) 0x52 5 fm.admits (mulElt fm) ∧
    bin (.vminmax fmm m d a b x) 0x54 3 fmm.admits (fun t _ _ _ p q => minmaxElt fmm t p q) ∧
    bin (.vcmp fc m d a b x) 0x55 3 fc.admits (fun t _ _ _ p q => cmpElt fc t p q) ∧
    Masked s (.vfma neg sub m d a b c x) 0x53 5 m d (regs [a, c]) ty rm Ty.isIF (fun _ => true) Geo.cols width
      (fun g h r j => let i := r * g.cols + j; fmaElt neg sub g.ty h r j (el g a i) (bb g i) (el g c i)) ∧
    Masked s (.vsel m d a b2 c) 0x56 3 m d { v := [a, b2, c], p := [m.p] } none .frm Ty.isElem (fun _ => true) Geo.cols width
      (fun g _ r j => let i := r * g.cols + j; { bits := if el g c i ≠ 0 then el g a i else el g b2 i }) ∧
    Masked s (.vcvt sv m d a src y) 0x57 6 m d { v := [a], p := [m.p] } y.ty y.rm (sv.admitsCvt src)
      (fun g => g.rows * g.cols * src.size ≤ 1024) Geo.cols width
      (fun g h r j => eltConvert g.ty src (sv = .sat) h r j (tileElem (k.rv a) src.size (r * g.cols + j))) ∧
    Masked s (.vlog fl m d a b2) 0x58 3 m d { v := if fl = .not then [a] else [a, b2], p := [m.p] } none .frm Ty.isElem
      (fun _ => true) Geo.cols width
      (fun g _ r j => let i := r * g.cols + j; logElt fl g.ty (el g a i) (el g b2 i)) ∧
    Masked s (.vshf fs m d a am x) 0x59 3 m d amountRegs ty rm Ty.isInt
      (fun g => match am with | .imm n => n.toNat < tyBits g.ty | _ => true) Geo.cols width
      (fun g _ r j => let i := r * g.cols + j; shfElt fs g.ty (el g a i) (amount g i % tyBits g.ty)) ∧
    Masked s (.vsfu fu m d a x) 0x5A 10 m d { v := [a], p := [m.p] } ty rm Ty.isFloat (fun _ => true) Geo.cols width
      (fun g h r j => sfuElt fu g.ty h r j (el g a (r * g.cols + j))) ∧
    Masked s (.vclamp m d a b2 c x) 0x6C 3 m d { v := [a, b2, c], p := [m.p] } ty rm Ty.isIF (fun _ => true) Geo.cols width
      (fun g _ r j => let i := r * g.cols + j; clampElt g.ty (el g a i) (el g b2 i) (el g c i)) ∧
    Masked s (.vclampLiteral m d a w y) 0x6C 3 m d { v := [a], p := [m.p] } y.ty y.rm Ty.isIF (fun g => g.ty.size ≠ 8)
      Geo.cols width (fun g _ r j => clampElt g.ty (el g a (r * g.cols + j)) (w.toNat % 2 ^ tyBits g.ty)
        (w.toNat / 2 ^ 32 % 2 ^ tyBits g.ty)) ∧
    Masked s (.vrnd m d a x) 0x6D 6 m d { v := [a], p := [m.p] } ty rm Ty.isFloat (fun _ => true) Geo.cols width
      (fun g h r j => rndElt g.ty h r j (el g a (r * g.cols + j)))

/-- R94, R146 to R149: what the integer operations give for elements of `w` bits, taken as unsigned or two's-complement
numbers by the type; saturation clamps and raises its flag. -/
def Obligations.IntegerElementOperations : Prop :=
  ∀ (t : Ty) (h : How) (r k a b : Nat), t.isInt = true → a < 2 ^ tyBits t → b < 2 ^ tyBits t →
    let w := tyBits t
    let val (n : Nat) : Int := if t.isSigned = true ∧ 2 ^ (w - 1) ≤ n then (n : Int) - 2 ^ w else n
    let lo : Int := if t.isSigned then -2 ^ (w - 1) else 0
    let hi : Int := if t.isSigned then 2 ^ (w - 1) - 1 else 2 ^ w - 1
    let sat (e : Elt) (v : Int) : Prop := e.bits < 2 ^ w ∧ val e.bits = max lo (min hi v) ∧ e.flags = if lo ≤ v ∧ v ≤ hi then 0 else 32
    let plain (e : Elt) (n : Nat) : Prop := e.bits = n ∧ e.flags = 0 ∧ e.used = false
    plain (addElt false false t h r k a b) ((a + b) % 2 ^ w) ∧ plain (addElt true false t h r k a b) ((a + 2 ^ w - b) % 2 ^ w) ∧
    sat (addElt false true t h r k a b) (val a + val b) ∧ sat (addElt true true t h r k a b) (val a - val b) ∧
    plain (mulElt .plain t h r k a b) (a * b % 2 ^ w) ∧ sat (mulElt .sat t h r k a b) (val a * val b) ∧
    plain (mulElt .hi t h r k a b) ((val a * val b / 2 ^ w) % 2 ^ w).toNat ∧
    plain (minmaxElt .min t a b) (if val a < val b then a else b) ∧ plain (minmaxElt .max t a b) (if val a < val b then b else a) ∧
    plain (cmpElt .lt t a b) (if val a < val b then 2 ^ w - 1 else 0) ∧ plain (cmpElt .le t a b) (if val a ≤ val b then 2 ^ w - 1 else 0) ∧
    plain (cmpElt .eq t a b) (if a = b then 2 ^ w - 1 else 0) ∧ plain (cmpElt .ne t a b) (if a = b then 0 else 2 ^ w - 1) ∧
    (k < w → plain (shfElt .shl t a k) (a * 2 ^ k % 2 ^ w) ∧ plain (shfElt .shr t a k) (a / 2 ^ k) ∧
      ∀ i < w, (shfElt .sar t a k).bits.testBit i = if i + k < w then a.testBit (i + k) else a.testBit (w - 1)) ∧
    ∀ i < w, (logElt .and t a b).bits.testBit i = (a.testBit i && b.testBit i) ∧
      (logElt .or t a b).bits.testBit i = (a.testBit i || b.testBit i) ∧
      (logElt .xor t a b).bits.testBit i = (a.testBit i != b.testBit i) ∧
      (logElt .andn t a b).bits.testBit i = (a.testBit i && !b.testBit i) ∧ (logElt .not t a b).bits.testBit i = !a.testBit i

/-- R147, R150 to R154: moves, permutations, index tiles, masks, single elements and the shape. R121, R153: single elements
go out and in by column and row, within the geometry. -/
def Obligations.VectorMovesAndElements : Prop :=
  (∀ (s : State) (m : VMask) (d a b : VReg) (x : Option VX) (y : VX) (q : XReg) (w : Word) (st : BitVec 32) (p : PReg)
     (rows : Fin 32) (cols : Fin 2048) (ty : Ty),
     let k := s.core
     let o := x.bind VX.ty
     let rm := match x with | some v => v.rm | none => .frm
     let el (g : Geo) (i : Nat) : Nat := tileElem (k.rv a) g.ty.size i
     let width (g : Geo) : Nat := g.ty.size
     let moves (i : Instr) (op lat : Nat) (rd : List VReg) (adm : Ty → Bool) (f : Geo → Nat → Nat → Nat) : Prop :=
       Masked s i op lat m d { v := rd, p := [m.p] } o rm adm (fun _ => true) Geo.cols width fun g _ r j => { bits := f g r j }
     let v : Word := BitVec.ofNat 64 (rows.val + 1 + 2 ^ 16 * cols.val + 2 ^ 32 * ty.code)
     moves (.vmov .copy m d a x) 0x5F 3 [a] Ty.isElem (fun g r j => el g (r * g.cols + j)) ∧
     moves (.vmov .brow m d a x) 0x5F 3 [a] Ty.isElem (fun g _ j => el g j) ∧
     moves (.vmov .bcol m d a x) 0x5F 3 [a] Ty.isElem (fun g r _ => el g (r * g.cols)) ∧
     moves (.vperm m d a b x) 0x5D 6 [a, b] Ty.isElem (fun g r j =>
       let n := tileElem (k.rv b) g.ty.size (r * g.cols + j)
       if n < g.cols then el g (r * g.cols + n) else 0) ∧
     moves (.viota .col m d st x) 0x5E 3 [] Ty.isInt (fun g _ j => ((st.toInt + j) % 2 ^ tyBits g.ty).toNat) ∧
     moves (.viota .row m d st x) 0x5E 3 [] Ty.isInt (fun g r _ => ((st.toInt + r) % 2 ^ tyBits g.ty).toNat) ∧
     moves (.viota .lin m d st x) 0x5E 3 [] Ty.isInt (fun g r j => ((st.toInt + (r * g.cols + j : Nat)) % 2 ^ tyBits g.ty).toNat) ∧
     Masked s (.vmovScalar m d q y) 0x5F 3 m d { x := [q], p := [m.p] } y.ty y.rm Ty.isElem (fun _ => true) Geo.cols width
       (fun g _ _ _ => { bits := (k.rx q).toNat % 2 ^ tyBits g.ty }) ∧
     Masked s (.vmovLiteral m d w y) 0x5F 3 m d { p := [m.p] } y.ty y.rm Ty.isElem (fun _ => true) Geo.cols width
       (fun g _ _ _ => { bits := w.toNat % 2 ^ tyBits g.ty }) ∧
     Masked s (.vmaskExpand d p) 0x6B 3 { p := 0, z := false } d { p := [0, p] } none .frm Ty.isElem (fun _ => true) Geo.cols width
       (fun g _ r _ => { bits := if (k.rp p).getLsbD r then 2 ^ (8 * g.ty.size) - 1 else 0 }) ∧
     (Free s { v := [a] } { v := [d] } →
       (k.geo o Ty.isElem = none → exec (.vpermTr d a x) s = .next (s.raise 0x02 0 0x5D 0)) ∧
       ∀ g, k.geo o Ty.isElem = some g →
         (32 < g.cols → exec (.vpermTr d a x) s = .next (s.raise 0x02 0 0x5D 0)) ∧
         (g.cols ≤ 32 → Writes s (.vpermTr d a x) 6 d (k.how .rne) g.cols g.rows g.ty.size (BitVec.allOnes 32) false
           fun c r => { bits := el g (r * g.cols + c) })) ∧
     (∀ f : VMaskFn, Free s { v := [a] } { p := [p] } →
       (k.geo none Ty.isElem = none → exec (.vmask f p a) s = .next (s.raise 0x02 0 0x6B 0)) ∧
       ∀ g, k.geo none Ty.isElem = some g → 0 < g.cols → ∃ n : Mask, exec (.vmask f p a) s = .next (pNext s 3 p n) ∧
         ∀ r < 32, n.getLsbD r = true ↔ r < g.rows ∧ match f with
           | .any => ∃ j < g.cols, el g (r * g.cols + j) ≠ 0
           | .all => ∀ j < g.cols, el g (r * g.cols + j) ≠ 0
           | .col0 => el g (r * g.cols) ≠ 0) ∧
     (vsLegal v = true → exec (.vshape rows cols ty) s = .next (s.upd fun c => { c with vs := v }).retire) ∧
     (vsLegal v = false → exec (.vshape rows cols ty) s = .next (s.raise 0x02 0 0x60 0))) ∧
  (∀ (s : State) (d q r : XReg) (a v : VReg) (o : Option Ty) (g : Geo),
     let k := s.core
     let col := (k.rx q).toNat
     let row := (k.rx r).toNat
     let n := tileElem (k.rv a) g.ty.size (row * g.cols + col)
     (Free s { x := [q, r], v := [a] } { x := [d] } → k.geo o Ty.isElem = some g →
       (g.cols ≤ col ∨ g.rows ≤ row → exec (.vext d a q r o) s = .next (s.raise 0x02 0 0x6E 0)) ∧
       (col < g.cols → row < g.rows → exec (.vext d a q r o) s = .next (xNext s 3 d
         (if g.ty.isSigned then BitVec.ofInt 64 (intVal g.ty n) else BitVec.ofNat 64 n)))) ∧
     (Free s { x := [d, q, r] } { v := [v] } → k.geo o Ty.isElem = some g →
       (g.cols ≤ col ∨ g.rows ≤ row → exec (.vins v d q r o) s = .next (s.raise 0x02 0 0x6F 0)) ∧
       (col < g.cols → row < g.rows → ∃ t w, exec (.vins v d q r o) s = .next (vNext s 3 v t w) ∧ ∀ old : Tile,
         ∀ j < 1024 / g.ty.size, tileElem (after old t w) g.ty.size j =
           if j = row * g.cols + col then (k.rx d).toNat % 2 ^ tyBits g.ty else tileElem old g.ty.size j)))

/-- R156 to R160, R163, R164: records, block maxima, dot products, reductions and scans: which elements each row receives. In
the column scans the flags of a masked row's step join those of the next row that is written (the model's reading:
notes/assumptions/35.md). -/
def Obligations.VectorCombining : Prop :=
  ∀ (s : State) (m : VMask) (d a b c : VReg) (x : Option VX) (y : VX) (rec : Ty) (abs : Bool) (sv : VSat),
    let k := s.core
    let o := x.bind VX.ty
    let rm := match x with | some v => v.rm | none => .frm
    let width (g : Geo) : Nat := g.ty.size
    let el (g : Geo) (r : VReg) (i : Nat) : Nat := tileElem (k.rv r) g.ty.size i
    let line (g : Geo) (r : Nat) : List Nat := (List.range g.cols).map fun j => el g a (r * g.cols + j)
    let fits (g : Geo) : Bool := g.cols % 32 = 0 && g.rows * (g.cols / 32) * rec.size ≤ 1024
    let block (g : Geo) (r j : Nat) : List Machine.Num := (List.range 32).map fun i => tyValue g.ty (el g a (r * g.cols + 32 * j + i))
    let formed (f : Formed) : Elt := { bits := f.word, flags := f.flags, used := f.rounded }
    let one (j : Nat) (e : Elt) : Elt := if j = 0 then e else { bits := 0 }
    let comb (f : VRedFn) : Comb := match f with | .sum | .csum => .sum | .max | .cmax => .max | .min | .cmin => .min
    let red (f : VRedFn) : Prop := Masked s (.vred f m d a x) 0x5B 8 m d { v := [a], p := [m.p] } o rm Ty.isIF (fun _ => true)
      Geo.cols width fun g h r j => one j (combTree (comb f) g.ty h (fun i => (r, i)) 11 0 (line g r))
    let scan (f : VScanFn) (k : Comb) (ex : Bool) : Prop := Masked s (.vscan f m d a x) 0x5C 8 m d { v := [a], p := [m.p] } o rm
      Ty.isIF (fun _ => true) Geo.cols width fun g h r j =>
        (scanLine k ex g.ty h (fun i => (r, i))
          ((line g r).zipIdx.map fun q => { at_ := q.2, val := q.1, live := true })).getD j { bits := 0 }
    Masked s (.vpackUnpack m d a rec y) 0x66 6 m d { v := [a], p := [m.p] } y.ty y.rm Ty.isFloat fits Geo.cols width
      (fun g h r j => eltRound g.ty h r j (recValue rec
        (tileBytes (k.rv a) ((r * (g.cols / 32) + j / 32) * rec.size) rec.size) (j % 32))) ∧
    Masked s (.vpackPack m d a b rec y) 0x66 6 m d { v := [a, b], p := [m.p] } y.ty y.rm Ty.isFloat fits (·.cols / 32)
      (fun _ => rec.size) (fun g h r j => formed (packRec rec h.mode (fun i => h.draw r (32 * j + i))
        (tileBytes (k.rv b) (r * (g.cols / 32) + j) 1) (block g r j))) ∧
    Masked s (.vqnt m d a rec y) 0x6A 6 m d { v := [a], p := [m.p] } y.ty y.rm Ty.isFloat fits (·.cols / 32)
      (fun _ => rec.size) (fun g h r j => formed (quantRec rec h.mode (fun i => h.draw r (32 * j + i)) (block g r j))) ∧
    Masked s (.vbmax abs m d a x) 0x69 6 m d { v := [a], p := [m.p] } o rm Ty.isIF (fun g => g.cols % 32 = 0) Geo.cols width
      (fun g _ r j => if j < g.cols / 32 then blockMax abs g.ty (((line g r).drop (32 * j)).take 32) else { bits := 0 }) ∧
    Masked s (.vdot sv m d a b c x) 0x68 5 m d { v := [a, b, c], p := [m.p] } o rm sv.admitsDot
      (fun g => g.cols % (4 / g.ty.size) = 0) (fun g => g.cols / (4 / g.ty.size)) (fun _ => 4)
      (fun g h r j =>
        let n := 4 / g.ty.size
        let cc := tileElem (k.rv c) 4 (r * (g.cols / n) + j)
        let p (i : Nat) : Nat := el g a (r * g.cols + n * j + i)
        let q (i : Nat) : Nat := el g b (r * g.cols + n * j + i)
        if g.ty.isInt then
          let t : Ty := if g.ty.isSigned then .s32 else .n32
          let v := ((List.range n).map fun i => intVal g.ty (p i) * intVal g.ty (q i)).sum + intVal t cc
          if sv = .sat then intSat t v else { bits := intBits t v }
        else
          let w := dotSum h.mode ((tyValue .f32 cc, 0) :: (List.range n).map fun i => (tyValue g.ty (p i)).mul (tyValue g.ty (q i)))
          eltRound .f32 h r j w.1 w.2) ∧
    red .sum ∧ red .max ∧ red .min ∧ scan .sum .sum false ∧ scan .esum .sum true ∧ scan .max .max false ∧
    (∀ f, f = VRedFn.csum ∨ f = .cmax ∨ f = .cmin → Free s { v := [a], p := [m.p] } { v := [d] } → ∀ g, k.geo o Ty.isIF = some g →
      Writes s (.vred f m d a x) 8 d (k.how rm) 1 g.cols g.ty.size (BitVec.allOnes 32) false fun _ j =>
        combTree (comb f) g.ty (k.how rm) (fun i => (i, j)) 6 0
          (((List.range g.rows).filter fun r => (k.rp m.p).getLsbD r).map fun r => el g a (r * g.cols + j))) ∧
    ∀ f, f = VScanFn.csum ∨ f = .cesum → Free s { v := [a], p := [m.p] } { v := [d] } → ∀ g, k.geo o Ty.isIF = some g →
      let on (i : Nat) : Bool := (k.rp m.p).getLsbD i
      Writes s (.vscan f m d a x) 8 d (k.how rm) g.rows g.cols g.ty.size (k.rp m.p) m.z fun r j =>
        (scanLine .sum (f = .cesum) g.ty (k.how rm) (fun i => (i, j)) ((List.range g.rows).map fun i =>
          { at_ := i, live := on i, val := if on i then el g a (i * g.cols + j) else 0 })).getD r { bits := 0 }

/-- R40, R141, R165, R166: `VLD` and `VST` in the own share: the bytes of the admitted rows, readable or in place 5 slots on,
and nothing else. -/
def Obligations.TileLoadsAndStores : Prop :=
  ∀ (s : State) (d : VReg) (m : MAddr) (x : Option MX) (g : Geo),
    let c := s.core
    let k : VMask := match x with | some v => v.m | none => { p := 0, z := false }
    let a := c.ea m 16 (match x with | some v => v.imm | none => 0)
    let o := offset a
    let rb := g.cols * g.ty.size
    let n := g.rows * rb
    let regs := match m.off with | .disp _ => [m.base] | .index _ xi => [m.base, xi]
    let row (r : Nat) : Bool := (c.rp k.p).getLsbD r
    let live := (List.range g.rows).filter row
    c.geo (x.bind MX.ty) Ty.isElem = some g →
    (Free s { x := regs, p := [k.p] } { v := [d] } →
      (a.toNat % g.ty.size ≠ 0 ∨ s.resolve a n = none → exec (.vld d m x) s = .next (s.raise 0x05 a.toNat 0x61 0)) ∧
      (a.toNat % g.ty.size = 0 → tag a = 8 → 0 < n → o + n ≤ c.shareSize → (∀ r ∈ live, c.sharePoisoned (o + r * rb) rb = false) →
        ∃ t w, exec (.vld d m x) s = .next (vNext s 5 d t w) ∧ ∀ old : Tile,
          (∀ r < g.rows, ∀ j < rb, tileBytes (after old t w) (r * rb + j) 1 =
            if row r then (c.share.byte (o + r * rb + j)).toNat else if k.z then 0 else tileBytes old (r * rb + j) 1) ∧
          ∀ j < 1024, n ≤ j → tileBytes (after old t w) j 1 = tileBytes old j 1) ∧
      ∀ sp, a.toNat % g.ty.size = 0 → s.resolve a n = some sp → sp.isShare = false →
        (c.phase = .compute → exec (.vld d m x) s = .next (s.raise 0x03 0 0x61 0)) ∧
        ∀ u v ps bs, c.phase = .exchange → s.places .read (live.map fun r => (sp.plus (r * rb), rb)) = .ok u ps →
          u.readPlaces ps = (v, some bs) → ∃ t w, exec (.vld d m x) s = .next (v.upd fun c => c.lateV d t w).retire ∧
            ∀ old : Tile, ∀ q ∈ live.zip bs, tileBytes (after old t w) (q.1 * rb) rb = leNat q.2) ∧
    (Free s { x := regs, v := [d], p := [k.p] } {} →
      (a.toNat % g.ty.size ≠ 0 ∨ s.resolve a n = none → exec (.vst m d x) s = .next (s.raise 0x05 a.toNat 0x62 0)) ∧
      (a.toNat % g.ty.size = 0 → tag a = 8 → 0 < n → o + n ≤ c.shareSize → c.pend = [] →
        ∃ t, exec (.vst m d x) s = .next t ∧ t.core.retired = c.retired + 1 ∧
          (∀ i < 4, (slots i t.core).share = c.share) ∧ ∀ b, (slots 4 t.core).share.byte b =
            if o ≤ b ∧ b < o + n ∧ row ((b - o) / rb) = true then BitVec.ofNat 8 (tileBytes (c.rv d) (b - o) 1) else c.share.byte b) ∧
      ∀ sp, a.toNat % g.ty.size = 0 → s.resolve a n = some sp → sp.isShare = false →
        (c.phase = .compute → exec (.vst m d x) s = .next (s.raise 0x03 0 0x62 0)) ∧
        ∀ u ps, c.phase = .exchange → s.places .write (live.map fun r => (sp.plus (r * rb), rb)) = .ok u ps →
          exec (.vst m d x) s =
            .next (u.writePlaces ps (live.map fun r => leBytes rb (tileBytes (c.rv d) (r * rb) rb))).retire)

/-- R48 to R53, R167: the shaped forms: a record that fails R51 is a shape fault; a clipped unit reads as the pad and is not
written. Here the record's base lies in the own share. -/
def Obligations.ShapedTiles : Prop :=
  ∀ (s : State) (d : VReg) (a c e : XReg) (x : MX) (g : Geo) (rec : List Byte),
    let k := s.core
    let h := Shape.ofBytes rec
    let low (r : XReg) : Int := ((k.rx r).setWidth 32).toInt
    let w := Win.of g.cols g.rows (low c) (low e) (x.imm.setWidth 16).toInt ((x.imm >>> 16).setWidth 16).toInt
    let p := k.rp x.m.p
    let units := (h.units w).zipIdx.filter fun q => p.getLsbD (q.2 / g.cols)
    let inShare := tag h.base = 8 ∧ baseOffset h.base < k.shareSize
    k.geo x.ty Ty.isElem = some g →
    (Free s { x := [a, c, e], p := [x.m.p] } { v := [d] } →
      (k.shapeAt (k.rx a) = none → exec (.vldShaped d a c e x) s = .next (s.raise 0x06 (k.rx a).toNat 1 0)) ∧
      (k.shapeAt (k.rx a) = some rec → k.recordBad (k.rx a) = true →
        exec (.vldShaped d a c e x) s = .next (s.consume (k.rx a).toNat)) ∧
      (k.shapeAt (k.rx a) = some rec → k.recordBad (k.rx a) = false →
        (∀ row, s.judge h w (fun t => t = g.ty) false = .fails row →
          exec (.vldShaped d a c e x) s = .next (s.raise 0x06 (k.rx a).toNat row 0)) ∧
        ((∀ row, s.judge h w (fun t => t = g.ty) false ≠ .fails row) → inShare →
          (∀ q ∈ units, ∀ n, q.1 = some n → k.sharePoisoned n.toNat g.ty.size = false) →
          ∃ t m, exec (.vldShaped d a c e x) s = .next (vNext s 5 d t m) ∧ ∀ old : Tile, ∀ q ∈ units,
            tileElem (after old t m) g.ty.size q.2 =
              match q.1 with | none => leNat h.padUnit | some n => leNat (k.shareRead n.toNat g.ty.size)))) ∧
    (Free s { x := [a, c, e], v := [d], p := [x.m.p] } {} →
      (k.shapeAt (k.rx a) = none → exec (.vstShaped a c e d x) s = .next (s.raise 0x06 (k.rx a).toNat 1 0)) ∧
      (k.shapeAt (k.rx a) = some rec → k.recordBad (k.rx a) = false →
        (∀ row, s.judge h w (fun t => t = g.ty) true = .fails row →
          exec (.vstShaped a c e d x) s = .next (s.raise 0x06 (k.rx a).toNat row 0)) ∧
        ((∀ row, s.judge h w (fun t => t = g.ty) true ≠ .fails row) → inShare → ∃ t, exec (.vstShaped a c e d x) s = .next t ∧
          t.core.retired = k.retired + 1 ∧ t.mem = s.mem ∧ (k.pend = [] → (slots 4 t.core).share =
            (units.filterMap fun q => q.1.map fun n => (n.toNat, leBytes g.ty.size (tileElem (k.rv d) g.ty.size q.2))).foldl
              (fun m q => m.write q.1 q.2) k.share))))

/-- R169 to R174: the consuming load waits for its granules and empties them; indexed loads and stores check every element's
address; the heap sift lands in the own share 12 slots on, in the cluster-shared window before it retires. R173: what the
scheduled sift leaves when it lands: the K pairs of each row, every other byte of the share as it was; `.new` starts the row
over; the keys stand in the total order NaN < −∞ < … < −0 = +0 < … < +∞; a candidate enters only past the smallest key, takes
its place and goes down to the smaller child while that is less; the pairs that stay are those that were there and the
candidate, and a heap stays a heap. -/
def Obligations.OtherTileAccesses : Prop :=
  (∀ (s : State) (keep new : Bool) (d b : VReg) (a c : XReg) (ma : MAddr) (x : Option MX) (m : VMask) (p : PReg) (o : Option Ty)
     (n : Fin 16) (g : Geo),
     let k := s.core
     let mk : VMask := match x with | some v => v.m | none => { p := 0, z := false }
     let ad := k.ea ma 16 (match x with | some v => v.imm | none => 0)
     let rb := g.cols * g.ty.size
     let regs := match ma.off with | .disp _ => [ma.base] | .index _ xi => [ma.base, xi]
     let rows (q : PReg) : List Nat := (List.range g.rows).filter fun r => (k.rp q).getLsbD r
     let gs := (rows mk.p).flatMap fun r => granules (offset ad + r * rb) rb
     let elems (q : PReg) : List (Nat × Word) := indexed k g a b (k.rp q)
     let named := ad.toNat % 16 = 0 ∧ tag ad = 8 ∧ offset ad + g.rows * rb ≤ k.shareSize
     (k.geo (x.bind MX.ty) Ty.isElem = some g → Free s { x := regs, p := [mk.p] } { v := [d] } →
       (¬ named → exec (.vldf keep d ma x) s = .next (s.raise 0x05 ad.toNat 0x63 0)) ∧
       (named → k.phase = .compute → exec (.vldf keep d ma x) s = .next (s.raise 0x03 0 0x63 0)) ∧
       (named → k.phase = .exchange → (∃ i ∈ gs, k.full.contains i = false) →
         ∃ t, exec (.vldf keep d ma x) s = .next t ∧ t.core.pc = k.pc ∧ t.core.retired = k.retired ∧ t.core.waiting = true) ∧
       (named → k.phase = .exchange → (∀ i ∈ gs, k.full.contains i = true) →
         (∀ r ∈ rows mk.p, k.sharePoisoned (offset ad + r * rb) rb = false) →
         ∃ t w, exec (.vldf keep d ma x) s = .next (vNext
           (if keep then s else s.upd fun c => { c with full := c.full.filter fun i => !gs.contains i }) 1 d t w) ∧ ∀ old : Tile,
           (∀ r < g.rows, ∀ j < rb, tileBytes (after old t w) (r * rb + j) 1 =
             if (k.rp mk.p).getLsbD r then (k.share.byte (offset ad + r * rb + j)).toNat
             else if mk.z then 0 else tileBytes old (r * rb + j) 1) ∧
           ∀ j < 1024, g.rows * rb ≤ j → tileBytes (after old t w) j 1 = tileBytes old j 1)) ∧
     (k.geo o Ty.isElem = some g → Free s { x := [a], v := [b], p := [m.p] } { v := [d] } →
       (∀ w, s.places? g.ty.size (elems m.p) = .error w → exec (.vldx d a b m o) s = .next (s.raise 0x05 w.toNat 0x64 0)) ∧
       ∀ l, s.places? g.ty.size (elems m.p) = .ok l →
         let ends (t w : Tile) (bs : List (List Byte)) : Prop := ∀ old : Tile,
           (∀ q ∈ l.zip bs, tileElem (after old t w) g.ty.size q.1.1 = leNat q.2) ∧
           ∀ r < g.rows, (k.rp m.p).getLsbD r = false → ∀ j < g.cols,
             tileElem (after old t w) g.ty.size (r * g.cols + j) = if m.z then 0 else tileElem old g.ty.size (r * g.cols + j)
         ((l.all fun q => q.2.isShare) = true → (∀ q ∈ l, ∀ n, q.2 = .share n → k.sharePoisoned n g.ty.size = false) →
           ∃ t w, exec (.vldx d a b m o) s = .next (vNext s 5 d t w) ∧ ends t w (l.map fun q => match q.2 with
             | .share n => k.shareRead n g.ty.size | _ => [])) ∧
         ((l.all fun q => q.2.isShare) = false →
           (k.phase = .compute → exec (.vldx d a b m o) s = .next (s.raise 0x03 0 0x64 0)) ∧
           (k.phase = .exchange → ∀ u v ps bs, s.places .read (l.map fun q => (q.2, g.ty.size)) = .ok u ps →
             u.readPlaces ps = (v, some bs) →
             ∃ t w, exec (.vldx d a b m o) s = .next (v.upd fun c => c.lateV d t w).retire ∧ ends t w bs))) ∧
     (k.geo o Ty.isElem = some g → Free s { x := [a], v := [b, d], p := [p] } {} →
       (∀ w, s.places? g.ty.size (elems p) = .error w → exec (.vstx a b d p o) s = .next (s.raise 0x05 w.toNat 0x65 0)) ∧
       ∀ l, s.places? g.ty.size (elems p) = .ok l → (l.all fun q => q.2.isShare) = true →
         ∃ t, exec (.vstx a b d p o) s = .next t ∧ t.core.retired = k.retired + 1 ∧ t.mem = s.mem ∧
           (k.pend = [] → (slots 4 t.core).share = l.foldl (fun m q => match q.2 with
             | .share n => m.write n (leBytes g.ty.size (tileElem (k.rv d) g.ty.size q.1)) | _ => m) k.share)) ∧
     (k.geo none Ty.isElem = some g → Free s { x := [a, c], v := [b, d], p := [p] } {} →
       let h := k.rx a
       let col := (k.rx c).toNat
       let sift (r : Nat) : HeapRow := { off := offset h + 128 * r, key := tileElem (k.rv b) 4 (r * g.cols + col)
                                         val := tileElem (k.rv d) 4 (r * g.cols + col) }
       (g.ty.size ≠ 4 ∨ g.cols ≤ col → exec (.hsift n new a b d c p) s = .next (s.raise 0x02 0 0x67 0)) ∧
       (g.ty.size = 4 → col < g.cols → h.toNat % 8 = 0 → tag h = 8 → offset h + 128 * g.rows ≤ k.shareSize →
         exec (.hsift n new a b d c p) s =
           .next (s.upd fun c => c.later 12 (.heap (n.val + 1) new ((rows p).map sift))).retire) ∧
       (g.ty.size = 4 → col < g.cols → h.toNat % 8 = 0 → tag h = 9 → offset h + 128 * g.rows ≤ s.winSize →
         (k.phase = .compute → exec (.hsift n new a b d c p) s = .next (s.raise 0x03 0 0x67 0)) ∧
         (k.phase = .exchange → s.stores = [] → (s.cluster (clusterOf k.id)).wpois = [] →
           ∃ t, exec (.hsift n new a b d c p) s = .next t ∧ t.core.retired = k.retired + 1 ∧
             (t.cluster (clusterOf k.id)).window = ((rows p).map sift).foldl (fun m r =>
               m.write r.off (((if new then Heap.fresh (n.val + 1)
                 else Heap.ofBytes (n.val + 1) (m.read r.off (8 * (n.val + 1)))).enter r.key r.val).bytes))
               (s.cluster (clusterOf k.id)).window)))) ∧
  ((∀ u v : Nat, u < 2 ^ 32 → v < 2 ^ 32 →
     let x := fmtF32.value u
     let y := fmtF32.value v
     (heapKey u < heapKey v ↔ (x.isNan = true ∧ y.isNan = false) ∨ x.lt y = true)) ∧
   (∀ (c : Core) (q : Pend) (n : Nat) (new : Bool) (r : HeapRow), 0 < n → n ≤ 16 → r.off + 128 ≤ c.shareSize →
     (new = false → c.sharePoisoned r.off (8 * n) = false) → q.land = .heap n new [r] →
     let old : Heap := if new then List.replicate n (0xFF800000, 0xFFFFFFFF) else
       (List.range n).map fun j => (leNat (c.shareRead (r.off + 8 * j) 4), leNat (c.shareRead (r.off + 8 * j + 4) 4))
     let h := old.enter r.key r.val
     (∀ j < n, leNat ((c.land q).shareRead (r.off + 8 * j) 4) = (h.getD j (0, 0)).1 % 2 ^ 32 ∧
       leNat ((c.land q).shareRead (r.off + 8 * j + 4) 4) = (h.getD j (0, 0)).2 % 2 ^ 32) ∧
     ∀ b, b < r.off ∨ r.off + 8 * n ≤ b → (c.land q).share.byte b = c.share.byte b) ∧
   ∀ (h : Heap) (key val : Nat),
     (∀ m j, Heap.sift m h j = match m with
       | 0 => h
       | m + 1 =>
         if h.length ≤ 2 * j + 1 then h
         else
           let i := if 2 * j + 2 < h.length ∧ h.key (2 * j + 2) < h.key (2 * j + 1) then 2 * j + 2 else 2 * j + 1
           if h.key i < h.key j then Heap.sift m ((h.set j (h.getD i (0, 0))).set i (h.getD j (0, 0))) i else h) ∧
     (h.enter key val).length = h.length ∧
     (heapKey key ≤ h.key 0 → h.enter key val = h) ∧
     (h ≠ [] → h.key 0 < heapKey key →
       h.enter key val = Heap.sift h.length (h.set 0 (key, val)) 0 ∧ (h.enter key val).Perm (h.set 0 (key, val))) ∧
     ((∀ i j, i < h.length → j < h.length → (j = 2 * i + 1 ∨ j = 2 * i + 2) → h.key i ≤ h.key j) →
       let q := h.enter key val
       ∀ i j, i < q.length → j < q.length → (j = 2 * i + 1 ∨ j = 2 * i + 2) → q.key i ≤ q.key j))

/-! The matrix unit (08_matrix.md). -/

/-- R182, R183, R190 to R198: the issue of a matrix command: its predicate, its checks, and the queue of two that it joins
with the number that `%sqn` holds. A map takes effect when nothing stands before it. A K that the record's type does not
admit is reported as row 2 (notes/assumptions/73.md), and an illegal literal map traps as an illegal register value does
(notes/assumptions/74.md): the model's choice and reading. R197: what each selector of `MSTAT` reads, and which reads clear.
-/
def Obligations.MatrixCommandsAndStatus : Prop :=
  (∀ (s : State) (q : QuadOp) (acc : BankOp) (a b c d e : XReg) (k : Fin 1024) (n : Fin 256) (nt nv md : Fin 8)
     (st : Fin 16384) (pe : PReg) (neg accz clr : Bool) (ty out : Ty) (rm : Rm) (v : Word) (rec : List Byte),
     let u := s.core
     let x (r : XReg) : Nat := (u.rx r).toNat
     let at_ (r : XReg) : Word := BitVec.ofNat 64 (offset (u.rx r))
     let isMap (m : MatrixCmd) : Bool := match m.ins with | .mmap _ | .mmapOwn | .mmapLiteral _ => true | _ => false
     let lies (r : XReg) (align n : Nat) : Prop := x r % align = 0 ∧ tag (u.rx r) = 8 ∧ offset (u.rx r) + n ≤ u.shareSize
     let traps (i : Instr) (cause addr info : Nat) : Prop := exec i s = .next (s.raise cause addr info 0)
     let joins (i : Instr) (ops : List Word) (shape : List Byte) (mode : Mode) : Prop :=
       let w : MatrixCmd := { ins := i, seq := u.sqn, ops := ops, shape := shape, frm := u.frm, seed := u.srseed, done := 0 }
       (2 ≤ u.matrix.length → exec i s = .next s.freeze) ∧
       (u.matrix.length < 2 → ∃ t, exec i s = .next t ∧ t.core.matrix = (u.matrix ++ [w]).dropWhile isMap ∧
         t.core.sqn = u.sqn + 1 ∧ t.core.retired = u.retired + 1 ∧ t.mem = s.mem ∧ t.clusters = s.clusters ∧
         t.core.srseed = if mode = .sr then u.srseed + 0xD1B54A32D192ED03 else u.srseed)
     let issues (i : Instr) (rd : List XReg) (claim : Prop) : Prop := Free s { x := rd, p := [pe] } {} →
       ((u.rp pe).getLsbD 0 = false → exec i s = .next s.retire) ∧ ((u.rp pe).getLsbD 0 = true → claim)
     let held := u.holdsQuad (u.bankOf acc).1 = true
     let h := Shape.ofBytes rec
     let o (r : XReg) : Int := ((u.rx r).setWidth 32).toInt
     let win := Win.of (max 1 (matUnits (h.ty.getD .n8) (k.val + 1))) (n.val + 1) (o b) (o c) 0 0
     let judged (row : Nat) : Prop := s.judge h win (fun t => t.isMat && matWhole t (k.val + 1)) false = .fails row
     let wl : Instr := .mwld q a b c k n pe
     let ma : Instr := .mma neg accz ty acc a b c st pe
     let mg : Instr := .mmg neg accz nt ty acc a b c e k n st pe
     let dr : Instr := .mdrain clr ty rm acc a b c n st pe
     let vb : Instr := .mvb out ty rm d a b c e nv pe
     let rows := x b / 256
     let kk := x e % 2 ^ 24
     let nn := x e / 2 ^ 32 % 2 ^ 24
     let pad (n : Nat) : Nat := (n + 15) / 16 * 16
     let rb := matRow ty kk
     let same : Prop := ∀ t, h.ty = some t → t.isMat = true → matClass t = matClass ty ∧ matWhole t kk = true
     let dims : Prop := 0 < kk ∧ 0 < nn ∧ x e / 2 ^ 24 % 2 ^ 8 = 0 ∧ x e / 2 ^ 56 = 0 ∧ matWhole ty kk = true
     let legalMap (v : Word) : Prop := ∀ g < 8, v.toNat / 2 ^ (8 * g) % 2 ^ 8 < 8
     let maps (i : Instr) (v : Word) : Prop := joins i [v] [] .rne ∧
       (u.matrix = [] → ∃ t, exec i s = .next t ∧ t.core.map = v ∧ t.core.matrix = [] ∧ t.core.mRd = u.sqn)
     issues wl [a, b, c] (
       (u.shapeAt (u.rx a) = none → traps wl 0x06 (x a) 1) ∧
       (u.shapeAt (u.rx a) = some rec → u.recordBad (u.rx a) = true → exec wl s = .next (s.consume (x a))) ∧
       (u.shapeAt (u.rx a) = some rec → u.recordBad (u.rx a) = false → (∀ row, judged row → traps wl 0x06 (x a) row) ∧
         ((∀ row, ¬ judged row) → (u.holdsQuad (u.quadOf q) = false → traps wl 0x02 0 0x70) ∧
           (u.holdsQuad (u.quadOf q) = true → joins wl [BitVec.ofInt 64 (o b), BitVec.ofInt 64 (o c)] rec .rne)))) ∧
     issues ma [a, b, c] (
       let legal : Prop := held ∧ 1 ≤ x b ∧ x b ≤ 256 ∧ x c + x b ≤ 256
       (¬ legal → traps ma 0x02 0 0x71) ∧ (legal → ¬ lies a 16 1 → traps ma 0x05 (x a) 0x71) ∧
       (legal → lies a 16 1 → joins ma [at_ a, u.rx b, u.rx c] [] .rne)) ∧
     issues mg [a, b, c, e] (
       let legal : Prop := held ∧ x b < 2 ^ 44
       (¬ legal → traps mg 0x02 0 0x72) ∧ (legal → ¬ lies a 16 1 → traps mg 0x05 (x a) 0x72) ∧
       (legal → lies a 16 1 → ¬ lies c 4 1 → traps mg 0x05 (x c) 0x72) ∧
       (legal → lies a 16 1 → lies c 4 1 → ¬ lies e 16 1 → traps mg 0x05 (x e) 0x72) ∧
       (legal → lies a 16 1 → lies c 4 1 → lies e 16 1 → joins mg [at_ a, u.rx b, at_ c, at_ e] [] .rne)) ∧
     issues dr [a, b, c] (
       let legal : Prop := held ∧ 1 ≤ rows ∧ rows ≤ 256 ∧ x b % 256 + rows ≤ 256 ∧ pad ((n.val + 1) * ty.size) ≤ 16 * st.val
       (¬ legal → traps dr 0x02 0 0x73) ∧ (legal → ¬ lies a 16 1 → traps dr 0x05 (x a) 0x73) ∧
       (legal → lies a 16 1 → ¬ lies c 8 8 → traps dr 0x05 (x c) 0x73) ∧
       (legal → lies a 16 1 → lies c 8 8 → joins dr [at_ a, u.rx b, at_ c] [] (u.how rm).mode)) ∧
     issues (.mzero acc pe) [] ((¬ held → traps (.mzero acc pe) 0x02 0 0x74) ∧ (held → joins (.mzero acc pe) [] [] .rne)) ∧
     issues (.mfuse md pe) [] (
       let legal : Prop := ∀ q < 4, (groupOf md.val q).members.length ≤ 1 ∨ u.holdsQuad q = true
       (¬ legal → traps (.mfuse md pe) 0x02 0 0x75) ∧ (legal → joins (.mfuse md pe) [] [] .rne)) ∧
     issues vb [d, a, b, c, e] (
       let n' := (nv.val + 1) * pad (nn * out.size)
       let n := nv.val * pad rb + rb
       let queued (bs : List Byte) : Prop :=
         (¬ lies d 16 n' → traps vb 0x05 (x d) 0x77) ∧ (lies d 16 n' → ¬ lies a 16 n → traps vb 0x05 (x a) 0x77) ∧
         (lies d 16 n' → lies a 16 n → ¬ lies c 8 8 → traps vb 0x05 (x c) 0x77) ∧
         (lies d 16 n' → lies a 16 n → lies c 8 8 → joins vb [at_ d, at_ a, u.rx b, at_ c, u.rx e] bs (u.how rm).mode)
       (u.shapeAt (u.rx b) = none → (¬ dims → traps vb 0x02 0 0x77) ∧ (dims → queued [])) ∧
       (u.shapeAt (u.rx b) = some rec → u.recordBad (u.rx b) = true → exec vb s = .next (s.consume (x b))) ∧
       (u.shapeAt (u.rx b) = some rec → u.recordBad (u.rx b) = false → (¬ dims → traps vb 0x02 0 0x77) ∧ (dims →
         (tag h.base ≠ 0 ∨ ¬ same → traps vb 0x02 0 0x77) ∧ (tag h.base = 0 → same → queued rec)))) ∧
     (Free s { x := [b] } {} →
       (¬ legalMap (u.rx b) → traps (.mmap b) 0x02 0 0x76) ∧ (legalMap (u.rx b) → maps (.mmap b) (u.rx b))) ∧
     (Free s {} {} → maps .mmapOwn (BitVec.ofNat 64 (u.id % 8 * 0x0101010101010101)) ∧
       (¬ legalMap v → traps (.mmapLiteral v) 0x02 0 0x76) ∧ (legalMap v → maps (.mmapLiteral v) v))) ∧
  (∀ (s : State) (d : XReg) (acc : BankOp), Free s {} { x := [d] } →
     let c := s.core
     let k := s.cluster (clusterOf c.id)
     let quads : List (Quad × Nat) := (List.range 4).map fun i => (k.quad i, i)
     let layout : Nat := k.mode + 16 * c.held.toNat + (quads.map fun q => 2 ^ (8 + q.2) * q.1.valid.toNat +
       2 ^ (12 + 5 * q.2) * q.1.ty.code + 2 ^ (32 + q.2) * q.1.failed.toNat + 2 ^ (36 + 2 * q.2) * q.1.spare).sum
     let reads (i : Instr) (u : State) (v : Word) : Prop :=
       (c.phase = .compute → exec i s = .next (s.raise 0x03 0 0x78 0)) ∧
       (c.phase = .exchange → exec i s = .next (lateNext u d v))
     let g := groupOf k.mode (c.bankOf acc).1
     reads (.mstatRd d) s (c.mRd.setWidth 64) ∧ reads (.mstatDone d) s (c.mDone.setWidth 64) ∧
     reads (.mstatCfg d) s (BitVec.ofNat 64 layout) ∧
     reads (.mstatNbf d) (s.upd fun c => { c with mvbFlags := 0 }) (c.mvbFlags.setWidth 64) ∧
     reads (.mstatErr d) (s.upd fun c => { c with mErr := none })
       (match c.mErr with | none => 0 | some (code, n) => BitVec.ofNat 64 (code + 2 ^ 32 * n.toNat)) ∧
     (c.holdsQuad (c.bankOf acc).1 = false → exec (.mstatFlags d acc) s = .next (s.raise 0x02 0 0x78 0)) ∧
     (c.holdsQuad (c.bankOf acc).1 = true → ∃ f : Flags,
       (∀ i < 6, f.getLsbD i = true ↔ ∃ q ∈ g.banks, ((k.quad q).flagsOf (c.bankOf acc).2).getLsbD i = true) ∧
       reads (.mstatFlags d acc)
         (s.modCluster (clusterOf c.id) fun k => k.modQuads g.banks fun q => q.setFlags (c.bankOf acc).2 0) (f.setWidth 64)))

/-- R181, R184, R185, R187, R191, R195, R196: a turn of a cluster's matrix unit with one requester: the command at the head
runs its turn and leaves the queue when it is complete; a core that does not hold the bank's place fails with code 4; `MZERO`
clears the bank; `MFUSE` regroups the quadrants that the task holds, and unlatches those whose group changes; a pass of `MMA`
accumulates row by row; an `MVB` whose record fails R51 ends with status 0x80 and count 0. -/
def Obligations.MatrixTurns : Prop :=
  ∀ (s : State) (n : Nat) (m : MatrixCmd), n < 4096 → (s.coreAt n).matrix = [m] →
    (∀ i < 8, n / 8 * 8 + i ≠ n → (s.coreAt (n / 8 * 8 + i)).matrix = []) →
    let u := s.focus n
    let cl := n / 8
    let k := s.cluster cl
    let turn : Instr := .matrixTurn ⟨cl, none⟩
    (∀ (acc : BankOp) (pe : PReg), m.ins = .mzero acc pe → ∃ t, exec turn s = .next t ∧ (t.coreAt n).matrix = [] ∧
      let q := u.core.bankOf acc
      let g := groupOf k.mode q.1
      let j := t.cluster cl
      if n % 8 ≠ 2 * g.home + q.2 then
        (s.coreAt n).mErr = none → (t.coreAt n).mErr = some (4, m.seq) ∧ j.quads = k.quads
      else if ∃ i ∈ g.members, (k.quad i).failed = true then
        ∀ i ∈ g.banks, (j.quad i).errOf q.2 = true ∧ (j.quad i).bank0 = (k.quad i).bank0 ∧ (j.quad i).bank1 = (k.quad i).bank1
      else ∀ i ∈ g.banks, (if q.2 = 0 then (j.quad i).bank0 else (j.quad i).bank1) = [] ∧ (j.quad i).flagsOf q.2 = 0 ∧
        (j.quad i).errOf q.2 = false ∧ (j.quad i).weights = (k.quad i).weights ∧ (j.quad i).valid = (k.quad i).valid ∧
        t.mem = s.mem) ∧
    (∀ (md : Fin 8) (pe : PReg), m.ins = .mfuse md pe → m.begun = false → ∃ t, exec turn s = .next t ∧ (t.coreAt n).matrix = [] ∧
      let new := fuseOn k.mode md.val u.core.held
      (t.cluster cl).mode = new ∧ (∀ i < 4, (t.cluster cl).quad i =
        if groupOf k.mode i = groupOf new i then k.quad i else { k.quad i with valid := false }) ∧
      (k.mode < 8 → (∀ i < 4, (groupOf md.val i).members.length ≤ 1 ∨ u.core.holdsQuad i = true) →
        (∀ i < 4, u.core.holdsQuad i = true → groupOf new i = groupOf md.val i) ∧
        ∀ i < 4, (∀ j ∈ (groupOf k.mode i).members, u.core.holdsQuad j = false) → groupOf new i = groupOf k.mode i)) ∧
    (∀ (neg accz : Bool) (ty : Ty) (acc : BankOp) (a b c : XReg) (st : Fin 16384) (pe : PReg),
      m.ins = .mma neg accz ty acc a b c st pe → m.done = 0 →
      let q := u.core.bankOf acc
      let g := groupOf k.mode q.1
      let w := k.quad g.home
      let off := (m.ops.getD 0 0).toNat
      let rows := (m.ops.getD 1 0).toNat
      let row0 := (m.ops.getD 2 0).toNat
      let a (i : Nat) : Nat := off + i * (16 * st.val)
      let len := matRow ty w.k
      n % 8 = 2 * g.home + q.2 → (∀ i ∈ g.members, (k.quad i).failed = false ∧ (k.quad i).struck = []) → w.valid = true → matClass ty = matClass w.ty →
      w.k ≤ g.kMax ty → w.n ≤ g.nMax → matWhole ty w.k = true → 0 < rows → rows ≤ 32 → a (rows - 1) + len ≤ u.core.shareSize →
      (∀ i < rows, u.core.sharePoisoned (a i) len = false) →
      (accz = false → ∀ i < rows, k.rowPoisoned g q.2 (row0 + i) w.n = false) →
      ∃ t, exec turn s = .next t ∧ (t.coreAt n).matrix = [] ∧ (t.coreAt n).mErr = (s.coreAt n).mErr ∧ t.mem = s.mem ∧
        ∀ r < 256, ∀ j < 256, (j < 128 ∨ g.wide = true) → (t.cluster cl).acc g q.2 r j =
          if row0 ≤ r ∧ r < row0 + rows ∧ j < w.n then
            (accumulate neg ty w.ty w.k (u.core.shareRead (a (r - row0)) len) (k.column g w.ty w.k j)
              (if accz then 2 ^ 31 else k.acc g q.2 r j)).1 % 2 ^ 32
          else k.acc g q.2 r j) ∧
    ∀ (out ty : Ty) (rm : Rm) (d a b c e : XReg) (nv : Fin 8) (pe : PReg), m.ins = .mvb out ty rm d a b c e nv pe →
      let op (i : Nat) : Nat := (m.ops.getD i 0).toNat
      let h := Shape.ofBytes m.shape
      let win := Win.of (matUnits (h.ty.getD .n8) (op 4 % 2 ^ 24)) (op 4 / 2 ^ 32 % 2 ^ 24) 0 0 0 0
      (m.shape = [] ∨ ∃ row, u.judge h win Ty.isMat false = .fails row) →
      ∃ t, exec turn s = .next t ∧ (t.coreAt n).matrix = [] ∧ t.stack = s.stack ∧
        (t.coreAt n).shareNat (op 3) 8 = 0x80 * 2 ^ 56 + m.seq.toNat

/-- R188: an accumulation of one element or one block adds one product, or one exact and scaled sum, with one rounding to
nearest even. -/
def Obligations.MatrixAccumulation : Prop :=
  ∀ (neg : Bool) (ta tb : Ty) (k : Nat) (a b : List Byte) (acc : Nat),
    let chain := matBlock ta = false ∧ matBlock tb = false
    let sign (x : Machine.Num) : Machine.Num := if neg then x.negate else x
    let rounds (n : Nat) (p : Machine.Num) : Nat := (tyRound .f32 .rne 0 ((tyValue .f32 n).add .rne p).1).1
    (accumulate neg ta tb 0 a b acc).1 = acc ∧
    (chain → (accumulate neg ta tb (k + 1) a b acc).1 =
      rounds (accumulate neg ta tb k a b acc).1 (sign ((rowElem ta a k).mul (rowElem tb b k)).1)) ∧
    (¬ chain → ∀ j n, 1 ≤ n → n ≤ 32 → ∀ p q, rowScale ta a j = some p → rowScale tb b j = some q →
      (accumulate neg ta tb (32 * j + n) a b acc).1 =
        rounds (accumulate neg ta tb (32 * j) a b acc).1 (sign (((blockSum ta tb a b (32 * j) n).1.scale p).scale q))) ∧
    (¬ chain → ∀ j n, 1 ≤ n → n ≤ 32 → (rowScale ta a j = none ∨ rowScale tb b j = none) →
      (accumulate neg ta tb (32 * j + n) a b acc).1 = rounds (accumulate neg ta tb (32 * j) a b acc).1 .nan)

/-- R186, R198 to R200: accepted `MVB`s run in the context and the launch of their issue: the oldest stays while units of B
are still to be read, and keeps none behind it waiting; when all its rows of B lie in one stack each and no access fails, its
elements are those of R188 from −0 converted, with the draw of the vector and the row of B (notes/assumptions/62.md); they
land granule by granule, in an order left open, and the stamp last. -/
def Obligations.NearBankProducts : Prop :=
  ∀ (s : State) (x : StackCmd) (rest : List StackCmd) (out ty : Ty) (rm : Rm) (d a b c e : XReg) (nv : Fin 8) (pe : PReg),
    let u := (s.focus x.core).upd fun c => { c with ctx := x.ctx, launch := x.launch }
    let op (i : Nat) : Nat := (x.cmd.ops.getD i 0).toNat
    (s.stack = [] → exec .mvbStackExecute s = .next s) ∧
    (s.stack = x :: rest → (∀ y ∈ rest, x.is y = false) → x.core < 4096 → x.out = none →
      x.cmd.ins = .mvb out ty rm d a b c e nv pe →
      let k := op 4 % 2 ^ 24
      let n := op 4 / 2 ^ 32 % 2 ^ 24
      let h := Shape.ofBytes x.cmd.shape
      let t := h.ty.getD .n8
      let ku := matUnits t k
      let tr := u.readWindow x.cmd.seq h (Win.of ku n 0 0 0 0) x.xfer
      let y := tr.2.1
      let row (i : Nat) := (y.held.drop (i * ku)).take ku
      let rb := rowPad (n * out.size)
      let sz := out.size
      let how : How := { mode := Mode.pick rm x.cmd.frm.toNat, seed := x.cmd.seed }
      (tr.2.2 = false → ∃ w, exec .mvbStackExecute s = .next w ∧ w.core.id = s.core.id ∧
        w.stack.head? = some { x with rep := x.rep || y.parked ≠ [], xfer := y } ∧
        ∀ z zs i, rest = z :: zs → (∀ y ∈ zs, z.is y = false) → z.out = some [i] → w.stack.tail = zs) ∧
      (tr.2.2 = true → y.fail = none → y.held.length = n * ku → 0 < ku → (∀ i < n, oneStack (row i) = true) → 16 % sz = 0 →
        ∃ w items, exec .mvbStackExecute s = .next w ∧ w.core.id = s.core.id ∧ w.stack = { x with out := some items } :: rest ∧
          items.getLast? =
            some { dest := x.core, off := op 3, data := [], stamp := some (if x.rep then 3 else 1, (nv.val + 1) * n) } ∧
          ∀ j < x.data.length, ∀ i < n, ∃ g ∈ items, g.dest = x.core ∧ g.stamp = none ∧
            g.off = op 0 + j * rb + i * sz / 16 * 16 ∧ leNat ((g.data.drop (i * sz % 16)).take sz) =
              (eltConvert out .f32 false how j i (accumulate false ty t k (x.data.getD j []) ((row i).flatMap fun q => q.data)
                (2 ^ 31)).1).bits % 2 ^ (8 * sz))) ∧
    (s.stack = x :: rest → (∀ y ∈ rest, x.is y = false) → x.core < 4096 → (s.coreAt x.core).launch = x.launch →
      ∀ (l : List DrainItem) (st : DrainItem) (status count : Nat), x.out = some (l ++ [st]) → st.stamp = some (status, count) →
        (∀ g ∈ l ++ [st], g.dest = x.core ∧ g.off < (s.coreAt x.core).shareSize) → (∀ g ∈ l, g.stamp = none) →
        (l ≠ [] → ∃ g ∈ l, ∃ w, exec .mvbStackExecute s = .next w ∧ w.stack = { x with out := some (l.erase g ++ [st]) } :: rest ∧
          (w.coreAt x.core).share = ((s.coreAt x.core).arrive g.off g.data).share) ∧
        (l = [] → ∃ w, exec .mvbStackExecute s = .next w ∧ w.stack = rest ∧ (w.coreAt x.core).shareNat st.off 8 =
          (status * 2 ^ 56 + min count (2 ^ 24 - 1) * 2 ^ 32 + x.cmd.seq.toNat) % 2 ^ 64))

/-! Pooled engines and privileged instructions (19_isolation.md, 21_traps.md R376). -/

/-- R342, R343: what `LEASE.get`, `.cmd` and `.rel` answer, who waits, who is granted an engine, and how a lease ends. That a
free engine without a waiter goes to a copy of Caldera's, with one command for the stretch at hand, is the model's choice
(notes/assumptions/14.md). R338, R343, R344: a pooled engine takes the oldest command of its lease a step on: a malformed
descriptor and a failure stamp status 0x80, a complete command 0x01, or 0x03 when a unit had to wait; a unit of a copy
carries the source's bytes, one of a fill the pattern, one of an addition the f32 sums of the two; a granule that lands is
written. -/
def Obligations.LeasesAndPooledCommands : Prop :=
  (∀ (s : State) (d a b : XReg) (die eng : Nat),
     let c := s.core
     let w := c.rx a
     let refuses (i : Instr) (u : State) (code : Nat) : Prop := exec i s = .next (lateNext u d (BitVec.ofNat 64 (2 ^ 63 + code)))
     let p := s.myPart
     let waiter : LeaseWait := { die := w.toNat, core := c.id, part := p }
     let others := s.lwaits.filter fun q => q.core ≠ c.id
     let u : State := { s with lwaits := others }
     let full := (s.part p).lq ≤ u.leaseUse p w.toNat
     let busy (e : Nat) : Prop := s.leases.find? (16 * w.toNat + e) ≠ none
     (Free s { x := [a] } { x := [d] } →
       (16 ≤ w.toNat → exec (.leaseGet d a) s = .next (s.raise 0x02 0 0x7A 0)) ∧
       (w.toNat < 16 → c.phase = .compute → exec (.leaseGet d a) s = .next (s.raise 0x03 0 0x7A 0)) ∧
       (w.toNat < 16 → c.phase = .exchange → c.waiting = false →
         (s.dieOfPart p w.toNat = false → refuses (.leaseGet d a) u 3) ∧
         (s.dieOfPart p w.toNat = true → full → refuses (.leaseGet d a) u 2) ∧
         (s.dieOfPart p w.toNat = true → ¬ full →
           (∀ e < 16, busy e) ∨ (∃ q ∈ others, q.die = w.toNat ∧ s.stillWaits q = true) → ∃ t, exec (.leaseGet d a) s = .next t ∧
           t.lwaits = others ++ [waiter] ∧ t.core.waiting = true ∧ t.core.pc = c.pc ∧ t.leases = s.leases) ∧
         (s.dieOfPart p w.toNat = true → ¬ full → (∀ q ∈ others, q.die = w.toNat → s.stillWaits q = false) →
           ∀ e < 16, ¬ busy e → (∀ f < e, busy f) → ∃ t sn, exec (.leaseGet d a) s =
             .next (lateNext t d (BitVec.ofNat 64 (e + 16 * w.toNat + 256 * sn))) ∧ sn ≠ 0 ∧ sn < 2 ^ 32 ∧
             ∃ l : Lease, t.leases.find? (16 * w.toNat + e) = some l ∧ l.ctx = c.ctx ∧ l.serial.toNat = sn ∧
               l.ends = s.now + 10000 ∧ l.cmds = [] ∧ l.rel = false))) ∧
     (Free s { x := [a, b] } { x := [d] } → ∀ rec, w.toNat < 2 ^ 40 → c.shapeAt (c.rx b) = some rec →
       let st := BitVec.ofNat 64 (leNat ((rec.drop 32).take 8))
       let stamped := st.toNat % 8 = 0 ∧ tag st = 8 ∧ offset st + 8 ≤ c.shareSize
       let mine (l : Lease) : Prop := s.leases.find? (w.toNat % 256) = some l ∧ l.serial.toNat = w.toNat / 256 ∧ l.ctx = c.ctx
       (¬ stamped → exec (.leaseCmd d a b) s = .next (s.raise 0x05 st.toNat 0x7A 0)) ∧
       (stamped → c.phase = .exchange → c.sharePoisoned (offset (c.rx b)) 64 = false →
         ((∀ l, mine l → l.rel = true) → refuses (.leaseCmd d a b) s 4) ∧
         ∀ l, mine l → l.rel = false →
           (4 ≤ l.cmds.length → refuses (.leaseCmd d a b) s 5) ∧
           (l.cmds.length < 4 → ∃ t m, exec (.leaseCmd d a b) s = .next (lateNext t d (BitVec.ofNat 64 l.count)) ∧
             t.leases.find? (w.toNat % 256) = some { l with cmds := l.cmds ++ [m], count := l.count + 1 } ∧
             m.desc = rec ∧ m.core = c.id ∧ m.num = l.count))) ∧
     (Free s { x := [a] } {} →
       (2 ^ 40 ≤ w.toNat → exec (.leaseRel a) s = .next (s.raise 0x02 0 0x7A 0)) ∧
       (w.toNat < 2 ^ 40 → c.phase = .exchange → ∀ l, s.leases.find? (w.toNat % 256) = some l → l.serial.toNat = w.toNat / 256 →
         l.ctx = c.ctx → ∃ t : State, exec (.leaseRel a) s = .next t.retire ∧ t.core = c ∧ t.leases.find? (w.toNat % 256) =
           if l.cmds = [] then none else some { l with rel := true })) ∧
     (let q := s.lwaits.filter fun q => q.die ≠ die || s.stillWaits q
       let free (e : Nat) : Prop := s.leases.find? (16 * die + e) = none
       (∀ x, q.find? (fun q => q.die = die) = some x → ∀ e < 16, free e → (∀ f < e, ¬ free f) →
         ∃ t l, exec (.leaseGrant die) s = .next t ∧ t.leases.find? (16 * die + e) = some l ∧ l.ctx = (s.coreAt x.core).ctx ∧
           l.core = x.core ∧ l.ends = s.now + 10000 ∧ t.lwaits = q.filter (fun y => y.core ≠ x.core) ∧
           (t.coreAt x.core).stage = e + 16 * die + 256 * l.serial.toNat) ∧
       ((q.find? fun q => q.die = die) = none ∧ s.waitingCopy die = none ∨ (∀ e < 16, ¬ free e) →
         ∃ t, exec (.leaseGrant die) s = .next t ∧ t.leases = s.leases ∧ t.lwaits = q) ∧
       ∀ k c t x src w, (q.find? fun q => q.die = die) = none → s.waitingCopy die = some (k, c) → s.tables.find? k = some t →
         s.copyOf k c.rep.serial = some (x, src, w) → ({ s with lwaits := q } : State).leaseUse (k / 64) die < (s.part (k / 64)).lq →
         ∀ e < 16, free e → (∀ f < e, ¬ free f) → ∃ u l m, exec (.leaseGrant die) s = .next u ∧
           u.leases.find? (16 * die + e) = some l ∧ l.ctx = t.ctx ∧ l.ends = s.now + 10000 ∧ l.cmds = [m] ∧
           l.copy = some (k, c.rep.serial) ∧ m.get 0 1 = 0 ∧ m.get 8 8 = (src + c.off) % 2 ^ 64) ∧
     (s.leases.find? (16 * die + eng) = none → exec (.leaseExpiry die eng) s = .next s) ∧
     ∀ l, s.leases.find? (16 * die + eng) = some l →
       (s.now < l.ends → exec (.leaseExpiry die eng) s = .next s) ∧
       (l.ends ≤ s.now → ∃ t, exec (.leaseExpiry die eng) s = .next t ∧ t.leases.find? (16 * die + eng) = none ∧
         (l.copy = none → ∀ k ≠ 16 * die + eng, t.leases.find? k = s.leases.find? k))) ∧
  (∀ (s : State) (die eng g : Nat) (l : Lease) (m : PooledCmd) (ms : List PooledCmd),
     s.leases.find? (16 * die + eng) = some l → l.cmds = m :: ms → s.now < l.ends → l.copy = none →
     let i : Instr := .pooledEngineCommand die ⟨eng, g⟩
     let who (u : Nat) : Who := { w := .lease die eng u, ctx := l.ctx, core := m.core, seq := BitVec.ofNat 32 (m.sqn l), eng := true }
     let run := s.pooledStep die who (l.ctx / 16) none m g
     let o := offset (BitVec.ofNat 64 (m.get 32 8))
     let k := m.xfer.next
     let stamped (t u : State) (status units : Nat) : Prop :=
       t.leases.find? (16 * die + eng) = (if l.rel = true ∧ ms = [] then none else some { l with cmds := ms }) ∧
       ((u.coreAt m.core).ctx = l.ctx → o + 8 ≤ (u.coreAt m.core).shareSize →
         (t.coreAt m.core).shareNat o 8 = (status * 2 ^ 56 + min units (2 ^ 24 - 1) * 2 ^ 32 + m.sqn l) % 2 ^ 64)
     let goes (u : State) (n : PooledCmd) : Prop := ∃ t, exec i s = .next t ∧ t.mem = u.mem ∧
       t.leases.find? (16 * die + eng) = some { l with cmds := n :: ms }
     let first : Prop := m.bad = false ∧ m.made = none ∧ m.xfer = { next := k } ∧ k < m.get 24 8 / 16
     let held (u : State) (ps : List Piece) (bs : List Byte) (f : Flags) : Prop := ∃ v : State, v.mem = u.mem ∧
       (f = 0 → v = u) ∧
       goes v { m with xfer := { next := k + 1, passed := k + 1, ready := [{ units := [k], place := .mem ps, data := bs }] } }
     (m.bad = true → ∃ t, exec i s = .next t ∧ stamped t s 0x80 m.moved) ∧
     (m.bad = false →
       (∀ u n, run = .more u n → goes u n) ∧
       (∀ u n, run = .done u n → n.num = m.num → n.desc = m.desc → n.core = m.core → ∃ t, exec i s = .next t ∧
         stamped t u (if n.waited then 0x03 else 0x01) n.moved ∧ t.mem = u.mem) ∧
       ∀ u n f j, run = .fails u n f j → n.num = m.num → n.desc = m.desc → n.core = m.core → ∃ t, exec i s = .next t ∧
         stamped t u 0x80 n.moved) ∧
     (first → m.get 0 1 = 1 → ∀ u ps, s.translateRange (who k) (m.get 16 8 + 16 * k) 16 .write = .ok u ps → ∃ bs : List Byte,
       held u ps bs 0 ∧ bs.length = 16 ∧ ∀ j < 16, bs[j]? = some (BitVec.ofNat 8 (m.get 40 8 / 2 ^ (8 * (j % 8))))) ∧
     (first → m.get 0 1 = 0 → ∀ u v qs ps, s.translateRange (who k) (m.get 8 8 + 16 * k) 16 .read = .ok u qs →
       u.piecesPoison qs = false → u.stores = [] → u.translateRange (who k) (m.get 16 8 + 16 * k) 16 .write = .ok v ps →
       held v ps (u.readPieces qs) 0) ∧
     (first → m.get 0 1 = 2 → ∀ u v x as bs ps, s.translateRange (who k) (m.get 8 8 + 16 * k) 16 .read = .ok u as →
       u.piecesPoison as = false → u.translateRange (who k) (m.get 16 8 + 16 * k) 16 .read = .ok v bs → v.piecesPoison bs = false →
       u.stores = [] → v.stores = [] → v.translateRange (who k) (m.get 16 8 + 16 * k) 16 .write = .ok x ps →
       (u.readPieces as).length = 16 → (v.readPieces bs).length = 16 →
       let lane (l : List Byte) (j : Nat) : Nat := leNat ((l.drop (4 * j)).take 4)
       let sum (j : Nat) : Nat × Flags := atomNew .fadd 4 (lane (v.readPieces bs) j) (lane (u.readPieces as) j) 0
       ∃ (d : List Byte) (f : Flags), held x ps d f ∧ d.length = 16 ∧ f = (sum 0).2 ||| (sum 1).2 ||| (sum 2).2 ||| (sum 3).2 ∧
         ∀ j < 4, lane d j = (sum j).1 % 2 ^ 32) ∧
     (m.bad = false → s.stores = [] → ∀ q x, m.xfer.ready[g]? = some q → q.place = .mem [x] → q.data.length = x.len → x.len ≠ 0 →
       (s.part (l.ctx / 16)).dlog = 0 → s.deadMem x.hpa = false → ∃ t, exec i s = .next t ∧ ∀ b, t.mem.byte b =
         if x.hpa ≤ b ∧ b < x.hpa + x.len then q.data.getD (b - x.hpa) 0 else s.mem.byte b))

/-- R9, R327, R341, R345, R346, R352, R376: outside a supervisor context, and beyond a partition supervisor's partition, the
privileged instructions trap; else they check their operands and the phase, and do their work. `TLBI` waits while an engine
unit translated through a dropped entry has not been performed (the model's choice of how it waits: notes/assumptions/18.md).
R347, R352: a `CFG` function traps outside a supervisor context, on a bad block address and on reserved target bits; in the
exchange phase a supervisor without the authority is refused with code 1. -/
def Obligations.PrivilegedInstructionsAndChecks : Prop :=
  (∀ (s : State) (d a b : XReg),
     let c := s.core
     let x := (c.rx a).toNat
     let y := (c.rx b).toNat
     let mine (p : Nat) : Prop := s.isPF = true ∨ s.myPart = p
     let whole (i : Instr) (op : Nat) (allowed legal claim : Prop) : Prop :=
       (¬ (s.isSup = true ∧ allowed) → exec i s = .next (s.raise 0x04 0 op 0)) ∧
       (s.isSup = true → allowed → ¬ legal → exec i s = .next (s.raise 0x02 0 op 0)) ∧
       (s.isSup = true → allowed → legal → c.phase = .compute → exec i s = .next (s.raise 0x03 0 op 0)) ∧
       (s.isSup = true → allowed → legal → c.phase = .exchange → claim)
     let ctx := 16 * (x % 64) + x / 2 ^ 8 % 2 ^ 4
     let drops (i : Instr) (hit : TlbEntry → Bool) : Prop :=
       (s.unitsThrough hit = true → ∃ t, exec i s = .next t ∧ t.core.pc = c.pc ∧ t.core.retired = c.retired ∧ t.core.waiting = true ∧
         t.core.tlb = c.tlb) ∧
       (s.unitsThrough hit = false → ∃ t : State, exec i s = .next t.retire ∧
         (∀ e, e ∈ t.core.tlb ↔ e ∈ c.tlb ∧ hit e = false) ∧ t.stores = [] ∧
         (∀ n, n ≠ c.id → ∀ e, e ∈ (t.coreAt n).tlb ↔ e ∈ (s.coreAt n).tlb ∧ hit e = false) ∧
         ∀ die e, e ∈ t.l2tlb.get [] die ↔ e ∈ s.l2tlb.get [] die ∧ hit e = false)
     let low (m : Nat) : Prop := x &&& m = x
     (Free s { x := [a] } {} →
       whole (.tlbiVf a) 0x7B (mine (x % 64)) (low 0x3F) (drops (.tlbiVf a) fun e => e.ctx / 16 = x % 64) ∧
       whole (.tlbiCtx a) 0x7B (mine (x % 64)) (low 0xF3F) (drops (.tlbiCtx a) fun e => e.ctx = ctx)) ∧
     (Free s { x := [a, b] } {} →
       whole (.tlbiVa a b) 0x7B (mine (x % 64)) (low 0xF3F)
         (drops (.tlbiVa a b) fun e => decide (e.ctx = ctx) && decide (e.vpage / e.vsize = y / e.vsize)) ∧
       whole (.tlbiGpa a b) 0x7B (mine (x % 64)) (low 0x3F)
         (drops (.tlbiGpa a b) fun e => decide (e.ctx / 16 = x % 64) && decide (e.gpa / e.gsize = y / e.gsize))) ∧
     whole .tlbiAll 0x7B (s.isPF = true) True (drops .tlbiAll fun _ => true) ∧
     (Free s { x := [a, b] } { x := [d] } →
       (let p := s.part (x % 64)
         let h := p.dlog + 8 * (y / 2 ^ 21)
         whole (.dharv d a b) 0x7C (mine (x % 64)) (x < 64 ∧ y % 2 ^ 21 = 0 ∧ y < p.dspan ∧ p.dlog ≠ 0)
           (∃ t, exec (.dharv d a b) s = .next (lateNext t d (BitVec.ofNat 64 (s.physNat h 8))) ∧ t.core = c ∧
             ∀ i, t.mem.byte i = if h ≤ i ∧ i < h + 8 ∧ s.deadMem h = false then 0 else s.mem.byte i)) ∧
       whole (.scrubMem d a b) 0x7F (s.isPF = true) (scrubOk x y = true)
         (s.stores = [] → ∃ t, exec (.scrubMem d a b) s = .next (lateNext t d 0) ∧ t.core = c ∧
           ∀ i, t.mem.byte i = if x ≤ i ∧ i < x + y then 0 else s.mem.byte i)) ∧
     (Free s { x := [a] } { x := [d] } →
       whole (.scrubSlice d a) 0x7F (s.isPF = true) (x < 2048)
         ((s.sliceRuns x = true → exec (.scrubSlice d a) s = .next (lateNext s d (BitVec.ofNat 64 (2 ^ 63 + 2)))) ∧
           (s.sliceRuns x = false → c.id ≠ 2 * x → c.id ≠ 2 * x + 1 → ∃ t, exec (.scrubSlice d a) s = .next (lateNext t d 0) ∧
             t.core = c ∧ x ∉ t.out ∧ ∀ n, n = 2 * x ∨ n = 2 * x + 1 → (t.coreAt n).share = [] ∧ (t.coreAt n).full = [] ∧
               (t.coreAt n).sealed = false ∧ (∀ i : Fin 64, (t.coreAt n).x[i] = 0) ∧ ∀ i : Fin 16, (t.coreAt n).v[i] = 0)) ∧
       (let named := s.isPF = true ∨ s.corePart (x % 4096) = some s.myPart
         let old : Word := if (s.coreAt x).sealed then 1 else 0
         let sets (i : Instr) (z : Bool) : Prop := ∃ t, exec i s = .next (lateNext t d old) ∧ (t.coreAt x).sealed = z ∧
           t.mem = s.mem ∧ ∀ n, n ≠ x → (t.coreAt n).sealed = (s.coreAt n).sealed
         whole (.sealQ d a) 0x7E named (x < 4096) (exec (.sealQ d a) s = .next (lateNext s d old)) ∧
         whole (.sealOn d a) 0x7E named (x < 4096) (sets (.sealOn d a) true) ∧
         whole (.sealOff d a) 0x7E named (x < 4096) (sets (.sealOff d a) false)))) ∧
  (∀ (s : State) (d a : XReg) (t : CfgTarget),
     let c := s.core
     let w := match t with | .reg b => (c.rx b).toNat | .lit v => v.toNat
     let rd := match t with | .reg b => [a, b] | .lit _ => [a]
     let at_ := c.rx a
     let checks (i : Instr) (n : Nat) (auth : Bool) : Prop :=
       let placed := n = 0 ∨ (at_.toNat % 64 = 0 ∧ tag at_ = 8 ∧ offset at_ + n ≤ c.shareSize)
       let reserved := w / 2 ^ 6 % 2 ^ 10 ≠ 0 ∨ 2 ^ 32 ≤ w
       let authorised := s.isPF = true ∨ (auth = true ∧ s.myPart = w % 64)
       (s.isSup = false → exec i s = .next (s.raise 0x04 0 0x7D 0)) ∧
       (s.isSup = true → ¬ placed → exec i s = .next (s.raise 0x05 at_.toNat 0x7D 0)) ∧
       (s.isSup = true → placed → reserved → exec i s = .next (s.raise 0x02 0 0x7D 0)) ∧
       (s.isSup = true → placed → ¬ reserved → c.phase = .compute → i ≠ .cfgInst d a t → exec i s = .next (s.raise 0x03 0 0x7D 0)) ∧
       (s.isSup = true → placed → ¬ reserved → c.phase = .exchange → i ≠ .cfgInst d a t → ¬ authorised →
         (n = 0 ∨ c.sharePoisoned (offset at_) n = false) → exec i s = .next (lateNext s d (BitVec.ofNat 64 (2 ^ 63 + 1))))
     Free s { x := rd } { x := [d] } →
     checks (.cfgPart d a t) 320 false ∧ checks (.cfgPdel d a t) 0 false ∧ checks (.cfgCtx d a t) 64 true ∧
     checks (.cfgQueue d a t) 64 false ∧ checks (.cfgInst d a t) 64 true ∧ checks (.cfgRtab d a t) 64 true ∧
     checks (.cfgCls d a t) 96 false ∧ checks (.cfgMwt d a t) 64 false ∧ checks (.cfgGw d a t) 32 false ∧
     checks (.cfgTwin d a t) 64 false ∧ checks (.cfgRrep d a t) 320 true)

/-- R277, R291, R317, R332, R347 to R351: what the functions of `CFG` set, and what they refuse, for a supervisor with the
authority over everything. -/
def Obligations.ConfigurationEffects : Prop :=
  ∀ (s : State) (d a : XReg) (t : CfgTarget),
    let c := s.core
    let w := match t with | .reg b => (c.rx b).toNat | .lit v => v.toNat
    let rd := match t with | .reg b => [a, b] | .lit _ => [a]
    let o := offset (c.rx a)
    let p := w % 64
    let obj := w / 2 ^ 16 % 2 ^ 16
    let blk (n : Nat) : CfgArgs := { blk := c.shareRead o n, part := p, obj := obj }
    let g := blk 64
    let ready (n : Nat) : Prop := (c.rx a).toNat % 64 = 0 ∧ tag (c.rx a) = 8 ∧ o + n ≤ c.shareSize ∧ c.sharePoisoned o n = false
    let refuses (i : Instr) (code : Nat) : Prop := exec i s = .next (lateNext s d (BitVec.ofNat 64 (2 ^ 63 + code)))
    let sets (i : Instr) (post : State → Prop) : Prop := ∃ u, exec i s = .next (lateNext u d 0) ∧ post u
    let known := s.parts.find? p ≠ none
    let q := s.queues.find? obj
    let k := 16 * p + obj
    Free s { x := rd } { x := [d] } → s.isPF = true → s.isSup = true → c.phase = .exchange → c.waiting = false →
    w / 2 ^ 6 % 2 ^ 10 = 0 → w < 2 ^ 32 →
    (ready 320 →
      let h := blk 320
      let slices : BitVec 2048 := BitVec.ofNat 2048 (h.get 64 256)
      let moved (sl : Nat) : Prop := slices.getLsbD sl ≠ (s.part p).slices.getLsbD sl
      (partBad h = true → refuses (.cfgPart d a t) 3) ∧
      (partBad h = false → s.quota p (h.get 25 1) Partition.qs ≤ 256 → s.quota p (h.get 26 1) Partition.bal ≤ 64 →
        s.quota p (h.get 27 1) Partition.lq ≤ 16 → (∀ sl < 2048, moved sl → s.sliceRuns sl = false) →
        (∀ sl < 2048, moved sl → slices.getLsbD sl = true → s.sliceHolder sl = none) →
        sets (.cfgPart d a t) fun u => u.part p =
          { s.part p with s2root := h.get 0 8, prq := h.get 8 8, rpl := h.get 16 8, pcap := h.get 24 1, qs := h.get 25 1
                          bal := h.get 26 1, lq := h.get 27 1, dlog := h.get 32 8, dspan := h.get 40 8, slices := slices })) ∧
    ((¬ known → refuses (.cfgPdel d a t) 5) ∧ (known → s.partIdle p = false → refuses (.cfgPdel d a t) 2) ∧
      (known → s.partIdle p = true → sets (.cfgPdel d a t) fun u => u.parts.find? p = none ∧ (∀ e ∈ u.ctxs, e.1 / 16 ≠ p) ∧
        (∀ e ∈ u.queues, e.2.part ≠ p) ∧ ∀ e ∈ u.twins, e.2.part ≠ p)) ∧
    (ready 64 →
      (known → obj < 16 → ctxBad g = false →
        let u := (s.dropCode k (g.get 0 8)).modCtx k fun x => x.from g
        (u.pinArea k (g.get 16 8) = none ∨ u.pinArea k (g.get 24 8) = none → refuses (.cfgCtx d a t) 3) ∧
        ∀ la lb, u.pinArea k (g.get 16 8) = some la → u.pinArea k (g.get 24 8) = some lb →
          exec (.cfgCtx d a t) s = .next (lateNext (u.modCtx k fun x => { x with pinA := la, pinB := lb }) d 0)) ∧
      (known → obj < 4096 → g.get 0 1 ≤ 1 → g.zeros 1 3 = true → g.zeros 8 56 = true →
        (if g.get 0 1 = 1 then capOk (g.get 4 4) = true else g.get 4 4 = 0) →
        (q ≠ none → refuses (.cfgQueue d a t) 2) ∧
        (q = none → sets (.cfgQueue d a t) fun u => ∃ x : Queue, u.queues.find? obj = some x ∧ x.dev = decide (g.get 0 1 = 1) ∧
          x.part = p ∧ x.cap = g.get 4 4 ∧ x.recs = [] ∧ x.qwr = 0 ∧ x.qrd = 0 ∧ x.err = false)) ∧
      (known → obj < 4096 → g.get 0 1 = 2 → g.zeros 1 3 = true → g.zeros 8 56 = true → g.get 4 4 = 0 → ∀ x, q = some x → x.part = p →
        sets (.cfgQueue d a t) fun u => ∃ y : Queue, u.queues.find? obj = some y ∧ y.recs = [] ∧ y.qwr = 0 ∧ y.qrd = 0 ∧
          y.err = false ∧ y.cap = x.cap ∧ y.dev = x.dev) ∧
      (known → obj < 256 → (g.get 0 8 ≠ 0 ∨ g.get 8 8 ≠ 0) → s.specBad p g.spec = false →
        (s.net (.part p obj) ≠ none → refuses (.cfgInst d a t) 2) ∧
        (s.net (.part p obj) = none → sets (.cfgInst d a t) fun u =>
          u.net (.part p obj) = some (s.placeNet (.part p obj) (g.spec.net p (16 * p))))) ∧
      (known → obj < 64 → g.get 0 8 = 0 →
        (s.tables.find? (64 * p + obj) = none → refuses (.cfgRtab d a t) 5) ∧
        ∀ r, s.tables.find? (64 * p + obj) = some r →
          ((∃ v ∈ r.vers, s.pinned (64 * p + obj) v.1 = true) → refuses (.cfgRtab d a t) 2) ∧
          ((∀ v ∈ r.vers, s.pinned (64 * p + obj) v.1 = false) → sets (.cfgRtab d a t) fun u => u.tables.find? (64 * p + obj) = none)) ∧
      (known → obj < 64 → g.get 0 8 ≠ 0 → g.get 0 8 < 2 ^ 57 → s.tables.find? (64 * p + obj) = none →
        g.get 8 4 < 16 → s.dieOfPart p (g.get 8 4) = true → s.myPart = p → ∀ u v h b es y,
        s.readVa s.me (g.get 0 8) 64 = .ok u h → imageBad h = false → u.readVa u.me (g.get 0 8 + 64) (288 * recNat h 4 2) = .ok v b →
        v.myPart = p → expertsOf b 0 (recNat h 4 2) = some es → v.makeTable (64 * p + obj) (g.get 8 4) v.core.ctx h es = .ok y →
        exec (.cfgRtab d a t) s = .next (lateNext y d 0) ∧ ∃ r : RTable, y.tables.find? (64 * p + obj) = some r ∧ r.cur = 1 ∧
          r.vers = [(1, es)]) ∧
      (obj < 4096 → s.corePart obj = some p →
        (g.get 0 1 = 0 ∨ 4 < g.get 0 1 → refuses (.cfgMwt d a t) 3) ∧
        (1 ≤ g.get 0 1 → g.get 0 1 ≤ 4 → sets (.cfgMwt d a t) fun u => (u.coreAt obj).weight = g.get 0 1)) ∧
      (known → g.get 0 8 % 65536 = 0 → g.get 8 8 % 65536 = 0 →
        (g.get 16 1 = 0 → s.twins.find? obj ≠ none → refuses (.cfgTwin d a t) 2) ∧
        (g.get 16 1 = 0 → s.twins.find? obj = none → 0 < g.get 8 8 → hpaReserved (g.get 0 8) = false →
          hpaReserved (g.get 0 8 + g.get 8 8 - 1) = false → sets (.cfgTwin d a t) fun u => ∃ x : Twin, u.twins.find? obj = some x ∧
            x.part = p ∧ x.base = g.get 0 8 ∧ x.span = g.get 8 8 ∧ x.isOpen = false) ∧
        ∀ x, g.get 16 1 = 1 → s.twins.find? obj = some x → x.part = p → x.isOpen = false → x.caldera = false →
          sets (.cfgTwin d a t) fun u => u.twins.find? obj = none)) ∧
    (ready 32 → (16 ≤ obj → refuses (.cfgGw d a t) 5) ∧
      (obj < 16 → sets (.cfgGw d a t) fun u => u.gates.find? obj = some (BitVec.ofNat 256 ((blk 32).get 0 32)))) ∧
    (ready 96 → known → 1 ≤ obj → obj < 16 →
      let h := blk 96
      let tooMuch (i : Fin 6) : Prop := grantLimit i.val < s.granted p obj i + h.get (16 * i.val) 8
      ((∃ i, tooMuch i) → refuses (.cfgCls d a t) 4) ∧
      ((∀ i, ¬ tooMuch i) → sets (.cfgCls d a t) fun u => ∃ x : ClassCfg, (u.part p).cls.find? obj = some x ∧
        ∀ i : Fin 6, x.rates[i].toNat = h.get (16 * i.val) 8 ∧ x.bursts[i].toNat = h.get (16 * i.val + 8) 8)) ∧
    (ready 320 → obj < 64 → ∀ r x rs, s.tables.find? (64 * p + obj) = some r →
      let h := blk 320
      let all := x.reps ++ rs
      (r.at_ r.cur)[h.get 0 2]? = some x → 1 ≤ h.get 2 1 → h.get 2 1 ≤ 8 → h.zeros 3 61 = true →
      replicasOf (h.blk.drop 64) r.serial (h.get 2 1) = some rs → (∀ y ∈ rs, s.corePart y.core = some p ∧ s.failed.getLsbD y.die = false) →
      diesDiffer all = true → all.length ≤ 8 → (∀ y ∈ rs, s.calderaRoom y.die ≠ 0) →
      (s.fifth (64 * p + obj) = true → refuses (.cfgRrep d a t) 2) ∧
      (s.fifth (64 * p + obj) = false → sets (.cfgRrep d a t) fun u => ∃ y : RTable, u.tables.find? (64 * p + obj) = some y ∧
        y.cur = nextVer r.cur ∧ y.serial = r.serial + h.get 2 1))

/-! Translation and scanning steps, time, registers, attestation, errors and resets (03_formats.md R57, 15_deadlines.md,
19_isolation.md, 22_containment.md, 23_module.md). -/

/-- R57, R58: a granule without a record is scanned. A map that passes marks the first word, and from each marked word an
instruction decodes within the granule, at whose end the next mark stands; a rejection names the word that does not decode.
R331, R333, R335 to R337: a walk fills the TLBs of its core and die; a stage-2 fault of a waiting core files one request,
with the record of R335, when the slot at the producer index is free; a reply frees its request and fails its waiters; an
access waits for its reply before it is walked again, and takes its fault on fail. R36, R69: when the fetch of the core
returns, a freeze for it ends. -/
def Obligations.ScansAndPageRequests : Prop :=
  (∀ (s : State) (hpa : Nat),
     let g := hpa / 32768
     let words (i : Nat) : List Nat := (List.range (min 5 (8192 - i))).map fun j => s.physNat (32768 * g + 4 * (i + j)) 4
     (∀ r, s.scans.find? g = some r → exec (.codeGranuleScan hpa) s = .next s) ∧
     (s.scans.find? g = none → exec (.codeGranuleScan hpa) s = .next { s with scans := s.scans.put g (s.scan g) }) ∧
     (∀ map, s.scan g = .passed map → map.testBit 0 = true ∧ ∀ i < 8192, map.testBit i = true →
       ∃ ins n, decodeWords (words i) = .ok (ins, n) ∧ i + n ≤ 8192 ∧ (i + n < 8192 → map.testBit (i + n) = true) ∧
         ∀ j, i < j → j < i + n → map.testBit j = false) ∧
     ∀ off code, s.scan g = .rejected off code → off % 4 = 0 ∧ off < 32768 ∧ decodeWords (words (off / 4)) = .error code) ∧
  (∀ (s : State) (ctx : Nat) (va : Word) (acc part : Nat),
     let c := s.core
     let kind := Acc.ofCode acc
     let walk := s.walk ctx va.toNat kind
     let i : Instr := .pageWalk ctx va acc
     let p := s.part part
     let prod := s.physNat p.prq 8
     let made := s.physNat p.rpl 8
     let taken := s.physNat (p.rpl + 8) 8
     let rep := s.physRead (p.rpl + 64 + 16 * (taken % 256)) 16
     (ctx ≠ c.ctx ∨ c.waiting = false →
       (∀ x, walk = .ok x → c.id < 4096 → x.ent.size ≠ 0 → ∃ t, exec i s = .next t ∧ x.ent ∈ t.core.tlb ∧ t.core.tlb.length ≤ max 64 c.tlb.length ∧
         x.ent ∈ t.l2tlb.get [] (dieOf c.id) ∧ t.mem = s.mem) ∧
       ((∀ x, walk ≠ .ok x) → exec i s = .next s)) ∧
     (ctx = c.ctx → c.waiting = true → part = ctx / 16 → c.id < 4096 → s.tlbHit c.id ctx va.toNat kind = none →
       ∀ gpa lvl why, walk = .s2 gpa lvl why →
       let w : PageWait := { who := .core c.id, va := va.toNat, info := faultInfo kind true lvl false }
       (p.fails.find? fun f => f.who = w.who) = none → p.asked w.who = false →
       ((∃ r ∈ p.reqs, r.gran = gpa / 32768 ∧ r.wr = kind.isWrite) → ∃ t, exec i s = .next t ∧ t.mem = s.mem ∧
         (∀ r ∈ (t.part part).reqs, r.gran = gpa / 32768 → r.wr = kind.isWrite → w ∈ r.waiters)) ∧
       ((∀ r ∈ p.reqs, ¬ (r.gran = gpa / 32768 ∧ r.wr = kind.isWrite)) → prod < s.physNat (p.prq + 8) 8 + 256 →
         (∀ r ∈ p.reqs, r.rid ≠ prod % 256) → s.failed = 0 → ∃ t, exec i s = .next t ∧
         (t.part part).reqs = p.reqs ++ [{ rid := prod % 256, gran := gpa / 32768, wr := kind.isWrite, waiters := [w] }] ∧
         t.physNat p.prq 8 = (prod + 1) % 2 ^ 64 ∧
         t.physRead (p.prq + 64 + 32 * (prod % 256)) 32 = requestBytes (prod % 256) s.me kind gpa va.toNat why lvl)) ∧
     (p.rpl = 0 ∨ made ≤ taken → exec (.pageRequestReply part) s = .next s) ∧
     (p.rpl ≠ 0 → taken < made → ∀ r, p.reqs.find? (fun q => q.rid = leNat (rep.take 2)) = some r →
       (∀ w ∈ r.waiters, match w.who with | .launch _ => False | _ => True) → (rep.getD 2 0).toNat ≤ 1 → (∀ b ∈ rep.drop 3, b = 0) →
       ∃ t, exec (.pageRequestReply part) s = .next t ∧ (t.part part).reqs = p.reqs.filter (fun q => q.rid ≠ r.rid) ∧
         (t.part part).fails = p.fails ++ (if rep.getD 2 0 = 1 then r.waiters else []) ∧
         (s.failed = 0 → t.physNat (p.rpl + 8) 8 = taken + 1)) ∧
     ∀ (who : Who) (x : Nat) (k : Acc),
       let q := s.part (who.ctx / 16)
       (q.asked who.w = true → (∀ f ∈ q.fails, f.who ≠ who.w) → s.translate who x k = .wait s) ∧
       ∀ f, (q.fails.find? fun f => f.who = who.w) = some f → ∃ u, s.translate who x k = .fault u f.va f.info ∧ u.mem = s.mem ∧
         ∀ g ∈ (u.part (who.ctx / 16)).fails, g.who ≠ who.w) ∧
  (∀ (s : State),
     (∀ u hpa, s.enter s.core.pc = .ok u hpa → u.core.frozen = true → ∃ t, exec .fetchReturn s = .next t ∧
       t.core.waiting = false ∧ t.core.frozen = false ∧ t.core.pc = u.core.pc ∧ t.core.slot = u.core.slot ∧ t.mem = u.mem) ∧
     ((∀ u hpa, s.enter s.core.pc ≠ .ok u hpa) → exec .fetchReturn s = .next s))

/-- R294 to R296, R400: the sources of device time: which state the discipline is in, a step forward above a millisecond, a
slew else, the lock after sixteen measurements within 50 ns, PTM, holdover and its end. The messages of another domain, and
those of another sender than the selected master, are not heeded; an announced data set takes the place of a worse one, the
order being that of IEEE 1588 (PRESUMED: notes/assumptions/11.md; no correction in state PTM: notes/assumptions/43.md; the
unit of the slew: notes/assumptions/7.md). R401: the requests of the SPDM exchange in their order, while link 0 is up: what
each answer says of the algorithms, the slot and the measurement blocks, in the layouts of DMTF SPDM 1.2; one out of order
meets an error and leaves the transcript alone (the layouts and that fate are notes/assumptions/11.md). -/
def Obligations.DeviceTimeAndAttestation : Prop :=
  (∀ (s : State) (a b : Announce) (m : PtpMsg) (off : Int) (v : Word) (data : List Byte),
     let t := s.time
     let runs : Prop := t.enabled = true ∧ s.skipped 10 = false
     let hears : Prop := runs ∧ m.domain = t.domain ∧ ∃ x, t.master = some x ∧ x.src = m.src
     let measures (i : Instr) (off : Int) : Prop :=
       let n := if off.natAbs ≤ 50 then t.within + 1 else 0
       ∃ u, exec i s = .next u ∧ u.time.twoStep = none ∧ (16 ≤ n → u.time.state = 0 ∧ u.time.within = n) ∧
         (n < 16 → u.time.state ≠ 0) ∧
         (t.state ≠ 1 → 1000000 < off → (u.now : Int) = ((s.now : Int) + off) % 2 ^ 64 ∧ u.time.slew = 0) ∧
         (t.state ≠ 1 → t.given = true → off ≤ 1000000 → u.now = s.now ∧ u.time.slew = off * 2 ^ 40) ∧
         (t.state = 1 → u.now = s.now ∧ u.time.slew = t.slew)
     let kept (i : Instr) : Prop := exec i s = .next s
     (¬ runs ∨ a.domain ≠ t.domain ∨ 255 ≤ a.steps.toNat → kept (.ptpAnnounce a)) ∧
     (runs → a.domain = t.domain → a.steps.toNat < 255 →
       (t.master = none ∨ (∃ x, t.master = some x ∧ a.src = x.src) →
         exec (.ptpAnnounce a) s = .next { s with time := { t with master := some a } }) ∧
       (t.master = some b → a.src ≠ b.src → (announceBetter a b = false → kept (.ptpAnnounce a)) ∧
         (announceBetter a b = true →
           ∃ u, exec (.ptpAnnounce a) s = .next u ∧ u.time.master = some a ∧ u.time.within = 0 ∧ u.time.state ≠ 0))) ∧
     (a.gm = b.gm → (announceBetter a b = true ↔ a.steps < b.steps ∨ (a.steps = b.steps ∧ a.src < b.src))) ∧
     (a.gm ≠ b.gm → (announceBetter a b = true ↔ a.prio1 < b.prio1 ∨ (a.prio1 = b.prio1 ∧ (a.cls < b.cls ∨ (a.cls = b.cls ∧
       (a.acc < b.acc ∨ (a.acc = b.acc ∧ (a.var < b.var ∨ (a.var = b.var ∧ (a.prio2 < b.prio2 ∨
         (a.prio2 = b.prio2 ∧ a.gm < b.gm))))))))))) ∧
     (¬ hears → kept (.ptpSync m false) ∧ kept (.ptpSync m true) ∧ kept (.ptpDelayResp m) ∧ kept (.ptpFollowUp m)) ∧
     (¬ runs ∨ t.master = none → kept .delayRequest) ∧
     (runs → t.master ≠ none → exec .delayRequest s = .next { s with time := { t with req := true } }) ∧
     (hears → measures (.ptpSync m false) (m.value + t.delay) ∧
       exec (.ptpSync m true) s = .next { s with time := { t with twoStep := some m.value } } ∧
       (t.req = false → kept (.ptpDelayResp m)) ∧
       (t.req = true → exec (.ptpDelayResp m) s = .next { s with time := { t with delay := m.value, req := false } }) ∧
       (t.twoStep = none → kept (.ptpFollowUp m)) ∧
       ∀ o, t.twoStep = some o → measures (.ptpFollowUp m) (o + m.value + t.delay)) ∧
     kept (.ptpManagement data) ∧
     (s.pcie.getLsbD 0 = false → kept (.ptmExchange off)) ∧
     (s.pcie.getLsbD 0 = true → ∃ u, exec (.ptmExchange off) s = .next u ∧ u.time.ptm = true ∧
       (t.state = 0 → u.time.state = 0 ∧ u.now = s.now) ∧ (t.state ≠ 0 → u.time.state = 1)) ∧
     (∃ u, exec .timeSourceLoss s = .next u ∧ u.time.twoStep = none ∧
       u.time.state = if t.state = 0 ∧ t.ptm = true then 1 else if t.state = 0 ∨ t.state = 1 then 2 else t.state) ∧
     (t.state = 2 → t.lost + 10000000000 ≤ s.now → ∃ u, exec .holdoverExpiry s = .next u ∧ u.time.state = 3 ∧
       u.time.rate = nominalRate) ∧
     (t.state ≠ 2 ∨ s.now < t.lost + 10000000000 → kept .holdoverExpiry) ∧
     (let w : Prop := v.setWidth 7 = t.domain ∧ v.getLsbD 8 = t.enabled
       ∃ u, exec (.ptpControlWrite v) s = .next u ∧ u.time.domain = v.setWidth 7 ∧ u.time.enabled = v.getLsbD 8 ∧
         (¬ w → u.time.master = none) ∧ (w → u.time.master = t.master))) ∧
  (∀ (s : State) (req : List Byte) (slot : Nat),
     let st := s.spdm.stage
     let answers (i : Instr) (need goal code : Nat) (holds : List Byte → Prop) : Prop :=
       (s.pcie.getLsbD 0 = false → exec i s = .next s) ∧
       (s.pcie.getLsbD 0 = true → ∃ t r, exec i s = .next t ∧ t.spdm.last = r ∧ t.core = s.core ∧ t.mem = s.mem ∧
         (need ≤ st → t.spdm.stage = goal ∧ t.spdm.log = (if goal = 1 then [] else s.spdm.log) ++ req ++ r ∧
           leNat (r.take 2) = 0x12 + 256 * code ∧ holds r) ∧
         (st < need → t.spdm.stage = st ∧ t.spdm.log = s.spdm.log ∧ leNat (r.take 2) = 0x12 + 256 * 0x7F))
     let at_ (r : List Byte) (o n : Nat) : Nat := leNat ((r.drop o).take n)
     let op := at_ req 3 1
     answers (.spdmGetVersion req) 0 1 0x04 (fun r => at_ r 5 3 = 1 + 256 * 0x1200) ∧
     answers (.spdmGetCapabilities req) 1 2 0x61 (fun _ => True) ∧
     answers (.spdmNegotiateAlgorithms req) 2 3 0x63 (fun r => at_ r 8 4 = 2 ∧ at_ r 12 4 = 0x10 ∧ at_ r 16 4 = 1) ∧
     answers (.spdmGetDigests req) 3 3 0x01 (fun r => at_ r 3 1 = 1) ∧
     answers (.spdmGetCertificate 0 req) 3 3 0x02 (fun r => at_ r 2 1 = 0) ∧
     answers (.spdmChallenge req) 3 3 0x03 (fun _ => True) ∧
     (op ≤ 4 ∨ op = 0xFF → answers (.spdmGetMeasurements req) 3 3 0x60 fun r => (op = 0 → at_ r 2 1 = 4) ∧
       (1 ≤ op → op ≤ 4 → at_ r 4 1 = 1 ∧ at_ r 8 1 = op) ∧ (op = 0xFF → at_ r 4 1 = 4 ∧ ∀ i < 4, at_ r (8 + 39 * i) 1 = i + 1)) ∧
     (4 < op → op ≠ 0xFF → ∃ t, exec (.spdmGetMeasurements req) s = .next t ∧ t.spdm.stage = st ∧ t.spdm.log = s.spdm.log) ∧
     (0 < slot → ∃ t, exec (.spdmGetCertificate slot req) s = .next t ∧ t.spdm.stage = st ∧ t.spdm.log = s.spdm.log))

/-- R340, R393, R395, R396, R398, R399: writes to a queue's registers and to those of BAR0, of a function that is there: none
is with link 0 down, and after a failed start only the physical one; a function other than 0 reaches only its own queues; the
window table is read when its count is written; what reads of the registers give, reserved ones zero. A count above 4,096
that is ignored, and a bad ring size that is an error at the doorbell, are notes/assumptions/46.md; that reserved bits of a
window's entry are not looked at is notes/assumptions/58.md; the bases rounded down are notes/assumptions/76.md. R60, R215,
R328, R395: with link 0 up a host write reaches device memory outside the reserved places, and drops the scan records it
touches. -/
def Obligations.HostAccesses : Prop :=
  (∀ (s : State) (q fn off : Nat) (v : Word),
     let n := v.toNat
     let write (i : Instr) : Prop := exec (.registerWrite fn off v) s = exec i s
     let queue := s.queues.find? q
     let goes (u : State) : Prop := exec (.registerWrite fn off v) s = .next u
     (queue = none → exec (.queueDoorbell q v) s = .next s ∧ ∀ b, exec (.queueBaseSizeWrite q b v) s = .next s) ∧
     (∀ k, queue = some k →
       let sound := ringSizeOk k.qsize = true ∧ k.qbase % 128 = 0 ∧ s.ringOut k.ctx k.qbase k.qsize = false
       (k.dev = true ∨ s.presents k.part = false →
         exec (.queueDoorbell q v) s = .next s ∧ ∀ b, exec (.queueBaseSizeWrite q b v) s = .next s) ∧
       (k.err = true → exec (.queueDoorbell q v) s = .next s) ∧
       (k.dev = false → s.presents k.part = true → k.err = false → sound → k.qwr ≤ n → n ≤ k.qrd + k.qsize / 128 → ∃ t x, exec (.queueDoorbell q v) s = .next t ∧
         t.queues.find? q = some x ∧ x.qwr = n ∧ x.qrd = k.qrd ∧ x.err = false ∧ t.mem = s.mem) ∧
       (k.dev = false → s.presents k.part = true → k.err = false → ¬ (sound ∧ k.qwr ≤ n ∧ n ≤ k.qrd + k.qsize / 128) → ∃ t x,
         exec (.queueDoorbell q v) s = .next t ∧ t.queues.find? q = some x ∧ x.qwr = k.qwr ∧ x.err = true) ∧
       (k.dev = false → s.presents k.part = true → ∀ b, ∃ t x, exec (.queueBaseSizeWrite q b v) s = .next t ∧ t.queues.find? q = some x ∧
         x.qbase = (if b then k.qbase else n) ∧ x.qsize = (if b then n else k.qsize) ∧ (k.qrd < k.qwr → x.err = true))) ∧
     (n ≤ 4096 → ∃ t, exec (.windowTableLoad n) s = .next t ∧ t.winCount = n ∧ t.mem = s.mem ∧
       (∀ w, w ∈ t.windows ↔ (w.dir = 1 ∨ w.dir = 2) ∧ ∃ i < n, w = Window.ofBytes (s.physRead (s.winBase + 64 * i) 64))) ∧
     (4096 < n → exec (.windowTableLoad n) s = .next s) ∧
     (s.presents fn = false → goes s ∧ s.barRead fn off = none) ∧
     (q < 4096 → queue = none ∨ (∃ k, queue = some k ∧ k.part ≠ fn) → off / 64 = 0x1000 + q → goes s) ∧
     (s.presents fn = true → q < 4096 → ∀ k, queue = some k → k.part = fn →
       (off = 0x40000 + 64 * q → write (.queueBaseSizeWrite q false v)) ∧
       (off = 0x40000 + 64 * q + 8 → write (.queueBaseSizeWrite q true v)) ∧
       (off = 0x40000 + 64 * q + 16 → write (.queueDoorbell q v))) ∧
     (fn ≠ 0 → off < 0x40000 ∨ 0x80000 ≤ off → goes s) ∧
     (fn = 0 → s.pcie.getLsbD 0 = true → (off = 0x100 → goes { s with winBase := n - n % 64 }) ∧ (off = 0x108 → write (.windowTableLoad n)) ∧
       (off = 0x200 → write (.ptpControlWrite v)) ∧ (off = 0x300 → goes { s with evBase := n - n % 4096 }) ∧
       (off = 0x308 → 6 ≤ n → n ≤ 16 → goes { s with evLg := n }) ∧ (off = 0x318 → goes { s with evCons := v }) ∧
       (off = 0x10000 → n = 1 → write .tephraCopyRequest) ∧
       ∀ k < 4096, ∀ j : Fin 8, off = 0x100000 + 128 * k + 16 * j.val ∨ off = 0x100008 + 128 * k + 16 * j.val →
         ∃ t, goes t ∧ (t.coreAt k).events[j] =
           if off % 16 = 0 then { (s.coreAt k).events[j] with src := n % 256 } else { (s.coreAt k).events[j] with val := v }) ∧
     (s.presents fn = true →
       let reads (off : Nat) (v : Word) : Prop := s.barRead fn off = some v
       reads 0 (BitVec.ofNat 64 (fn % 64 + 256 * s.start.toNat + 1024 * s.failed.toNat)) ∧
       (s.start ≠ 1 → off ≠ 0 → reads off 0) ∧
       (fn ≠ 0 → off ≠ 0 → off < 0x40000 ∨ 0x80000 ≤ off → reads off 0) ∧
       (q < 4096 → (∀ k, queue = some k → k.part ≠ fn ∨ k.dev = true) → off / 64 = 0x1000 + q → reads off 0) ∧
       (s.start = 1 → q < 4096 → ∀ k, queue = some k → k.part = fn → k.dev = false →
         reads (0x40000 + 64 * q) (BitVec.ofNat 64 k.qbase) ∧ reads (0x40008 + 64 * q) (BitVec.ofNat 64 k.qsize) ∧
         reads (0x40010 + 64 * q) (BitVec.ofNat 64 k.qwr) ∧ reads (0x40018 + 64 * q) (BitVec.ofNat 64 k.qrd) ∧
         (k.err = true → reads (0x40020 + 64 * q) 2) ∧ ∀ i < 3, reads (0x40028 + 64 * q + 8 * i) 0) ∧
       (s.start = 1 → fn = 0 → reads 0x318 s.evCons ∧ reads 0x310 s.evProd ∧ reads 0x320 s.evLost)) ∧
     (s.presents fn = true ↔ s.pcie.getLsbD 0 = true ∧ (fn = 0 ∨ s.start ≠ 2))) ∧
  (∀ (s : State) (ctx hpa : Nat) (data : List Byte), data ≠ [] →
     let i : Instr := .hostWriteToDeviceMemory ctx hpa data
     (s.pcie.getLsbD 0 = false ∨ hpaReserved hpa = true ∨ isHost hpa = true → exec i s = .next s) ∧
     (s.pcie.getLsbD 0 = true → hpaReserved hpa = false → hpaReserved (hpa + data.length - 1) = false → isHost hpa = false → s.deadMem hpa = false →
       ∃ t, exec i s = .next t ∧ t.core = s.core ∧
         (∀ a, t.mem.byte a = if hpa ≤ a ∧ a < hpa + data.length then data.getD (a - hpa) 0 else s.mem.byte a) ∧
         ∀ e ∈ t.scans, e ∈ s.scans ∧ ∀ a, hpa ≤ a → a < hpa + data.length → e.1 ≠ a / 32768))

/-- R379 to R381: the parity bits of a word, and the syndrome that shows every flip of one bit; the vertical row of a
sub-array is the XOR of its words, and a write changes it by the old and the new value; the engine rebuilds the one flagged
word of a sub-array to the value it had; of several, all are lost; a sweep poisons the words of a sub-array whose row does
not match. That a sub-array is 256 words in a row, and that the row is formed anew after a sweep, is the model's choice
(notes/assumptions/23.md). R386, R389, R402: a die that fails is masked and its slices are out of service; a core that has
consumed an error is contained; clocks step by the table. That the leases of a failed die end with it is the model's choice
(notes/assumptions/23.md). -/
def Obligations.ErrorsAndRepairs : Prop :=
  (∀ (s : State) (f : Flip) (w die : Nat) (sub : Option Nat),
     (∀ (v : BitVec 64), ∀ j < 8, (lanes v).getLsbD j = (List.range 8).foldl (fun b i => b != v.getLsbD (8 * i + j)) false) ∧
     (∀ i < 64, f.par = 0 → f.data = 1#64 <<< i → f.syndrome ≠ 0) ∧
     (s.rows.get 0 (w / 256) = 0 → s.vertical (w / 256) = xorAll ((subWords (w / 256)).map s.word)) ∧
     (∀ t : State, t.rows = s.rows → (∀ u, u / 256 = w / 256 → u ≠ w → t.word u = s.word u) →
       t.vertical (w / 256) = s.vertical (w / 256) ^^^ s.word w ^^^ t.word w) ∧
     (s.rows.get 0 (f.word / 256) = 0 → s.flips.filter (fun g => g.word / 256 = f.word / 256) = [f] → s.rebuilt f.word = s.word f.word) ∧
     ((∀ g ∈ s.flagged (w / 256), g.word ≠ w) → exec (.wordRebuild w) s = .next s) ∧
     (s.flagged (f.word / 256) = [f] → f.stuck = false → f.word < 2 ^ 54 → ∃ t, exec (.wordRebuild f.word) s = .next t ∧
       t.word f.word = s.rebuilt f.word ∧ (∀ g ∈ t.flips, g.word ≠ f.word) ∧ t.mpois = s.mpois ∧ t.core = s.core ∧
       ∀ a, a < 8 * f.word ∨ 8 * f.word + 8 ≤ a → t.mem.byte a = s.mem.byte a) ∧
     (2 ≤ (s.flagged (w / 256)).length → (∀ g ∈ s.flagged (w / 256), g.word < 2 ^ 54) → (∃ g ∈ s.flagged (w / 256), g.word = w) →
       ∃ t, exec (.wordRebuild w) s = .next t ∧ ∀ g ∈ s.flagged (w / 256), g.word ∈ t.mpois) ∧
     (s.flips = [] → (∀ k ∈ s.rows.keys, wordDie (256 * k) ≠ die) → ∃ t, exec (.patrolSweep die sub) s = .next t ∧ t.core = s.core ∧
       t.mem = s.mem ∧ t.mpois = s.mpois ∧ t.rows = s.rows) ∧
     (s.flips = [] → ∀ k ∈ s.rows.keys, wordDie (256 * k) = die → 256 * k + 255 < 2 ^ 54 → (sub = none ∨ sub = some k) → ∃ t, exec (.patrolSweep die sub) s = .next t ∧
       k ∉ t.rows.keys ∧ t.mem = s.mem ∧ ∀ i < 256, 256 * k + i ∈ t.mpois)) ∧
  (∀ (s : State) (die core : Nat),
     (16 ≤ die ∨ s.failed.getLsbD die = true → exec (.dieFailure die) s = .next s) ∧
     (die < 16 → s.failed.getLsbD die = false → ∃ t, exec (.dieFailure die) s = .next t ∧ t.failed.getLsbD die = true ∧
       (∀ d, d ≠ die → t.failed.getLsbD d = s.failed.getLsbD d) ∧
       (∀ i < 128, 128 * die + i ∈ t.out) ∧ ∀ e ∈ t.leases, e.1 / 16 ≠ die) ∧
     ((s.coreAt core).contained = false ∨ (s.coreAt core).role = .idle → exec (.coreContainment core) s = .next s) ∧
     (core < 4096 → (s.coreAt core).contained = true → (s.coreAt core).role ≠ .idle → (s.coreAt core).raised ≠ none →
       core ∈ (s.coreAt core).chain.ids → ∃ t, exec (.coreContainment core) s = .next t ∧
       sliceOf core ∈ t.out ∧ (t.coreAt core).sealed = true ∧ (t.coreAt core).contained = true) ∧
     (let f := s.clockOf die
       let steps (i : Instr) (f' : Nat) : Prop := ∃ t, exec i s = .next t ∧ t.clockOf die = f' ∧ t.core = s.core
       (16 ≤ die ∨ s.failed.getLsbD die = true → exec (.clockStepDown die) s = .next s ∧ exec (.clockStepUp die) s = .next s) ∧
       (die < 16 → s.failed.getLsbD die = false →
         (∀ a b, (a, b) ∈ [(850, 765), (765, 680), (680, 595), (595, 425)] →
           (f = a → steps (.clockStepDown die) b) ∧ (f = b → steps (.clockStepUp die) a)) ∧
         (f = 425 → exec (.clockStepDown die) s = .next s) ∧ (f = 850 → exec (.clockStepUp die) s = .next s))))

/-- R384, R388: errors that strike. One bit that SECDED corrects leaves nothing; a counting instance with an uncorrectable
one is lost with what is in flight on it; a barrier tree's aborts the generations of the die; a column with a residue
mismatch takes a spare, and with none left its quadrant has failed. When an error strikes is an entry of the agenda (the
model's choice: notes/assumptions/61.md). R383: the taster. Without a mismatch the instruction runs as it is; after one it
executes again, to the same result; a second one is a core fault, which retires nothing. -/
def Obligations.StrikesAndTheTaster : Prop :=
  (∀ (s : State) (l : List Action) (key : NetKey) (n : Net) (bits die lid cl i : Nat) (q : Quad),
     let u : State := { s with agenda := l }
     let strikes (e : Strike) (t : State) : Prop := s.agenda = .strike e :: l → step s = .next t
     (bits ≤ 1 → strikes (.net key bits) u ∧ strikes (.queue lid bits) u ∧ strikes (.barrier die bits) u ∧ strikes (.die die bits) u) ∧
     (1 < bits → (∀ a b, key ≠ .queue a b) → s.net key = some n → n.lost = false → n.dying = false → s.unpins = [] → ∃ t m, strikes (.net key bits) t ∧
       t.net key = some m ∧ m.lost = true ∧ m.ops = n.ops.filter (fun o => !o.dead) ∧ t.core = s.core ∧ t.mem = s.mem ∧ ∀ k, k ≠ key → t.net k = s.net k) ∧
     (1 < bits → (s.launches.find? lid).isSome = true → strikes (.queue lid bits) (u.killLaunch lid)) ∧
     (1 < bits → (s.launches.find? lid).isSome = false →
       ((∀ e ∈ s.queues, ∀ r ∈ e.2.recs, r.lid ≠ lid) → strikes (.queue lid bits) u) ∧
       ∀ (qn : Nat) (k : Queue), s.queues = [(qn, k)] → (∃ r ∈ k.recs, r.lid = lid) → ∃ t x, strikes (.queue lid bits) t ∧
         t.queues.find? qn = some x ∧ x.recs = k.recs.filter fun r => r.lid ≠ lid) ∧
     (1 < bits → ∃ t, strikes (.barrier die bits) t ∧ t.core = s.core ∧ t.mem = s.mem ∧
       ∀ e ∈ t.launches, ∀ b ∈ e.2.bars, b.active = true → ∀ m ∈ b.members, dieOf m ≠ die) ∧
     (1 < bits → die < 16 → s.failed.getLsbD die = false → strikes (.die die bits) (u.failDie die)) ∧
     (i < 4 → (s.cluster cl).quad i = q → q.struck ≠ [] → ∃ v, ((s.remap cl i).cluster cl).quad i = v ∧ v.struck = q.struck.drop 1 ∧
       (0 < q.spare → v.retired = q.retired ++ q.struck.take 1 ∧ v.spare = q.spare - 1 ∧ v.failed = q.failed) ∧ (q.spare = 0 → v.spare = 0 ∧ v.failed = true) ∧
       v.weights = q.weights ∧ v.bank0 = q.bank0 ∧ v.bank1 = q.bank1 ∧ (s.remap cl i).mem = s.mem)) ∧
  (∀ (s t : State) (i : Instr) (vec : Bool) (run : State → Out),
     let c := s.core
     (c.taste = none → s.tasting i run = run s) ∧
     (Instr.tasted i = some vec → run s = .next t → t.core.id = c.id → t.core.retired ≠ c.retired →
       (c.taste = some false → ∃ u, s.tasting i run = .next u ∧ u.mem = t.mem ∧ u.core.taste = none ∧ u.core.x = t.core.x ∧
         u.core.v = t.core.v ∧ u.core.p = t.core.p ∧ u.core.pc = t.core.pc ∧ u.core.retired = t.core.retired ∧
         u.core.pend = t.core.pend ∧ u.core.share = t.core.share) ∧
       (c.taste = some true → ∃ u, s.tasting i run = .next u ∧ u.mem = s.mem ∧ u.core.contained = true ∧
         u.core.retired = c.retired ∧ u.core.x = c.x ∧ u.core.pc = c.pc ∧ u.core.pend = c.pend ∧
         u.core.raised = some { cause := 0x20, addr := c.pc, info0 := BitVec.ofNat 64 (Instr.opcode i)
                                info1 := if vec then 1 else 2, after := false })))

/-- R2, R248, R392, R395, R399, R403: what the resets, the losses of power and of links, and the training of a link leave.
That host memory stays is the model's reading (notes/assumptions/4.md). -/
def Obligations.ResetsAndLinks : Prop :=
  ∀ (s : State) (link : Fin 2) (port : Nat) (peer : Word),
    let fresh (t : State) : Prop := (∀ n, t.failed.getLsbD (dieOf n) = false → t.coreAt n = Core.reset n) ∧ t.ctxs = [] ∧ t.queues = [] ∧ t.launches = [] ∧
      t.nets = [] ∧ t.tables = [] ∧ t.leases = [] ∧ t.stores = [] ∧ t.flips = [] ∧ t.scans = [] ∧ t.rollback = s.rollback
    let started (i : Instr) : Prop := ∃ t, exec i s = .next t ∧ fresh t ∧ t.boots = s.boots + 1 ∧ t.record.length = 11 ∧ (t.start = 1 ∨ t.start = 2)
    started .powerOn ∧ started .coldReset ∧ started .warmReset ∧
    (∃ t, exec .powerLoss s = .next t ∧ fresh t ∧ t.boots = s.boots ∧ t.record = s.record ∧
      ∀ a, t.mem.byte a = if isHost a then s.mem.byte a else 0) ∧
    ((∀ d < 16, (s.tephra.get { evs := [], wrapped := false } d).evs.length ≤ 4096) → ∃ t, exec .warmReset s = .next t ∧ ∀ a, inTephra a = false → t.mem.byte a = if isHost a then s.mem.byte a else 0) ∧
    (∃ t, exec .tephraCopyRequest s = .next t ∧ t.core = s.core ∧ t.tephra = s.tephra ∧
      ∀ a, inTephra a = false → (∀ d < 16, (s.tephra.get { evs := [], wrapped := false } d).evs.length ≤ 4096) →
        t.mem.byte a = s.mem.byte a) ∧
    (∃ t, exec (.pcieLinkFailure link) s = .next t ∧ t.pcie.getLsbD link.val = false ∧ (link = 1 → t.core = s.core ∧ t.mem = s.mem)) ∧
    (port < 16 → s.skipped 9 = false → ∃ t, exec (.slovasLinkTraining port peer) s = .next t ∧ t.peers.find? port = some peer ∧ t.core = s.core) ∧
    (16 ≤ port ∨ s.skipped 9 = true → exec (.slovasLinkTraining port peer) s = .next s) ∧
    ∃ t, exec (.slovasLinkFailure port) s = .next t ∧ t.peers.find? port = none ∧ (∀ o ∈ t.putOuts, o.port ≠ port) ∧
      (∀ q ∈ t.puts, q ∈ s.puts) ∧ (s.puts = [] → t.mem = s.mem)

/-! Encoding, the step, and the machine as a whole. -/

/-- R44: `ILL` is a whole word of op 0 and length 0b00, with any code; it takes the illegal-instruction trap with its code.
-/
def Obligations.IllegalInstructions : Prop :=
  ∀ (s : State) (code : BitVec 23) (w : Nat) (rest : List Nat),
    decodeWords (2 ^ 9 * code.toNat :: rest) = .ok (.ill code, 1) ∧ decodeWords (0 :: rest) = .ok (.ill 0, 1) ∧
    (w < 2 ^ 32 → w / 4 % 2 ^ 7 = 0 → w % 4 ≠ 0 → decodeWords (w :: rest) = .error 1) ∧
    exec (.ill code) s = .next (s.raise 0x01 0 code.toNat 0)

/-- R124: quotients round towards zero, the remainder has the sign of the dividend, and no flag is set; the table's three
cases in both forms and both signednesses. -/
def Obligations.DivisionAndRemainder : Prop :=
  ∀ (s : State) (d a b : XReg) (v : Word),
    let x := s.core.rx a
    let both (reg lit : Instr) (r : Word → Word) : Prop :=
      (Free s { x := [a, b] } { x := [d] } → exec reg s = .next (xNext s 12 d (r (s.core.rx b)))) ∧
      (Free s { x := [a] } { x := [d] } → exec lit s = .next (xNext s 12 d (r v)))
    both (.div false d a b) (.divLiteral false d a v) (fun y =>
      if y = 0 then 0xFFFFFFFFFFFFFFFF else if x = 0x8000000000000000 ∧ y = 0xFFFFFFFFFFFFFFFF then 0x8000000000000000
      else BitVec.ofInt 64 (x.toInt.tdiv y.toInt)) ∧
    both (.div true d a b) (.divLiteral true d a v) (fun y =>
      if y = 0 then 0xFFFFFFFFFFFFFFFF else BitVec.ofNat 64 (x.toNat / y.toNat)) ∧
    both (.rem false d a b) (.remLiteral false d a v) (fun y =>
      if y = 0 then x else if x = 0x8000000000000000 ∧ y = 0xFFFFFFFFFFFFFFFF then 0
      else BitVec.ofInt 64 (x.toInt - x.toInt.tdiv y.toInt * y.toInt)) ∧
    both (.rem true d a b) (.remLiteral true d a v) (fun y =>
      if y = 0 then x else BitVec.ofNat 64 (x.toNat - x.toNat / y.toNat * y.toNat))

/-- R99: the scale byte of an MX record: 2^(S − 127) for S below 255, never zero, negative or infinite, and NaN for 255. -/
def Obligations.ScaleBytes : Prop :=
  ∀ (t : Ty) (rec : Nat), t = .mx4 ∨ t = .mx6 ∨ t = .mx6a ∨ t = .mx8 →
    (rec % 256 = 255 → recFactor t rec = none ∧ ∀ i, recValue t rec i = .nan) ∧
    (rec % 256 < 255 → ∃ n m, recFactor t rec = some (n, m) ∧ 0 < n ∧ 0 < m ∧ n * 2 ^ 127 = m * 2 ^ (rec % 256))

/-- Words that the spec writes out, and the instructions that they stand for (R75, R151, R180, R190 to R197, R232, R249,
R250, R341, R343, R345 to R347, R364, R365, R371, R372, R376). -/
def Obligations.DecodedWords : Prop :=
  decodeWords [0x00000004] = .ok (.nop 1, 1) ∧ decodeWords [0x00008428] = .ok (.lbrk 1 .any 2, 1) ∧
  decodeWords [0x000691C1, 0x0001FC7F, 0x00000000] = .ok (.mwld .own 13 0 0 127 127 0, 3) ∧
  decodeWords [0x116511C5, 0x00400000, 0x0029000C] = .ok (.mma false true .bf16 .own 10 11 12 16 0, 3) ∧
  decodeWords [0x080001D8] = .ok (.mmapOwn, 1) ∧
  decodeWords [0x000001DA, 0x03020100, 0x07060504] = .ok (.mmapLiteral 0x0706050403020100, 3) ∧
  decodeWords [0x02AA11CD, 0x0041FC00, 0x00290016] = .ok (.mdrain false .bf16 .frm .own 20 21 22 127 16 0, 3) ∧
  decodeWords [0x000011D0] = .ok (.mzero .own 0, 1) ∧ decodeWords [0x200001D4] = .ok (.mfuse 4 0, 1) ∧
  decodeWords [0x28000BE0] = .ok (.mstatErr 5, 1) ∧ decodeWords [0x500000E0] = .ok (.fence .rel .die, 1) ∧
  decodeWords [0x780000E0] = .ok (.fence .full .mod, 1) ∧ decodeWords [0x00030BE4] = .ok (.shadow 5 6, 1) ∧
  decodeWords [0x00030110] = .ok (.publish 6, 1) ∧ decodeWords [0x00E30BF0] = .ok (.dharv 5 6 7, 1) ∧
  decodeWords [0x00030BE8] = .ok (.leaseGet 5 6, 1) ∧ decodeWords [0x08E30BE8] = .ok (.leaseCmd 5 6 7, 1) ∧
  decodeWords [0x10E301EC] = .ok (.tlbiVa 6 7, 1) ∧ decodeWords [0x08030BFC] = .ok (.scrubSlice 5 6, 1) ∧
  decodeWords [0x00A00120] = .ok (.trap 5, 1) ∧ decodeWords [0x0020013C] = .ok (.brk 1, 1) ∧
  decodeWords [0x08000124] = .ok (.eretSkip, 1) ∧ decodeWords [0x10028124] = .ok (.eretTo 5, 1) ∧
  decodeWords [0x00000B2A, 0x00000300, 0x80000000] = .ok (.liveLiteral 5 0x8000000000000300, 3) ∧
  decodeWords [0x08000B2C] = .ok (.yieldPoll 5, 1) ∧ decodeWords [0x08030BF8] = .ok (.sealOn 5 6, 1) ∧
  decodeWords [0x00000B79, 0x00000000, 0x00240000] = .ok (.viota .col { p := 0, z := false } 5 0 (some { ty := some .n32, rm := .frm }), 3)

/-- The step runs what it decodes: on a core whose turn comes, that runs a stream of its own and has no empty slot to pass,
the instruction whose bytes stand at the pc is executed with the address after it known, and the event counters follow. A
fetch that faults raises its trap, one that waits freezes the core, and a scheduled step of the table is executed as it
stands. That the step takes the first entry of an agenda is the model's choice (notes/assumptions/1.md), and so is the entry
that announces a code image, which joins those that the machine knows (notes/assumptions/17.md). -/
def Obligations.StepRunsTheDecodedInstruction : Prop :=
  ∀ (s : State) (n : Nat) (l : List Action),
    let u := ({ s with agenda := l } : State).detect.focus n
    let c := u.core
    (∀ i, s.agenda = .event i :: l → step s = exec i ({ s with agenda := l } : State).detect) ∧
    (∀ i, s.agenda = .image i :: l → step s = .next { s with agenda := l, images := s.images ++ [i] }) ∧
    (s.flips = [] → s.detect = s) ∧
    (s.agenda = .turn n :: l → c.role = .running → c.leads = true → c.members = 1 ∨ c.frame.isSome = true → c.contained = false →
      u.stopping c = false → c.gap = 0 → c.nopLeft = 0 → c.skip = false →
      (∀ v hpa i k, u.enter c.pc = .ok v hpa → decodeWords (v.codeWords hpa) = .ok (i, k) →
        v.core.taste = none ∨ Instr.tasted i = none → v.core.sBad = [] → v.core.lBad = 0 →
        step s = onNext (exec i ((v.upd fun c => { c with npc := c.pc + BitVec.ofNat 64 (4 * k) }).feed i k)) fun t => t.meter c) ∧
      (∀ v cause a i0 i1, u.enter c.pc = .fault v cause a i0 i1 → step s = .next ((v.raise cause a i0 i1).meter c)) ∧
      (∀ v, u.enter c.pc = .wait v → step s = .next (v.freeze.meter c))) ∧
    (∀ (v : State) (hpa : Nat), hpa % 4 = 0 → hpa % 32768 + 20 ≤ 32768 → v.codeWords hpa = wordsOfBytes (v.physRead hpa 20)) ∧
    ∀ (v : State) (i : Instr) (k : Nat), v.core.members = 1 → v.feed i k = v

/-- What reset leaves, as far as the spec states it (R2, R294, R295, R339, R396, R403): device time zero on the module
oscillator, 1588 enabled in domain 0, the start not yet ready, and nothing under way. That memory which nothing has written
reads zero is the model's choice (notes/assumptions/4.md), and so are the roles, phases and modes at reset
(notes/assumptions/3.md). -/
def Obligations.ResetValues : Prop :=
  State.reset.time.dt = 0 ∧ State.reset.time.state = 3 ∧ State.reset.time.domain = 0 ∧ State.reset.time.enabled = true ∧
  State.reset.start = 0 ∧ State.reset.failed = 0 ∧ (∀ a, State.reset.mem.byte a = 0) ∧ State.reset.launches = [] ∧
  State.reset.scans = [] ∧ State.reset.l2tlb = [] ∧
  (∀ n, (State.reset.coreAt n).role = .idle ∧ (State.reset.coreAt n).phase = .exchange ∧ (State.reset.coreAt n).share = [] ∧
    (State.reset.coreAt n).full = [] ∧ (State.reset.coreAt n).tlb = []) ∧
  ∀ k, (State.reset.cluster k).mode = 0 ∧ ∀ i < 4, ((State.reset.cluster k).quad i).valid = false

/-- Host-physical memory is in its canonical form at reset. The form lists no byte that reads as an unlisted one does, which
is zero (the model's choice: notes/assumptions/4.md). -/
def Obligations.ResetMemoryIsCanonical : Prop := MemOk State.reset

/-- No instruction and no step of the table ends the machine: each has a next state in every state (R57: only the fetch can
meet a word that the scanner would not have passed). -/
def Obligations.EveryInstructionHasANextState : Prop := ∀ (i : Instr) (s : State), ∃ t, exec i s = .next t

/-- Encoding and decoding agree: the bytes that encode a well-formed instruction decode to it, whatever bytes follow (R35 to
R43). Every instruction of the table that has words is covered; steps have none. -/
def Obligations.EncodingsDecode : Prop :=
  ∀ (i : Instr) (r : Raw) (rest : List Byte), i.wf = true → encode i = some r →
    encodeBytes i ≠ [] ∧ decodeBytes (encodeBytes i ++ rest) = .ok (i, rest)

/-- Every step keeps host-physical memory in its canonical form: addresses strictly rising, and no byte listed that reads
zero anyway (the model's choice: notes/assumptions/4.md). -/
def Obligations.StepsKeepMemoryCanonical : Prop := ∀ (s t : State), MemOk s → step s = .next t → MemOk t
end

