-- ==== Sys2Proof/Laws/Fields.lean ====
section
/-! SUPPORT. The fields of the words that the encoder makes, read back: one lemma per field of each form (03_formats.md R37
to R42), and the words of an instruction read back as one (R35). -/

namespace Sys2Proof

@[simp] theorem fld_wA_len {op len d a b f : Nat} (hlen : len < 4) :
    fld (wA op len d a b f) 0 2 = len := by
  simp only [fld, wA]; omega
@[simp] theorem fld_wA_op {op len d a b f : Nat} (hlen : len < 4) (hop : op < 128) :
    fld (wA op len d a b f) 2 7 = op := by
  simp only [fld, wA]; omega
@[simp] theorem fld_wA_d {op len d a b f : Nat} (hlen : len < 4) (hop : op < 128) (hd : d < 64) :
    fld (wA op len d a b f) 9 6 = d := by
  simp only [fld, wA]; omega
@[simp] theorem fld_wA_a {op len d a b f : Nat} (hlen : len < 4) (hop : op < 128) (hd : d < 64) (ha : a < 64) :
    fld (wA op len d a b f) 15 6 = a := by
  simp only [fld, wA]; omega
@[simp] theorem fld_wA_b {op len d a b f : Nat} (hlen : len < 4) (hop : op < 128) (hd : d < 64) (ha : a < 64) (hb : b < 64) :
    fld (wA op len d a b f) 21 6 = b := by
  simp only [fld, wA]; omega
@[simp] theorem fld_wA_f {op len d a b f : Nat} (hlen : len < 4) (hop : op < 128) (hd : d < 64) (ha : a < 64) (hb : b < 64) (hf : f < 32) :
    fld (wA op len d a b f) 27 5 = f := by
  simp only [fld, wA]; omega
theorem wA_lt {op len d a b f : Nat} (hlen : len < 4) (hop : op < 128) (hd : d < 64) (ha : a < 64) (hb : b < 64) (hf : f < 32) :
    wA op len d a b f < 2 ^ 32 := by
  simp only [wA]; omega

@[simp] theorem fld_wI_len {op len d a i : Nat} (hlen : len < 4) :
    fld (wI op len d a i) 0 2 = len := by
  simp only [fld, wI]; omega
@[simp] theorem fld_wI_op {op len d a i : Nat} (hlen : len < 4) (hop : op < 128) :
    fld (wI op len d a i) 2 7 = op := by
  simp only [fld, wI]; omega
@[simp] theorem fld_wI_d {op len d a i : Nat} (hlen : len < 4) (hop : op < 128) (hd : d < 64) :
    fld (wI op len d a i) 9 6 = d := by
  simp only [fld, wI]; omega
@[simp] theorem fld_wI_a {op len d a i : Nat} (hlen : len < 4) (hop : op < 128) (hd : d < 64) (ha : a < 64) :
    fld (wI op len d a i) 15 6 = a := by
  simp only [fld, wI]; omega
@[simp] theorem fld_wI_i {op len d a i : Nat} (hlen : len < 4) (hop : op < 128) (hd : d < 64) (ha : a < 64) (hi : i < 2048) :
    fld (wI op len d a i) 21 11 = i := by
  simp only [fld, wI]; omega
theorem wI_lt {op len d a i : Nat} (hlen : len < 4) (hop : op < 128) (hd : d < 64) (ha : a < 64) (hi : i < 2048) :
    wI op len d a i < 2 ^ 32 := by
  simp only [wI]; omega

@[simp] theorem fld_wJ_len {op len p mode disp : Nat} (hlen : len < 4) :
    fld (wJ op len p mode disp) 0 2 = len := by
  simp only [fld, wJ]; omega
@[simp] theorem fld_wJ_op {op len p mode disp : Nat} (hlen : len < 4) (hop : op < 128) :
    fld (wJ op len p mode disp) 2 7 = op := by
  simp only [fld, wJ]; omega
@[simp] theorem fld_wJ_p {op len p mode disp : Nat} (hlen : len < 4) (hop : op < 128) (hp : p < 8) :
    fld (wJ op len p mode disp) 9 3 = p := by
  simp only [fld, wJ]; omega
@[simp] theorem fld_wJ_mode {op len p mode disp : Nat} (hlen : len < 4) (hop : op < 128) (hp : p < 8) (hmode : mode < 4) :
    fld (wJ op len p mode disp) 13 2 = mode := by
  simp only [fld, wJ]; omega
@[simp] theorem fld_wJ_disp {op len p mode disp : Nat} (hlen : len < 4) (hop : op < 128) (hp : p < 8) (hmode : mode < 4) (hdisp : disp < 131072) :
    fld (wJ op len p mode disp) 15 17 = disp := by
  simp only [fld, wJ]; omega
theorem wJ_lt {op len p mode disp : Nat} (hlen : len < 4) (hop : op < 128) (hp : p < 8) (hmode : mode < 4) (hdisp : disp < 131072) :
    wJ op len p mode disp < 2 ^ 32 := by
  simp only [wJ]; omega

@[simp] theorem fld_wM_len {op len d a sz x hi : Nat} (hlen : len < 4) :
    fld (wM op len d a sz x hi) 0 2 = len := by
  simp only [fld, wM]; omega
@[simp] theorem fld_wM_op {op len d a sz x hi : Nat} (hlen : len < 4) (hop : op < 128) :
    fld (wM op len d a sz x hi) 2 7 = op := by
  simp only [fld, wM]; omega
@[simp] theorem fld_wM_d {op len d a sz x hi : Nat} (hlen : len < 4) (hop : op < 128) (hd : d < 64) :
    fld (wM op len d a sz x hi) 9 6 = d := by
  simp only [fld, wM]; omega
@[simp] theorem fld_wM_a {op len d a sz x hi : Nat} (hlen : len < 4) (hop : op < 128) (hd : d < 64) (ha : a < 64) :
    fld (wM op len d a sz x hi) 15 6 = a := by
  simp only [fld, wM]; omega
@[simp] theorem fld_wM_sz {op len d a sz x hi : Nat} (hlen : len < 4) (hop : op < 128) (hd : d < 64) (ha : a < 64) (hsz : sz < 4) :
    fld (wM op len d a sz x hi) 21 2 = sz := by
  simp only [fld, wM]; omega
@[simp] theorem fld_wM_x {op len d a sz x hi : Nat} (hlen : len < 4) (hop : op < 128) (hd : d < 64) (ha : a < 64) (hsz : sz < 4) (hx : x < 2) :
    fld (wM op len d a sz x hi) 23 1 = x := by
  simp only [fld, wM]; omega
@[simp] theorem fld_wM_hi {op len d a sz x hi : Nat} (hlen : len < 4) (hop : op < 128) (hd : d < 64) (ha : a < 64) (hsz : sz < 4) (hx : x < 2) (hhi : hi < 256) :
    fld (wM op len d a sz x hi) 24 8 = hi := by
  simp only [fld, wM]; omega
theorem wM_lt {op len d a sz x hi : Nat} (hlen : len < 4) (hop : op < 128) (hd : d < 64) (ha : a < 64) (hsz : sz < 4) (hx : x < 2) (hhi : hi < 256) :
    wM op len d a sz x hi < 2 ^ 32 := by
  simp only [wM]; omega

@[simp] theorem fld_wV_len {op len vd va vb vc p z f : Nat} (hlen : len < 4) :
    fld (wV op len vd va vb vc p z f) 0 2 = len := by
  simp only [fld, wV]; omega
@[simp] theorem fld_wV_op {op len vd va vb vc p z f : Nat} (hlen : len < 4) (hop : op < 128) :
    fld (wV op len vd va vb vc p z f) 2 7 = op := by
  simp only [fld, wV]; omega
@[simp] theorem fld_wV_vd {op len vd va vb vc p z f : Nat} (hlen : len < 4) (hop : op < 128) (hvd : vd < 16) :
    fld (wV op len vd va vb vc p z f) 9 4 = vd := by
  simp only [fld, wV]; omega
@[simp] theorem fld_wV_va {op len vd va vb vc p z f : Nat} (hlen : len < 4) (hop : op < 128) (hvd : vd < 16) (hva : va < 16) :
    fld (wV op len vd va vb vc p z f) 13 4 = va := by
  simp only [fld, wV]; omega
@[simp] theorem fld_wV_vb {op len vd va vb vc p z f : Nat} (hlen : len < 4) (hop : op < 128) (hvd : vd < 16) (hva : va < 16) (hvb : vb < 16) :
    fld (wV op len vd va vb vc p z f) 17 4 = vb := by
  simp only [fld, wV]; omega
@[simp] theorem fld_wV_vc {op len vd va vb vc p z f : Nat} (hlen : len < 4) (hop : op < 128) (hvd : vd < 16) (hva : va < 16) (hvb : vb < 16) (hvc : vc < 16) :
    fld (wV op len vd va vb vc p z f) 21 4 = vc := by
  simp only [fld, wV]; omega
@[simp] theorem fld_wV_p {op len vd va vb vc p z f : Nat} (hlen : len < 4) (hop : op < 128) (hvd : vd < 16) (hva : va < 16) (hvb : vb < 16) (hvc : vc < 16) (hp : p < 8) :
    fld (wV op len vd va vb vc p z f) 25 3 = p := by
  simp only [fld, wV]; omega
@[simp] theorem fld_wV_z {op len vd va vb vc p z f : Nat} (hlen : len < 4) (hop : op < 128) (hvd : vd < 16) (hva : va < 16) (hvb : vb < 16) (hvc : vc < 16) (hp : p < 8) (hz : z < 2) :
    fld (wV op len vd va vb vc p z f) 28 1 = z := by
  simp only [fld, wV]; omega
@[simp] theorem fld_wV_f {op len vd va vb vc p z f : Nat} (hlen : len < 4) (hop : op < 128) (hvd : vd < 16) (hva : va < 16) (hvb : vb < 16) (hvc : vc < 16) (hp : p < 8) (hz : z < 2) (hf : f < 8) :
    fld (wV op len vd va vb vc p z f) 29 3 = f := by
  simp only [fld, wV]; omega
theorem wV_lt {op len vd va vb vc p z f : Nat} (hlen : len < 4) (hop : op < 128) (hvd : vd < 16) (hva : va < 16) (hvb : vb < 16) (hvc : vc < 16) (hp : p < 8) (hz : z < 2) (hf : f < 8) :
    wV op len vd va vb vc p z f < 2 ^ 32 := by
  simp only [wV]; omega

@[simp] theorem fld_wJ_jz {op len p mode disp : Nat} (hl : len < 4) (ho : op < 128) (hp : p < 8) :
    fld (wJ op len p mode disp) 12 1 = 0 := by
  simp only [fld, wJ]; omega
@[simp] theorem fld_word_c {x : W2} (hc : x.c < 64) :
    fld x.word 0 6 = x.c := by
  simp only [fld, W2.word]; omega
@[simp] theorem fld_word_e {x : W2} (hc : x.c < 64) (he : x.e < 64) :
    fld x.word 6 6 = x.e := by
  simp only [fld, W2.word]; omega
@[simp] theorem fld_word_pe {x : W2} (hc : x.c < 64) (he : x.e < 64) (hpe : x.pe < 8) :
    fld x.word 12 3 = x.pe := by
  simp only [fld, W2.word]; omega
@[simp] theorem fld_word_ze {x : W2} (hc : x.c < 64) (he : x.e < 64) (hpe : x.pe < 8) (hze : x.ze < 2) :
    fld x.word 15 1 = x.ze := by
  simp only [fld, W2.word]; omega
@[simp] theorem fld_word_ty {x : W2} (hc : x.c < 64) (he : x.e < 64) (hpe : x.pe < 8) (hze : x.ze < 2) (hty : x.ty < 32) :
    fld x.word 16 5 = x.ty := by
  simp only [fld, W2.word]; omega
@[simp] theorem fld_word_tyv {x : W2} (hc : x.c < 64) (he : x.e < 64) (hpe : x.pe < 8) (hze : x.ze < 2) (hty : x.ty < 32) (htyv : x.tyv < 2) :
    fld x.word 21 1 = x.tyv := by
  simp only [fld, W2.word]; omega
@[simp] theorem fld_word_rm {x : W2} (hc : x.c < 64) (he : x.e < 64) (hpe : x.pe < 8) (hze : x.ze < 2) (hty : x.ty < 32) (htyv : x.tyv < 2) (hrm : x.rm < 8) :
    fld x.word 22 3 = x.rm := by
  simp only [fld, W2.word]; omega
@[simp] theorem fld_word_md {x : W2} (hc : x.c < 64) (he : x.e < 64) (hpe : x.pe < 8) (hze : x.ze < 2) (hty : x.ty < 32) (htyv : x.tyv < 2) (hrm : x.rm < 8) (hmd : x.md < 128) :
    fld x.word 25 7 = x.md := by
  simp only [fld, W2.word]; omega
theorem word_lt {x : W2} (hc : x.c < 64) (he : x.e < 64) (hpe : x.pe < 8) (hze : x.ze < 2) (hty : x.ty < 32) (htyv : x.tyv < 2) (hrm : x.rm < 8) (hmd : x.md < 128) : x.word < 2 ^ 32 := by
  simp only [W2.word]; omega

/-! The words of an instruction read back as one (R35). -/

/-- The fields of word 2 fit (R42). -/
def W2.fits (x : W2) : Prop :=
  x.c < 64 ∧ x.e < 64 ∧ x.pe < 8 ∧ x.ze < 2 ∧ x.ty < 32 ∧ x.tyv < 2 ∧ x.rm < 8 ∧ x.md < 128

theorem W2.fits_zero : W2.fits {} := by simp [W2.fits]

/-- What the words after word 0 hold: word 1, word 2 and the literal of a raw instruction. -/
structure Raw.Tail (r : Raw) (w1 : Nat) (x : W2) (lit : Nat) : Prop where
  w1 : r.w1 = w1
  w2 : r.w2 = x.word
  lit : r.lit = lit
  x2 : r.x2 = x
  c : r.c = x.c
  e : r.e = x.e
  pe : r.pe = x.pe
  ze : r.ze = x.ze
  ty : r.ty = x.ty
  tyv : r.tyv = x.tyv
  rm : r.rm = x.rm
  md : r.md = x.md

theorem Raw.tail {w0 w1 lit : Nat} {x : W2} (h : x.fits) : Raw.Tail ⟨w0, w1, x.word, lit⟩ w1 x lit := by
  obtain ⟨h1, h2, h3, h4, h5, h6, h7, h8⟩ := h
  have hc : Raw.c ⟨w0, w1, x.word, lit⟩ = x.c := fld_word_c h1
  have he : Raw.e ⟨w0, w1, x.word, lit⟩ = x.e := fld_word_e h1 h2
  have hp : Raw.pe ⟨w0, w1, x.word, lit⟩ = x.pe := fld_word_pe h1 h2 h3
  have hz : Raw.ze ⟨w0, w1, x.word, lit⟩ = x.ze := fld_word_ze h1 h2 h3 h4
  have ht : Raw.ty ⟨w0, w1, x.word, lit⟩ = x.ty := fld_word_ty h1 h2 h3 h4 h5
  have hv : Raw.tyv ⟨w0, w1, x.word, lit⟩ = x.tyv := fld_word_tyv h1 h2 h3 h4 h5 h6
  have hr : Raw.rm ⟨w0, w1, x.word, lit⟩ = x.rm := fld_word_rm h1 h2 h3 h4 h5 h6 h7
  have hm : Raw.md ⟨w0, w1, x.word, lit⟩ = x.md := fld_word_md h1 h2 h3 h4 h5 h6 h7 h8
  refine ⟨rfl, rfl, rfl, ?_, hc, he, hp, hz, ht, hv, hr, hm⟩
  simp only [Raw.x2, hc, he, hp, hz, ht, hv, hr, hm]

theorem W2.word_fits {x : W2} (h : x.fits) : x.word < 2 ^ 32 := by
  obtain ⟨h1, h2, h3, h4, h5, h6, h7, h8⟩ := h
  exact word_lt h1 h2 h3 h4 h5 h6 h7 h8

/-- The words are 32-bit words, and the decoder reads the instruction and their number from them, whatever follows. -/
def Reads (i : Instr) (r : Raw) : Prop :=
  (∀ w ∈ r.words, w < 2 ^ 32) ∧ ∀ rest, decodeWords (r.words ++ rest) = .ok (i, r.words.length)

theorem Raw.len_lt (r : Raw) : r.len < 4 := Nat.mod_lt _ (by decide)

/-- A raw instruction whose words fit and whose unused words are zero, and that decodes, is read back from its words. -/
theorem Reads.of_raw {i : Instr} {r : Raw} (h0 : r.w0 < 2 ^ 32) (h1 : r.w1 < 2 ^ 32) (h2 : r.w2 < 2 ^ 32)
    (h3 : r.lit < 2 ^ 64) (s1 : r.len = 0 ∨ r.len = 2 → r.w1 = 0 ∧ r.w2 = 0) (s2 : r.len = 0 ∨ r.len = 1 → r.lit = 0)
    (hd : decode r = .ok i) : Reads i r := by
  have hlen := r.len_lt
  have hc : r.len = 0 ∨ r.len = 1 ∨ r.len = 2 ∨ r.len = 3 := by omega
  have hw : ∀ rest, Raw.ofWords (r.words ++ rest) = r := by
    intro rest
    rcases r with ⟨w0, w1, w2, lit⟩
    simp only [Raw.len] at *
    rcases hc with e | e | e | e <;>
      simp only [Raw.words, Raw.len, e, List.cons_append, List.nil_append, Raw.ofWords] <;> simp_all <;> omega
  have hn : r.words.length = lenWords (fld r.w0 0 2) := by
    rcases r with ⟨w0, w1, w2, lit⟩
    simp only [Raw.len] at *
    rcases hc with e | e | e | e <;> simp [Raw.words, Raw.len, e, lenWords]
  refine ⟨fun w hw => ?_, fun rest => ?_⟩
  · simp only [Raw.words] at hw
    split at hw <;> simp at hw <;> omega
  · obtain ⟨l, hl⟩ : ∃ l, r.words = r.w0 :: l := by simp only [Raw.words]; split <;> exact ⟨_, rfl⟩
    have := hw rest
    simp only [decodeWords, hl, List.cons_append] at *
    rw [this, hd]
    simp [← hn]

/-- The decoder of a row of the opcode map. -/
def decodeRow (op : Nat) (r : Raw) : Except Nat Instr :=
  match op / 16 with
  | 0 => decControl r
  | 1 | 2 => decScalar r
  | 3 => decMemory r
  | 4 => decSystem r
  | 5 => decVector r
  | 6 => decTiles r
  | _ => decMatrix r

theorem decode_row {r : Raw} {op len : Nat} (ho : r.op = op) (hl : r.len = len) (h : (lens op).contains len = true) :
    decode r = decodeRow op r := by
  subst ho hl
  simp only [decode, h, decodeRow]
  rfl

/-- A raw instruction whose word 0 has these fields of form A. -/
structure Raw.IsA (r : Raw) (op len d a b f : Nat) : Prop where
  op : r.op = op
  len : r.len = len
  d : r.d = d
  a : r.a = a
  b : r.b = b
  fn5 : r.fn5 = f

theorem Reads.formA {op len d a b f w1 lit : Nat} {x : W2} {i : Instr} (hn : (lens op).contains len = true)
    (hl : len < 4) (ho : op < 128) (hd : d < 64) (ha : a < 64) (hb : b < 64) (hf : f < 32) (h1 : w1 < 2 ^ 32) (h3 : lit < 2 ^ 64)
    (hx : x.fits) (s1 : len = 0 ∨ len = 2 → w1 = 0 ∧ x = {}) (s2 : len = 0 ∨ len = 1 → lit = 0)
    (h : ∀ r : Raw, r.IsA op len d a b f → r.Tail w1 x lit → decodeRow op r = .ok i) :
    Reads i ⟨wA op len d a b f, w1, x.word, lit⟩ := by
  have is : Raw.IsA ⟨wA op len d a b f, w1, x.word, lit⟩ op len d a b f :=
    ⟨fld_wA_op hl ho, fld_wA_len hl, fld_wA_d hl ho hd, fld_wA_a hl ho hd ha, fld_wA_b hl ho hd ha hb, fld_wA_f hl ho hd ha hb hf⟩
  refine Reads.of_raw (wA_lt hl ho hd ha hb hf) h1 (W2.word_fits hx) h3 ?_ ?_ ?_
  · rw [is.len]; intro q; obtain ⟨q1, q2⟩ := s1 q; subst q2; exact ⟨q1, rfl⟩
  · rw [is.len]; exact s2
  · rw [decode_row is.op is.len hn]; exact h _ is (Raw.tail hx)

/-- A raw instruction whose word 0 has these fields of form I. -/
structure Raw.IsI (r : Raw) (op len d a im : Nat) : Prop where
  op : r.op = op
  len : r.len = len
  d : r.d = d
  a : r.a = a
  imm11 : r.imm11 = im

theorem Reads.formI {op len d a im w1 lit : Nat} {x : W2} {i : Instr} (hn : (lens op).contains len = true)
    (hl : len < 4) (ho : op < 128) (hd : d < 64) (ha : a < 64) (him : im < 2048) (h1 : w1 < 2 ^ 32) (h3 : lit < 2 ^ 64)
    (hx : x.fits) (s1 : len = 0 ∨ len = 2 → w1 = 0 ∧ x = {}) (s2 : len = 0 ∨ len = 1 → lit = 0)
    (h : ∀ r : Raw, r.IsI op len d a im → r.Tail w1 x lit → decodeRow op r = .ok i) :
    Reads i ⟨wI op len d a im, w1, x.word, lit⟩ := by
  have is : Raw.IsI ⟨wI op len d a im, w1, x.word, lit⟩ op len d a im :=
    ⟨fld_wI_op hl ho, fld_wI_len hl, fld_wI_d hl ho hd, fld_wI_a hl ho hd ha, fld_wI_i hl ho hd ha him⟩
  refine Reads.of_raw (wI_lt hl ho hd ha him) h1 (W2.word_fits hx) h3 ?_ ?_ ?_
  · rw [is.len]; intro q; obtain ⟨q1, q2⟩ := s1 q; subst q2; exact ⟨q1, rfl⟩
  · rw [is.len]; exact s2
  · rw [decode_row is.op is.len hn]; exact h _ is (Raw.tail hx)

/-- A raw instruction whose word 0 has these fields of form J. -/
structure Raw.IsJ (r : Raw) (op len p mode disp : Nat) : Prop where
  op : r.op = op
  len : r.len = len
  pj : r.pj = p
  mode : r.mode = mode
  disp17 : r.disp17 = disp
  jz : r.jz = 0

theorem Reads.formJ {op len p mode disp w1 lit : Nat} {x : W2} {i : Instr} (hn : (lens op).contains len = true)
    (hl : len < 4) (ho : op < 128) (hp : p < 8) (hmode : mode < 4) (hdisp : disp < 131072) (h1 : w1 < 2 ^ 32) (h3 : lit < 2 ^ 64)
    (hx : x.fits) (s1 : len = 0 ∨ len = 2 → w1 = 0 ∧ x = {}) (s2 : len = 0 ∨ len = 1 → lit = 0)
    (h : ∀ r : Raw, r.IsJ op len p mode disp → r.Tail w1 x lit → decodeRow op r = .ok i) :
    Reads i ⟨wJ op len p mode disp, w1, x.word, lit⟩ := by
  have is : Raw.IsJ ⟨wJ op len p mode disp, w1, x.word, lit⟩ op len p mode disp :=
    ⟨fld_wJ_op hl ho, fld_wJ_len hl, fld_wJ_p hl ho hp, fld_wJ_mode hl ho hp hmode, fld_wJ_disp hl ho hp hmode hdisp, fld_wJ_jz hl ho hp⟩
  refine Reads.of_raw (wJ_lt hl ho hp hmode hdisp) h1 (W2.word_fits hx) h3 ?_ ?_ ?_
  · rw [is.len]; intro q; obtain ⟨q1, q2⟩ := s1 q; subst q2; exact ⟨q1, rfl⟩
  · rw [is.len]; exact s2
  · rw [decode_row is.op is.len hn]; exact h _ is (Raw.tail hx)

/-- A raw instruction whose word 0 has these fields of form M. -/
structure Raw.IsM (r : Raw) (op len d a sz xf hi : Nat) : Prop where
  op : r.op = op
  len : r.len = len
  d : r.d = d
  a : r.a = a
  sz : r.sz = sz
  x : r.x = xf
  hi8 : r.hi8 = hi

theorem Reads.formM {op len d a sz xf hi w1 lit : Nat} {x : W2} {i : Instr} (hn : (lens op).contains len = true)
    (hl : len < 4) (ho : op < 128) (hd : d < 64) (ha : a < 64) (hsz : sz < 4) (hxf : xf < 2) (hhi : hi < 256) (h1 : w1 < 2 ^ 32) (h3 : lit < 2 ^ 64)
    (hx : x.fits) (s1 : len = 0 ∨ len = 2 → w1 = 0 ∧ x = {}) (s2 : len = 0 ∨ len = 1 → lit = 0)
    (h : ∀ r : Raw, r.IsM op len d a sz xf hi → r.Tail w1 x lit → decodeRow op r = .ok i) :
    Reads i ⟨wM op len d a sz xf hi, w1, x.word, lit⟩ := by
  have is : Raw.IsM ⟨wM op len d a sz xf hi, w1, x.word, lit⟩ op len d a sz xf hi :=
    ⟨fld_wM_op hl ho, fld_wM_len hl, fld_wM_d hl ho hd, fld_wM_a hl ho hd ha, fld_wM_sz hl ho hd ha hsz, fld_wM_x hl ho hd ha hsz hxf, fld_wM_hi hl ho hd ha hsz hxf hhi⟩
  refine Reads.of_raw (wM_lt hl ho hd ha hsz hxf hhi) h1 (W2.word_fits hx) h3 ?_ ?_ ?_
  · rw [is.len]; intro q; obtain ⟨q1, q2⟩ := s1 q; subst q2; exact ⟨q1, rfl⟩
  · rw [is.len]; exact s2
  · rw [decode_row is.op is.len hn]; exact h _ is (Raw.tail hx)

/-- A raw instruction whose word 0 has these fields of form V. -/
structure Raw.IsV (r : Raw) (op len vd va vb vc p z f : Nat) : Prop where
  op : r.op = op
  len : r.len = len
  vd : r.vd = vd
  va : r.va = va
  vb : r.vb = vb
  vc : r.vc = vc
  pv : r.pv = p
  z : r.z = z
  fn3 : r.fn3 = f

theorem Reads.formV {op len vd va vb vc p z f w1 lit : Nat} {x : W2} {i : Instr} (hn : (lens op).contains len = true)
    (hl : len < 4) (ho : op < 128) (hvd : vd < 16) (hva : va < 16) (hvb : vb < 16) (hvc : vc < 16) (hp : p < 8) (hz : z < 2) (hf : f < 8) (h1 : w1 < 2 ^ 32) (h3 : lit < 2 ^ 64)
    (hx : x.fits) (s1 : len = 0 ∨ len = 2 → w1 = 0 ∧ x = {}) (s2 : len = 0 ∨ len = 1 → lit = 0)
    (h : ∀ r : Raw, r.IsV op len vd va vb vc p z f → r.Tail w1 x lit → decodeRow op r = .ok i) :
    Reads i ⟨wV op len vd va vb vc p z f, w1, x.word, lit⟩ := by
  have is : Raw.IsV ⟨wV op len vd va vb vc p z f, w1, x.word, lit⟩ op len vd va vb vc p z f :=
    ⟨fld_wV_op hl ho, fld_wV_len hl, fld_wV_vd hl ho hvd, fld_wV_va hl ho hvd hva, fld_wV_vb hl ho hvd hva hvb, fld_wV_vc hl ho hvd hva hvb hvc, fld_wV_p hl ho hvd hva hvb hvc hp, fld_wV_z hl ho hvd hva hvb hvc hp hz, fld_wV_f hl ho hvd hva hvb hvc hp hz hf⟩
  refine Reads.of_raw (wV_lt hl ho hvd hva hvb hvc hp hz hf) h1 (W2.word_fits hx) h3 ?_ ?_ ?_
  · rw [is.len]; intro q; obtain ⟨q1, q2⟩ := s1 q; subst q2; exact ⟨q1, rfl⟩
  · rw [is.len]; exact s2
  · rw [decode_row is.op is.len hn]; exact h _ is (Raw.tail hx)

end Sys2Proof
end

