-- ==== Sys2Proof/Laws/Codes.lean ====
section
/-! SUPPORT. The codes of the enumerations: they fit their fields, and reading them back gives the value (03_formats.md R42,
R47, R54). -/

namespace Sys2Proof

theorem Ty.code_lt (m : Ty) : m.code < 32 := by cases m <;> decide
@[simp] theorem Ty.ofCode_code (m : Ty) : Ty.ofCode m.code = some m := by cases m <;> rfl
theorem Rm.code_lt (m : Rm) : m.code < 6 := by cases m <;> decide
@[simp] theorem Rm.ofCode_code (m : Rm) : Rm.ofCode m.code = some m := by cases m <;> rfl
theorem ICond.code_lt (m : ICond) : m.code < 6 := by cases m <;> decide
@[simp] theorem ICond.ofCode_code (m : ICond) : ICond.ofCode m.code = some m := by cases m <;> rfl
theorem Cond.code_lt (m : Cond) : m.code < 13 := by rcases m with c | c <;> cases c <;> decide
@[simp] theorem Cond.ofCode_code (m : Cond) : Cond.ofCode m.code = some m := by rcases m with c | c <;> cases c <;> rfl
theorem Quant.code_lt (m : Quant) : m.code < 3 := by cases m <;> decide
@[simp] theorem Quant.ofCode_code (m : Quant) : Quant.ofCode m.code = some m := by cases m <;> rfl
theorem Dir.code_lt (m : Dir) : m.code < 4 := by cases m <;> decide
@[simp] theorem Dir.ofCode_code (m : Dir) : Dir.ofCode m.code = m := by cases m <;> rfl
theorem AddFn.code_lt (m : AddFn) : m.code < 3 := by cases m <;> decide
@[simp] theorem AddFn.ofCode_code (m : AddFn) : AddFn.ofCode m.code = some m := by cases m <;> rfl
theorem MulhiFn.code_lt (m : MulhiFn) : m.code < 3 := by cases m <;> decide
@[simp] theorem MulhiFn.ofCode_code (m : MulhiFn) : MulhiFn.ofCode m.code = some m := by cases m <;> rfl
theorem ClzFn.code_lt (m : ClzFn) : m.code < 4 := by cases m <;> decide
@[simp] theorem ClzFn.ofCode_code (m : ClzFn) : ClzFn.ofCode m.code = some m := by cases m <;> rfl
theorem SfFn.code_lt (m : SfFn) : m.code < 14 := by cases m <;> decide
@[simp] theorem SfFn.ofCode_code (m : SfFn) : SfFn.ofCode m.code = some m := by cases m <;> rfl
theorem FTy.code_lt (m : FTy) : m.code < 32 := by cases m <;> decide
@[simp] theorem FTy.ofCode_code (m : FTy) : FTy.ofCode m.code = some m := by cases m <;> rfl
theorem MSize.code_lt (m : MSize) : m.code < 4 := by cases m <;> decide
@[simp] theorem MSize.ofCode_code (m : MSize) : MSize.ofCode m.code = m := by cases m <;> rfl
theorem Scope.code_lt (m : Scope) : m.code < 5 := by cases m <;> decide
@[simp] theorem Scope.ofCode_code (m : Scope) : Scope.ofCode m.code = some m := by cases m <;> rfl
theorem AtomOp.code_lt (m : AtomOp) : m.code < 13 := by cases m <;> decide
@[simp] theorem AtomOp.ofCode_code (m : AtomOp) : AtomOp.ofCode m.code = some m := by cases m <;> rfl
theorem FenceKind.code_lt (m : FenceKind) : m.code < 4 := by cases m <;> decide
@[simp] theorem FenceKind.ofCode_code (m : FenceKind) : FenceKind.ofCode m.code = some m := by cases m <;> rfl
theorem WaitCond.code_lt (m : WaitCond) : m.code < 3 := by cases m <;> decide
@[simp] theorem WaitCond.ofCode_code (m : WaitCond) : WaitCond.ofCode m.code = some m := by cases m <;> rfl
theorem VCode.code_lt (m : VCode) : m.code < 3 := by cases m <;> decide
@[simp] theorem VCode.ofCode_code (m : VCode) : VCode.ofCode m.code = some m := by cases m <;> rfl
theorem VSat.code_lt (m : VSat) : m.code < 2 := by cases m <;> decide
@[simp] theorem VSat.ofCode_code (m : VSat) : VSat.ofCode m.code = some m := by cases m <;> rfl
theorem VMulFn.code_lt (m : VMulFn) : m.code < 3 := by cases m <;> decide
@[simp] theorem VMulFn.ofCode_code (m : VMulFn) : VMulFn.ofCode m.code = some m := by cases m <;> rfl
theorem VMmFn.code_lt (m : VMmFn) : m.code < 4 := by cases m <;> decide
@[simp] theorem VMmFn.ofCode_code (m : VMmFn) : VMmFn.ofCode m.code = some m := by cases m <;> rfl
theorem VCmpFn.code_lt (m : VCmpFn) : m.code < 5 := by cases m <;> decide
@[simp] theorem VCmpFn.ofCode_code (m : VCmpFn) : VCmpFn.ofCode m.code = some m := by cases m <;> rfl
theorem VLogFn.code_lt (m : VLogFn) : m.code < 5 := by cases m <;> decide
@[simp] theorem VLogFn.ofCode_code (m : VLogFn) : VLogFn.ofCode m.code = some m := by cases m <;> rfl
theorem VShfFn.code_lt (m : VShfFn) : m.code < 3 := by cases m <;> decide
@[simp] theorem VShfFn.ofCode_code (m : VShfFn) : VShfFn.ofCode m.code = some m := by cases m <;> rfl
theorem VSfuFn.code_lt (m : VSfuFn) : m.code < 8 := by cases m <;> decide
@[simp] theorem VSfuFn.ofCode_code (m : VSfuFn) : VSfuFn.ofCode m.code = m := by cases m <;> rfl
theorem VRedFn.code_lt (m : VRedFn) : m.code < 6 := by cases m <;> decide
@[simp] theorem VRedFn.ofCode_code (m : VRedFn) : VRedFn.ofCode m.code = some m := by cases m <;> rfl
theorem VScanFn.code_lt (m : VScanFn) : m.code < 5 := by cases m <;> decide
@[simp] theorem VScanFn.ofCode_code (m : VScanFn) : VScanFn.ofCode m.code = some m := by cases m <;> rfl
theorem VIotaFn.code_lt (m : VIotaFn) : m.code < 3 := by cases m <;> decide
@[simp] theorem VIotaFn.ofCode_code (m : VIotaFn) : VIotaFn.ofCode m.code = some m := by cases m <;> rfl
theorem VMovFn.code_lt (m : VMovFn) : m.code < 5 := by cases m <;> decide
theorem VMaskFn.code_lt (m : VMaskFn) : m.code < 3 := by cases m <;> decide
@[simp] theorem VMaskFn.ofCode_code (m : VMaskFn) : VMaskFn.ofCode m.code = some m := by cases m <;> rfl
theorem SReg.code_lt (m : SReg) : m.code < 2048 := by cases m <;> decide
@[simp] theorem SReg.ofCode_code (m : SReg) : SReg.ofCode m.code = some m := by cases m <;> rfl

@[simp] theorem bitCode_toNat (b : Bool) : bitCode b.toNat = some b := by cases b <;> rfl
@[simp] theorem xr_val (a : XReg) : xr a.val = a := by simp [xr]
@[simp] theorem vr_val (a : VReg) : vr a.val = a := by simp [vr]
@[simp] theorem pr_val (a : PReg) : pr a.val = a := by simp [pr]
@[simp] theorem toNat_eq_one (b : Bool) : decide (b.toNat = 1) = b := by cases b <;> rfl
/-- The code of an optional type, as field `ty` holds it (R42). -/
theorem tyCode_lt (t : Option Ty) : (t.map Ty.code).getD 0 < 32 := by
  cases t with
  | none => decide
  | some t => exact t.code_lt
theorem fTyCode_lt (t : Option FTy) : (t.map FTy.code).getD 0 < 32 := by
  cases t with
  | none => decide
  | some t => exact t.code_lt
theorem AtomvOp.code_lt (m : AtomvOp) : m.code < 10 := by cases m <;> simp [AtomvOp.code]
theorem BankOp.code_lt (m : BankOp) : m.code < 16 := by
  cases m with
  | own => decide
  | acc b q => have := b.isLt; have := q.isLt; simp only [BankOp.code]; omega
@[simp] theorem bankMbz_code (m : BankOp) : bankMbz m.code = true := by
  cases m with
  | own => rfl
  | acc b q => revert b q; decide
@[simp] theorem bankOf_code (m : BankOp) : bankOf m.code = m := by
  cases m with
  | own => rfl
  | acc b q => revert b q; decide
theorem QuadOp.code_lt (m : QuadOp) : m.code < 16 := by
  cases m with
  | own => decide
  | q n => have := n.isLt; simp only [QuadOp.code]; omega
@[simp] theorem quadMbz_code (m : QuadOp) : quadMbz m.code = true := by
  cases m with
  | own => rfl
  | q n => revert n; decide
@[simp] theorem quadOf_code (m : QuadOp) : quadOf m.code = m := by
  cases m with
  | own => rfl
  | q n => revert n; decide
theorem MAddr.x_lt (m : MAddr) : m.x < 2 := by rcases m with ⟨_, _ | _⟩ <;> simp [MAddr.x]
theorem MAddr.hi_lt (m : MAddr) : m.hi < 256 := by
  rcases m with ⟨_, d | ⟨sc, xi⟩⟩
  · exact d.isLt
  · have := sc.isLt; have := xi.isLt; simp only [MAddr.hi]; omega
/-- A form-M address is read back from its fields (R40). -/
theorem addr_read {r : Raw} {m : MAddr} (ha : r.a = m.base.val) (hx : r.x = m.x) (hh : r.hi8 = m.hi) : r.addr = m := by
  rcases m with ⟨base, d | ⟨sc, xi⟩⟩ <;> simp only [MAddr.x, MAddr.hi] at hx hh <;> simp only [Raw.addr, ha, hx, hh, xr_val]
  · simp
  · have := sc.isLt; have := xi.isLt
    simp only [Nat.one_ne_zero, if_false, MAddr.mk.injEq, MOff.index.injEq, true_and]
    constructor
    · apply Fin.ext; simp [Fin.ofNat]; omega
    · apply Fin.ext; simp [xr, Fin.ofNat]
theorem ordLs_lsMd (o : Option Scope) : ordLs (lsMd o) = some o := by cases o with | none => rfl | some s => cases s <;> rfl
theorem lsMd_lt (o : Option Scope) : lsMd o < 18 := by cases o with | none => decide | some s => cases s <;> decide
theorem VX.fits (x : VX) {c md : Nat} (hc : c < 64) (hm : md < 128) :
    W2.fits { c := c, ty := (x.ty.map Ty.code).getD 0, tyv := x.ty.isSome.toNat, rm := x.rm.code, md := md } := by
  have := tyCode_lt x.ty; have := x.rm.code_lt; have := x.ty.isSome.toNat_lt
  simp only [W2.fits]; omega
theorem MX.fits (x : MX) {c e md : Nat} (hc : c < 64) (he : e < 64) (hm : md < 128) :
    W2.fits { c := c, e := e, pe := x.m.p.val, ze := x.m.z.toNat, ty := (x.ty.map Ty.code).getD 0
              tyv := x.ty.isSome.toNat, md := md } := by
  have := tyCode_lt x.ty; have := x.m.z.toNat_lt; have := x.ty.isSome.toNat_lt
  simp only [W2.fits]; omega
theorem AtomOrd.md_lt (o : AtomOrd) : o.md < 77 := by
  have := o.acq.toNat_lt; have := o.rel.toNat_lt; have := o.scope.code_lt
  simp only [AtomOrd.md]; omega
@[simp] theorem W2.word_zero : W2.word {} = 0 := rfl
/-- Word 2's type fields are read back (R42). -/
theorem tyOpt_read {r : Raw} {adm : Ty → Bool} {t : Option Ty} (h : tyOk adm t = true)
    (h1 : r.ty = (t.map Ty.code).getD 0) (h2 : r.tyv = t.isSome.toNat) : r.tyOpt adm = some t := by
  cases t <;> simp_all [Raw.tyOpt, tyOk]
theorem tyMbz_read {r : Raw} {t : Option Ty} (h1 : r.ty = (t.map Ty.code).getD 0) (h2 : r.tyv = t.isSome.toNat) :
    r.tyMbz = true := by
  cases t <;> simp_all [Raw.tyMbz]
theorem tyReq_read {r : Raw} {adm : Ty → Bool} {t : Ty} (h : adm t = true) (h1 : r.ty = t.code) (h2 : r.tyv = 1) :
    r.tyReq adm = some t := by
  simp [Raw.tyReq, Raw.tyOpt, h, h1, h2]
theorem tyMbz_one {r : Raw} (h : r.tyv = 1) : r.tyMbz = true := by simp [Raw.tyMbz, h]
/-- Word 2 of a V-form instruction is read back (R144). -/
theorem vx_read {r : Raw} {adm : Ty → Bool} {x : VX} {c md w1 lit : Nat} (h : tyOk adm x.ty = true)
    (ht : r.Tail w1 { c := c, ty := (x.ty.map Ty.code).getD 0, tyv := x.ty.isSome.toNat, rm := x.rm.code, md := md } lit) :
    r.vx adm = some x := by
  simp [Raw.vx, tyOpt_read h ht.ty ht.tyv, ht.rm]
theorem vMbz_read {r : Raw} {t : Option Ty} {c rm md w1 lit : Nat} (hm : md < 4)
    (ht : r.Tail w1 { c := c, ty := (t.map Ty.code).getD 0, tyv := t.isSome.toNat, rm := rm, md := md } lit) :
    r.vMbz = true := by
  simp [Raw.vMbz, tyMbz_read ht.ty ht.tyv, ht.e, ht.pe, ht.ze, ht.md, hm]
/-- Word 2 of a tile access is read back (R165). -/
theorem mx_read {r : Raw} {x : MX} {c e md lit : Nat} (h : tyOk Ty.isElem x.ty = true)
    (ht : r.Tail x.imm.toNat { c := c, e := e, pe := x.m.p.val, ze := x.m.z.toNat, ty := (x.ty.map Ty.code).getD 0
                               tyv := x.ty.isSome.toNat, md := md } lit) : r.mx = some x := by
  simp [Raw.mx, tyOpt_read h ht.ty ht.tyv, ht.w1, Raw.xmask, ht.pe, ht.ze]
@[simp] theorem xr_zero : xr 0 = 0 := rfl
@[simp] theorem vr_zero : vr 0 = 0 := rfl
/-- A field narrower than a number read from it. -/
theorem ofNat_eq {n : Nat} [NeZero n] {a : Fin n} {k : Nat} (h : k % n = a.val) : Fin.ofNat n k = a := Fin.ext h
theorem MAddr.wfExt_hi {m : MAddr} (h : m.wfExt = true) : ¬m.x = 1 → m.hi = 0 := by
  rcases m with ⟨_, d | ⟨sc, xi⟩⟩ <;> simp_all [MAddr.wfExt, MAddr.x, MAddr.hi]
theorem ordAt_read {n : Nat} (o : AtomOrd) (h : n < 4) : ordAt (n + o.md) = some o := by
  rcases o with ⟨acq, rel, s⟩
  have : n = 0 ∨ n = 1 ∨ n = 2 ∨ n = 3 := by omega
  rcases this with e | e | e | e <;> subst e <;> cases acq <;> cases rel <;> cases s <;> rfl
theorem ordAt_mbz {n : Nat} {o : AtomOrd} (h : n < 4) (hw : o.wf = true) : ¬(n + o.md) / 4 % 4 = 0 ∨ n + o.md < 16 := by
  rcases o with ⟨acq, rel, s⟩
  have : n = 0 ∨ n = 1 ∨ n = 2 ∨ n = 3 := by omega
  rcases this with e | e | e | e <;> subst e <;> cases acq <;> cases rel <;> cases s <;> first | decide | cases hw

end Sys2Proof
end

