-- ==== Sys2Proof/Laws/Exec.lean ====
section
/-! SUPPORT. Each instruction runs its own meaning: one equation per constructor. -/

namespace Sys2Proof.Machine

set_option Elab.async false

@[simp] theorem exec_ill (code : BitVec 23) (s : State) : exec (.ill code) s = execIll code s := rfl
@[simp] theorem exec_nop (n : Fin 2048) (s : State) : exec (.nop n) s = execNop n s := rfl
@[simp] theorem exec_br (disp : BitVec 17) (s : State) : exec (.br disp) s = execBr disp s := rfl
@[simp] theorem exec_brAbsolute (t : Word) (s : State) : exec (.brAbsolute t) s = execBrAbsolute t s := rfl
@[simp] theorem exec_bc (q : Quant) (p : PReg) (disp : BitVec 17) (s : State) :
    exec (.bc q p disp) s = execBc q p disp s := rfl
@[simp] theorem exec_bcmp (c : ICond) (a : XReg) (b : XReg) (disp : BitVec 32) (s : State) :
    exec (.bcmp c a b disp) s = execBcmp c a b disp s := rfl
@[simp] theorem exec_jr (a : XReg) (s : State) : exec (.jr a) s = execJr a s := rfl
@[simp] theorem exec_call (disp : BitVec 17) (s : State) : exec (.call disp) s = execCall disp s := rfl
@[simp] theorem exec_callAbsolute (t : Word) (s : State) : exec (.callAbsolute t) s = execCallAbsolute t s := rfl
@[simp] theorem exec_ret (a : XReg) (s : State) : exec (.ret a) s = execRet a s := rfl
@[simp] theorem exec_loop (l : Level) (e : Fin 2048) (count : BitVec 32) (s : State) :
    exec (.loop l e count) s = execLoop l e count s := rfl
@[simp] theorem exec_loopr (l : Level) (a : XReg) (e : Fin 2048) (s : State) :
    exec (.loopr l a e) s = execLoopr l a e s := rfl
@[simp] theorem exec_lbrk (l : Level) (q : Quant) (p : PReg) (s : State) :
    exec (.lbrk l q p) s = execLbrk l q p s := rfl
@[simp] theorem exec_phaseX (s : State) : exec .phaseX s = execPhaseX s := rfl
@[simp] theorem exec_phaseC (s : State) : exec .phaseC s = execPhaseC s := rfl
@[simp] theorem exec_chainLeave (s : State) : exec .chainLeave s = execChainLeave s := rfl
@[simp] theorem exec_chainForm (rows : Fin 8) (cols : Fin 32) (s : State) :
    exec (.chainForm rows cols) s = execChainForm rows cols s := rfl
@[simp] theorem exec_xferVector (dir : Dir) (d : VReg) (a : VReg) (s : State) :
    exec (.xferVector dir d a) s = execXferVector dir d a s := rfl
@[simp] theorem exec_xferScalar (dir : Dir) (d : XReg) (a : XReg) (s : State) :
    exec (.xferScalar dir d a) s = execXferScalar dir d a s := rfl
@[simp] theorem exec_done (s : State) : exec .done s = execDone s := rfl
@[simp] theorem exec_exit (a : XReg) (s : State) : exec (.exit a) s = execExit a s := rfl
@[simp] theorem exec_add (f : AddFn) (d : XReg) (a : XReg) (b : XReg) (s : State) :
    exec (.add f d a b) s = execAdd f d a b s := rfl
@[simp] theorem exec_addLiteral (f : AddFn) (d : XReg) (a : XReg) (v : Word) (s : State) :
    exec (.addLiteral f d a v) s = execAddLiteral f d a v s := rfl
@[simp] theorem exec_sub (f : AddFn) (d : XReg) (a : XReg) (b : XReg) (s : State) :
    exec (.sub f d a b) s = execSub f d a b s := rfl
@[simp] theorem exec_subLiteral (f : AddFn) (d : XReg) (a : XReg) (v : Word) (s : State) :
    exec (.subLiteral f d a v) s = execSubLiteral f d a v s := rfl
@[simp] theorem exec_addi (d : XReg) (a : XReg) (im : BitVec 11) (s : State) :
    exec (.addi d a im) s = execAddi d a im s := rfl
@[simp] theorem exec_mul (d : XReg) (a : XReg) (b : XReg) (s : State) : exec (.mul d a b) s = execMul d a b s := rfl
@[simp] theorem exec_mulLiteral (d : XReg) (a : XReg) (v : Word) (s : State) :
    exec (.mulLiteral d a v) s = execMulLiteral d a v s := rfl
@[simp] theorem exec_mulhi (f : MulhiFn) (d : XReg) (a : XReg) (b : XReg) (s : State) :
    exec (.mulhi f d a b) s = execMulhi f d a b s := rfl
@[simp] theorem exec_mulhiLiteral (f : MulhiFn) (d : XReg) (a : XReg) (v : Word) (s : State) :
    exec (.mulhiLiteral f d a v) s = execMulhiLiteral f d a v s := rfl
@[simp] theorem exec_mad (neg : Bool) (d : XReg) (a : XReg) (b : XReg) (s : State) :
    exec (.mad neg d a b) s = execMad neg d a b s := rfl
@[simp] theorem exec_div (u : Bool) (d : XReg) (a : XReg) (b : XReg) (s : State) :
    exec (.div u d a b) s = execDiv u d a b s := rfl
@[simp] theorem exec_divLiteral (u : Bool) (d : XReg) (a : XReg) (v : Word) (s : State) :
    exec (.divLiteral u d a v) s = execDivLiteral u d a v s := rfl
@[simp] theorem exec_rem (u : Bool) (d : XReg) (a : XReg) (b : XReg) (s : State) :
    exec (.rem u d a b) s = execRem u d a b s := rfl
@[simp] theorem exec_remLiteral (u : Bool) (d : XReg) (a : XReg) (v : Word) (s : State) :
    exec (.remLiteral u d a v) s = execRemLiteral u d a v s := rfl
@[simp] theorem exec_and (n : Bool) (d : XReg) (a : XReg) (b : XReg) (s : State) :
    exec (.and n d a b) s = execAnd n d a b s := rfl
@[simp] theorem exec_andLiteral (n : Bool) (d : XReg) (a : XReg) (v : Word) (s : State) :
    exec (.andLiteral n d a v) s = execAndLiteral n d a v s := rfl
@[simp] theorem exec_or (n : Bool) (d : XReg) (a : XReg) (b : XReg) (s : State) :
    exec (.or n d a b) s = execOr n d a b s := rfl
@[simp] theorem exec_orLiteral (n : Bool) (d : XReg) (a : XReg) (v : Word) (s : State) :
    exec (.orLiteral n d a v) s = execOrLiteral n d a v s := rfl
@[simp] theorem exec_xor (n : Bool) (d : XReg) (a : XReg) (b : XReg) (s : State) :
    exec (.xor n d a b) s = execXor n d a b s := rfl
@[simp] theorem exec_xorLiteral (n : Bool) (d : XReg) (a : XReg) (v : Word) (s : State) :
    exec (.xorLiteral n d a v) s = execXorLiteral n d a v s := rfl
@[simp] theorem exec_shl (d : XReg) (a : XReg) (sc : ShAmt) (s : State) : exec (.shl d a sc) s = execShl d a sc s := rfl
@[simp] theorem exec_shr (d : XReg) (a : XReg) (sc : ShAmt) (s : State) : exec (.shr d a sc) s = execShr d a sc s := rfl
@[simp] theorem exec_sar (d : XReg) (a : XReg) (sc : ShAmt) (s : State) : exec (.sar d a sc) s = execSar d a sc s := rfl
@[simp] theorem exec_bfx (d : XReg) (a : XReg) (pos : Fin 64) (wid : Fin 32) (s : State) :
    exec (.bfx d a pos wid) s = execBfx d a pos wid s := rfl
@[simp] theorem exec_bfxExtended (sx : Bool) (d : XReg) (a : XReg) (pos : Fin 64) (wid : Fin 64) (s : State) :
    exec (.bfxExtended sx d a pos wid) s = execBfxExtended sx d a pos wid s := rfl
@[simp] theorem exec_bfi (d : XReg) (a : XReg) (pos : Fin 64) (wid : Fin 32) (s : State) :
    exec (.bfi d a pos wid) s = execBfi d a pos wid s := rfl
@[simp] theorem exec_bfiExtended (d : XReg) (a : XReg) (pos : Fin 64) (wid : Fin 64) (s : State) :
    exec (.bfiExtended d a pos wid) s = execBfiExtended d a pos wid s := rfl
@[simp] theorem exec_cmp (c : Cond) (p : PReg) (a : XReg) (b : XReg) (s : State) :
    exec (.cmp c p a b) s = execCmp c p a b s := rfl
@[simp] theorem exec_cmpLiteral (c : Cond) (p : PReg) (a : XReg) (v : Word) (s : State) :
    exec (.cmpLiteral c p a v) s = execCmpLiteral c p a v s := rfl
@[simp] theorem exec_cmpi (c : ICond) (p : PReg) (a : XReg) (im : BitVec 11) (s : State) :
    exec (.cmpi c p a im) s = execCmpi c p a im s := rfl
@[simp] theorem exec_sel (d : XReg) (a : XReg) (b : XReg) (p : PReg) (s : State) :
    exec (.sel d a b p) s = execSel d a b p s := rfl
@[simp] theorem exec_min (u : Bool) (d : XReg) (a : XReg) (b : XReg) (s : State) :
    exec (.min u d a b) s = execMin u d a b s := rfl
@[simp] theorem exec_minLiteral (u : Bool) (d : XReg) (a : XReg) (v : Word) (s : State) :
    exec (.minLiteral u d a v) s = execMinLiteral u d a v s := rfl
@[simp] theorem exec_max (u : Bool) (d : XReg) (a : XReg) (b : XReg) (s : State) :
    exec (.max u d a b) s = execMax u d a b s := rfl
@[simp] theorem exec_maxLiteral (u : Bool) (d : XReg) (a : XReg) (v : Word) (s : State) :
    exec (.maxLiteral u d a v) s = execMaxLiteral u d a v s := rfl
@[simp] theorem exec_clz (f : ClzFn) (d : XReg) (a : XReg) (s : State) : exec (.clz f d a) s = execClz f d a s := rfl
@[simp] theorem exec_popc (w : Bool) (d : XReg) (a : XReg) (s : State) : exec (.popc w d a) s = execPopc w d a s := rfl
@[simp] theorem exec_li (d : XReg) (im : BitVec 11) (s : State) : exec (.li d im) s = execLi d im s := rfl
@[simp] theorem exec_liLiteral (d : XReg) (v : Word) (s : State) : exec (.liLiteral d v) s = execLiLiteral d v s := rfl
@[simp] theorem exec_plog (t : BitVec 4) (d : PReg) (a : PReg) (b : PReg) (s : State) :
    exec (.plog t d a b) s = execPlog t d a b s := rfl
@[simp] theorem exec_plogFromx (d : PReg) (a : XReg) (s : State) : exec (.plogFromx d a) s = execPlogFromx d a s := rfl
@[simp] theorem exec_plogTox (d : XReg) (a : PReg) (s : State) : exec (.plogTox d a) s = execPlogTox d a s := rfl
@[simp] theorem exec_srd (d : XReg) (n : SReg) (s : State) : exec (.srd d n) s = execSrd d n s := rfl
@[simp] theorem exec_swr (n : SReg) (a : XReg) (s : State) : exec (.swr n a) s = execSwr n a s := rfl
@[simp] theorem exec_time (d : XReg) (s : State) : exec (.time d) s = execTime d s := rfl
@[simp] theorem exec_timeFx (d : XReg) (s : State) : exec (.timeFx d) s = execTimeFx d s := rfl
@[simp] theorem exec_lea (d : XReg) (m : MAddr) (s : State) : exec (.lea d m) s = execLea d m s := rfl
@[simp] theorem exec_leaExtended (d : XReg) (m : MAddr) (imm : BitVec 32) (s : State) :
    exec (.leaExtended d m imm) s = execLeaExtended d m imm s := rfl
@[simp] theorem exec_sfop (f : SfFn) (d : XReg) (a : XReg) (b : XReg) (s : State) :
    exec (.sfop f d a b) s = execSfop f d a b s := rfl
@[simp] theorem exec_sfopExtended (f : SfFn) (ty : Option FTy) (rm : Rm) (d : XReg) (a : XReg) (b : XReg) (s : State) :
    exec (.sfopExtended f ty rm d a b) s = execSfopExtended f ty rm d a b s := rfl
@[simp] theorem exec_sfma (neg : Bool) (sub : Bool) (d : XReg) (a : XReg) (b : XReg) (s : State) :
    exec (.sfma neg sub d a b) s = execSfma neg sub d a b s := rfl
@[simp] theorem exec_sfmaExtended (neg : Bool) (sub : Bool) (ty : Option FTy) (rm : Rm) (d : XReg) (a : XReg) (b : XReg) (s : State) :
    exec (.sfmaExtended neg sub ty rm d a b) s = execSfmaExtended neg sub ty rm d a b s := rfl
@[simp] theorem exec_scvt (target : Ty) (source : Ty) (sat : Bool) (d : XReg) (a : XReg) (s : State) :
    exec (.scvt target source sat d a) s = execScvt target source sat d a s := rfl
@[simp] theorem exec_scvtExtended (target : Ty) (source : Ty) (sat : Bool) (rm : Rm) (d : XReg) (a : XReg) (s : State) :
    exec (.scvtExtended target source sat rm d a) s = execScvtExtended target source sat rm d a s := rfl
@[simp] theorem exec_ld (sz : MSize) (d : XReg) (m : MAddr) (s : State) : exec (.ld sz d m) s = execLd sz d m s := rfl
@[simp] theorem exec_ldExtended (sz : MSize) (d : XReg) (m : MAddr) (imm : BitVec 32) (acq : Option Scope) (sx : Bool) (s : State) :
    exec (.ldExtended sz d m imm acq sx) s = execLdExtended sz d m imm acq sx s := rfl
@[simp] theorem exec_st (sz : MSize) (m : MAddr) (d : XReg) (s : State) : exec (.st sz m d) s = execSt sz m d s := rfl
@[simp] theorem exec_stExtended (sz : MSize) (m : MAddr) (d : XReg) (imm : BitVec 32) (rel : Option Scope) (s : State) :
    exec (.stExtended sz m d imm rel) s = execStExtended sz m d imm rel s := rfl
@[simp] theorem exec_memoryStorePerform (q : PerformStep) (s : State) :
    exec (.memoryStorePerform q) s = execMemoryStorePerform q s := rfl
@[simp] theorem exec_ldf (keep : Bool) (d : XReg) (m : MAddr) (x : Option (BitVec 32)) (s : State) :
    exec (.ldf keep d m x) s = execLdf keep d m x s := rfl
@[simp] theorem exec_stf (m : MAddr) (d : XReg) (x : Option (BitVec 32)) (s : State) :
    exec (.stf m d x) s = execStf m d x s := rfl
@[simp] theorem exec_atom (op : AtomOp) (sz : MSize) (o : AtomOrd) (d : XReg) (a : XReg) (b : XReg) (c : XReg) (imm : BitVec 32) (s : State) :
    exec (.atom op sz o d a b c imm) s = execAtom op sz o d a b c imm s := rfl
@[simp] theorem exec_atomv (op : AtomvOp) (o : AtomOrd) (d : XReg) (e : XReg) (a : XReg) (b : XReg) (c : XReg) (imm : BitVec 32) (s : State) :
    exec (.atomv op o d e a b c imm) s = execAtomv op o d e a b c imm s := rfl
@[simp] theorem exec_watch (m : MAddr) (s : State) : exec (.watch m) s = execWatch m s := rfl
@[simp] theorem exec_waitw (c : WaitCond) (d : XReg) (a : XReg) (s : State) :
    exec (.waitw c d a) s = execWaitw c d a s := rfl
@[simp] theorem exec_fence (k : FenceKind) (sc : Scope) (s : State) : exec (.fence k sc) s = execFence k sc s := rfl
@[simp] theorem exec_bar (tag : Fin 4) (d : XReg) (s : State) : exec (.bar tag d) s = execBar tag d s := rfl
@[simp] theorem exec_barrierGenerationComplete (lid : Nat) (level : Nat) (dom : Nat) (tag : Fin 4) (s : State) :
    exec (.barrierGenerationComplete lid level dom tag) s = execBarrierGenerationComplete lid level dom tag s := rfl
@[simp] theorem exec_cntToken (d : XReg) (a : XReg) (wire : Option XReg) (s : State) :
    exec (.cntToken d a wire) s = execCntToken d a wire s := rfl
@[simp] theorem exec_cntAntiToken (d : XReg) (a : XReg) (wire : Option XReg) (s : State) :
    exec (.cntAntiToken d a wire) s = execCntAntiToken d a wire s := rfl
@[simp] theorem exec_balancerStep (key : NetKey) (im : Nat) (s : State) :
    exec (.balancerStep key im) s = execBalancerStep key im s := rfl
@[simp] theorem exec_exitStep (key : NetKey) (im : Nat) (s : State) :
    exec (.exitStep key im) s = execExitStep key im s := rfl
@[simp] theorem exec_killCompensation (key : NetKey) (im : Nat) (s : State) :
    exec (.killCompensation key im) s = execKillCompensation key im s := rfl
@[simp] theorem exec_recv (anytag : Bool) (d : XReg) (a : XReg) (b : XReg) (c : XReg) (tag : BitVec 32) (s : State) :
    exec (.recv anytag d a b c tag) s = execRecv anytag d a b c tag s := rfl
@[simp] theorem exec_send (mc : Bool) (d : XReg) (a : XReg) (b : XReg) (c : XReg) (tag : BitVec 32) (pe : PReg) (s : State) :
    exec (.send mc d a b c tag pe) s = execSend mc d a b c tag pe s := rfl
@[simp] theorem exec_sendLiteral (mc : Bool) (d : XReg) (c : XReg) (tag : BitVec 32) (pe : PReg) (v : Word) (s : State) :
    exec (.sendLiteral mc d c tag pe v) s = execSendLiteral mc d c tag pe v s := rfl
@[simp] theorem exec_messageArrival (q : LandStep) (s : State) :
    exec (.messageArrival q) s = execMessageArrival q s := rfl
@[simp] theorem exec_sendn (dir : Dir) (d : XReg) (a : XReg) (b : XReg) (c : XReg) (pe : PReg) (s : State) :
    exec (.sendn dir d a b c pe) s = execSendn dir d a b c pe s := rfl
@[simp] theorem exec_halo (dirs : BitVec 4) (d : XReg) (a : XReg) (b : XReg) (c : XReg) (q : BitVec 32) (pe : PReg) (s : State) :
    exec (.halo dirs d a b c q pe) s = execHalo dirs d a b c q pe s := rfl
@[simp] theorem exec_neighbourArrival (q : LandStep) (s : State) :
    exec (.neighbourArrival q) s = execNeighbourArrival q s := rfl
@[simp] theorem exec_probe (anytag : Bool) (d : XReg) (a : XReg) (b : XReg) (s : State) :
    exec (.probe anytag d a b) s = execProbe anytag d a b s := rfl
@[simp] theorem exec_copyIn (win : Bool) (d : XReg) (a : XReg) (b : XReg) (c : XReg) (e : XReg) (w1 : BitVec 32) (pe : PReg) (s : State) :
    exec (.copyIn win d a b c e w1 pe) s = execCopyIn win d a b c e w1 pe s := rfl
@[simp] theorem exec_copyOut (win : Bool) (d : XReg) (a : XReg) (b : XReg) (c : XReg) (e : XReg) (w1 : BitVec 32) (pe : PReg) (s : State) :
    exec (.copyOut win d a b c e w1 pe) s = execCopyOut win d a b c e w1 pe s := rfl
@[simp] theorem exec_gather (i64 : Bool) (ty : Ty) (d : XReg) (a : XReg) (b : XReg) (c : XReg) (e : XReg) (stride : BitVec 32) (pe : PReg) (s : State) :
    exec (.gather i64 ty d a b c e stride pe) s = execGather i64 ty d a b c e stride pe s := rfl
@[simp] theorem exec_scatter (i64 : Bool) (ty : Ty) (d : XReg) (a : XReg) (b : XReg) (c : XReg) (e : XReg) (stride : BitVec 32) (pe : PReg) (s : State) :
    exec (.scatter i64 ty d a b c e stride pe) s = execScatter i64 ty d a b c e stride pe s := rfl
@[simp] theorem exec_put (d : XReg) (a : XReg) (b : XReg) (c : XReg) (e : XReg) (pe : PReg) (s : State) :
    exec (.put d a b c e pe) s = execPut d a b c e pe s := rfl
@[simp] theorem exec_engineStampWrite (q : LandStep) (s : State) :
    exec (.engineStampWrite q) s = execEngineStampWrite q s := rfl
@[simp] theorem exec_putHandoff (im : HandStep) (s : State) : exec (.putHandoff im) s = execPutHandoff im s := rfl
@[simp] theorem exec_publish (a : XReg) (s : State) : exec (.publish a) s = execPublish a s := rfl
@[simp] theorem exec_shadow (d : XReg) (a : XReg) (s : State) : exec (.shadow d a) s = execShadow d a s := rfl
@[simp] theorem exec_launch (child : Bool) (d : XReg) (a : XReg) (b : XReg) (s : State) :
    exec (.launch child d a b) s = execLaunch child d a b s := rfl
@[simp] theorem exec_task (d : XReg) (a : XReg) (s : State) : exec (.task d a) s = execTask d a s := rfl
@[simp] theorem exec_join (d : XReg) (a : XReg) (b : XReg) (s : State) : exec (.join d a b) s = execJoin d a b s := rfl
@[simp] theorem exec_joinDecrement (lid : Nat) (va : Word) (s : State) :
    exec (.joinDecrement lid va) s = execJoinDecrement lid va s := rfl
@[simp] theorem exec_trap (n : BitVec 11) (s : State) : exec (.trap n) s = execTrap n s := rfl
@[simp] theorem exec_brk (n : BitVec 11) (s : State) : exec (.brk n) s = execBrk n s := rfl
@[simp] theorem exec_eret (s : State) : exec .eret s = execEret s := rfl
@[simp] theorem exec_eretSkip (s : State) : exec .eretSkip s = execEretSkip s := rfl
@[simp] theorem exec_eretTo (a : XReg) (s : State) : exec (.eretTo a) s = execEretTo a s := rfl
@[simp] theorem exec_live (d : XReg) (b : XReg) (s : State) : exec (.live d b) s = execLive d b s := rfl
@[simp] theorem exec_liveLiteral (d : XReg) (v : Word) (s : State) :
    exec (.liveLiteral d v) s = execLiveLiteral d v s := rfl
@[simp] theorem exec_yield (d : XReg) (s : State) : exec (.yield d) s = execYield d s := rfl
@[simp] theorem exec_yieldPoll (d : XReg) (s : State) : exec (.yieldPoll d) s = execYieldPoll d s := rfl
@[simp] theorem exec_valid (c : VCode) (a : XReg) (b : XReg) (s : State) :
    exec (.valid c a b) s = execValid c a b s := rfl
@[simp] theorem exec_validImmediate (c : VCode) (a : XReg) (n : BitVec 32) (s : State) :
    exec (.validImmediate c a n) s = execValidImmediate c a n s := rfl
@[simp] theorem exec_validOpen (a : XReg) (b : XReg) (s : State) : exec (.validOpen a b) s = execValidOpen a b s := rfl
@[simp] theorem exec_validOpenImmediate (a : XReg) (n : BitVec 32) (s : State) :
    exec (.validOpenImmediate a n) s = execValidOpenImmediate a n s := rfl
@[simp] theorem exec_routeDisp (d : VReg) (a : VReg) (kc : Fin 8) (sc : Fin 4) (m : VMask) (s : State) :
    exec (.routeDisp d a kc sc m) s = execRouteDisp d a kc sc m s := rfl
@[simp] theorem exec_routeRedir (d : VReg) (a : VReg) (kc : Fin 8) (sc : Fin 4) (m : VMask) (s : State) :
    exec (.routeRedir d a kc sc m) s = execRouteRedir d a kc sc m s := rfl
@[simp] theorem exec_routeClose (d : XReg) (a : XReg) (s : State) :
    exec (.routeClose d a) s = execRouteClose d a s := rfl
@[simp] theorem exec_routeInfo (d : VReg) (a : VReg) (sc : Fin 4) (m : VMask) (s : State) :
    exec (.routeInfo d a sc m) s = execRouteInfo d a sc m s := rfl
@[simp] theorem exec_rtpinPin (d : XReg) (a : XReg) (sc : Fin 4) (s : State) :
    exec (.rtpinPin d a sc) s = execRtpinPin d a sc s := rfl
@[simp] theorem exec_rtpinRel (sc : Fin 4) (s : State) : exec (.rtpinRel sc) s = execRtpinRel sc s := rfl
@[simp] theorem exec_rtpinHealth (d : XReg) (s : State) : exec (.rtpinHealth d) s = execRtpinHealth d s := rfl
@[simp] theorem exec_rtpinCur (d : XReg) (a : XReg) (s : State) : exec (.rtpinCur d a) s = execRtpinCur d a s := rfl
@[simp] theorem exec_vadd (f : VSat) (m : VMask) (d : VReg) (a : VReg) (b : VSrc) (x : Option VX) (s : State) :
    exec (.vadd f m d a b x) s = execVadd f m d a b x s := rfl
@[simp] theorem exec_vsub (f : VSat) (m : VMask) (d : VReg) (a : VReg) (b : VSrc) (x : Option VX) (s : State) :
    exec (.vsub f m d a b x) s = execVsub f m d a b x s := rfl
@[simp] theorem exec_vmul (f : VMulFn) (m : VMask) (d : VReg) (a : VReg) (b : VSrc) (x : Option VX) (s : State) :
    exec (.vmul f m d a b x) s = execVmul f m d a b x s := rfl
@[simp] theorem exec_vfma (neg : Bool) (sub : Bool) (m : VMask) (d : VReg) (a : VReg) (b : VSrc) (c : VReg) (x : Option VX) (s : State) :
    exec (.vfma neg sub m d a b c x) s = execVfma neg sub m d a b c x s := rfl
@[simp] theorem exec_vminmax (f : VMmFn) (m : VMask) (d : VReg) (a : VReg) (b : VSrc) (x : Option VX) (s : State) :
    exec (.vminmax f m d a b x) s = execVminmax f m d a b x s := rfl
@[simp] theorem exec_vcmp (f : VCmpFn) (m : VMask) (d : VReg) (a : VReg) (b : VSrc) (x : Option VX) (s : State) :
    exec (.vcmp f m d a b x) s = execVcmp f m d a b x s := rfl
@[simp] theorem exec_vsel (m : VMask) (d : VReg) (a : VReg) (b : VReg) (c : VReg) (s : State) :
    exec (.vsel m d a b c) s = execVsel m d a b c s := rfl
@[simp] theorem exec_vcvt (f : VSat) (m : VMask) (d : VReg) (a : VReg) (src : Ty) (x : VX) (s : State) :
    exec (.vcvt f m d a src x) s = execVcvt f m d a src x s := rfl
@[simp] theorem exec_vlog (f : VLogFn) (m : VMask) (d : VReg) (a : VReg) (b : VReg) (s : State) :
    exec (.vlog f m d a b) s = execVlog f m d a b s := rfl
@[simp] theorem exec_vshf (f : VShfFn) (m : VMask) (d : VReg) (a : VReg) (b : VAmt) (x : Option VX) (s : State) :
    exec (.vshf f m d a b x) s = execVshf f m d a b x s := rfl
@[simp] theorem exec_vsfu (f : VSfuFn) (m : VMask) (d : VReg) (a : VReg) (x : Option VX) (s : State) :
    exec (.vsfu f m d a x) s = execVsfu f m d a x s := rfl
@[simp] theorem exec_vred (f : VRedFn) (m : VMask) (d : VReg) (a : VReg) (x : Option VX) (s : State) :
    exec (.vred f m d a x) s = execVred f m d a x s := rfl
@[simp] theorem exec_vscan (f : VScanFn) (m : VMask) (d : VReg) (a : VReg) (x : Option VX) (s : State) :
    exec (.vscan f m d a x) s = execVscan f m d a x s := rfl
@[simp] theorem exec_vperm (m : VMask) (d : VReg) (a : VReg) (b : VReg) (x : Option VX) (s : State) :
    exec (.vperm m d a b x) s = execVperm m d a b x s := rfl
@[simp] theorem exec_vpermTr (d : VReg) (a : VReg) (x : Option VX) (s : State) :
    exec (.vpermTr d a x) s = execVpermTr d a x s := rfl
@[simp] theorem exec_viota (f : VIotaFn) (m : VMask) (d : VReg) (start : BitVec 32) (x : Option VX) (s : State) :
    exec (.viota f m d start x) s = execViota f m d start x s := rfl
@[simp] theorem exec_vmov (f : VMovFn) (m : VMask) (d : VReg) (a : VReg) (x : Option VX) (s : State) :
    exec (.vmov f m d a x) s = execVmov f m d a x s := rfl
@[simp] theorem exec_vmovScalar (m : VMask) (d : VReg) (c : XReg) (x : VX) (s : State) :
    exec (.vmovScalar m d c x) s = execVmovScalar m d c x s := rfl
@[simp] theorem exec_vmovLiteral (m : VMask) (d : VReg) (v : Word) (x : VX) (s : State) :
    exec (.vmovLiteral m d v x) s = execVmovLiteral m d v x s := rfl
@[simp] theorem exec_vshape (rows : Fin 32) (cols : Fin 2048) (ty : Ty) (s : State) :
    exec (.vshape rows cols ty) s = execVshape rows cols ty s := rfl
@[simp] theorem exec_vld (d : VReg) (m : MAddr) (x : Option MX) (s : State) :
    exec (.vld d m x) s = execVld d m x s := rfl
@[simp] theorem exec_vldShaped (d : VReg) (a : XReg) (c : XReg) (e : XReg) (x : MX) (s : State) :
    exec (.vldShaped d a c e x) s = execVldShaped d a c e x s := rfl
@[simp] theorem exec_vst (m : MAddr) (d : VReg) (x : Option MX) (s : State) :
    exec (.vst m d x) s = execVst m d x s := rfl
@[simp] theorem exec_vstShaped (a : XReg) (c : XReg) (e : XReg) (d : VReg) (x : MX) (s : State) :
    exec (.vstShaped a c e d x) s = execVstShaped a c e d x s := rfl
@[simp] theorem exec_vldf (keep : Bool) (d : VReg) (m : MAddr) (x : Option MX) (s : State) :
    exec (.vldf keep d m x) s = execVldf keep d m x s := rfl
@[simp] theorem exec_vldx (d : VReg) (a : XReg) (b : VReg) (m : VMask) (ty : Option Ty) (s : State) :
    exec (.vldx d a b m ty) s = execVldx d a b m ty s := rfl
@[simp] theorem exec_vstx (a : XReg) (b : VReg) (d : VReg) (p : PReg) (ty : Option Ty) (s : State) :
    exec (.vstx a b d p ty) s = execVstx a b d p ty s := rfl
@[simp] theorem exec_vpackUnpack (m : VMask) (d : VReg) (a : VReg) (rt : Ty) (x : VX) (s : State) :
    exec (.vpackUnpack m d a rt x) s = execVpackUnpack m d a rt x s := rfl
@[simp] theorem exec_vpackPack (m : VMask) (d : VReg) (a : VReg) (b : VReg) (rt : Ty) (x : VX) (s : State) :
    exec (.vpackPack m d a b rt x) s = execVpackPack m d a b rt x s := rfl
@[simp] theorem exec_hsift (k : Fin 16) (new : Bool) (a : XReg) (b : VReg) (d : VReg) (c : XReg) (p : PReg) (s : State) :
    exec (.hsift k new a b d c p) s = execHsift k new a b d c p s := rfl
@[simp] theorem exec_vdot (f : VSat) (m : VMask) (d : VReg) (a : VReg) (b : VReg) (c : VReg) (x : Option VX) (s : State) :
    exec (.vdot f m d a b c x) s = execVdot f m d a b c x s := rfl
@[simp] theorem exec_vbmax (abs : Bool) (m : VMask) (d : VReg) (a : VReg) (x : Option VX) (s : State) :
    exec (.vbmax abs m d a x) s = execVbmax abs m d a x s := rfl
@[simp] theorem exec_vqnt (m : VMask) (d : VReg) (a : VReg) (rt : Ty) (x : VX) (s : State) :
    exec (.vqnt m d a rt x) s = execVqnt m d a rt x s := rfl
@[simp] theorem exec_vmask (f : VMaskFn) (d : PReg) (a : VReg) (s : State) :
    exec (.vmask f d a) s = execVmask f d a s := rfl
@[simp] theorem exec_vmaskExpand (d : VReg) (a : PReg) (s : State) :
    exec (.vmaskExpand d a) s = execVmaskExpand d a s := rfl
@[simp] theorem exec_vclamp (m : VMask) (d : VReg) (a : VReg) (b : VReg) (c : VReg) (x : Option VX) (s : State) :
    exec (.vclamp m d a b c x) s = execVclamp m d a b c x s := rfl
@[simp] theorem exec_vclampLiteral (m : VMask) (d : VReg) (a : VReg) (v : Word) (x : VX) (s : State) :
    exec (.vclampLiteral m d a v x) s = execVclampLiteral m d a v x s := rfl
@[simp] theorem exec_vrnd (m : VMask) (d : VReg) (a : VReg) (x : Option VX) (s : State) :
    exec (.vrnd m d a x) s = execVrnd m d a x s := rfl
@[simp] theorem exec_vext (d : XReg) (a : VReg) (b : XReg) (c : XReg) (ty : Option Ty) (s : State) :
    exec (.vext d a b c ty) s = execVext d a b c ty s := rfl
@[simp] theorem exec_vins (d : VReg) (a : XReg) (b : XReg) (c : XReg) (ty : Option Ty) (s : State) :
    exec (.vins d a b c ty) s = execVins d a b c ty s := rfl
@[simp] theorem exec_mwld (q : QuadOp) (a : XReg) (b : XReg) (c : XReg) (k : Fin 1024) (n : Fin 256) (pe : PReg) (s : State) :
    exec (.mwld q a b c k n pe) s = execMwld q a b c k n pe s := rfl
@[simp] theorem exec_mma (neg : Bool) (accz : Bool) (ty : Ty) (acc : BankOp) (a : XReg) (b : XReg) (c : XReg) (stride : Fin 16384) (pe : PReg) (s : State) :
    exec (.mma neg accz ty acc a b c stride pe) s = execMma neg accz ty acc a b c stride pe s := rfl
@[simp] theorem exec_mmg (neg : Bool) (accz : Bool) (nt : Fin 8) (ty : Ty) (acc : BankOp) (a : XReg) (b : XReg) (c : XReg) (e : XReg) (k : Fin 1024) (n : Fin 256) (stride : Fin 16384) (pe : PReg) (s : State) :
    exec (.mmg neg accz nt ty acc a b c e k n stride pe) s = execMmg neg accz nt ty acc a b c e k n stride pe s := rfl
@[simp] theorem exec_mdrain (clr : Bool) (ty : Ty) (rm : Rm) (acc : BankOp) (a : XReg) (b : XReg) (c : XReg) (n : Fin 256) (stride : Fin 16384) (pe : PReg) (s : State) :
    exec (.mdrain clr ty rm acc a b c n stride pe) s = execMdrain clr ty rm acc a b c n stride pe s := rfl
@[simp] theorem exec_mzero (acc : BankOp) (pe : PReg) (s : State) : exec (.mzero acc pe) s = execMzero acc pe s := rfl
@[simp] theorem exec_mfuse (mode : Fin 8) (pe : PReg) (s : State) : exec (.mfuse mode pe) s = execMfuse mode pe s := rfl
@[simp] theorem exec_mmap (b : XReg) (s : State) : exec (.mmap b) s = execMmap b s := rfl
@[simp] theorem exec_mmapOwn (s : State) : exec .mmapOwn s = execMmapOwn s := rfl
@[simp] theorem exec_mmapLiteral (v : Word) (s : State) : exec (.mmapLiteral v) s = execMmapLiteral v s := rfl
@[simp] theorem exec_mvb (out : Ty) (ty : Ty) (rm : Rm) (d : XReg) (a : XReg) (b : XReg) (c : XReg) (e : XReg) (nv : Fin 8) (pe : PReg) (s : State) :
    exec (.mvb out ty rm d a b c e nv pe) s = execMvb out ty rm d a b c e nv pe s := rfl
@[simp] theorem exec_matrixTurn (t : TurnStep) (s : State) : exec (.matrixTurn t) s = execMatrixTurn t s := rfl
@[simp] theorem exec_mstatRd (d : XReg) (s : State) : exec (.mstatRd d) s = execMstatRd d s := rfl
@[simp] theorem exec_mstatDone (d : XReg) (s : State) : exec (.mstatDone d) s = execMstatDone d s := rfl
@[simp] theorem exec_mstatCfg (d : XReg) (s : State) : exec (.mstatCfg d) s = execMstatCfg d s := rfl
@[simp] theorem exec_mstatFlags (d : XReg) (acc : BankOp) (s : State) :
    exec (.mstatFlags d acc) s = execMstatFlags d acc s := rfl
@[simp] theorem exec_mstatNbf (d : XReg) (s : State) : exec (.mstatNbf d) s = execMstatNbf d s := rfl
@[simp] theorem exec_mstatErr (d : XReg) (s : State) : exec (.mstatErr d) s = execMstatErr d s := rfl
@[simp] theorem exec_leaseGet (d : XReg) (a : XReg) (s : State) : exec (.leaseGet d a) s = execLeaseGet d a s := rfl
@[simp] theorem exec_leaseCmd (d : XReg) (a : XReg) (b : XReg) (s : State) :
    exec (.leaseCmd d a b) s = execLeaseCmd d a b s := rfl
@[simp] theorem exec_leaseRel (a : XReg) (s : State) : exec (.leaseRel a) s = execLeaseRel a s := rfl
@[simp] theorem exec_leaseGrant (die : Nat) (s : State) : exec (.leaseGrant die) s = execLeaseGrant die s := rfl
@[simp] theorem exec_leaseExpiry (die : Nat) (eng : Nat) (s : State) :
    exec (.leaseExpiry die eng) s = execLeaseExpiry die eng s := rfl
@[simp] theorem exec_pooledEngineCommand (die : Nat) (eng : LandStep) (s : State) :
    exec (.pooledEngineCommand die eng) s = execPooledEngineCommand die eng s := rfl
@[simp] theorem exec_tlbiVf (a : XReg) (s : State) : exec (.tlbiVf a) s = execTlbiVf a s := rfl
@[simp] theorem exec_tlbiCtx (a : XReg) (s : State) : exec (.tlbiCtx a) s = execTlbiCtx a s := rfl
@[simp] theorem exec_tlbiVa (a : XReg) (b : XReg) (s : State) : exec (.tlbiVa a b) s = execTlbiVa a b s := rfl
@[simp] theorem exec_tlbiGpa (a : XReg) (b : XReg) (s : State) : exec (.tlbiGpa a b) s = execTlbiGpa a b s := rfl
@[simp] theorem exec_tlbiAll (s : State) : exec .tlbiAll s = execTlbiAll s := rfl
@[simp] theorem exec_dharv (d : XReg) (a : XReg) (b : XReg) (s : State) :
    exec (.dharv d a b) s = execDharv d a b s := rfl
@[simp] theorem exec_cfgPart (d : XReg) (a : XReg) (t : CfgTarget) (s : State) :
    exec (.cfgPart d a t) s = execCfgPart d a t s := rfl
@[simp] theorem exec_cfgPdel (d : XReg) (a : XReg) (t : CfgTarget) (s : State) :
    exec (.cfgPdel d a t) s = execCfgPdel d a t s := rfl
@[simp] theorem exec_cfgCtx (d : XReg) (a : XReg) (t : CfgTarget) (s : State) :
    exec (.cfgCtx d a t) s = execCfgCtx d a t s := rfl
@[simp] theorem exec_cfgQueue (d : XReg) (a : XReg) (t : CfgTarget) (s : State) :
    exec (.cfgQueue d a t) s = execCfgQueue d a t s := rfl
@[simp] theorem exec_cfgInst (d : XReg) (a : XReg) (t : CfgTarget) (s : State) :
    exec (.cfgInst d a t) s = execCfgInst d a t s := rfl
@[simp] theorem exec_cfgRtab (d : XReg) (a : XReg) (t : CfgTarget) (s : State) :
    exec (.cfgRtab d a t) s = execCfgRtab d a t s := rfl
@[simp] theorem exec_cfgCls (d : XReg) (a : XReg) (t : CfgTarget) (s : State) :
    exec (.cfgCls d a t) s = execCfgCls d a t s := rfl
@[simp] theorem exec_cfgMwt (d : XReg) (a : XReg) (t : CfgTarget) (s : State) :
    exec (.cfgMwt d a t) s = execCfgMwt d a t s := rfl
@[simp] theorem exec_cfgGw (d : XReg) (a : XReg) (t : CfgTarget) (s : State) :
    exec (.cfgGw d a t) s = execCfgGw d a t s := rfl
@[simp] theorem exec_cfgTwin (d : XReg) (a : XReg) (t : CfgTarget) (s : State) :
    exec (.cfgTwin d a t) s = execCfgTwin d a t s := rfl
@[simp] theorem exec_cfgRrep (d : XReg) (a : XReg) (t : CfgTarget) (s : State) :
    exec (.cfgRrep d a t) s = execCfgRrep d a t s := rfl
@[simp] theorem exec_sealQ (d : XReg) (a : XReg) (s : State) : exec (.sealQ d a) s = execSealQ d a s := rfl
@[simp] theorem exec_sealOn (d : XReg) (a : XReg) (s : State) : exec (.sealOn d a) s = execSealOn d a s := rfl
@[simp] theorem exec_sealOff (d : XReg) (a : XReg) (s : State) : exec (.sealOff d a) s = execSealOff d a s := rfl
@[simp] theorem exec_scrubMem (d : XReg) (a : XReg) (b : XReg) (s : State) :
    exec (.scrubMem d a b) s = execScrubMem d a b s := rfl
@[simp] theorem exec_scrubSlice (d : XReg) (a : XReg) (s : State) :
    exec (.scrubSlice d a) s = execScrubSlice d a s := rfl
@[simp] theorem exec_pageRequestReply (part : Nat) (s : State) :
    exec (.pageRequestReply part) s = execPageRequestReply part s := rfl
@[simp] theorem exec_launchTake (q : Nat) (s : State) : exec (.launchTake q) s = execLaunchTake q s := rfl
@[simp] theorem exec_queueMap (q : Nat) (s : State) : exec (.queueMap q) s = execQueueMap q s := rfl
@[simp] theorem exec_queueQuantumExpiry (q : Nat) (s : State) :
    exec (.queueQuantumExpiry q) s = execQueueQuantumExpiry q s := rfl
@[simp] theorem exec_taskRingEntryTake (lid : Nat) (s : State) :
    exec (.taskRingEntryTake lid) s = execTaskRingEntryTake lid s := rfl
@[simp] theorem exec_tileRecordRead (lid : Nat) (s : State) :
    exec (.tileRecordRead lid) s = execTileRecordRead lid s := rfl
@[simp] theorem exec_taskStart (core : Nat) (s : State) : exec (.taskStart core) s = execTaskStart core s := rfl
@[simp] theorem exec_deadlinePass (lid : Nat) (s : State) : exec (.deadlinePass lid) s = execDeadlinePass lid s := rfl
@[simp] theorem exec_steepDiversion (core : Nat) (s : State) :
    exec (.steepDiversion core) s = execSteepDiversion core s := rfl
@[simp] theorem exec_steepBudgetExpiry (core : Nat) (s : State) :
    exec (.steepBudgetExpiry core) s = execSteepBudgetExpiry core s := rfl
@[simp] theorem exec_preemptGraceExpiry (ctx : Nat) (s : State) :
    exec (.preemptGraceExpiry ctx) s = execPreemptGraceExpiry ctx s := rfl
@[simp] theorem exec_fullSave (ctx : Nat) (s : State) : exec (.fullSave ctx) s = execFullSave ctx s := rfl
@[simp] theorem exec_preemptKillExpiry (ctx : Nat) (s : State) :
    exec (.preemptKillExpiry ctx) s = execPreemptKillExpiry ctx s := rfl
@[simp] theorem exec_trapRecordWrite (ctx : Nat) (s : State) :
    exec (.trapRecordWrite ctx) s = execTrapRecordWrite ctx s := rfl
@[simp] theorem exec_trapRecordDrop (ctx : Nat) (s : State) :
    exec (.trapRecordDrop ctx) s = execTrapRecordDrop ctx s := rfl
@[simp] theorem exec_coreContainment (core : Nat) (s : State) :
    exec (.coreContainment core) s = execCoreContainment core s := rfl
@[simp] theorem exec_placementIntervalEnd (tbl : Nat) (s : State) :
    exec (.placementIntervalEnd tbl) s = execPlacementIntervalEnd tbl s := rfl
@[simp] theorem exec_calderaPublish (tbl : Nat) (s : State) :
    exec (.calderaPublish tbl) s = execCalderaPublish tbl s := rfl
@[simp] theorem exec_replicaRetire (tbl : Nat) (serial : Nat) (s : State) :
    exec (.replicaRetire tbl serial) s = execReplicaRetire tbl serial s := rfl
@[simp] theorem exec_bankUnitAtomicStep (op : AtomOp) (sz : MSize) (u : UnitAt) (b : Word) (c : Word) (s : State) :
    exec (.bankUnitAtomicStep op sz u b c) s = execBankUnitAtomicStep op sz u b c s := rfl
@[simp] theorem exec_putLanding (peer : Word) (wnum : Nat) (off : Nat) (put : PutStep) (s : State) :
    exec (.putLanding peer wnum off put) s = execPutLanding peer wnum off put s := rfl
@[simp] theorem exec_segmentPreload (cluster : Nat) (s : State) :
    exec (.segmentPreload cluster) s = execSegmentPreload cluster s := rfl
@[simp] theorem exec_codeGranuleScan (hpa : Nat) (s : State) :
    exec (.codeGranuleScan hpa) s = execCodeGranuleScan hpa s := rfl
@[simp] theorem exec_pageWalk (ctx : Nat) (va : Word) (acc : Nat) (s : State) :
    exec (.pageWalk ctx va acc) s = execPageWalk ctx va acc s := rfl
@[simp] theorem exec_ptpAnnounce (data : Announce) (s : State) :
    exec (.ptpAnnounce data) s = execPtpAnnounce data s := rfl
@[simp] theorem exec_ptpSync (offset : PtpMsg) (twoStep : Bool) (s : State) :
    exec (.ptpSync offset twoStep) s = execPtpSync offset twoStep s := rfl
@[simp] theorem exec_ptpFollowUp (offset : PtpMsg) (s : State) :
    exec (.ptpFollowUp offset) s = execPtpFollowUp offset s := rfl
@[simp] theorem exec_ptpDelayResp (delay : PtpMsg) (s : State) :
    exec (.ptpDelayResp delay) s = execPtpDelayResp delay s := rfl
@[simp] theorem exec_ptpManagement (data : List Byte) (s : State) :
    exec (.ptpManagement data) s = execPtpManagement data s := rfl
@[simp] theorem exec_ptmExchange (offset : Int) (s : State) :
    exec (.ptmExchange offset) s = execPtmExchange offset s := rfl
@[simp] theorem exec_preemptRequest (ctx : Nat) (g : Nat) (k : Nat) (s : State) :
    exec (.preemptRequest ctx g k) s = execPreemptRequest ctx g k s := rfl
@[simp] theorem exec_contextResume (ctx : Nat) (core : Nat) (s : State) :
    exec (.contextResume ctx core) s = execContextResume ctx core s := rfl
@[simp] theorem exec_wordRebuild (word : Nat) (s : State) : exec (.wordRebuild word) s = execWordRebuild word s := rfl
@[simp] theorem exec_patrolSweep (die : Nat) (sub : Option Nat) (s : State) :
    exec (.patrolSweep die sub) s = execPatrolSweep die sub s := rfl
@[simp] theorem exec_dieFailure (die : Nat) (s : State) : exec (.dieFailure die) s = execDieFailure die s := rfl
@[simp] theorem exec_clockStepDown (die : Nat) (s : State) :
    exec (.clockStepDown die) s = execClockStepDown die s := rfl
@[simp] theorem exec_clockStepUp (die : Nat) (s : State) : exec (.clockStepUp die) s = execClockStepUp die s := rfl
@[simp] theorem exec_queueDoorbell (q : Nat) (v : Word) (s : State) :
    exec (.queueDoorbell q v) s = execQueueDoorbell q v s := rfl
@[simp] theorem exec_queueBaseSizeWrite (q : Nat) (size : Bool) (v : Word) (s : State) :
    exec (.queueBaseSizeWrite q size v) s = execQueueBaseSizeWrite q size v s := rfl
@[simp] theorem exec_windowTableLoad (count : Nat) (s : State) :
    exec (.windowTableLoad count) s = execWindowTableLoad count s := rfl
@[simp] theorem exec_ptpControlWrite (v : Word) (s : State) :
    exec (.ptpControlWrite v) s = execPtpControlWrite v s := rfl
@[simp] theorem exec_registerWrite (fn : Nat) (off : Nat) (v : Word) (s : State) :
    exec (.registerWrite fn off v) s = execRegisterWrite fn off v s := rfl
@[simp] theorem exec_spdmGetVersion (req : List Byte) (s : State) :
    exec (.spdmGetVersion req) s = execSpdmGetVersion req s := rfl
@[simp] theorem exec_spdmGetCapabilities (req : List Byte) (s : State) :
    exec (.spdmGetCapabilities req) s = execSpdmGetCapabilities req s := rfl
@[simp] theorem exec_spdmNegotiateAlgorithms (req : List Byte) (s : State) :
    exec (.spdmNegotiateAlgorithms req) s = execSpdmNegotiateAlgorithms req s := rfl
@[simp] theorem exec_spdmGetDigests (req : List Byte) (s : State) :
    exec (.spdmGetDigests req) s = execSpdmGetDigests req s := rfl
@[simp] theorem exec_spdmGetCertificate (slot : Nat) (req : List Byte) (s : State) :
    exec (.spdmGetCertificate slot req) s = execSpdmGetCertificate slot req s := rfl
@[simp] theorem exec_spdmChallenge (req : List Byte) (s : State) :
    exec (.spdmChallenge req) s = execSpdmChallenge req s := rfl
@[simp] theorem exec_spdmGetMeasurements (req : List Byte) (s : State) :
    exec (.spdmGetMeasurements req) s = execSpdmGetMeasurements req s := rfl
@[simp] theorem exec_pcieLinkFailure (link : Fin 2) (s : State) :
    exec (.pcieLinkFailure link) s = execPcieLinkFailure link s := rfl
@[simp] theorem exec_slovasLinkTraining (port : Nat) (peer : Word) (s : State) :
    exec (.slovasLinkTraining port peer) s = execSlovasLinkTraining port peer s := rfl
@[simp] theorem exec_slovasLinkFailure (port : Nat) (s : State) :
    exec (.slovasLinkFailure port) s = execSlovasLinkFailure port s := rfl
@[simp] theorem exec_hostWriteToDeviceMemory (ctx : Nat) (hpa : Nat) (data : List Byte) (s : State) :
    exec (.hostWriteToDeviceMemory ctx hpa data) s = execHostWriteToDeviceMemory ctx hpa data s := rfl
@[simp] theorem exec_loopBackEdge (s : State) : exec .loopBackEdge s = execLoopBackEdge s := rfl
@[simp] theorem exec_xferArrival (s : State) : exec .xferArrival s = execXferArrival s := rfl
@[simp] theorem exec_memoryLoadReturn (s : State) : exec .memoryLoadReturn s = execMemoryLoadReturn s := rfl
@[simp] theorem exec_engineCommandStart (s : State) : exec .engineCommandStart s = execEngineCommandStart s := rfl
@[simp] theorem exec_mvbStackExecute (s : State) : exec .mvbStackExecute s = execMvbStackExecute s := rfl
@[simp] theorem exec_starvationGuard (s : State) : exec .starvationGuard s = execStarvationGuard s := rfl
@[simp] theorem exec_timeSourceLoss (s : State) : exec .timeSourceLoss s = execTimeSourceLoss s := rfl
@[simp] theorem exec_holdoverExpiry (s : State) : exec .holdoverExpiry s = execHoldoverExpiry s := rfl
@[simp] theorem exec_tephraCopyRequest (s : State) : exec .tephraCopyRequest s = execTephraCopyRequest s := rfl
@[simp] theorem exec_powerOn (s : State) : exec .powerOn s = execPowerOn s := rfl
@[simp] theorem exec_warmReset (s : State) : exec .warmReset s = execWarmReset s := rfl
@[simp] theorem exec_powerLoss (s : State) : exec .powerLoss s = execPowerLoss s := rfl
@[simp] theorem exec_coldReset (s : State) : exec .coldReset s = execColdReset s := rfl
@[simp] theorem exec_delayRequest (s : State) : exec .delayRequest s = execDelayRequest s := rfl
@[simp] theorem exec_fetchReturn (s : State) : exec .fetchReturn s = execFetchReturn s := rfl

end Sys2Proof.Machine
end

