-- ==== Sys2Proof/Laws/Issue.lean ====
section
/-! SUPPORT. Instructions that find their registers free go on, in the shapes that many share (R64, R386). -/

namespace Sys2Proof.Machine

open Sys2Proof.Safety

/-- With its registers free, an instruction goes on. -/
theorem issue_free {rd wr : Regs} {s : State} (h : Free s rd wr) (k : State → Out) : issue rd wr s k = k s := by
  simp only [Free, Core.ready, Bool.and_eq_true, Option.isNone_iff_eq_none, Bool.not_eq_true'] at h
  obtain ⟨⟨hh, hb⟩, hp⟩ := h
  unfold issue reads; rw [hh, hb, hp]; rfl

/-- An instruction goes on, is held by the scoreboard, is consumed for a parity error, or stops on poison: nothing else. -/
theorem issue_cases (rd wr : Regs) (s : State) (k : State → Out) :
    issue rd wr s k = k s ∨ issue rd wr s k = .next (s.scoreWait (rd.and wr)) ∨
      ∃ f n, issue rd wr s k = .next (s.poisonStop f n) ∨
        issue rd wr s k = .next (s.upd fun c => c.consumed 0 2 (256 * f + n)) := by
  unfold issue reads
  split
  · exact .inr (.inl rfl)
  · split
    · exact .inr (.inr ⟨_, _, .inr rfl⟩)
    · exact .inr (.inr ⟨_, _, .inl rfl⟩)
    · exact .inl rfl

/-- No flag to join leaves the core as it is. -/
@[simp] theorem Core.pendF_zero (c : Core) (n : Nat) : c.pendF n 0 = c := rfl
/-- A result into `x0` is discarded (R10). -/
@[simp] theorem Core.pendX_zero (c : Core) (n : Nat) (v : Word) : c.pendX n 0 v = c := rfl
/-- A result into `p0` is discarded (R10). -/
@[simp] theorem Core.pendP_zero (c : Core) (n : Nat) (m : Mask) : c.pendP n 0 m = c := rfl
/-- `x0` reads zero (R10). -/
@[simp] theorem Core.rx_zero (c : Core) : c.rx 0 = 0 := rfl
/-- `p0` reads all ones (R10). -/
@[simp] theorem Core.rp_zero (c : Core) : c.rp 0 = BitVec.allOnes 32 := rfl

theorem State.resX_eq (s : State) (n : Nat) (d : XReg) (v : Word) : s.resX n d v = .next (xNext s n d v) := rfl
theorem State.resXF_eq (s : State) (n : Nat) (d : XReg) (v : Word) (f : Flags) : s.resXF n d v f = .next (xNext s n d v f) := rfl
theorem State.resV_eq (s : State) (n : Nat) (d : VReg) (t m : Tile) (f : Flags) : s.resV n d t m f = .next (vNext s n d t m f) := rfl
theorem State.resP_eq (s : State) (n : Nat) (d : PReg) (m : Mask) : s.resP n d m 0 = .next (pNext s n d m) := rfl
theorem State.nowX_eq (s : State) (d : XReg) (v : Word) : s.nowX d v = .next (xNext s 1 d v) := rfl
theorem State.late_eq (s : State) (d : XReg) (v : Word) :
    (.next (s.upd fun c => c.lateX d v).retire : Out) = .next (lateNext s d v) := rfl

/-- An instruction with one scalar operand. -/
theorem unX_free {n : Nat} {d a : XReg} {f : Word → Word} {s : State} (h : Free s { x := [a] } { x := [d] }) :
    unX n d a f s = .next (xNext s n d (f (s.core.rx a))) := by unfold unX; rw [issue_free h]; rfl
/-- An instruction with two scalar operands. -/
theorem binX_free {n : Nat} {d a b : XReg} {f : Word → Word → Word × Flags} {s : State}
    (h : Free s { x := [a, b] } { x := [d] }) :
    binX n d a b f s = .next (xNext s n d (f (s.core.rx a) (s.core.rx b)).1 (f (s.core.rx a) (s.core.rx b)).2) := by
  unfold binX; rw [issue_free h]; rfl
/-- An instruction with a scalar operand and a literal. -/
theorem litX_free {n : Nat} {d a : XReg} {v : Word} {f : Word → Word → Word × Flags} {s : State}
    (h : Free s { x := [a] } { x := [d] }) :
    litX n d a v f s = .next (xNext s n d (f (s.core.rx a) v).1 (f (s.core.rx a) v).2) := by
  unfold litX; rw [issue_free h]; rfl

/-- A class X instruction goes on in the exchange phase (R66). -/
theorem State.classX_exchange {s : State} (h : s.core.phase = .exchange) (op : Nat) (k : State → Out) : s.classX op k = k s := by
  unfold State.classX; simp [h]

end Sys2Proof.Machine
end

