-- ==== Sys2Proof/Laws/Landing.lean ====
section
/-! SUPPORT. What the landing of results, a passing slot and a retirement change in a core, and what they leave. -/

namespace Sys2Proof.Machine

set_option Elab.async false

/-- What a landing may change: registers with their marks, flags, the own share with its marks, and for poison that a heap
update reads, the state of containment (R63, R118, R174, R382). -/
def Core.Landed (c d : Core) : Prop :=
  d = { c with x := d.x, v := d.v, p := d.p, xPoison := d.xPoison, vPoison := d.vPoison, pPoison := d.pPoison, xBad := d.xBad, vBad := d.vBad, pBad := d.pBad, fflags := d.fflags, share := d.share, poison := d.poison, full := d.full, contained := d.contained, waiting := d.waiting, raised := d.raised }

theorem Core.Landed.refl (c : Core) : c.Landed c := rfl

theorem Core.Landed.trans {a b c : Core} (h : a.Landed b) (k : b.Landed c) : a.Landed c := by
  unfold Core.Landed at *; rw [k, h]

theorem Core.landed_shareStore (c : Core) (o : Nat) (bs : List Byte) : c.Landed (c.shareStore o bs) := rfl
theorem Core.landed_setFull (c : Core) (o n : Nat) : c.Landed (c.setFull o n) := rfl
theorem Core.landed_consumed (c : Core) (a n : Nat) : c.Landed (c.consumed a n) := rfl
theorem Core.landed_wx (c : Core) (r : XReg) (v : Word) (b : Bool) : c.Landed (c.wx r v b) := by
  unfold Core.wx; split <;> rfl
theorem Core.landed_wv (c : Core) (r : VReg) (t m : Tile) (b : Bool) : c.Landed (c.wv r t m b) := rfl
theorem Core.landed_wp (c : Core) (r : PReg) (m : Mask) (b : Bool) : c.Landed (c.wp r m b) := by
  unfold Core.wp; split <;> rfl
theorem Core.landed_heapRow (c : Core) (k : Nat) (new : Bool) (r : HeapRow) : c.Landed (c.heapRow k new r) := by
  unfold Core.heapRow; split <;> rfl

theorem Core.landed_foldl {α : Type} (f : Core → α → Core) (h : ∀ (c : Core) (a : α), c.Landed (f c a)) (l : List α) (c : Core) :
    c.Landed (l.foldl f c) := by
  induction l generalizing c with
  | nil => rfl
  | cons a l ih => exact (h c a).trans (ih _)

/-- Everything that one landing can do. -/
theorem Core.landed_land (c : Core) (p : Pend) : c.Landed (c.land p) := by
  unfold Core.land
  split
  · exact c.landed_wx ..
  · exact c.landed_wv ..
  · exact c.landed_wp ..
  · rfl
  · split
    · exact (c.landed_shareStore ..).trans (Core.landed_setFull ..)
    · exact c.landed_shareStore ..
  · exact Core.landed_foldl _ (fun c r => c.landed_heapRow _ _ r) _ _

/-- Landings leave the pending list as they find it. -/
theorem Core.landed_landDue (c : Core) :
    ({ c with pend := c.pend.filter fun p => p.left ≠ 0 } : Core).Landed c.landDue :=
  Core.landed_foldl _ Core.landed_land _ _

@[simp] theorem Core.landDue_id (c : Core) : c.landDue.id = c.id := (congrArg Core.id (Core.landed_landDue c)).trans rfl
@[simp] theorem Core.landDue_loops (c : Core) : c.landDue.loops = c.loops := (congrArg Core.loops (Core.landed_landDue c)).trans rfl
@[simp] theorem Core.landDue_pc (c : Core) : c.landDue.pc = c.pc := (congrArg Core.pc (Core.landed_landDue c)).trans rfl
@[simp] theorem Core.landDue_npc (c : Core) : c.landDue.npc = c.npc := (congrArg Core.npc (Core.landed_landDue c)).trans rfl
@[simp] theorem Core.landDue_slot (c : Core) : c.landDue.slot = c.slot := (congrArg Core.slot (Core.landed_landDue c)).trans rfl
@[simp] theorem Core.landDue_gap (c : Core) : c.landDue.gap = c.gap := (congrArg Core.gap (Core.landed_landDue c)).trans rfl
@[simp] theorem Core.landDue_nopLeft (c : Core) : c.landDue.nopLeft = c.nopLeft := (congrArg Core.nopLeft (Core.landed_landDue c)).trans rfl
@[simp] theorem Core.landDue_phase (c : Core) : c.landDue.phase = c.phase := (congrArg Core.phase (Core.landed_landDue c)).trans rfl
@[simp] theorem Core.landDue_vs (c : Core) : c.landDue.vs = c.vs := (congrArg Core.vs (Core.landed_landDue c)).trans rfl
@[simp] theorem Core.landDue_frm (c : Core) : c.landDue.frm = c.frm := (congrArg Core.frm (Core.landed_landDue c)).trans rfl
@[simp] theorem Core.landDue_dom (c : Core) : c.landDue.dom = c.dom := (congrArg Core.dom (Core.landed_landDue c)).trans rfl
@[simp] theorem Core.landDue_srseed (c : Core) : c.landDue.srseed = c.srseed := (congrArg Core.srseed (Core.landed_landDue c)).trans rfl
@[simp] theorem Core.landDue_priEff (c : Core) : c.landDue.priEff = c.priEff := (congrArg Core.priEff (Core.landed_landDue c)).trans rfl
@[simp] theorem Core.landDue_priLaunch (c : Core) : c.landDue.priLaunch = c.priLaunch := (congrArg Core.priLaunch (Core.landed_landDue c)).trans rfl
@[simp] theorem Core.landDue_chain (c : Core) : c.landDue.chain = c.chain := (congrArg Core.chain (Core.landed_landDue c)).trans rfl
@[simp] theorem Core.landDue_rect (c : Core) : c.landDue.rect = c.rect := (congrArg Core.rect (Core.landed_landDue c)).trans rfl
@[simp] theorem Core.landDue_launch (c : Core) : c.landDue.launch = c.launch := (congrArg Core.launch (Core.landed_landDue c)).trans rfl
@[simp] theorem Core.landDue_task (c : Core) : c.landDue.task = c.task := (congrArg Core.task (Core.landed_landDue c)).trans rfl
@[simp] theorem Core.landDue_sqn (c : Core) : c.landDue.sqn = c.sqn := (congrArg Core.sqn (Core.landed_landDue c)).trans rfl
@[simp] theorem Core.landDue_steep (c : Core) : c.landDue.steep = c.steep := (congrArg Core.steep (Core.landed_landDue c)).trans rfl
@[simp] theorem Core.landDue_steepPc (c : Core) : c.landDue.steepPc = c.steepPc := (congrArg Core.steepPc (Core.landed_landDue c)).trans rfl
@[simp] theorem Core.landDue_steepLc (c : Core) : c.landDue.steepLc = c.steepLc := (congrArg Core.steepLc (Core.landed_landDue c)).trans rfl
@[simp] theorem Core.landDue_trap (c : Core) : c.landDue.trap = c.trap := (congrArg Core.trap (Core.landed_landDue c)).trans rfl
@[simp] theorem Core.landDue_late (c : Core) : c.landDue.late = c.late := (congrArg Core.late (Core.landed_landDue c)).trans rfl
@[simp] theorem Core.landDue_shareSize (c : Core) : c.landDue.shareSize = c.shareSize := (congrArg Core.shareSize (Core.landed_landDue c)).trans rfl
@[simp] theorem Core.landDue_sBad (c : Core) : c.landDue.sBad = c.sBad := (congrArg Core.sBad (Core.landed_landDue c)).trans rfl
@[simp] theorem Core.landDue_lBad (c : Core) : c.landDue.lBad = c.lBad := (congrArg Core.lBad (Core.landed_landDue c)).trans rfl
@[simp] theorem Core.landDue_taste (c : Core) : c.landDue.taste = c.taste := (congrArg Core.taste (Core.landed_landDue c)).trans rfl
@[simp] theorem Core.landDue_watch (c : Core) : c.landDue.watch = c.watch := (congrArg Core.watch (Core.landed_landDue c)).trans rfl
@[simp] theorem Core.landDue_frame (c : Core) : c.landDue.frame = c.frame := (congrArg Core.frame (Core.landed_landDue c)).trans rfl
@[simp] theorem Core.landDue_ctl (c : Core) : c.landDue.ctl = c.ctl := (congrArg Core.ctl (Core.landed_landDue c)).trans rfl
@[simp] theorem Core.landDue_engine (c : Core) : c.landDue.engine = c.engine := (congrArg Core.engine (Core.landed_landDue c)).trans rfl
@[simp] theorem Core.landDue_matrix (c : Core) : c.landDue.matrix = c.matrix := (congrArg Core.matrix (Core.landed_landDue c)).trans rfl
@[simp] theorem Core.landDue_mErr (c : Core) : c.landDue.mErr = c.mErr := (congrArg Core.mErr (Core.landed_landDue c)).trans rfl
@[simp] theorem Core.landDue_mvbFlags (c : Core) : c.landDue.mvbFlags = c.mvbFlags := (congrArg Core.mvbFlags (Core.landed_landDue c)).trans rfl
@[simp] theorem Core.landDue_mRd (c : Core) : c.landDue.mRd = c.mRd := (congrArg Core.mRd (Core.landed_landDue c)).trans rfl
@[simp] theorem Core.landDue_mDone (c : Core) : c.landDue.mDone = c.mDone := (congrArg Core.mDone (Core.landed_landDue c)).trans rfl
@[simp] theorem Core.landDue_map (c : Core) : c.landDue.map = c.map := (congrArg Core.map (Core.landed_landDue c)).trans rfl
@[simp] theorem Core.landDue_held (c : Core) : c.landDue.held = c.held := (congrArg Core.held (Core.landed_landDue c)).trans rfl
@[simp] theorem Core.landDue_weight (c : Core) : c.landDue.weight = c.weight := (congrArg Core.weight (Core.landed_landDue c)).trans rfl
@[simp] theorem Core.landDue_pins (c : Core) : c.landDue.pins = c.pins := (congrArg Core.pins (Core.landed_landDue c)).trans rfl
@[simp] theorem Core.landDue_route (c : Core) : c.landDue.route = c.route := (congrArg Core.route (Core.landed_landDue c)).trans rfl
@[simp] theorem Core.landDue_openUnits (c : Core) : c.landDue.openUnits = c.openUnits := (congrArg Core.openUnits (Core.landed_landDue c)).trans rfl
@[simp] theorem Core.landDue_sealed (c : Core) : c.landDue.sealed = c.sealed := (congrArg Core.sealed (Core.landed_landDue c)).trans rfl
@[simp] theorem Core.landDue_tlb (c : Core) : c.landDue.tlb = c.tlb := (congrArg Core.tlb (Core.landed_landDue c)).trans rfl
@[simp] theorem Core.landDue_feed (c : Core) : c.landDue.feed = c.feed := (congrArg Core.feed (Core.landed_landDue c)).trans rfl
@[simp] theorem Core.landDue_clk (c : Core) : c.landDue.clk = c.clk := (congrArg Core.clk (Core.landed_landDue c)).trans rfl
@[simp] theorem Core.landDue_role (c : Core) : c.landDue.role = c.role := (congrArg Core.role (Core.landed_landDue c)).trans rfl
@[simp] theorem Core.landDue_ctx (c : Core) : c.landDue.ctx = c.ctx := (congrArg Core.ctx (Core.landed_landDue c)).trans rfl
@[simp] theorem Core.landDue_steepOn (c : Core) : c.landDue.steepOn = c.steepOn := (congrArg Core.steepOn (Core.landed_landDue c)).trans rfl
@[simp] theorem Core.landDue_steepAt (c : Core) : c.landDue.steepAt = c.steepAt := (congrArg Core.steepAt (Core.landed_landDue c)).trans rfl
@[simp] theorem Core.landDue_frozen (c : Core) : c.landDue.frozen = c.frozen := (congrArg Core.frozen (Core.landed_landDue c)).trans rfl
@[simp] theorem Core.landDue_skewWait (c : Core) : c.landDue.skewWait = c.skewWait := (congrArg Core.skewWait (Core.landed_landDue c)).trans rfl
@[simp] theorem Core.landDue_arrived (c : Core) : c.landDue.arrived = c.arrived := (congrArg Core.arrived (Core.landed_landDue c)).trans rfl
@[simp] theorem Core.landDue_stage (c : Core) : c.landDue.stage = c.stage := (congrArg Core.stage (Core.landed_landDue c)).trans rfl
@[simp] theorem Core.landDue_livePend (c : Core) : c.landDue.livePend = c.livePend := (congrArg Core.livePend (Core.landed_landDue c)).trans rfl
@[simp] theorem Core.landDue_skip (c : Core) : c.landDue.skip = c.skip := (congrArg Core.skip (Core.landed_landDue c)).trans rfl
@[simp] theorem Core.landDue_retired (c : Core) : c.landDue.retired = c.retired := (congrArg Core.retired (Core.landed_landDue c)).trans rfl
@[simp] theorem Core.landDue_sent (c : Core) : c.landDue.sent = c.sent := (congrArg Core.sent (Core.landed_landDue c)).trans rfl
@[simp] theorem Core.landDue_received (c : Core) : c.landDue.received = c.received := (congrArg Core.received (Core.landed_landDue c)).trans rfl
@[simp] theorem Core.landDue_tally (c : Core) : c.landDue.tally = c.tally := (congrArg Core.tally (Core.landed_landDue c)).trans rfl
@[simp] theorem Core.landDue_events (c : Core) : c.landDue.events = c.events := (congrArg Core.events (Core.landed_landDue c)).trans rfl
@[simp] theorem Core.landDue_pend (c : Core) : c.landDue.pend = c.pend.filter fun p => p.left ≠ 0 :=
  (congrArg Core.pend (Core.landed_landDue c)).trans rfl

/-! A slot that passes. -/

@[simp] theorem Core.tick_id (c : Core) : c.tick.id = c.id := by simp [Core.tick]
@[simp] theorem Core.tick_loops (c : Core) : c.tick.loops = c.loops := by simp [Core.tick]
@[simp] theorem Core.tick_pc (c : Core) : c.tick.pc = c.pc := by simp [Core.tick]
@[simp] theorem Core.tick_npc (c : Core) : c.tick.npc = c.npc := by simp [Core.tick]
@[simp] theorem Core.tick_gap (c : Core) : c.tick.gap = c.gap := by simp [Core.tick]
@[simp] theorem Core.tick_nopLeft (c : Core) : c.tick.nopLeft = c.nopLeft := by simp [Core.tick]
@[simp] theorem Core.tick_phase (c : Core) : c.tick.phase = c.phase := by simp [Core.tick]
@[simp] theorem Core.tick_vs (c : Core) : c.tick.vs = c.vs := by simp [Core.tick]
@[simp] theorem Core.tick_frm (c : Core) : c.tick.frm = c.frm := by simp [Core.tick]
@[simp] theorem Core.tick_dom (c : Core) : c.tick.dom = c.dom := by simp [Core.tick]
@[simp] theorem Core.tick_srseed (c : Core) : c.tick.srseed = c.srseed := by simp [Core.tick]
@[simp] theorem Core.tick_priEff (c : Core) : c.tick.priEff = c.priEff := by simp [Core.tick]
@[simp] theorem Core.tick_priLaunch (c : Core) : c.tick.priLaunch = c.priLaunch := by simp [Core.tick]
@[simp] theorem Core.tick_chain (c : Core) : c.tick.chain = c.chain := by simp [Core.tick]
@[simp] theorem Core.tick_rect (c : Core) : c.tick.rect = c.rect := by simp [Core.tick]
@[simp] theorem Core.tick_launch (c : Core) : c.tick.launch = c.launch := by simp [Core.tick]
@[simp] theorem Core.tick_task (c : Core) : c.tick.task = c.task := by simp [Core.tick]
@[simp] theorem Core.tick_sqn (c : Core) : c.tick.sqn = c.sqn := by simp [Core.tick]
@[simp] theorem Core.tick_steep (c : Core) : c.tick.steep = c.steep := by simp [Core.tick]
@[simp] theorem Core.tick_steepPc (c : Core) : c.tick.steepPc = c.steepPc := by simp [Core.tick]
@[simp] theorem Core.tick_steepLc (c : Core) : c.tick.steepLc = c.steepLc := by simp [Core.tick]
@[simp] theorem Core.tick_trap (c : Core) : c.tick.trap = c.trap := by simp [Core.tick]
@[simp] theorem Core.tick_late (c : Core) : c.tick.late = c.late := by simp [Core.tick]
@[simp] theorem Core.tick_shareSize (c : Core) : c.tick.shareSize = c.shareSize := by simp [Core.tick]
@[simp] theorem Core.tick_sBad (c : Core) : c.tick.sBad = c.sBad := by simp [Core.tick]
@[simp] theorem Core.tick_lBad (c : Core) : c.tick.lBad = c.lBad := by simp [Core.tick]
@[simp] theorem Core.tick_taste (c : Core) : c.tick.taste = c.taste := by simp [Core.tick]
@[simp] theorem Core.tick_watch (c : Core) : c.tick.watch = c.watch := by simp [Core.tick]
@[simp] theorem Core.tick_frame (c : Core) : c.tick.frame = c.frame := by simp [Core.tick]
@[simp] theorem Core.tick_ctl (c : Core) : c.tick.ctl = c.ctl := by simp [Core.tick]
@[simp] theorem Core.tick_engine (c : Core) : c.tick.engine = c.engine := by simp [Core.tick]
@[simp] theorem Core.tick_matrix (c : Core) : c.tick.matrix = c.matrix := by simp [Core.tick]
@[simp] theorem Core.tick_mErr (c : Core) : c.tick.mErr = c.mErr := by simp [Core.tick]
@[simp] theorem Core.tick_mvbFlags (c : Core) : c.tick.mvbFlags = c.mvbFlags := by simp [Core.tick]
@[simp] theorem Core.tick_mRd (c : Core) : c.tick.mRd = c.mRd := by simp [Core.tick]
@[simp] theorem Core.tick_mDone (c : Core) : c.tick.mDone = c.mDone := by simp [Core.tick]
@[simp] theorem Core.tick_map (c : Core) : c.tick.map = c.map := by simp [Core.tick]
@[simp] theorem Core.tick_held (c : Core) : c.tick.held = c.held := by simp [Core.tick]
@[simp] theorem Core.tick_weight (c : Core) : c.tick.weight = c.weight := by simp [Core.tick]
@[simp] theorem Core.tick_pins (c : Core) : c.tick.pins = c.pins := by simp [Core.tick]
@[simp] theorem Core.tick_route (c : Core) : c.tick.route = c.route := by simp [Core.tick]
@[simp] theorem Core.tick_openUnits (c : Core) : c.tick.openUnits = c.openUnits := by simp [Core.tick]
@[simp] theorem Core.tick_sealed (c : Core) : c.tick.sealed = c.sealed := by simp [Core.tick]
@[simp] theorem Core.tick_tlb (c : Core) : c.tick.tlb = c.tlb := by simp [Core.tick]
@[simp] theorem Core.tick_feed (c : Core) : c.tick.feed = c.feed := by simp [Core.tick]
@[simp] theorem Core.tick_clk (c : Core) : c.tick.clk = c.clk := by simp [Core.tick]
@[simp] theorem Core.tick_role (c : Core) : c.tick.role = c.role := by simp [Core.tick]
@[simp] theorem Core.tick_ctx (c : Core) : c.tick.ctx = c.ctx := by simp [Core.tick]
@[simp] theorem Core.tick_steepOn (c : Core) : c.tick.steepOn = c.steepOn := by simp [Core.tick]
@[simp] theorem Core.tick_steepAt (c : Core) : c.tick.steepAt = c.steepAt := by simp [Core.tick]
@[simp] theorem Core.tick_frozen (c : Core) : c.tick.frozen = c.frozen := by simp [Core.tick]
@[simp] theorem Core.tick_skewWait (c : Core) : c.tick.skewWait = c.skewWait := by simp [Core.tick]
@[simp] theorem Core.tick_arrived (c : Core) : c.tick.arrived = c.arrived := by simp [Core.tick]
@[simp] theorem Core.tick_stage (c : Core) : c.tick.stage = c.stage := by simp [Core.tick]
@[simp] theorem Core.tick_livePend (c : Core) : c.tick.livePend = c.livePend := by simp [Core.tick]
@[simp] theorem Core.tick_skip (c : Core) : c.tick.skip = c.skip := by simp [Core.tick]
@[simp] theorem Core.tick_retired (c : Core) : c.tick.retired = c.retired := by simp [Core.tick]
@[simp] theorem Core.tick_sent (c : Core) : c.tick.sent = c.sent := by simp [Core.tick]
@[simp] theorem Core.tick_received (c : Core) : c.tick.received = c.received := by simp [Core.tick]
@[simp] theorem Core.tick_tally (c : Core) : c.tick.tally = c.tally := by simp [Core.tick]
@[simp] theorem Core.tick_events (c : Core) : c.tick.events = c.events := by simp [Core.tick]
@[simp] theorem Core.tick_slot (c : Core) : c.tick.slot = c.slot + 1 := by simp [Core.tick]

/-! A retirement. -/

@[simp] theorem Core.retireSlot_id (c : Core) : c.retireSlot.id = c.id := by simp [Core.retireSlot]
@[simp] theorem Core.retireSlot_loops (c : Core) : c.retireSlot.loops = c.loops := by simp [Core.retireSlot]
@[simp] theorem Core.retireSlot_pc (c : Core) : c.retireSlot.pc = c.pc := by simp [Core.retireSlot]
@[simp] theorem Core.retireSlot_npc (c : Core) : c.retireSlot.npc = c.npc := by simp [Core.retireSlot]
@[simp] theorem Core.retireSlot_gap (c : Core) : c.retireSlot.gap = c.gap := by simp [Core.retireSlot]
@[simp] theorem Core.retireSlot_nopLeft (c : Core) : c.retireSlot.nopLeft = c.nopLeft := by simp [Core.retireSlot]
@[simp] theorem Core.retireSlot_phase (c : Core) : c.retireSlot.phase = c.phase := by simp [Core.retireSlot]
@[simp] theorem Core.retireSlot_vs (c : Core) : c.retireSlot.vs = c.vs := by simp [Core.retireSlot]
@[simp] theorem Core.retireSlot_frm (c : Core) : c.retireSlot.frm = c.frm := by simp [Core.retireSlot]
@[simp] theorem Core.retireSlot_dom (c : Core) : c.retireSlot.dom = c.dom := by simp [Core.retireSlot]
@[simp] theorem Core.retireSlot_srseed (c : Core) : c.retireSlot.srseed = c.srseed := by simp [Core.retireSlot]
@[simp] theorem Core.retireSlot_priEff (c : Core) : c.retireSlot.priEff = c.priEff := by simp [Core.retireSlot]
@[simp] theorem Core.retireSlot_priLaunch (c : Core) : c.retireSlot.priLaunch = c.priLaunch := by simp [Core.retireSlot]
@[simp] theorem Core.retireSlot_chain (c : Core) : c.retireSlot.chain = c.chain := by simp [Core.retireSlot]
@[simp] theorem Core.retireSlot_rect (c : Core) : c.retireSlot.rect = c.rect := by simp [Core.retireSlot]
@[simp] theorem Core.retireSlot_launch (c : Core) : c.retireSlot.launch = c.launch := by simp [Core.retireSlot]
@[simp] theorem Core.retireSlot_task (c : Core) : c.retireSlot.task = c.task := by simp [Core.retireSlot]
@[simp] theorem Core.retireSlot_sqn (c : Core) : c.retireSlot.sqn = c.sqn := by simp [Core.retireSlot]
@[simp] theorem Core.retireSlot_steep (c : Core) : c.retireSlot.steep = c.steep := by simp [Core.retireSlot]
@[simp] theorem Core.retireSlot_steepPc (c : Core) : c.retireSlot.steepPc = c.steepPc := by simp [Core.retireSlot]
@[simp] theorem Core.retireSlot_steepLc (c : Core) : c.retireSlot.steepLc = c.steepLc := by simp [Core.retireSlot]
@[simp] theorem Core.retireSlot_trap (c : Core) : c.retireSlot.trap = c.trap := by simp [Core.retireSlot]
@[simp] theorem Core.retireSlot_late (c : Core) : c.retireSlot.late = c.late := by simp [Core.retireSlot]
@[simp] theorem Core.retireSlot_shareSize (c : Core) : c.retireSlot.shareSize = c.shareSize := by simp [Core.retireSlot]
@[simp] theorem Core.retireSlot_sBad (c : Core) : c.retireSlot.sBad = c.sBad := by simp [Core.retireSlot]
@[simp] theorem Core.retireSlot_lBad (c : Core) : c.retireSlot.lBad = c.lBad := by simp [Core.retireSlot]
@[simp] theorem Core.retireSlot_taste (c : Core) : c.retireSlot.taste = c.taste := by simp [Core.retireSlot]
@[simp] theorem Core.retireSlot_watch (c : Core) : c.retireSlot.watch = c.watch := by simp [Core.retireSlot]
@[simp] theorem Core.retireSlot_frame (c : Core) : c.retireSlot.frame = c.frame := by simp [Core.retireSlot]
@[simp] theorem Core.retireSlot_ctl (c : Core) : c.retireSlot.ctl = c.ctl := by simp [Core.retireSlot]
@[simp] theorem Core.retireSlot_engine (c : Core) : c.retireSlot.engine = c.engine := by simp [Core.retireSlot]
@[simp] theorem Core.retireSlot_matrix (c : Core) : c.retireSlot.matrix = c.matrix := by simp [Core.retireSlot]
@[simp] theorem Core.retireSlot_mErr (c : Core) : c.retireSlot.mErr = c.mErr := by simp [Core.retireSlot]
@[simp] theorem Core.retireSlot_mvbFlags (c : Core) : c.retireSlot.mvbFlags = c.mvbFlags := by simp [Core.retireSlot]
@[simp] theorem Core.retireSlot_mRd (c : Core) : c.retireSlot.mRd = c.mRd := by simp [Core.retireSlot]
@[simp] theorem Core.retireSlot_mDone (c : Core) : c.retireSlot.mDone = c.mDone := by simp [Core.retireSlot]
@[simp] theorem Core.retireSlot_map (c : Core) : c.retireSlot.map = c.map := by simp [Core.retireSlot]
@[simp] theorem Core.retireSlot_held (c : Core) : c.retireSlot.held = c.held := by simp [Core.retireSlot]
@[simp] theorem Core.retireSlot_weight (c : Core) : c.retireSlot.weight = c.weight := by simp [Core.retireSlot]
@[simp] theorem Core.retireSlot_pins (c : Core) : c.retireSlot.pins = c.pins := by simp [Core.retireSlot]
@[simp] theorem Core.retireSlot_route (c : Core) : c.retireSlot.route = c.route := by simp [Core.retireSlot]
@[simp] theorem Core.retireSlot_openUnits (c : Core) : c.retireSlot.openUnits = c.openUnits := by simp [Core.retireSlot]
@[simp] theorem Core.retireSlot_sealed (c : Core) : c.retireSlot.sealed = c.sealed := by simp [Core.retireSlot]
@[simp] theorem Core.retireSlot_tlb (c : Core) : c.retireSlot.tlb = c.tlb := by simp [Core.retireSlot]
@[simp] theorem Core.retireSlot_feed (c : Core) : c.retireSlot.feed = c.feed := by simp [Core.retireSlot]
@[simp] theorem Core.retireSlot_clk (c : Core) : c.retireSlot.clk = c.clk := by simp [Core.retireSlot]
@[simp] theorem Core.retireSlot_role (c : Core) : c.retireSlot.role = c.role := by simp [Core.retireSlot]
@[simp] theorem Core.retireSlot_ctx (c : Core) : c.retireSlot.ctx = c.ctx := by simp [Core.retireSlot]
@[simp] theorem Core.retireSlot_steepOn (c : Core) : c.retireSlot.steepOn = c.steepOn := by simp [Core.retireSlot]
@[simp] theorem Core.retireSlot_steepAt (c : Core) : c.retireSlot.steepAt = c.steepAt := by simp [Core.retireSlot]
@[simp] theorem Core.retireSlot_frozen (c : Core) : c.retireSlot.frozen = c.frozen := by simp [Core.retireSlot]
@[simp] theorem Core.retireSlot_livePend (c : Core) : c.retireSlot.livePend = c.livePend := by simp [Core.retireSlot]
@[simp] theorem Core.retireSlot_skip (c : Core) : c.retireSlot.skip = c.skip := by simp [Core.retireSlot]
@[simp] theorem Core.retireSlot_sent (c : Core) : c.retireSlot.sent = c.sent := by simp [Core.retireSlot]
@[simp] theorem Core.retireSlot_received (c : Core) : c.retireSlot.received = c.received := by simp [Core.retireSlot]
@[simp] theorem Core.retireSlot_tally (c : Core) : c.retireSlot.tally = c.tally := by simp [Core.retireSlot]
@[simp] theorem Core.retireSlot_events (c : Core) : c.retireSlot.events = c.events := by simp [Core.retireSlot]
@[simp] theorem Core.retireSlot_slot (c : Core) : c.retireSlot.slot = c.slot + 1 := by simp [Core.retireSlot]
@[simp] theorem Core.retireSlot_retired (c : Core) : c.retireSlot.retired = c.retired + 1 := by simp [Core.retireSlot]
@[simp] theorem Core.retireSlot_waiting (c : Core) : c.retireSlot.waiting = false := rfl

/-- Sequential flow changes the pc and the loop levels alone (R74). -/
theorem Core.flow_only (n : Nat) (c : Core) (a : Word) :
    (c.flow n a).1 = { c with pc := (c.flow n a).1.pc, loops := (c.flow n a).1.loops } := by
  induction n generalizing c with
  | zero => rfl
  | succ n ih =>
    simp only [Core.flow]
    split
    · rfl
    · split
      · rfl
      · exact (ih _).trans rfl

@[simp] theorem Core.flow_id (n : Nat) (c : Core) (a : Word) : (c.flow n a).1.id = c.id := (congrArg Core.id (c.flow_only n a)).trans rfl
@[simp] theorem Core.flow_x (n : Nat) (c : Core) (a : Word) : (c.flow n a).1.x = c.x := (congrArg Core.x (c.flow_only n a)).trans rfl
@[simp] theorem Core.flow_v (n : Nat) (c : Core) (a : Word) : (c.flow n a).1.v = c.v := (congrArg Core.v (c.flow_only n a)).trans rfl
@[simp] theorem Core.flow_p (n : Nat) (c : Core) (a : Word) : (c.flow n a).1.p = c.p := (congrArg Core.p (c.flow_only n a)).trans rfl
@[simp] theorem Core.flow_npc (n : Nat) (c : Core) (a : Word) : (c.flow n a).1.npc = c.npc := (congrArg Core.npc (c.flow_only n a)).trans rfl
@[simp] theorem Core.flow_slot (n : Nat) (c : Core) (a : Word) : (c.flow n a).1.slot = c.slot := (congrArg Core.slot (c.flow_only n a)).trans rfl
@[simp] theorem Core.flow_gap (n : Nat) (c : Core) (a : Word) : (c.flow n a).1.gap = c.gap := (congrArg Core.gap (c.flow_only n a)).trans rfl
@[simp] theorem Core.flow_nopLeft (n : Nat) (c : Core) (a : Word) : (c.flow n a).1.nopLeft = c.nopLeft := (congrArg Core.nopLeft (c.flow_only n a)).trans rfl
@[simp] theorem Core.flow_phase (n : Nat) (c : Core) (a : Word) : (c.flow n a).1.phase = c.phase := (congrArg Core.phase (c.flow_only n a)).trans rfl
@[simp] theorem Core.flow_vs (n : Nat) (c : Core) (a : Word) : (c.flow n a).1.vs = c.vs := (congrArg Core.vs (c.flow_only n a)).trans rfl
@[simp] theorem Core.flow_fflags (n : Nat) (c : Core) (a : Word) : (c.flow n a).1.fflags = c.fflags := (congrArg Core.fflags (c.flow_only n a)).trans rfl
@[simp] theorem Core.flow_frm (n : Nat) (c : Core) (a : Word) : (c.flow n a).1.frm = c.frm := (congrArg Core.frm (c.flow_only n a)).trans rfl
@[simp] theorem Core.flow_dom (n : Nat) (c : Core) (a : Word) : (c.flow n a).1.dom = c.dom := (congrArg Core.dom (c.flow_only n a)).trans rfl
@[simp] theorem Core.flow_srseed (n : Nat) (c : Core) (a : Word) : (c.flow n a).1.srseed = c.srseed := (congrArg Core.srseed (c.flow_only n a)).trans rfl
@[simp] theorem Core.flow_priEff (n : Nat) (c : Core) (a : Word) : (c.flow n a).1.priEff = c.priEff := (congrArg Core.priEff (c.flow_only n a)).trans rfl
@[simp] theorem Core.flow_priLaunch (n : Nat) (c : Core) (a : Word) : (c.flow n a).1.priLaunch = c.priLaunch := (congrArg Core.priLaunch (c.flow_only n a)).trans rfl
@[simp] theorem Core.flow_chain (n : Nat) (c : Core) (a : Word) : (c.flow n a).1.chain = c.chain := (congrArg Core.chain (c.flow_only n a)).trans rfl
@[simp] theorem Core.flow_rect (n : Nat) (c : Core) (a : Word) : (c.flow n a).1.rect = c.rect := (congrArg Core.rect (c.flow_only n a)).trans rfl
@[simp] theorem Core.flow_launch (n : Nat) (c : Core) (a : Word) : (c.flow n a).1.launch = c.launch := (congrArg Core.launch (c.flow_only n a)).trans rfl
@[simp] theorem Core.flow_task (n : Nat) (c : Core) (a : Word) : (c.flow n a).1.task = c.task := (congrArg Core.task (c.flow_only n a)).trans rfl
@[simp] theorem Core.flow_sqn (n : Nat) (c : Core) (a : Word) : (c.flow n a).1.sqn = c.sqn := (congrArg Core.sqn (c.flow_only n a)).trans rfl
@[simp] theorem Core.flow_steep (n : Nat) (c : Core) (a : Word) : (c.flow n a).1.steep = c.steep := (congrArg Core.steep (c.flow_only n a)).trans rfl
@[simp] theorem Core.flow_steepPc (n : Nat) (c : Core) (a : Word) : (c.flow n a).1.steepPc = c.steepPc := (congrArg Core.steepPc (c.flow_only n a)).trans rfl
@[simp] theorem Core.flow_steepLc (n : Nat) (c : Core) (a : Word) : (c.flow n a).1.steepLc = c.steepLc := (congrArg Core.steepLc (c.flow_only n a)).trans rfl
@[simp] theorem Core.flow_trap (n : Nat) (c : Core) (a : Word) : (c.flow n a).1.trap = c.trap := (congrArg Core.trap (c.flow_only n a)).trans rfl
@[simp] theorem Core.flow_pend (n : Nat) (c : Core) (a : Word) : (c.flow n a).1.pend = c.pend := (congrArg Core.pend (c.flow_only n a)).trans rfl
@[simp] theorem Core.flow_late (n : Nat) (c : Core) (a : Word) : (c.flow n a).1.late = c.late := (congrArg Core.late (c.flow_only n a)).trans rfl
@[simp] theorem Core.flow_share (n : Nat) (c : Core) (a : Word) : (c.flow n a).1.share = c.share := (congrArg Core.share (c.flow_only n a)).trans rfl
@[simp] theorem Core.flow_shareSize (n : Nat) (c : Core) (a : Word) : (c.flow n a).1.shareSize = c.shareSize := (congrArg Core.shareSize (c.flow_only n a)).trans rfl
@[simp] theorem Core.flow_full (n : Nat) (c : Core) (a : Word) : (c.flow n a).1.full = c.full := (congrArg Core.full (c.flow_only n a)).trans rfl
@[simp] theorem Core.flow_poison (n : Nat) (c : Core) (a : Word) : (c.flow n a).1.poison = c.poison := (congrArg Core.poison (c.flow_only n a)).trans rfl
@[simp] theorem Core.flow_xPoison (n : Nat) (c : Core) (a : Word) : (c.flow n a).1.xPoison = c.xPoison := (congrArg Core.xPoison (c.flow_only n a)).trans rfl
@[simp] theorem Core.flow_vPoison (n : Nat) (c : Core) (a : Word) : (c.flow n a).1.vPoison = c.vPoison := (congrArg Core.vPoison (c.flow_only n a)).trans rfl
@[simp] theorem Core.flow_pPoison (n : Nat) (c : Core) (a : Word) : (c.flow n a).1.pPoison = c.pPoison := (congrArg Core.pPoison (c.flow_only n a)).trans rfl
@[simp] theorem Core.flow_xBad (n : Nat) (c : Core) (a : Word) : (c.flow n a).1.xBad = c.xBad := (congrArg Core.xBad (c.flow_only n a)).trans rfl
@[simp] theorem Core.flow_vBad (n : Nat) (c : Core) (a : Word) : (c.flow n a).1.vBad = c.vBad := (congrArg Core.vBad (c.flow_only n a)).trans rfl
@[simp] theorem Core.flow_pBad (n : Nat) (c : Core) (a : Word) : (c.flow n a).1.pBad = c.pBad := (congrArg Core.pBad (c.flow_only n a)).trans rfl
@[simp] theorem Core.flow_sBad (n : Nat) (c : Core) (a : Word) : (c.flow n a).1.sBad = c.sBad := (congrArg Core.sBad (c.flow_only n a)).trans rfl
@[simp] theorem Core.flow_lBad (n : Nat) (c : Core) (a : Word) : (c.flow n a).1.lBad = c.lBad := (congrArg Core.lBad (c.flow_only n a)).trans rfl
@[simp] theorem Core.flow_taste (n : Nat) (c : Core) (a : Word) : (c.flow n a).1.taste = c.taste := (congrArg Core.taste (c.flow_only n a)).trans rfl
@[simp] theorem Core.flow_watch (n : Nat) (c : Core) (a : Word) : (c.flow n a).1.watch = c.watch := (congrArg Core.watch (c.flow_only n a)).trans rfl
@[simp] theorem Core.flow_frame (n : Nat) (c : Core) (a : Word) : (c.flow n a).1.frame = c.frame := (congrArg Core.frame (c.flow_only n a)).trans rfl
@[simp] theorem Core.flow_raised (n : Nat) (c : Core) (a : Word) : (c.flow n a).1.raised = c.raised := (congrArg Core.raised (c.flow_only n a)).trans rfl
@[simp] theorem Core.flow_ctl (n : Nat) (c : Core) (a : Word) : (c.flow n a).1.ctl = c.ctl := (congrArg Core.ctl (c.flow_only n a)).trans rfl
@[simp] theorem Core.flow_engine (n : Nat) (c : Core) (a : Word) : (c.flow n a).1.engine = c.engine := (congrArg Core.engine (c.flow_only n a)).trans rfl
@[simp] theorem Core.flow_matrix (n : Nat) (c : Core) (a : Word) : (c.flow n a).1.matrix = c.matrix := (congrArg Core.matrix (c.flow_only n a)).trans rfl
@[simp] theorem Core.flow_mErr (n : Nat) (c : Core) (a : Word) : (c.flow n a).1.mErr = c.mErr := (congrArg Core.mErr (c.flow_only n a)).trans rfl
@[simp] theorem Core.flow_mvbFlags (n : Nat) (c : Core) (a : Word) : (c.flow n a).1.mvbFlags = c.mvbFlags := (congrArg Core.mvbFlags (c.flow_only n a)).trans rfl
@[simp] theorem Core.flow_mRd (n : Nat) (c : Core) (a : Word) : (c.flow n a).1.mRd = c.mRd := (congrArg Core.mRd (c.flow_only n a)).trans rfl
@[simp] theorem Core.flow_mDone (n : Nat) (c : Core) (a : Word) : (c.flow n a).1.mDone = c.mDone := (congrArg Core.mDone (c.flow_only n a)).trans rfl
@[simp] theorem Core.flow_map (n : Nat) (c : Core) (a : Word) : (c.flow n a).1.map = c.map := (congrArg Core.map (c.flow_only n a)).trans rfl
@[simp] theorem Core.flow_held (n : Nat) (c : Core) (a : Word) : (c.flow n a).1.held = c.held := (congrArg Core.held (c.flow_only n a)).trans rfl
@[simp] theorem Core.flow_weight (n : Nat) (c : Core) (a : Word) : (c.flow n a).1.weight = c.weight := (congrArg Core.weight (c.flow_only n a)).trans rfl
@[simp] theorem Core.flow_pins (n : Nat) (c : Core) (a : Word) : (c.flow n a).1.pins = c.pins := (congrArg Core.pins (c.flow_only n a)).trans rfl
@[simp] theorem Core.flow_route (n : Nat) (c : Core) (a : Word) : (c.flow n a).1.route = c.route := (congrArg Core.route (c.flow_only n a)).trans rfl
@[simp] theorem Core.flow_openUnits (n : Nat) (c : Core) (a : Word) : (c.flow n a).1.openUnits = c.openUnits := (congrArg Core.openUnits (c.flow_only n a)).trans rfl
@[simp] theorem Core.flow_sealed (n : Nat) (c : Core) (a : Word) : (c.flow n a).1.sealed = c.sealed := (congrArg Core.sealed (c.flow_only n a)).trans rfl
@[simp] theorem Core.flow_contained (n : Nat) (c : Core) (a : Word) : (c.flow n a).1.contained = c.contained := (congrArg Core.contained (c.flow_only n a)).trans rfl
@[simp] theorem Core.flow_tlb (n : Nat) (c : Core) (a : Word) : (c.flow n a).1.tlb = c.tlb := (congrArg Core.tlb (c.flow_only n a)).trans rfl
@[simp] theorem Core.flow_feed (n : Nat) (c : Core) (a : Word) : (c.flow n a).1.feed = c.feed := (congrArg Core.feed (c.flow_only n a)).trans rfl
@[simp] theorem Core.flow_clk (n : Nat) (c : Core) (a : Word) : (c.flow n a).1.clk = c.clk := (congrArg Core.clk (c.flow_only n a)).trans rfl
@[simp] theorem Core.flow_role (n : Nat) (c : Core) (a : Word) : (c.flow n a).1.role = c.role := (congrArg Core.role (c.flow_only n a)).trans rfl
@[simp] theorem Core.flow_ctx (n : Nat) (c : Core) (a : Word) : (c.flow n a).1.ctx = c.ctx := (congrArg Core.ctx (c.flow_only n a)).trans rfl
@[simp] theorem Core.flow_steepOn (n : Nat) (c : Core) (a : Word) : (c.flow n a).1.steepOn = c.steepOn := (congrArg Core.steepOn (c.flow_only n a)).trans rfl
@[simp] theorem Core.flow_steepAt (n : Nat) (c : Core) (a : Word) : (c.flow n a).1.steepAt = c.steepAt := (congrArg Core.steepAt (c.flow_only n a)).trans rfl
@[simp] theorem Core.flow_waiting (n : Nat) (c : Core) (a : Word) : (c.flow n a).1.waiting = c.waiting := (congrArg Core.waiting (c.flow_only n a)).trans rfl
@[simp] theorem Core.flow_frozen (n : Nat) (c : Core) (a : Word) : (c.flow n a).1.frozen = c.frozen := (congrArg Core.frozen (c.flow_only n a)).trans rfl
@[simp] theorem Core.flow_skewWait (n : Nat) (c : Core) (a : Word) : (c.flow n a).1.skewWait = c.skewWait := (congrArg Core.skewWait (c.flow_only n a)).trans rfl
@[simp] theorem Core.flow_arrived (n : Nat) (c : Core) (a : Word) : (c.flow n a).1.arrived = c.arrived := (congrArg Core.arrived (c.flow_only n a)).trans rfl
@[simp] theorem Core.flow_stage (n : Nat) (c : Core) (a : Word) : (c.flow n a).1.stage = c.stage := (congrArg Core.stage (c.flow_only n a)).trans rfl
@[simp] theorem Core.flow_livePend (n : Nat) (c : Core) (a : Word) : (c.flow n a).1.livePend = c.livePend := (congrArg Core.livePend (c.flow_only n a)).trans rfl
@[simp] theorem Core.flow_skip (n : Nat) (c : Core) (a : Word) : (c.flow n a).1.skip = c.skip := (congrArg Core.skip (c.flow_only n a)).trans rfl
@[simp] theorem Core.flow_retired (n : Nat) (c : Core) (a : Word) : (c.flow n a).1.retired = c.retired := (congrArg Core.retired (c.flow_only n a)).trans rfl
@[simp] theorem Core.flow_sent (n : Nat) (c : Core) (a : Word) : (c.flow n a).1.sent = c.sent := (congrArg Core.sent (c.flow_only n a)).trans rfl
@[simp] theorem Core.flow_received (n : Nat) (c : Core) (a : Word) : (c.flow n a).1.received = c.received := (congrArg Core.received (c.flow_only n a)).trans rfl
@[simp] theorem Core.flow_tally (n : Nat) (c : Core) (a : Word) : (c.flow n a).1.tally = c.tally := (congrArg Core.tally (c.flow_only n a)).trans rfl
@[simp] theorem Core.flow_events (n : Nat) (c : Core) (a : Word) : (c.flow n a).1.events = c.events := (congrArg Core.events (c.flow_only n a)).trans rfl

/-- With no back edge due, sequential flow goes to the address (R74). -/
theorem Core.flow_straight (n : Nat) (c : Core) (a : Word) (h : c.backEdge a = none) : c.flow n a = ({ c with pc := a }, none) := by
  cases n <;> simp [Core.flow, h]

/-- A landing takes no part of where the core stands. -/
theorem Core.land_at (c : Core) (p : Pend) (a : Word) (ls : Vector LoopLevel 3) :
    ({ c with pc := a, loops := ls } : Core).land p = { c.land p with pc := a, loops := ls } := by
  have rows (k : Nat) (new : Bool) (l : List HeapRow) (c : Core) :
      l.foldl (fun c r => c.heapRow k new r) ({ c with pc := a, loops := ls } : Core) =
        { l.foldl (fun c r => c.heapRow k new r) c with pc := a, loops := ls } := by
    induction l generalizing c with
    | nil => rfl
    | cons r l ih =>
      have e : Core.heapRow { c with pc := a, loops := ls } k new r = { c.heapRow k new r with pc := a, loops := ls } := by
        unfold Core.heapRow Core.sharePoisoned; simp only []; split <;> rfl
      rw [List.foldl_cons, e, ih]; rfl
  unfold Core.land
  split
  · unfold Core.wx; split <;> rfl
  · rfl
  · unfold Core.wp; split <;> rfl
  · rfl
  · simp only []; split <;> rfl
  · exact rows _ _ _ _

theorem Core.landDue_at (c : Core) (a : Word) (ls : Vector LoopLevel 3) :
    ({ c with pc := a, loops := ls } : Core).landDue = { c.landDue with pc := a, loops := ls } := by
  have fold (l : List Pend) (c : Core) : l.foldl Core.land ({ c with pc := a, loops := ls } : Core) =
      { l.foldl Core.land c with pc := a, loops := ls } := by
    induction l generalizing c with
    | nil => rfl
    | cons p l ih => rw [List.foldl_cons, Core.land_at, ih]; rfl
  exact fold _ { c with pend := c.pend.filter fun p => p.left ≠ 0 }

theorem Core.retireSlot_at (c : Core) (a : Word) (ls : Vector LoopLevel 3) :
    ({ c with pc := a, loops := ls } : Core).retireSlot = { c.retireSlot with pc := a, loops := ls } := by
  have e : ({ c with pc := a, loops := ls } : Core).tick = { c.tick with pc := a, loops := ls } :=
    Core.landDue_at { c with slot := c.slot + 1, pend := c.pend.map fun (p : Pend) =>
      if p.arr.isSome && c.frame.isSome then p else { p with left := p.left - 1 } } a ls
  unfold Core.retireSlot; rw [e]

/-- The retirement of a leader with no back edge due: the slot has passed and the pc is the address after the
instruction (R63, R74). -/
theorem State.retire_straight (s : State) (hl : s.core.leads = true) (h : s.core.backEdge s.core.npc = none) :
    s.retire = { s with core := { s.core.retireSlot with pc := s.core.npc, gap := 0 } } := by
  unfold State.retire
  simp only [hl, if_true]
  rw [Core.flow_straight _ _ _ h]
  have e := Core.retireSlot_at s.core s.core.npc s.core.loops
  exact (congrArg (fun c : Core => ({ s with core := { c with gap := 0 } } : State)) e).trans
    (by simp only [Core.retireSlot_loops])

/-! Reads of registers that nothing in flight writes. -/

theorem Core.foldl_heapRow_regs (k : Nat) (new : Bool) (l : List HeapRow) (c : Core) :
    (l.foldl (fun c r => c.heapRow k new r) c).x = c.x ∧ (l.foldl (fun c r => c.heapRow k new r) c).v = c.v ∧
      (l.foldl (fun c r => c.heapRow k new r) c).p = c.p ∧ (l.foldl (fun c r => c.heapRow k new r) c).fflags = c.fflags := by
  induction l generalizing c with
  | nil => exact ⟨rfl, rfl, rfl, rfl⟩
  | cons r l ih =>
    have e : (c.heapRow k new r).x = c.x ∧ (c.heapRow k new r).v = c.v ∧ (c.heapRow k new r).p = c.p ∧
        (c.heapRow k new r).fflags = c.fflags := by unfold Core.heapRow; split <;> exact ⟨rfl, rfl, rfl, rfl⟩
    have := ih (c.heapRow k new r)
    simp only [List.foldl_cons]
    rw [this.1, this.2.1, this.2.2.1, this.2.2.2]; exact e

theorem Core.rx_of_x {c d : Core} {r : XReg} (h : d.x[r] = c.x[r]) : d.rx r = c.rx r := by unfold Core.rx; rw [h]

theorem Core.land_x (c : Core) (p : Pend) (r : XReg) (h : p.hits { x := [r] } = false) : (c.land p).x[r] = c.x[r] := by
  unfold Core.land
  cases hp : p.land with
  | x a v =>
    simp only [Pend.hits, hp, List.contains_cons, List.contains_nil, Bool.or_false, beq_eq_false_iff_ne] at h
    have q : ¬ a.val = r.val := fun e => h (Fin.ext e)
    simp only [Core.wx]; split
    · rfl
    · simp [q]
  | v _ _ _ => rfl
  | p a m => simp only [Core.wp]; split <;> rfl
  | flags f => rfl
  | store o bs full => simp only []; split <;> rfl
  | heap k new rows => simp only []; rw [(Core.foldl_heapRow_regs k new rows c).1]

theorem Core.land_v (c : Core) (p : Pend) (r : VReg) (h : p.hits { v := [r] } = false) : (c.land p).v[r] = c.v[r] := by
  unfold Core.land
  cases hp : p.land with
  | x a v => simp only [Core.wx]; split <;> rfl
  | v a t m =>
    simp only [Pend.hits, hp, List.contains_cons, List.contains_nil, Bool.or_false, beq_eq_false_iff_ne] at h
    have q : ¬ a.val = r.val := fun e => h (Fin.ext e)
    simp [Core.wv, q]
  | p a m => simp only [Core.wp]; split <;> rfl
  | flags f => rfl
  | store o bs full => simp only []; split <;> rfl
  | heap k new rows => simp only []; rw [(Core.foldl_heapRow_regs k new rows c).2.1]

theorem Core.land_p (c : Core) (p : Pend) (r : PReg) (h : p.hits { p := [r] } = false) : (c.land p).p[r] = c.p[r] := by
  unfold Core.land
  cases hp : p.land with
  | x a v => simp only [Core.wx]; split <;> rfl
  | v _ _ _ => rfl
  | p a m =>
    simp only [Pend.hits, hp, List.contains_cons, List.contains_nil, Bool.or_false, beq_eq_false_iff_ne] at h
    have q : ¬ a.val = r.val := fun e => h (Fin.ext e)
    simp only [Core.wp]; split
    · rfl
    · simp [q]
  | flags f => rfl
  | store o bs full => simp only []; split <;> rfl
  | heap k new rows => simp only []; rw [(Core.foldl_heapRow_regs k new rows c).2.2.1]

theorem Core.foldl_land_x (l : List Pend) (c : Core) (r : XReg) (h : ∀ p ∈ l, p.hits { x := [r] } = false) :
    (l.foldl Core.land c).x[r] = c.x[r] := by
  induction l generalizing c with
  | nil => rfl
  | cons p l ih =>
    rw [List.foldl_cons, ih _ fun q hq => h q (by simp [hq]), Core.land_x _ _ _ (h p (by simp))]

theorem Core.foldl_land_v (l : List Pend) (c : Core) (r : VReg) (h : ∀ p ∈ l, p.hits { v := [r] } = false) :
    (l.foldl Core.land c).v[r] = c.v[r] := by
  induction l generalizing c with
  | nil => rfl
  | cons p l ih =>
    rw [List.foldl_cons, ih _ fun q hq => h q (by simp [hq]), Core.land_v _ _ _ (h p (by simp))]

theorem Core.foldl_land_p (l : List Pend) (c : Core) (r : PReg) (h : ∀ p ∈ l, p.hits { p := [r] } = false) :
    (l.foldl Core.land c).p[r] = c.p[r] := by
  induction l generalizing c with
  | nil => rfl
  | cons p l ih =>
    rw [List.foldl_cons, ih _ fun q hq => h q (by simp [hq]), Core.land_p _ _ _ (h p (by simp))]

theorem Core.tick_due (c : Core) : ∃ l : List Pend, ∃ d : Core, c.tick = l.foldl Core.land d ∧ d.x = c.x ∧ d.v = c.v ∧ d.p = c.p ∧
    ∀ r : Regs, c.pend.any (Pend.hits · r) = false → ∀ p ∈ l, p.hits r = false := by
  refine ⟨_, _, rfl, rfl, rfl, rfl, fun r h p hp => ?_⟩
  obtain ⟨q, hq, e⟩ := List.mem_map.1 (List.mem_filter.1 hp).1
  have hh : q.hits r = false := by simpa using List.any_eq_false.1 h q hq
  rw [← e]; split
  · exact hh
  · exact hh

/-- A scalar register that nothing in flight writes keeps its value as a slot passes. -/
theorem Core.tick_rx (c : Core) (r : XReg) (h : c.pend.any (Pend.hits · { x := [r] }) = false) : c.tick.rx r = c.rx r := by
  obtain ⟨l, d, e, hx, -, -, hl⟩ := c.tick_due
  apply Core.rx_of_x; rw [e, Core.foldl_land_x _ _ _ (hl _ h), hx]

/-- A vector register that nothing in flight writes keeps its value as a slot passes. -/
theorem Core.tick_rv (c : Core) (r : VReg) (h : c.pend.any (Pend.hits · { v := [r] }) = false) : c.tick.rv r = c.rv r := by
  obtain ⟨l, d, e, -, hv, -, hl⟩ := c.tick_due
  unfold Core.rv; rw [e, Core.foldl_land_v _ _ _ (hl _ h), hv]

/-- A predicate register that nothing in flight writes keeps its value as a slot passes. -/
theorem Core.tick_rp (c : Core) (r : PReg) (h : c.pend.any (Pend.hits · { p := [r] }) = false) : c.tick.rp r = c.rp r := by
  obtain ⟨l, d, e, -, -, hp, hl⟩ := c.tick_due
  unfold Core.rp; rw [e, Core.foldl_land_p _ _ _ (hl _ h), hp]

end Sys2Proof.Machine
end

