-- ==== Sys2Proof/Laws/Memory.lean ====
section
/-! SUPPORT. Association lists read back what was put; memories read back what was written and keep their canonical form. -/

namespace Sys2Proof.Machine

/-! Association lists. -/

variable {α : Type}

theorem Assoc.find?_append (l m : Assoc α) (k : Nat) :
    Assoc.find? (l ++ m) k = (Assoc.find? l k).or (Assoc.find? m k) := by
  induction l with
  | nil => simp [Assoc.find?]
  | cons e l ih => simp only [List.cons_append, Assoc.find?]; split <;> simp_all

/-- Entries that a test picks by their numbers are found as before. -/
theorem Assoc.find?_filter (m : Assoc α) (p : Nat → Bool) (k : Nat) :
    Assoc.find? (m.filter fun e => p e.1) k = if p k then Assoc.find? m k else none := by
  induction m with
  | nil => simp [Assoc.find?]
  | cons e m ih =>
    by_cases h : p e.1 <;> by_cases hk : e.1 = k <;> simp_all [Assoc.find?]
    all_goals first | (subst hk; simp_all) | simp_all

theorem Assoc.find?_below (m : Assoc α) (k j : Nat) : (m.below k).find? j = if j < k then m.find? j else none := by
  have h := Assoc.find?_filter m (fun i => decide (i < k)) j
  simp only [decide_eq_true_eq] at h; exact h

theorem Assoc.find?_above (m : Assoc α) (k j : Nat) : (m.above k).find? j = if k < j then m.find? j else none := by
  have h := Assoc.find?_filter m (fun i => decide (k < i)) j
  simp only [decide_eq_true_eq] at h; exact h

/-- What is put under a number is found there, and everything else as before. -/
theorem Assoc.find?_put (m : Assoc α) (k j : Nat) (a : α) :
    (m.put k a).find? j = if j = k then some a else m.find? j := by
  rw [Assoc.put, Assoc.find?_append, Assoc.find?_below, Assoc.find?, Assoc.find?_above]
  rcases Nat.lt_trichotomy j k with h | h | h
  · simp [h, Nat.ne_of_lt h, Nat.ne_of_gt h, Nat.not_lt.2 (Nat.le_of_lt h)]
  · subst h; simp
  · simp [h, Nat.ne_of_gt h, Nat.ne_of_lt h, Nat.not_lt.2 (Nat.le_of_lt h)]

@[simp] theorem Assoc.find?_put_self (m : Assoc α) (k : Nat) (a : α) : (m.put k a).find? k = some a := by
  simp [Assoc.find?_put]

theorem Assoc.find?_put_ne (m : Assoc α) {k j : Nat} (a : α) (h : j ≠ k) : (m.put k a).find? j = m.find? j := by
  simp [Assoc.find?_put, h]

/-- What is removed is not found, and everything else as before. -/
theorem Assoc.find?_del (m : Assoc α) (k j : Nat) : (m.del k).find? j = if j = k then none else m.find? j := by
  rw [Assoc.del, Assoc.find?_append, Assoc.find?_below, Assoc.find?_above]
  rcases Nat.lt_trichotomy j k with h | h | h
  · simp [h, Nat.ne_of_lt h, Nat.not_lt.2 (Nat.le_of_lt h)]
  · subst h; simp
  · simp [h, Nat.ne_of_gt h, Nat.not_lt.2 (Nat.le_of_lt h)]

theorem Assoc.get_put (m : Assoc α) (d a : α) (k j : Nat) : (m.put k a).get d j = if j = k then a else m.get d j := by
  simp only [Assoc.get, Assoc.find?_put]; split <;> rfl

@[simp] theorem Assoc.get_put_self (m : Assoc α) (d a : α) (k : Nat) : (m.put k a).get d k = a := by
  simp [Assoc.get_put]

theorem Assoc.get_put_ne (m : Assoc α) (d a : α) {k j : Nat} (h : j ≠ k) : (m.put k a).get d j = m.get d j := by
  simp [Assoc.get_put, h]

/-! The bytes of a memory. -/

theorem Memory.byte_append (l m : Memory) (a : Nat) :
    Memory.byte (l ++ m) a = if a ∈ l.map Prod.fst then Memory.byte l a else Memory.byte m a := by
  induction l with
  | nil => simp
  | cons e l ih => by_cases h : e.1 = a <;> simp_all [Memory.byte, eq_comm]

theorem Memory.byte_filter (m : Memory) (p : Nat → Bool) (a : Nat) :
    Memory.byte (m.filter fun e => p e.1) a = if p a then Memory.byte m a else 0 := by
  induction m with
  | nil => simp [Memory.byte]
  | cons e m ih =>
    by_cases h : p e.1 <;> by_cases hk : e.1 = a <;> simp_all [Memory.byte]
    all_goals first | (subst hk; simp_all) | simp_all

theorem Memory.byte_absent (m : Memory) (a : Nat) (h : a ∉ m.map Prod.fst) : m.byte a = 0 := by
  induction m with
  | nil => rfl
  | cons e m ih => simp_all [Memory.byte, eq_comm]

theorem cellsFrom_mem {a : Nat} {bs : List Byte} {c : Host.Cell} (h : c ∈ cellsFrom a bs) :
    a ≤ c.1 ∧ c.1 < a + bs.length ∧ c.2 ≠ 0 := by
  induction bs generalizing a with
  | nil => simp [cellsFrom] at h
  | cons b bs ih =>
    simp only [cellsFrom] at h
    split at h
    · have := ih h; exact ⟨by omega, by simp only [List.length_cons]; omega, this.2.2⟩
    · rename_i hb
      rcases List.mem_cons.1 h with h | h
      · subst h; exact ⟨Nat.le_refl _, by simp, hb⟩
      · have := ih h; exact ⟨by omega, by simp only [List.length_cons]; omega, this.2.2⟩

theorem cellsFrom_byte (a : Nat) (bs : List Byte) (x : Nat) :
    (cellsFrom a bs).byte x = if a ≤ x ∧ x < a + bs.length then bs.getD (x - a) 0 else 0 := by
  induction bs generalizing a with
  | nil => simp [cellsFrom, Memory.byte]; 
  | cons b bs ih =>
    have step : (cellsFrom (a + 1) bs).byte x = if a + 1 ≤ x ∧ x < a + 1 + bs.length then bs.getD (x - (a + 1)) 0 else 0 := ih _
    by_cases hx : x = a
    · subst hx
      by_cases hb : b = 0
      · subst hb
        have e : cellsFrom x (0 :: bs) = cellsFrom (x + 1) bs := rfl
        rw [e, step, if_neg (by omega)]; simp
      · have e : cellsFrom x (b :: bs) = (x, b) :: cellsFrom (x + 1) bs := by simp only [cellsFrom]; rw [if_neg hb]
        rw [e]; simp [Memory.byte]
    · have hne : ¬ a = x := fun h => hx h.symm
      have hb : (cellsFrom a (b :: bs)).byte x = (cellsFrom (a + 1) bs).byte x := by
        simp only [cellsFrom]; split
        · rfl
        · simp [Memory.byte, hne]
      rw [hb, step]
      by_cases h1 : a + 1 ≤ x ∧ x < a + 1 + bs.length
      · have h2 : a ≤ x ∧ x < a + (b :: bs).length := by simp only [List.length_cons]; omega
        have h3 : x - a = (x - (a + 1)) + 1 := by omega
        rw [if_pos h1, if_pos h2, h3]; rfl
      · have h2 : ¬ (a ≤ x ∧ x < a + (b :: bs).length) := by simp only [List.length_cons]; omega
        rw [if_neg h1, if_neg h2]

theorem Memory.byte_append_left (l m : Memory) (a : Nat) (h : ∀ c ∈ m, c.1 ≠ a) :
    Memory.byte (l ++ m) a = Memory.byte l a := by
  rw [Memory.byte_append]; split
  · rfl
  · rename_i q
    rw [Memory.byte_absent _ _ q, Memory.byte_absent]
    intro q; obtain ⟨c, hc, e⟩ := List.mem_map.1 q; exact h c hc e

theorem Memory.byte_append_right (l m : Memory) (a : Nat) (h : ∀ c ∈ l, c.1 ≠ a) :
    Memory.byte (l ++ m) a = Memory.byte m a := by
  rw [Memory.byte_append, if_neg]
  intro q; obtain ⟨c, hc, e⟩ := List.mem_map.1 q; exact h c hc e

/-- A read after a write gives the bytes written, and every other byte as before. -/
theorem Memory.byte_write (m : Memory) (a : Nat) (bs : List Byte) (x : Nat) :
    (m.write a bs).byte x = if a ≤ x ∧ x < a + bs.length then bs.getD (x - a) 0 else m.byte x := by
  have e1 := Memory.byte_filter m (fun i => decide (i < a)) x
  have e2 := Memory.byte_filter m (fun i => decide (a + bs.length ≤ i)) x
  have k1 : ∀ c ∈ m.filter (fun c => decide (c.1 < a)), c.1 < a := by
    intro c hc; simpa using (List.mem_filter.1 hc).2
  have k3 : ∀ c ∈ m.filter (fun c => decide (a + bs.length ≤ c.1)), a + bs.length ≤ c.1 := by
    intro c hc; simpa using (List.mem_filter.1 hc).2
  have k2 : ∀ c ∈ cellsFrom a bs, a ≤ c.1 ∧ c.1 < a + bs.length := fun c hc => ⟨(cellsFrom_mem hc).1, (cellsFrom_mem hc).2.1⟩
  unfold Memory.write
  by_cases h : x < a
  · have n3 : ∀ c ∈ m.filter (fun c => decide (a + bs.length ≤ c.1)), c.1 ≠ x := fun c hc e => by
      have := k3 c hc; omega
    have n2 : ∀ c ∈ cellsFrom a bs, c.1 ≠ x := fun c hc e => by have := k2 c hc; omega
    rw [Memory.byte_append_left _ _ _ n3, Memory.byte_append_left _ _ _ n2, e1, if_pos (by simpa using h), if_neg (by omega)]
  · have n1 : ∀ c ∈ m.filter (fun c => decide (c.1 < a)), c.1 ≠ x := fun c hc e => by have := k1 c hc; omega
    by_cases h2 : x < a + bs.length
    · have n3 : ∀ c ∈ m.filter (fun c => decide (a + bs.length ≤ c.1)), c.1 ≠ x := fun c hc e => by
        have := k3 c hc; omega
      rw [Memory.byte_append_left _ _ _ n3, Memory.byte_append_right _ _ _ n1, cellsFrom_byte, if_pos ⟨by omega, h2⟩,
        if_pos ⟨by omega, h2⟩]
    · have n2 : ∀ c ∈ cellsFrom a bs, c.1 ≠ x := fun c hc e => by have := k2 c hc; omega
      have n : ∀ c ∈ m.filter (fun c => decide (c.1 < a)) ++ cellsFrom a bs, c.1 ≠ x := fun c hc =>
        (List.mem_append.1 hc).elim (n1 c) (n2 c)
      rw [Memory.byte_append_right _ _ _ n, e2, if_pos (by simp; omega), if_neg (by omega)]

/-- A range that is zero-filled reads zero, and every other byte as before. -/
theorem Memory.byte_zero (m : Memory) (a n x : Nat) :
    (m.zero a n).byte x = if a ≤ x ∧ x < a + n then 0 else m.byte x := by
  have e := Memory.byte_filter m (fun i => decide (i < a) || decide (a + n ≤ i)) x
  have e' : (m.zero a n).byte x = if (decide (x < a) || decide (a + n ≤ x)) = true then m.byte x else 0 := e
  rw [e']
  by_cases h : a ≤ x ∧ x < a + n
  · rw [if_pos h, if_neg (by simp; omega)]
  · rw [if_neg h, if_pos (by simp; omega)]

theorem Memory.byte_within (m : Memory) (a n x : Nat) (h : a ≤ x ∧ x < a + n) : (m.within a n).byte x = m.byte x := by
  have e := Memory.byte_filter m (fun i => decide (a ≤ i) && decide (i < a + n)) x
  unfold Memory.within
  rw [e]; simp [h.1, h.2]

/-- A range is read byte by byte. -/
theorem Memory.read_eq (m : Memory) (a n : Nat) : m.read a n = (List.range n).map fun i => m.byte (a + i) := by
  unfold Memory.read
  apply List.map_congr_left
  intro i hi
  exact Memory.byte_within m a n _ ⟨by omega, by have := List.mem_range.1 hi; omega⟩

@[simp] theorem Memory.read_length (m : Memory) (a n : Nat) : (m.read a n).length = n := by simp [Memory.read_eq]

/-- Bytes written are read back. -/
theorem Memory.read_write (m : Memory) (a : Nat) (bs : List Byte) : (m.write a bs).read a bs.length = bs := by
  rw [Memory.read_eq]
  apply List.ext_getElem (by simp)
  intro i h1 h2
  have : i < bs.length := by simpa using h1
  simp [Memory.byte_write, this]

/-- A range apart from the one written reads as before. -/
theorem Memory.read_write_apart (m : Memory) (a b n : Nat) (bs : List Byte) (h : b + n ≤ a ∨ a + bs.length ≤ b) :
    (m.write a bs).read b n = m.read b n := by
  rw [Memory.read_eq, Memory.read_eq]
  apply List.map_congr_left
  intro i hi
  have := List.mem_range.1 hi
  rw [Memory.byte_write, if_neg (by omega)]

/-! The canonical form. -/

theorem rising_iff (l : List Nat) : rising l = true ↔ l.Pairwise (· < ·) := by
  induction l with
  | nil => simp [rising]
  | cons a l ih =>
    cases l with
    | nil => simp [rising]
    | cons b l =>
      have ih' : rising (b :: l) = true ↔ (b :: l).Pairwise (· < ·) := ih
      simp only [rising, Bool.and_eq_true, decide_eq_true_eq, ih', List.pairwise_cons]
      constructor
      · rintro ⟨h1, h2, h3⟩
        refine ⟨fun x hx => ?_, h2, h3⟩
        rcases List.mem_cons.1 hx with rfl | hx
        · exact h1
        · exact Nat.lt_trans h1 (h2 x hx)
      · rintro ⟨h1, h2, h3⟩; exact ⟨h1 b (by simp), h2, h3⟩

theorem Memory.wf_iff (m : Memory) : m.wf = true ↔ m.Pairwise (fun a b => a.1 < b.1) ∧ ∀ c ∈ m, c.2 ≠ 0 := by
  simp only [Memory.wf, Bool.and_eq_true, rising_iff, List.pairwise_map, List.all_eq_true, bne_iff_ne]

theorem cellsFrom_pairwise (a : Nat) (bs : List Byte) : (cellsFrom a bs).Pairwise (fun x y => x.1 < y.1) := by
  induction bs generalizing a with
  | nil => simp [cellsFrom]
  | cons b bs ih =>
    simp only [cellsFrom]
    split
    · exact ih _
    · refine List.pairwise_cons.2 ⟨fun c hc => ?_, ih _⟩
      have := cellsFrom_mem hc; simp only; omega

theorem Memory.wf_nil : Memory.wf [] = true := rfl

/-- Writing keeps the canonical form. -/
theorem Memory.wf_write {m : Memory} (h : m.wf = true) (a : Nat) (bs : List Byte) : (m.write a bs).wf = true := by
  rw [Memory.wf_iff] at h ⊢
  unfold Memory.write
  refine ⟨?_, ?_⟩
  · refine List.pairwise_append.2 ⟨List.pairwise_append.2 ⟨h.1.filter _, cellsFrom_pairwise a bs, ?_⟩, h.1.filter _, ?_⟩
    · intro x hx y hy
      have := (List.mem_filter.1 hx).2; have := cellsFrom_mem hy; simp at *; omega
    · intro x hx y hy
      have hy' := (List.mem_filter.1 hy).2
      rcases List.mem_append.1 hx with hx | hx
      · have := (List.mem_filter.1 hx).2; simp at *; omega
      · have := cellsFrom_mem hx; simp at *; omega
  · intro c hc
    rcases List.mem_append.1 hc with hc | hc
    · rcases List.mem_append.1 hc with hc | hc
      · exact h.2 c (List.mem_filter.1 hc).1
      · exact (cellsFrom_mem hc).2.2
    · exact h.2 c (List.mem_filter.1 hc).1

/-- Zero-filling keeps the canonical form. -/
theorem Memory.wf_zero {m : Memory} (h : m.wf = true) (a n : Nat) : (m.zero a n).wf = true := by
  rw [Memory.wf_iff] at h ⊢
  exact ⟨h.1.filter _, fun c hc => h.2 c (List.mem_filter.1 hc).1⟩

/-- Taking a range keeps the canonical form. -/
theorem Memory.wf_within {m : Memory} (h : m.wf = true) (a n : Nat) : (m.within a n).wf = true := by
  rw [Memory.wf_iff] at h ⊢
  exact ⟨h.1.filter _, fun c hc => h.2 c (List.mem_filter.1 hc).1⟩

/-- Two memories in canonical form that read alike at every address are equal. -/
theorem Memory.ext {m n : Memory} (hm : m.wf = true) (hn : n.wf = true) (h : ∀ a, m.byte a = n.byte a) : m = n := by
  rw [Memory.wf_iff] at hm hn
  have find : ∀ {k : Memory}, k.Pairwise (fun a b => a.1 < b.1) → ∀ c ∈ k, k.byte c.1 = c.2 := by
    intro k hk c hc
    induction k with
    | nil => simp at hc
    | cons e k ih =>
      rcases List.mem_cons.1 hc with rfl | hc
      · simp [Memory.byte]
      · have : e.1 < c.1 := (List.pairwise_cons.1 hk).1 c hc
        simp only [Memory.byte]; rw [if_neg (by omega)]
        exact ih (List.pairwise_cons.1 hk).2 hc
  induction m generalizing n with
  | nil =>
    cases n with
    | nil => rfl
    | cons e n =>
      have h1 := h e.1
      have := hn.2 e (by simp)
      simp [Memory.byte] at h1; exact absurd h1.symm this
  | cons d m ih =>
    cases n with
    | nil =>
      have h1 := h d.1
      have := hm.2 d (by simp)
      simp [Memory.byte] at h1; exact absurd h1 this
    | cons e n =>
      have pm := List.pairwise_cons.1 hm.1
      have pn := List.pairwise_cons.1 hn.1
      have out : ∀ {k : Memory} {a : Nat}, (∀ c ∈ k, a < c.1) → k.byte a = 0 := by
        intro k a q; apply Memory.byte_absent
        intro q'; obtain ⟨c, hc, e⟩ := List.mem_map.1 q'; have := q c hc; omega
      have key : d.1 = e.1 := by
        rcases Nat.lt_trichotomy d.1 e.1 with q | q | q
        · have h1 := h d.1
          rw [Memory.byte, if_pos rfl, out (k := e :: n)] at h1
          · exact absurd h1 (hm.2 d (by simp))
          · intro c hc; rcases List.mem_cons.1 hc with rfl | hc
            · exact q
            · exact Nat.lt_trans q (pn.1 c hc)
        · exact q
        · have h1 := h e.1
          rw [Memory.byte.eq_def (e :: n)] at h1; simp only [if_true] at h1
          rw [out (k := d :: m)] at h1
          · exact absurd h1.symm (hn.2 e (by simp))
          · intro c hc; rcases List.mem_cons.1 hc with rfl | hc
            · exact q
            · exact Nat.lt_trans q (pm.1 c hc)
      have val : d.2 = e.2 := by
        have h1 := h d.1
        simpa [Memory.byte, key] using h1
      have de : d = e := Prod.ext key val
      subst de
      congr 1
      apply ih ⟨pm.2, fun c hc => hm.2 c (by simp [hc])⟩ ⟨pn.2, fun c hc => hn.2 c (by simp [hc])⟩
      intro a
      by_cases q : a = d.1
      · subst q; rw [out pm.1, out pn.1]
      · have h1 := h a
        have q' : ¬ d.1 = a := fun e => q e.symm
        simpa [Memory.byte, q'] using h1

/-! Numbers as bytes. -/

@[simp] theorem leBytes_length (n w : Nat) : (leBytes n w).length = n := by
  induction n generalizing w with
  | zero => rfl
  | succ n ih => simp [leBytes, ih]

/-- The bytes of a number form it again, as far as they reach. -/
theorem leNat_leBytes (n w : Nat) : leNat (leBytes n w) = w % 256 ^ n := by
  induction n generalizing w with
  | zero => simp [leBytes, leNat, Nat.mod_one]
  | succ n ih =>
    simp only [leBytes, leNat, ih, BitVec.toNat_ofNat]
    rw [show 256 ^ (n + 1) = 256 * 256 ^ n by rw [Nat.pow_succ, Nat.mul_comm]]
    exact (Nat.mod_mul (x := w) (a := 256) (b := 256 ^ n)).symm

theorem leNat_lt (bs : List Byte) : leNat bs < 256 ^ bs.length := by
  induction bs with
  | nil => simp [leNat]
  | cons b bs ih =>
    have := b.isLt
    simp only [leNat, List.length_cons, Nat.pow_succ]; omega

end Sys2Proof.Machine
end

