-- ==== Sys2Proof/Laws/PerInstr.lean ====
section
/-! SUPPORT. Statements per instruction: the words that encode an instruction decode to it. -/

namespace Sys2Proof.Laws.Encoding

open Sys2Proof

set_option Elab.async false
set_option linter.unusedVariables false

/-- The words that the encoder makes of a well-formed instruction are 32-bit words, and the decoder reads the instruction
and their number from them, whatever words follow (03_formats.md R35 to R43). -/
def Statement (i : Instr) : Prop := i.wf = true → ∀ r, encode i = some r → Reads i r

theorem ill (code : BitVec 23) : Statement (.ill code) := by
  intro _ r h
  injection h with h; subst h
  have h1 : fld (2 ^ 9 * code.toNat) 0 2 = 0 := by simp only [fld]; omega
  have h2 : fld (2 ^ 9 * code.toNat) 2 7 = 0 := by simp only [fld]; omega
  have h3 : fld (2 ^ 9 * code.toNat) 9 23 = code.toNat := by simp only [fld]; omega
  refine Reads.of_raw (by show 2 ^ 9 * code.toNat < 2 ^ 32; omega) (by show 0 < 2 ^ 32; decide) (by show 0 < 2 ^ 32; decide)
    (by show 0 < 2 ^ 64; decide) (fun _ => ⟨rfl, rfl⟩) (fun _ => rfl) ?_
  rw [decode_row (r := { w0 := 2 ^ 9 * code.toNat }) h2 h1 (by decide)]
  show decControl _ = _
  simp only [decControl, Raw.op, h2, h3, BitVec.ofNat_toNat, BitVec.setWidth_eq]

theorem nop (n : Fin 2048) : Statement (.nop n) := by
  intro hw r h
  injection h with h; subst h
  refine Reads.formI (x := {}) (by decide) (by decide) (by decide) ?_ ?_ ?_ ?_ ?_ ?_ ?_ ?_ ?_
  any_goals first | decide | omega | exact W2.fits_zero | exact VX.fits _ (by omega) (by omega) | exact MX.fits _ (by omega) (by omega) (by omega) | (simp only [W2.fits, FTy.code]; omega) | (simp only [W2.fits]; omega) | (intro q; exact ⟨rfl, rfl⟩) | (intro q; rfl) | (intro q; omega)
  intro r hr ht
  show decControl r = _
  simp only [decControl, hr.op]
  simp [fin2, hr.d, hr.a, hr.imm11]

theorem br (disp : BitVec 17) : Statement (.br disp) := by
  intro hw r h
  injection h with h; subst h
  refine Reads.formJ (x := {}) (by decide) (by decide) (by decide) ?_ ?_ ?_ ?_ ?_ ?_ ?_ ?_ ?_
  any_goals first | decide | omega | exact W2.fits_zero | exact VX.fits _ (by omega) (by omega) | exact MX.fits _ (by omega) (by omega) (by omega) | (simp only [W2.fits, FTy.code]; omega) | (simp only [W2.fits]; omega) | (intro q; exact ⟨rfl, rfl⟩) | (intro q; rfl) | (intro q; omega)
  intro r hr ht
  show decControl r = _
  simp only [decControl, hr.op]
  simp [fin2, hr.len, hr.pj, hr.mode, hr.disp17, hr.jz]

theorem brAbsolute (t : Word) : Statement (.brAbsolute t) := by
  intro hw r h
  injection h with h; subst h
  refine Reads.formJ (x := {}) (by decide) (by decide) (by decide) ?_ ?_ ?_ ?_ ?_ ?_ ?_ ?_ ?_
  any_goals first | decide | omega | exact W2.fits_zero | exact VX.fits _ (by omega) (by omega) | exact MX.fits _ (by omega) (by omega) (by omega) | (simp only [W2.fits, FTy.code]; omega) | (simp only [W2.fits]; omega) | (intro q; exact ⟨rfl, rfl⟩) | (intro q; rfl) | (intro q; omega)
  intro r hr ht
  show decControl r = _
  simp only [decControl, hr.op]
  simp [fin2, hr.len, hr.pj, hr.mode, hr.disp17, hr.jz, ht.lit]

theorem bc (q : Quant) (p : PReg) (disp : BitVec 17) : Statement (.bc q p disp) := by
  intro hw r h
  have := q.code_lt
  injection h with h; subst h
  refine Reads.formJ (x := {}) (by decide) (by decide) (by decide) ?_ ?_ ?_ ?_ ?_ ?_ ?_ ?_ ?_
  any_goals first | decide | omega | exact W2.fits_zero | exact VX.fits _ (by omega) (by omega) | exact MX.fits _ (by omega) (by omega) (by omega) | (simp only [W2.fits, FTy.code]; omega) | (simp only [W2.fits]; omega) | (intro q; exact ⟨rfl, rfl⟩) | (intro q; rfl) | (intro q; omega)
  intro r hr ht
  show decControl r = _
  simp only [decControl, hr.op]
  simp [fin2, hr.pj, hr.mode, hr.disp17, hr.jz]

theorem bcmp (c : ICond) (a b : XReg) (disp : BitVec 32) : Statement (.bcmp c a b disp) := by
  intro hw r h
  have := c.code_lt
  injection h with h; subst h
  refine Reads.formA (by decide) (by decide) (by decide) ?_ ?_ ?_ ?_ ?_ ?_ ?_ ?_ ?_ ?_
  any_goals first | decide | omega | exact W2.fits_zero | exact VX.fits _ (by omega) (by omega) | exact MX.fits _ (by omega) (by omega) (by omega) | (simp only [W2.fits, FTy.code]; omega) | (simp only [W2.fits]; omega) | (intro q; exact ⟨rfl, rfl⟩) | (intro q; rfl) | (intro q; omega)
  intro r hr ht
  show decControl r = _
  simp only [decControl, hr.op]
  simp [fin2, hr.d, hr.a, hr.b, hr.fn5, ht.w1, ht.w2]

theorem jr (a : XReg) : Statement (.jr a) := by
  intro hw r h
  injection h with h; subst h
  refine Reads.formA (x := {}) (by decide) (by decide) (by decide) ?_ ?_ ?_ ?_ ?_ ?_ ?_ ?_ ?_ ?_
  any_goals first | decide | omega | exact W2.fits_zero | exact VX.fits _ (by omega) (by omega) | exact MX.fits _ (by omega) (by omega) (by omega) | (simp only [W2.fits, FTy.code]; omega) | (simp only [W2.fits]; omega) | (intro q; exact ⟨rfl, rfl⟩) | (intro q; rfl) | (intro q; omega)
  intro r hr ht
  show decControl r = _
  simp only [decControl, hr.op]
  simp [fin2, hr.d, hr.a, hr.b, hr.fn5]

theorem call (disp : BitVec 17) : Statement (.call disp) := by
  intro hw r h
  injection h with h; subst h
  refine Reads.formJ (x := {}) (by decide) (by decide) (by decide) ?_ ?_ ?_ ?_ ?_ ?_ ?_ ?_ ?_
  any_goals first | decide | omega | exact W2.fits_zero | exact VX.fits _ (by omega) (by omega) | exact MX.fits _ (by omega) (by omega) (by omega) | (simp only [W2.fits, FTy.code]; omega) | (simp only [W2.fits]; omega) | (intro q; exact ⟨rfl, rfl⟩) | (intro q; rfl) | (intro q; omega)
  intro r hr ht
  show decControl r = _
  simp only [decControl, hr.op]
  simp [fin2, hr.len, hr.pj, hr.mode, hr.disp17, hr.jz]

theorem callAbsolute (t : Word) : Statement (.callAbsolute t) := by
  intro hw r h
  injection h with h; subst h
  refine Reads.formJ (x := {}) (by decide) (by decide) (by decide) ?_ ?_ ?_ ?_ ?_ ?_ ?_ ?_ ?_
  any_goals first | decide | omega | exact W2.fits_zero | exact VX.fits _ (by omega) (by omega) | exact MX.fits _ (by omega) (by omega) (by omega) | (simp only [W2.fits, FTy.code]; omega) | (simp only [W2.fits]; omega) | (intro q; exact ⟨rfl, rfl⟩) | (intro q; rfl) | (intro q; omega)
  intro r hr ht
  show decControl r = _
  simp only [decControl, hr.op]
  simp [fin2, hr.len, hr.pj, hr.mode, hr.disp17, hr.jz, ht.lit]

theorem ret (a : XReg) : Statement (.ret a) := by
  intro hw r h
  injection h with h; subst h
  refine Reads.formA (x := {}) (by decide) (by decide) (by decide) ?_ ?_ ?_ ?_ ?_ ?_ ?_ ?_ ?_ ?_
  any_goals first | decide | omega | exact W2.fits_zero | exact VX.fits _ (by omega) (by omega) | exact MX.fits _ (by omega) (by omega) (by omega) | (simp only [W2.fits, FTy.code]; omega) | (simp only [W2.fits]; omega) | (intro q; exact ⟨rfl, rfl⟩) | (intro q; rfl) | (intro q; omega)
  intro r hr ht
  show decControl r = _
  simp only [decControl, hr.op]
  simp [fin2, hr.d, hr.a, hr.b, hr.fn5]

theorem loop (l : Level) (e : Fin 2048) (count : BitVec 32) : Statement (.loop l e count) := by
  intro hw r h
  have hw : ((4 ≤ e.val : Bool)) = true := hw
  injection h with h; subst h
  refine Reads.formI (x := {}) (by decide) (by decide) (by decide) ?_ ?_ ?_ ?_ ?_ ?_ ?_ ?_ ?_
  any_goals first | decide | omega | exact W2.fits_zero | exact VX.fits _ (by omega) (by omega) | exact MX.fits _ (by omega) (by omega) (by omega) | (simp only [W2.fits, FTy.code]; omega) | (simp only [W2.fits]; omega) | (intro q; exact ⟨rfl, rfl⟩) | (intro q; rfl) | (intro q; omega)
  intro r hr ht
  have e : l.val < 4 := by omega
  show decControl r = _
  simp only [decControl, hr.op]
  simp_all [fin2, guardO, hr.d, hr.a, hr.imm11, ht.w1, ht.w2]

theorem loopr (l : Level) (a : XReg) (e : Fin 2048) : Statement (.loopr l a e) := by
  intro hw r h
  have hw : ((2 ≤ e.val : Bool)) = true := hw
  injection h with h; subst h
  refine Reads.formI (x := {}) (by decide) (by decide) (by decide) ?_ ?_ ?_ ?_ ?_ ?_ ?_ ?_ ?_
  any_goals first | decide | omega | exact W2.fits_zero | exact VX.fits _ (by omega) (by omega) | exact MX.fits _ (by omega) (by omega) (by omega) | (simp only [W2.fits, FTy.code]; omega) | (simp only [W2.fits]; omega) | (intro q; exact ⟨rfl, rfl⟩) | (intro q; rfl) | (intro q; omega)
  intro r hr ht
  have e : l.val < 4 := by omega
  show decControl r = _
  simp only [decControl, hr.op]
  simp_all [fin2, guardO, hr.d, hr.a, hr.imm11]

theorem lbrk (l : Level) (q : Quant) (p : PReg) : Statement (.lbrk l q p) := by
  intro hw r h
  have := q.code_lt
  injection h with h; subst h
  refine Reads.formJ (x := {}) (by decide) (by decide) (by decide) ?_ ?_ ?_ ?_ ?_ ?_ ?_ ?_ ?_
  any_goals first | decide | omega | exact W2.fits_zero | exact VX.fits _ (by omega) (by omega) | exact MX.fits _ (by omega) (by omega) (by omega) | (simp only [W2.fits, FTy.code]; omega) | (simp only [W2.fits]; omega) | (intro q; exact ⟨rfl, rfl⟩) | (intro q; rfl) | (intro q; omega)
  intro r hr ht
  have e : l.val < 4 := by omega
  show decControl r = _
  simp only [decControl, hr.op]
  simp [fin2, guardO, hr.pj, hr.mode, hr.disp17, hr.jz, e]

theorem phaseX : Statement .phaseX := by
  intro hw r h
  injection h with h; subst h
  refine Reads.formA (x := {}) (by decide) (by decide) (by decide) ?_ ?_ ?_ ?_ ?_ ?_ ?_ ?_ ?_ ?_
  any_goals first | decide | omega | exact W2.fits_zero | exact VX.fits _ (by omega) (by omega) | exact MX.fits _ (by omega) (by omega) (by omega) | (simp only [W2.fits, FTy.code]; omega) | (simp only [W2.fits]; omega) | (intro q; exact ⟨rfl, rfl⟩) | (intro q; rfl) | (intro q; omega)
  intro r hr ht
  show decControl r = _
  simp only [decControl, hr.op]
  simp [fin2, hr.d, hr.a, hr.b, hr.fn5]

theorem phaseC : Statement .phaseC := by
  intro hw r h
  injection h with h; subst h
  refine Reads.formA (x := {}) (by decide) (by decide) (by decide) ?_ ?_ ?_ ?_ ?_ ?_ ?_ ?_ ?_ ?_
  any_goals first | decide | omega | exact W2.fits_zero | exact VX.fits _ (by omega) (by omega) | exact MX.fits _ (by omega) (by omega) (by omega) | (simp only [W2.fits, FTy.code]; omega) | (simp only [W2.fits]; omega) | (intro q; exact ⟨rfl, rfl⟩) | (intro q; rfl) | (intro q; omega)
  intro r hr ht
  show decControl r = _
  simp only [decControl, hr.op]
  simp [fin2, hr.d, hr.a, hr.b, hr.fn5]

theorem chainLeave : Statement .chainLeave := by
  intro hw r h
  injection h with h; subst h
  refine Reads.formA (x := {}) (by decide) (by decide) (by decide) ?_ ?_ ?_ ?_ ?_ ?_ ?_ ?_ ?_ ?_
  any_goals first | decide | omega | exact W2.fits_zero | exact VX.fits _ (by omega) (by omega) | exact MX.fits _ (by omega) (by omega) (by omega) | (simp only [W2.fits, FTy.code]; omega) | (simp only [W2.fits]; omega) | (intro q; exact ⟨rfl, rfl⟩) | (intro q; rfl) | (intro q; omega)
  intro r hr ht
  show decControl r = _
  simp only [decControl, hr.op]
  simp [fin2, hr.len, hr.d, hr.a, hr.b, hr.fn5, ht.w1, ht.w2]

theorem chainForm (rows : Fin 8) (cols : Fin 32) : Statement (.chainForm rows cols) := by
  intro hw r h
  injection h with h; subst h
  refine Reads.formA (by decide) (by decide) (by decide) ?_ ?_ ?_ ?_ ?_ ?_ ?_ ?_ ?_ ?_
  any_goals first | decide | omega | exact W2.fits_zero | exact VX.fits _ (by omega) (by omega) | exact MX.fits _ (by omega) (by omega) (by omega) | (simp only [W2.fits, FTy.code]; omega) | (simp only [W2.fits]; omega) | (intro q; exact ⟨rfl, rfl⟩) | (intro q; rfl) | (intro q; omega)
  intro r hr ht
  have e1 : (rows.val + 256 * cols.val = (rows.val + 256 * cols.val) % 8 + 256 * ((rows.val + 256 * cols.val) / 256 % 32)) = True := eq_true (by omega)
  have e2 : Fin.ofNat 8 (rows.val + 256 * cols.val) = rows := ofNat_eq (by omega)
  have e3 : Fin.ofNat 32 ((rows.val + 256 * cols.val) / 256) = cols := ofNat_eq (by omega)
  show decControl r = _
  simp only [decControl, hr.op]
  simp [fin2, hr.len, hr.d, hr.a, hr.b, hr.fn5, ht.w1, ht.w2, e1, e2, e3] <;> exact ⟨e2, e3⟩

theorem xferVector (dir : Dir) (d a : VReg) : Statement (.xferVector dir d a) := by
  intro hw r h
  have := dir.code_lt
  injection h with h; subst h
  refine Reads.formA (x := {}) (by decide) (by decide) (by decide) ?_ ?_ ?_ ?_ ?_ ?_ ?_ ?_ ?_ ?_
  any_goals first | decide | omega | exact W2.fits_zero | exact VX.fits _ (by omega) (by omega) | exact MX.fits _ (by omega) (by omega) (by omega) | (simp only [W2.fits, FTy.code]; omega) | (simp only [W2.fits]; omega) | (intro q; exact ⟨rfl, rfl⟩) | (intro q; rfl) | (intro q; omega)
  intro r hr ht
  show decControl r = _
  simp only [decControl, hr.op]
  cases dir <;> simp [fin2, hr.d, hr.a, hr.b, hr.fn5, Dir.code, Dir.ofCode]

theorem xferScalar (dir : Dir) (d a : XReg) : Statement (.xferScalar dir d a) := by
  intro hw r h
  have := dir.code_lt
  injection h with h; subst h
  refine Reads.formA (x := {}) (by decide) (by decide) (by decide) ?_ ?_ ?_ ?_ ?_ ?_ ?_ ?_ ?_ ?_
  any_goals first | decide | omega | exact W2.fits_zero | exact VX.fits _ (by omega) (by omega) | exact MX.fits _ (by omega) (by omega) (by omega) | (simp only [W2.fits, FTy.code]; omega) | (simp only [W2.fits]; omega) | (intro q; exact ⟨rfl, rfl⟩) | (intro q; rfl) | (intro q; omega)
  intro r hr ht
  show decControl r = _
  simp only [decControl, hr.op]
  cases dir <;> simp [fin2, hr.d, hr.a, hr.b, hr.fn5, Dir.code, Dir.ofCode]

theorem done : Statement .done := by
  intro hw r h
  injection h with h; subst h
  refine Reads.formA (x := {}) (by decide) (by decide) (by decide) ?_ ?_ ?_ ?_ ?_ ?_ ?_ ?_ ?_ ?_
  any_goals first | decide | omega | exact W2.fits_zero | exact VX.fits _ (by omega) (by omega) | exact MX.fits _ (by omega) (by omega) (by omega) | (simp only [W2.fits, FTy.code]; omega) | (simp only [W2.fits]; omega) | (intro q; exact ⟨rfl, rfl⟩) | (intro q; rfl) | (intro q; omega)
  intro r hr ht
  show decControl r = _
  simp only [decControl, hr.op]
  simp [fin2, hr.d, hr.a, hr.b, hr.fn5]

theorem exit (a : XReg) : Statement (.exit a) := by
  intro hw r h
  injection h with h; subst h
  refine Reads.formA (x := {}) (by decide) (by decide) (by decide) ?_ ?_ ?_ ?_ ?_ ?_ ?_ ?_ ?_ ?_
  any_goals first | decide | omega | exact W2.fits_zero | exact VX.fits _ (by omega) (by omega) | exact MX.fits _ (by omega) (by omega) (by omega) | (simp only [W2.fits, FTy.code]; omega) | (simp only [W2.fits]; omega) | (intro q; exact ⟨rfl, rfl⟩) | (intro q; rfl) | (intro q; omega)
  intro r hr ht
  show decControl r = _
  simp only [decControl, hr.op]
  simp [fin2, hr.d, hr.a, hr.b, hr.fn5]

theorem add (f : AddFn) (d a b : XReg) : Statement (.add f d a b) := by
  intro hw r h
  have := f.code_lt
  injection h with h; subst h
  refine Reads.formA (x := {}) (by decide) (by decide) (by decide) ?_ ?_ ?_ ?_ ?_ ?_ ?_ ?_ ?_ ?_
  any_goals first | decide | omega | exact W2.fits_zero | exact VX.fits _ (by omega) (by omega) | exact MX.fits _ (by omega) (by omega) (by omega) | (simp only [W2.fits, FTy.code]; omega) | (simp only [W2.fits]; omega) | (intro q; exact ⟨rfl, rfl⟩) | (intro q; rfl) | (intro q; omega)
  intro r hr ht
  show decScalar r = _
  simp only [decScalar, hr.op]
  simp [decAB, fin2, hr.len, hr.d, hr.a, hr.b, hr.fn5]

theorem addLiteral (f : AddFn) (d a : XReg) (v : Word) : Statement (.addLiteral f d a v) := by
  intro hw r h
  have := f.code_lt
  injection h with h; subst h
  refine Reads.formA (x := {}) (by decide) (by decide) (by decide) ?_ ?_ ?_ ?_ ?_ ?_ ?_ ?_ ?_ ?_
  any_goals first | decide | omega | exact W2.fits_zero | exact VX.fits _ (by omega) (by omega) | exact MX.fits _ (by omega) (by omega) (by omega) | (simp only [W2.fits, FTy.code]; omega) | (simp only [W2.fits]; omega) | (intro q; exact ⟨rfl, rfl⟩) | (intro q; rfl) | (intro q; omega)
  intro r hr ht
  show decScalar r = _
  simp only [decScalar, hr.op]
  simp [decAB, fin2, hr.len, hr.d, hr.a, hr.b, hr.fn5, ht.lit]

theorem sub (f : AddFn) (d a b : XReg) : Statement (.sub f d a b) := by
  intro hw r h
  have := f.code_lt
  injection h with h; subst h
  refine Reads.formA (x := {}) (by decide) (by decide) (by decide) ?_ ?_ ?_ ?_ ?_ ?_ ?_ ?_ ?_ ?_
  any_goals first | decide | omega | exact W2.fits_zero | exact VX.fits _ (by omega) (by omega) | exact MX.fits _ (by omega) (by omega) (by omega) | (simp only [W2.fits, FTy.code]; omega) | (simp only [W2.fits]; omega) | (intro q; exact ⟨rfl, rfl⟩) | (intro q; rfl) | (intro q; omega)
  intro r hr ht
  show decScalar r = _
  simp only [decScalar, hr.op]
  simp [decAB, fin2, hr.len, hr.d, hr.a, hr.b, hr.fn5]

theorem subLiteral (f : AddFn) (d a : XReg) (v : Word) : Statement (.subLiteral f d a v) := by
  intro hw r h
  have := f.code_lt
  injection h with h; subst h
  refine Reads.formA (x := {}) (by decide) (by decide) (by decide) ?_ ?_ ?_ ?_ ?_ ?_ ?_ ?_ ?_ ?_
  any_goals first | decide | omega | exact W2.fits_zero | exact VX.fits _ (by omega) (by omega) | exact MX.fits _ (by omega) (by omega) (by omega) | (simp only [W2.fits, FTy.code]; omega) | (simp only [W2.fits]; omega) | (intro q; exact ⟨rfl, rfl⟩) | (intro q; rfl) | (intro q; omega)
  intro r hr ht
  show decScalar r = _
  simp only [decScalar, hr.op]
  simp [decAB, fin2, hr.len, hr.d, hr.a, hr.b, hr.fn5, ht.lit]

theorem addi (d a : XReg) (i : BitVec 11) : Statement (.addi d a i) := by
  intro hw r h
  injection h with h; subst h
  refine Reads.formI (x := {}) (by decide) (by decide) (by decide) ?_ ?_ ?_ ?_ ?_ ?_ ?_ ?_ ?_
  any_goals first | decide | omega | exact W2.fits_zero | exact VX.fits _ (by omega) (by omega) | exact MX.fits _ (by omega) (by omega) (by omega) | (simp only [W2.fits, FTy.code]; omega) | (simp only [W2.fits]; omega) | (intro q; exact ⟨rfl, rfl⟩) | (intro q; rfl) | (intro q; omega)
  intro r hr ht
  show decScalar r = _
  simp only [decScalar, hr.op]
  simp [fin2, hr.d, hr.a, hr.imm11]

theorem mul (d a b : XReg) : Statement (.mul d a b) := by
  intro hw r h
  injection h with h; subst h
  refine Reads.formA (x := {}) (by decide) (by decide) (by decide) ?_ ?_ ?_ ?_ ?_ ?_ ?_ ?_ ?_ ?_
  any_goals first | decide | omega | exact W2.fits_zero | exact VX.fits _ (by omega) (by omega) | exact MX.fits _ (by omega) (by omega) (by omega) | (simp only [W2.fits, FTy.code]; omega) | (simp only [W2.fits]; omega) | (intro q; exact ⟨rfl, rfl⟩) | (intro q; rfl) | (intro q; omega)
  intro r hr ht
  show decScalar r = _
  simp only [decScalar, hr.op]
  simp [decAB, fin2, guardO, hr.len, hr.d, hr.a, hr.b, hr.fn5]

theorem mulLiteral (d a : XReg) (v : Word) : Statement (.mulLiteral d a v) := by
  intro hw r h
  injection h with h; subst h
  refine Reads.formA (x := {}) (by decide) (by decide) (by decide) ?_ ?_ ?_ ?_ ?_ ?_ ?_ ?_ ?_ ?_
  any_goals first | decide | omega | exact W2.fits_zero | exact VX.fits _ (by omega) (by omega) | exact MX.fits _ (by omega) (by omega) (by omega) | (simp only [W2.fits, FTy.code]; omega) | (simp only [W2.fits]; omega) | (intro q; exact ⟨rfl, rfl⟩) | (intro q; rfl) | (intro q; omega)
  intro r hr ht
  show decScalar r = _
  simp only [decScalar, hr.op]
  simp [decAB, fin2, guardO, hr.len, hr.d, hr.a, hr.b, hr.fn5, ht.lit]

theorem mulhi (f : MulhiFn) (d a b : XReg) : Statement (.mulhi f d a b) := by
  intro hw r h
  have := f.code_lt
  injection h with h; subst h
  refine Reads.formA (x := {}) (by decide) (by decide) (by decide) ?_ ?_ ?_ ?_ ?_ ?_ ?_ ?_ ?_ ?_
  any_goals first | decide | omega | exact W2.fits_zero | exact VX.fits _ (by omega) (by omega) | exact MX.fits _ (by omega) (by omega) (by omega) | (simp only [W2.fits, FTy.code]; omega) | (simp only [W2.fits]; omega) | (intro q; exact ⟨rfl, rfl⟩) | (intro q; rfl) | (intro q; omega)
  intro r hr ht
  show decScalar r = _
  simp only [decScalar, hr.op]
  simp [decAB, fin2, hr.len, hr.d, hr.a, hr.b, hr.fn5]

theorem mulhiLiteral (f : MulhiFn) (d a : XReg) (v : Word) : Statement (.mulhiLiteral f d a v) := by
  intro hw r h
  have := f.code_lt
  injection h with h; subst h
  refine Reads.formA (x := {}) (by decide) (by decide) (by decide) ?_ ?_ ?_ ?_ ?_ ?_ ?_ ?_ ?_ ?_
  any_goals first | decide | omega | exact W2.fits_zero | exact VX.fits _ (by omega) (by omega) | exact MX.fits _ (by omega) (by omega) (by omega) | (simp only [W2.fits, FTy.code]; omega) | (simp only [W2.fits]; omega) | (intro q; exact ⟨rfl, rfl⟩) | (intro q; rfl) | (intro q; omega)
  intro r hr ht
  show decScalar r = _
  simp only [decScalar, hr.op]
  simp [decAB, fin2, hr.len, hr.d, hr.a, hr.b, hr.fn5, ht.lit]

theorem mad (neg : Bool) (d a b : XReg) : Statement (.mad neg d a b) := by
  intro hw r h
  have := neg.toNat_lt
  injection h with h; subst h
  refine Reads.formA (x := {}) (by decide) (by decide) (by decide) ?_ ?_ ?_ ?_ ?_ ?_ ?_ ?_ ?_ ?_
  any_goals first | decide | omega | exact W2.fits_zero | exact VX.fits _ (by omega) (by omega) | exact MX.fits _ (by omega) (by omega) (by omega) | (simp only [W2.fits, FTy.code]; omega) | (simp only [W2.fits]; omega) | (intro q; exact ⟨rfl, rfl⟩) | (intro q; rfl) | (intro q; omega)
  intro r hr ht
  show decScalar r = _
  simp only [decScalar, hr.op]
  cases neg <;> simp [bitCode, fin2, hr.d, hr.a, hr.b, hr.fn5]

theorem div (u : Bool) (d a b : XReg) : Statement (.div u d a b) := by
  intro hw r h
  have := u.toNat_lt
  injection h with h; subst h
  refine Reads.formA (x := {}) (by decide) (by decide) (by decide) ?_ ?_ ?_ ?_ ?_ ?_ ?_ ?_ ?_ ?_
  any_goals first | decide | omega | exact W2.fits_zero | exact VX.fits _ (by omega) (by omega) | exact MX.fits _ (by omega) (by omega) (by omega) | (simp only [W2.fits, FTy.code]; omega) | (simp only [W2.fits]; omega) | (intro q; exact ⟨rfl, rfl⟩) | (intro q; rfl) | (intro q; omega)
  intro r hr ht
  show decScalar r = _
  simp only [decScalar, hr.op]
  cases u <;> simp [bitCode, decAB, fin2, hr.len, hr.d, hr.a, hr.b, hr.fn5]

theorem divLiteral (u : Bool) (d a : XReg) (v : Word) : Statement (.divLiteral u d a v) := by
  intro hw r h
  have := u.toNat_lt
  injection h with h; subst h
  refine Reads.formA (x := {}) (by decide) (by decide) (by decide) ?_ ?_ ?_ ?_ ?_ ?_ ?_ ?_ ?_ ?_
  any_goals first | decide | omega | exact W2.fits_zero | exact VX.fits _ (by omega) (by omega) | exact MX.fits _ (by omega) (by omega) (by omega) | (simp only [W2.fits, FTy.code]; omega) | (simp only [W2.fits]; omega) | (intro q; exact ⟨rfl, rfl⟩) | (intro q; rfl) | (intro q; omega)
  intro r hr ht
  show decScalar r = _
  simp only [decScalar, hr.op]
  cases u <;> simp [bitCode, decAB, fin2, hr.len, hr.d, hr.a, hr.b, hr.fn5, ht.lit]

theorem rem (u : Bool) (d a b : XReg) : Statement (.rem u d a b) := by
  intro hw r h
  have := u.toNat_lt
  injection h with h; subst h
  refine Reads.formA (x := {}) (by decide) (by decide) (by decide) ?_ ?_ ?_ ?_ ?_ ?_ ?_ ?_ ?_ ?_
  any_goals first | decide | omega | exact W2.fits_zero | exact VX.fits _ (by omega) (by omega) | exact MX.fits _ (by omega) (by omega) (by omega) | (simp only [W2.fits, FTy.code]; omega) | (simp only [W2.fits]; omega) | (intro q; exact ⟨rfl, rfl⟩) | (intro q; rfl) | (intro q; omega)
  intro r hr ht
  show decScalar r = _
  simp only [decScalar, hr.op]
  cases u <;> simp [bitCode, decAB, fin2, hr.len, hr.d, hr.a, hr.b, hr.fn5]

theorem remLiteral (u : Bool) (d a : XReg) (v : Word) : Statement (.remLiteral u d a v) := by
  intro hw r h
  have := u.toNat_lt
  injection h with h; subst h
  refine Reads.formA (x := {}) (by decide) (by decide) (by decide) ?_ ?_ ?_ ?_ ?_ ?_ ?_ ?_ ?_ ?_
  any_goals first | decide | omega | exact W2.fits_zero | exact VX.fits _ (by omega) (by omega) | exact MX.fits _ (by omega) (by omega) (by omega) | (simp only [W2.fits, FTy.code]; omega) | (simp only [W2.fits]; omega) | (intro q; exact ⟨rfl, rfl⟩) | (intro q; rfl) | (intro q; omega)
  intro r hr ht
  show decScalar r = _
  simp only [decScalar, hr.op]
  cases u <;> simp [bitCode, decAB, fin2, hr.len, hr.d, hr.a, hr.b, hr.fn5, ht.lit]

theorem and (n : Bool) (d a b : XReg) : Statement (.and n d a b) := by
  intro hw r h
  have := n.toNat_lt
  injection h with h; subst h
  refine Reads.formA (x := {}) (by decide) (by decide) (by decide) ?_ ?_ ?_ ?_ ?_ ?_ ?_ ?_ ?_ ?_
  any_goals first | decide | omega | exact W2.fits_zero | exact VX.fits _ (by omega) (by omega) | exact MX.fits _ (by omega) (by omega) (by omega) | (simp only [W2.fits, FTy.code]; omega) | (simp only [W2.fits]; omega) | (intro q; exact ⟨rfl, rfl⟩) | (intro q; rfl) | (intro q; omega)
  intro r hr ht
  show decScalar r = _
  simp only [decScalar, hr.op]
  cases n <;> simp [bitCode, decAB, fin2, hr.len, hr.d, hr.a, hr.b, hr.fn5]

theorem andLiteral (n : Bool) (d a : XReg) (v : Word) : Statement (.andLiteral n d a v) := by
  intro hw r h
  have := n.toNat_lt
  injection h with h; subst h
  refine Reads.formA (x := {}) (by decide) (by decide) (by decide) ?_ ?_ ?_ ?_ ?_ ?_ ?_ ?_ ?_ ?_
  any_goals first | decide | omega | exact W2.fits_zero | exact VX.fits _ (by omega) (by omega) | exact MX.fits _ (by omega) (by omega) (by omega) | (simp only [W2.fits, FTy.code]; omega) | (simp only [W2.fits]; omega) | (intro q; exact ⟨rfl, rfl⟩) | (intro q; rfl) | (intro q; omega)
  intro r hr ht
  show decScalar r = _
  simp only [decScalar, hr.op]
  cases n <;> simp [bitCode, decAB, fin2, hr.len, hr.d, hr.a, hr.b, hr.fn5, ht.lit]

theorem or (n : Bool) (d a b : XReg) : Statement (.or n d a b) := by
  intro hw r h
  have := n.toNat_lt
  injection h with h; subst h
  refine Reads.formA (x := {}) (by decide) (by decide) (by decide) ?_ ?_ ?_ ?_ ?_ ?_ ?_ ?_ ?_ ?_
  any_goals first | decide | omega | exact W2.fits_zero | exact VX.fits _ (by omega) (by omega) | exact MX.fits _ (by omega) (by omega) (by omega) | (simp only [W2.fits, FTy.code]; omega) | (simp only [W2.fits]; omega) | (intro q; exact ⟨rfl, rfl⟩) | (intro q; rfl) | (intro q; omega)
  intro r hr ht
  show decScalar r = _
  simp only [decScalar, hr.op]
  cases n <;> simp [bitCode, decAB, fin2, hr.len, hr.d, hr.a, hr.b, hr.fn5]

theorem orLiteral (n : Bool) (d a : XReg) (v : Word) : Statement (.orLiteral n d a v) := by
  intro hw r h
  have := n.toNat_lt
  injection h with h; subst h
  refine Reads.formA (x := {}) (by decide) (by decide) (by decide) ?_ ?_ ?_ ?_ ?_ ?_ ?_ ?_ ?_ ?_
  any_goals first | decide | omega | exact W2.fits_zero | exact VX.fits _ (by omega) (by omega) | exact MX.fits _ (by omega) (by omega) (by omega) | (simp only [W2.fits, FTy.code]; omega) | (simp only [W2.fits]; omega) | (intro q; exact ⟨rfl, rfl⟩) | (intro q; rfl) | (intro q; omega)
  intro r hr ht
  show decScalar r = _
  simp only [decScalar, hr.op]
  cases n <;> simp [bitCode, decAB, fin2, hr.len, hr.d, hr.a, hr.b, hr.fn5, ht.lit]

theorem xor (n : Bool) (d a b : XReg) : Statement (.xor n d a b) := by
  intro hw r h
  have := n.toNat_lt
  injection h with h; subst h
  refine Reads.formA (x := {}) (by decide) (by decide) (by decide) ?_ ?_ ?_ ?_ ?_ ?_ ?_ ?_ ?_ ?_
  any_goals first | decide | omega | exact W2.fits_zero | exact VX.fits _ (by omega) (by omega) | exact MX.fits _ (by omega) (by omega) (by omega) | (simp only [W2.fits, FTy.code]; omega) | (simp only [W2.fits]; omega) | (intro q; exact ⟨rfl, rfl⟩) | (intro q; rfl) | (intro q; omega)
  intro r hr ht
  show decScalar r = _
  simp only [decScalar, hr.op]
  cases n <;> simp [bitCode, decAB, fin2, hr.len, hr.d, hr.a, hr.b, hr.fn5]

theorem xorLiteral (n : Bool) (d a : XReg) (v : Word) : Statement (.xorLiteral n d a v) := by
  intro hw r h
  have := n.toNat_lt
  injection h with h; subst h
  refine Reads.formA (x := {}) (by decide) (by decide) (by decide) ?_ ?_ ?_ ?_ ?_ ?_ ?_ ?_ ?_ ?_
  any_goals first | decide | omega | exact W2.fits_zero | exact VX.fits _ (by omega) (by omega) | exact MX.fits _ (by omega) (by omega) (by omega) | (simp only [W2.fits, FTy.code]; omega) | (simp only [W2.fits]; omega) | (intro q; exact ⟨rfl, rfl⟩) | (intro q; rfl) | (intro q; omega)
  intro r hr ht
  show decScalar r = _
  simp only [decScalar, hr.op]
  cases n <;> simp [bitCode, decAB, fin2, hr.len, hr.d, hr.a, hr.b, hr.fn5, ht.lit]

theorem shl (d a : XReg) (s : ShAmt) : Statement (.shl d a s) := by
  intro hw r h
  rcases s with b | i
  all_goals
    injection h with h; subst h
    refine Reads.formA (x := {}) (by decide) (by decide) (by decide) ?_ ?_ ?_ ?_ ?_ ?_ ?_ ?_ ?_ ?_
    any_goals first | decide | omega | exact W2.fits_zero | exact VX.fits _ (by omega) (by omega) | exact MX.fits _ (by omega) (by omega) (by omega) | (simp only [W2.fits, FTy.code]; omega) | (simp only [W2.fits]; omega) | (intro q; exact ⟨rfl, rfl⟩) | (intro q; rfl) | (intro q; omega)
    intro r hr ht
    show decScalar r = _
    simp only [decScalar, hr.op]
    simp [decShift, fin2, hr.d, hr.a, hr.b, hr.fn5]

theorem shr (d a : XReg) (s : ShAmt) : Statement (.shr d a s) := by
  intro hw r h
  rcases s with b | i
  all_goals
    injection h with h; subst h
    refine Reads.formA (x := {}) (by decide) (by decide) (by decide) ?_ ?_ ?_ ?_ ?_ ?_ ?_ ?_ ?_ ?_
    any_goals first | decide | omega | exact W2.fits_zero | exact VX.fits _ (by omega) (by omega) | exact MX.fits _ (by omega) (by omega) (by omega) | (simp only [W2.fits, FTy.code]; omega) | (simp only [W2.fits]; omega) | (intro q; exact ⟨rfl, rfl⟩) | (intro q; rfl) | (intro q; omega)
    intro r hr ht
    show decScalar r = _
    simp only [decScalar, hr.op]
    simp [decShift, fin2, hr.d, hr.a, hr.b, hr.fn5]

theorem sar (d a : XReg) (s : ShAmt) : Statement (.sar d a s) := by
  intro hw r h
  rcases s with b | i
  all_goals
    injection h with h; subst h
    refine Reads.formA (x := {}) (by decide) (by decide) (by decide) ?_ ?_ ?_ ?_ ?_ ?_ ?_ ?_ ?_ ?_
    any_goals first | decide | omega | exact W2.fits_zero | exact VX.fits _ (by omega) (by omega) | exact MX.fits _ (by omega) (by omega) (by omega) | (simp only [W2.fits, FTy.code]; omega) | (simp only [W2.fits]; omega) | (intro q; exact ⟨rfl, rfl⟩) | (intro q; rfl) | (intro q; omega)
    intro r hr ht
    show decScalar r = _
    simp only [decScalar, hr.op]
    simp [decShift, fin2, hr.d, hr.a, hr.b, hr.fn5]

theorem bfx (d a : XReg) (pos : Fin 64) (wid : Fin 32) : Statement (.bfx d a pos wid) := by
  intro hw r h
  injection h with h; subst h
  refine Reads.formI (x := {}) (by decide) (by decide) (by decide) ?_ ?_ ?_ ?_ ?_ ?_ ?_ ?_ ?_
  any_goals first | decide | omega | exact W2.fits_zero | exact VX.fits _ (by omega) (by omega) | exact MX.fits _ (by omega) (by omega) (by omega) | (simp only [W2.fits, FTy.code]; omega) | (simp only [W2.fits]; omega) | (intro q; exact ⟨rfl, rfl⟩) | (intro q; rfl) | (intro q; omega)
  intro r hr ht
  have e1 : Fin.ofNat 64 (pos.val + 64 * wid.val) = pos := ofNat_eq (by omega)
  have e2 : Fin.ofNat 32 ((pos.val + 64 * wid.val) / 64) = wid := ofNat_eq (by omega)
  show decScalar r = _
  simp only [decScalar, hr.op]
  simp [fin2, hr.len, hr.d, hr.a, hr.imm11, e1, e2] <;> exact ⟨e1, e2⟩

theorem bfxExtended (sx : Bool) (d a : XReg) (pos wid : Fin 64) : Statement (.bfxExtended sx d a pos wid) := by
  intro hw r h
  have := sx.toNat_lt
  injection h with h; subst h
  refine Reads.formI (by decide) (by decide) (by decide) ?_ ?_ ?_ ?_ ?_ ?_ ?_ ?_ ?_
  any_goals first | decide | omega | exact W2.fits_zero | exact VX.fits _ (by omega) (by omega) | exact MX.fits _ (by omega) (by omega) (by omega) | (simp only [W2.fits]; omega) | (simp only [W2.fits]; omega) | (intro q; exact ⟨rfl, rfl⟩) | (intro q; rfl) | (intro q; omega)
  intro r hr ht
  have e1 : (pos.val + 256 * wid.val = (pos.val + 256 * wid.val) % 64 + 256 * ((pos.val + 256 * wid.val) / 256 % 64)) = True := eq_true (by omega)
  have e2 : Fin.ofNat 64 (pos.val + 256 * wid.val) = pos := ofNat_eq (by omega)
  have e3 : Fin.ofNat 64 ((pos.val + 256 * wid.val) / 256) = wid := ofNat_eq (by omega)
  show decScalar r = _
  simp only [decScalar, hr.op]
  cases sx <;> simp [fin2, hr.len, hr.d, hr.a, hr.imm11, ht.w1, ht.x2, ht.md, e1, e2, e3] <;> exact ⟨e2, e3⟩

theorem bfi (d a : XReg) (pos : Fin 64) (wid : Fin 32) : Statement (.bfi d a pos wid) := by
  intro hw r h
  injection h with h; subst h
  refine Reads.formI (x := {}) (by decide) (by decide) (by decide) ?_ ?_ ?_ ?_ ?_ ?_ ?_ ?_ ?_
  any_goals first | decide | omega | exact W2.fits_zero | exact VX.fits _ (by omega) (by omega) | exact MX.fits _ (by omega) (by omega) (by omega) | (simp only [W2.fits, FTy.code]; omega) | (simp only [W2.fits]; omega) | (intro q; exact ⟨rfl, rfl⟩) | (intro q; rfl) | (intro q; omega)
  intro r hr ht
  have e1 : Fin.ofNat 64 (pos.val + 64 * wid.val) = pos := ofNat_eq (by omega)
  have e2 : Fin.ofNat 32 ((pos.val + 64 * wid.val) / 64) = wid := ofNat_eq (by omega)
  show decScalar r = _
  simp only [decScalar, hr.op]
  simp [fin2, hr.len, hr.d, hr.a, hr.imm11, e1, e2] <;> exact ⟨e1, e2⟩

theorem bfiExtended (d a : XReg) (pos wid : Fin 64) : Statement (.bfiExtended d a pos wid) := by
  intro hw r h
  injection h with h; subst h
  refine Reads.formI (x := {}) (by decide) (by decide) (by decide) ?_ ?_ ?_ ?_ ?_ ?_ ?_ ?_ ?_
  any_goals first | decide | omega | exact W2.fits_zero | exact VX.fits _ (by omega) (by omega) | exact MX.fits _ (by omega) (by omega) (by omega) | (simp only [W2.fits, FTy.code]; omega) | (simp only [W2.fits]; omega) | (intro q; exact ⟨rfl, rfl⟩) | (intro q; rfl) | (intro q; omega)
  intro r hr ht
  have e1 : (pos.val + 256 * wid.val = (pos.val + 256 * wid.val) % 64 + 256 * ((pos.val + 256 * wid.val) / 256 % 64)) = True := eq_true (by omega)
  have e2 : Fin.ofNat 64 (pos.val + 256 * wid.val) = pos := ofNat_eq (by omega)
  have e3 : Fin.ofNat 64 ((pos.val + 256 * wid.val) / 256) = wid := ofNat_eq (by omega)
  show decScalar r = _
  simp only [decScalar, hr.op]
  simp [fin2, hr.len, hr.d, hr.a, hr.imm11, ht.w1, ht.w2, e1, e2, e3] <;> exact ⟨e2, e3⟩

theorem cmp (c : Cond) (p : PReg) (a b : XReg) : Statement (.cmp c p a b) := by
  intro hw r h
  have := c.code_lt
  injection h with h; subst h
  refine Reads.formA (x := {}) (by decide) (by decide) (by decide) ?_ ?_ ?_ ?_ ?_ ?_ ?_ ?_ ?_ ?_
  any_goals first | decide | omega | exact W2.fits_zero | exact VX.fits _ (by omega) (by omega) | exact MX.fits _ (by omega) (by omega) (by omega) | (simp only [W2.fits, FTy.code]; omega) | (simp only [W2.fits]; omega) | (intro q; exact ⟨rfl, rfl⟩) | (intro q; rfl) | (intro q; omega)
  intro r hr ht
  show decScalar r = _
  simp only [decScalar, hr.op]
  simp [fin2, hr.len, hr.d, hr.a, hr.b, hr.fn5]

theorem cmpLiteral (c : Cond) (p : PReg) (a : XReg) (v : Word) : Statement (.cmpLiteral c p a v) := by
  intro hw r h
  have := c.code_lt
  injection h with h; subst h
  refine Reads.formA (x := {}) (by decide) (by decide) (by decide) ?_ ?_ ?_ ?_ ?_ ?_ ?_ ?_ ?_ ?_
  any_goals first | decide | omega | exact W2.fits_zero | exact VX.fits _ (by omega) (by omega) | exact MX.fits _ (by omega) (by omega) (by omega) | (simp only [W2.fits, FTy.code]; omega) | (simp only [W2.fits]; omega) | (intro q; exact ⟨rfl, rfl⟩) | (intro q; rfl) | (intro q; omega)
  intro r hr ht
  show decScalar r = _
  simp only [decScalar, hr.op]
  simp [fin2, hr.len, hr.d, hr.a, hr.b, hr.fn5, ht.lit]

theorem cmpi (c : ICond) (p : PReg) (a : XReg) (i : BitVec 11) : Statement (.cmpi c p a i) := by
  intro hw r h
  have := c.code_lt
  injection h with h; subst h
  refine Reads.formI (x := {}) (by decide) (by decide) (by decide) ?_ ?_ ?_ ?_ ?_ ?_ ?_ ?_ ?_
  any_goals first | decide | omega | exact W2.fits_zero | exact VX.fits _ (by omega) (by omega) | exact MX.fits _ (by omega) (by omega) (by omega) | (simp only [W2.fits, FTy.code]; omega) | (simp only [W2.fits]; omega) | (intro q; exact ⟨rfl, rfl⟩) | (intro q; rfl) | (intro q; omega)
  intro r hr ht
  have e1 : pr (p.val + 8 * c.code) = p := ofNat_eq (by omega)
  have e2 : (p.val + 8 * c.code) / 8 = c.code := by omega
  have e3 : p.val + 8 * c.code < 64 := by omega
  show decScalar r = _
  simp only [decScalar, hr.op]
  simp [fin2, hr.d, hr.a, hr.imm11, e1, e2]

theorem sel (d a b : XReg) (p : PReg) : Statement (.sel d a b p) := by
  intro hw r h
  injection h with h; subst h
  refine Reads.formA (x := {}) (by decide) (by decide) (by decide) ?_ ?_ ?_ ?_ ?_ ?_ ?_ ?_ ?_ ?_
  any_goals first | decide | omega | exact W2.fits_zero | exact VX.fits _ (by omega) (by omega) | exact MX.fits _ (by omega) (by omega) (by omega) | (simp only [W2.fits, FTy.code]; omega) | (simp only [W2.fits]; omega) | (intro q; exact ⟨rfl, rfl⟩) | (intro q; rfl) | (intro q; omega)
  intro r hr ht
  show decScalar r = _
  simp only [decScalar, hr.op]
  simp [fin2, hr.d, hr.a, hr.b, hr.fn5]

theorem min (u : Bool) (d a b : XReg) : Statement (.min u d a b) := by
  intro hw r h
  have := u.toNat_lt
  injection h with h; subst h
  refine Reads.formA (x := {}) (by decide) (by decide) (by decide) ?_ ?_ ?_ ?_ ?_ ?_ ?_ ?_ ?_ ?_
  any_goals first | decide | omega | exact W2.fits_zero | exact VX.fits _ (by omega) (by omega) | exact MX.fits _ (by omega) (by omega) (by omega) | (simp only [W2.fits, FTy.code]; omega) | (simp only [W2.fits]; omega) | (intro q; exact ⟨rfl, rfl⟩) | (intro q; rfl) | (intro q; omega)
  intro r hr ht
  show decScalar r = _
  simp only [decScalar, hr.op]
  cases u <;> simp [bitCode, decAB, fin2, hr.len, hr.d, hr.a, hr.b, hr.fn5]

theorem minLiteral (u : Bool) (d a : XReg) (v : Word) : Statement (.minLiteral u d a v) := by
  intro hw r h
  have := u.toNat_lt
  injection h with h; subst h
  refine Reads.formA (x := {}) (by decide) (by decide) (by decide) ?_ ?_ ?_ ?_ ?_ ?_ ?_ ?_ ?_ ?_
  any_goals first | decide | omega | exact W2.fits_zero | exact VX.fits _ (by omega) (by omega) | exact MX.fits _ (by omega) (by omega) (by omega) | (simp only [W2.fits, FTy.code]; omega) | (simp only [W2.fits]; omega) | (intro q; exact ⟨rfl, rfl⟩) | (intro q; rfl) | (intro q; omega)
  intro r hr ht
  show decScalar r = _
  simp only [decScalar, hr.op]
  cases u <;> simp [bitCode, decAB, fin2, hr.len, hr.d, hr.a, hr.b, hr.fn5, ht.lit]

theorem max (u : Bool) (d a b : XReg) : Statement (.max u d a b) := by
  intro hw r h
  have := u.toNat_lt
  injection h with h; subst h
  refine Reads.formA (x := {}) (by decide) (by decide) (by decide) ?_ ?_ ?_ ?_ ?_ ?_ ?_ ?_ ?_ ?_
  any_goals first | decide | omega | exact W2.fits_zero | exact VX.fits _ (by omega) (by omega) | exact MX.fits _ (by omega) (by omega) (by omega) | (simp only [W2.fits, FTy.code]; omega) | (simp only [W2.fits]; omega) | (intro q; exact ⟨rfl, rfl⟩) | (intro q; rfl) | (intro q; omega)
  intro r hr ht
  show decScalar r = _
  simp only [decScalar, hr.op]
  cases u <;> simp [bitCode, decAB, fin2, hr.len, hr.d, hr.a, hr.b, hr.fn5]

theorem maxLiteral (u : Bool) (d a : XReg) (v : Word) : Statement (.maxLiteral u d a v) := by
  intro hw r h
  have := u.toNat_lt
  injection h with h; subst h
  refine Reads.formA (x := {}) (by decide) (by decide) (by decide) ?_ ?_ ?_ ?_ ?_ ?_ ?_ ?_ ?_ ?_
  any_goals first | decide | omega | exact W2.fits_zero | exact VX.fits _ (by omega) (by omega) | exact MX.fits _ (by omega) (by omega) (by omega) | (simp only [W2.fits, FTy.code]; omega) | (simp only [W2.fits]; omega) | (intro q; exact ⟨rfl, rfl⟩) | (intro q; rfl) | (intro q; omega)
  intro r hr ht
  show decScalar r = _
  simp only [decScalar, hr.op]
  cases u <;> simp [bitCode, decAB, fin2, hr.len, hr.d, hr.a, hr.b, hr.fn5, ht.lit]

theorem clz (f : ClzFn) (d a : XReg) : Statement (.clz f d a) := by
  intro hw r h
  have := f.code_lt
  injection h with h; subst h
  refine Reads.formA (x := {}) (by decide) (by decide) (by decide) ?_ ?_ ?_ ?_ ?_ ?_ ?_ ?_ ?_ ?_
  any_goals first | decide | omega | exact W2.fits_zero | exact VX.fits _ (by omega) (by omega) | exact MX.fits _ (by omega) (by omega) (by omega) | (simp only [W2.fits, FTy.code]; omega) | (simp only [W2.fits]; omega) | (intro q; exact ⟨rfl, rfl⟩) | (intro q; rfl) | (intro q; omega)
  intro r hr ht
  show decScalar r = _
  simp only [decScalar, hr.op]
  simp [fin2, hr.d, hr.a, hr.b, hr.fn5]

theorem popc (w : Bool) (d a : XReg) : Statement (.popc w d a) := by
  intro hw r h
  have := w.toNat_lt
  injection h with h; subst h
  refine Reads.formA (x := {}) (by decide) (by decide) (by decide) ?_ ?_ ?_ ?_ ?_ ?_ ?_ ?_ ?_ ?_
  any_goals first | decide | omega | exact W2.fits_zero | exact VX.fits _ (by omega) (by omega) | exact MX.fits _ (by omega) (by omega) (by omega) | (simp only [W2.fits, FTy.code]; omega) | (simp only [W2.fits]; omega) | (intro q; exact ⟨rfl, rfl⟩) | (intro q; rfl) | (intro q; omega)
  intro r hr ht
  show decScalar r = _
  simp only [decScalar, hr.op]
  cases w <;> simp [bitCode, fin2, hr.d, hr.a, hr.b, hr.fn5]

theorem li (d : XReg) (i : BitVec 11) : Statement (.li d i) := by
  intro hw r h
  injection h with h; subst h
  refine Reads.formI (x := {}) (by decide) (by decide) (by decide) ?_ ?_ ?_ ?_ ?_ ?_ ?_ ?_ ?_
  any_goals first | decide | omega | exact W2.fits_zero | exact VX.fits _ (by omega) (by omega) | exact MX.fits _ (by omega) (by omega) (by omega) | (simp only [W2.fits, FTy.code]; omega) | (simp only [W2.fits]; omega) | (intro q; exact ⟨rfl, rfl⟩) | (intro q; rfl) | (intro q; omega)
  intro r hr ht
  show decScalar r = _
  simp only [decScalar, hr.op]
  simp [fin2, hr.len, hr.d, hr.a, hr.imm11]

theorem liLiteral (d : XReg) (v : Word) : Statement (.liLiteral d v) := by
  intro hw r h
  injection h with h; subst h
  refine Reads.formI (x := {}) (by decide) (by decide) (by decide) ?_ ?_ ?_ ?_ ?_ ?_ ?_ ?_ ?_
  any_goals first | decide | omega | exact W2.fits_zero | exact VX.fits _ (by omega) (by omega) | exact MX.fits _ (by omega) (by omega) (by omega) | (simp only [W2.fits, FTy.code]; omega) | (simp only [W2.fits]; omega) | (intro q; exact ⟨rfl, rfl⟩) | (intro q; rfl) | (intro q; omega)
  intro r hr ht
  show decScalar r = _
  simp only [decScalar, hr.op]
  simp [fin2, hr.len, hr.d, hr.a, hr.imm11, ht.lit]

theorem plog (t : BitVec 4) (d a b : PReg) : Statement (.plog t d a b) := by
  intro hw r h
  injection h with h; subst h
  refine Reads.formA (x := {}) (by decide) (by decide) (by decide) ?_ ?_ ?_ ?_ ?_ ?_ ?_ ?_ ?_ ?_
  any_goals first | decide | omega | exact W2.fits_zero | exact VX.fits _ (by omega) (by omega) | exact MX.fits _ (by omega) (by omega) (by omega) | (simp only [W2.fits, FTy.code]; omega) | (simp only [W2.fits]; omega) | (intro q; exact ⟨rfl, rfl⟩) | (intro q; rfl) | (intro q; omega)
  intro r hr ht
  have e1 : ¬16 ≤ t.toNat := by omega
  show decScalar r = _
  simp only [decScalar, hr.op]
  simp [fin2, hr.d, hr.a, hr.b, hr.fn5, e1]

theorem plogFromx (d : PReg) (a : XReg) : Statement (.plogFromx d a) := by
  intro hw r h
  injection h with h; subst h
  refine Reads.formA (x := {}) (by decide) (by decide) (by decide) ?_ ?_ ?_ ?_ ?_ ?_ ?_ ?_ ?_ ?_
  any_goals first | decide | omega | exact W2.fits_zero | exact VX.fits _ (by omega) (by omega) | exact MX.fits _ (by omega) (by omega) (by omega) | (simp only [W2.fits, FTy.code]; omega) | (simp only [W2.fits]; omega) | (intro q; exact ⟨rfl, rfl⟩) | (intro q; rfl) | (intro q; omega)
  intro r hr ht
  show decScalar r = _
  simp only [decScalar, hr.op]
  simp [fin2, hr.d, hr.a, hr.b, hr.fn5]

theorem plogTox (d : XReg) (a : PReg) : Statement (.plogTox d a) := by
  intro hw r h
  injection h with h; subst h
  refine Reads.formA (x := {}) (by decide) (by decide) (by decide) ?_ ?_ ?_ ?_ ?_ ?_ ?_ ?_ ?_ ?_
  any_goals first | decide | omega | exact W2.fits_zero | exact VX.fits _ (by omega) (by omega) | exact MX.fits _ (by omega) (by omega) (by omega) | (simp only [W2.fits, FTy.code]; omega) | (simp only [W2.fits]; omega) | (intro q; exact ⟨rfl, rfl⟩) | (intro q; rfl) | (intro q; omega)
  intro r hr ht
  show decScalar r = _
  simp only [decScalar, hr.op]
  simp [fin2, hr.d, hr.a, hr.b, hr.fn5]

theorem srd (d : XReg) (n : SReg) : Statement (.srd d n) := by
  intro hw r h
  have := n.code_lt
  injection h with h; subst h
  refine Reads.formI (x := {}) (by decide) (by decide) (by decide) ?_ ?_ ?_ ?_ ?_ ?_ ?_ ?_ ?_
  any_goals first | decide | omega | exact W2.fits_zero | exact VX.fits _ (by omega) (by omega) | exact MX.fits _ (by omega) (by omega) (by omega) | (simp only [W2.fits, FTy.code]; omega) | (simp only [W2.fits]; omega) | (intro q; exact ⟨rfl, rfl⟩) | (intro q; rfl) | (intro q; omega)
  intro r hr ht
  show decScalar r = _
  simp only [decScalar, hr.op]
  simp [hr.d, hr.a, hr.imm11]

theorem swr (n : SReg) (a : XReg) : Statement (.swr n a) := by
  intro hw r h
  have hw : ((n.writable : Bool)) = true := hw
  have := n.code_lt
  injection h with h; subst h
  refine Reads.formI (x := {}) (by decide) (by decide) (by decide) ?_ ?_ ?_ ?_ ?_ ?_ ?_ ?_ ?_
  any_goals first | decide | omega | exact W2.fits_zero | exact VX.fits _ (by omega) (by omega) | exact MX.fits _ (by omega) (by omega) (by omega) | (simp only [W2.fits, FTy.code]; omega) | (simp only [W2.fits]; omega) | (intro q; exact ⟨rfl, rfl⟩) | (intro q; rfl) | (intro q; omega)
  intro r hr ht
  show decScalar r = _
  simp only [decScalar, hr.op]
  simp_all [hr.d, hr.a, hr.imm11]

theorem time (d : XReg) : Statement (.time d) := by
  intro hw r h
  injection h with h; subst h
  refine Reads.formA (x := {}) (by decide) (by decide) (by decide) ?_ ?_ ?_ ?_ ?_ ?_ ?_ ?_ ?_ ?_
  any_goals first | decide | omega | exact W2.fits_zero | exact VX.fits _ (by omega) (by omega) | exact MX.fits _ (by omega) (by omega) (by omega) | (simp only [W2.fits, FTy.code]; omega) | (simp only [W2.fits]; omega) | (intro q; exact ⟨rfl, rfl⟩) | (intro q; rfl) | (intro q; omega)
  intro r hr ht
  show decScalar r = _
  simp only [decScalar, hr.op]
  simp [fin2, hr.d, hr.a, hr.b, hr.fn5]

theorem timeFx (d : XReg) : Statement (.timeFx d) := by
  intro hw r h
  injection h with h; subst h
  refine Reads.formA (x := {}) (by decide) (by decide) (by decide) ?_ ?_ ?_ ?_ ?_ ?_ ?_ ?_ ?_ ?_
  any_goals first | decide | omega | exact W2.fits_zero | exact VX.fits _ (by omega) (by omega) | exact MX.fits _ (by omega) (by omega) (by omega) | (simp only [W2.fits, FTy.code]; omega) | (simp only [W2.fits]; omega) | (intro q; exact ⟨rfl, rfl⟩) | (intro q; rfl) | (intro q; omega)
  intro r hr ht
  show decScalar r = _
  simp only [decScalar, hr.op]
  simp [fin2, hr.d, hr.a, hr.b, hr.fn5]

theorem lea (d : XReg) (m : MAddr) : Statement (.lea d m) := by
  intro hw r h
  have := m.x_lt
  have := m.hi_lt
  injection h with h; subst h
  refine Reads.formM (x := {}) (by decide) (by decide) (by decide) ?_ ?_ ?_ ?_ ?_ ?_ ?_ ?_ ?_ ?_ ?_
  any_goals first | decide | omega | exact W2.fits_zero | exact VX.fits _ (by omega) (by omega) | exact MX.fits _ (by omega) (by omega) (by omega) | (simp only [W2.fits, FTy.code]; omega) | (simp only [W2.fits]; omega) | (intro q; exact ⟨rfl, rfl⟩) | (intro q; rfl) | (intro q; omega)
  intro r hr ht
  show decScalar r = _
  simp only [decScalar, hr.op]
  simp [fin2, hr.len, hr.d, hr.sz, addr_read (m := m) hr.a hr.x hr.hi8]

theorem leaExtended (d : XReg) (m : MAddr) (imm : BitVec 32) : Statement (.leaExtended d m imm) := by
  intro hw r h
  have hw : ((m.wfExt : Bool)) = true := hw
  have := m.x_lt
  have := m.hi_lt
  injection h with h; subst h
  refine Reads.formM (x := {}) (by decide) (by decide) (by decide) ?_ ?_ ?_ ?_ ?_ ?_ ?_ ?_ ?_ ?_ ?_
  any_goals first | decide | omega | exact W2.fits_zero | exact VX.fits _ (by omega) (by omega) | exact MX.fits _ (by omega) (by omega) (by omega) | (simp only [W2.fits, FTy.code]; omega) | (simp only [W2.fits]; omega) | (intro q; exact ⟨rfl, rfl⟩) | (intro q; rfl) | (intro q; omega)
  intro r hr ht
  have e1 := MAddr.wfExt_hi (m := m) (by simp_all)
  show decScalar r = _
  simp only [decScalar, hr.op]
  simp_all [fin2, hr.len, hr.d, hr.sz, hr.x, hr.hi8, ht.w1, ht.w2, addr_read (m := m) hr.a hr.x hr.hi8]

theorem sfop (f : SfFn) (d a b : XReg) : Statement (.sfop f d a b) := by
  intro hw r h
  have hw : ((!f.oneOperand || b = 0 : Bool)) = true := hw
  have := f.code_lt
  injection h with h; subst h
  refine Reads.formA (x := {}) (by decide) (by decide) (by decide) ?_ ?_ ?_ ?_ ?_ ?_ ?_ ?_ ?_ ?_
  any_goals first | decide | omega | exact W2.fits_zero | exact VX.fits _ (by omega) (by omega) | exact MX.fits _ (by omega) (by omega) (by omega) | (simp only [W2.fits, FTy.code]; omega) | (simp only [W2.fits]; omega) | (intro q; exact ⟨rfl, rfl⟩) | (intro q; rfl) | (intro q; omega)
  intro r hr ht
  show decScalar r = _
  simp only [decScalar, hr.op]
  simp_all [fin2, hr.len, hr.d, hr.a, hr.b, hr.fn5]

theorem sfopExtended (f : SfFn) (ty : Option FTy) (rm : Rm) (d a b : XReg) : Statement (.sfopExtended f ty rm d a b) := by
  intro hw r h
  have hw : ((!f.oneOperand || b = 0 : Bool)) = true := hw
  have := f.code_lt
  have := fTyCode_lt ty
  have := ty.isSome.toNat_lt
  have := rm.code_lt
  injection h with h; subst h
  refine Reads.formA (by decide) (by decide) (by decide) ?_ ?_ ?_ ?_ ?_ ?_ ?_ ?_ ?_ ?_
  any_goals first | decide | omega | exact W2.fits_zero | exact VX.fits _ (by omega) (by omega) | exact MX.fits _ (by omega) (by omega) (by omega) | (simp only [W2.fits]; omega) | (simp only [W2.fits]; omega) | (intro q; exact ⟨rfl, rfl⟩) | (intro q; rfl) | (intro q; omega)
  intro r hr ht
  show decScalar r = _
  simp only [decScalar, hr.op]
  cases ty <;> simp_all [fin2, Raw.tyMbz, hr.len, hr.d, hr.a, hr.b, hr.fn5, ht.w1, ht.x2, ht.ty, ht.tyv, ht.rm]

theorem sfma (neg sub : Bool) (d a b : XReg) : Statement (.sfma neg sub d a b) := by
  intro hw r h
  have := neg.toNat_lt
  have := sub.toNat_lt
  injection h with h; subst h
  refine Reads.formA (x := {}) (by decide) (by decide) (by decide) ?_ ?_ ?_ ?_ ?_ ?_ ?_ ?_ ?_ ?_
  any_goals first | decide | omega | exact W2.fits_zero | exact VX.fits _ (by omega) (by omega) | exact MX.fits _ (by omega) (by omega) (by omega) | (simp only [W2.fits, FTy.code]; omega) | (simp only [W2.fits]; omega) | (intro q; exact ⟨rfl, rfl⟩) | (intro q; rfl) | (intro q; omega)
  intro r hr ht
  show decScalar r = _
  simp only [decScalar, hr.op]
  cases neg <;> cases sub <;> simp [fin2, guardO, hr.len, hr.d, hr.a, hr.b, hr.fn5]

theorem sfmaExtended (neg sub : Bool) (ty : Option FTy) (rm : Rm) (d a b : XReg) : Statement (.sfmaExtended neg sub ty rm d a b) := by
  intro hw r h
  have := neg.toNat_lt
  have := sub.toNat_lt
  have := fTyCode_lt ty
  have := ty.isSome.toNat_lt
  have := rm.code_lt
  injection h with h; subst h
  refine Reads.formA (by decide) (by decide) (by decide) ?_ ?_ ?_ ?_ ?_ ?_ ?_ ?_ ?_ ?_
  any_goals first | decide | omega | exact W2.fits_zero | exact VX.fits _ (by omega) (by omega) | exact MX.fits _ (by omega) (by omega) (by omega) | (simp only [W2.fits]; omega) | (simp only [W2.fits]; omega) | (intro q; exact ⟨rfl, rfl⟩) | (intro q; rfl) | (intro q; omega)
  intro r hr ht
  show decScalar r = _
  simp only [decScalar, hr.op]
  cases neg <;> cases sub <;> cases ty <;> simp [fin2, guardO, Raw.tyMbz, hr.len, hr.d, hr.a, hr.b, hr.fn5, ht.w1, ht.x2, ht.ty, ht.tyv, ht.rm]

theorem scvt (target source : Ty) (sat : Bool) (d a : XReg) : Statement (.scvt target source sat d a) := by
  intro hw r h
  have hw : ((target.isElem && source.isElem && (!sat || (target.isInt && source.isInt)) : Bool)) = true := hw
  have := target.code_lt
  have := source.code_lt
  have := sat.toNat_lt
  injection h with h; subst h
  refine Reads.formA (x := {}) (by decide) (by decide) (by decide) ?_ ?_ ?_ ?_ ?_ ?_ ?_ ?_ ?_ ?_
  any_goals first | decide | omega | exact W2.fits_zero | exact VX.fits _ (by omega) (by omega) | exact MX.fits _ (by omega) (by omega) (by omega) | (simp only [W2.fits, FTy.code]; omega) | (simp only [W2.fits]; omega) | (intro q; exact ⟨rfl, rfl⟩) | (intro q; rfl) | (intro q; omega)
  intro r hr ht
  have e1 : Ty.ofCode ((source.code + 32 * sat.toNat) % 32) = some source := by rw [show (source.code + 32 * sat.toNat) % 32 = source.code by omega]; exact source.ofCode_code
  have e2 : (source.code + 32 * sat.toNat) / 32 = sat.toNat := by omega
  show decScalar r = _
  simp only [decScalar, hr.op]
  cases sat <;> (simp only [hr.b, hr.fn5, e1, e2, Ty.ofCode_code]) <;> simp_all [fin2, guardO, hr.len, hr.d, hr.a]

theorem scvtExtended (target source : Ty) (sat : Bool) (rm : Rm) (d a : XReg) : Statement (.scvtExtended target source sat rm d a) := by
  intro hw r h
  have hw : ((target.isElem && source.isElem && (!sat || (target.isInt && source.isInt)) : Bool)) = true := hw
  have := target.code_lt
  have := source.code_lt
  have := sat.toNat_lt
  have := rm.code_lt
  injection h with h; subst h
  refine Reads.formA (by decide) (by decide) (by decide) ?_ ?_ ?_ ?_ ?_ ?_ ?_ ?_ ?_ ?_
  any_goals first | decide | omega | exact W2.fits_zero | exact VX.fits _ (by omega) (by omega) | exact MX.fits _ (by omega) (by omega) (by omega) | (simp only [W2.fits]; omega) | (simp only [W2.fits]; omega) | (intro q; exact ⟨rfl, rfl⟩) | (intro q; rfl) | (intro q; omega)
  intro r hr ht
  have e1 : Ty.ofCode ((source.code + 32 * sat.toNat) % 32) = some source := by rw [show (source.code + 32 * sat.toNat) % 32 = source.code by omega]; exact source.ofCode_code
  have e2 : (source.code + 32 * sat.toNat) / 32 = sat.toNat := by omega
  show decScalar r = _
  simp only [decScalar, hr.op]
  cases sat <;> (simp only [hr.b, hr.fn5, e1, e2, Ty.ofCode_code]) <;> simp_all [fin2, guardO, hr.len, hr.d, hr.a, ht.w1, ht.x2, ht.rm]

theorem ld (sz : MSize) (d : XReg) (m : MAddr) : Statement (.ld sz d m) := by
  intro hw r h
  have := sz.code_lt
  have := m.x_lt
  have := m.hi_lt
  injection h with h; subst h
  refine Reads.formM (x := {}) (by decide) (by decide) (by decide) ?_ ?_ ?_ ?_ ?_ ?_ ?_ ?_ ?_ ?_ ?_
  any_goals first | decide | omega | exact W2.fits_zero | exact VX.fits _ (by omega) (by omega) | exact MX.fits _ (by omega) (by omega) (by omega) | (simp only [W2.fits, FTy.code]; omega) | (simp only [W2.fits]; omega) | (intro q; exact ⟨rfl, rfl⟩) | (intro q; rfl) | (intro q; omega)
  intro r hr ht
  show decMemory r = _
  simp only [decMemory, hr.op]
  simp [fin2, hr.len, hr.d, hr.sz, addr_read (m := m) hr.a hr.x hr.hi8]

theorem ldExtended (sz : MSize) (d : XReg) (m : MAddr) (imm : BitVec 32) (acq : Option Scope) (sx : Bool) : Statement (.ldExtended sz d m imm acq sx) := by
  intro hw r h
  have hw : ((m.wfExt && !(sx && sz = .d) : Bool)) = true := hw
  have := sz.code_lt
  have := m.x_lt
  have := m.hi_lt
  have := lsMd_lt acq
  have := sx.toNat_lt
  injection h with h; subst h
  refine Reads.formM (by decide) (by decide) (by decide) ?_ ?_ ?_ ?_ ?_ ?_ ?_ ?_ ?_ ?_ ?_
  any_goals first | decide | omega | exact W2.fits_zero | exact VX.fits _ (by omega) (by omega) | exact MX.fits _ (by omega) (by omega) (by omega) | (simp only [W2.fits]; omega) | (simp only [W2.fits]; omega) | (intro q; exact ⟨rfl, rfl⟩) | (intro q; rfl) | (intro q; omega)
  intro r hr ht
  have e1 := MAddr.wfExt_hi (m := m) (by simp_all)
  have e2 : m.x = 1 ∨ m.hi = 0 := by omega
  show decMemory r = _
  simp only [decMemory, hr.op]
  cases sx <;> cases sz <;> rcases acq with _ | s <;> (try cases s) <;> simp_all [fin2, guardO, hr.len, hr.d, hr.sz, hr.x, hr.hi8, ht.w1, ht.x2, ht.md, addr_read (m := m) hr.a hr.x hr.hi8, lsMd, Scope.code, ordLs, MSize.code, MSize.ofCode, Scope.ofCode]

theorem st (sz : MSize) (m : MAddr) (d : XReg) : Statement (.st sz m d) := by
  intro hw r h
  have := sz.code_lt
  have := m.x_lt
  have := m.hi_lt
  injection h with h; subst h
  refine Reads.formM (x := {}) (by decide) (by decide) (by decide) ?_ ?_ ?_ ?_ ?_ ?_ ?_ ?_ ?_ ?_ ?_
  any_goals first | decide | omega | exact W2.fits_zero | exact VX.fits _ (by omega) (by omega) | exact MX.fits _ (by omega) (by omega) (by omega) | (simp only [W2.fits, FTy.code]; omega) | (simp only [W2.fits]; omega) | (intro q; exact ⟨rfl, rfl⟩) | (intro q; rfl) | (intro q; omega)
  intro r hr ht
  show decMemory r = _
  simp only [decMemory, hr.op]
  simp [fin2, hr.len, hr.d, hr.sz, addr_read (m := m) hr.a hr.x hr.hi8]

theorem stExtended (sz : MSize) (m : MAddr) (d : XReg) (imm : BitVec 32) (rel : Option Scope) : Statement (.stExtended sz m d imm rel) := by
  intro hw r h
  have hw : ((m.wfExt : Bool)) = true := hw
  have := sz.code_lt
  have := m.x_lt
  have := m.hi_lt
  have := lsMd_lt rel
  injection h with h; subst h
  refine Reads.formM (by decide) (by decide) (by decide) ?_ ?_ ?_ ?_ ?_ ?_ ?_ ?_ ?_ ?_ ?_
  any_goals first | decide | omega | exact W2.fits_zero | exact VX.fits _ (by omega) (by omega) | exact MX.fits _ (by omega) (by omega) (by omega) | (simp only [W2.fits]; omega) | (simp only [W2.fits]; omega) | (intro q; exact ⟨rfl, rfl⟩) | (intro q; rfl) | (intro q; omega)
  intro r hr ht
  have e1 := MAddr.wfExt_hi (m := m) (by simp_all)
  have e2 : m.x = 1 ∨ m.hi = 0 := by omega
  show decMemory r = _
  simp only [decMemory, hr.op]
  rcases rel with _ | s <;> (try cases s) <;> simp_all [fin2, guardO, hr.len, hr.d, hr.sz, hr.x, hr.hi8, ht.w1, ht.x2, ht.md, addr_read (m := m) hr.a hr.x hr.hi8, lsMd, Scope.code, ordLs, Scope.ofCode]

theorem memoryStorePerform (q : PerformStep) : Statement (.memoryStorePerform q) := by
  intro _ r h
  have h : (none : Option Raw) = some r := h
  cases h

theorem ldf (keep : Bool) (d : XReg) (m : MAddr) (x : Option (BitVec 32)) : Statement (.ldf keep d m x) := by
  intro hw r h
  have hw : ((x.isNone || m.wfExt : Bool)) = true := hw
  have := keep.toNat_lt
  have := m.x_lt
  have := m.hi_lt
  rcases x with _ | x
  · injection h with h; subst h
    refine Reads.formM (x := {}) (by decide) (by decide) (by decide) ?_ ?_ ?_ ?_ ?_ ?_ ?_ ?_ ?_ ?_ ?_
    any_goals first | decide | omega | exact W2.fits_zero | exact VX.fits _ (by omega) (by omega) | exact MX.fits _ (by omega) (by omega) (by omega) | (simp only [W2.fits, FTy.code]; omega) | (simp only [W2.fits]; omega) | (intro q; exact ⟨rfl, rfl⟩) | (intro q; rfl) | (intro q; omega)
    intro r hr ht
    have e1 := MAddr.wfExt_hi (m := m)
    show decMemory r = _
    simp only [decMemory, hr.op]
    cases keep <;> simp_all [bitCode, fin2, hr.len, hr.d, hr.sz, hr.x, hr.hi8, ht.w2, addr_read (m := m) hr.a hr.x hr.hi8]
  · injection h with h; subst h
    refine Reads.formM (x := {}) (by decide) (by decide) (by decide) ?_ ?_ ?_ ?_ ?_ ?_ ?_ ?_ ?_ ?_ ?_
    any_goals first | decide | omega | exact W2.fits_zero | exact VX.fits _ (by omega) (by omega) | exact MX.fits _ (by omega) (by omega) (by omega) | (simp only [W2.fits, FTy.code]; omega) | (simp only [W2.fits]; omega) | (intro q; exact ⟨rfl, rfl⟩) | (intro q; rfl) | (intro q; omega)
    intro r hr ht
    have e1 := MAddr.wfExt_hi (m := m)
    show decMemory r = _
    simp only [decMemory, hr.op]
    cases keep <;> simp_all [bitCode, fin2, hr.len, hr.d, hr.sz, hr.x, hr.hi8, ht.w1, ht.w2, addr_read (m := m) hr.a hr.x hr.hi8]

theorem stf (m : MAddr) (d : XReg) (x : Option (BitVec 32)) : Statement (.stf m d x) := by
  intro hw r h
  have hw : ((x.isNone || m.wfExt : Bool)) = true := hw
  have := m.x_lt
  have := m.hi_lt
  rcases x with _ | x
  · injection h with h; subst h
    refine Reads.formM (x := {}) (by decide) (by decide) (by decide) ?_ ?_ ?_ ?_ ?_ ?_ ?_ ?_ ?_ ?_ ?_
    any_goals first | decide | omega | exact W2.fits_zero | exact VX.fits _ (by omega) (by omega) | exact MX.fits _ (by omega) (by omega) (by omega) | (simp only [W2.fits, FTy.code]; omega) | (simp only [W2.fits]; omega) | (intro q; exact ⟨rfl, rfl⟩) | (intro q; rfl) | (intro q; omega)
    intro r hr ht
    have e1 := MAddr.wfExt_hi (m := m)
    show decMemory r = _
    simp only [decMemory, hr.op]
    simp_all [fin2, hr.len, hr.d, hr.sz, hr.x, hr.hi8, ht.w2, addr_read (m := m) hr.a hr.x hr.hi8]
  · injection h with h; subst h
    refine Reads.formM (x := {}) (by decide) (by decide) (by decide) ?_ ?_ ?_ ?_ ?_ ?_ ?_ ?_ ?_ ?_ ?_
    any_goals first | decide | omega | exact W2.fits_zero | exact VX.fits _ (by omega) (by omega) | exact MX.fits _ (by omega) (by omega) (by omega) | (simp only [W2.fits, FTy.code]; omega) | (simp only [W2.fits]; omega) | (intro q; exact ⟨rfl, rfl⟩) | (intro q; rfl) | (intro q; omega)
    intro r hr ht
    have e1 := MAddr.wfExt_hi (m := m)
    show decMemory r = _
    simp only [decMemory, hr.op]
    simp_all [fin2, hr.len, hr.d, hr.sz, hr.x, hr.hi8, ht.w1, ht.w2, addr_read (m := m) hr.a hr.x hr.hi8]

theorem atom (op : AtomOp) (sz : MSize) (o : AtomOrd) (d a b c : XReg) (imm : BitVec 32) : Statement (.atom op sz o d a b c imm) := by
  intro hw r h
  have hw : ((o.wf && (!op.isFloat || sz = .w) && (op = .cas || c = 0) : Bool)) = true := hw
  have := op.code_lt
  have := sz.code_lt
  have := o.md_lt
  injection h with h; subst h
  refine Reads.formA (by decide) (by decide) (by decide) ?_ ?_ ?_ ?_ ?_ ?_ ?_ ?_ ?_ ?_
  any_goals first | decide | omega | exact W2.fits_zero | exact VX.fits _ (by omega) (by omega) | exact MX.fits _ (by omega) (by omega) (by omega) | (simp only [W2.fits]; omega) | (simp only [W2.fits]; omega) | (intro q; exact ⟨rfl, rfl⟩) | (intro q; rfl) | (intro q; omega)
  intro r hr ht
  have e1 := ordAt_read (n := sz.code) o (by omega)
  have e2 : (sz.code + o.md) % 4 = sz.code := by simp only [AtomOrd.md]; omega
  have e3 : ¬(sz.code + o.md) / 4 % 4 = 0 ∨ sz.code + o.md < 16 := ordAt_mbz (by omega) (by simp_all)
  show decMemory r = _
  simp only [decMemory, hr.op]
  cases sz <;> simp_all [fin2, guardO, hr.d, hr.a, hr.b, hr.fn5, ht.w1, ht.x2, ht.c, ht.md, MSize.code, MSize.ofCode]

theorem atomv (op : AtomvOp) (o : AtomOrd) (d e a b c : XReg) (imm : BitVec 32) : Statement (.atomv op o d e a b c imm) := by
  intro hw r h
  have hw : ((o.wf && op.wf : Bool)) = true := hw
  have := op.code_lt
  have := o.md_lt
  have := tyCode_lt op.ty
  have := op.ty.isSome.toNat_lt
  injection h with h; subst h
  refine Reads.formA (by decide) (by decide) (by decide) ?_ ?_ ?_ ?_ ?_ ?_ ?_ ?_ ?_ ?_
  any_goals first | decide | omega | exact W2.fits_zero | exact VX.fits _ (by omega) (by omega) | exact MX.fits _ (by omega) (by omega) (by omega) | (simp only [W2.fits]; omega) | (simp only [W2.fits]; omega) | (intro q; exact ⟨rfl, rfl⟩) | (intro q; rfl) | (intro q; omega)
  intro r hr ht
  have e1 : ordAt o.md = some o := by simpa using ordAt_read (n := 0) o (by decide)
  have e2 : o.md % 4 = 0 := by simp only [AtomOrd.md]; omega
  have e3 : ¬o.md / 4 % 4 = 0 ∨ o.md < 16 := by simpa using ordAt_mbz (n := 0) (o := o) (by omega) (by simp_all)
  show decMemory r = _
  simp only [decMemory, hr.op]
  cases op <;> simp_all [fin2, Raw.tyMbz, Raw.tyOpt, Raw.tyReq, hr.d, hr.a, hr.b, hr.fn5, ht.w1, ht.x2, ht.c, ht.e, ht.ty, ht.tyv, ht.md, AtomvOp.code, AtomvOp.ty]

theorem watch (m : MAddr) : Statement (.watch m) := by
  intro hw r h
  have := m.x_lt
  have := m.hi_lt
  injection h with h; subst h
  refine Reads.formM (x := {}) (by decide) (by decide) (by decide) ?_ ?_ ?_ ?_ ?_ ?_ ?_ ?_ ?_ ?_ ?_
  any_goals first | decide | omega | exact W2.fits_zero | exact VX.fits _ (by omega) (by omega) | exact MX.fits _ (by omega) (by omega) (by omega) | (simp only [W2.fits, FTy.code]; omega) | (simp only [W2.fits]; omega) | (intro q; exact ⟨rfl, rfl⟩) | (intro q; rfl) | (intro q; omega)
  intro r hr ht
  show decMemory r = _
  simp only [decMemory, hr.op]
  simp [fin2, hr.d, hr.sz, addr_read (m := m) hr.a hr.x hr.hi8]

theorem waitw (c : WaitCond) (d a : XReg) : Statement (.waitw c d a) := by
  intro hw r h
  have := c.code_lt
  injection h with h; subst h
  refine Reads.formA (x := {}) (by decide) (by decide) (by decide) ?_ ?_ ?_ ?_ ?_ ?_ ?_ ?_ ?_ ?_
  any_goals first | decide | omega | exact W2.fits_zero | exact VX.fits _ (by omega) (by omega) | exact MX.fits _ (by omega) (by omega) (by omega) | (simp only [W2.fits, FTy.code]; omega) | (simp only [W2.fits]; omega) | (intro q; exact ⟨rfl, rfl⟩) | (intro q; rfl) | (intro q; omega)
  intro r hr ht
  show decMemory r = _
  simp only [decMemory, hr.op]
  simp [fin2, hr.d, hr.a, hr.b, hr.fn5]

theorem fence (k : FenceKind) (s : Scope) : Statement (.fence k s) := by
  intro hw r h
  have := k.code_lt
  have := s.code_lt
  injection h with h; subst h
  refine Reads.formA (x := {}) (by decide) (by decide) (by decide) ?_ ?_ ?_ ?_ ?_ ?_ ?_ ?_ ?_ ?_
  any_goals first | decide | omega | exact W2.fits_zero | exact VX.fits _ (by omega) (by omega) | exact MX.fits _ (by omega) (by omega) (by omega) | (simp only [W2.fits, FTy.code]; omega) | (simp only [W2.fits]; omega) | (intro q; exact ⟨rfl, rfl⟩) | (intro q; rfl) | (intro q; omega)
  intro r hr ht
  have e1 : k.code % 4 = k.code := by omega
  have e2 : (k.code + 4 * s.code) / 4 = s.code := by omega
  show decMemory r = _
  simp only [decMemory, hr.op]
  simp [fin2, hr.d, hr.a, hr.b, hr.fn5, e1, e2]

theorem bar (tag : Fin 4) (d : XReg) : Statement (.bar tag d) := by
  intro hw r h
  injection h with h; subst h
  refine Reads.formA (x := {}) (by decide) (by decide) (by decide) ?_ ?_ ?_ ?_ ?_ ?_ ?_ ?_ ?_ ?_
  any_goals first | decide | omega | exact W2.fits_zero | exact VX.fits _ (by omega) (by omega) | exact MX.fits _ (by omega) (by omega) (by omega) | (simp only [W2.fits, FTy.code]; omega) | (simp only [W2.fits]; omega) | (intro q; exact ⟨rfl, rfl⟩) | (intro q; rfl) | (intro q; omega)
  intro r hr ht
  show decMemory r = _
  simp only [decMemory, hr.op]
  simp [fin2, hr.d, hr.a, hr.b, hr.fn5]

theorem barrierGenerationComplete (lid level dom : Nat) (tag : Fin 4) : Statement (.barrierGenerationComplete lid level dom tag) := by
  intro _ r h
  have h : (none : Option Raw) = some r := h
  cases h

theorem cntToken (d a : XReg) (wire : Option XReg) : Statement (.cntToken d a wire) := by
  intro hw r h
  rcases wire with _ | wire
  · injection h with h; subst h
    refine Reads.formA (x := {}) (by decide) (by decide) (by decide) ?_ ?_ ?_ ?_ ?_ ?_ ?_ ?_ ?_ ?_
    any_goals first | decide | omega | exact W2.fits_zero | exact VX.fits _ (by omega) (by omega) | exact MX.fits _ (by omega) (by omega) (by omega) | (simp only [W2.fits, FTy.code]; omega) | (simp only [W2.fits]; omega) | (intro q; exact ⟨rfl, rfl⟩) | (intro q; rfl) | (intro q; omega)
    intro r hr ht
    show decMemory r = _
    simp only [decMemory, hr.op]
    simp [fin2, guardO, hr.d, hr.a, hr.b, hr.fn5]
  · injection h with h; subst h
    refine Reads.formA (x := {}) (by decide) (by decide) (by decide) ?_ ?_ ?_ ?_ ?_ ?_ ?_ ?_ ?_ ?_
    any_goals first | decide | omega | exact W2.fits_zero | exact VX.fits _ (by omega) (by omega) | exact MX.fits _ (by omega) (by omega) (by omega) | (simp only [W2.fits, FTy.code]; omega) | (simp only [W2.fits]; omega) | (intro q; exact ⟨rfl, rfl⟩) | (intro q; rfl) | (intro q; omega)
    intro r hr ht
    show decMemory r = _
    simp only [decMemory, hr.op]
    simp [fin2, guardO, hr.d, hr.a, hr.b, hr.fn5]

theorem cntAntiToken (d a : XReg) (wire : Option XReg) : Statement (.cntAntiToken d a wire) := by
  intro hw r h
  rcases wire with _ | wire
  · injection h with h; subst h
    refine Reads.formA (x := {}) (by decide) (by decide) (by decide) ?_ ?_ ?_ ?_ ?_ ?_ ?_ ?_ ?_ ?_
    any_goals first | decide | omega | exact W2.fits_zero | exact VX.fits _ (by omega) (by omega) | exact MX.fits _ (by omega) (by omega) (by omega) | (simp only [W2.fits, FTy.code]; omega) | (simp only [W2.fits]; omega) | (intro q; exact ⟨rfl, rfl⟩) | (intro q; rfl) | (intro q; omega)
    intro r hr ht
    show decMemory r = _
    simp only [decMemory, hr.op]
    simp [fin2, guardO, hr.d, hr.a, hr.b, hr.fn5]
  · injection h with h; subst h
    refine Reads.formA (x := {}) (by decide) (by decide) (by decide) ?_ ?_ ?_ ?_ ?_ ?_ ?_ ?_ ?_ ?_
    any_goals first | decide | omega | exact W2.fits_zero | exact VX.fits _ (by omega) (by omega) | exact MX.fits _ (by omega) (by omega) (by omega) | (simp only [W2.fits, FTy.code]; omega) | (simp only [W2.fits]; omega) | (intro q; exact ⟨rfl, rfl⟩) | (intro q; rfl) | (intro q; omega)
    intro r hr ht
    show decMemory r = _
    simp only [decMemory, hr.op]
    simp [fin2, guardO, hr.d, hr.a, hr.b, hr.fn5]

theorem balancerStep (key : NetKey) (i : Nat) : Statement (.balancerStep key i) := by
  intro _ r h
  have h : (none : Option Raw) = some r := h
  cases h

theorem exitStep (key : NetKey) (i : Nat) : Statement (.exitStep key i) := by
  intro _ r h
  have h : (none : Option Raw) = some r := h
  cases h

theorem killCompensation (key : NetKey) (i : Nat) : Statement (.killCompensation key i) := by
  intro _ r h
  have h : (none : Option Raw) = some r := h
  cases h

theorem recv (anytag : Bool) (d a b c : XReg) (tag : BitVec 32) : Statement (.recv anytag d a b c tag) := by
  intro hw r h
  have hw : ((!anytag || tag = 0 : Bool)) = true := hw
  have := anytag.toNat_lt
  injection h with h; subst h
  refine Reads.formA (by decide) (by decide) (by decide) ?_ ?_ ?_ ?_ ?_ ?_ ?_ ?_ ?_ ?_
  any_goals first | decide | omega | exact W2.fits_zero | exact VX.fits _ (by omega) (by omega) | exact MX.fits _ (by omega) (by omega) (by omega) | (simp only [W2.fits]; omega) | (simp only [W2.fits]; omega) | (intro q; exact ⟨rfl, rfl⟩) | (intro q; rfl) | (intro q; omega)
  intro r hr ht
  show decMemory r = _
  simp only [decMemory, hr.op]
  cases anytag <;> simp_all [fin2, hr.d, hr.a, hr.b, hr.fn5, ht.w1, ht.x2, ht.c]

theorem send (mc : Bool) (d a b c : XReg) (tag : BitVec 32) (pe : PReg) : Statement (.send mc d a b c tag pe) := by
  intro hw r h
  have := mc.toNat_lt
  injection h with h; subst h
  refine Reads.formA (by decide) (by decide) (by decide) ?_ ?_ ?_ ?_ ?_ ?_ ?_ ?_ ?_ ?_
  any_goals first | decide | omega | exact W2.fits_zero | exact VX.fits _ (by omega) (by omega) | exact MX.fits _ (by omega) (by omega) (by omega) | (simp only [W2.fits]; omega) | (simp only [W2.fits]; omega) | (intro q; exact ⟨rfl, rfl⟩) | (intro q; rfl) | (intro q; omega)
  intro r hr ht
  show decMemory r = _
  simp only [decMemory, hr.op]
  cases mc <;> simp [Raw.cPe, fin2, hr.len, hr.d, hr.a, hr.b, hr.fn5, ht.w1, ht.x2, ht.c, ht.pe]

theorem sendLiteral (mc : Bool) (d c : XReg) (tag : BitVec 32) (pe : PReg) (v : Word) : Statement (.sendLiteral mc d c tag pe v) := by
  intro hw r h
  have := mc.toNat_lt
  injection h with h; subst h
  refine Reads.formA (by decide) (by decide) (by decide) ?_ ?_ ?_ ?_ ?_ ?_ ?_ ?_ ?_ ?_
  any_goals first | decide | omega | exact W2.fits_zero | exact VX.fits _ (by omega) (by omega) | exact MX.fits _ (by omega) (by omega) (by omega) | (simp only [W2.fits]; omega) | (simp only [W2.fits]; omega) | (intro q; exact ⟨rfl, rfl⟩) | (intro q; rfl) | (intro q; omega)
  intro r hr ht
  show decMemory r = _
  simp only [decMemory, hr.op]
  cases mc <;> simp [Raw.cPe, fin2, hr.len, hr.d, hr.a, hr.b, hr.fn5, ht.w1, ht.lit, ht.x2, ht.c, ht.pe]

theorem messageArrival (q : LandStep) : Statement (.messageArrival q) := by
  intro _ r h
  have h : (none : Option Raw) = some r := h
  cases h

theorem sendn (dir : Dir) (d a b c : XReg) (pe : PReg) : Statement (.sendn dir d a b c pe) := by
  intro hw r h
  have := dir.code_lt
  injection h with h; subst h
  refine Reads.formA (by decide) (by decide) (by decide) ?_ ?_ ?_ ?_ ?_ ?_ ?_ ?_ ?_ ?_
  any_goals first | decide | omega | exact W2.fits_zero | exact VX.fits _ (by omega) (by omega) | exact MX.fits _ (by omega) (by omega) (by omega) | (simp only [W2.fits]; omega) | (simp only [W2.fits]; omega) | (intro q; exact ⟨rfl, rfl⟩) | (intro q; rfl) | (intro q; omega)
  intro r hr ht
  show decMemory r = _
  simp only [decMemory, hr.op]
  simp [Raw.cPe, fin2, hr.d, hr.a, hr.b, hr.fn5, ht.w1, ht.x2, ht.c, ht.pe, Dir.code_lt]

theorem halo (dirs : BitVec 4) (d a b c : XReg) (q : BitVec 32) (pe : PReg) : Statement (.halo dirs d a b c q pe) := by
  intro hw r h
  injection h with h; subst h
  refine Reads.formA (by decide) (by decide) (by decide) ?_ ?_ ?_ ?_ ?_ ?_ ?_ ?_ ?_ ?_
  any_goals first | decide | omega | exact W2.fits_zero | exact VX.fits _ (by omega) (by omega) | exact MX.fits _ (by omega) (by omega) (by omega) | (simp only [W2.fits]; omega) | (simp only [W2.fits]; omega) | (intro q; exact ⟨rfl, rfl⟩) | (intro q; rfl) | (intro q; omega)
  intro r hr ht
  have e1 : dirs.toNat < 16 := by omega
  show decMemory r = _
  simp only [decMemory, hr.op]
  simp [Raw.cPe, fin2, hr.d, hr.a, hr.b, hr.fn5, ht.w1, ht.x2, ht.c, ht.pe, e1]

theorem neighbourArrival (q : LandStep) : Statement (.neighbourArrival q) := by
  intro _ r h
  have h : (none : Option Raw) = some r := h
  cases h

theorem probe (anytag : Bool) (d a b : XReg) : Statement (.probe anytag d a b) := by
  intro hw r h
  have := anytag.toNat_lt
  injection h with h; subst h
  refine Reads.formA (x := {}) (by decide) (by decide) (by decide) ?_ ?_ ?_ ?_ ?_ ?_ ?_ ?_ ?_ ?_
  any_goals first | decide | omega | exact W2.fits_zero | exact VX.fits _ (by omega) (by omega) | exact MX.fits _ (by omega) (by omega) (by omega) | (simp only [W2.fits, FTy.code]; omega) | (simp only [W2.fits]; omega) | (intro q; exact ⟨rfl, rfl⟩) | (intro q; rfl) | (intro q; omega)
  intro r hr ht
  show decMemory r = _
  simp only [decMemory, hr.op]
  cases anytag <;> simp [fin2, hr.d, hr.a, hr.b, hr.fn5]

theorem copyIn (win : Bool) (d a b c e : XReg) (w1 : BitVec 32) (pe : PReg) : Statement (.copyIn win d a b c e w1 pe) := by
  intro hw r h
  have := win.toNat_lt
  injection h with h; subst h
  refine Reads.formA (by decide) (by decide) (by decide) ?_ ?_ ?_ ?_ ?_ ?_ ?_ ?_ ?_ ?_
  any_goals first | decide | omega | exact W2.fits_zero | exact VX.fits _ (by omega) (by omega) | exact MX.fits _ (by omega) (by omega) (by omega) | (simp only [W2.fits]; omega) | (simp only [W2.fits]; omega) | (intro q; exact ⟨rfl, rfl⟩) | (intro q; rfl) | (intro q; omega)
  intro r hr ht
  show decSystem r = _
  simp only [decSystem, hr.op]
  cases win <;> simp [fin2, hr.d, hr.a, hr.b, hr.fn5, ht.w1, ht.x2, ht.c, ht.e, ht.pe, ht.md]

theorem copyOut (win : Bool) (d a b c e : XReg) (w1 : BitVec 32) (pe : PReg) : Statement (.copyOut win d a b c e w1 pe) := by
  intro hw r h
  have := win.toNat_lt
  injection h with h; subst h
  refine Reads.formA (by decide) (by decide) (by decide) ?_ ?_ ?_ ?_ ?_ ?_ ?_ ?_ ?_ ?_
  any_goals first | decide | omega | exact W2.fits_zero | exact VX.fits _ (by omega) (by omega) | exact MX.fits _ (by omega) (by omega) (by omega) | (simp only [W2.fits]; omega) | (simp only [W2.fits]; omega) | (intro q; exact ⟨rfl, rfl⟩) | (intro q; rfl) | (intro q; omega)
  intro r hr ht
  show decSystem r = _
  simp only [decSystem, hr.op]
  cases win <;> simp [fin2, hr.d, hr.a, hr.b, hr.fn5, ht.w1, ht.x2, ht.c, ht.e, ht.pe, ht.md]

theorem gather (i64 : Bool) (ty : Ty) (d a b c e : XReg) (stride : BitVec 32) (pe : PReg) : Statement (.gather i64 ty d a b c e stride pe) := by
  intro hw r h
  have hw : ((ty.isElem : Bool)) = true := hw
  have := i64.toNat_lt
  have := ty.code_lt
  injection h with h; subst h
  refine Reads.formA (by decide) (by decide) (by decide) ?_ ?_ ?_ ?_ ?_ ?_ ?_ ?_ ?_ ?_
  any_goals first | decide | omega | exact W2.fits_zero | exact VX.fits _ (by omega) (by omega) | exact MX.fits _ (by omega) (by omega) (by omega) | (simp only [W2.fits]; omega) | (simp only [W2.fits]; omega) | (intro q; exact ⟨rfl, rfl⟩) | (intro q; rfl) | (intro q; omega)
  intro r hr ht
  have hx : Ty.isElem ty = true := by simp_all
  show decSystem r = _
  simp only [decSystem, hr.op]
  cases i64 <;> simp_all [fin2, hr.d, hr.a, hr.b, hr.fn5, ht.w1, ht.x2, ht.c, ht.e, ht.pe, ht.ty, ht.tyv, tyReq_read (adm := Ty.isElem) hx ht.ty ht.tyv, tyMbz_one ht.tyv]

theorem scatter (i64 : Bool) (ty : Ty) (d a b c e : XReg) (stride : BitVec 32) (pe : PReg) : Statement (.scatter i64 ty d a b c e stride pe) := by
  intro hw r h
  have hw : ((ty.isElem : Bool)) = true := hw
  have := i64.toNat_lt
  have := ty.code_lt
  injection h with h; subst h
  refine Reads.formA (by decide) (by decide) (by decide) ?_ ?_ ?_ ?_ ?_ ?_ ?_ ?_ ?_ ?_
  any_goals first | decide | omega | exact W2.fits_zero | exact VX.fits _ (by omega) (by omega) | exact MX.fits _ (by omega) (by omega) (by omega) | (simp only [W2.fits]; omega) | (simp only [W2.fits]; omega) | (intro q; exact ⟨rfl, rfl⟩) | (intro q; rfl) | (intro q; omega)
  intro r hr ht
  have hx : Ty.isElem ty = true := by simp_all
  show decSystem r = _
  simp only [decSystem, hr.op]
  cases i64 <;> simp_all [fin2, hr.d, hr.a, hr.b, hr.fn5, ht.w1, ht.x2, ht.c, ht.e, ht.pe, ht.ty, ht.tyv, tyReq_read (adm := Ty.isElem) hx ht.ty ht.tyv, tyMbz_one ht.tyv]

theorem put (d a b c e : XReg) (pe : PReg) : Statement (.put d a b c e pe) := by
  intro hw r h
  injection h with h; subst h
  refine Reads.formA (by decide) (by decide) (by decide) ?_ ?_ ?_ ?_ ?_ ?_ ?_ ?_ ?_ ?_
  any_goals first | decide | omega | exact W2.fits_zero | exact VX.fits _ (by omega) (by omega) | exact MX.fits _ (by omega) (by omega) (by omega) | (simp only [W2.fits]; omega) | (simp only [W2.fits]; omega) | (intro q; exact ⟨rfl, rfl⟩) | (intro q; rfl) | (intro q; omega)
  intro r hr ht
  show decSystem r = _
  simp only [decSystem, hr.op]
  simp [Raw.cePe, fin2, hr.d, hr.a, hr.b, hr.fn5, ht.w1, ht.x2, ht.c, ht.e, ht.pe]

theorem engineStampWrite (q : LandStep) : Statement (.engineStampWrite q) := by
  intro _ r h
  have h : (none : Option Raw) = some r := h
  cases h

theorem putHandoff (i : HandStep) : Statement (.putHandoff i) := by
  intro _ r h
  have h : (none : Option Raw) = some r := h
  cases h

theorem publish (a : XReg) : Statement (.publish a) := by
  intro hw r h
  injection h with h; subst h
  refine Reads.formA (x := {}) (by decide) (by decide) (by decide) ?_ ?_ ?_ ?_ ?_ ?_ ?_ ?_ ?_ ?_
  any_goals first | decide | omega | exact W2.fits_zero | exact VX.fits _ (by omega) (by omega) | exact MX.fits _ (by omega) (by omega) (by omega) | (simp only [W2.fits, FTy.code]; omega) | (simp only [W2.fits]; omega) | (intro q; exact ⟨rfl, rfl⟩) | (intro q; rfl) | (intro q; omega)
  intro r hr ht
  show decSystem r = _
  simp only [decSystem, hr.op]
  simp [fin2, hr.d, hr.a, hr.b, hr.fn5]

theorem shadow (d a : XReg) : Statement (.shadow d a) := by
  intro hw r h
  injection h with h; subst h
  refine Reads.formA (x := {}) (by decide) (by decide) (by decide) ?_ ?_ ?_ ?_ ?_ ?_ ?_ ?_ ?_ ?_
  any_goals first | decide | omega | exact W2.fits_zero | exact VX.fits _ (by omega) (by omega) | exact MX.fits _ (by omega) (by omega) (by omega) | (simp only [W2.fits, FTy.code]; omega) | (simp only [W2.fits]; omega) | (intro q; exact ⟨rfl, rfl⟩) | (intro q; rfl) | (intro q; omega)
  intro r hr ht
  show decMatrix r = _
  simp only [decMatrix, hr.op]
  simp [fin2, hr.d, hr.a, hr.b, hr.fn5]

theorem launch (child : Bool) (d a b : XReg) : Statement (.launch child d a b) := by
  intro hw r h
  have := child.toNat_lt
  injection h with h; subst h
  refine Reads.formA (x := {}) (by decide) (by decide) (by decide) ?_ ?_ ?_ ?_ ?_ ?_ ?_ ?_ ?_ ?_
  any_goals first | decide | omega | exact W2.fits_zero | exact VX.fits _ (by omega) (by omega) | exact MX.fits _ (by omega) (by omega) (by omega) | (simp only [W2.fits, FTy.code]; omega) | (simp only [W2.fits]; omega) | (intro q; exact ⟨rfl, rfl⟩) | (intro q; rfl) | (intro q; omega)
  intro r hr ht
  show decSystem r = _
  simp only [decSystem, hr.op]
  cases child <;> simp [fin2, hr.d, hr.a, hr.b, hr.fn5]

theorem task (d a : XReg) : Statement (.task d a) := by
  intro hw r h
  injection h with h; subst h
  refine Reads.formA (x := {}) (by decide) (by decide) (by decide) ?_ ?_ ?_ ?_ ?_ ?_ ?_ ?_ ?_ ?_
  any_goals first | decide | omega | exact W2.fits_zero | exact VX.fits _ (by omega) (by omega) | exact MX.fits _ (by omega) (by omega) (by omega) | (simp only [W2.fits, FTy.code]; omega) | (simp only [W2.fits]; omega) | (intro q; exact ⟨rfl, rfl⟩) | (intro q; rfl) | (intro q; omega)
  intro r hr ht
  show decSystem r = _
  simp only [decSystem, hr.op]
  simp [fin2, hr.d, hr.a, hr.b, hr.fn5]

theorem join (d a b : XReg) : Statement (.join d a b) := by
  intro hw r h
  injection h with h; subst h
  refine Reads.formA (x := {}) (by decide) (by decide) (by decide) ?_ ?_ ?_ ?_ ?_ ?_ ?_ ?_ ?_ ?_
  any_goals first | decide | omega | exact W2.fits_zero | exact VX.fits _ (by omega) (by omega) | exact MX.fits _ (by omega) (by omega) (by omega) | (simp only [W2.fits, FTy.code]; omega) | (simp only [W2.fits]; omega) | (intro q; exact ⟨rfl, rfl⟩) | (intro q; rfl) | (intro q; omega)
  intro r hr ht
  show decSystem r = _
  simp only [decSystem, hr.op]
  simp [fin2, hr.d, hr.a, hr.b, hr.fn5]

theorem joinDecrement (lid : Nat) (va : Word) : Statement (.joinDecrement lid va) := by
  intro _ r h
  have h : (none : Option Raw) = some r := h
  cases h

theorem trap (n : BitVec 11) : Statement (.trap n) := by
  intro hw r h
  injection h with h; subst h
  refine Reads.formI (x := {}) (by decide) (by decide) (by decide) ?_ ?_ ?_ ?_ ?_ ?_ ?_ ?_ ?_
  any_goals first | decide | omega | exact W2.fits_zero | exact VX.fits _ (by omega) (by omega) | exact MX.fits _ (by omega) (by omega) (by omega) | (simp only [W2.fits, FTy.code]; omega) | (simp only [W2.fits]; omega) | (intro q; exact ⟨rfl, rfl⟩) | (intro q; rfl) | (intro q; omega)
  intro r hr ht
  show decSystem r = _
  simp only [decSystem, hr.op]
  simp [fin2, hr.d, hr.a, hr.imm11]

theorem brk (n : BitVec 11) : Statement (.brk n) := by
  intro hw r h
  injection h with h; subst h
  refine Reads.formI (x := {}) (by decide) (by decide) (by decide) ?_ ?_ ?_ ?_ ?_ ?_ ?_ ?_ ?_
  any_goals first | decide | omega | exact W2.fits_zero | exact VX.fits _ (by omega) (by omega) | exact MX.fits _ (by omega) (by omega) (by omega) | (simp only [W2.fits, FTy.code]; omega) | (simp only [W2.fits]; omega) | (intro q; exact ⟨rfl, rfl⟩) | (intro q; rfl) | (intro q; omega)
  intro r hr ht
  show decSystem r = _
  simp only [decSystem, hr.op]
  simp [fin2, hr.d, hr.a, hr.imm11]

theorem eret : Statement .eret := by
  intro hw r h
  injection h with h; subst h
  refine Reads.formA (x := {}) (by decide) (by decide) (by decide) ?_ ?_ ?_ ?_ ?_ ?_ ?_ ?_ ?_ ?_
  any_goals first | decide | omega | exact W2.fits_zero | exact VX.fits _ (by omega) (by omega) | exact MX.fits _ (by omega) (by omega) (by omega) | (simp only [W2.fits, FTy.code]; omega) | (simp only [W2.fits]; omega) | (intro q; exact ⟨rfl, rfl⟩) | (intro q; rfl) | (intro q; omega)
  intro r hr ht
  show decSystem r = _
  simp only [decSystem, hr.op]
  simp [fin2, hr.d, hr.a, hr.b, hr.fn5]

theorem eretSkip : Statement .eretSkip := by
  intro hw r h
  injection h with h; subst h
  refine Reads.formA (x := {}) (by decide) (by decide) (by decide) ?_ ?_ ?_ ?_ ?_ ?_ ?_ ?_ ?_ ?_
  any_goals first | decide | omega | exact W2.fits_zero | exact VX.fits _ (by omega) (by omega) | exact MX.fits _ (by omega) (by omega) (by omega) | (simp only [W2.fits, FTy.code]; omega) | (simp only [W2.fits]; omega) | (intro q; exact ⟨rfl, rfl⟩) | (intro q; rfl) | (intro q; omega)
  intro r hr ht
  show decSystem r = _
  simp only [decSystem, hr.op]
  simp [fin2, hr.d, hr.a, hr.b, hr.fn5]

theorem eretTo (a : XReg) : Statement (.eretTo a) := by
  intro hw r h
  injection h with h; subst h
  refine Reads.formA (x := {}) (by decide) (by decide) (by decide) ?_ ?_ ?_ ?_ ?_ ?_ ?_ ?_ ?_ ?_
  any_goals first | decide | omega | exact W2.fits_zero | exact VX.fits _ (by omega) (by omega) | exact MX.fits _ (by omega) (by omega) (by omega) | (simp only [W2.fits, FTy.code]; omega) | (simp only [W2.fits]; omega) | (intro q; exact ⟨rfl, rfl⟩) | (intro q; rfl) | (intro q; omega)
  intro r hr ht
  show decSystem r = _
  simp only [decSystem, hr.op]
  simp [fin2, hr.d, hr.a, hr.b, hr.fn5]

theorem live (d b : XReg) : Statement (.live d b) := by
  intro hw r h
  injection h with h; subst h
  refine Reads.formA (x := {}) (by decide) (by decide) (by decide) ?_ ?_ ?_ ?_ ?_ ?_ ?_ ?_ ?_ ?_
  any_goals first | decide | omega | exact W2.fits_zero | exact VX.fits _ (by omega) (by omega) | exact MX.fits _ (by omega) (by omega) (by omega) | (simp only [W2.fits, FTy.code]; omega) | (simp only [W2.fits]; omega) | (intro q; exact ⟨rfl, rfl⟩) | (intro q; rfl) | (intro q; omega)
  intro r hr ht
  show decSystem r = _
  simp only [decSystem, hr.op]
  simp [fin2, hr.len, hr.d, hr.a, hr.b, hr.fn5]

theorem liveLiteral (d : XReg) (v : Word) : Statement (.liveLiteral d v) := by
  intro hw r h
  injection h with h; subst h
  refine Reads.formA (x := {}) (by decide) (by decide) (by decide) ?_ ?_ ?_ ?_ ?_ ?_ ?_ ?_ ?_ ?_
  any_goals first | decide | omega | exact W2.fits_zero | exact VX.fits _ (by omega) (by omega) | exact MX.fits _ (by omega) (by omega) (by omega) | (simp only [W2.fits, FTy.code]; omega) | (simp only [W2.fits]; omega) | (intro q; exact ⟨rfl, rfl⟩) | (intro q; rfl) | (intro q; omega)
  intro r hr ht
  show decSystem r = _
  simp only [decSystem, hr.op]
  simp [fin2, hr.len, hr.d, hr.a, hr.b, hr.fn5, ht.lit]

theorem yield (d : XReg) : Statement (.yield d) := by
  intro hw r h
  injection h with h; subst h
  refine Reads.formA (x := {}) (by decide) (by decide) (by decide) ?_ ?_ ?_ ?_ ?_ ?_ ?_ ?_ ?_ ?_
  any_goals first | decide | omega | exact W2.fits_zero | exact VX.fits _ (by omega) (by omega) | exact MX.fits _ (by omega) (by omega) (by omega) | (simp only [W2.fits, FTy.code]; omega) | (simp only [W2.fits]; omega) | (intro q; exact ⟨rfl, rfl⟩) | (intro q; rfl) | (intro q; omega)
  intro r hr ht
  show decSystem r = _
  simp only [decSystem, hr.op]
  simp [fin2, hr.d, hr.a, hr.b, hr.fn5]

theorem yieldPoll (d : XReg) : Statement (.yieldPoll d) := by
  intro hw r h
  injection h with h; subst h
  refine Reads.formA (x := {}) (by decide) (by decide) (by decide) ?_ ?_ ?_ ?_ ?_ ?_ ?_ ?_ ?_ ?_
  any_goals first | decide | omega | exact W2.fits_zero | exact VX.fits _ (by omega) (by omega) | exact MX.fits _ (by omega) (by omega) (by omega) | (simp only [W2.fits, FTy.code]; omega) | (simp only [W2.fits]; omega) | (intro q; exact ⟨rfl, rfl⟩) | (intro q; rfl) | (intro q; omega)
  intro r hr ht
  show decSystem r = _
  simp only [decSystem, hr.op]
  simp [fin2, hr.d, hr.a, hr.b, hr.fn5]

theorem valid (c : VCode) (a b : XReg) : Statement (.valid c a b) := by
  intro hw r h
  have := c.code_lt
  injection h with h; subst h
  refine Reads.formA (x := {}) (by decide) (by decide) (by decide) ?_ ?_ ?_ ?_ ?_ ?_ ?_ ?_ ?_ ?_
  any_goals first | decide | omega | exact W2.fits_zero | exact VX.fits _ (by omega) (by omega) | exact MX.fits _ (by omega) (by omega) (by omega) | (simp only [W2.fits, FTy.code]; omega) | (simp only [W2.fits]; omega) | (intro q; exact ⟨rfl, rfl⟩) | (intro q; rfl) | (intro q; omega)
  intro r hr ht
  have e1 : c.code < 4 := by omega
  show decSystem r = _
  simp only [decSystem, hr.op]
  simp [fin2, hr.len, hr.d, hr.a, hr.b, hr.fn5, ht.w2, e1]

theorem validImmediate (c : VCode) (a : XReg) (n : BitVec 32) : Statement (.validImmediate c a n) := by
  intro hw r h
  have := c.code_lt
  injection h with h; subst h
  refine Reads.formA (by decide) (by decide) (by decide) ?_ ?_ ?_ ?_ ?_ ?_ ?_ ?_ ?_ ?_
  any_goals first | decide | omega | exact W2.fits_zero | exact VX.fits _ (by omega) (by omega) | exact MX.fits _ (by omega) (by omega) (by omega) | (simp only [W2.fits, FTy.code]; omega) | (simp only [W2.fits]; omega) | (intro q; exact ⟨rfl, rfl⟩) | (intro q; rfl) | (intro q; omega)
  intro r hr ht
  have e1 : c.code < 4 := by omega
  show decSystem r = _
  simp only [decSystem, hr.op]
  simp [fin2, hr.len, hr.d, hr.a, hr.b, hr.fn5, ht.w1, ht.w2, e1]

theorem validOpen (a b : XReg) : Statement (.validOpen a b) := by
  intro hw r h
  injection h with h; subst h
  refine Reads.formA (x := {}) (by decide) (by decide) (by decide) ?_ ?_ ?_ ?_ ?_ ?_ ?_ ?_ ?_ ?_
  any_goals first | decide | omega | exact W2.fits_zero | exact VX.fits _ (by omega) (by omega) | exact MX.fits _ (by omega) (by omega) (by omega) | (simp only [W2.fits, FTy.code]; omega) | (simp only [W2.fits]; omega) | (intro q; exact ⟨rfl, rfl⟩) | (intro q; rfl) | (intro q; omega)
  intro r hr ht
  show decSystem r = _
  simp only [decSystem, hr.op]
  simp [fin2, guardO, hr.len, hr.d, hr.a, hr.b, hr.fn5, ht.w2]

theorem validOpenImmediate (a : XReg) (n : BitVec 32) : Statement (.validOpenImmediate a n) := by
  intro hw r h
  injection h with h; subst h
  refine Reads.formA (by decide) (by decide) (by decide) ?_ ?_ ?_ ?_ ?_ ?_ ?_ ?_ ?_ ?_
  any_goals first | decide | omega | exact W2.fits_zero | exact VX.fits _ (by omega) (by omega) | exact MX.fits _ (by omega) (by omega) (by omega) | (simp only [W2.fits, FTy.code]; omega) | (simp only [W2.fits]; omega) | (intro q; exact ⟨rfl, rfl⟩) | (intro q; rfl) | (intro q; omega)
  intro r hr ht
  show decSystem r = _
  simp only [decSystem, hr.op]
  simp [fin2, guardO, hr.len, hr.d, hr.a, hr.b, hr.fn5, ht.w1, ht.w2]

theorem routeDisp (d a : VReg) (kc : Fin 8) (s : Fin 4) (m : VMask) : Statement (.routeDisp d a kc s m) := by
  intro hw r h
  have := m.z.toNat_lt
  injection h with h; subst h
  refine Reads.formA (by decide) (by decide) (by decide) ?_ ?_ ?_ ?_ ?_ ?_ ?_ ?_ ?_ ?_
  any_goals first | decide | omega | exact W2.fits_zero | exact VX.fits _ (by omega) (by omega) | exact MX.fits _ (by omega) (by omega) (by omega) | (simp only [W2.fits]; omega) | (simp only [W2.fits]; omega) | (intro q; exact ⟨rfl, rfl⟩) | (intro q; rfl) | (intro q; omega)
  intro r hr ht
  have e1 : s.val + 4 * kc.val < 32 := by omega
  have e2 : Fin.ofNat 8 ((s.val + 4 * kc.val) / 4) = kc := ofNat_eq (by omega)
  have e3 : Fin.ofNat 4 (s.val + 4 * kc.val) = s := ofNat_eq (by omega)
  show decSystem r = _
  simp only [decSystem, hr.op]
  simp [fin2, Raw.xmask, hr.d, hr.a, hr.b, hr.fn5, ht.w1, ht.x2, ht.pe, ht.ze, e1, e2, e3] <;> exact ⟨e2, e3⟩

theorem routeRedir (d a : VReg) (kc : Fin 8) (s : Fin 4) (m : VMask) : Statement (.routeRedir d a kc s m) := by
  intro hw r h
  have := m.z.toNat_lt
  injection h with h; subst h
  refine Reads.formA (by decide) (by decide) (by decide) ?_ ?_ ?_ ?_ ?_ ?_ ?_ ?_ ?_ ?_
  any_goals first | decide | omega | exact W2.fits_zero | exact VX.fits _ (by omega) (by omega) | exact MX.fits _ (by omega) (by omega) (by omega) | (simp only [W2.fits]; omega) | (simp only [W2.fits]; omega) | (intro q; exact ⟨rfl, rfl⟩) | (intro q; rfl) | (intro q; omega)
  intro r hr ht
  have e1 : s.val + 4 * kc.val < 32 := by omega
  have e2 : Fin.ofNat 8 ((s.val + 4 * kc.val) / 4) = kc := ofNat_eq (by omega)
  have e3 : Fin.ofNat 4 (s.val + 4 * kc.val) = s := ofNat_eq (by omega)
  show decSystem r = _
  simp only [decSystem, hr.op]
  simp [fin2, Raw.xmask, hr.d, hr.a, hr.b, hr.fn5, ht.w1, ht.x2, ht.pe, ht.ze, e1, e2, e3] <;> exact ⟨e2, e3⟩

theorem routeClose (d a : XReg) : Statement (.routeClose d a) := by
  intro hw r h
  injection h with h; subst h
  refine Reads.formA (by decide) (by decide) (by decide) ?_ ?_ ?_ ?_ ?_ ?_ ?_ ?_ ?_ ?_
  any_goals first | decide | omega | exact W2.fits_zero | exact VX.fits _ (by omega) (by omega) | exact MX.fits _ (by omega) (by omega) (by omega) | (simp only [W2.fits, FTy.code]; omega) | (simp only [W2.fits]; omega) | (intro q; exact ⟨rfl, rfl⟩) | (intro q; rfl) | (intro q; omega)
  intro r hr ht
  show decSystem r = _
  simp only [decSystem, hr.op]
  simp [fin2, hr.d, hr.a, hr.b, hr.fn5, ht.w1, ht.w2]

theorem routeInfo (d a : VReg) (s : Fin 4) (m : VMask) : Statement (.routeInfo d a s m) := by
  intro hw r h
  have := m.z.toNat_lt
  injection h with h; subst h
  refine Reads.formA (by decide) (by decide) (by decide) ?_ ?_ ?_ ?_ ?_ ?_ ?_ ?_ ?_ ?_
  any_goals first | decide | omega | exact W2.fits_zero | exact VX.fits _ (by omega) (by omega) | exact MX.fits _ (by omega) (by omega) (by omega) | (simp only [W2.fits]; omega) | (simp only [W2.fits]; omega) | (intro q; exact ⟨rfl, rfl⟩) | (intro q; rfl) | (intro q; omega)
  intro r hr ht
  show decSystem r = _
  simp only [decSystem, hr.op]
  simp [fin2, Raw.xmask, hr.d, hr.a, hr.b, hr.fn5, ht.w1, ht.x2, ht.pe, ht.ze]

theorem rtpinPin (d a : XReg) (s : Fin 4) : Statement (.rtpinPin d a s) := by
  intro hw r h
  injection h with h; subst h
  refine Reads.formA (x := {}) (by decide) (by decide) (by decide) ?_ ?_ ?_ ?_ ?_ ?_ ?_ ?_ ?_ ?_
  any_goals first | decide | omega | exact W2.fits_zero | exact VX.fits _ (by omega) (by omega) | exact MX.fits _ (by omega) (by omega) (by omega) | (simp only [W2.fits, FTy.code]; omega) | (simp only [W2.fits]; omega) | (intro q; exact ⟨rfl, rfl⟩) | (intro q; rfl) | (intro q; omega)
  intro r hr ht
  show decSystem r = _
  simp only [decSystem, hr.op]
  simp [fin2, hr.d, hr.a, hr.b, hr.fn5]

theorem rtpinRel (s : Fin 4) : Statement (.rtpinRel s) := by
  intro hw r h
  injection h with h; subst h
  refine Reads.formA (x := {}) (by decide) (by decide) (by decide) ?_ ?_ ?_ ?_ ?_ ?_ ?_ ?_ ?_ ?_
  any_goals first | decide | omega | exact W2.fits_zero | exact VX.fits _ (by omega) (by omega) | exact MX.fits _ (by omega) (by omega) (by omega) | (simp only [W2.fits, FTy.code]; omega) | (simp only [W2.fits]; omega) | (intro q; exact ⟨rfl, rfl⟩) | (intro q; rfl) | (intro q; omega)
  intro r hr ht
  show decSystem r = _
  simp only [decSystem, hr.op]
  simp [fin2, hr.d, hr.a, hr.b, hr.fn5]

theorem rtpinHealth (d : XReg) : Statement (.rtpinHealth d) := by
  intro hw r h
  injection h with h; subst h
  refine Reads.formA (x := {}) (by decide) (by decide) (by decide) ?_ ?_ ?_ ?_ ?_ ?_ ?_ ?_ ?_ ?_
  any_goals first | decide | omega | exact W2.fits_zero | exact VX.fits _ (by omega) (by omega) | exact MX.fits _ (by omega) (by omega) (by omega) | (simp only [W2.fits, FTy.code]; omega) | (simp only [W2.fits]; omega) | (intro q; exact ⟨rfl, rfl⟩) | (intro q; rfl) | (intro q; omega)
  intro r hr ht
  show decSystem r = _
  simp only [decSystem, hr.op]
  simp [fin2, hr.d, hr.a, hr.b, hr.fn5]

theorem rtpinCur (d a : XReg) : Statement (.rtpinCur d a) := by
  intro hw r h
  injection h with h; subst h
  refine Reads.formA (x := {}) (by decide) (by decide) (by decide) ?_ ?_ ?_ ?_ ?_ ?_ ?_ ?_ ?_ ?_
  any_goals first | decide | omega | exact W2.fits_zero | exact VX.fits _ (by omega) (by omega) | exact MX.fits _ (by omega) (by omega) (by omega) | (simp only [W2.fits, FTy.code]; omega) | (simp only [W2.fits]; omega) | (intro q; exact ⟨rfl, rfl⟩) | (intro q; rfl) | (intro q; omega)
  intro r hr ht
  show decSystem r = _
  simp only [decSystem, hr.op]
  simp [fin2, hr.d, hr.a, hr.b, hr.fn5]

theorem vadd (f : VSat) (m : VMask) (d a : VReg) (b : VSrc) (x : Option VX) : Statement (.vadd f m d a b x) := by
  intro hw r h
  have hw : ((b.okLen x && vxOk f.admits x : Bool)) = true := hw
  have := f.code_lt
  have := m.z.toNat_lt
  rcases b with b | b
  all_goals
    rcases x with _ | x
    · injection h with h; subst h
      simp only [encVB, encV, VSrc.vb]
      refine Reads.formV (x := {}) (by decide) (by decide) (by decide) ?_ ?_ ?_ ?_ ?_ ?_ ?_ ?_ ?_ ?_ ?_ ?_ ?_
      any_goals first | decide | omega | exact W2.fits_zero | exact VX.fits _ (by omega) (by omega) | exact MX.fits _ (by omega) (by omega) (by omega) | (simp only [W2.fits, FTy.code]; omega) | (simp only [W2.fits]; omega) | (intro q; exact ⟨rfl, rfl⟩) | (intro q; rfl) | (intro q; omega)
      intro r hr ht
      show decVector r = _
      simp only [decVector, hr.op]
      simp_all [VSrc.okLen, vxOk, fin2, guardO, decVB, Raw.vMbz, Raw.tyMbz, Raw.vxOpt, Raw.isXb, Raw.vBMbz, Raw.srcB, Raw.vmask, hr.len, hr.vd, hr.va, hr.vb, hr.vc, hr.pv, hr.z, hr.fn3, ht.w1, ht.c, ht.e, ht.pe, ht.ze, ht.ty, ht.tyv, ht.md]
    · injection h with h; subst h
      simp only [encVB, encV, VX.w2, VSrc.vb, VSrc.c, VSrc.md]
      refine Reads.formV (by decide) (by decide) (by decide) ?_ ?_ ?_ ?_ ?_ ?_ ?_ ?_ ?_ ?_ ?_ ?_ ?_
      any_goals first | decide | omega | exact W2.fits_zero | exact VX.fits _ (by omega) (by omega) | exact MX.fits _ (by omega) (by omega) (by omega) | (simp only [W2.fits, FTy.code]; omega) | (simp only [W2.fits]; omega) | (intro q; exact ⟨rfl, rfl⟩) | (intro q; rfl) | (intro q; omega)
      intro r hr ht
      have hx : tyOk f.admits x.ty = true := by simp_all [VSrc.okLen, vxOk]
      show decVector r = _
      simp only [decVector, hr.op]
      simp_all [VSrc.okLen, vxOk, fin2, guardO, decVB, Raw.vxOpt, Raw.isXb, Raw.vBMbz, Raw.srcB, Raw.vmask, hr.len, hr.vd, hr.va, hr.vb, hr.vc, hr.pv, hr.z, hr.fn3, ht.w1, ht.c, ht.md, vx_read hx ht, vMbz_read (by decide) ht]

theorem vsub (f : VSat) (m : VMask) (d a : VReg) (b : VSrc) (x : Option VX) : Statement (.vsub f m d a b x) := by
  intro hw r h
  have hw : ((b.okLen x && vxOk f.admits x : Bool)) = true := hw
  have := f.code_lt
  have := m.z.toNat_lt
  rcases b with b | b
  all_goals
    rcases x with _ | x
    · injection h with h; subst h
      simp only [encVB, encV, VSrc.vb]
      refine Reads.formV (x := {}) (by decide) (by decide) (by decide) ?_ ?_ ?_ ?_ ?_ ?_ ?_ ?_ ?_ ?_ ?_ ?_ ?_
      any_goals first | decide | omega | exact W2.fits_zero | exact VX.fits _ (by omega) (by omega) | exact MX.fits _ (by omega) (by omega) (by omega) | (simp only [W2.fits, FTy.code]; omega) | (simp only [W2.fits]; omega) | (intro q; exact ⟨rfl, rfl⟩) | (intro q; rfl) | (intro q; omega)
      intro r hr ht
      show decVector r = _
      simp only [decVector, hr.op]
      simp_all [VSrc.okLen, vxOk, fin2, guardO, decVB, Raw.vMbz, Raw.tyMbz, Raw.vxOpt, Raw.isXb, Raw.vBMbz, Raw.srcB, Raw.vmask, hr.len, hr.vd, hr.va, hr.vb, hr.vc, hr.pv, hr.z, hr.fn3, ht.w1, ht.c, ht.e, ht.pe, ht.ze, ht.ty, ht.tyv, ht.md]
    · injection h with h; subst h
      simp only [encVB, encV, VX.w2, VSrc.vb, VSrc.c, VSrc.md]
      refine Reads.formV (by decide) (by decide) (by decide) ?_ ?_ ?_ ?_ ?_ ?_ ?_ ?_ ?_ ?_ ?_ ?_ ?_
      any_goals first | decide | omega | exact W2.fits_zero | exact VX.fits _ (by omega) (by omega) | exact MX.fits _ (by omega) (by omega) (by omega) | (simp only [W2.fits, FTy.code]; omega) | (simp only [W2.fits]; omega) | (intro q; exact ⟨rfl, rfl⟩) | (intro q; rfl) | (intro q; omega)
      intro r hr ht
      have hx : tyOk f.admits x.ty = true := by simp_all [VSrc.okLen, vxOk]
      show decVector r = _
      simp only [decVector, hr.op]
      simp_all [VSrc.okLen, vxOk, fin2, guardO, decVB, Raw.vxOpt, Raw.isXb, Raw.vBMbz, Raw.srcB, Raw.vmask, hr.len, hr.vd, hr.va, hr.vb, hr.vc, hr.pv, hr.z, hr.fn3, ht.w1, ht.c, ht.md, vx_read hx ht, vMbz_read (by decide) ht]

theorem vmul (f : VMulFn) (m : VMask) (d a : VReg) (b : VSrc) (x : Option VX) : Statement (.vmul f m d a b x) := by
  intro hw r h
  have hw : ((b.okLen x && vxOk f.admits x : Bool)) = true := hw
  have := f.code_lt
  have := m.z.toNat_lt
  rcases b with b | b
  all_goals
    rcases x with _ | x
    · injection h with h; subst h
      simp only [encVB, encV, VSrc.vb]
      refine Reads.formV (x := {}) (by decide) (by decide) (by decide) ?_ ?_ ?_ ?_ ?_ ?_ ?_ ?_ ?_ ?_ ?_ ?_ ?_
      any_goals first | decide | omega | exact W2.fits_zero | exact VX.fits _ (by omega) (by omega) | exact MX.fits _ (by omega) (by omega) (by omega) | (simp only [W2.fits, FTy.code]; omega) | (simp only [W2.fits]; omega) | (intro q; exact ⟨rfl, rfl⟩) | (intro q; rfl) | (intro q; omega)
      intro r hr ht
      show decVector r = _
      simp only [decVector, hr.op]
      simp_all [VSrc.okLen, vxOk, fin2, guardO, decVB, Raw.vMbz, Raw.tyMbz, Raw.vxOpt, Raw.isXb, Raw.vBMbz, Raw.srcB, Raw.vmask, hr.len, hr.vd, hr.va, hr.vb, hr.vc, hr.pv, hr.z, hr.fn3, ht.w1, ht.c, ht.e, ht.pe, ht.ze, ht.ty, ht.tyv, ht.md]
    · injection h with h; subst h
      simp only [encVB, encV, VX.w2, VSrc.vb, VSrc.c, VSrc.md]
      refine Reads.formV (by decide) (by decide) (by decide) ?_ ?_ ?_ ?_ ?_ ?_ ?_ ?_ ?_ ?_ ?_ ?_ ?_
      any_goals first | decide | omega | exact W2.fits_zero | exact VX.fits _ (by omega) (by omega) | exact MX.fits _ (by omega) (by omega) (by omega) | (simp only [W2.fits, FTy.code]; omega) | (simp only [W2.fits]; omega) | (intro q; exact ⟨rfl, rfl⟩) | (intro q; rfl) | (intro q; omega)
      intro r hr ht
      have hx : tyOk f.admits x.ty = true := by simp_all [VSrc.okLen, vxOk]
      show decVector r = _
      simp only [decVector, hr.op]
      simp_all [VSrc.okLen, vxOk, fin2, guardO, decVB, Raw.vxOpt, Raw.isXb, Raw.vBMbz, Raw.srcB, Raw.vmask, hr.len, hr.vd, hr.va, hr.vb, hr.vc, hr.pv, hr.z, hr.fn3, ht.w1, ht.c, ht.md, vx_read hx ht, vMbz_read (by decide) ht]

theorem vfma (neg sub : Bool) (m : VMask) (d a : VReg) (b : VSrc) (c : VReg) (x : Option VX) : Statement (.vfma neg sub m d a b c x) := by
  intro hw r h
  have hw : ((b.okLen x && vxOk Ty.isIF x : Bool)) = true := hw
  have := neg.toNat_lt
  have := sub.toNat_lt
  have := m.z.toNat_lt
  rcases b with b | b
  all_goals
    rcases x with _ | x
    · injection h with h; subst h
      simp only [encVB, encV, VSrc.vb]
      refine Reads.formV (x := {}) (by decide) (by decide) (by decide) ?_ ?_ ?_ ?_ ?_ ?_ ?_ ?_ ?_ ?_ ?_ ?_ ?_
      any_goals first | decide | omega | exact W2.fits_zero | exact VX.fits _ (by omega) (by omega) | exact MX.fits _ (by omega) (by omega) (by omega) | (simp only [W2.fits, FTy.code]; omega) | (simp only [W2.fits]; omega) | (intro q; exact ⟨rfl, rfl⟩) | (intro q; rfl) | (intro q; omega)
      intro r hr ht
      show decVector r = _
      simp only [decVector, hr.op]
      cases neg <;> cases sub <;> simp_all [VSrc.okLen, vxOk, fin2, guardO, Raw.vMbz, Raw.tyMbz, Raw.vxOpt, Raw.isXb, Raw.vBMbz, Raw.srcB, Raw.vmask, hr.len, hr.vd, hr.va, hr.vb, hr.vc, hr.pv, hr.z, hr.fn3, ht.w1, ht.c, ht.e, ht.pe, ht.ze, ht.ty, ht.tyv, ht.md]
    · injection h with h; subst h
      simp only [encVB, encV, VX.w2, VSrc.vb, VSrc.c, VSrc.md]
      refine Reads.formV (by decide) (by decide) (by decide) ?_ ?_ ?_ ?_ ?_ ?_ ?_ ?_ ?_ ?_ ?_ ?_ ?_
      any_goals first | decide | omega | exact W2.fits_zero | exact VX.fits _ (by omega) (by omega) | exact MX.fits _ (by omega) (by omega) (by omega) | (simp only [W2.fits, FTy.code]; omega) | (simp only [W2.fits]; omega) | (intro q; exact ⟨rfl, rfl⟩) | (intro q; rfl) | (intro q; omega)
      intro r hr ht
      have hx : tyOk Ty.isIF x.ty = true := by simp_all [VSrc.okLen, vxOk]
      show decVector r = _
      simp only [decVector, hr.op]
      cases neg <;> cases sub <;> simp_all [VSrc.okLen, vxOk, fin2, guardO, Raw.vxOpt, Raw.isXb, Raw.vBMbz, Raw.srcB, Raw.vmask, hr.len, hr.vd, hr.va, hr.vb, hr.vc, hr.pv, hr.z, hr.fn3, ht.w1, ht.c, ht.md, vx_read hx ht, vMbz_read (by decide) ht]

theorem vminmax (f : VMmFn) (m : VMask) (d a : VReg) (b : VSrc) (x : Option VX) : Statement (.vminmax f m d a b x) := by
  intro hw r h
  have hw : ((b.okLen x && vxOk f.admits x : Bool)) = true := hw
  have := f.code_lt
  have := m.z.toNat_lt
  rcases b with b | b
  all_goals
    rcases x with _ | x
    · injection h with h; subst h
      simp only [encVB, encV, VSrc.vb]
      refine Reads.formV (x := {}) (by decide) (by decide) (by decide) ?_ ?_ ?_ ?_ ?_ ?_ ?_ ?_ ?_ ?_ ?_ ?_ ?_
      any_goals first | decide | omega | exact W2.fits_zero | exact VX.fits _ (by omega) (by omega) | exact MX.fits _ (by omega) (by omega) (by omega) | (simp only [W2.fits, FTy.code]; omega) | (simp only [W2.fits]; omega) | (intro q; exact ⟨rfl, rfl⟩) | (intro q; rfl) | (intro q; omega)
      intro r hr ht
      show decVector r = _
      simp only [decVector, hr.op]
      simp_all [VSrc.okLen, vxOk, fin2, guardO, decVB, Raw.vMbz, Raw.tyMbz, Raw.vxOpt, Raw.isXb, Raw.vBMbz, Raw.srcB, Raw.vmask, hr.len, hr.vd, hr.va, hr.vb, hr.vc, hr.pv, hr.z, hr.fn3, ht.w1, ht.c, ht.e, ht.pe, ht.ze, ht.ty, ht.tyv, ht.md]
    · injection h with h; subst h
      simp only [encVB, encV, VX.w2, VSrc.vb, VSrc.c, VSrc.md]
      refine Reads.formV (by decide) (by decide) (by decide) ?_ ?_ ?_ ?_ ?_ ?_ ?_ ?_ ?_ ?_ ?_ ?_ ?_
      any_goals first | decide | omega | exact W2.fits_zero | exact VX.fits _ (by omega) (by omega) | exact MX.fits _ (by omega) (by omega) (by omega) | (simp only [W2.fits, FTy.code]; omega) | (simp only [W2.fits]; omega) | (intro q; exact ⟨rfl, rfl⟩) | (intro q; rfl) | (intro q; omega)
      intro r hr ht
      have hx : tyOk f.admits x.ty = true := by simp_all [VSrc.okLen, vxOk]
      show decVector r = _
      simp only [decVector, hr.op]
      simp_all [VSrc.okLen, vxOk, fin2, guardO, decVB, Raw.vxOpt, Raw.isXb, Raw.vBMbz, Raw.srcB, Raw.vmask, hr.len, hr.vd, hr.va, hr.vb, hr.vc, hr.pv, hr.z, hr.fn3, ht.w1, ht.c, ht.md, vx_read hx ht, vMbz_read (by decide) ht]

theorem vcmp (f : VCmpFn) (m : VMask) (d a : VReg) (b : VSrc) (x : Option VX) : Statement (.vcmp f m d a b x) := by
  intro hw r h
  have hw : ((b.okLen x && vxOk f.admits x : Bool)) = true := hw
  have := f.code_lt
  have := m.z.toNat_lt
  rcases b with b | b
  all_goals
    rcases x with _ | x
    · injection h with h; subst h
      simp only [encVB, encV, VSrc.vb]
      refine Reads.formV (x := {}) (by decide) (by decide) (by decide) ?_ ?_ ?_ ?_ ?_ ?_ ?_ ?_ ?_ ?_ ?_ ?_ ?_
      any_goals first | decide | omega | exact W2.fits_zero | exact VX.fits _ (by omega) (by omega) | exact MX.fits _ (by omega) (by omega) (by omega) | (simp only [W2.fits, FTy.code]; omega) | (simp only [W2.fits]; omega) | (intro q; exact ⟨rfl, rfl⟩) | (intro q; rfl) | (intro q; omega)
      intro r hr ht
      show decVector r = _
      simp only [decVector, hr.op]
      simp_all [VSrc.okLen, vxOk, fin2, guardO, decVB, Raw.vMbz, Raw.tyMbz, Raw.vxOpt, Raw.isXb, Raw.vBMbz, Raw.srcB, Raw.vmask, hr.len, hr.vd, hr.va, hr.vb, hr.vc, hr.pv, hr.z, hr.fn3, ht.w1, ht.c, ht.e, ht.pe, ht.ze, ht.ty, ht.tyv, ht.md]
    · injection h with h; subst h
      simp only [encVB, encV, VX.w2, VSrc.vb, VSrc.c, VSrc.md]
      refine Reads.formV (by decide) (by decide) (by decide) ?_ ?_ ?_ ?_ ?_ ?_ ?_ ?_ ?_ ?_ ?_ ?_ ?_
      any_goals first | decide | omega | exact W2.fits_zero | exact VX.fits _ (by omega) (by omega) | exact MX.fits _ (by omega) (by omega) (by omega) | (simp only [W2.fits, FTy.code]; omega) | (simp only [W2.fits]; omega) | (intro q; exact ⟨rfl, rfl⟩) | (intro q; rfl) | (intro q; omega)
      intro r hr ht
      have hx : tyOk f.admits x.ty = true := by simp_all [VSrc.okLen, vxOk]
      show decVector r = _
      simp only [decVector, hr.op]
      simp_all [VSrc.okLen, vxOk, fin2, guardO, decVB, Raw.vxOpt, Raw.isXb, Raw.vBMbz, Raw.srcB, Raw.vmask, hr.len, hr.vd, hr.va, hr.vb, hr.vc, hr.pv, hr.z, hr.fn3, ht.w1, ht.c, ht.md, vx_read hx ht, vMbz_read (by decide) ht]

theorem vsel (m : VMask) (d a b c : VReg) : Statement (.vsel m d a b c) := by
  intro hw r h
  have := m.z.toNat_lt
  injection h with h; subst h
  simp only [encV]
  refine Reads.formV (x := {}) (by decide) (by decide) (by decide) ?_ ?_ ?_ ?_ ?_ ?_ ?_ ?_ ?_ ?_ ?_ ?_ ?_
  any_goals first | decide | omega | exact W2.fits_zero | exact VX.fits _ (by omega) (by omega) | exact MX.fits _ (by omega) (by omega) (by omega) | (simp only [W2.fits, FTy.code]; omega) | (simp only [W2.fits]; omega) | (intro q; exact ⟨rfl, rfl⟩) | (intro q; rfl) | (intro q; omega)
  intro r hr ht
  show decVector r = _
  simp only [decVector, hr.op]
  simp [fin2, guardO, Raw.vmask, hr.vd, hr.va, hr.vb, hr.vc, hr.pv, hr.z, hr.fn3]

theorem vcvt (f : VSat) (m : VMask) (d a : VReg) (src : Ty) (x : VX) : Statement (.vcvt f m d a src x) := by
  intro hw r h
  have hw : ((src.isElem && (f = .plain || src.isInt) && tyOk (f.admitsCvt src) x.ty : Bool)) = true := hw
  have := f.code_lt
  have := m.z.toNat_lt
  have := src.code_lt
  injection h with h; subst h
  simp only [encV, VX.w2]
  refine Reads.formV (by decide) (by decide) (by decide) ?_ ?_ ?_ ?_ ?_ ?_ ?_ ?_ ?_ ?_ ?_ ?_ ?_
  any_goals first | decide | omega | exact W2.fits_zero | exact VX.fits _ (by omega) (by omega) | exact MX.fits _ (by omega) (by omega) (by omega) | (simp only [W2.fits, FTy.code]; omega) | (simp only [W2.fits]; omega) | (intro q; exact ⟨rfl, rfl⟩) | (intro q; rfl) | (intro q; omega)
  intro r hr ht
  have e1 : Ty.ofCode (src.code % 32) = some src := by rw [show src.code % 32 = src.code by omega]; exact src.ofCode_code
  have hx : tyOk (f.admitsCvt src) x.ty = true := by simp_all
  show decVector r = _
  simp only [decVector, hr.op]
  (simp only [hr.fn3, ht.w1, e1, VSat.ofCode_code]) <;> simp_all [fin2, guardO, Raw.vmask, hr.vd, hr.va, hr.vb, hr.vc, hr.pv, hr.z, ht.c, ht.md, vx_read hx ht, vMbz_read (by decide) ht]

theorem vlog (f : VLogFn) (m : VMask) (d a b : VReg) : Statement (.vlog f m d a b) := by
  intro hw r h
  have hw : ((!(f = .not) || b = 0 : Bool)) = true := hw
  have := f.code_lt
  have := m.z.toNat_lt
  injection h with h; subst h
  simp only [encV]
  refine Reads.formV (x := {}) (by decide) (by decide) (by decide) ?_ ?_ ?_ ?_ ?_ ?_ ?_ ?_ ?_ ?_ ?_ ?_ ?_
  any_goals first | decide | omega | exact W2.fits_zero | exact VX.fits _ (by omega) (by omega) | exact MX.fits _ (by omega) (by omega) (by omega) | (simp only [W2.fits, FTy.code]; omega) | (simp only [W2.fits]; omega) | (intro q; exact ⟨rfl, rfl⟩) | (intro q; rfl) | (intro q; omega)
  intro r hr ht
  show decVector r = _
  simp only [decVector, hr.op]
  simp_all [fin2, Raw.vmask, hr.vd, hr.va, hr.vb, hr.vc, hr.pv, hr.z, hr.fn3]

theorem vshf (f : VShfFn) (m : VMask) (d a : VReg) (b : VAmt) (x : Option VX) : Statement (.vshf f m d a b x) := by
  intro hw r h
  have hw : ((b.ok x && vxOk Ty.isInt x : Bool)) = true := hw
  have := f.code_lt
  have := m.z.toNat_lt
  rcases b with b | b | b
  all_goals
    rcases x with _ | x
    · injection h with h; subst h
      simp only [encVB, encV, VSrc.vb]
      refine Reads.formV (x := {}) (by decide) (by decide) (by decide) ?_ ?_ ?_ ?_ ?_ ?_ ?_ ?_ ?_ ?_ ?_ ?_ ?_
      any_goals first | decide | omega | exact W2.fits_zero | exact VX.fits _ (by omega) (by omega) | exact MX.fits _ (by omega) (by omega) (by omega) | (simp only [W2.fits, FTy.code]; omega) | (simp only [W2.fits]; omega) | (intro q; exact ⟨rfl, rfl⟩) | (intro q; rfl) | (intro q; omega)
      intro r hr ht
      show decVector r = _
      simp only [decVector, hr.op]
      simp_all [VAmt.ok, vxOk, fin2, Raw.vMbz, Raw.tyMbz, Raw.vxOpt, Raw.isXb, Raw.vBMbz, Raw.vmask, hr.len, hr.vd, hr.va, hr.vb, hr.vc, hr.pv, hr.z, hr.fn3, ht.w1, ht.c, ht.e, ht.pe, ht.ze, ht.ty, ht.tyv, ht.md]
    · injection h with h; subst h
      simp only [encVB, encV, VX.w2, VSrc.vb, VSrc.c, VSrc.md]
      refine Reads.formV (by decide) (by decide) (by decide) ?_ ?_ ?_ ?_ ?_ ?_ ?_ ?_ ?_ ?_ ?_ ?_ ?_
      any_goals first | decide | omega | exact W2.fits_zero | exact VX.fits _ (by omega) (by omega) | exact MX.fits _ (by omega) (by omega) (by omega) | (simp only [W2.fits, FTy.code]; omega) | (simp only [W2.fits]; omega) | (intro q; exact ⟨rfl, rfl⟩) | (intro q; rfl) | (intro q; omega)
      intro r hr ht
      have hx : tyOk Ty.isInt x.ty = true := by simp_all [VAmt.ok, vxOk]
      show decVector r = _
      simp only [decVector, hr.op]
      simp_all [VAmt.ok, vxOk, fin2, guardO, Raw.vxOpt, Raw.isXb, Raw.vBMbz, Raw.vmask, hr.len, hr.vd, hr.va, hr.vb, hr.vc, hr.pv, hr.z, hr.fn3, ht.w1, ht.c, ht.md, vx_read hx ht, vMbz_read (by decide) ht]

theorem vsfu (f : VSfuFn) (m : VMask) (d a : VReg) (x : Option VX) : Statement (.vsfu f m d a x) := by
  intro hw r h
  have hw : ((vxOk Ty.isFloat x : Bool)) = true := hw
  have := f.code_lt
  have := m.z.toNat_lt
  rcases x with _ | x
  · injection h with h; subst h
    simp only [encV]
    refine Reads.formV (x := {}) (by decide) (by decide) (by decide) ?_ ?_ ?_ ?_ ?_ ?_ ?_ ?_ ?_ ?_ ?_ ?_ ?_
    any_goals first | decide | omega | exact W2.fits_zero | exact VX.fits _ (by omega) (by omega) | exact MX.fits _ (by omega) (by omega) (by omega) | (simp only [W2.fits, FTy.code]; omega) | (simp only [W2.fits]; omega) | (intro q; exact ⟨rfl, rfl⟩) | (intro q; rfl) | (intro q; omega)
    intro r hr ht
    show decVector r = _
    simp only [decVector, hr.op]
    simp_all [vxOk, fin2, guardO, decV1, Raw.vMbz, Raw.tyMbz, Raw.vxOpt, Raw.vPlainMbz, Raw.vNoMod, Raw.vmask, hr.len, hr.vd, hr.va, hr.vb, hr.vc, hr.pv, hr.z, hr.fn3, ht.w1, ht.c, ht.e, ht.pe, ht.ze, ht.ty, ht.tyv, ht.md]
  · injection h with h; subst h
    simp only [encV, VX.w2]
    refine Reads.formV (by decide) (by decide) (by decide) ?_ ?_ ?_ ?_ ?_ ?_ ?_ ?_ ?_ ?_ ?_ ?_ ?_
    any_goals first | decide | omega | exact W2.fits_zero | exact VX.fits _ (by omega) (by omega) | exact MX.fits _ (by omega) (by omega) (by omega) | (simp only [W2.fits, FTy.code]; omega) | (simp only [W2.fits]; omega) | (intro q; exact ⟨rfl, rfl⟩) | (intro q; rfl) | (intro q; omega)
    intro r hr ht
    have hx : tyOk Ty.isFloat x.ty = true := by simp_all [vxOk]
    show decVector r = _
    simp only [decVector, hr.op]
    simp_all [vxOk, fin2, guardO, decV1, Raw.vxOpt, Raw.vPlainMbz, Raw.vNoMod, Raw.vmask, hr.len, hr.vd, hr.va, hr.vb, hr.vc, hr.pv, hr.z, hr.fn3, ht.w1, ht.c, ht.md, vx_read hx ht, vMbz_read (by decide) ht]

theorem vred (f : VRedFn) (m : VMask) (d a : VReg) (x : Option VX) : Statement (.vred f m d a x) := by
  intro hw r h
  have hw : ((!(f.isCol && m.z) && vxOk Ty.isIF x : Bool)) = true := hw
  have := f.code_lt
  have := m.z.toNat_lt
  rcases x with _ | x
  · injection h with h; subst h
    simp only [encV]
    refine Reads.formV (x := {}) (by decide) (by decide) (by decide) ?_ ?_ ?_ ?_ ?_ ?_ ?_ ?_ ?_ ?_ ?_ ?_ ?_
    any_goals first | decide | omega | exact W2.fits_zero | exact VX.fits _ (by omega) (by omega) | exact MX.fits _ (by omega) (by omega) (by omega) | (simp only [W2.fits, FTy.code]; omega) | (simp only [W2.fits]; omega) | (intro q; exact ⟨rfl, rfl⟩) | (intro q; rfl) | (intro q; omega)
    intro r hr ht
    show decVector r = _
    simp only [decVector, hr.op]
    simp_all [vxOk, fin2, guardO, Raw.vMbz, Raw.tyMbz, Raw.vxOpt, Raw.vPlainMbz, Raw.vNoMod, Raw.vmask, hr.len, hr.vd, hr.va, hr.vb, hr.vc, hr.pv, hr.z, hr.fn3, ht.w1, ht.c, ht.e, ht.pe, ht.ze, ht.ty, ht.tyv, ht.md]
  · injection h with h; subst h
    simp only [encV, VX.w2]
    refine Reads.formV (by decide) (by decide) (by decide) ?_ ?_ ?_ ?_ ?_ ?_ ?_ ?_ ?_ ?_ ?_ ?_ ?_
    any_goals first | decide | omega | exact W2.fits_zero | exact VX.fits _ (by omega) (by omega) | exact MX.fits _ (by omega) (by omega) (by omega) | (simp only [W2.fits, FTy.code]; omega) | (simp only [W2.fits]; omega) | (intro q; exact ⟨rfl, rfl⟩) | (intro q; rfl) | (intro q; omega)
    intro r hr ht
    have hx : tyOk Ty.isIF x.ty = true := by simp_all [vxOk]
    show decVector r = _
    simp only [decVector, hr.op]
    simp_all [vxOk, fin2, guardO, Raw.vxOpt, Raw.vPlainMbz, Raw.vNoMod, Raw.vmask, hr.len, hr.vd, hr.va, hr.vb, hr.vc, hr.pv, hr.z, hr.fn3, ht.w1, ht.c, ht.md, vx_read hx ht, vMbz_read (by decide) ht]

theorem vscan (f : VScanFn) (m : VMask) (d a : VReg) (x : Option VX) : Statement (.vscan f m d a x) := by
  intro hw r h
  have hw : ((vxOk Ty.isIF x : Bool)) = true := hw
  have := f.code_lt
  have := m.z.toNat_lt
  rcases x with _ | x
  · injection h with h; subst h
    simp only [encV]
    refine Reads.formV (x := {}) (by decide) (by decide) (by decide) ?_ ?_ ?_ ?_ ?_ ?_ ?_ ?_ ?_ ?_ ?_ ?_ ?_
    any_goals first | decide | omega | exact W2.fits_zero | exact VX.fits _ (by omega) (by omega) | exact MX.fits _ (by omega) (by omega) (by omega) | (simp only [W2.fits, FTy.code]; omega) | (simp only [W2.fits]; omega) | (intro q; exact ⟨rfl, rfl⟩) | (intro q; rfl) | (intro q; omega)
    intro r hr ht
    show decVector r = _
    simp only [decVector, hr.op]
    simp_all [vxOk, fin2, guardO, decV1, Raw.vMbz, Raw.tyMbz, Raw.vxOpt, Raw.vPlainMbz, Raw.vNoMod, Raw.vmask, hr.len, hr.vd, hr.va, hr.vb, hr.vc, hr.pv, hr.z, hr.fn3, ht.w1, ht.c, ht.e, ht.pe, ht.ze, ht.ty, ht.tyv, ht.md]
  · injection h with h; subst h
    simp only [encV, VX.w2]
    refine Reads.formV (by decide) (by decide) (by decide) ?_ ?_ ?_ ?_ ?_ ?_ ?_ ?_ ?_ ?_ ?_ ?_ ?_
    any_goals first | decide | omega | exact W2.fits_zero | exact VX.fits _ (by omega) (by omega) | exact MX.fits _ (by omega) (by omega) (by omega) | (simp only [W2.fits, FTy.code]; omega) | (simp only [W2.fits]; omega) | (intro q; exact ⟨rfl, rfl⟩) | (intro q; rfl) | (intro q; omega)
    intro r hr ht
    have hx : tyOk Ty.isIF x.ty = true := by simp_all [vxOk]
    show decVector r = _
    simp only [decVector, hr.op]
    simp_all [vxOk, fin2, guardO, decV1, Raw.vxOpt, Raw.vPlainMbz, Raw.vNoMod, Raw.vmask, hr.len, hr.vd, hr.va, hr.vb, hr.vc, hr.pv, hr.z, hr.fn3, ht.w1, ht.c, ht.md, vx_read hx ht, vMbz_read (by decide) ht]

theorem vperm (m : VMask) (d a b : VReg) (x : Option VX) : Statement (.vperm m d a b x) := by
  intro hw r h
  have hw : ((vxOk Ty.isElem x : Bool)) = true := hw
  have := m.z.toNat_lt
  rcases x with _ | x
  · injection h with h; subst h
    simp only [encV]
    refine Reads.formV (x := {}) (by decide) (by decide) (by decide) ?_ ?_ ?_ ?_ ?_ ?_ ?_ ?_ ?_ ?_ ?_ ?_ ?_
    any_goals first | decide | omega | exact W2.fits_zero | exact VX.fits _ (by omega) (by omega) | exact MX.fits _ (by omega) (by omega) (by omega) | (simp only [W2.fits, FTy.code]; omega) | (simp only [W2.fits]; omega) | (intro q; exact ⟨rfl, rfl⟩) | (intro q; rfl) | (intro q; omega)
    intro r hr ht
    show decVector r = _
    simp only [decVector, hr.op]
    simp_all [vxOk, fin2, guardO, Raw.vMbz, Raw.tyMbz, Raw.vxOpt, Raw.vPlainMbz, Raw.vNoMod, Raw.vmask, hr.len, hr.vd, hr.va, hr.vb, hr.vc, hr.pv, hr.z, hr.fn3, ht.w1, ht.c, ht.e, ht.pe, ht.ze, ht.ty, ht.tyv, ht.md]
  · injection h with h; subst h
    simp only [encV, VX.w2]
    refine Reads.formV (by decide) (by decide) (by decide) ?_ ?_ ?_ ?_ ?_ ?_ ?_ ?_ ?_ ?_ ?_ ?_ ?_
    any_goals first | decide | omega | exact W2.fits_zero | exact VX.fits _ (by omega) (by omega) | exact MX.fits _ (by omega) (by omega) (by omega) | (simp only [W2.fits, FTy.code]; omega) | (simp only [W2.fits]; omega) | (intro q; exact ⟨rfl, rfl⟩) | (intro q; rfl) | (intro q; omega)
    intro r hr ht
    have hx : tyOk Ty.isElem x.ty = true := by simp_all [vxOk]
    show decVector r = _
    simp only [decVector, hr.op]
    simp_all [vxOk, fin2, guardO, Raw.vxOpt, Raw.vPlainMbz, Raw.vNoMod, Raw.vmask, hr.len, hr.vd, hr.va, hr.vb, hr.vc, hr.pv, hr.z, hr.fn3, ht.w1, ht.c, ht.md, vx_read hx ht, vMbz_read (by decide) ht]

theorem vpermTr (d a : VReg) (x : Option VX) : Statement (.vpermTr d a x) := by
  intro hw r h
  have hw : ((vxOk Ty.isElem x : Bool)) = true := hw
  rcases x with _ | x
  · injection h with h; subst h
    simp only [encV]
    refine Reads.formV (x := {}) (by decide) (by decide) (by decide) ?_ ?_ ?_ ?_ ?_ ?_ ?_ ?_ ?_ ?_ ?_ ?_ ?_
    any_goals first | decide | omega | exact W2.fits_zero | exact VX.fits _ (by omega) (by omega) | exact MX.fits _ (by omega) (by omega) (by omega) | (simp only [W2.fits, FTy.code]; omega) | (simp only [W2.fits]; omega) | (intro q; exact ⟨rfl, rfl⟩) | (intro q; rfl) | (intro q; omega)
    intro r hr ht
    show decVector r = _
    simp only [decVector, hr.op]
    simp_all [vxOk, fin2, guardO, Raw.vMbz, Raw.tyMbz, Raw.vxOpt, Raw.vPlainMbz, Raw.vNoMod, hr.len, hr.vd, hr.va, hr.vb, hr.vc, hr.pv, hr.z, hr.fn3, ht.w1, ht.c, ht.e, ht.pe, ht.ze, ht.ty, ht.tyv, ht.md]
  · injection h with h; subst h
    simp only [encV, VX.w2]
    refine Reads.formV (by decide) (by decide) (by decide) ?_ ?_ ?_ ?_ ?_ ?_ ?_ ?_ ?_ ?_ ?_ ?_ ?_
    any_goals first | decide | omega | exact W2.fits_zero | exact VX.fits _ (by omega) (by omega) | exact MX.fits _ (by omega) (by omega) (by omega) | (simp only [W2.fits, FTy.code]; omega) | (simp only [W2.fits]; omega) | (intro q; exact ⟨rfl, rfl⟩) | (intro q; rfl) | (intro q; omega)
    intro r hr ht
    have hx : tyOk Ty.isElem x.ty = true := by simp_all [vxOk]
    show decVector r = _
    simp only [decVector, hr.op]
    simp_all [vxOk, fin2, guardO, Raw.vxOpt, Raw.vPlainMbz, Raw.vNoMod, hr.len, hr.vd, hr.va, hr.vb, hr.vc, hr.pv, hr.z, hr.fn3, ht.w1, ht.c, ht.md, vx_read hx ht, vMbz_read (by decide) ht]

theorem viota (f : VIotaFn) (m : VMask) (d : VReg) (start : BitVec 32) (x : Option VX) : Statement (.viota f m d start x) := by
  intro hw r h
  have hw : (((x.isSome || start = 0) && vxOk Ty.isInt x : Bool)) = true := hw
  have := f.code_lt
  have := m.z.toNat_lt
  rcases x with _ | x
  · injection h with h; subst h
    simp only [encV]
    refine Reads.formV (x := {}) (by decide) (by decide) (by decide) ?_ ?_ ?_ ?_ ?_ ?_ ?_ ?_ ?_ ?_ ?_ ?_ ?_
    any_goals first | decide | omega | exact W2.fits_zero | exact VX.fits _ (by omega) (by omega) | exact MX.fits _ (by omega) (by omega) (by omega) | (simp only [W2.fits, FTy.code]; omega) | (simp only [W2.fits]; omega) | (intro q; exact ⟨rfl, rfl⟩) | (intro q; rfl) | (intro q; omega)
    intro r hr ht
    show decVector r = _
    simp only [decVector, hr.op]
    simp_all [vxOk, fin2, guardO, Raw.vMbz, Raw.tyMbz, Raw.vxOpt, Raw.vNoMod, Raw.vmask, hr.len, hr.vd, hr.va, hr.vb, hr.vc, hr.pv, hr.z, hr.fn3, ht.c, ht.e, ht.pe, ht.ze, ht.ty, ht.tyv, ht.md]
  · injection h with h; subst h
    simp only [encV, VX.w2]
    refine Reads.formV (by decide) (by decide) (by decide) ?_ ?_ ?_ ?_ ?_ ?_ ?_ ?_ ?_ ?_ ?_ ?_ ?_
    any_goals first | decide | omega | exact W2.fits_zero | exact VX.fits _ (by omega) (by omega) | exact MX.fits _ (by omega) (by omega) (by omega) | (simp only [W2.fits, FTy.code]; omega) | (simp only [W2.fits]; omega) | (intro q; exact ⟨rfl, rfl⟩) | (intro q; rfl) | (intro q; omega)
    intro r hr ht
    have hx : tyOk Ty.isInt x.ty = true := by simp_all [vxOk]
    show decVector r = _
    simp only [decVector, hr.op]
    simp_all [vxOk, fin2, guardO, Raw.vxOpt, Raw.vNoMod, Raw.vmask, hr.len, hr.vd, hr.va, hr.vb, hr.vc, hr.pv, hr.z, hr.fn3, ht.w1, ht.c, ht.md, vx_read hx ht, vMbz_read (by decide) ht]

theorem vmov (f : VMovFn) (m : VMask) (d a : VReg) (x : Option VX) : Statement (.vmov f m d a x) := by
  intro hw r h
  have hw : ((vxOk Ty.isElem x : Bool)) = true := hw
  have := f.code_lt
  have := m.z.toNat_lt
  rcases x with _ | x
  · injection h with h; subst h
    simp only [encV]
    refine Reads.formV (x := {}) (by decide) (by decide) (by decide) ?_ ?_ ?_ ?_ ?_ ?_ ?_ ?_ ?_ ?_ ?_ ?_ ?_
    any_goals first | decide | omega | exact W2.fits_zero | exact VX.fits _ (by omega) (by omega) | exact MX.fits _ (by omega) (by omega) (by omega) | (simp only [W2.fits, FTy.code]; omega) | (simp only [W2.fits]; omega) | (intro q; exact ⟨rfl, rfl⟩) | (intro q; rfl) | (intro q; omega)
    intro r hr ht
    show decVector r = _
    simp only [decVector, hr.op]
    cases f <;> simp_all [vxOk, fin2, guardO, decV1, Raw.vMbz, Raw.tyMbz, Raw.vxOpt, Raw.vPlainMbz, Raw.vNoMod, Raw.vmask, hr.len, hr.vd, hr.va, hr.vb, hr.vc, hr.pv, hr.z, hr.fn3, ht.w1, ht.c, ht.e, ht.pe, ht.ze, ht.ty, ht.tyv, ht.md, VMovFn.code]
  · injection h with h; subst h
    simp only [encV, VX.w2]
    refine Reads.formV (by decide) (by decide) (by decide) ?_ ?_ ?_ ?_ ?_ ?_ ?_ ?_ ?_ ?_ ?_ ?_ ?_
    any_goals first | decide | omega | exact W2.fits_zero | exact VX.fits _ (by omega) (by omega) | exact MX.fits _ (by omega) (by omega) (by omega) | (simp only [W2.fits, FTy.code]; omega) | (simp only [W2.fits]; omega) | (intro q; exact ⟨rfl, rfl⟩) | (intro q; rfl) | (intro q; omega)
    intro r hr ht
    have hx : tyOk Ty.isElem x.ty = true := by simp_all [vxOk]
    show decVector r = _
    simp only [decVector, hr.op]
    cases f <;> simp_all [vxOk, fin2, guardO, decV1, Raw.vxOpt, Raw.vPlainMbz, Raw.vNoMod, Raw.vmask, hr.len, hr.vd, hr.va, hr.vb, hr.vc, hr.pv, hr.z, hr.fn3, ht.w1, ht.c, ht.md, vx_read hx ht, vMbz_read (by decide) ht, VMovFn.code]

theorem vmovScalar (m : VMask) (d : VReg) (c : XReg) (x : VX) : Statement (.vmovScalar m d c x) := by
  intro hw r h
  have hw : ((tyOk Ty.isElem x.ty : Bool)) = true := hw
  have := m.z.toNat_lt
  injection h with h; subst h
  simp only [encV, VX.w2]
  refine Reads.formV (by decide) (by decide) (by decide) ?_ ?_ ?_ ?_ ?_ ?_ ?_ ?_ ?_ ?_ ?_ ?_ ?_
  any_goals first | decide | omega | exact W2.fits_zero | exact VX.fits _ (by omega) (by omega) | exact MX.fits _ (by omega) (by omega) (by omega) | (simp only [W2.fits, FTy.code]; omega) | (simp only [W2.fits]; omega) | (intro q; exact ⟨rfl, rfl⟩) | (intro q; rfl) | (intro q; omega)
  intro r hr ht
  have hx : tyOk Ty.isElem x.ty = true := by simp_all
  show decVector r = _
  simp only [decVector, hr.op]
  simp_all [fin2, guardO, Raw.vmask, hr.len, hr.vd, hr.va, hr.vb, hr.vc, hr.pv, hr.z, hr.fn3, ht.w1, ht.c, ht.md, vx_read hx ht, vMbz_read (by decide) ht]

theorem vmovLiteral (m : VMask) (d : VReg) (v : Word) (x : VX) : Statement (.vmovLiteral m d v x) := by
  intro hw r h
  have hw : ((tyOk Ty.isElem x.ty : Bool)) = true := hw
  have := m.z.toNat_lt
  injection h with h; subst h
  simp only [VX.w2]
  refine Reads.formV (by decide) (by decide) (by decide) ?_ ?_ ?_ ?_ ?_ ?_ ?_ ?_ ?_ ?_ ?_ ?_ ?_
  any_goals first | decide | omega | exact W2.fits_zero | exact VX.fits _ (by omega) (by omega) | exact MX.fits _ (by omega) (by omega) (by omega) | (simp only [W2.fits, FTy.code]; omega) | (simp only [W2.fits]; omega) | (intro q; exact ⟨rfl, rfl⟩) | (intro q; rfl) | (intro q; omega)
  intro r hr ht
  have hx : tyOk Ty.isElem x.ty = true := by simp_all
  show decVector r = _
  simp only [decVector, hr.op]
  simp_all [fin2, guardO, Raw.vmask, hr.len, hr.vd, hr.va, hr.vb, hr.vc, hr.pv, hr.z, hr.fn3, ht.w1, ht.lit, ht.c, ht.md, vx_read hx ht, vMbz_read (by decide) ht]

theorem vshape (rows : Fin 32) (cols : Fin 2048) (ty : Ty) : Statement (.vshape rows cols ty) := by
  intro hw r h
  have hw : ((ty.isElem : Bool)) = true := hw
  have := ty.code_lt
  injection h with h; subst h
  refine Reads.formI (x := {}) (by decide) (by decide) (by decide) ?_ ?_ ?_ ?_ ?_ ?_ ?_ ?_ ?_
  any_goals first | decide | omega | exact W2.fits_zero | exact VX.fits _ (by omega) (by omega) | exact MX.fits _ (by omega) (by omega) (by omega) | (simp only [W2.fits, FTy.code]; omega) | (simp only [W2.fits]; omega) | (intro q; exact ⟨rfl, rfl⟩) | (intro q; rfl) | (intro q; omega)
  intro r hr ht
  show decTiles r = _
  simp only [decTiles, hr.op]
  simp_all [fin2, guardO, hr.d, hr.a, hr.imm11]

theorem vld (d : VReg) (m : MAddr) (x : Option MX) : Statement (.vld d m x) := by
  intro hw r h
  have hw : ((mxOk false x : Bool)) = true := hw
  have := m.x_lt
  have := m.hi_lt
  rcases x with _ | x
  · injection h with h; subst h
    simp only [encTile]
    refine Reads.formM (x := {}) (by decide) (by decide) (by decide) ?_ ?_ ?_ ?_ ?_ ?_ ?_ ?_ ?_ ?_ ?_
    any_goals first | decide | omega | exact W2.fits_zero | exact VX.fits _ (by omega) (by omega) | exact MX.fits _ (by omega) (by omega) (by omega) | (simp only [W2.fits, FTy.code]; omega) | (simp only [W2.fits]; omega) | (intro q; exact ⟨rfl, rfl⟩) | (intro q; rfl) | (intro q; omega)
    intro r hr ht
    show decTiles r = _
    simp only [decTiles, hr.op]
    simp_all [mxOk, fin2, guardO, decTile, Raw.tyMbz, Raw.mxOpt, hr.len, hr.d, hr.sz, ht.c, ht.e, ht.ze, ht.ty, ht.tyv, ht.rm, ht.md, addr_read (m := m) hr.a hr.x hr.hi8]
  · injection h with h; subst h
    simp only [encTile, MX.w2]
    refine Reads.formM (by decide) (by decide) (by decide) ?_ ?_ ?_ ?_ ?_ ?_ ?_ ?_ ?_ ?_ ?_
    any_goals first | decide | omega | exact W2.fits_zero | exact VX.fits _ (by omega) (by omega) | exact MX.fits _ (by omega) (by omega) (by omega) | (simp only [W2.fits, FTy.code]; omega) | (simp only [W2.fits]; omega) | (intro q; exact ⟨rfl, rfl⟩) | (intro q; rfl) | (intro q; omega)
    intro r hr ht
    have hx : tyOk Ty.isElem x.ty = true := by simp_all [mxOk]
    show decTiles r = _
    simp only [decTiles, hr.op]
    simp_all [mxOk, fin2, guardO, decTile, Raw.mxOpt, hr.len, hr.d, hr.sz, ht.c, ht.e, ht.ze, ht.rm, ht.md, addr_read (m := m) hr.a hr.x hr.hi8, mx_read hx ht, tyMbz_read ht.ty ht.tyv]

theorem vldShaped (d : VReg) (a c e : XReg) (x : MX) : Statement (.vldShaped d a c e x) := by
  intro hw r h
  have hw : ((tyOk Ty.isElem x.ty : Bool)) = true := hw
  injection h with h; subst h
  simp only [MX.w2]
  refine Reads.formM (by decide) (by decide) (by decide) ?_ ?_ ?_ ?_ ?_ ?_ ?_ ?_ ?_ ?_ ?_
  any_goals first | decide | omega | exact W2.fits_zero | exact VX.fits _ (by omega) (by omega) | exact MX.fits _ (by omega) (by omega) (by omega) | (simp only [W2.fits, FTy.code]; omega) | (simp only [W2.fits]; omega) | (intro q; exact ⟨rfl, rfl⟩) | (intro q; rfl) | (intro q; omega)
  intro r hr ht
  have hx : tyOk Ty.isElem x.ty = true := by simp_all
  show decTiles r = _
  simp only [decTiles, hr.op]
  simp_all [fin2, guardO, decTile, hr.len, hr.d, hr.a, hr.sz, hr.x, hr.hi8, ht.c, ht.e, ht.ze, ht.rm, ht.md, mx_read hx ht, tyMbz_read ht.ty ht.tyv]

theorem vst (m : MAddr) (d : VReg) (x : Option MX) : Statement (.vst m d x) := by
  intro hw r h
  have hw : ((mxOk true x : Bool)) = true := hw
  have := m.x_lt
  have := m.hi_lt
  rcases x with _ | x
  · injection h with h; subst h
    simp only [encTile]
    refine Reads.formM (x := {}) (by decide) (by decide) (by decide) ?_ ?_ ?_ ?_ ?_ ?_ ?_ ?_ ?_ ?_ ?_
    any_goals first | decide | omega | exact W2.fits_zero | exact VX.fits _ (by omega) (by omega) | exact MX.fits _ (by omega) (by omega) (by omega) | (simp only [W2.fits, FTy.code]; omega) | (simp only [W2.fits]; omega) | (intro q; exact ⟨rfl, rfl⟩) | (intro q; rfl) | (intro q; omega)
    intro r hr ht
    show decTiles r = _
    simp only [decTiles, hr.op]
    simp_all [mxOk, fin2, guardO, decTile, Raw.tyMbz, Raw.mxOpt, hr.len, hr.d, hr.sz, ht.c, ht.e, ht.ze, ht.ty, ht.tyv, ht.rm, ht.md, addr_read (m := m) hr.a hr.x hr.hi8]
  · injection h with h; subst h
    simp only [encTile, MX.w2]
    refine Reads.formM (by decide) (by decide) (by decide) ?_ ?_ ?_ ?_ ?_ ?_ ?_ ?_ ?_ ?_ ?_
    any_goals first | decide | omega | exact W2.fits_zero | exact VX.fits _ (by omega) (by omega) | exact MX.fits _ (by omega) (by omega) (by omega) | (simp only [W2.fits, FTy.code]; omega) | (simp only [W2.fits]; omega) | (intro q; exact ⟨rfl, rfl⟩) | (intro q; rfl) | (intro q; omega)
    intro r hr ht
    have hx : tyOk Ty.isElem x.ty = true := by simp_all [mxOk]
    show decTiles r = _
    simp only [decTiles, hr.op]
    simp_all [mxOk, fin2, guardO, decTile, Raw.mxOpt, hr.len, hr.d, hr.sz, ht.c, ht.e, ht.ze, ht.rm, ht.md, addr_read (m := m) hr.a hr.x hr.hi8, mx_read hx ht, tyMbz_read ht.ty ht.tyv]

theorem vstShaped (a c e : XReg) (d : VReg) (x : MX) : Statement (.vstShaped a c e d x) := by
  intro hw r h
  have hw : ((tyOk Ty.isElem x.ty && !x.m.z : Bool)) = true := hw
  injection h with h; subst h
  simp only [MX.w2]
  refine Reads.formM (by decide) (by decide) (by decide) ?_ ?_ ?_ ?_ ?_ ?_ ?_ ?_ ?_ ?_ ?_
  any_goals first | decide | omega | exact W2.fits_zero | exact VX.fits _ (by omega) (by omega) | exact MX.fits _ (by omega) (by omega) (by omega) | (simp only [W2.fits, FTy.code]; omega) | (simp only [W2.fits]; omega) | (intro q; exact ⟨rfl, rfl⟩) | (intro q; rfl) | (intro q; omega)
  intro r hr ht
  have hx : tyOk Ty.isElem x.ty = true := by simp_all
  show decTiles r = _
  simp only [decTiles, hr.op]
  simp_all [fin2, guardO, decTile, hr.len, hr.d, hr.a, hr.sz, hr.x, hr.hi8, ht.c, ht.e, ht.ze, ht.rm, ht.md, mx_read hx ht, tyMbz_read ht.ty ht.tyv]

theorem vldf (keep : Bool) (d : VReg) (m : MAddr) (x : Option MX) : Statement (.vldf keep d m x) := by
  intro hw r h
  have hw : ((mxOk false x : Bool)) = true := hw
  have := keep.toNat_lt
  have := m.x_lt
  have := m.hi_lt
  rcases x with _ | x
  · injection h with h; subst h
    simp only [encTile]
    refine Reads.formM (x := {}) (by decide) (by decide) (by decide) ?_ ?_ ?_ ?_ ?_ ?_ ?_ ?_ ?_ ?_ ?_
    any_goals first | decide | omega | exact W2.fits_zero | exact VX.fits _ (by omega) (by omega) | exact MX.fits _ (by omega) (by omega) (by omega) | (simp only [W2.fits, FTy.code]; omega) | (simp only [W2.fits]; omega) | (intro q; exact ⟨rfl, rfl⟩) | (intro q; rfl) | (intro q; omega)
    intro r hr ht
    show decTiles r = _
    simp only [decTiles, hr.op]
    cases keep <;> simp_all [bitCode, mxOk, fin2, guardO, Raw.tyMbz, Raw.mxOpt, hr.len, hr.d, hr.sz, ht.c, ht.e, ht.ty, ht.tyv, ht.rm, ht.md, addr_read (m := m) hr.a hr.x hr.hi8]
  · injection h with h; subst h
    simp only [encTile, MX.w2]
    refine Reads.formM (by decide) (by decide) (by decide) ?_ ?_ ?_ ?_ ?_ ?_ ?_ ?_ ?_ ?_ ?_
    any_goals first | decide | omega | exact W2.fits_zero | exact VX.fits _ (by omega) (by omega) | exact MX.fits _ (by omega) (by omega) (by omega) | (simp only [W2.fits, FTy.code]; omega) | (simp only [W2.fits]; omega) | (intro q; exact ⟨rfl, rfl⟩) | (intro q; rfl) | (intro q; omega)
    intro r hr ht
    have hx : tyOk Ty.isElem x.ty = true := by simp_all [mxOk]
    show decTiles r = _
    simp only [decTiles, hr.op]
    cases keep <;> simp_all [bitCode, mxOk, fin2, guardO, Raw.mxOpt, hr.len, hr.d, hr.sz, ht.c, ht.e, ht.rm, ht.md, addr_read (m := m) hr.a hr.x hr.hi8, mx_read hx ht, tyMbz_read ht.ty ht.tyv]

theorem vldx (d : VReg) (a : XReg) (b : VReg) (m : VMask) (ty : Option Ty) : Statement (.vldx d a b m ty) := by
  intro hw r h
  have hw : ((tyOk Ty.isElem ty : Bool)) = true := hw
  have := m.z.toNat_lt
  have := tyCode_lt ty
  have := ty.isSome.toNat_lt
  injection h with h; subst h
  refine Reads.formA (by decide) (by decide) (by decide) ?_ ?_ ?_ ?_ ?_ ?_ ?_ ?_ ?_ ?_
  any_goals first | decide | omega | exact W2.fits_zero | exact VX.fits _ (by omega) (by omega) | exact MX.fits _ (by omega) (by omega) (by omega) | (simp only [W2.fits]; omega) | (simp only [W2.fits]; omega) | (intro q; exact ⟨rfl, rfl⟩) | (intro q; rfl) | (intro q; omega)
  intro r hr ht
  have hx : tyOk Ty.isElem ty = true := by simp_all
  show decTiles r = _
  simp only [decTiles, hr.op]
  simp_all [fin2, Raw.xmask, hr.d, hr.a, hr.b, hr.fn5, ht.w1, ht.x2, ht.pe, ht.ze, ht.ty, ht.tyv, tyOpt_read hx ht.ty ht.tyv, tyMbz_read ht.ty ht.tyv]

theorem vstx (a : XReg) (b d : VReg) (p : PReg) (ty : Option Ty) : Statement (.vstx a b d p ty) := by
  intro hw r h
  have hw : ((tyOk Ty.isElem ty : Bool)) = true := hw
  have := tyCode_lt ty
  have := ty.isSome.toNat_lt
  injection h with h; subst h
  refine Reads.formA (by decide) (by decide) (by decide) ?_ ?_ ?_ ?_ ?_ ?_ ?_ ?_ ?_ ?_
  any_goals first | decide | omega | exact W2.fits_zero | exact VX.fits _ (by omega) (by omega) | exact MX.fits _ (by omega) (by omega) (by omega) | (simp only [W2.fits]; omega) | (simp only [W2.fits]; omega) | (intro q; exact ⟨rfl, rfl⟩) | (intro q; rfl) | (intro q; omega)
  intro r hr ht
  have hx : tyOk Ty.isElem ty = true := by simp_all
  show decTiles r = _
  simp only [decTiles, hr.op]
  simp_all [fin2, hr.d, hr.a, hr.b, hr.fn5, ht.w1, ht.x2, ht.pe, ht.ty, ht.tyv, tyOpt_read hx ht.ty ht.tyv, tyMbz_read ht.ty ht.tyv]

theorem vpackUnpack (m : VMask) (d a : VReg) (rec : Ty) (x : VX) : Statement (.vpackUnpack m d a rec x) := by
  intro hw r h
  have hw : ((rec.isRec && tyOk Ty.isFloat x.ty : Bool)) = true := hw
  have := m.z.toNat_lt
  have := rec.code_lt
  injection h with h; subst h
  simp only [encV, VX.w2]
  refine Reads.formV (by decide) (by decide) (by decide) ?_ ?_ ?_ ?_ ?_ ?_ ?_ ?_ ?_ ?_ ?_ ?_ ?_
  any_goals first | decide | omega | exact W2.fits_zero | exact VX.fits _ (by omega) (by omega) | exact MX.fits _ (by omega) (by omega) (by omega) | (simp only [W2.fits, FTy.code]; omega) | (simp only [W2.fits]; omega) | (intro q; exact ⟨rfl, rfl⟩) | (intro q; rfl) | (intro q; omega)
  intro r hr ht
  have hx : tyOk Ty.isFloat x.ty = true := by simp_all
  show decTiles r = _
  simp only [decTiles, hr.op]
  simp_all [fin2, guardO, Raw.vmask, hr.vd, hr.va, hr.vb, hr.vc, hr.pv, hr.z, hr.fn3, ht.w1, ht.c, ht.md, vx_read hx ht, vMbz_read (by decide) ht]

theorem vpackPack (m : VMask) (d a b : VReg) (rec : Ty) (x : VX) : Statement (.vpackPack m d a b rec x) := by
  intro hw r h
  have hw : ((rec.isRec && tyOk Ty.isFloat x.ty : Bool)) = true := hw
  have := m.z.toNat_lt
  have := rec.code_lt
  injection h with h; subst h
  simp only [encV, VX.w2]
  refine Reads.formV (by decide) (by decide) (by decide) ?_ ?_ ?_ ?_ ?_ ?_ ?_ ?_ ?_ ?_ ?_ ?_ ?_
  any_goals first | decide | omega | exact W2.fits_zero | exact VX.fits _ (by omega) (by omega) | exact MX.fits _ (by omega) (by omega) (by omega) | (simp only [W2.fits, FTy.code]; omega) | (simp only [W2.fits]; omega) | (intro q; exact ⟨rfl, rfl⟩) | (intro q; rfl) | (intro q; omega)
  intro r hr ht
  have hx : tyOk Ty.isFloat x.ty = true := by simp_all
  show decTiles r = _
  simp only [decTiles, hr.op]
  simp_all [fin2, guardO, Raw.vmask, hr.vd, hr.va, hr.vb, hr.vc, hr.pv, hr.z, hr.fn3, ht.w1, ht.c, ht.md, vx_read hx ht, vMbz_read (by decide) ht]

theorem hsift (k : Fin 16) (new : Bool) (a : XReg) (b d : VReg) (c : XReg) (p : PReg) : Statement (.hsift k new a b d c p) := by
  intro hw r h
  have := new.toNat_lt
  injection h with h; subst h
  refine Reads.formA (by decide) (by decide) (by decide) ?_ ?_ ?_ ?_ ?_ ?_ ?_ ?_ ?_ ?_
  any_goals first | decide | omega | exact W2.fits_zero | exact VX.fits _ (by omega) (by omega) | exact MX.fits _ (by omega) (by omega) (by omega) | (simp only [W2.fits]; omega) | (simp only [W2.fits]; omega) | (intro q; exact ⟨rfl, rfl⟩) | (intro q; rfl) | (intro q; omega)
  intro r hr ht
  have e1 : k.val / 16 = 0 := by omega
  have e2 : k.val < 32 := by omega
  have e3 : Fin.ofNat 16 (k.val + 16) = k := ofNat_eq (by omega)
  show decTiles r = _
  simp only [decTiles, hr.op]
  cases new <;> simp [fin2, guardO, hr.d, hr.a, hr.b, hr.fn5, ht.w1, ht.x2, ht.c, ht.pe, ht.md, e1, e2, e3] <;> rw [if_pos (by omega)] <;> exact congrArg (fun q => Except.ok (Instr.hsift q true a b d c p)) e3

theorem vdot (f : VSat) (m : VMask) (d a b c : VReg) (x : Option VX) : Statement (.vdot f m d a b c x) := by
  intro hw r h
  have hw : ((vxOk f.admitsDot x : Bool)) = true := hw
  have := f.code_lt
  have := m.z.toNat_lt
  rcases x with _ | x
  · injection h with h; subst h
    simp only [encV]
    refine Reads.formV (x := {}) (by decide) (by decide) (by decide) ?_ ?_ ?_ ?_ ?_ ?_ ?_ ?_ ?_ ?_ ?_ ?_ ?_
    any_goals first | decide | omega | exact W2.fits_zero | exact VX.fits _ (by omega) (by omega) | exact MX.fits _ (by omega) (by omega) (by omega) | (simp only [W2.fits, FTy.code]; omega) | (simp only [W2.fits]; omega) | (intro q; exact ⟨rfl, rfl⟩) | (intro q; rfl) | (intro q; omega)
    intro r hr ht
    show decTiles r = _
    simp only [decTiles, hr.op]
    simp_all [vxOk, fin2, guardO, Raw.vMbz, Raw.tyMbz, Raw.vxOpt, Raw.vPlainMbz, Raw.vNoMod, Raw.vmask, hr.len, hr.vd, hr.va, hr.vb, hr.vc, hr.pv, hr.z, hr.fn3, ht.w1, ht.c, ht.e, ht.pe, ht.ze, ht.ty, ht.tyv, ht.md]
  · injection h with h; subst h
    simp only [encV, VX.w2]
    refine Reads.formV (by decide) (by decide) (by decide) ?_ ?_ ?_ ?_ ?_ ?_ ?_ ?_ ?_ ?_ ?_ ?_ ?_
    any_goals first | decide | omega | exact W2.fits_zero | exact VX.fits _ (by omega) (by omega) | exact MX.fits _ (by omega) (by omega) (by omega) | (simp only [W2.fits, FTy.code]; omega) | (simp only [W2.fits]; omega) | (intro q; exact ⟨rfl, rfl⟩) | (intro q; rfl) | (intro q; omega)
    intro r hr ht
    have hx : tyOk f.admitsDot x.ty = true := by simp_all [vxOk]
    show decTiles r = _
    simp only [decTiles, hr.op]
    simp_all [vxOk, fin2, guardO, Raw.vxOpt, Raw.vPlainMbz, Raw.vNoMod, Raw.vmask, hr.len, hr.vd, hr.va, hr.vb, hr.vc, hr.pv, hr.z, hr.fn3, ht.w1, ht.c, ht.md, vx_read hx ht, vMbz_read (by decide) ht]

theorem vbmax (abs : Bool) (m : VMask) (d a : VReg) (x : Option VX) : Statement (.vbmax abs m d a x) := by
  intro hw r h
  have hw : ((vxOk Ty.isIF x : Bool)) = true := hw
  have := abs.toNat_lt
  have := m.z.toNat_lt
  have := (!abs).toNat_lt
  rcases x with _ | x
  · injection h with h; subst h
    simp only [encV]
    refine Reads.formV (x := {}) (by decide) (by decide) (by decide) ?_ ?_ ?_ ?_ ?_ ?_ ?_ ?_ ?_ ?_ ?_ ?_ ?_
    any_goals first | decide | omega | exact W2.fits_zero | exact VX.fits _ (by omega) (by omega) | exact MX.fits _ (by omega) (by omega) (by omega) | (simp only [W2.fits, FTy.code]; omega) | (simp only [W2.fits]; omega) | (intro q; exact ⟨rfl, rfl⟩) | (intro q; rfl) | (intro q; omega)
    intro r hr ht
    show decTiles r = _
    simp only [decTiles, hr.op]
    cases abs <;> simp_all [bitCode, vxOk, fin2, guardO, decV1, Raw.vMbz, Raw.tyMbz, Raw.vxOpt, Raw.vPlainMbz, Raw.vNoMod, Raw.vmask, hr.len, hr.vd, hr.va, hr.vb, hr.vc, hr.pv, hr.z, hr.fn3, ht.w1, ht.c, ht.e, ht.pe, ht.ze, ht.ty, ht.tyv, ht.md]
  · injection h with h; subst h
    simp only [encV, VX.w2]
    refine Reads.formV (by decide) (by decide) (by decide) ?_ ?_ ?_ ?_ ?_ ?_ ?_ ?_ ?_ ?_ ?_ ?_ ?_
    any_goals first | decide | omega | exact W2.fits_zero | exact VX.fits _ (by omega) (by omega) | exact MX.fits _ (by omega) (by omega) (by omega) | (simp only [W2.fits, FTy.code]; omega) | (simp only [W2.fits]; omega) | (intro q; exact ⟨rfl, rfl⟩) | (intro q; rfl) | (intro q; omega)
    intro r hr ht
    have hx : tyOk Ty.isIF x.ty = true := by simp_all [vxOk]
    show decTiles r = _
    simp only [decTiles, hr.op]
    cases abs <;> simp_all [bitCode, vxOk, fin2, guardO, decV1, Raw.vxOpt, Raw.vPlainMbz, Raw.vNoMod, Raw.vmask, hr.len, hr.vd, hr.va, hr.vb, hr.vc, hr.pv, hr.z, hr.fn3, ht.w1, ht.c, ht.md, vx_read hx ht, vMbz_read (by decide) ht]

theorem vqnt (m : VMask) (d a : VReg) (rec : Ty) (x : VX) : Statement (.vqnt m d a rec x) := by
  intro hw r h
  have hw : ((rec.isRec && tyOk Ty.isFloat x.ty : Bool)) = true := hw
  have := m.z.toNat_lt
  have := rec.code_lt
  injection h with h; subst h
  simp only [encV, VX.w2]
  refine Reads.formV (by decide) (by decide) (by decide) ?_ ?_ ?_ ?_ ?_ ?_ ?_ ?_ ?_ ?_ ?_ ?_ ?_
  any_goals first | decide | omega | exact W2.fits_zero | exact VX.fits _ (by omega) (by omega) | exact MX.fits _ (by omega) (by omega) (by omega) | (simp only [W2.fits, FTy.code]; omega) | (simp only [W2.fits]; omega) | (intro q; exact ⟨rfl, rfl⟩) | (intro q; rfl) | (intro q; omega)
  intro r hr ht
  have hx : tyOk Ty.isFloat x.ty = true := by simp_all
  show decTiles r = _
  simp only [decTiles, hr.op]
  simp_all [fin2, guardO, Raw.vmask, hr.vd, hr.va, hr.vb, hr.vc, hr.pv, hr.z, hr.fn3, ht.w1, ht.c, ht.md, vx_read hx ht, vMbz_read (by decide) ht]

theorem vmask (f : VMaskFn) (d : PReg) (a : VReg) : Statement (.vmask f d a) := by
  intro hw r h
  have := f.code_lt
  injection h with h; subst h
  simp only [encV]
  refine Reads.formV (x := {}) (by decide) (by decide) (by decide) ?_ ?_ ?_ ?_ ?_ ?_ ?_ ?_ ?_ ?_ ?_ ?_ ?_
  any_goals first | decide | omega | exact W2.fits_zero | exact VX.fits _ (by omega) (by omega) | exact MX.fits _ (by omega) (by omega) (by omega) | (simp only [W2.fits, FTy.code]; omega) | (simp only [W2.fits]; omega) | (intro q; exact ⟨rfl, rfl⟩) | (intro q; rfl) | (intro q; omega)
  intro r hr ht
  show decTiles r = _
  simp only [decTiles, hr.op]
  simp [fin2, hr.vd, hr.va, hr.vb, hr.vc, hr.pv, hr.z, hr.fn3]

theorem vmaskExpand (d : VReg) (a : PReg) : Statement (.vmaskExpand d a) := by
  intro hw r h
  injection h with h; subst h
  simp only [encV]
  refine Reads.formV (x := {}) (by decide) (by decide) (by decide) ?_ ?_ ?_ ?_ ?_ ?_ ?_ ?_ ?_ ?_ ?_ ?_ ?_
  any_goals first | decide | omega | exact W2.fits_zero | exact VX.fits _ (by omega) (by omega) | exact MX.fits _ (by omega) (by omega) (by omega) | (simp only [W2.fits, FTy.code]; omega) | (simp only [W2.fits]; omega) | (intro q; exact ⟨rfl, rfl⟩) | (intro q; rfl) | (intro q; omega)
  intro r hr ht
  show decTiles r = _
  simp only [decTiles, hr.op]
  simp [fin2, guardO, hr.vd, hr.va, hr.vb, hr.vc, hr.pv, hr.z, hr.fn3, VMaskFn.ofCode]

theorem vclamp (m : VMask) (d a b c : VReg) (x : Option VX) : Statement (.vclamp m d a b c x) := by
  intro hw r h
  have hw : ((vxOk Ty.isIF x : Bool)) = true := hw
  have := m.z.toNat_lt
  rcases x with _ | x
  · injection h with h; subst h
    simp only [encV]
    refine Reads.formV (x := {}) (by decide) (by decide) (by decide) ?_ ?_ ?_ ?_ ?_ ?_ ?_ ?_ ?_ ?_ ?_ ?_ ?_
    any_goals first | decide | omega | exact W2.fits_zero | exact VX.fits _ (by omega) (by omega) | exact MX.fits _ (by omega) (by omega) (by omega) | (simp only [W2.fits, FTy.code]; omega) | (simp only [W2.fits]; omega) | (intro q; exact ⟨rfl, rfl⟩) | (intro q; rfl) | (intro q; omega)
    intro r hr ht
    show decTiles r = _
    simp only [decTiles, hr.op]
    simp_all [vxOk, fin2, guardO, Raw.vMbz, Raw.tyMbz, Raw.vxOpt, Raw.vPlainMbz, Raw.vNoMod, Raw.vmask, hr.len, hr.vd, hr.va, hr.vb, hr.vc, hr.pv, hr.z, hr.fn3, ht.w1, ht.c, ht.e, ht.pe, ht.ze, ht.ty, ht.tyv, ht.md]
  · injection h with h; subst h
    simp only [encV, VX.w2]
    refine Reads.formV (by decide) (by decide) (by decide) ?_ ?_ ?_ ?_ ?_ ?_ ?_ ?_ ?_ ?_ ?_ ?_ ?_
    any_goals first | decide | omega | exact W2.fits_zero | exact VX.fits _ (by omega) (by omega) | exact MX.fits _ (by omega) (by omega) (by omega) | (simp only [W2.fits, FTy.code]; omega) | (simp only [W2.fits]; omega) | (intro q; exact ⟨rfl, rfl⟩) | (intro q; rfl) | (intro q; omega)
    intro r hr ht
    have hx : tyOk Ty.isIF x.ty = true := by simp_all [vxOk]
    show decTiles r = _
    simp only [decTiles, hr.op]
    simp_all [vxOk, fin2, guardO, Raw.vxOpt, Raw.vPlainMbz, Raw.vNoMod, Raw.vmask, hr.len, hr.vd, hr.va, hr.vb, hr.vc, hr.pv, hr.z, hr.fn3, ht.w1, ht.c, ht.md, vx_read hx ht, vMbz_read (by decide) ht]

theorem vclampLiteral (m : VMask) (d a : VReg) (v : Word) (x : VX) : Statement (.vclampLiteral m d a v x) := by
  intro hw r h
  have hw : ((tyOk Ty.isIF x.ty : Bool)) = true := hw
  have := m.z.toNat_lt
  injection h with h; subst h
  simp only [VX.w2]
  refine Reads.formV (by decide) (by decide) (by decide) ?_ ?_ ?_ ?_ ?_ ?_ ?_ ?_ ?_ ?_ ?_ ?_ ?_
  any_goals first | decide | omega | exact W2.fits_zero | exact VX.fits _ (by omega) (by omega) | exact MX.fits _ (by omega) (by omega) (by omega) | (simp only [W2.fits, FTy.code]; omega) | (simp only [W2.fits]; omega) | (intro q; exact ⟨rfl, rfl⟩) | (intro q; rfl) | (intro q; omega)
  intro r hr ht
  have hx : tyOk Ty.isIF x.ty = true := by simp_all
  show decTiles r = _
  simp only [decTiles, hr.op]
  simp_all [fin2, guardO, Raw.vmask, hr.len, hr.vd, hr.va, hr.vb, hr.vc, hr.pv, hr.z, hr.fn3, ht.w1, ht.lit, ht.c, ht.md, vx_read hx ht, vMbz_read (by decide) ht]

theorem vrnd (m : VMask) (d a : VReg) (x : Option VX) : Statement (.vrnd m d a x) := by
  intro hw r h
  have hw : ((vxOk Ty.isFloat x : Bool)) = true := hw
  have := m.z.toNat_lt
  rcases x with _ | x
  · injection h with h; subst h
    simp only [encV]
    refine Reads.formV (x := {}) (by decide) (by decide) (by decide) ?_ ?_ ?_ ?_ ?_ ?_ ?_ ?_ ?_ ?_ ?_ ?_ ?_
    any_goals first | decide | omega | exact W2.fits_zero | exact VX.fits _ (by omega) (by omega) | exact MX.fits _ (by omega) (by omega) (by omega) | (simp only [W2.fits, FTy.code]; omega) | (simp only [W2.fits]; omega) | (intro q; exact ⟨rfl, rfl⟩) | (intro q; rfl) | (intro q; omega)
    intro r hr ht
    show decTiles r = _
    simp only [decTiles, hr.op]
    simp_all [vxOk, fin2, guardO, decV1, Raw.vMbz, Raw.tyMbz, Raw.vxOpt, Raw.vPlainMbz, Raw.vNoMod, Raw.vmask, hr.len, hr.vd, hr.va, hr.vb, hr.vc, hr.pv, hr.z, hr.fn3, ht.w1, ht.c, ht.e, ht.pe, ht.ze, ht.ty, ht.tyv, ht.md]
  · injection h with h; subst h
    simp only [encV, VX.w2]
    refine Reads.formV (by decide) (by decide) (by decide) ?_ ?_ ?_ ?_ ?_ ?_ ?_ ?_ ?_ ?_ ?_ ?_ ?_
    any_goals first | decide | omega | exact W2.fits_zero | exact VX.fits _ (by omega) (by omega) | exact MX.fits _ (by omega) (by omega) (by omega) | (simp only [W2.fits, FTy.code]; omega) | (simp only [W2.fits]; omega) | (intro q; exact ⟨rfl, rfl⟩) | (intro q; rfl) | (intro q; omega)
    intro r hr ht
    have hx : tyOk Ty.isFloat x.ty = true := by simp_all [vxOk]
    show decTiles r = _
    simp only [decTiles, hr.op]
    simp_all [vxOk, fin2, guardO, decV1, Raw.vxOpt, Raw.vPlainMbz, Raw.vNoMod, Raw.vmask, hr.len, hr.vd, hr.va, hr.vb, hr.vc, hr.pv, hr.z, hr.fn3, ht.w1, ht.c, ht.md, vx_read hx ht, vMbz_read (by decide) ht]

theorem vext (d : XReg) (a : VReg) (b c : XReg) (ty : Option Ty) : Statement (.vext d a b c ty) := by
  intro hw r h
  have hw : ((tyOk Ty.isElem ty : Bool)) = true := hw
  have := tyCode_lt ty
  have := ty.isSome.toNat_lt
  injection h with h; subst h
  refine Reads.formA (by decide) (by decide) (by decide) ?_ ?_ ?_ ?_ ?_ ?_ ?_ ?_ ?_ ?_
  any_goals first | decide | omega | exact W2.fits_zero | exact VX.fits _ (by omega) (by omega) | exact MX.fits _ (by omega) (by omega) (by omega) | (simp only [W2.fits]; omega) | (simp only [W2.fits]; omega) | (intro q; exact ⟨rfl, rfl⟩) | (intro q; rfl) | (intro q; omega)
  intro r hr ht
  have hx : tyOk Ty.isElem ty = true := by simp_all
  show decTiles r = _
  simp only [decTiles, hr.op]
  simp_all [fin2, hr.d, hr.a, hr.b, hr.fn5, ht.w1, ht.x2, ht.c, ht.ty, ht.tyv, tyOpt_read hx ht.ty ht.tyv, tyMbz_read ht.ty ht.tyv]

theorem vins (d : VReg) (a b c : XReg) (ty : Option Ty) : Statement (.vins d a b c ty) := by
  intro hw r h
  have hw : ((tyOk Ty.isElem ty : Bool)) = true := hw
  have := tyCode_lt ty
  have := ty.isSome.toNat_lt
  injection h with h; subst h
  refine Reads.formA (by decide) (by decide) (by decide) ?_ ?_ ?_ ?_ ?_ ?_ ?_ ?_ ?_ ?_
  any_goals first | decide | omega | exact W2.fits_zero | exact VX.fits _ (by omega) (by omega) | exact MX.fits _ (by omega) (by omega) (by omega) | (simp only [W2.fits]; omega) | (simp only [W2.fits]; omega) | (intro q; exact ⟨rfl, rfl⟩) | (intro q; rfl) | (intro q; omega)
  intro r hr ht
  have hx : tyOk Ty.isElem ty = true := by simp_all
  show decTiles r = _
  simp only [decTiles, hr.op]
  simp_all [fin2, hr.d, hr.a, hr.b, hr.fn5, ht.w1, ht.x2, ht.c, ht.ty, ht.tyv, tyOpt_read hx ht.ty ht.tyv, tyMbz_read ht.ty ht.tyv]

theorem mwld (q : QuadOp) (a b c : XReg) (k : Fin 1024) (n : Fin 256) (pe : PReg) : Statement (.mwld q a b c k n pe) := by
  intro hw r h
  have := q.code_lt
  injection h with h; subst h
  refine Reads.formA (by decide) (by decide) (by decide) ?_ ?_ ?_ ?_ ?_ ?_ ?_ ?_ ?_ ?_
  any_goals first | decide | omega | exact W2.fits_zero | exact VX.fits _ (by omega) (by omega) | exact MX.fits _ (by omega) (by omega) (by omega) | (simp only [W2.fits]; omega) | (simp only [W2.fits]; omega) | (intro q; exact ⟨rfl, rfl⟩) | (intro q; rfl) | (intro q; omega)
  intro r hr ht
  have e1 : k.val + 1024 * n.val < 262144 := by omega
  have e2 : Fin.ofNat 1024 (k.val + 1024 * n.val) = k := ofNat_eq (by omega)
  have e3 : Fin.ofNat 256 ((k.val + 1024 * n.val) / 1024) = n := ofNat_eq (by omega)
  show decMatrix r = _
  simp only [decMatrix, hr.op]
  simp [Raw.cPe, fin2, hr.d, hr.a, hr.b, hr.fn5, ht.w1, ht.x2, ht.c, ht.pe, e1, e2, e3] <;> exact ⟨e2, e3⟩

theorem mma (neg accz : Bool) (ty : Ty) (acc : BankOp) (a b c : XReg) (stride : Fin 16384) (pe : PReg) : Statement (.mma neg accz ty acc a b c stride pe) := by
  intro hw r h
  have hw : ((ty.isMat : Bool)) = true := hw
  have := neg.toNat_lt
  have := accz.toNat_lt
  have := ty.code_lt
  have := acc.code_lt
  injection h with h; subst h
  refine Reads.formA (by decide) (by decide) (by decide) ?_ ?_ ?_ ?_ ?_ ?_ ?_ ?_ ?_ ?_
  any_goals first | decide | omega | exact W2.fits_zero | exact VX.fits _ (by omega) (by omega) | exact MX.fits _ (by omega) (by omega) (by omega) | (simp only [W2.fits]; omega) | (simp only [W2.fits]; omega) | (intro q; exact ⟨rfl, rfl⟩) | (intro q; rfl) | (intro q; omega)
  intro r hr ht
  have hx : Ty.isMat ty = true := by simp_all
  show decMatrix r = _
  simp only [decMatrix, hr.op]
  cases neg <;> cases accz <;> simp_all [fin2, hr.d, hr.a, hr.b, hr.fn5, ht.w1, ht.x2, ht.c, ht.pe, ht.ty, ht.tyv, tyReq_read (adm := Ty.isMat) hx ht.ty ht.tyv, tyMbz_one ht.tyv]

theorem mmg (neg accz : Bool) (nt : Fin 8) (ty : Ty) (acc : BankOp) (a b c e : XReg) (k : Fin 1024) (n : Fin 256) (stride : Fin 16384) (pe : PReg) : Statement (.mmg neg accz nt ty acc a b c e k n stride pe) := by
  intro hw r h
  have hw : ((ty.isMat : Bool)) = true := hw
  have := neg.toNat_lt
  have := accz.toNat_lt
  have := ty.code_lt
  have := acc.code_lt
  injection h with h; subst h
  refine Reads.formA (by decide) (by decide) (by decide) ?_ ?_ ?_ ?_ ?_ ?_ ?_ ?_ ?_ ?_
  any_goals first | decide | omega | exact W2.fits_zero | exact VX.fits _ (by omega) (by omega) | exact MX.fits _ (by omega) (by omega) (by omega) | (simp only [W2.fits]; omega) | (simp only [W2.fits]; omega) | (intro q; exact ⟨rfl, rfl⟩) | (intro q; rfl) | (intro q; omega)
  intro r hr ht
  have e1 : 4 * nt.val % 2 = 0 := by omega
  have e2 : 4 * nt.val / 2 % 2 = 0 := by omega
  have e3 : Fin.ofNat 1024 (k.val + 1024 * n.val + 262144 * stride.val) = k := ofNat_eq (by omega)
  have e4 : Fin.ofNat 256 ((k.val + 1024 * n.val + 262144 * stride.val) / 1024) = n := ofNat_eq (by omega)
  have e5 : Fin.ofNat 16384 ((k.val + 1024 * n.val + 262144 * stride.val) / 262144) = stride := ofNat_eq (by omega)
  have e6 : (4 * nt.val / 2 + 1) % 2 = 1 := by omega
  have e7 : Fin.ofNat 8 ((2 + 4 * nt.val) / 4) = nt := ofNat_eq (by omega)
  have e8 : Fin.ofNat 8 ((3 + 4 * nt.val) / 4) = nt := ofNat_eq (by omega)
  have e9 : Fin.ofNat 8 ((1 + 4 * nt.val) / 4) = nt := ofNat_eq (by omega)
  have f1 : (1 + 4 * nt.val) % 2 = 1 := by omega
  have f2 : (1 + 4 * nt.val) / 2 % 2 = 0 := by omega
  have f3 : (3 + 4 * nt.val) / 2 % 2 = 1 := by omega
  have f4 : (3 + 4 * nt.val) % 2 = 1 := by omega
  have f5 : (2 + 4 * nt.val) / 2 % 2 = 1 := by omega
  have f6 : (2 + 4 * nt.val) % 2 = 0 := by omega
  have hx : Ty.isMat ty = true := by simp_all
  show decMatrix r = _
  simp only [decMatrix, hr.op]
  cases neg <;> cases accz <;> simp_all [fin2, hr.d, hr.a, hr.b, hr.fn5, ht.w1, ht.x2, ht.c, ht.e, ht.pe, ht.ty, ht.tyv, tyReq_read (adm := Ty.isMat) hx ht.ty ht.tyv, tyMbz_one ht.tyv]

theorem mdrain (clr : Bool) (ty : Ty) (rm : Rm) (acc : BankOp) (a b c : XReg) (n : Fin 256) (stride : Fin 16384) (pe : PReg) : Statement (.mdrain clr ty rm acc a b c n stride pe) := by
  intro hw r h
  have hw : ((ty.isElem : Bool)) = true := hw
  have := clr.toNat_lt
  have := ty.code_lt
  have := rm.code_lt
  have := acc.code_lt
  injection h with h; subst h
  refine Reads.formA (by decide) (by decide) (by decide) ?_ ?_ ?_ ?_ ?_ ?_ ?_ ?_ ?_ ?_
  any_goals first | decide | omega | exact W2.fits_zero | exact VX.fits _ (by omega) (by omega) | exact MX.fits _ (by omega) (by omega) (by omega) | (simp only [W2.fits]; omega) | (simp only [W2.fits]; omega) | (intro q; exact ⟨rfl, rfl⟩) | (intro q; rfl) | (intro q; omega)
  intro r hr ht
  have e1 : 262144 * stride.val % 1024 = 0 := by omega
  have e2 : Fin.ofNat 256 ((1024 * n.val + 262144 * stride.val) / 1024) = n := ofNat_eq (by omega)
  have e3 : Fin.ofNat 16384 ((1024 * n.val + 262144 * stride.val) / 262144) = stride := ofNat_eq (by omega)
  have hx : Ty.isElem ty = true := by simp_all
  show decMatrix r = _
  simp only [decMatrix, hr.op]
  cases clr <;> simp_all [fin2, hr.d, hr.a, hr.b, hr.fn5, ht.w1, ht.x2, ht.c, ht.pe, ht.ty, ht.tyv, ht.rm, ht.md, tyReq_read (adm := Ty.isElem) hx ht.ty ht.tyv, tyMbz_one ht.tyv]

theorem mzero (acc : BankOp) (pe : PReg) : Statement (.mzero acc pe) := by
  intro hw r h
  have := acc.code_lt
  injection h with h; subst h
  refine Reads.formA (x := {}) (by decide) (by decide) (by decide) ?_ ?_ ?_ ?_ ?_ ?_ ?_ ?_ ?_ ?_
  any_goals first | decide | omega | exact W2.fits_zero | exact VX.fits _ (by omega) (by omega) | exact MX.fits _ (by omega) (by omega) (by omega) | (simp only [W2.fits, FTy.code]; omega) | (simp only [W2.fits]; omega) | (intro q; exact ⟨rfl, rfl⟩) | (intro q; rfl) | (intro q; omega)
  intro r hr ht
  show decMatrix r = _
  simp only [decMatrix, hr.op]
  simp [fin2, hr.d, hr.a, hr.b, hr.fn5]

theorem mfuse (mode : Fin 8) (pe : PReg) : Statement (.mfuse mode pe) := by
  intro hw r h
  injection h with h; subst h
  refine Reads.formA (x := {}) (by decide) (by decide) (by decide) ?_ ?_ ?_ ?_ ?_ ?_ ?_ ?_ ?_ ?_
  any_goals first | decide | omega | exact W2.fits_zero | exact VX.fits _ (by omega) (by omega) | exact MX.fits _ (by omega) (by omega) (by omega) | (simp only [W2.fits, FTy.code]; omega) | (simp only [W2.fits]; omega) | (intro q; exact ⟨rfl, rfl⟩) | (intro q; rfl) | (intro q; omega)
  intro r hr ht
  show decMatrix r = _
  simp only [decMatrix, hr.op]
  simp [fin2, guardO, hr.d, hr.a, hr.b, hr.fn5]

theorem mmap (b : XReg) : Statement (.mmap b) := by
  intro hw r h
  injection h with h; subst h
  refine Reads.formA (x := {}) (by decide) (by decide) (by decide) ?_ ?_ ?_ ?_ ?_ ?_ ?_ ?_ ?_ ?_
  any_goals first | decide | omega | exact W2.fits_zero | exact VX.fits _ (by omega) (by omega) | exact MX.fits _ (by omega) (by omega) (by omega) | (simp only [W2.fits, FTy.code]; omega) | (simp only [W2.fits]; omega) | (intro q; exact ⟨rfl, rfl⟩) | (intro q; rfl) | (intro q; omega)
  intro r hr ht
  show decMatrix r = _
  simp only [decMatrix, hr.op]
  simp [fin2, hr.len, hr.d, hr.a, hr.b, hr.fn5]

theorem mmapOwn : Statement .mmapOwn := by
  intro hw r h
  injection h with h; subst h
  refine Reads.formA (x := {}) (by decide) (by decide) (by decide) ?_ ?_ ?_ ?_ ?_ ?_ ?_ ?_ ?_ ?_
  any_goals first | decide | omega | exact W2.fits_zero | exact VX.fits _ (by omega) (by omega) | exact MX.fits _ (by omega) (by omega) (by omega) | (simp only [W2.fits, FTy.code]; omega) | (simp only [W2.fits]; omega) | (intro q; exact ⟨rfl, rfl⟩) | (intro q; rfl) | (intro q; omega)
  intro r hr ht
  show decMatrix r = _
  simp only [decMatrix, hr.op]
  simp [fin2, hr.len, hr.d, hr.a, hr.b, hr.fn5]

theorem mmapLiteral (v : Word) : Statement (.mmapLiteral v) := by
  intro hw r h
  injection h with h; subst h
  refine Reads.formA (x := {}) (by decide) (by decide) (by decide) ?_ ?_ ?_ ?_ ?_ ?_ ?_ ?_ ?_ ?_
  any_goals first | decide | omega | exact W2.fits_zero | exact VX.fits _ (by omega) (by omega) | exact MX.fits _ (by omega) (by omega) (by omega) | (simp only [W2.fits, FTy.code]; omega) | (simp only [W2.fits]; omega) | (intro q; exact ⟨rfl, rfl⟩) | (intro q; rfl) | (intro q; omega)
  intro r hr ht
  show decMatrix r = _
  simp only [decMatrix, hr.op]
  simp [fin2, guardO, hr.len, hr.d, hr.a, hr.b, hr.fn5, ht.lit]

theorem mvb (out ty : Ty) (rm : Rm) (d a b c e : XReg) (nv : Fin 8) (pe : PReg) : Statement (.mvb out ty rm d a b c e nv pe) := by
  intro hw r h
  have hw : ((out.isElem && ty.isMat : Bool)) = true := hw
  have := out.code_lt
  have := ty.code_lt
  have := rm.code_lt
  injection h with h; subst h
  refine Reads.formA (by decide) (by decide) (by decide) ?_ ?_ ?_ ?_ ?_ ?_ ?_ ?_ ?_ ?_
  any_goals first | decide | omega | exact W2.fits_zero | exact VX.fits _ (by omega) (by omega) | exact MX.fits _ (by omega) (by omega) (by omega) | (simp only [W2.fits]; omega) | (simp only [W2.fits]; omega) | (intro q; exact ⟨rfl, rfl⟩) | (intro q; rfl) | (intro q; omega)
  intro r hr ht
  have hx : Ty.isMat ty = true := by simp_all
  show decMatrix r = _
  simp only [decMatrix, hr.op]
  simp_all [fin2, guardO, hr.d, hr.a, hr.b, hr.fn5, ht.w1, ht.x2, ht.c, ht.e, ht.pe, ht.ty, ht.tyv, ht.rm, tyReq_read (adm := Ty.isMat) hx ht.ty ht.tyv, tyMbz_one ht.tyv]

theorem matrixTurn (cluster : TurnStep) : Statement (.matrixTurn cluster) := by
  intro _ r h
  have h : (none : Option Raw) = some r := h
  cases h

theorem mstatRd (d : XReg) : Statement (.mstatRd d) := by
  intro hw r h
  injection h with h; subst h
  refine Reads.formA (x := {}) (by decide) (by decide) (by decide) ?_ ?_ ?_ ?_ ?_ ?_ ?_ ?_ ?_ ?_
  any_goals first | decide | omega | exact W2.fits_zero | exact VX.fits _ (by omega) (by omega) | exact MX.fits _ (by omega) (by omega) (by omega) | (simp only [W2.fits, FTy.code]; omega) | (simp only [W2.fits]; omega) | (intro q; exact ⟨rfl, rfl⟩) | (intro q; rfl) | (intro q; omega)
  intro r hr ht
  show decMatrix r = _
  simp only [decMatrix, hr.op]
  simp [fin2, hr.d, hr.a, hr.b, hr.fn5]

theorem mstatDone (d : XReg) : Statement (.mstatDone d) := by
  intro hw r h
  injection h with h; subst h
  refine Reads.formA (x := {}) (by decide) (by decide) (by decide) ?_ ?_ ?_ ?_ ?_ ?_ ?_ ?_ ?_ ?_
  any_goals first | decide | omega | exact W2.fits_zero | exact VX.fits _ (by omega) (by omega) | exact MX.fits _ (by omega) (by omega) (by omega) | (simp only [W2.fits, FTy.code]; omega) | (simp only [W2.fits]; omega) | (intro q; exact ⟨rfl, rfl⟩) | (intro q; rfl) | (intro q; omega)
  intro r hr ht
  show decMatrix r = _
  simp only [decMatrix, hr.op]
  simp [fin2, hr.d, hr.a, hr.b, hr.fn5]

theorem mstatCfg (d : XReg) : Statement (.mstatCfg d) := by
  intro hw r h
  injection h with h; subst h
  refine Reads.formA (x := {}) (by decide) (by decide) (by decide) ?_ ?_ ?_ ?_ ?_ ?_ ?_ ?_ ?_ ?_
  any_goals first | decide | omega | exact W2.fits_zero | exact VX.fits _ (by omega) (by omega) | exact MX.fits _ (by omega) (by omega) (by omega) | (simp only [W2.fits, FTy.code]; omega) | (simp only [W2.fits]; omega) | (intro q; exact ⟨rfl, rfl⟩) | (intro q; rfl) | (intro q; omega)
  intro r hr ht
  show decMatrix r = _
  simp only [decMatrix, hr.op]
  simp [fin2, hr.d, hr.a, hr.b, hr.fn5]

theorem mstatFlags (d : XReg) (acc : BankOp) : Statement (.mstatFlags d acc) := by
  intro hw r h
  have := acc.code_lt
  injection h with h; subst h
  refine Reads.formA (x := {}) (by decide) (by decide) (by decide) ?_ ?_ ?_ ?_ ?_ ?_ ?_ ?_ ?_ ?_
  any_goals first | decide | omega | exact W2.fits_zero | exact VX.fits _ (by omega) (by omega) | exact MX.fits _ (by omega) (by omega) (by omega) | (simp only [W2.fits, FTy.code]; omega) | (simp only [W2.fits]; omega) | (intro q; exact ⟨rfl, rfl⟩) | (intro q; rfl) | (intro q; omega)
  intro r hr ht
  show decMatrix r = _
  simp only [decMatrix, hr.op]
  simp [fin2, hr.d, hr.a, hr.b, hr.fn5]

theorem mstatNbf (d : XReg) : Statement (.mstatNbf d) := by
  intro hw r h
  injection h with h; subst h
  refine Reads.formA (x := {}) (by decide) (by decide) (by decide) ?_ ?_ ?_ ?_ ?_ ?_ ?_ ?_ ?_ ?_
  any_goals first | decide | omega | exact W2.fits_zero | exact VX.fits _ (by omega) (by omega) | exact MX.fits _ (by omega) (by omega) (by omega) | (simp only [W2.fits, FTy.code]; omega) | (simp only [W2.fits]; omega) | (intro q; exact ⟨rfl, rfl⟩) | (intro q; rfl) | (intro q; omega)
  intro r hr ht
  show decMatrix r = _
  simp only [decMatrix, hr.op]
  simp [fin2, hr.d, hr.a, hr.b, hr.fn5]

theorem mstatErr (d : XReg) : Statement (.mstatErr d) := by
  intro hw r h
  injection h with h; subst h
  refine Reads.formA (x := {}) (by decide) (by decide) (by decide) ?_ ?_ ?_ ?_ ?_ ?_ ?_ ?_ ?_ ?_
  any_goals first | decide | omega | exact W2.fits_zero | exact VX.fits _ (by omega) (by omega) | exact MX.fits _ (by omega) (by omega) (by omega) | (simp only [W2.fits, FTy.code]; omega) | (simp only [W2.fits]; omega) | (intro q; exact ⟨rfl, rfl⟩) | (intro q; rfl) | (intro q; omega)
  intro r hr ht
  show decMatrix r = _
  simp only [decMatrix, hr.op]
  simp [fin2, hr.d, hr.a, hr.b, hr.fn5]

theorem leaseGet (d a : XReg) : Statement (.leaseGet d a) := by
  intro hw r h
  injection h with h; subst h
  refine Reads.formA (x := {}) (by decide) (by decide) (by decide) ?_ ?_ ?_ ?_ ?_ ?_ ?_ ?_ ?_ ?_
  any_goals first | decide | omega | exact W2.fits_zero | exact VX.fits _ (by omega) (by omega) | exact MX.fits _ (by omega) (by omega) (by omega) | (simp only [W2.fits, FTy.code]; omega) | (simp only [W2.fits]; omega) | (intro q; exact ⟨rfl, rfl⟩) | (intro q; rfl) | (intro q; omega)
  intro r hr ht
  show decMatrix r = _
  simp only [decMatrix, hr.op]
  simp [fin2, hr.d, hr.a, hr.b, hr.fn5]

theorem leaseCmd (d a b : XReg) : Statement (.leaseCmd d a b) := by
  intro hw r h
  injection h with h; subst h
  refine Reads.formA (x := {}) (by decide) (by decide) (by decide) ?_ ?_ ?_ ?_ ?_ ?_ ?_ ?_ ?_ ?_
  any_goals first | decide | omega | exact W2.fits_zero | exact VX.fits _ (by omega) (by omega) | exact MX.fits _ (by omega) (by omega) (by omega) | (simp only [W2.fits, FTy.code]; omega) | (simp only [W2.fits]; omega) | (intro q; exact ⟨rfl, rfl⟩) | (intro q; rfl) | (intro q; omega)
  intro r hr ht
  show decMatrix r = _
  simp only [decMatrix, hr.op]
  simp [fin2, hr.d, hr.a, hr.b, hr.fn5]

theorem leaseRel (a : XReg) : Statement (.leaseRel a) := by
  intro hw r h
  injection h with h; subst h
  refine Reads.formA (x := {}) (by decide) (by decide) (by decide) ?_ ?_ ?_ ?_ ?_ ?_ ?_ ?_ ?_ ?_
  any_goals first | decide | omega | exact W2.fits_zero | exact VX.fits _ (by omega) (by omega) | exact MX.fits _ (by omega) (by omega) (by omega) | (simp only [W2.fits, FTy.code]; omega) | (simp only [W2.fits]; omega) | (intro q; exact ⟨rfl, rfl⟩) | (intro q; rfl) | (intro q; omega)
  intro r hr ht
  show decMatrix r = _
  simp only [decMatrix, hr.op]
  simp [fin2, hr.d, hr.a, hr.b, hr.fn5]

theorem leaseGrant (die : Nat) : Statement (.leaseGrant die) := by
  intro _ r h
  have h : (none : Option Raw) = some r := h
  cases h

theorem leaseExpiry (die eng : Nat) : Statement (.leaseExpiry die eng) := by
  intro _ r h
  have h : (none : Option Raw) = some r := h
  cases h

theorem pooledEngineCommand (die : Nat) (eng : LandStep) : Statement (.pooledEngineCommand die eng) := by
  intro _ r h
  have h : (none : Option Raw) = some r := h
  cases h

theorem tlbiVf (a : XReg) : Statement (.tlbiVf a) := by
  intro hw r h
  injection h with h; subst h
  refine Reads.formA (x := {}) (by decide) (by decide) (by decide) ?_ ?_ ?_ ?_ ?_ ?_ ?_ ?_ ?_ ?_
  any_goals first | decide | omega | exact W2.fits_zero | exact VX.fits _ (by omega) (by omega) | exact MX.fits _ (by omega) (by omega) (by omega) | (simp only [W2.fits, FTy.code]; omega) | (simp only [W2.fits]; omega) | (intro q; exact ⟨rfl, rfl⟩) | (intro q; rfl) | (intro q; omega)
  intro r hr ht
  show decMatrix r = _
  simp only [decMatrix, hr.op]
  simp [fin2, hr.d, hr.a, hr.b, hr.fn5]

theorem tlbiCtx (a : XReg) : Statement (.tlbiCtx a) := by
  intro hw r h
  injection h with h; subst h
  refine Reads.formA (x := {}) (by decide) (by decide) (by decide) ?_ ?_ ?_ ?_ ?_ ?_ ?_ ?_ ?_ ?_
  any_goals first | decide | omega | exact W2.fits_zero | exact VX.fits _ (by omega) (by omega) | exact MX.fits _ (by omega) (by omega) (by omega) | (simp only [W2.fits, FTy.code]; omega) | (simp only [W2.fits]; omega) | (intro q; exact ⟨rfl, rfl⟩) | (intro q; rfl) | (intro q; omega)
  intro r hr ht
  show decMatrix r = _
  simp only [decMatrix, hr.op]
  simp [fin2, hr.d, hr.a, hr.b, hr.fn5]

theorem tlbiVa (a b : XReg) : Statement (.tlbiVa a b) := by
  intro hw r h
  injection h with h; subst h
  refine Reads.formA (x := {}) (by decide) (by decide) (by decide) ?_ ?_ ?_ ?_ ?_ ?_ ?_ ?_ ?_ ?_
  any_goals first | decide | omega | exact W2.fits_zero | exact VX.fits _ (by omega) (by omega) | exact MX.fits _ (by omega) (by omega) (by omega) | (simp only [W2.fits, FTy.code]; omega) | (simp only [W2.fits]; omega) | (intro q; exact ⟨rfl, rfl⟩) | (intro q; rfl) | (intro q; omega)
  intro r hr ht
  show decMatrix r = _
  simp only [decMatrix, hr.op]
  simp [fin2, hr.d, hr.a, hr.b, hr.fn5]

theorem tlbiGpa (a b : XReg) : Statement (.tlbiGpa a b) := by
  intro hw r h
  injection h with h; subst h
  refine Reads.formA (x := {}) (by decide) (by decide) (by decide) ?_ ?_ ?_ ?_ ?_ ?_ ?_ ?_ ?_ ?_
  any_goals first | decide | omega | exact W2.fits_zero | exact VX.fits _ (by omega) (by omega) | exact MX.fits _ (by omega) (by omega) (by omega) | (simp only [W2.fits, FTy.code]; omega) | (simp only [W2.fits]; omega) | (intro q; exact ⟨rfl, rfl⟩) | (intro q; rfl) | (intro q; omega)
  intro r hr ht
  show decMatrix r = _
  simp only [decMatrix, hr.op]
  simp [fin2, hr.d, hr.a, hr.b, hr.fn5]

theorem tlbiAll : Statement .tlbiAll := by
  intro hw r h
  injection h with h; subst h
  refine Reads.formA (x := {}) (by decide) (by decide) (by decide) ?_ ?_ ?_ ?_ ?_ ?_ ?_ ?_ ?_ ?_
  any_goals first | decide | omega | exact W2.fits_zero | exact VX.fits _ (by omega) (by omega) | exact MX.fits _ (by omega) (by omega) (by omega) | (simp only [W2.fits, FTy.code]; omega) | (simp only [W2.fits]; omega) | (intro q; exact ⟨rfl, rfl⟩) | (intro q; rfl) | (intro q; omega)
  intro r hr ht
  show decMatrix r = _
  simp only [decMatrix, hr.op]
  simp [fin2, hr.d, hr.a, hr.b, hr.fn5]

theorem dharv (d a b : XReg) : Statement (.dharv d a b) := by
  intro hw r h
  injection h with h; subst h
  refine Reads.formA (x := {}) (by decide) (by decide) (by decide) ?_ ?_ ?_ ?_ ?_ ?_ ?_ ?_ ?_ ?_
  any_goals first | decide | omega | exact W2.fits_zero | exact VX.fits _ (by omega) (by omega) | exact MX.fits _ (by omega) (by omega) (by omega) | (simp only [W2.fits, FTy.code]; omega) | (simp only [W2.fits]; omega) | (intro q; exact ⟨rfl, rfl⟩) | (intro q; rfl) | (intro q; omega)
  intro r hr ht
  show decMatrix r = _
  simp only [decMatrix, hr.op]
  simp [fin2, hr.d, hr.a, hr.b, hr.fn5]

theorem cfgPart (d a : XReg) (t : CfgTarget) : Statement (.cfgPart d a t) := by
  intro hw r h
  rcases t with b | v
  all_goals
    injection h with h; subst h
    refine Reads.formA (x := {}) (by decide) (by decide) (by decide) ?_ ?_ ?_ ?_ ?_ ?_ ?_ ?_ ?_ ?_
    any_goals first | decide | omega | exact W2.fits_zero | exact VX.fits _ (by omega) (by omega) | exact MX.fits _ (by omega) (by omega) (by omega) | (simp only [W2.fits, FTy.code]; omega) | (simp only [W2.fits]; omega) | (intro q; exact ⟨rfl, rfl⟩) | (intro q; rfl) | (intro q; omega)
    intro r hr ht
    show decMatrix r = _
    simp only [decMatrix, hr.op]
    simp [fin2, decCfg, hr.len, hr.d, hr.a, hr.b, hr.fn5, ht.w1, ht.w2, ht.lit]

theorem cfgPdel (d a : XReg) (t : CfgTarget) : Statement (.cfgPdel d a t) := by
  intro hw r h
  have hw : ((a = 0 : Bool)) = true := hw
  rcases t with b | v
  all_goals
    injection h with h; subst h
    refine Reads.formA (x := {}) (by decide) (by decide) (by decide) ?_ ?_ ?_ ?_ ?_ ?_ ?_ ?_ ?_ ?_
    any_goals first | decide | omega | exact W2.fits_zero | exact VX.fits _ (by omega) (by omega) | exact MX.fits _ (by omega) (by omega) (by omega) | (simp only [W2.fits, FTy.code]; omega) | (simp only [W2.fits]; omega) | (intro q; exact ⟨rfl, rfl⟩) | (intro q; rfl) | (intro q; omega)
    intro r hr ht
    show decMatrix r = _
    simp only [decMatrix, hr.op]
    simp_all [fin2, decCfg, hr.len, hr.d, hr.a, hr.b, hr.fn5, ht.w1, ht.w2, ht.lit]

theorem cfgCtx (d a : XReg) (t : CfgTarget) : Statement (.cfgCtx d a t) := by
  intro hw r h
  rcases t with b | v
  all_goals
    injection h with h; subst h
    refine Reads.formA (x := {}) (by decide) (by decide) (by decide) ?_ ?_ ?_ ?_ ?_ ?_ ?_ ?_ ?_ ?_
    any_goals first | decide | omega | exact W2.fits_zero | exact VX.fits _ (by omega) (by omega) | exact MX.fits _ (by omega) (by omega) (by omega) | (simp only [W2.fits, FTy.code]; omega) | (simp only [W2.fits]; omega) | (intro q; exact ⟨rfl, rfl⟩) | (intro q; rfl) | (intro q; omega)
    intro r hr ht
    show decMatrix r = _
    simp only [decMatrix, hr.op]
    simp [fin2, decCfg, hr.len, hr.d, hr.a, hr.b, hr.fn5, ht.w1, ht.w2, ht.lit]

theorem cfgQueue (d a : XReg) (t : CfgTarget) : Statement (.cfgQueue d a t) := by
  intro hw r h
  rcases t with b | v
  all_goals
    injection h with h; subst h
    refine Reads.formA (x := {}) (by decide) (by decide) (by decide) ?_ ?_ ?_ ?_ ?_ ?_ ?_ ?_ ?_ ?_
    any_goals first | decide | omega | exact W2.fits_zero | exact VX.fits _ (by omega) (by omega) | exact MX.fits _ (by omega) (by omega) (by omega) | (simp only [W2.fits, FTy.code]; omega) | (simp only [W2.fits]; omega) | (intro q; exact ⟨rfl, rfl⟩) | (intro q; rfl) | (intro q; omega)
    intro r hr ht
    show decMatrix r = _
    simp only [decMatrix, hr.op]
    simp [fin2, decCfg, hr.len, hr.d, hr.a, hr.b, hr.fn5, ht.w1, ht.w2, ht.lit]

theorem cfgInst (d a : XReg) (t : CfgTarget) : Statement (.cfgInst d a t) := by
  intro hw r h
  rcases t with b | v
  all_goals
    injection h with h; subst h
    refine Reads.formA (x := {}) (by decide) (by decide) (by decide) ?_ ?_ ?_ ?_ ?_ ?_ ?_ ?_ ?_ ?_
    any_goals first | decide | omega | exact W2.fits_zero | exact VX.fits _ (by omega) (by omega) | exact MX.fits _ (by omega) (by omega) (by omega) | (simp only [W2.fits, FTy.code]; omega) | (simp only [W2.fits]; omega) | (intro q; exact ⟨rfl, rfl⟩) | (intro q; rfl) | (intro q; omega)
    intro r hr ht
    show decMatrix r = _
    simp only [decMatrix, hr.op]
    simp [fin2, decCfg, hr.len, hr.d, hr.a, hr.b, hr.fn5, ht.w1, ht.w2, ht.lit]

theorem cfgRtab (d a : XReg) (t : CfgTarget) : Statement (.cfgRtab d a t) := by
  intro hw r h
  rcases t with b | v
  all_goals
    injection h with h; subst h
    refine Reads.formA (x := {}) (by decide) (by decide) (by decide) ?_ ?_ ?_ ?_ ?_ ?_ ?_ ?_ ?_ ?_
    any_goals first | decide | omega | exact W2.fits_zero | exact VX.fits _ (by omega) (by omega) | exact MX.fits _ (by omega) (by omega) (by omega) | (simp only [W2.fits, FTy.code]; omega) | (simp only [W2.fits]; omega) | (intro q; exact ⟨rfl, rfl⟩) | (intro q; rfl) | (intro q; omega)
    intro r hr ht
    show decMatrix r = _
    simp only [decMatrix, hr.op]
    simp [fin2, decCfg, hr.len, hr.d, hr.a, hr.b, hr.fn5, ht.w1, ht.w2, ht.lit]

theorem cfgCls (d a : XReg) (t : CfgTarget) : Statement (.cfgCls d a t) := by
  intro hw r h
  rcases t with b | v
  all_goals
    injection h with h; subst h
    refine Reads.formA (x := {}) (by decide) (by decide) (by decide) ?_ ?_ ?_ ?_ ?_ ?_ ?_ ?_ ?_ ?_
    any_goals first | decide | omega | exact W2.fits_zero | exact VX.fits _ (by omega) (by omega) | exact MX.fits _ (by omega) (by omega) (by omega) | (simp only [W2.fits, FTy.code]; omega) | (simp only [W2.fits]; omega) | (intro q; exact ⟨rfl, rfl⟩) | (intro q; rfl) | (intro q; omega)
    intro r hr ht
    show decMatrix r = _
    simp only [decMatrix, hr.op]
    simp [fin2, decCfg, hr.len, hr.d, hr.a, hr.b, hr.fn5, ht.w1, ht.w2, ht.lit]

theorem cfgMwt (d a : XReg) (t : CfgTarget) : Statement (.cfgMwt d a t) := by
  intro hw r h
  rcases t with b | v
  all_goals
    injection h with h; subst h
    refine Reads.formA (x := {}) (by decide) (by decide) (by decide) ?_ ?_ ?_ ?_ ?_ ?_ ?_ ?_ ?_ ?_
    any_goals first | decide | omega | exact W2.fits_zero | exact VX.fits _ (by omega) (by omega) | exact MX.fits _ (by omega) (by omega) (by omega) | (simp only [W2.fits, FTy.code]; omega) | (simp only [W2.fits]; omega) | (intro q; exact ⟨rfl, rfl⟩) | (intro q; rfl) | (intro q; omega)
    intro r hr ht
    show decMatrix r = _
    simp only [decMatrix, hr.op]
    simp [fin2, decCfg, hr.len, hr.d, hr.a, hr.b, hr.fn5, ht.w1, ht.w2, ht.lit]

theorem cfgGw (d a : XReg) (t : CfgTarget) : Statement (.cfgGw d a t) := by
  intro hw r h
  rcases t with b | v
  all_goals
    injection h with h; subst h
    refine Reads.formA (x := {}) (by decide) (by decide) (by decide) ?_ ?_ ?_ ?_ ?_ ?_ ?_ ?_ ?_ ?_
    any_goals first | decide | omega | exact W2.fits_zero | exact VX.fits _ (by omega) (by omega) | exact MX.fits _ (by omega) (by omega) (by omega) | (simp only [W2.fits, FTy.code]; omega) | (simp only [W2.fits]; omega) | (intro q; exact ⟨rfl, rfl⟩) | (intro q; rfl) | (intro q; omega)
    intro r hr ht
    show decMatrix r = _
    simp only [decMatrix, hr.op]
    simp [fin2, decCfg, hr.len, hr.d, hr.a, hr.b, hr.fn5, ht.w1, ht.w2, ht.lit]

theorem cfgTwin (d a : XReg) (t : CfgTarget) : Statement (.cfgTwin d a t) := by
  intro hw r h
  rcases t with b | v
  all_goals
    injection h with h; subst h
    refine Reads.formA (x := {}) (by decide) (by decide) (by decide) ?_ ?_ ?_ ?_ ?_ ?_ ?_ ?_ ?_ ?_
    any_goals first | decide | omega | exact W2.fits_zero | exact VX.fits _ (by omega) (by omega) | exact MX.fits _ (by omega) (by omega) (by omega) | (simp only [W2.fits, FTy.code]; omega) | (simp only [W2.fits]; omega) | (intro q; exact ⟨rfl, rfl⟩) | (intro q; rfl) | (intro q; omega)
    intro r hr ht
    show decMatrix r = _
    simp only [decMatrix, hr.op]
    simp [fin2, decCfg, hr.len, hr.d, hr.a, hr.b, hr.fn5, ht.w1, ht.w2, ht.lit]

theorem cfgRrep (d a : XReg) (t : CfgTarget) : Statement (.cfgRrep d a t) := by
  intro hw r h
  rcases t with b | v
  all_goals
    injection h with h; subst h
    refine Reads.formA (x := {}) (by decide) (by decide) (by decide) ?_ ?_ ?_ ?_ ?_ ?_ ?_ ?_ ?_ ?_
    any_goals first | decide | omega | exact W2.fits_zero | exact VX.fits _ (by omega) (by omega) | exact MX.fits _ (by omega) (by omega) (by omega) | (simp only [W2.fits, FTy.code]; omega) | (simp only [W2.fits]; omega) | (intro q; exact ⟨rfl, rfl⟩) | (intro q; rfl) | (intro q; omega)
    intro r hr ht
    show decMatrix r = _
    simp only [decMatrix, hr.op]
    simp [fin2, decCfg, hr.len, hr.d, hr.a, hr.b, hr.fn5, ht.w1, ht.w2, ht.lit]

theorem sealQ (d a : XReg) : Statement (.sealQ d a) := by
  intro hw r h
  injection h with h; subst h
  refine Reads.formA (x := {}) (by decide) (by decide) (by decide) ?_ ?_ ?_ ?_ ?_ ?_ ?_ ?_ ?_ ?_
  any_goals first | decide | omega | exact W2.fits_zero | exact VX.fits _ (by omega) (by omega) | exact MX.fits _ (by omega) (by omega) (by omega) | (simp only [W2.fits, FTy.code]; omega) | (simp only [W2.fits]; omega) | (intro q; exact ⟨rfl, rfl⟩) | (intro q; rfl) | (intro q; omega)
  intro r hr ht
  show decMatrix r = _
  simp only [decMatrix, hr.op]
  simp [fin2, hr.d, hr.a, hr.b, hr.fn5]

theorem sealOn (d a : XReg) : Statement (.sealOn d a) := by
  intro hw r h
  injection h with h; subst h
  refine Reads.formA (x := {}) (by decide) (by decide) (by decide) ?_ ?_ ?_ ?_ ?_ ?_ ?_ ?_ ?_ ?_
  any_goals first | decide | omega | exact W2.fits_zero | exact VX.fits _ (by omega) (by omega) | exact MX.fits _ (by omega) (by omega) (by omega) | (simp only [W2.fits, FTy.code]; omega) | (simp only [W2.fits]; omega) | (intro q; exact ⟨rfl, rfl⟩) | (intro q; rfl) | (intro q; omega)
  intro r hr ht
  show decMatrix r = _
  simp only [decMatrix, hr.op]
  simp [fin2, hr.d, hr.a, hr.b, hr.fn5]

theorem sealOff (d a : XReg) : Statement (.sealOff d a) := by
  intro hw r h
  injection h with h; subst h
  refine Reads.formA (x := {}) (by decide) (by decide) (by decide) ?_ ?_ ?_ ?_ ?_ ?_ ?_ ?_ ?_ ?_
  any_goals first | decide | omega | exact W2.fits_zero | exact VX.fits _ (by omega) (by omega) | exact MX.fits _ (by omega) (by omega) (by omega) | (simp only [W2.fits, FTy.code]; omega) | (simp only [W2.fits]; omega) | (intro q; exact ⟨rfl, rfl⟩) | (intro q; rfl) | (intro q; omega)
  intro r hr ht
  show decMatrix r = _
  simp only [decMatrix, hr.op]
  simp [fin2, hr.d, hr.a, hr.b, hr.fn5]

theorem scrubMem (d a b : XReg) : Statement (.scrubMem d a b) := by
  intro hw r h
  injection h with h; subst h
  refine Reads.formA (x := {}) (by decide) (by decide) (by decide) ?_ ?_ ?_ ?_ ?_ ?_ ?_ ?_ ?_ ?_
  any_goals first | decide | omega | exact W2.fits_zero | exact VX.fits _ (by omega) (by omega) | exact MX.fits _ (by omega) (by omega) (by omega) | (simp only [W2.fits, FTy.code]; omega) | (simp only [W2.fits]; omega) | (intro q; exact ⟨rfl, rfl⟩) | (intro q; rfl) | (intro q; omega)
  intro r hr ht
  show decMatrix r = _
  simp only [decMatrix, hr.op]
  simp [fin2, hr.d, hr.a, hr.b, hr.fn5]

theorem scrubSlice (d a : XReg) : Statement (.scrubSlice d a) := by
  intro hw r h
  injection h with h; subst h
  refine Reads.formA (x := {}) (by decide) (by decide) (by decide) ?_ ?_ ?_ ?_ ?_ ?_ ?_ ?_ ?_ ?_
  any_goals first | decide | omega | exact W2.fits_zero | exact VX.fits _ (by omega) (by omega) | exact MX.fits _ (by omega) (by omega) (by omega) | (simp only [W2.fits, FTy.code]; omega) | (simp only [W2.fits]; omega) | (intro q; exact ⟨rfl, rfl⟩) | (intro q; rfl) | (intro q; omega)
  intro r hr ht
  show decMatrix r = _
  simp only [decMatrix, hr.op]
  simp [fin2, hr.d, hr.a, hr.b, hr.fn5]

theorem pageRequestReply (part : Nat) : Statement (.pageRequestReply part) := by
  intro _ r h
  have h : (none : Option Raw) = some r := h
  cases h

theorem launchTake (q : Nat) : Statement (.launchTake q) := by
  intro _ r h
  have h : (none : Option Raw) = some r := h
  cases h

theorem queueMap (q : Nat) : Statement (.queueMap q) := by
  intro _ r h
  have h : (none : Option Raw) = some r := h
  cases h

theorem queueQuantumExpiry (q : Nat) : Statement (.queueQuantumExpiry q) := by
  intro _ r h
  have h : (none : Option Raw) = some r := h
  cases h

theorem taskRingEntryTake (lid : Nat) : Statement (.taskRingEntryTake lid) := by
  intro _ r h
  have h : (none : Option Raw) = some r := h
  cases h

theorem tileRecordRead (lid : Nat) : Statement (.tileRecordRead lid) := by
  intro _ r h
  have h : (none : Option Raw) = some r := h
  cases h

theorem taskStart (core : Nat) : Statement (.taskStart core) := by
  intro _ r h
  have h : (none : Option Raw) = some r := h
  cases h

theorem deadlinePass (lid : Nat) : Statement (.deadlinePass lid) := by
  intro _ r h
  have h : (none : Option Raw) = some r := h
  cases h

theorem steepDiversion (core : Nat) : Statement (.steepDiversion core) := by
  intro _ r h
  have h : (none : Option Raw) = some r := h
  cases h

theorem steepBudgetExpiry (core : Nat) : Statement (.steepBudgetExpiry core) := by
  intro _ r h
  have h : (none : Option Raw) = some r := h
  cases h

theorem preemptGraceExpiry (ctx : Nat) : Statement (.preemptGraceExpiry ctx) := by
  intro _ r h
  have h : (none : Option Raw) = some r := h
  cases h

theorem fullSave (ctx : Nat) : Statement (.fullSave ctx) := by
  intro _ r h
  have h : (none : Option Raw) = some r := h
  cases h

theorem preemptKillExpiry (ctx : Nat) : Statement (.preemptKillExpiry ctx) := by
  intro _ r h
  have h : (none : Option Raw) = some r := h
  cases h

theorem trapRecordWrite (ctx : Nat) : Statement (.trapRecordWrite ctx) := by
  intro _ r h
  have h : (none : Option Raw) = some r := h
  cases h

theorem trapRecordDrop (ctx : Nat) : Statement (.trapRecordDrop ctx) := by
  intro _ r h
  have h : (none : Option Raw) = some r := h
  cases h

theorem coreContainment (core : Nat) : Statement (.coreContainment core) := by
  intro _ r h
  have h : (none : Option Raw) = some r := h
  cases h

theorem placementIntervalEnd (tbl : Nat) : Statement (.placementIntervalEnd tbl) := by
  intro _ r h
  have h : (none : Option Raw) = some r := h
  cases h

theorem calderaPublish (tbl : Nat) : Statement (.calderaPublish tbl) := by
  intro _ r h
  have h : (none : Option Raw) = some r := h
  cases h

theorem replicaRetire (tbl serial : Nat) : Statement (.replicaRetire tbl serial) := by
  intro _ r h
  have h : (none : Option Raw) = some r := h
  cases h

theorem bankUnitAtomicStep (op : AtomOp) (sz : MSize) (u : UnitAt) (b c : Word) : Statement (.bankUnitAtomicStep op sz u b c) := by
  intro _ r h
  have h : (none : Option Raw) = some r := h
  cases h

theorem putLanding (peer : Word) (wnum off : Nat) (put : PutStep) : Statement (.putLanding peer wnum off put) := by
  intro _ r h
  have h : (none : Option Raw) = some r := h
  cases h

theorem codeGranuleScan (hpa : Nat) : Statement (.codeGranuleScan hpa) := by
  intro _ r h
  have h : (none : Option Raw) = some r := h
  cases h

theorem pageWalk (ctx : Nat) (va : Word) (acc : Nat) : Statement (.pageWalk ctx va acc) := by
  intro _ r h
  have h : (none : Option Raw) = some r := h
  cases h

theorem segmentPreload (cluster : Nat) : Statement (.segmentPreload cluster) := by
  intro _ r h
  have h : (none : Option Raw) = some r := h
  cases h

theorem ptpAnnounce (data : Announce) : Statement (.ptpAnnounce data) := by
  intro _ r h
  have h : (none : Option Raw) = some r := h
  cases h

theorem ptpSync (offset : PtpMsg) (twoStep : Bool) : Statement (.ptpSync offset twoStep) := by
  intro _ r h
  have h : (none : Option Raw) = some r := h
  cases h

theorem ptpFollowUp (offset : PtpMsg) : Statement (.ptpFollowUp offset) := by
  intro _ r h
  have h : (none : Option Raw) = some r := h
  cases h

theorem ptpDelayResp (delay : PtpMsg) : Statement (.ptpDelayResp delay) := by
  intro _ r h
  have h : (none : Option Raw) = some r := h
  cases h

theorem ptpManagement (data : List Byte) : Statement (.ptpManagement data) := by
  intro _ r h
  have h : (none : Option Raw) = some r := h
  cases h

theorem ptmExchange (offset : Int) : Statement (.ptmExchange offset) := by
  intro _ r h
  have h : (none : Option Raw) = some r := h
  cases h

theorem preemptRequest (ctx g k : Nat) : Statement (.preemptRequest ctx g k) := by
  intro _ r h
  have h : (none : Option Raw) = some r := h
  cases h

theorem contextResume (ctx core : Nat) : Statement (.contextResume ctx core) := by
  intro _ r h
  have h : (none : Option Raw) = some r := h
  cases h

theorem wordRebuild (word : Nat) : Statement (.wordRebuild word) := by
  intro _ r h
  have h : (none : Option Raw) = some r := h
  cases h

theorem patrolSweep (die : Nat) (sub : Option Nat) : Statement (.patrolSweep die sub) := by
  intro _ r h
  have h : (none : Option Raw) = some r := h
  cases h

theorem dieFailure (die : Nat) : Statement (.dieFailure die) := by
  intro _ r h
  have h : (none : Option Raw) = some r := h
  cases h

theorem clockStepDown (die : Nat) : Statement (.clockStepDown die) := by
  intro _ r h
  have h : (none : Option Raw) = some r := h
  cases h

theorem clockStepUp (die : Nat) : Statement (.clockStepUp die) := by
  intro _ r h
  have h : (none : Option Raw) = some r := h
  cases h

theorem queueDoorbell (q : Nat) (v : Word) : Statement (.queueDoorbell q v) := by
  intro _ r h
  have h : (none : Option Raw) = some r := h
  cases h

theorem queueBaseSizeWrite (q : Nat) (size : Bool) (v : Word) : Statement (.queueBaseSizeWrite q size v) := by
  intro _ r h
  have h : (none : Option Raw) = some r := h
  cases h

theorem windowTableLoad (count : Nat) : Statement (.windowTableLoad count) := by
  intro _ r h
  have h : (none : Option Raw) = some r := h
  cases h

theorem ptpControlWrite (v : Word) : Statement (.ptpControlWrite v) := by
  intro _ r h
  have h : (none : Option Raw) = some r := h
  cases h

theorem registerWrite (fn off : Nat) (v : Word) : Statement (.registerWrite fn off v) := by
  intro _ r h
  have h : (none : Option Raw) = some r := h
  cases h

theorem spdmGetVersion (req : List Byte) : Statement (.spdmGetVersion req) := by
  intro _ r h
  have h : (none : Option Raw) = some r := h
  cases h

theorem spdmGetCapabilities (req : List Byte) : Statement (.spdmGetCapabilities req) := by
  intro _ r h
  have h : (none : Option Raw) = some r := h
  cases h

theorem spdmNegotiateAlgorithms (req : List Byte) : Statement (.spdmNegotiateAlgorithms req) := by
  intro _ r h
  have h : (none : Option Raw) = some r := h
  cases h

theorem spdmGetDigests (req : List Byte) : Statement (.spdmGetDigests req) := by
  intro _ r h
  have h : (none : Option Raw) = some r := h
  cases h

theorem spdmGetCertificate (slot : Nat) (req : List Byte) : Statement (.spdmGetCertificate slot req) := by
  intro _ r h
  have h : (none : Option Raw) = some r := h
  cases h

theorem spdmChallenge (req : List Byte) : Statement (.spdmChallenge req) := by
  intro _ r h
  have h : (none : Option Raw) = some r := h
  cases h

theorem spdmGetMeasurements (req : List Byte) : Statement (.spdmGetMeasurements req) := by
  intro _ r h
  have h : (none : Option Raw) = some r := h
  cases h

theorem pcieLinkFailure (link : Fin 2) : Statement (.pcieLinkFailure link) := by
  intro _ r h
  have h : (none : Option Raw) = some r := h
  cases h

theorem slovasLinkTraining (port : Nat) (peer : Word) : Statement (.slovasLinkTraining port peer) := by
  intro _ r h
  have h : (none : Option Raw) = some r := h
  cases h

theorem slovasLinkFailure (port : Nat) : Statement (.slovasLinkFailure port) := by
  intro _ r h
  have h : (none : Option Raw) = some r := h
  cases h

theorem hostWriteToDeviceMemory (ctx hpa : Nat) (data : List Byte) : Statement (.hostWriteToDeviceMemory ctx hpa data) := by
  intro _ r h
  have h : (none : Option Raw) = some r := h
  cases h

theorem loopBackEdge : Statement .loopBackEdge := by
  intro _ r h
  have h : (none : Option Raw) = some r := h
  cases h

theorem xferArrival : Statement .xferArrival := by
  intro _ r h
  have h : (none : Option Raw) = some r := h
  cases h

theorem memoryLoadReturn : Statement .memoryLoadReturn := by
  intro _ r h
  have h : (none : Option Raw) = some r := h
  cases h

theorem engineCommandStart : Statement .engineCommandStart := by
  intro _ r h
  have h : (none : Option Raw) = some r := h
  cases h

theorem mvbStackExecute : Statement .mvbStackExecute := by
  intro _ r h
  have h : (none : Option Raw) = some r := h
  cases h

theorem starvationGuard : Statement .starvationGuard := by
  intro _ r h
  have h : (none : Option Raw) = some r := h
  cases h

theorem timeSourceLoss : Statement .timeSourceLoss := by
  intro _ r h
  have h : (none : Option Raw) = some r := h
  cases h

theorem holdoverExpiry : Statement .holdoverExpiry := by
  intro _ r h
  have h : (none : Option Raw) = some r := h
  cases h

theorem tephraCopyRequest : Statement .tephraCopyRequest := by
  intro _ r h
  have h : (none : Option Raw) = some r := h
  cases h

theorem powerOn : Statement .powerOn := by
  intro _ r h
  have h : (none : Option Raw) = some r := h
  cases h

theorem warmReset : Statement .warmReset := by
  intro _ r h
  have h : (none : Option Raw) = some r := h
  cases h

theorem powerLoss : Statement .powerLoss := by
  intro _ r h
  have h : (none : Option Raw) = some r := h
  cases h

theorem coldReset : Statement .coldReset := by
  intro _ r h
  have h : (none : Option Raw) = some r := h
  cases h

theorem delayRequest : Statement .delayRequest := by
  intro _ r h
  have h : (none : Option Raw) = some r := h
  cases h

theorem fetchReturn : Statement .fetchReturn := by
  intro _ r h
  have h : (none : Option Raw) = some r := h
  cases h

end Sys2Proof.Laws.Encoding
end

