-- ==== Sys2Proof/Laws/Phys.lean ====
section
/-! SUPPORT. What the writes of host-physical memory do: they keep its canonical form, and they change the bytes named and
no other. -/

namespace Sys2Proof.Laws

open Sys2Proof Sys2Proof.Machine Sys2Proof.Safety

/-- A part of a memory in canonical form is in canonical form. -/
theorem memory_wf_filter {m : Memory} (h : m.wf = true) (p : Host.Cell → Bool) : Memory.wf (m.filter p) = true := by
  rw [Memory.wf_iff] at h ⊢
  exact ⟨h.1.filter p, fun c hc => h.2 c (List.mem_filter.mp hc).1⟩

/-- `physWrite` keeps the canonical form. -/
theorem physWrite_memOk {s : State} (h : MemOk s) (a : Nat) (bs : List Byte) : MemOk (s.physWrite a bs) := by
  unfold State.physWrite
  split
  · exact h
  · exact Memory.wf_write h a bs

/-- `physPut` keeps the canonical form. -/
theorem physPut_memOk {s : State} (h : MemOk s) (a n v : Nat) : MemOk (s.physPut a n v) := physWrite_memOk h a _

/-- `physZero` keeps the canonical form. -/
theorem physZero_memOk {s : State} (h : MemOk s) (a n : Nat) : MemOk (s.physZero a n) := by
  unfold State.physZero
  split
  · exact h
  · exact Memory.wf_zero h a n

/-- What `physWrite` leaves at an address, on memory that is in service. -/
theorem physWrite_byte (s : State) (a : Nat) (bs : List Byte) (x : Nat) (h : s.deadMem a = false) :
    (s.physWrite a bs).mem.byte x = if a ≤ x ∧ x < a + bs.length then bs.getD (x - a) 0 else s.mem.byte x := by
  unfold State.physWrite
  by_cases hb : bs = []
  · rw [if_pos (.inl hb), if_neg (by subst hb; simp)]
  · rw [if_neg (by simp [hb, h])]
    exact Memory.byte_write s.mem a bs x

/-- `physWrite` changes no byte outside the range written. -/
theorem physWrite_apart (s : State) (a : Nat) (bs : List Byte) (x : Nat) (h : x < a ∨ a + bs.length ≤ x) :
    (s.physWrite a bs).mem.byte x = s.mem.byte x := by
  cases hd : s.deadMem a with
  | false => rw [physWrite_byte s a bs x hd, if_neg (by omega)]
  | true => unfold State.physWrite; rw [if_pos (.inr hd)]

@[simp] theorem physWrite_core (s : State) (a : Nat) (bs : List Byte) : (s.physWrite a bs).core = s.core := by
  unfold State.physWrite; split <;> rfl
@[simp] theorem physWrite_others (s : State) (a : Nat) (bs : List Byte) : (s.physWrite a bs).others = s.others := by
  unfold State.physWrite; split <;> rfl
@[simp] theorem physWrite_agenda (s : State) (a : Nat) (bs : List Byte) : (s.physWrite a bs).agenda = s.agenda := by
  unfold State.physWrite; split <;> rfl
@[simp] theorem physWrite_clusters (s : State) (a : Nat) (bs : List Byte) : (s.physWrite a bs).clusters = s.clusters := by
  unfold State.physWrite; split <;> rfl
@[simp] theorem physZero_core (s : State) (a n : Nat) : (s.physZero a n).core = s.core := by
  unfold State.physZero; split <;> rfl

end Sys2Proof.Laws
end

