-- ==== Sys2Proof/Laws/State.lean ====
section
/-! SUPPORT. What the updates of the state leave: one lemma per field and update. -/

namespace Sys2Proof.Machine


/-! `State.upd` changes the acting core alone. -/

@[simp] theorem State.upd_core (s : State) (f : Core → Core) : (s.upd f).core = f s.core := rfl
@[simp] theorem State.upd_others (s : State) (f : Core → Core) : (s.upd f).others = s.others := rfl
@[simp] theorem State.upd_agenda (s : State) (f : Core → Core) : (s.upd f).agenda = s.agenda := rfl
@[simp] theorem State.upd_free (s : State) (f : Core → Core) : (s.upd f).free = s.free := rfl
@[simp] theorem State.upd_mem (s : State) (f : Core → Core) : (s.upd f).mem = s.mem := rfl
@[simp] theorem State.upd_mpois (s : State) (f : Core → Core) : (s.upd f).mpois = s.mpois := rfl
@[simp] theorem State.upd_flips (s : State) (f : Core → Core) : (s.upd f).flips = s.flips := rfl
@[simp] theorem State.upd_sweeps (s : State) (f : Core → Core) : (s.upd f).sweeps = s.sweeps := rfl
@[simp] theorem State.upd_rows (s : State) (f : Core → Core) : (s.upd f).rows = s.rows := rfl
@[simp] theorem State.upd_clusters (s : State) (f : Core → Core) : (s.upd f).clusters = s.clusters := rfl
@[simp] theorem State.upd_out (s : State) (f : Core → Core) : (s.upd f).out = s.out := rfl
@[simp] theorem State.upd_stack (s : State) (f : Core → Core) : (s.upd f).stack = s.stack := rfl
@[simp] theorem State.upd_drains (s : State) (f : Core → Core) : (s.upd f).drains = s.drains := rfl
@[simp] theorem State.upd_l2tlb (s : State) (f : Core → Core) : (s.upd f).l2tlb = s.l2tlb := rfl
@[simp] theorem State.upd_scans (s : State) (f : Core → Core) : (s.upd f).scans = s.scans := rfl
@[simp] theorem State.upd_twins (s : State) (f : Core → Core) : (s.upd f).twins = s.twins := rfl
@[simp] theorem State.upd_parts (s : State) (f : Core → Core) : (s.upd f).parts = s.parts := rfl
@[simp] theorem State.upd_ctxs (s : State) (f : Core → Core) : (s.upd f).ctxs = s.ctxs := rfl
@[simp] theorem State.upd_queues (s : State) (f : Core → Core) : (s.upd f).queues = s.queues := rfl
@[simp] theorem State.upd_launches (s : State) (f : Core → Core) : (s.upd f).launches = s.launches := rfl
@[simp] theorem State.upd_nextLid (s : State) (f : Core → Core) : (s.upd f).nextLid = s.nextLid := rfl
@[simp] theorem State.upd_succs (s : State) (f : Core → Core) : (s.upd f).succs = s.succs := rfl
@[simp] theorem State.upd_images (s : State) (f : Core → Core) : (s.upd f).images = s.images := rfl
@[simp] theorem State.upd_nets (s : State) (f : Core → Core) : (s.upd f).nets = s.nets := rfl
@[simp] theorem State.upd_tables (s : State) (f : Core → Core) : (s.upd f).tables = s.tables := rfl
@[simp] theorem State.upd_unpins (s : State) (f : Core → Core) : (s.upd f).unpins = s.unpins := rfl
@[simp] theorem State.upd_gates (s : State) (f : Core → Core) : (s.upd f).gates = s.gates := rfl
@[simp] theorem State.upd_leases (s : State) (f : Core → Core) : (s.upd f).leases = s.leases := rfl
@[simp] theorem State.upd_lwaits (s : State) (f : Core → Core) : (s.upd f).lwaits = s.lwaits := rfl
@[simp] theorem State.upd_lserial (s : State) (f : Core → Core) : (s.upd f).lserial = s.lserial := rfl
@[simp] theorem State.upd_msgs (s : State) (f : Core → Core) : (s.upd f).msgs = s.msgs := rfl
@[simp] theorem State.upd_nmsgs (s : State) (f : Core → Core) : (s.upd f).nmsgs = s.nmsgs := rfl
@[simp] theorem State.upd_puts (s : State) (f : Core → Core) : (s.upd f).puts = s.puts := rfl
@[simp] theorem State.upd_putOuts (s : State) (f : Core → Core) : (s.upd f).putOuts = s.putOuts := rfl
@[simp] theorem State.upd_putIns (s : State) (f : Core → Core) : (s.upd f).putIns = s.putIns := rfl
@[simp] theorem State.upd_putSer (s : State) (f : Core → Core) : (s.upd f).putSer = s.putSer := rfl
@[simp] theorem State.upd_putNos (s : State) (f : Core → Core) : (s.upd f).putNos = s.putNos := rfl
@[simp] theorem State.upd_stores (s : State) (f : Core → Core) : (s.upd f).stores = s.stores := rfl
@[simp] theorem State.upd_dirties (s : State) (f : Core → Core) : (s.upd f).dirties = s.dirties := rfl
@[simp] theorem State.upd_failed (s : State) (f : Core → Core) : (s.upd f).failed = s.failed := rfl
@[simp] theorem State.upd_tephra (s : State) (f : Core → Core) : (s.upd f).tephra = s.tephra := rfl
@[simp] theorem State.upd_evBase (s : State) (f : Core → Core) : (s.upd f).evBase = s.evBase := rfl
@[simp] theorem State.upd_evLg (s : State) (f : Core → Core) : (s.upd f).evLg = s.evLg := rfl
@[simp] theorem State.upd_evProd (s : State) (f : Core → Core) : (s.upd f).evProd = s.evProd := rfl
@[simp] theorem State.upd_evCons (s : State) (f : Core → Core) : (s.upd f).evCons = s.evCons := rfl
@[simp] theorem State.upd_evLost (s : State) (f : Core → Core) : (s.upd f).evLost = s.evLost := rfl
@[simp] theorem State.upd_dieEv (s : State) (f : Core → Core) : (s.upd f).dieEv = s.dieEv := rfl
@[simp] theorem State.upd_time (s : State) (f : Core → Core) : (s.upd f).time = s.time := rfl
@[simp] theorem State.upd_winBase (s : State) (f : Core → Core) : (s.upd f).winBase = s.winBase := rfl
@[simp] theorem State.upd_winCount (s : State) (f : Core → Core) : (s.upd f).winCount = s.winCount := rfl
@[simp] theorem State.upd_windows (s : State) (f : Core → Core) : (s.upd f).windows = s.windows := rfl
@[simp] theorem State.upd_peers (s : State) (f : Core → Core) : (s.upd f).peers = s.peers := rfl
@[simp] theorem State.upd_pcie (s : State) (f : Core → Core) : (s.upd f).pcie = s.pcie := rfl
@[simp] theorem State.upd_clock (s : State) (f : Core → Core) : (s.upd f).clock = s.clock := rfl
@[simp] theorem State.upd_start (s : State) (f : Core → Core) : (s.upd f).start = s.start := rfl
@[simp] theorem State.upd_boots (s : State) (f : Core → Core) : (s.upd f).boots = s.boots := rfl
@[simp] theorem State.upd_record (s : State) (f : Core → Core) : (s.upd f).record = s.record := rfl
@[simp] theorem State.upd_rollback (s : State) (f : Core → Core) : (s.upd f).rollback = s.rollback := rfl
@[simp] theorem State.upd_spdm (s : State) (f : Core → Core) : (s.upd f).spdm = s.spdm := rfl

/-! `State.modCtx` changes `ctxs` alone. -/

@[simp] theorem State.modCtx_core (s : State) (n : Nat) (f : Context → Context) : (s.modCtx n f).core = s.core := rfl
@[simp] theorem State.modCtx_others (s : State) (n : Nat) (f : Context → Context) : (s.modCtx n f).others = s.others := rfl
@[simp] theorem State.modCtx_agenda (s : State) (n : Nat) (f : Context → Context) : (s.modCtx n f).agenda = s.agenda := rfl
@[simp] theorem State.modCtx_free (s : State) (n : Nat) (f : Context → Context) : (s.modCtx n f).free = s.free := rfl
@[simp] theorem State.modCtx_mem (s : State) (n : Nat) (f : Context → Context) : (s.modCtx n f).mem = s.mem := rfl
@[simp] theorem State.modCtx_mpois (s : State) (n : Nat) (f : Context → Context) : (s.modCtx n f).mpois = s.mpois := rfl
@[simp] theorem State.modCtx_flips (s : State) (n : Nat) (f : Context → Context) : (s.modCtx n f).flips = s.flips := rfl
@[simp] theorem State.modCtx_sweeps (s : State) (n : Nat) (f : Context → Context) : (s.modCtx n f).sweeps = s.sweeps := rfl
@[simp] theorem State.modCtx_rows (s : State) (n : Nat) (f : Context → Context) : (s.modCtx n f).rows = s.rows := rfl
@[simp] theorem State.modCtx_clusters (s : State) (n : Nat) (f : Context → Context) : (s.modCtx n f).clusters = s.clusters := rfl
@[simp] theorem State.modCtx_out (s : State) (n : Nat) (f : Context → Context) : (s.modCtx n f).out = s.out := rfl
@[simp] theorem State.modCtx_stack (s : State) (n : Nat) (f : Context → Context) : (s.modCtx n f).stack = s.stack := rfl
@[simp] theorem State.modCtx_drains (s : State) (n : Nat) (f : Context → Context) : (s.modCtx n f).drains = s.drains := rfl
@[simp] theorem State.modCtx_l2tlb (s : State) (n : Nat) (f : Context → Context) : (s.modCtx n f).l2tlb = s.l2tlb := rfl
@[simp] theorem State.modCtx_scans (s : State) (n : Nat) (f : Context → Context) : (s.modCtx n f).scans = s.scans := rfl
@[simp] theorem State.modCtx_twins (s : State) (n : Nat) (f : Context → Context) : (s.modCtx n f).twins = s.twins := rfl
@[simp] theorem State.modCtx_parts (s : State) (n : Nat) (f : Context → Context) : (s.modCtx n f).parts = s.parts := rfl
@[simp] theorem State.modCtx_queues (s : State) (n : Nat) (f : Context → Context) : (s.modCtx n f).queues = s.queues := rfl
@[simp] theorem State.modCtx_launches (s : State) (n : Nat) (f : Context → Context) : (s.modCtx n f).launches = s.launches := rfl
@[simp] theorem State.modCtx_nextLid (s : State) (n : Nat) (f : Context → Context) : (s.modCtx n f).nextLid = s.nextLid := rfl
@[simp] theorem State.modCtx_succs (s : State) (n : Nat) (f : Context → Context) : (s.modCtx n f).succs = s.succs := rfl
@[simp] theorem State.modCtx_images (s : State) (n : Nat) (f : Context → Context) : (s.modCtx n f).images = s.images := rfl
@[simp] theorem State.modCtx_nets (s : State) (n : Nat) (f : Context → Context) : (s.modCtx n f).nets = s.nets := rfl
@[simp] theorem State.modCtx_tables (s : State) (n : Nat) (f : Context → Context) : (s.modCtx n f).tables = s.tables := rfl
@[simp] theorem State.modCtx_unpins (s : State) (n : Nat) (f : Context → Context) : (s.modCtx n f).unpins = s.unpins := rfl
@[simp] theorem State.modCtx_gates (s : State) (n : Nat) (f : Context → Context) : (s.modCtx n f).gates = s.gates := rfl
@[simp] theorem State.modCtx_leases (s : State) (n : Nat) (f : Context → Context) : (s.modCtx n f).leases = s.leases := rfl
@[simp] theorem State.modCtx_lwaits (s : State) (n : Nat) (f : Context → Context) : (s.modCtx n f).lwaits = s.lwaits := rfl
@[simp] theorem State.modCtx_lserial (s : State) (n : Nat) (f : Context → Context) : (s.modCtx n f).lserial = s.lserial := rfl
@[simp] theorem State.modCtx_msgs (s : State) (n : Nat) (f : Context → Context) : (s.modCtx n f).msgs = s.msgs := rfl
@[simp] theorem State.modCtx_nmsgs (s : State) (n : Nat) (f : Context → Context) : (s.modCtx n f).nmsgs = s.nmsgs := rfl
@[simp] theorem State.modCtx_puts (s : State) (n : Nat) (f : Context → Context) : (s.modCtx n f).puts = s.puts := rfl
@[simp] theorem State.modCtx_putOuts (s : State) (n : Nat) (f : Context → Context) : (s.modCtx n f).putOuts = s.putOuts := rfl
@[simp] theorem State.modCtx_putIns (s : State) (n : Nat) (f : Context → Context) : (s.modCtx n f).putIns = s.putIns := rfl
@[simp] theorem State.modCtx_putSer (s : State) (n : Nat) (f : Context → Context) : (s.modCtx n f).putSer = s.putSer := rfl
@[simp] theorem State.modCtx_putNos (s : State) (n : Nat) (f : Context → Context) : (s.modCtx n f).putNos = s.putNos := rfl
@[simp] theorem State.modCtx_stores (s : State) (n : Nat) (f : Context → Context) : (s.modCtx n f).stores = s.stores := rfl
@[simp] theorem State.modCtx_dirties (s : State) (n : Nat) (f : Context → Context) : (s.modCtx n f).dirties = s.dirties := rfl
@[simp] theorem State.modCtx_failed (s : State) (n : Nat) (f : Context → Context) : (s.modCtx n f).failed = s.failed := rfl
@[simp] theorem State.modCtx_tephra (s : State) (n : Nat) (f : Context → Context) : (s.modCtx n f).tephra = s.tephra := rfl
@[simp] theorem State.modCtx_evBase (s : State) (n : Nat) (f : Context → Context) : (s.modCtx n f).evBase = s.evBase := rfl
@[simp] theorem State.modCtx_evLg (s : State) (n : Nat) (f : Context → Context) : (s.modCtx n f).evLg = s.evLg := rfl
@[simp] theorem State.modCtx_evProd (s : State) (n : Nat) (f : Context → Context) : (s.modCtx n f).evProd = s.evProd := rfl
@[simp] theorem State.modCtx_evCons (s : State) (n : Nat) (f : Context → Context) : (s.modCtx n f).evCons = s.evCons := rfl
@[simp] theorem State.modCtx_evLost (s : State) (n : Nat) (f : Context → Context) : (s.modCtx n f).evLost = s.evLost := rfl
@[simp] theorem State.modCtx_dieEv (s : State) (n : Nat) (f : Context → Context) : (s.modCtx n f).dieEv = s.dieEv := rfl
@[simp] theorem State.modCtx_time (s : State) (n : Nat) (f : Context → Context) : (s.modCtx n f).time = s.time := rfl
@[simp] theorem State.modCtx_winBase (s : State) (n : Nat) (f : Context → Context) : (s.modCtx n f).winBase = s.winBase := rfl
@[simp] theorem State.modCtx_winCount (s : State) (n : Nat) (f : Context → Context) : (s.modCtx n f).winCount = s.winCount := rfl
@[simp] theorem State.modCtx_windows (s : State) (n : Nat) (f : Context → Context) : (s.modCtx n f).windows = s.windows := rfl
@[simp] theorem State.modCtx_peers (s : State) (n : Nat) (f : Context → Context) : (s.modCtx n f).peers = s.peers := rfl
@[simp] theorem State.modCtx_pcie (s : State) (n : Nat) (f : Context → Context) : (s.modCtx n f).pcie = s.pcie := rfl
@[simp] theorem State.modCtx_clock (s : State) (n : Nat) (f : Context → Context) : (s.modCtx n f).clock = s.clock := rfl
@[simp] theorem State.modCtx_start (s : State) (n : Nat) (f : Context → Context) : (s.modCtx n f).start = s.start := rfl
@[simp] theorem State.modCtx_boots (s : State) (n : Nat) (f : Context → Context) : (s.modCtx n f).boots = s.boots := rfl
@[simp] theorem State.modCtx_record (s : State) (n : Nat) (f : Context → Context) : (s.modCtx n f).record = s.record := rfl
@[simp] theorem State.modCtx_rollback (s : State) (n : Nat) (f : Context → Context) : (s.modCtx n f).rollback = s.rollback := rfl
@[simp] theorem State.modCtx_spdm (s : State) (n : Nat) (f : Context → Context) : (s.modCtx n f).spdm = s.spdm := rfl

/-! `State.modPart` changes `parts` alone. -/

@[simp] theorem State.modPart_core (s : State) (n : Nat) (f : Partition → Partition) : (s.modPart n f).core = s.core := rfl
@[simp] theorem State.modPart_others (s : State) (n : Nat) (f : Partition → Partition) : (s.modPart n f).others = s.others := rfl
@[simp] theorem State.modPart_agenda (s : State) (n : Nat) (f : Partition → Partition) : (s.modPart n f).agenda = s.agenda := rfl
@[simp] theorem State.modPart_free (s : State) (n : Nat) (f : Partition → Partition) : (s.modPart n f).free = s.free := rfl
@[simp] theorem State.modPart_mem (s : State) (n : Nat) (f : Partition → Partition) : (s.modPart n f).mem = s.mem := rfl
@[simp] theorem State.modPart_mpois (s : State) (n : Nat) (f : Partition → Partition) : (s.modPart n f).mpois = s.mpois := rfl
@[simp] theorem State.modPart_flips (s : State) (n : Nat) (f : Partition → Partition) : (s.modPart n f).flips = s.flips := rfl
@[simp] theorem State.modPart_sweeps (s : State) (n : Nat) (f : Partition → Partition) : (s.modPart n f).sweeps = s.sweeps := rfl
@[simp] theorem State.modPart_rows (s : State) (n : Nat) (f : Partition → Partition) : (s.modPart n f).rows = s.rows := rfl
@[simp] theorem State.modPart_clusters (s : State) (n : Nat) (f : Partition → Partition) : (s.modPart n f).clusters = s.clusters := rfl
@[simp] theorem State.modPart_out (s : State) (n : Nat) (f : Partition → Partition) : (s.modPart n f).out = s.out := rfl
@[simp] theorem State.modPart_stack (s : State) (n : Nat) (f : Partition → Partition) : (s.modPart n f).stack = s.stack := rfl
@[simp] theorem State.modPart_drains (s : State) (n : Nat) (f : Partition → Partition) : (s.modPart n f).drains = s.drains := rfl
@[simp] theorem State.modPart_l2tlb (s : State) (n : Nat) (f : Partition → Partition) : (s.modPart n f).l2tlb = s.l2tlb := rfl
@[simp] theorem State.modPart_scans (s : State) (n : Nat) (f : Partition → Partition) : (s.modPart n f).scans = s.scans := rfl
@[simp] theorem State.modPart_twins (s : State) (n : Nat) (f : Partition → Partition) : (s.modPart n f).twins = s.twins := rfl
@[simp] theorem State.modPart_ctxs (s : State) (n : Nat) (f : Partition → Partition) : (s.modPart n f).ctxs = s.ctxs := rfl
@[simp] theorem State.modPart_queues (s : State) (n : Nat) (f : Partition → Partition) : (s.modPart n f).queues = s.queues := rfl
@[simp] theorem State.modPart_launches (s : State) (n : Nat) (f : Partition → Partition) : (s.modPart n f).launches = s.launches := rfl
@[simp] theorem State.modPart_nextLid (s : State) (n : Nat) (f : Partition → Partition) : (s.modPart n f).nextLid = s.nextLid := rfl
@[simp] theorem State.modPart_succs (s : State) (n : Nat) (f : Partition → Partition) : (s.modPart n f).succs = s.succs := rfl
@[simp] theorem State.modPart_images (s : State) (n : Nat) (f : Partition → Partition) : (s.modPart n f).images = s.images := rfl
@[simp] theorem State.modPart_nets (s : State) (n : Nat) (f : Partition → Partition) : (s.modPart n f).nets = s.nets := rfl
@[simp] theorem State.modPart_tables (s : State) (n : Nat) (f : Partition → Partition) : (s.modPart n f).tables = s.tables := rfl
@[simp] theorem State.modPart_unpins (s : State) (n : Nat) (f : Partition → Partition) : (s.modPart n f).unpins = s.unpins := rfl
@[simp] theorem State.modPart_gates (s : State) (n : Nat) (f : Partition → Partition) : (s.modPart n f).gates = s.gates := rfl
@[simp] theorem State.modPart_leases (s : State) (n : Nat) (f : Partition → Partition) : (s.modPart n f).leases = s.leases := rfl
@[simp] theorem State.modPart_lwaits (s : State) (n : Nat) (f : Partition → Partition) : (s.modPart n f).lwaits = s.lwaits := rfl
@[simp] theorem State.modPart_lserial (s : State) (n : Nat) (f : Partition → Partition) : (s.modPart n f).lserial = s.lserial := rfl
@[simp] theorem State.modPart_msgs (s : State) (n : Nat) (f : Partition → Partition) : (s.modPart n f).msgs = s.msgs := rfl
@[simp] theorem State.modPart_nmsgs (s : State) (n : Nat) (f : Partition → Partition) : (s.modPart n f).nmsgs = s.nmsgs := rfl
@[simp] theorem State.modPart_puts (s : State) (n : Nat) (f : Partition → Partition) : (s.modPart n f).puts = s.puts := rfl
@[simp] theorem State.modPart_putOuts (s : State) (n : Nat) (f : Partition → Partition) : (s.modPart n f).putOuts = s.putOuts := rfl
@[simp] theorem State.modPart_putIns (s : State) (n : Nat) (f : Partition → Partition) : (s.modPart n f).putIns = s.putIns := rfl
@[simp] theorem State.modPart_putSer (s : State) (n : Nat) (f : Partition → Partition) : (s.modPart n f).putSer = s.putSer := rfl
@[simp] theorem State.modPart_putNos (s : State) (n : Nat) (f : Partition → Partition) : (s.modPart n f).putNos = s.putNos := rfl
@[simp] theorem State.modPart_stores (s : State) (n : Nat) (f : Partition → Partition) : (s.modPart n f).stores = s.stores := rfl
@[simp] theorem State.modPart_dirties (s : State) (n : Nat) (f : Partition → Partition) : (s.modPart n f).dirties = s.dirties := rfl
@[simp] theorem State.modPart_failed (s : State) (n : Nat) (f : Partition → Partition) : (s.modPart n f).failed = s.failed := rfl
@[simp] theorem State.modPart_tephra (s : State) (n : Nat) (f : Partition → Partition) : (s.modPart n f).tephra = s.tephra := rfl
@[simp] theorem State.modPart_evBase (s : State) (n : Nat) (f : Partition → Partition) : (s.modPart n f).evBase = s.evBase := rfl
@[simp] theorem State.modPart_evLg (s : State) (n : Nat) (f : Partition → Partition) : (s.modPart n f).evLg = s.evLg := rfl
@[simp] theorem State.modPart_evProd (s : State) (n : Nat) (f : Partition → Partition) : (s.modPart n f).evProd = s.evProd := rfl
@[simp] theorem State.modPart_evCons (s : State) (n : Nat) (f : Partition → Partition) : (s.modPart n f).evCons = s.evCons := rfl
@[simp] theorem State.modPart_evLost (s : State) (n : Nat) (f : Partition → Partition) : (s.modPart n f).evLost = s.evLost := rfl
@[simp] theorem State.modPart_dieEv (s : State) (n : Nat) (f : Partition → Partition) : (s.modPart n f).dieEv = s.dieEv := rfl
@[simp] theorem State.modPart_time (s : State) (n : Nat) (f : Partition → Partition) : (s.modPart n f).time = s.time := rfl
@[simp] theorem State.modPart_winBase (s : State) (n : Nat) (f : Partition → Partition) : (s.modPart n f).winBase = s.winBase := rfl
@[simp] theorem State.modPart_winCount (s : State) (n : Nat) (f : Partition → Partition) : (s.modPart n f).winCount = s.winCount := rfl
@[simp] theorem State.modPart_windows (s : State) (n : Nat) (f : Partition → Partition) : (s.modPart n f).windows = s.windows := rfl
@[simp] theorem State.modPart_peers (s : State) (n : Nat) (f : Partition → Partition) : (s.modPart n f).peers = s.peers := rfl
@[simp] theorem State.modPart_pcie (s : State) (n : Nat) (f : Partition → Partition) : (s.modPart n f).pcie = s.pcie := rfl
@[simp] theorem State.modPart_clock (s : State) (n : Nat) (f : Partition → Partition) : (s.modPart n f).clock = s.clock := rfl
@[simp] theorem State.modPart_start (s : State) (n : Nat) (f : Partition → Partition) : (s.modPart n f).start = s.start := rfl
@[simp] theorem State.modPart_boots (s : State) (n : Nat) (f : Partition → Partition) : (s.modPart n f).boots = s.boots := rfl
@[simp] theorem State.modPart_record (s : State) (n : Nat) (f : Partition → Partition) : (s.modPart n f).record = s.record := rfl
@[simp] theorem State.modPart_rollback (s : State) (n : Nat) (f : Partition → Partition) : (s.modPart n f).rollback = s.rollback := rfl
@[simp] theorem State.modPart_spdm (s : State) (n : Nat) (f : Partition → Partition) : (s.modPart n f).spdm = s.spdm := rfl

/-! `State.modCluster` changes `clusters` alone. -/

@[simp] theorem State.modCluster_core (s : State) (n : Nat) (f : Cluster → Cluster) : (s.modCluster n f).core = s.core := rfl
@[simp] theorem State.modCluster_others (s : State) (n : Nat) (f : Cluster → Cluster) : (s.modCluster n f).others = s.others := rfl
@[simp] theorem State.modCluster_agenda (s : State) (n : Nat) (f : Cluster → Cluster) : (s.modCluster n f).agenda = s.agenda := rfl
@[simp] theorem State.modCluster_free (s : State) (n : Nat) (f : Cluster → Cluster) : (s.modCluster n f).free = s.free := rfl
@[simp] theorem State.modCluster_mem (s : State) (n : Nat) (f : Cluster → Cluster) : (s.modCluster n f).mem = s.mem := rfl
@[simp] theorem State.modCluster_mpois (s : State) (n : Nat) (f : Cluster → Cluster) : (s.modCluster n f).mpois = s.mpois := rfl
@[simp] theorem State.modCluster_flips (s : State) (n : Nat) (f : Cluster → Cluster) : (s.modCluster n f).flips = s.flips := rfl
@[simp] theorem State.modCluster_sweeps (s : State) (n : Nat) (f : Cluster → Cluster) : (s.modCluster n f).sweeps = s.sweeps := rfl
@[simp] theorem State.modCluster_rows (s : State) (n : Nat) (f : Cluster → Cluster) : (s.modCluster n f).rows = s.rows := rfl
@[simp] theorem State.modCluster_out (s : State) (n : Nat) (f : Cluster → Cluster) : (s.modCluster n f).out = s.out := rfl
@[simp] theorem State.modCluster_stack (s : State) (n : Nat) (f : Cluster → Cluster) : (s.modCluster n f).stack = s.stack := rfl
@[simp] theorem State.modCluster_drains (s : State) (n : Nat) (f : Cluster → Cluster) : (s.modCluster n f).drains = s.drains := rfl
@[simp] theorem State.modCluster_l2tlb (s : State) (n : Nat) (f : Cluster → Cluster) : (s.modCluster n f).l2tlb = s.l2tlb := rfl
@[simp] theorem State.modCluster_scans (s : State) (n : Nat) (f : Cluster → Cluster) : (s.modCluster n f).scans = s.scans := rfl
@[simp] theorem State.modCluster_twins (s : State) (n : Nat) (f : Cluster → Cluster) : (s.modCluster n f).twins = s.twins := rfl
@[simp] theorem State.modCluster_parts (s : State) (n : Nat) (f : Cluster → Cluster) : (s.modCluster n f).parts = s.parts := rfl
@[simp] theorem State.modCluster_ctxs (s : State) (n : Nat) (f : Cluster → Cluster) : (s.modCluster n f).ctxs = s.ctxs := rfl
@[simp] theorem State.modCluster_queues (s : State) (n : Nat) (f : Cluster → Cluster) : (s.modCluster n f).queues = s.queues := rfl
@[simp] theorem State.modCluster_launches (s : State) (n : Nat) (f : Cluster → Cluster) : (s.modCluster n f).launches = s.launches := rfl
@[simp] theorem State.modCluster_nextLid (s : State) (n : Nat) (f : Cluster → Cluster) : (s.modCluster n f).nextLid = s.nextLid := rfl
@[simp] theorem State.modCluster_succs (s : State) (n : Nat) (f : Cluster → Cluster) : (s.modCluster n f).succs = s.succs := rfl
@[simp] theorem State.modCluster_images (s : State) (n : Nat) (f : Cluster → Cluster) : (s.modCluster n f).images = s.images := rfl
@[simp] theorem State.modCluster_nets (s : State) (n : Nat) (f : Cluster → Cluster) : (s.modCluster n f).nets = s.nets := rfl
@[simp] theorem State.modCluster_tables (s : State) (n : Nat) (f : Cluster → Cluster) : (s.modCluster n f).tables = s.tables := rfl
@[simp] theorem State.modCluster_unpins (s : State) (n : Nat) (f : Cluster → Cluster) : (s.modCluster n f).unpins = s.unpins := rfl
@[simp] theorem State.modCluster_gates (s : State) (n : Nat) (f : Cluster → Cluster) : (s.modCluster n f).gates = s.gates := rfl
@[simp] theorem State.modCluster_leases (s : State) (n : Nat) (f : Cluster → Cluster) : (s.modCluster n f).leases = s.leases := rfl
@[simp] theorem State.modCluster_lwaits (s : State) (n : Nat) (f : Cluster → Cluster) : (s.modCluster n f).lwaits = s.lwaits := rfl
@[simp] theorem State.modCluster_lserial (s : State) (n : Nat) (f : Cluster → Cluster) : (s.modCluster n f).lserial = s.lserial := rfl
@[simp] theorem State.modCluster_msgs (s : State) (n : Nat) (f : Cluster → Cluster) : (s.modCluster n f).msgs = s.msgs := rfl
@[simp] theorem State.modCluster_nmsgs (s : State) (n : Nat) (f : Cluster → Cluster) : (s.modCluster n f).nmsgs = s.nmsgs := rfl
@[simp] theorem State.modCluster_puts (s : State) (n : Nat) (f : Cluster → Cluster) : (s.modCluster n f).puts = s.puts := rfl
@[simp] theorem State.modCluster_putOuts (s : State) (n : Nat) (f : Cluster → Cluster) : (s.modCluster n f).putOuts = s.putOuts := rfl
@[simp] theorem State.modCluster_putIns (s : State) (n : Nat) (f : Cluster → Cluster) : (s.modCluster n f).putIns = s.putIns := rfl
@[simp] theorem State.modCluster_putSer (s : State) (n : Nat) (f : Cluster → Cluster) : (s.modCluster n f).putSer = s.putSer := rfl
@[simp] theorem State.modCluster_putNos (s : State) (n : Nat) (f : Cluster → Cluster) : (s.modCluster n f).putNos = s.putNos := rfl
@[simp] theorem State.modCluster_stores (s : State) (n : Nat) (f : Cluster → Cluster) : (s.modCluster n f).stores = s.stores := rfl
@[simp] theorem State.modCluster_dirties (s : State) (n : Nat) (f : Cluster → Cluster) : (s.modCluster n f).dirties = s.dirties := rfl
@[simp] theorem State.modCluster_failed (s : State) (n : Nat) (f : Cluster → Cluster) : (s.modCluster n f).failed = s.failed := rfl
@[simp] theorem State.modCluster_tephra (s : State) (n : Nat) (f : Cluster → Cluster) : (s.modCluster n f).tephra = s.tephra := rfl
@[simp] theorem State.modCluster_evBase (s : State) (n : Nat) (f : Cluster → Cluster) : (s.modCluster n f).evBase = s.evBase := rfl
@[simp] theorem State.modCluster_evLg (s : State) (n : Nat) (f : Cluster → Cluster) : (s.modCluster n f).evLg = s.evLg := rfl
@[simp] theorem State.modCluster_evProd (s : State) (n : Nat) (f : Cluster → Cluster) : (s.modCluster n f).evProd = s.evProd := rfl
@[simp] theorem State.modCluster_evCons (s : State) (n : Nat) (f : Cluster → Cluster) : (s.modCluster n f).evCons = s.evCons := rfl
@[simp] theorem State.modCluster_evLost (s : State) (n : Nat) (f : Cluster → Cluster) : (s.modCluster n f).evLost = s.evLost := rfl
@[simp] theorem State.modCluster_dieEv (s : State) (n : Nat) (f : Cluster → Cluster) : (s.modCluster n f).dieEv = s.dieEv := rfl
@[simp] theorem State.modCluster_time (s : State) (n : Nat) (f : Cluster → Cluster) : (s.modCluster n f).time = s.time := rfl
@[simp] theorem State.modCluster_winBase (s : State) (n : Nat) (f : Cluster → Cluster) : (s.modCluster n f).winBase = s.winBase := rfl
@[simp] theorem State.modCluster_winCount (s : State) (n : Nat) (f : Cluster → Cluster) : (s.modCluster n f).winCount = s.winCount := rfl
@[simp] theorem State.modCluster_windows (s : State) (n : Nat) (f : Cluster → Cluster) : (s.modCluster n f).windows = s.windows := rfl
@[simp] theorem State.modCluster_peers (s : State) (n : Nat) (f : Cluster → Cluster) : (s.modCluster n f).peers = s.peers := rfl
@[simp] theorem State.modCluster_pcie (s : State) (n : Nat) (f : Cluster → Cluster) : (s.modCluster n f).pcie = s.pcie := rfl
@[simp] theorem State.modCluster_clock (s : State) (n : Nat) (f : Cluster → Cluster) : (s.modCluster n f).clock = s.clock := rfl
@[simp] theorem State.modCluster_start (s : State) (n : Nat) (f : Cluster → Cluster) : (s.modCluster n f).start = s.start := rfl
@[simp] theorem State.modCluster_boots (s : State) (n : Nat) (f : Cluster → Cluster) : (s.modCluster n f).boots = s.boots := rfl
@[simp] theorem State.modCluster_record (s : State) (n : Nat) (f : Cluster → Cluster) : (s.modCluster n f).record = s.record := rfl
@[simp] theorem State.modCluster_rollback (s : State) (n : Nat) (f : Cluster → Cluster) : (s.modCluster n f).rollback = s.rollback := rfl
@[simp] theorem State.modCluster_spdm (s : State) (n : Nat) (f : Cluster → Cluster) : (s.modCluster n f).spdm = s.spdm := rfl

/-! `State.modLaunch` changes `launches` alone. -/

@[simp] theorem State.modLaunch_core (s : State) (n : Nat) (f : Launch → Launch) : (s.modLaunch n f).core = s.core := by unfold State.modLaunch; split <;> rfl
@[simp] theorem State.modLaunch_others (s : State) (n : Nat) (f : Launch → Launch) : (s.modLaunch n f).others = s.others := by unfold State.modLaunch; split <;> rfl
@[simp] theorem State.modLaunch_agenda (s : State) (n : Nat) (f : Launch → Launch) : (s.modLaunch n f).agenda = s.agenda := by unfold State.modLaunch; split <;> rfl
@[simp] theorem State.modLaunch_free (s : State) (n : Nat) (f : Launch → Launch) : (s.modLaunch n f).free = s.free := by unfold State.modLaunch; split <;> rfl
@[simp] theorem State.modLaunch_mem (s : State) (n : Nat) (f : Launch → Launch) : (s.modLaunch n f).mem = s.mem := by unfold State.modLaunch; split <;> rfl
@[simp] theorem State.modLaunch_mpois (s : State) (n : Nat) (f : Launch → Launch) : (s.modLaunch n f).mpois = s.mpois := by unfold State.modLaunch; split <;> rfl
@[simp] theorem State.modLaunch_flips (s : State) (n : Nat) (f : Launch → Launch) : (s.modLaunch n f).flips = s.flips := by unfold State.modLaunch; split <;> rfl
@[simp] theorem State.modLaunch_sweeps (s : State) (n : Nat) (f : Launch → Launch) : (s.modLaunch n f).sweeps = s.sweeps := by unfold State.modLaunch; split <;> rfl
@[simp] theorem State.modLaunch_rows (s : State) (n : Nat) (f : Launch → Launch) : (s.modLaunch n f).rows = s.rows := by unfold State.modLaunch; split <;> rfl
@[simp] theorem State.modLaunch_clusters (s : State) (n : Nat) (f : Launch → Launch) : (s.modLaunch n f).clusters = s.clusters := by unfold State.modLaunch; split <;> rfl
@[simp] theorem State.modLaunch_out (s : State) (n : Nat) (f : Launch → Launch) : (s.modLaunch n f).out = s.out := by unfold State.modLaunch; split <;> rfl
@[simp] theorem State.modLaunch_stack (s : State) (n : Nat) (f : Launch → Launch) : (s.modLaunch n f).stack = s.stack := by unfold State.modLaunch; split <;> rfl
@[simp] theorem State.modLaunch_drains (s : State) (n : Nat) (f : Launch → Launch) : (s.modLaunch n f).drains = s.drains := by unfold State.modLaunch; split <;> rfl
@[simp] theorem State.modLaunch_l2tlb (s : State) (n : Nat) (f : Launch → Launch) : (s.modLaunch n f).l2tlb = s.l2tlb := by unfold State.modLaunch; split <;> rfl
@[simp] theorem State.modLaunch_scans (s : State) (n : Nat) (f : Launch → Launch) : (s.modLaunch n f).scans = s.scans := by unfold State.modLaunch; split <;> rfl
@[simp] theorem State.modLaunch_twins (s : State) (n : Nat) (f : Launch → Launch) : (s.modLaunch n f).twins = s.twins := by unfold State.modLaunch; split <;> rfl
@[simp] theorem State.modLaunch_parts (s : State) (n : Nat) (f : Launch → Launch) : (s.modLaunch n f).parts = s.parts := by unfold State.modLaunch; split <;> rfl
@[simp] theorem State.modLaunch_ctxs (s : State) (n : Nat) (f : Launch → Launch) : (s.modLaunch n f).ctxs = s.ctxs := by unfold State.modLaunch; split <;> rfl
@[simp] theorem State.modLaunch_queues (s : State) (n : Nat) (f : Launch → Launch) : (s.modLaunch n f).queues = s.queues := by unfold State.modLaunch; split <;> rfl
@[simp] theorem State.modLaunch_nextLid (s : State) (n : Nat) (f : Launch → Launch) : (s.modLaunch n f).nextLid = s.nextLid := by unfold State.modLaunch; split <;> rfl
@[simp] theorem State.modLaunch_succs (s : State) (n : Nat) (f : Launch → Launch) : (s.modLaunch n f).succs = s.succs := by unfold State.modLaunch; split <;> rfl
@[simp] theorem State.modLaunch_images (s : State) (n : Nat) (f : Launch → Launch) : (s.modLaunch n f).images = s.images := by unfold State.modLaunch; split <;> rfl
@[simp] theorem State.modLaunch_nets (s : State) (n : Nat) (f : Launch → Launch) : (s.modLaunch n f).nets = s.nets := by unfold State.modLaunch; split <;> rfl
@[simp] theorem State.modLaunch_tables (s : State) (n : Nat) (f : Launch → Launch) : (s.modLaunch n f).tables = s.tables := by unfold State.modLaunch; split <;> rfl
@[simp] theorem State.modLaunch_unpins (s : State) (n : Nat) (f : Launch → Launch) : (s.modLaunch n f).unpins = s.unpins := by unfold State.modLaunch; split <;> rfl
@[simp] theorem State.modLaunch_gates (s : State) (n : Nat) (f : Launch → Launch) : (s.modLaunch n f).gates = s.gates := by unfold State.modLaunch; split <;> rfl
@[simp] theorem State.modLaunch_leases (s : State) (n : Nat) (f : Launch → Launch) : (s.modLaunch n f).leases = s.leases := by unfold State.modLaunch; split <;> rfl
@[simp] theorem State.modLaunch_lwaits (s : State) (n : Nat) (f : Launch → Launch) : (s.modLaunch n f).lwaits = s.lwaits := by unfold State.modLaunch; split <;> rfl
@[simp] theorem State.modLaunch_lserial (s : State) (n : Nat) (f : Launch → Launch) : (s.modLaunch n f).lserial = s.lserial := by unfold State.modLaunch; split <;> rfl
@[simp] theorem State.modLaunch_msgs (s : State) (n : Nat) (f : Launch → Launch) : (s.modLaunch n f).msgs = s.msgs := by unfold State.modLaunch; split <;> rfl
@[simp] theorem State.modLaunch_nmsgs (s : State) (n : Nat) (f : Launch → Launch) : (s.modLaunch n f).nmsgs = s.nmsgs := by unfold State.modLaunch; split <;> rfl
@[simp] theorem State.modLaunch_puts (s : State) (n : Nat) (f : Launch → Launch) : (s.modLaunch n f).puts = s.puts := by unfold State.modLaunch; split <;> rfl
@[simp] theorem State.modLaunch_putOuts (s : State) (n : Nat) (f : Launch → Launch) : (s.modLaunch n f).putOuts = s.putOuts := by unfold State.modLaunch; split <;> rfl
@[simp] theorem State.modLaunch_putIns (s : State) (n : Nat) (f : Launch → Launch) : (s.modLaunch n f).putIns = s.putIns := by unfold State.modLaunch; split <;> rfl
@[simp] theorem State.modLaunch_putSer (s : State) (n : Nat) (f : Launch → Launch) : (s.modLaunch n f).putSer = s.putSer := by unfold State.modLaunch; split <;> rfl
@[simp] theorem State.modLaunch_putNos (s : State) (n : Nat) (f : Launch → Launch) : (s.modLaunch n f).putNos = s.putNos := by unfold State.modLaunch; split <;> rfl
@[simp] theorem State.modLaunch_stores (s : State) (n : Nat) (f : Launch → Launch) : (s.modLaunch n f).stores = s.stores := by unfold State.modLaunch; split <;> rfl
@[simp] theorem State.modLaunch_dirties (s : State) (n : Nat) (f : Launch → Launch) : (s.modLaunch n f).dirties = s.dirties := by unfold State.modLaunch; split <;> rfl
@[simp] theorem State.modLaunch_failed (s : State) (n : Nat) (f : Launch → Launch) : (s.modLaunch n f).failed = s.failed := by unfold State.modLaunch; split <;> rfl
@[simp] theorem State.modLaunch_tephra (s : State) (n : Nat) (f : Launch → Launch) : (s.modLaunch n f).tephra = s.tephra := by unfold State.modLaunch; split <;> rfl
@[simp] theorem State.modLaunch_evBase (s : State) (n : Nat) (f : Launch → Launch) : (s.modLaunch n f).evBase = s.evBase := by unfold State.modLaunch; split <;> rfl
@[simp] theorem State.modLaunch_evLg (s : State) (n : Nat) (f : Launch → Launch) : (s.modLaunch n f).evLg = s.evLg := by unfold State.modLaunch; split <;> rfl
@[simp] theorem State.modLaunch_evProd (s : State) (n : Nat) (f : Launch → Launch) : (s.modLaunch n f).evProd = s.evProd := by unfold State.modLaunch; split <;> rfl
@[simp] theorem State.modLaunch_evCons (s : State) (n : Nat) (f : Launch → Launch) : (s.modLaunch n f).evCons = s.evCons := by unfold State.modLaunch; split <;> rfl
@[simp] theorem State.modLaunch_evLost (s : State) (n : Nat) (f : Launch → Launch) : (s.modLaunch n f).evLost = s.evLost := by unfold State.modLaunch; split <;> rfl
@[simp] theorem State.modLaunch_dieEv (s : State) (n : Nat) (f : Launch → Launch) : (s.modLaunch n f).dieEv = s.dieEv := by unfold State.modLaunch; split <;> rfl
@[simp] theorem State.modLaunch_time (s : State) (n : Nat) (f : Launch → Launch) : (s.modLaunch n f).time = s.time := by unfold State.modLaunch; split <;> rfl
@[simp] theorem State.modLaunch_winBase (s : State) (n : Nat) (f : Launch → Launch) : (s.modLaunch n f).winBase = s.winBase := by unfold State.modLaunch; split <;> rfl
@[simp] theorem State.modLaunch_winCount (s : State) (n : Nat) (f : Launch → Launch) : (s.modLaunch n f).winCount = s.winCount := by unfold State.modLaunch; split <;> rfl
@[simp] theorem State.modLaunch_windows (s : State) (n : Nat) (f : Launch → Launch) : (s.modLaunch n f).windows = s.windows := by unfold State.modLaunch; split <;> rfl
@[simp] theorem State.modLaunch_peers (s : State) (n : Nat) (f : Launch → Launch) : (s.modLaunch n f).peers = s.peers := by unfold State.modLaunch; split <;> rfl
@[simp] theorem State.modLaunch_pcie (s : State) (n : Nat) (f : Launch → Launch) : (s.modLaunch n f).pcie = s.pcie := by unfold State.modLaunch; split <;> rfl
@[simp] theorem State.modLaunch_clock (s : State) (n : Nat) (f : Launch → Launch) : (s.modLaunch n f).clock = s.clock := by unfold State.modLaunch; split <;> rfl
@[simp] theorem State.modLaunch_start (s : State) (n : Nat) (f : Launch → Launch) : (s.modLaunch n f).start = s.start := by unfold State.modLaunch; split <;> rfl
@[simp] theorem State.modLaunch_boots (s : State) (n : Nat) (f : Launch → Launch) : (s.modLaunch n f).boots = s.boots := by unfold State.modLaunch; split <;> rfl
@[simp] theorem State.modLaunch_record (s : State) (n : Nat) (f : Launch → Launch) : (s.modLaunch n f).record = s.record := by unfold State.modLaunch; split <;> rfl
@[simp] theorem State.modLaunch_rollback (s : State) (n : Nat) (f : Launch → Launch) : (s.modLaunch n f).rollback = s.rollback := by unfold State.modLaunch; split <;> rfl
@[simp] theorem State.modLaunch_spdm (s : State) (n : Nat) (f : Launch → Launch) : (s.modLaunch n f).spdm = s.spdm := by unfold State.modLaunch; split <;> rfl

/-! `State.modQueue` changes `queues` alone. -/

@[simp] theorem State.modQueue_core (s : State) (n : Nat) (f : Queue → Queue) : (s.modQueue n f).core = s.core := by unfold State.modQueue; split <;> rfl
@[simp] theorem State.modQueue_others (s : State) (n : Nat) (f : Queue → Queue) : (s.modQueue n f).others = s.others := by unfold State.modQueue; split <;> rfl
@[simp] theorem State.modQueue_agenda (s : State) (n : Nat) (f : Queue → Queue) : (s.modQueue n f).agenda = s.agenda := by unfold State.modQueue; split <;> rfl
@[simp] theorem State.modQueue_free (s : State) (n : Nat) (f : Queue → Queue) : (s.modQueue n f).free = s.free := by unfold State.modQueue; split <;> rfl
@[simp] theorem State.modQueue_mem (s : State) (n : Nat) (f : Queue → Queue) : (s.modQueue n f).mem = s.mem := by unfold State.modQueue; split <;> rfl
@[simp] theorem State.modQueue_mpois (s : State) (n : Nat) (f : Queue → Queue) : (s.modQueue n f).mpois = s.mpois := by unfold State.modQueue; split <;> rfl
@[simp] theorem State.modQueue_flips (s : State) (n : Nat) (f : Queue → Queue) : (s.modQueue n f).flips = s.flips := by unfold State.modQueue; split <;> rfl
@[simp] theorem State.modQueue_sweeps (s : State) (n : Nat) (f : Queue → Queue) : (s.modQueue n f).sweeps = s.sweeps := by unfold State.modQueue; split <;> rfl
@[simp] theorem State.modQueue_rows (s : State) (n : Nat) (f : Queue → Queue) : (s.modQueue n f).rows = s.rows := by unfold State.modQueue; split <;> rfl
@[simp] theorem State.modQueue_clusters (s : State) (n : Nat) (f : Queue → Queue) : (s.modQueue n f).clusters = s.clusters := by unfold State.modQueue; split <;> rfl
@[simp] theorem State.modQueue_out (s : State) (n : Nat) (f : Queue → Queue) : (s.modQueue n f).out = s.out := by unfold State.modQueue; split <;> rfl
@[simp] theorem State.modQueue_stack (s : State) (n : Nat) (f : Queue → Queue) : (s.modQueue n f).stack = s.stack := by unfold State.modQueue; split <;> rfl
@[simp] theorem State.modQueue_drains (s : State) (n : Nat) (f : Queue → Queue) : (s.modQueue n f).drains = s.drains := by unfold State.modQueue; split <;> rfl
@[simp] theorem State.modQueue_l2tlb (s : State) (n : Nat) (f : Queue → Queue) : (s.modQueue n f).l2tlb = s.l2tlb := by unfold State.modQueue; split <;> rfl
@[simp] theorem State.modQueue_scans (s : State) (n : Nat) (f : Queue → Queue) : (s.modQueue n f).scans = s.scans := by unfold State.modQueue; split <;> rfl
@[simp] theorem State.modQueue_twins (s : State) (n : Nat) (f : Queue → Queue) : (s.modQueue n f).twins = s.twins := by unfold State.modQueue; split <;> rfl
@[simp] theorem State.modQueue_parts (s : State) (n : Nat) (f : Queue → Queue) : (s.modQueue n f).parts = s.parts := by unfold State.modQueue; split <;> rfl
@[simp] theorem State.modQueue_ctxs (s : State) (n : Nat) (f : Queue → Queue) : (s.modQueue n f).ctxs = s.ctxs := by unfold State.modQueue; split <;> rfl
@[simp] theorem State.modQueue_launches (s : State) (n : Nat) (f : Queue → Queue) : (s.modQueue n f).launches = s.launches := by unfold State.modQueue; split <;> rfl
@[simp] theorem State.modQueue_nextLid (s : State) (n : Nat) (f : Queue → Queue) : (s.modQueue n f).nextLid = s.nextLid := by unfold State.modQueue; split <;> rfl
@[simp] theorem State.modQueue_succs (s : State) (n : Nat) (f : Queue → Queue) : (s.modQueue n f).succs = s.succs := by unfold State.modQueue; split <;> rfl
@[simp] theorem State.modQueue_images (s : State) (n : Nat) (f : Queue → Queue) : (s.modQueue n f).images = s.images := by unfold State.modQueue; split <;> rfl
@[simp] theorem State.modQueue_nets (s : State) (n : Nat) (f : Queue → Queue) : (s.modQueue n f).nets = s.nets := by unfold State.modQueue; split <;> rfl
@[simp] theorem State.modQueue_tables (s : State) (n : Nat) (f : Queue → Queue) : (s.modQueue n f).tables = s.tables := by unfold State.modQueue; split <;> rfl
@[simp] theorem State.modQueue_unpins (s : State) (n : Nat) (f : Queue → Queue) : (s.modQueue n f).unpins = s.unpins := by unfold State.modQueue; split <;> rfl
@[simp] theorem State.modQueue_gates (s : State) (n : Nat) (f : Queue → Queue) : (s.modQueue n f).gates = s.gates := by unfold State.modQueue; split <;> rfl
@[simp] theorem State.modQueue_leases (s : State) (n : Nat) (f : Queue → Queue) : (s.modQueue n f).leases = s.leases := by unfold State.modQueue; split <;> rfl
@[simp] theorem State.modQueue_lwaits (s : State) (n : Nat) (f : Queue → Queue) : (s.modQueue n f).lwaits = s.lwaits := by unfold State.modQueue; split <;> rfl
@[simp] theorem State.modQueue_lserial (s : State) (n : Nat) (f : Queue → Queue) : (s.modQueue n f).lserial = s.lserial := by unfold State.modQueue; split <;> rfl
@[simp] theorem State.modQueue_msgs (s : State) (n : Nat) (f : Queue → Queue) : (s.modQueue n f).msgs = s.msgs := by unfold State.modQueue; split <;> rfl
@[simp] theorem State.modQueue_nmsgs (s : State) (n : Nat) (f : Queue → Queue) : (s.modQueue n f).nmsgs = s.nmsgs := by unfold State.modQueue; split <;> rfl
@[simp] theorem State.modQueue_puts (s : State) (n : Nat) (f : Queue → Queue) : (s.modQueue n f).puts = s.puts := by unfold State.modQueue; split <;> rfl
@[simp] theorem State.modQueue_putOuts (s : State) (n : Nat) (f : Queue → Queue) : (s.modQueue n f).putOuts = s.putOuts := by unfold State.modQueue; split <;> rfl
@[simp] theorem State.modQueue_putIns (s : State) (n : Nat) (f : Queue → Queue) : (s.modQueue n f).putIns = s.putIns := by unfold State.modQueue; split <;> rfl
@[simp] theorem State.modQueue_putSer (s : State) (n : Nat) (f : Queue → Queue) : (s.modQueue n f).putSer = s.putSer := by unfold State.modQueue; split <;> rfl
@[simp] theorem State.modQueue_putNos (s : State) (n : Nat) (f : Queue → Queue) : (s.modQueue n f).putNos = s.putNos := by unfold State.modQueue; split <;> rfl
@[simp] theorem State.modQueue_stores (s : State) (n : Nat) (f : Queue → Queue) : (s.modQueue n f).stores = s.stores := by unfold State.modQueue; split <;> rfl
@[simp] theorem State.modQueue_dirties (s : State) (n : Nat) (f : Queue → Queue) : (s.modQueue n f).dirties = s.dirties := by unfold State.modQueue; split <;> rfl
@[simp] theorem State.modQueue_failed (s : State) (n : Nat) (f : Queue → Queue) : (s.modQueue n f).failed = s.failed := by unfold State.modQueue; split <;> rfl
@[simp] theorem State.modQueue_tephra (s : State) (n : Nat) (f : Queue → Queue) : (s.modQueue n f).tephra = s.tephra := by unfold State.modQueue; split <;> rfl
@[simp] theorem State.modQueue_evBase (s : State) (n : Nat) (f : Queue → Queue) : (s.modQueue n f).evBase = s.evBase := by unfold State.modQueue; split <;> rfl
@[simp] theorem State.modQueue_evLg (s : State) (n : Nat) (f : Queue → Queue) : (s.modQueue n f).evLg = s.evLg := by unfold State.modQueue; split <;> rfl
@[simp] theorem State.modQueue_evProd (s : State) (n : Nat) (f : Queue → Queue) : (s.modQueue n f).evProd = s.evProd := by unfold State.modQueue; split <;> rfl
@[simp] theorem State.modQueue_evCons (s : State) (n : Nat) (f : Queue → Queue) : (s.modQueue n f).evCons = s.evCons := by unfold State.modQueue; split <;> rfl
@[simp] theorem State.modQueue_evLost (s : State) (n : Nat) (f : Queue → Queue) : (s.modQueue n f).evLost = s.evLost := by unfold State.modQueue; split <;> rfl
@[simp] theorem State.modQueue_dieEv (s : State) (n : Nat) (f : Queue → Queue) : (s.modQueue n f).dieEv = s.dieEv := by unfold State.modQueue; split <;> rfl
@[simp] theorem State.modQueue_time (s : State) (n : Nat) (f : Queue → Queue) : (s.modQueue n f).time = s.time := by unfold State.modQueue; split <;> rfl
@[simp] theorem State.modQueue_winBase (s : State) (n : Nat) (f : Queue → Queue) : (s.modQueue n f).winBase = s.winBase := by unfold State.modQueue; split <;> rfl
@[simp] theorem State.modQueue_winCount (s : State) (n : Nat) (f : Queue → Queue) : (s.modQueue n f).winCount = s.winCount := by unfold State.modQueue; split <;> rfl
@[simp] theorem State.modQueue_windows (s : State) (n : Nat) (f : Queue → Queue) : (s.modQueue n f).windows = s.windows := by unfold State.modQueue; split <;> rfl
@[simp] theorem State.modQueue_peers (s : State) (n : Nat) (f : Queue → Queue) : (s.modQueue n f).peers = s.peers := by unfold State.modQueue; split <;> rfl
@[simp] theorem State.modQueue_pcie (s : State) (n : Nat) (f : Queue → Queue) : (s.modQueue n f).pcie = s.pcie := by unfold State.modQueue; split <;> rfl
@[simp] theorem State.modQueue_clock (s : State) (n : Nat) (f : Queue → Queue) : (s.modQueue n f).clock = s.clock := by unfold State.modQueue; split <;> rfl
@[simp] theorem State.modQueue_start (s : State) (n : Nat) (f : Queue → Queue) : (s.modQueue n f).start = s.start := by unfold State.modQueue; split <;> rfl
@[simp] theorem State.modQueue_boots (s : State) (n : Nat) (f : Queue → Queue) : (s.modQueue n f).boots = s.boots := by unfold State.modQueue; split <;> rfl
@[simp] theorem State.modQueue_record (s : State) (n : Nat) (f : Queue → Queue) : (s.modQueue n f).record = s.record := by unfold State.modQueue; split <;> rfl
@[simp] theorem State.modQueue_rollback (s : State) (n : Nat) (f : Queue → Queue) : (s.modQueue n f).rollback = s.rollback := by unfold State.modQueue; split <;> rfl
@[simp] theorem State.modQueue_spdm (s : State) (n : Nat) (f : Queue → Queue) : (s.modQueue n f).spdm = s.spdm := by unfold State.modQueue; split <;> rfl

/-! `State.setCore` changes cores alone. -/

@[simp] theorem State.setCore_agenda (s : State) (c : Core) : (s.setCore c).agenda = s.agenda := by unfold State.setCore; split <;> rfl
@[simp] theorem State.setCore_free (s : State) (c : Core) : (s.setCore c).free = s.free := by unfold State.setCore; split <;> rfl
@[simp] theorem State.setCore_mem (s : State) (c : Core) : (s.setCore c).mem = s.mem := by unfold State.setCore; split <;> rfl
@[simp] theorem State.setCore_mpois (s : State) (c : Core) : (s.setCore c).mpois = s.mpois := by unfold State.setCore; split <;> rfl
@[simp] theorem State.setCore_flips (s : State) (c : Core) : (s.setCore c).flips = s.flips := by unfold State.setCore; split <;> rfl
@[simp] theorem State.setCore_sweeps (s : State) (c : Core) : (s.setCore c).sweeps = s.sweeps := by unfold State.setCore; split <;> rfl
@[simp] theorem State.setCore_rows (s : State) (c : Core) : (s.setCore c).rows = s.rows := by unfold State.setCore; split <;> rfl
@[simp] theorem State.setCore_clusters (s : State) (c : Core) : (s.setCore c).clusters = s.clusters := by unfold State.setCore; split <;> rfl
@[simp] theorem State.setCore_out (s : State) (c : Core) : (s.setCore c).out = s.out := by unfold State.setCore; split <;> rfl
@[simp] theorem State.setCore_stack (s : State) (c : Core) : (s.setCore c).stack = s.stack := by unfold State.setCore; split <;> rfl
@[simp] theorem State.setCore_drains (s : State) (c : Core) : (s.setCore c).drains = s.drains := by unfold State.setCore; split <;> rfl
@[simp] theorem State.setCore_l2tlb (s : State) (c : Core) : (s.setCore c).l2tlb = s.l2tlb := by unfold State.setCore; split <;> rfl
@[simp] theorem State.setCore_scans (s : State) (c : Core) : (s.setCore c).scans = s.scans := by unfold State.setCore; split <;> rfl
@[simp] theorem State.setCore_twins (s : State) (c : Core) : (s.setCore c).twins = s.twins := by unfold State.setCore; split <;> rfl
@[simp] theorem State.setCore_parts (s : State) (c : Core) : (s.setCore c).parts = s.parts := by unfold State.setCore; split <;> rfl
@[simp] theorem State.setCore_ctxs (s : State) (c : Core) : (s.setCore c).ctxs = s.ctxs := by unfold State.setCore; split <;> rfl
@[simp] theorem State.setCore_queues (s : State) (c : Core) : (s.setCore c).queues = s.queues := by unfold State.setCore; split <;> rfl
@[simp] theorem State.setCore_launches (s : State) (c : Core) : (s.setCore c).launches = s.launches := by unfold State.setCore; split <;> rfl
@[simp] theorem State.setCore_nextLid (s : State) (c : Core) : (s.setCore c).nextLid = s.nextLid := by unfold State.setCore; split <;> rfl
@[simp] theorem State.setCore_succs (s : State) (c : Core) : (s.setCore c).succs = s.succs := by unfold State.setCore; split <;> rfl
@[simp] theorem State.setCore_images (s : State) (c : Core) : (s.setCore c).images = s.images := by unfold State.setCore; split <;> rfl
@[simp] theorem State.setCore_nets (s : State) (c : Core) : (s.setCore c).nets = s.nets := by unfold State.setCore; split <;> rfl
@[simp] theorem State.setCore_tables (s : State) (c : Core) : (s.setCore c).tables = s.tables := by unfold State.setCore; split <;> rfl
@[simp] theorem State.setCore_unpins (s : State) (c : Core) : (s.setCore c).unpins = s.unpins := by unfold State.setCore; split <;> rfl
@[simp] theorem State.setCore_gates (s : State) (c : Core) : (s.setCore c).gates = s.gates := by unfold State.setCore; split <;> rfl
@[simp] theorem State.setCore_leases (s : State) (c : Core) : (s.setCore c).leases = s.leases := by unfold State.setCore; split <;> rfl
@[simp] theorem State.setCore_lwaits (s : State) (c : Core) : (s.setCore c).lwaits = s.lwaits := by unfold State.setCore; split <;> rfl
@[simp] theorem State.setCore_lserial (s : State) (c : Core) : (s.setCore c).lserial = s.lserial := by unfold State.setCore; split <;> rfl
@[simp] theorem State.setCore_msgs (s : State) (c : Core) : (s.setCore c).msgs = s.msgs := by unfold State.setCore; split <;> rfl
@[simp] theorem State.setCore_nmsgs (s : State) (c : Core) : (s.setCore c).nmsgs = s.nmsgs := by unfold State.setCore; split <;> rfl
@[simp] theorem State.setCore_puts (s : State) (c : Core) : (s.setCore c).puts = s.puts := by unfold State.setCore; split <;> rfl
@[simp] theorem State.setCore_putOuts (s : State) (c : Core) : (s.setCore c).putOuts = s.putOuts := by unfold State.setCore; split <;> rfl
@[simp] theorem State.setCore_putIns (s : State) (c : Core) : (s.setCore c).putIns = s.putIns := by unfold State.setCore; split <;> rfl
@[simp] theorem State.setCore_putSer (s : State) (c : Core) : (s.setCore c).putSer = s.putSer := by unfold State.setCore; split <;> rfl
@[simp] theorem State.setCore_putNos (s : State) (c : Core) : (s.setCore c).putNos = s.putNos := by unfold State.setCore; split <;> rfl
@[simp] theorem State.setCore_stores (s : State) (c : Core) : (s.setCore c).stores = s.stores := by unfold State.setCore; split <;> rfl
@[simp] theorem State.setCore_dirties (s : State) (c : Core) : (s.setCore c).dirties = s.dirties := by unfold State.setCore; split <;> rfl
@[simp] theorem State.setCore_failed (s : State) (c : Core) : (s.setCore c).failed = s.failed := by unfold State.setCore; split <;> rfl
@[simp] theorem State.setCore_tephra (s : State) (c : Core) : (s.setCore c).tephra = s.tephra := by unfold State.setCore; split <;> rfl
@[simp] theorem State.setCore_evBase (s : State) (c : Core) : (s.setCore c).evBase = s.evBase := by unfold State.setCore; split <;> rfl
@[simp] theorem State.setCore_evLg (s : State) (c : Core) : (s.setCore c).evLg = s.evLg := by unfold State.setCore; split <;> rfl
@[simp] theorem State.setCore_evProd (s : State) (c : Core) : (s.setCore c).evProd = s.evProd := by unfold State.setCore; split <;> rfl
@[simp] theorem State.setCore_evCons (s : State) (c : Core) : (s.setCore c).evCons = s.evCons := by unfold State.setCore; split <;> rfl
@[simp] theorem State.setCore_evLost (s : State) (c : Core) : (s.setCore c).evLost = s.evLost := by unfold State.setCore; split <;> rfl
@[simp] theorem State.setCore_dieEv (s : State) (c : Core) : (s.setCore c).dieEv = s.dieEv := by unfold State.setCore; split <;> rfl
@[simp] theorem State.setCore_time (s : State) (c : Core) : (s.setCore c).time = s.time := by unfold State.setCore; split <;> rfl
@[simp] theorem State.setCore_winBase (s : State) (c : Core) : (s.setCore c).winBase = s.winBase := by unfold State.setCore; split <;> rfl
@[simp] theorem State.setCore_winCount (s : State) (c : Core) : (s.setCore c).winCount = s.winCount := by unfold State.setCore; split <;> rfl
@[simp] theorem State.setCore_windows (s : State) (c : Core) : (s.setCore c).windows = s.windows := by unfold State.setCore; split <;> rfl
@[simp] theorem State.setCore_peers (s : State) (c : Core) : (s.setCore c).peers = s.peers := by unfold State.setCore; split <;> rfl
@[simp] theorem State.setCore_pcie (s : State) (c : Core) : (s.setCore c).pcie = s.pcie := by unfold State.setCore; split <;> rfl
@[simp] theorem State.setCore_clock (s : State) (c : Core) : (s.setCore c).clock = s.clock := by unfold State.setCore; split <;> rfl
@[simp] theorem State.setCore_start (s : State) (c : Core) : (s.setCore c).start = s.start := by unfold State.setCore; split <;> rfl
@[simp] theorem State.setCore_boots (s : State) (c : Core) : (s.setCore c).boots = s.boots := by unfold State.setCore; split <;> rfl
@[simp] theorem State.setCore_record (s : State) (c : Core) : (s.setCore c).record = s.record := by unfold State.setCore; split <;> rfl
@[simp] theorem State.setCore_rollback (s : State) (c : Core) : (s.setCore c).rollback = s.rollback := by unfold State.setCore; split <;> rfl
@[simp] theorem State.setCore_spdm (s : State) (c : Core) : (s.setCore c).spdm = s.spdm := by unfold State.setCore; split <;> rfl

/-! `State.modCore` changes cores alone. -/

@[simp] theorem State.modCore_agenda (s : State) (n : Nat) (f : Core → Core) : (s.modCore n f).agenda = s.agenda := by unfold State.modCore; simp
@[simp] theorem State.modCore_free (s : State) (n : Nat) (f : Core → Core) : (s.modCore n f).free = s.free := by unfold State.modCore; simp
@[simp] theorem State.modCore_mem (s : State) (n : Nat) (f : Core → Core) : (s.modCore n f).mem = s.mem := by unfold State.modCore; simp
@[simp] theorem State.modCore_mpois (s : State) (n : Nat) (f : Core → Core) : (s.modCore n f).mpois = s.mpois := by unfold State.modCore; simp
@[simp] theorem State.modCore_flips (s : State) (n : Nat) (f : Core → Core) : (s.modCore n f).flips = s.flips := by unfold State.modCore; simp
@[simp] theorem State.modCore_sweeps (s : State) (n : Nat) (f : Core → Core) : (s.modCore n f).sweeps = s.sweeps := by unfold State.modCore; simp
@[simp] theorem State.modCore_rows (s : State) (n : Nat) (f : Core → Core) : (s.modCore n f).rows = s.rows := by unfold State.modCore; simp
@[simp] theorem State.modCore_clusters (s : State) (n : Nat) (f : Core → Core) : (s.modCore n f).clusters = s.clusters := by unfold State.modCore; simp
@[simp] theorem State.modCore_out (s : State) (n : Nat) (f : Core → Core) : (s.modCore n f).out = s.out := by unfold State.modCore; simp
@[simp] theorem State.modCore_stack (s : State) (n : Nat) (f : Core → Core) : (s.modCore n f).stack = s.stack := by unfold State.modCore; simp
@[simp] theorem State.modCore_drains (s : State) (n : Nat) (f : Core → Core) : (s.modCore n f).drains = s.drains := by unfold State.modCore; simp
@[simp] theorem State.modCore_l2tlb (s : State) (n : Nat) (f : Core → Core) : (s.modCore n f).l2tlb = s.l2tlb := by unfold State.modCore; simp
@[simp] theorem State.modCore_scans (s : State) (n : Nat) (f : Core → Core) : (s.modCore n f).scans = s.scans := by unfold State.modCore; simp
@[simp] theorem State.modCore_twins (s : State) (n : Nat) (f : Core → Core) : (s.modCore n f).twins = s.twins := by unfold State.modCore; simp
@[simp] theorem State.modCore_parts (s : State) (n : Nat) (f : Core → Core) : (s.modCore n f).parts = s.parts := by unfold State.modCore; simp
@[simp] theorem State.modCore_ctxs (s : State) (n : Nat) (f : Core → Core) : (s.modCore n f).ctxs = s.ctxs := by unfold State.modCore; simp
@[simp] theorem State.modCore_queues (s : State) (n : Nat) (f : Core → Core) : (s.modCore n f).queues = s.queues := by unfold State.modCore; simp
@[simp] theorem State.modCore_launches (s : State) (n : Nat) (f : Core → Core) : (s.modCore n f).launches = s.launches := by unfold State.modCore; simp
@[simp] theorem State.modCore_nextLid (s : State) (n : Nat) (f : Core → Core) : (s.modCore n f).nextLid = s.nextLid := by unfold State.modCore; simp
@[simp] theorem State.modCore_succs (s : State) (n : Nat) (f : Core → Core) : (s.modCore n f).succs = s.succs := by unfold State.modCore; simp
@[simp] theorem State.modCore_images (s : State) (n : Nat) (f : Core → Core) : (s.modCore n f).images = s.images := by unfold State.modCore; simp
@[simp] theorem State.modCore_nets (s : State) (n : Nat) (f : Core → Core) : (s.modCore n f).nets = s.nets := by unfold State.modCore; simp
@[simp] theorem State.modCore_tables (s : State) (n : Nat) (f : Core → Core) : (s.modCore n f).tables = s.tables := by unfold State.modCore; simp
@[simp] theorem State.modCore_unpins (s : State) (n : Nat) (f : Core → Core) : (s.modCore n f).unpins = s.unpins := by unfold State.modCore; simp
@[simp] theorem State.modCore_gates (s : State) (n : Nat) (f : Core → Core) : (s.modCore n f).gates = s.gates := by unfold State.modCore; simp
@[simp] theorem State.modCore_leases (s : State) (n : Nat) (f : Core → Core) : (s.modCore n f).leases = s.leases := by unfold State.modCore; simp
@[simp] theorem State.modCore_lwaits (s : State) (n : Nat) (f : Core → Core) : (s.modCore n f).lwaits = s.lwaits := by unfold State.modCore; simp
@[simp] theorem State.modCore_lserial (s : State) (n : Nat) (f : Core → Core) : (s.modCore n f).lserial = s.lserial := by unfold State.modCore; simp
@[simp] theorem State.modCore_msgs (s : State) (n : Nat) (f : Core → Core) : (s.modCore n f).msgs = s.msgs := by unfold State.modCore; simp
@[simp] theorem State.modCore_nmsgs (s : State) (n : Nat) (f : Core → Core) : (s.modCore n f).nmsgs = s.nmsgs := by unfold State.modCore; simp
@[simp] theorem State.modCore_puts (s : State) (n : Nat) (f : Core → Core) : (s.modCore n f).puts = s.puts := by unfold State.modCore; simp
@[simp] theorem State.modCore_putOuts (s : State) (n : Nat) (f : Core → Core) : (s.modCore n f).putOuts = s.putOuts := by unfold State.modCore; simp
@[simp] theorem State.modCore_putIns (s : State) (n : Nat) (f : Core → Core) : (s.modCore n f).putIns = s.putIns := by unfold State.modCore; simp
@[simp] theorem State.modCore_putSer (s : State) (n : Nat) (f : Core → Core) : (s.modCore n f).putSer = s.putSer := by unfold State.modCore; simp
@[simp] theorem State.modCore_putNos (s : State) (n : Nat) (f : Core → Core) : (s.modCore n f).putNos = s.putNos := by unfold State.modCore; simp
@[simp] theorem State.modCore_stores (s : State) (n : Nat) (f : Core → Core) : (s.modCore n f).stores = s.stores := by unfold State.modCore; simp
@[simp] theorem State.modCore_dirties (s : State) (n : Nat) (f : Core → Core) : (s.modCore n f).dirties = s.dirties := by unfold State.modCore; simp
@[simp] theorem State.modCore_failed (s : State) (n : Nat) (f : Core → Core) : (s.modCore n f).failed = s.failed := by unfold State.modCore; simp
@[simp] theorem State.modCore_tephra (s : State) (n : Nat) (f : Core → Core) : (s.modCore n f).tephra = s.tephra := by unfold State.modCore; simp
@[simp] theorem State.modCore_evBase (s : State) (n : Nat) (f : Core → Core) : (s.modCore n f).evBase = s.evBase := by unfold State.modCore; simp
@[simp] theorem State.modCore_evLg (s : State) (n : Nat) (f : Core → Core) : (s.modCore n f).evLg = s.evLg := by unfold State.modCore; simp
@[simp] theorem State.modCore_evProd (s : State) (n : Nat) (f : Core → Core) : (s.modCore n f).evProd = s.evProd := by unfold State.modCore; simp
@[simp] theorem State.modCore_evCons (s : State) (n : Nat) (f : Core → Core) : (s.modCore n f).evCons = s.evCons := by unfold State.modCore; simp
@[simp] theorem State.modCore_evLost (s : State) (n : Nat) (f : Core → Core) : (s.modCore n f).evLost = s.evLost := by unfold State.modCore; simp
@[simp] theorem State.modCore_dieEv (s : State) (n : Nat) (f : Core → Core) : (s.modCore n f).dieEv = s.dieEv := by unfold State.modCore; simp
@[simp] theorem State.modCore_time (s : State) (n : Nat) (f : Core → Core) : (s.modCore n f).time = s.time := by unfold State.modCore; simp
@[simp] theorem State.modCore_winBase (s : State) (n : Nat) (f : Core → Core) : (s.modCore n f).winBase = s.winBase := by unfold State.modCore; simp
@[simp] theorem State.modCore_winCount (s : State) (n : Nat) (f : Core → Core) : (s.modCore n f).winCount = s.winCount := by unfold State.modCore; simp
@[simp] theorem State.modCore_windows (s : State) (n : Nat) (f : Core → Core) : (s.modCore n f).windows = s.windows := by unfold State.modCore; simp
@[simp] theorem State.modCore_peers (s : State) (n : Nat) (f : Core → Core) : (s.modCore n f).peers = s.peers := by unfold State.modCore; simp
@[simp] theorem State.modCore_pcie (s : State) (n : Nat) (f : Core → Core) : (s.modCore n f).pcie = s.pcie := by unfold State.modCore; simp
@[simp] theorem State.modCore_clock (s : State) (n : Nat) (f : Core → Core) : (s.modCore n f).clock = s.clock := by unfold State.modCore; simp
@[simp] theorem State.modCore_start (s : State) (n : Nat) (f : Core → Core) : (s.modCore n f).start = s.start := by unfold State.modCore; simp
@[simp] theorem State.modCore_boots (s : State) (n : Nat) (f : Core → Core) : (s.modCore n f).boots = s.boots := by unfold State.modCore; simp
@[simp] theorem State.modCore_record (s : State) (n : Nat) (f : Core → Core) : (s.modCore n f).record = s.record := by unfold State.modCore; simp
@[simp] theorem State.modCore_rollback (s : State) (n : Nat) (f : Core → Core) : (s.modCore n f).rollback = s.rollback := by unfold State.modCore; simp
@[simp] theorem State.modCore_spdm (s : State) (n : Nat) (f : Core → Core) : (s.modCore n f).spdm = s.spdm := by unfold State.modCore; simp

/-! `State.focus` changes cores alone. -/

@[simp] theorem State.focus_agenda (s : State) (n : Nat) : (s.focus n).agenda = s.agenda := by unfold State.focus; split <;> rfl
@[simp] theorem State.focus_free (s : State) (n : Nat) : (s.focus n).free = s.free := by unfold State.focus; split <;> rfl
@[simp] theorem State.focus_mem (s : State) (n : Nat) : (s.focus n).mem = s.mem := by unfold State.focus; split <;> rfl
@[simp] theorem State.focus_mpois (s : State) (n : Nat) : (s.focus n).mpois = s.mpois := by unfold State.focus; split <;> rfl
@[simp] theorem State.focus_flips (s : State) (n : Nat) : (s.focus n).flips = s.flips := by unfold State.focus; split <;> rfl
@[simp] theorem State.focus_sweeps (s : State) (n : Nat) : (s.focus n).sweeps = s.sweeps := by unfold State.focus; split <;> rfl
@[simp] theorem State.focus_rows (s : State) (n : Nat) : (s.focus n).rows = s.rows := by unfold State.focus; split <;> rfl
@[simp] theorem State.focus_clusters (s : State) (n : Nat) : (s.focus n).clusters = s.clusters := by unfold State.focus; split <;> rfl
@[simp] theorem State.focus_out (s : State) (n : Nat) : (s.focus n).out = s.out := by unfold State.focus; split <;> rfl
@[simp] theorem State.focus_stack (s : State) (n : Nat) : (s.focus n).stack = s.stack := by unfold State.focus; split <;> rfl
@[simp] theorem State.focus_drains (s : State) (n : Nat) : (s.focus n).drains = s.drains := by unfold State.focus; split <;> rfl
@[simp] theorem State.focus_l2tlb (s : State) (n : Nat) : (s.focus n).l2tlb = s.l2tlb := by unfold State.focus; split <;> rfl
@[simp] theorem State.focus_scans (s : State) (n : Nat) : (s.focus n).scans = s.scans := by unfold State.focus; split <;> rfl
@[simp] theorem State.focus_twins (s : State) (n : Nat) : (s.focus n).twins = s.twins := by unfold State.focus; split <;> rfl
@[simp] theorem State.focus_parts (s : State) (n : Nat) : (s.focus n).parts = s.parts := by unfold State.focus; split <;> rfl
@[simp] theorem State.focus_ctxs (s : State) (n : Nat) : (s.focus n).ctxs = s.ctxs := by unfold State.focus; split <;> rfl
@[simp] theorem State.focus_queues (s : State) (n : Nat) : (s.focus n).queues = s.queues := by unfold State.focus; split <;> rfl
@[simp] theorem State.focus_launches (s : State) (n : Nat) : (s.focus n).launches = s.launches := by unfold State.focus; split <;> rfl
@[simp] theorem State.focus_nextLid (s : State) (n : Nat) : (s.focus n).nextLid = s.nextLid := by unfold State.focus; split <;> rfl
@[simp] theorem State.focus_succs (s : State) (n : Nat) : (s.focus n).succs = s.succs := by unfold State.focus; split <;> rfl
@[simp] theorem State.focus_images (s : State) (n : Nat) : (s.focus n).images = s.images := by unfold State.focus; split <;> rfl
@[simp] theorem State.focus_nets (s : State) (n : Nat) : (s.focus n).nets = s.nets := by unfold State.focus; split <;> rfl
@[simp] theorem State.focus_tables (s : State) (n : Nat) : (s.focus n).tables = s.tables := by unfold State.focus; split <;> rfl
@[simp] theorem State.focus_unpins (s : State) (n : Nat) : (s.focus n).unpins = s.unpins := by unfold State.focus; split <;> rfl
@[simp] theorem State.focus_gates (s : State) (n : Nat) : (s.focus n).gates = s.gates := by unfold State.focus; split <;> rfl
@[simp] theorem State.focus_leases (s : State) (n : Nat) : (s.focus n).leases = s.leases := by unfold State.focus; split <;> rfl
@[simp] theorem State.focus_lwaits (s : State) (n : Nat) : (s.focus n).lwaits = s.lwaits := by unfold State.focus; split <;> rfl
@[simp] theorem State.focus_lserial (s : State) (n : Nat) : (s.focus n).lserial = s.lserial := by unfold State.focus; split <;> rfl
@[simp] theorem State.focus_msgs (s : State) (n : Nat) : (s.focus n).msgs = s.msgs := by unfold State.focus; split <;> rfl
@[simp] theorem State.focus_nmsgs (s : State) (n : Nat) : (s.focus n).nmsgs = s.nmsgs := by unfold State.focus; split <;> rfl
@[simp] theorem State.focus_puts (s : State) (n : Nat) : (s.focus n).puts = s.puts := by unfold State.focus; split <;> rfl
@[simp] theorem State.focus_putOuts (s : State) (n : Nat) : (s.focus n).putOuts = s.putOuts := by unfold State.focus; split <;> rfl
@[simp] theorem State.focus_putIns (s : State) (n : Nat) : (s.focus n).putIns = s.putIns := by unfold State.focus; split <;> rfl
@[simp] theorem State.focus_putSer (s : State) (n : Nat) : (s.focus n).putSer = s.putSer := by unfold State.focus; split <;> rfl
@[simp] theorem State.focus_putNos (s : State) (n : Nat) : (s.focus n).putNos = s.putNos := by unfold State.focus; split <;> rfl
@[simp] theorem State.focus_stores (s : State) (n : Nat) : (s.focus n).stores = s.stores := by unfold State.focus; split <;> rfl
@[simp] theorem State.focus_dirties (s : State) (n : Nat) : (s.focus n).dirties = s.dirties := by unfold State.focus; split <;> rfl
@[simp] theorem State.focus_failed (s : State) (n : Nat) : (s.focus n).failed = s.failed := by unfold State.focus; split <;> rfl
@[simp] theorem State.focus_tephra (s : State) (n : Nat) : (s.focus n).tephra = s.tephra := by unfold State.focus; split <;> rfl
@[simp] theorem State.focus_evBase (s : State) (n : Nat) : (s.focus n).evBase = s.evBase := by unfold State.focus; split <;> rfl
@[simp] theorem State.focus_evLg (s : State) (n : Nat) : (s.focus n).evLg = s.evLg := by unfold State.focus; split <;> rfl
@[simp] theorem State.focus_evProd (s : State) (n : Nat) : (s.focus n).evProd = s.evProd := by unfold State.focus; split <;> rfl
@[simp] theorem State.focus_evCons (s : State) (n : Nat) : (s.focus n).evCons = s.evCons := by unfold State.focus; split <;> rfl
@[simp] theorem State.focus_evLost (s : State) (n : Nat) : (s.focus n).evLost = s.evLost := by unfold State.focus; split <;> rfl
@[simp] theorem State.focus_dieEv (s : State) (n : Nat) : (s.focus n).dieEv = s.dieEv := by unfold State.focus; split <;> rfl
@[simp] theorem State.focus_time (s : State) (n : Nat) : (s.focus n).time = s.time := by unfold State.focus; split <;> rfl
@[simp] theorem State.focus_winBase (s : State) (n : Nat) : (s.focus n).winBase = s.winBase := by unfold State.focus; split <;> rfl
@[simp] theorem State.focus_winCount (s : State) (n : Nat) : (s.focus n).winCount = s.winCount := by unfold State.focus; split <;> rfl
@[simp] theorem State.focus_windows (s : State) (n : Nat) : (s.focus n).windows = s.windows := by unfold State.focus; split <;> rfl
@[simp] theorem State.focus_peers (s : State) (n : Nat) : (s.focus n).peers = s.peers := by unfold State.focus; split <;> rfl
@[simp] theorem State.focus_pcie (s : State) (n : Nat) : (s.focus n).pcie = s.pcie := by unfold State.focus; split <;> rfl
@[simp] theorem State.focus_clock (s : State) (n : Nat) : (s.focus n).clock = s.clock := by unfold State.focus; split <;> rfl
@[simp] theorem State.focus_start (s : State) (n : Nat) : (s.focus n).start = s.start := by unfold State.focus; split <;> rfl
@[simp] theorem State.focus_boots (s : State) (n : Nat) : (s.focus n).boots = s.boots := by unfold State.focus; split <;> rfl
@[simp] theorem State.focus_record (s : State) (n : Nat) : (s.focus n).record = s.record := by unfold State.focus; split <;> rfl
@[simp] theorem State.focus_rollback (s : State) (n : Nat) : (s.focus n).rollback = s.rollback := by unfold State.focus; split <;> rfl
@[simp] theorem State.focus_spdm (s : State) (n : Nat) : (s.focus n).spdm = s.spdm := by unfold State.focus; split <;> rfl

/-! `State.retire` changes the acting core alone. -/

@[simp] theorem State.retire_others (s : State) : (s.retire).others = s.others := by unfold State.retire; simp only []; split <;> rfl
@[simp] theorem State.retire_agenda (s : State) : (s.retire).agenda = s.agenda := by unfold State.retire; simp only []; split <;> rfl
@[simp] theorem State.retire_free (s : State) : (s.retire).free = s.free := by unfold State.retire; simp only []; split <;> rfl
@[simp] theorem State.retire_mem (s : State) : (s.retire).mem = s.mem := by unfold State.retire; simp only []; split <;> rfl
@[simp] theorem State.retire_mpois (s : State) : (s.retire).mpois = s.mpois := by unfold State.retire; simp only []; split <;> rfl
@[simp] theorem State.retire_flips (s : State) : (s.retire).flips = s.flips := by unfold State.retire; simp only []; split <;> rfl
@[simp] theorem State.retire_sweeps (s : State) : (s.retire).sweeps = s.sweeps := by unfold State.retire; simp only []; split <;> rfl
@[simp] theorem State.retire_rows (s : State) : (s.retire).rows = s.rows := by unfold State.retire; simp only []; split <;> rfl
@[simp] theorem State.retire_clusters (s : State) : (s.retire).clusters = s.clusters := by unfold State.retire; simp only []; split <;> rfl
@[simp] theorem State.retire_out (s : State) : (s.retire).out = s.out := by unfold State.retire; simp only []; split <;> rfl
@[simp] theorem State.retire_stack (s : State) : (s.retire).stack = s.stack := by unfold State.retire; simp only []; split <;> rfl
@[simp] theorem State.retire_drains (s : State) : (s.retire).drains = s.drains := by unfold State.retire; simp only []; split <;> rfl
@[simp] theorem State.retire_l2tlb (s : State) : (s.retire).l2tlb = s.l2tlb := by unfold State.retire; simp only []; split <;> rfl
@[simp] theorem State.retire_scans (s : State) : (s.retire).scans = s.scans := by unfold State.retire; simp only []; split <;> rfl
@[simp] theorem State.retire_twins (s : State) : (s.retire).twins = s.twins := by unfold State.retire; simp only []; split <;> rfl
@[simp] theorem State.retire_parts (s : State) : (s.retire).parts = s.parts := by unfold State.retire; simp only []; split <;> rfl
@[simp] theorem State.retire_ctxs (s : State) : (s.retire).ctxs = s.ctxs := by unfold State.retire; simp only []; split <;> rfl
@[simp] theorem State.retire_queues (s : State) : (s.retire).queues = s.queues := by unfold State.retire; simp only []; split <;> rfl
@[simp] theorem State.retire_launches (s : State) : (s.retire).launches = s.launches := by unfold State.retire; simp only []; split <;> rfl
@[simp] theorem State.retire_nextLid (s : State) : (s.retire).nextLid = s.nextLid := by unfold State.retire; simp only []; split <;> rfl
@[simp] theorem State.retire_succs (s : State) : (s.retire).succs = s.succs := by unfold State.retire; simp only []; split <;> rfl
@[simp] theorem State.retire_images (s : State) : (s.retire).images = s.images := by unfold State.retire; simp only []; split <;> rfl
@[simp] theorem State.retire_nets (s : State) : (s.retire).nets = s.nets := by unfold State.retire; simp only []; split <;> rfl
@[simp] theorem State.retire_tables (s : State) : (s.retire).tables = s.tables := by unfold State.retire; simp only []; split <;> rfl
@[simp] theorem State.retire_unpins (s : State) : (s.retire).unpins = s.unpins := by unfold State.retire; simp only []; split <;> rfl
@[simp] theorem State.retire_gates (s : State) : (s.retire).gates = s.gates := by unfold State.retire; simp only []; split <;> rfl
@[simp] theorem State.retire_leases (s : State) : (s.retire).leases = s.leases := by unfold State.retire; simp only []; split <;> rfl
@[simp] theorem State.retire_lwaits (s : State) : (s.retire).lwaits = s.lwaits := by unfold State.retire; simp only []; split <;> rfl
@[simp] theorem State.retire_lserial (s : State) : (s.retire).lserial = s.lserial := by unfold State.retire; simp only []; split <;> rfl
@[simp] theorem State.retire_msgs (s : State) : (s.retire).msgs = s.msgs := by unfold State.retire; simp only []; split <;> rfl
@[simp] theorem State.retire_nmsgs (s : State) : (s.retire).nmsgs = s.nmsgs := by unfold State.retire; simp only []; split <;> rfl
@[simp] theorem State.retire_puts (s : State) : (s.retire).puts = s.puts := by unfold State.retire; simp only []; split <;> rfl
@[simp] theorem State.retire_putOuts (s : State) : (s.retire).putOuts = s.putOuts := by unfold State.retire; simp only []; split <;> rfl
@[simp] theorem State.retire_putIns (s : State) : (s.retire).putIns = s.putIns := by unfold State.retire; simp only []; split <;> rfl
@[simp] theorem State.retire_putSer (s : State) : (s.retire).putSer = s.putSer := by unfold State.retire; simp only []; split <;> rfl
@[simp] theorem State.retire_putNos (s : State) : (s.retire).putNos = s.putNos := by unfold State.retire; simp only []; split <;> rfl
@[simp] theorem State.retire_stores (s : State) : (s.retire).stores = s.stores := by unfold State.retire; simp only []; split <;> rfl
@[simp] theorem State.retire_dirties (s : State) : (s.retire).dirties = s.dirties := by unfold State.retire; simp only []; split <;> rfl
@[simp] theorem State.retire_failed (s : State) : (s.retire).failed = s.failed := by unfold State.retire; simp only []; split <;> rfl
@[simp] theorem State.retire_tephra (s : State) : (s.retire).tephra = s.tephra := by unfold State.retire; simp only []; split <;> rfl
@[simp] theorem State.retire_evBase (s : State) : (s.retire).evBase = s.evBase := by unfold State.retire; simp only []; split <;> rfl
@[simp] theorem State.retire_evLg (s : State) : (s.retire).evLg = s.evLg := by unfold State.retire; simp only []; split <;> rfl
@[simp] theorem State.retire_evProd (s : State) : (s.retire).evProd = s.evProd := by unfold State.retire; simp only []; split <;> rfl
@[simp] theorem State.retire_evCons (s : State) : (s.retire).evCons = s.evCons := by unfold State.retire; simp only []; split <;> rfl
@[simp] theorem State.retire_evLost (s : State) : (s.retire).evLost = s.evLost := by unfold State.retire; simp only []; split <;> rfl
@[simp] theorem State.retire_dieEv (s : State) : (s.retire).dieEv = s.dieEv := by unfold State.retire; simp only []; split <;> rfl
@[simp] theorem State.retire_time (s : State) : (s.retire).time = s.time := by unfold State.retire; simp only []; split <;> rfl
@[simp] theorem State.retire_winBase (s : State) : (s.retire).winBase = s.winBase := by unfold State.retire; simp only []; split <;> rfl
@[simp] theorem State.retire_winCount (s : State) : (s.retire).winCount = s.winCount := by unfold State.retire; simp only []; split <;> rfl
@[simp] theorem State.retire_windows (s : State) : (s.retire).windows = s.windows := by unfold State.retire; simp only []; split <;> rfl
@[simp] theorem State.retire_peers (s : State) : (s.retire).peers = s.peers := by unfold State.retire; simp only []; split <;> rfl
@[simp] theorem State.retire_pcie (s : State) : (s.retire).pcie = s.pcie := by unfold State.retire; simp only []; split <;> rfl
@[simp] theorem State.retire_clock (s : State) : (s.retire).clock = s.clock := by unfold State.retire; simp only []; split <;> rfl
@[simp] theorem State.retire_start (s : State) : (s.retire).start = s.start := by unfold State.retire; simp only []; split <;> rfl
@[simp] theorem State.retire_boots (s : State) : (s.retire).boots = s.boots := by unfold State.retire; simp only []; split <;> rfl
@[simp] theorem State.retire_record (s : State) : (s.retire).record = s.record := by unfold State.retire; simp only []; split <;> rfl
@[simp] theorem State.retire_rollback (s : State) : (s.retire).rollback = s.rollback := by unfold State.retire; simp only []; split <;> rfl
@[simp] theorem State.retire_spdm (s : State) : (s.retire).spdm = s.spdm := by unfold State.retire; simp only []; split <;> rfl

/-! `State.transfer` changes the acting core alone. -/

@[simp] theorem State.transfer_others (s : State) (t : Word) : (s.transfer t).others = s.others := by unfold State.transfer; simp only []; split <;> rfl
@[simp] theorem State.transfer_agenda (s : State) (t : Word) : (s.transfer t).agenda = s.agenda := by unfold State.transfer; simp only []; split <;> rfl
@[simp] theorem State.transfer_free (s : State) (t : Word) : (s.transfer t).free = s.free := by unfold State.transfer; simp only []; split <;> rfl
@[simp] theorem State.transfer_mem (s : State) (t : Word) : (s.transfer t).mem = s.mem := by unfold State.transfer; simp only []; split <;> rfl
@[simp] theorem State.transfer_mpois (s : State) (t : Word) : (s.transfer t).mpois = s.mpois := by unfold State.transfer; simp only []; split <;> rfl
@[simp] theorem State.transfer_flips (s : State) (t : Word) : (s.transfer t).flips = s.flips := by unfold State.transfer; simp only []; split <;> rfl
@[simp] theorem State.transfer_sweeps (s : State) (t : Word) : (s.transfer t).sweeps = s.sweeps := by unfold State.transfer; simp only []; split <;> rfl
@[simp] theorem State.transfer_rows (s : State) (t : Word) : (s.transfer t).rows = s.rows := by unfold State.transfer; simp only []; split <;> rfl
@[simp] theorem State.transfer_clusters (s : State) (t : Word) : (s.transfer t).clusters = s.clusters := by unfold State.transfer; simp only []; split <;> rfl
@[simp] theorem State.transfer_out (s : State) (t : Word) : (s.transfer t).out = s.out := by unfold State.transfer; simp only []; split <;> rfl
@[simp] theorem State.transfer_stack (s : State) (t : Word) : (s.transfer t).stack = s.stack := by unfold State.transfer; simp only []; split <;> rfl
@[simp] theorem State.transfer_drains (s : State) (t : Word) : (s.transfer t).drains = s.drains := by unfold State.transfer; simp only []; split <;> rfl
@[simp] theorem State.transfer_l2tlb (s : State) (t : Word) : (s.transfer t).l2tlb = s.l2tlb := by unfold State.transfer; simp only []; split <;> rfl
@[simp] theorem State.transfer_scans (s : State) (t : Word) : (s.transfer t).scans = s.scans := by unfold State.transfer; simp only []; split <;> rfl
@[simp] theorem State.transfer_twins (s : State) (t : Word) : (s.transfer t).twins = s.twins := by unfold State.transfer; simp only []; split <;> rfl
@[simp] theorem State.transfer_parts (s : State) (t : Word) : (s.transfer t).parts = s.parts := by unfold State.transfer; simp only []; split <;> rfl
@[simp] theorem State.transfer_ctxs (s : State) (t : Word) : (s.transfer t).ctxs = s.ctxs := by unfold State.transfer; simp only []; split <;> rfl
@[simp] theorem State.transfer_queues (s : State) (t : Word) : (s.transfer t).queues = s.queues := by unfold State.transfer; simp only []; split <;> rfl
@[simp] theorem State.transfer_launches (s : State) (t : Word) : (s.transfer t).launches = s.launches := by unfold State.transfer; simp only []; split <;> rfl
@[simp] theorem State.transfer_nextLid (s : State) (t : Word) : (s.transfer t).nextLid = s.nextLid := by unfold State.transfer; simp only []; split <;> rfl
@[simp] theorem State.transfer_succs (s : State) (t : Word) : (s.transfer t).succs = s.succs := by unfold State.transfer; simp only []; split <;> rfl
@[simp] theorem State.transfer_images (s : State) (t : Word) : (s.transfer t).images = s.images := by unfold State.transfer; simp only []; split <;> rfl
@[simp] theorem State.transfer_nets (s : State) (t : Word) : (s.transfer t).nets = s.nets := by unfold State.transfer; simp only []; split <;> rfl
@[simp] theorem State.transfer_tables (s : State) (t : Word) : (s.transfer t).tables = s.tables := by unfold State.transfer; simp only []; split <;> rfl
@[simp] theorem State.transfer_unpins (s : State) (t : Word) : (s.transfer t).unpins = s.unpins := by unfold State.transfer; simp only []; split <;> rfl
@[simp] theorem State.transfer_gates (s : State) (t : Word) : (s.transfer t).gates = s.gates := by unfold State.transfer; simp only []; split <;> rfl
@[simp] theorem State.transfer_leases (s : State) (t : Word) : (s.transfer t).leases = s.leases := by unfold State.transfer; simp only []; split <;> rfl
@[simp] theorem State.transfer_lwaits (s : State) (t : Word) : (s.transfer t).lwaits = s.lwaits := by unfold State.transfer; simp only []; split <;> rfl
@[simp] theorem State.transfer_lserial (s : State) (t : Word) : (s.transfer t).lserial = s.lserial := by unfold State.transfer; simp only []; split <;> rfl
@[simp] theorem State.transfer_msgs (s : State) (t : Word) : (s.transfer t).msgs = s.msgs := by unfold State.transfer; simp only []; split <;> rfl
@[simp] theorem State.transfer_nmsgs (s : State) (t : Word) : (s.transfer t).nmsgs = s.nmsgs := by unfold State.transfer; simp only []; split <;> rfl
@[simp] theorem State.transfer_puts (s : State) (t : Word) : (s.transfer t).puts = s.puts := by unfold State.transfer; simp only []; split <;> rfl
@[simp] theorem State.transfer_putOuts (s : State) (t : Word) : (s.transfer t).putOuts = s.putOuts := by unfold State.transfer; simp only []; split <;> rfl
@[simp] theorem State.transfer_putIns (s : State) (t : Word) : (s.transfer t).putIns = s.putIns := by unfold State.transfer; simp only []; split <;> rfl
@[simp] theorem State.transfer_putSer (s : State) (t : Word) : (s.transfer t).putSer = s.putSer := by unfold State.transfer; simp only []; split <;> rfl
@[simp] theorem State.transfer_putNos (s : State) (t : Word) : (s.transfer t).putNos = s.putNos := by unfold State.transfer; simp only []; split <;> rfl
@[simp] theorem State.transfer_stores (s : State) (t : Word) : (s.transfer t).stores = s.stores := by unfold State.transfer; simp only []; split <;> rfl
@[simp] theorem State.transfer_dirties (s : State) (t : Word) : (s.transfer t).dirties = s.dirties := by unfold State.transfer; simp only []; split <;> rfl
@[simp] theorem State.transfer_failed (s : State) (t : Word) : (s.transfer t).failed = s.failed := by unfold State.transfer; simp only []; split <;> rfl
@[simp] theorem State.transfer_tephra (s : State) (t : Word) : (s.transfer t).tephra = s.tephra := by unfold State.transfer; simp only []; split <;> rfl
@[simp] theorem State.transfer_evBase (s : State) (t : Word) : (s.transfer t).evBase = s.evBase := by unfold State.transfer; simp only []; split <;> rfl
@[simp] theorem State.transfer_evLg (s : State) (t : Word) : (s.transfer t).evLg = s.evLg := by unfold State.transfer; simp only []; split <;> rfl
@[simp] theorem State.transfer_evProd (s : State) (t : Word) : (s.transfer t).evProd = s.evProd := by unfold State.transfer; simp only []; split <;> rfl
@[simp] theorem State.transfer_evCons (s : State) (t : Word) : (s.transfer t).evCons = s.evCons := by unfold State.transfer; simp only []; split <;> rfl
@[simp] theorem State.transfer_evLost (s : State) (t : Word) : (s.transfer t).evLost = s.evLost := by unfold State.transfer; simp only []; split <;> rfl
@[simp] theorem State.transfer_dieEv (s : State) (t : Word) : (s.transfer t).dieEv = s.dieEv := by unfold State.transfer; simp only []; split <;> rfl
@[simp] theorem State.transfer_time (s : State) (t : Word) : (s.transfer t).time = s.time := by unfold State.transfer; simp only []; split <;> rfl
@[simp] theorem State.transfer_winBase (s : State) (t : Word) : (s.transfer t).winBase = s.winBase := by unfold State.transfer; simp only []; split <;> rfl
@[simp] theorem State.transfer_winCount (s : State) (t : Word) : (s.transfer t).winCount = s.winCount := by unfold State.transfer; simp only []; split <;> rfl
@[simp] theorem State.transfer_windows (s : State) (t : Word) : (s.transfer t).windows = s.windows := by unfold State.transfer; simp only []; split <;> rfl
@[simp] theorem State.transfer_peers (s : State) (t : Word) : (s.transfer t).peers = s.peers := by unfold State.transfer; simp only []; split <;> rfl
@[simp] theorem State.transfer_pcie (s : State) (t : Word) : (s.transfer t).pcie = s.pcie := by unfold State.transfer; simp only []; split <;> rfl
@[simp] theorem State.transfer_clock (s : State) (t : Word) : (s.transfer t).clock = s.clock := by unfold State.transfer; simp only []; split <;> rfl
@[simp] theorem State.transfer_start (s : State) (t : Word) : (s.transfer t).start = s.start := by unfold State.transfer; simp only []; split <;> rfl
@[simp] theorem State.transfer_boots (s : State) (t : Word) : (s.transfer t).boots = s.boots := by unfold State.transfer; simp only []; split <;> rfl
@[simp] theorem State.transfer_record (s : State) (t : Word) : (s.transfer t).record = s.record := by unfold State.transfer; simp only []; split <;> rfl
@[simp] theorem State.transfer_rollback (s : State) (t : Word) : (s.transfer t).rollback = s.rollback := by unfold State.transfer; simp only []; split <;> rfl
@[simp] theorem State.transfer_spdm (s : State) (t : Word) : (s.transfer t).spdm = s.spdm := by unfold State.transfer; simp only []; split <;> rfl

/-! `State.wait` changes the acting core alone. -/

@[simp] theorem State.wait_others (s : State) : (s.wait).others = s.others := rfl
@[simp] theorem State.wait_agenda (s : State) : (s.wait).agenda = s.agenda := rfl
@[simp] theorem State.wait_free (s : State) : (s.wait).free = s.free := rfl
@[simp] theorem State.wait_mem (s : State) : (s.wait).mem = s.mem := rfl
@[simp] theorem State.wait_mpois (s : State) : (s.wait).mpois = s.mpois := rfl
@[simp] theorem State.wait_flips (s : State) : (s.wait).flips = s.flips := rfl
@[simp] theorem State.wait_sweeps (s : State) : (s.wait).sweeps = s.sweeps := rfl
@[simp] theorem State.wait_rows (s : State) : (s.wait).rows = s.rows := rfl
@[simp] theorem State.wait_clusters (s : State) : (s.wait).clusters = s.clusters := rfl
@[simp] theorem State.wait_out (s : State) : (s.wait).out = s.out := rfl
@[simp] theorem State.wait_stack (s : State) : (s.wait).stack = s.stack := rfl
@[simp] theorem State.wait_drains (s : State) : (s.wait).drains = s.drains := rfl
@[simp] theorem State.wait_l2tlb (s : State) : (s.wait).l2tlb = s.l2tlb := rfl
@[simp] theorem State.wait_scans (s : State) : (s.wait).scans = s.scans := rfl
@[simp] theorem State.wait_twins (s : State) : (s.wait).twins = s.twins := rfl
@[simp] theorem State.wait_parts (s : State) : (s.wait).parts = s.parts := rfl
@[simp] theorem State.wait_ctxs (s : State) : (s.wait).ctxs = s.ctxs := rfl
@[simp] theorem State.wait_queues (s : State) : (s.wait).queues = s.queues := rfl
@[simp] theorem State.wait_launches (s : State) : (s.wait).launches = s.launches := rfl
@[simp] theorem State.wait_nextLid (s : State) : (s.wait).nextLid = s.nextLid := rfl
@[simp] theorem State.wait_succs (s : State) : (s.wait).succs = s.succs := rfl
@[simp] theorem State.wait_images (s : State) : (s.wait).images = s.images := rfl
@[simp] theorem State.wait_nets (s : State) : (s.wait).nets = s.nets := rfl
@[simp] theorem State.wait_tables (s : State) : (s.wait).tables = s.tables := rfl
@[simp] theorem State.wait_unpins (s : State) : (s.wait).unpins = s.unpins := rfl
@[simp] theorem State.wait_gates (s : State) : (s.wait).gates = s.gates := rfl
@[simp] theorem State.wait_leases (s : State) : (s.wait).leases = s.leases := rfl
@[simp] theorem State.wait_lwaits (s : State) : (s.wait).lwaits = s.lwaits := rfl
@[simp] theorem State.wait_lserial (s : State) : (s.wait).lserial = s.lserial := rfl
@[simp] theorem State.wait_msgs (s : State) : (s.wait).msgs = s.msgs := rfl
@[simp] theorem State.wait_nmsgs (s : State) : (s.wait).nmsgs = s.nmsgs := rfl
@[simp] theorem State.wait_puts (s : State) : (s.wait).puts = s.puts := rfl
@[simp] theorem State.wait_putOuts (s : State) : (s.wait).putOuts = s.putOuts := rfl
@[simp] theorem State.wait_putIns (s : State) : (s.wait).putIns = s.putIns := rfl
@[simp] theorem State.wait_putSer (s : State) : (s.wait).putSer = s.putSer := rfl
@[simp] theorem State.wait_putNos (s : State) : (s.wait).putNos = s.putNos := rfl
@[simp] theorem State.wait_stores (s : State) : (s.wait).stores = s.stores := rfl
@[simp] theorem State.wait_dirties (s : State) : (s.wait).dirties = s.dirties := rfl
@[simp] theorem State.wait_failed (s : State) : (s.wait).failed = s.failed := rfl
@[simp] theorem State.wait_tephra (s : State) : (s.wait).tephra = s.tephra := rfl
@[simp] theorem State.wait_evBase (s : State) : (s.wait).evBase = s.evBase := rfl
@[simp] theorem State.wait_evLg (s : State) : (s.wait).evLg = s.evLg := rfl
@[simp] theorem State.wait_evProd (s : State) : (s.wait).evProd = s.evProd := rfl
@[simp] theorem State.wait_evCons (s : State) : (s.wait).evCons = s.evCons := rfl
@[simp] theorem State.wait_evLost (s : State) : (s.wait).evLost = s.evLost := rfl
@[simp] theorem State.wait_dieEv (s : State) : (s.wait).dieEv = s.dieEv := rfl
@[simp] theorem State.wait_time (s : State) : (s.wait).time = s.time := rfl
@[simp] theorem State.wait_winBase (s : State) : (s.wait).winBase = s.winBase := rfl
@[simp] theorem State.wait_winCount (s : State) : (s.wait).winCount = s.winCount := rfl
@[simp] theorem State.wait_windows (s : State) : (s.wait).windows = s.windows := rfl
@[simp] theorem State.wait_peers (s : State) : (s.wait).peers = s.peers := rfl
@[simp] theorem State.wait_pcie (s : State) : (s.wait).pcie = s.pcie := rfl
@[simp] theorem State.wait_clock (s : State) : (s.wait).clock = s.clock := rfl
@[simp] theorem State.wait_start (s : State) : (s.wait).start = s.start := rfl
@[simp] theorem State.wait_boots (s : State) : (s.wait).boots = s.boots := rfl
@[simp] theorem State.wait_record (s : State) : (s.wait).record = s.record := rfl
@[simp] theorem State.wait_rollback (s : State) : (s.wait).rollback = s.rollback := rfl
@[simp] theorem State.wait_spdm (s : State) : (s.wait).spdm = s.spdm := rfl

/-! `State.freeze` changes the acting core alone. -/

@[simp] theorem State.freeze_others (s : State) : (s.freeze).others = s.others := rfl
@[simp] theorem State.freeze_agenda (s : State) : (s.freeze).agenda = s.agenda := rfl
@[simp] theorem State.freeze_free (s : State) : (s.freeze).free = s.free := rfl
@[simp] theorem State.freeze_mem (s : State) : (s.freeze).mem = s.mem := rfl
@[simp] theorem State.freeze_mpois (s : State) : (s.freeze).mpois = s.mpois := rfl
@[simp] theorem State.freeze_flips (s : State) : (s.freeze).flips = s.flips := rfl
@[simp] theorem State.freeze_sweeps (s : State) : (s.freeze).sweeps = s.sweeps := rfl
@[simp] theorem State.freeze_rows (s : State) : (s.freeze).rows = s.rows := rfl
@[simp] theorem State.freeze_clusters (s : State) : (s.freeze).clusters = s.clusters := rfl
@[simp] theorem State.freeze_out (s : State) : (s.freeze).out = s.out := rfl
@[simp] theorem State.freeze_stack (s : State) : (s.freeze).stack = s.stack := rfl
@[simp] theorem State.freeze_drains (s : State) : (s.freeze).drains = s.drains := rfl
@[simp] theorem State.freeze_l2tlb (s : State) : (s.freeze).l2tlb = s.l2tlb := rfl
@[simp] theorem State.freeze_scans (s : State) : (s.freeze).scans = s.scans := rfl
@[simp] theorem State.freeze_twins (s : State) : (s.freeze).twins = s.twins := rfl
@[simp] theorem State.freeze_parts (s : State) : (s.freeze).parts = s.parts := rfl
@[simp] theorem State.freeze_ctxs (s : State) : (s.freeze).ctxs = s.ctxs := rfl
@[simp] theorem State.freeze_queues (s : State) : (s.freeze).queues = s.queues := rfl
@[simp] theorem State.freeze_launches (s : State) : (s.freeze).launches = s.launches := rfl
@[simp] theorem State.freeze_nextLid (s : State) : (s.freeze).nextLid = s.nextLid := rfl
@[simp] theorem State.freeze_succs (s : State) : (s.freeze).succs = s.succs := rfl
@[simp] theorem State.freeze_images (s : State) : (s.freeze).images = s.images := rfl
@[simp] theorem State.freeze_nets (s : State) : (s.freeze).nets = s.nets := rfl
@[simp] theorem State.freeze_tables (s : State) : (s.freeze).tables = s.tables := rfl
@[simp] theorem State.freeze_unpins (s : State) : (s.freeze).unpins = s.unpins := rfl
@[simp] theorem State.freeze_gates (s : State) : (s.freeze).gates = s.gates := rfl
@[simp] theorem State.freeze_leases (s : State) : (s.freeze).leases = s.leases := rfl
@[simp] theorem State.freeze_lwaits (s : State) : (s.freeze).lwaits = s.lwaits := rfl
@[simp] theorem State.freeze_lserial (s : State) : (s.freeze).lserial = s.lserial := rfl
@[simp] theorem State.freeze_msgs (s : State) : (s.freeze).msgs = s.msgs := rfl
@[simp] theorem State.freeze_nmsgs (s : State) : (s.freeze).nmsgs = s.nmsgs := rfl
@[simp] theorem State.freeze_puts (s : State) : (s.freeze).puts = s.puts := rfl
@[simp] theorem State.freeze_putOuts (s : State) : (s.freeze).putOuts = s.putOuts := rfl
@[simp] theorem State.freeze_putIns (s : State) : (s.freeze).putIns = s.putIns := rfl
@[simp] theorem State.freeze_putSer (s : State) : (s.freeze).putSer = s.putSer := rfl
@[simp] theorem State.freeze_putNos (s : State) : (s.freeze).putNos = s.putNos := rfl
@[simp] theorem State.freeze_stores (s : State) : (s.freeze).stores = s.stores := rfl
@[simp] theorem State.freeze_dirties (s : State) : (s.freeze).dirties = s.dirties := rfl
@[simp] theorem State.freeze_failed (s : State) : (s.freeze).failed = s.failed := rfl
@[simp] theorem State.freeze_tephra (s : State) : (s.freeze).tephra = s.tephra := rfl
@[simp] theorem State.freeze_evBase (s : State) : (s.freeze).evBase = s.evBase := rfl
@[simp] theorem State.freeze_evLg (s : State) : (s.freeze).evLg = s.evLg := rfl
@[simp] theorem State.freeze_evProd (s : State) : (s.freeze).evProd = s.evProd := rfl
@[simp] theorem State.freeze_evCons (s : State) : (s.freeze).evCons = s.evCons := rfl
@[simp] theorem State.freeze_evLost (s : State) : (s.freeze).evLost = s.evLost := rfl
@[simp] theorem State.freeze_dieEv (s : State) : (s.freeze).dieEv = s.dieEv := rfl
@[simp] theorem State.freeze_time (s : State) : (s.freeze).time = s.time := rfl
@[simp] theorem State.freeze_winBase (s : State) : (s.freeze).winBase = s.winBase := rfl
@[simp] theorem State.freeze_winCount (s : State) : (s.freeze).winCount = s.winCount := rfl
@[simp] theorem State.freeze_windows (s : State) : (s.freeze).windows = s.windows := rfl
@[simp] theorem State.freeze_peers (s : State) : (s.freeze).peers = s.peers := rfl
@[simp] theorem State.freeze_pcie (s : State) : (s.freeze).pcie = s.pcie := rfl
@[simp] theorem State.freeze_clock (s : State) : (s.freeze).clock = s.clock := rfl
@[simp] theorem State.freeze_start (s : State) : (s.freeze).start = s.start := rfl
@[simp] theorem State.freeze_boots (s : State) : (s.freeze).boots = s.boots := rfl
@[simp] theorem State.freeze_record (s : State) : (s.freeze).record = s.record := rfl
@[simp] theorem State.freeze_rollback (s : State) : (s.freeze).rollback = s.rollback := rfl
@[simp] theorem State.freeze_spdm (s : State) : (s.freeze).spdm = s.spdm := rfl

end Sys2Proof.Machine
end

