-- ==== Sys2Proof/Tests/Slice0.lean ====
section
/-! SUPPORT. Tests of the model on small states, and witnesses that the hypotheses of the statements can be met. Words and
results come from the spec's tables and worked problems or are worked out by hand from its rules. -/

namespace Sys2Proof.Tests

open Sys2Proof
open Sys2Proof.Machine
open Sys2Proof.Safety

set_option Elab.async false

/-! Small states. -/

/-- The share's first byte as a generic address (R23). -/
def loc : Word := 0x8000000000000000
/-- Core 0 in a task of its own: exchange phase, 64 KiB of share. -/
def own : Core := { Core.reset 0 with role := .running, pc := 0x1000, npc := 0x1004, shareSize := 65536 }
/-- The machine after reset, but for that core. -/
def bare : State := { State.reset with core := own }
/-- The same in a compute phase. -/
def comp : State := bare.upd fun c => { c with phase := .compute }
/-- Scalar registers set. -/
def setX (s : State) (l : List (XReg × Word)) : State := s.upd fun c => { c with x := l.foldl (fun v q => v.set q.1 q.2) c.x }
/-- Vector registers set. -/
def setV (s : State) (l : List (VReg × Tile)) : State := s.upd fun c => { c with v := l.foldl (fun v q => v.set q.1 q.2) c.v }
/-- Predicates set. -/
def setP (s : State) (l : List (PReg × Mask)) : State := s.upd fun c => { c with p := l.foldl (fun v q => v.set q.1 q.2) c.p }
/-- The shape set: rows, columns, type code (R55). -/
def setVs (s : State) (rows cols ty : Nat) : State :=
  s.upd fun c => { c with vs := BitVec.ofNat 64 (rows + 2 ^ 16 * cols + 2 ^ 32 * ty) }
/-- Bytes of the share set. -/
def setShare (s : State) (off : Nat) (bs : List Byte) : State := s.upd fun c => { c with share := c.share.write off bs }
/-- The next state. -/
def ran (i : Instr) (s : State) : State := match exec i s with | .next t => t | _ => s
/-- The core `n` slots after the issue, of which the instruction itself takes the first. -/
def soon (n : Nat) (i : Instr) (s : State) : Core := slots (n - 1) (ran i s).core
/-- The word decodes to the instruction, to its last bit. -/
def reads (ws : List Nat) (i : Instr) : Bool :=
  match decodeWords ws with | .ok (j, n) => j = i && n = ws.length | .error _ => false

/-- Page tables that map the first 128 MiB of the global space, readable and writable, to bank store from 2^54 on (R329): the
guest's in 0x100000 and 0x108000, the hypervisor's from 0x200000 on. -/
def mapped : State :=
  let m := bare.mem.write (2 ^ 54 + 0x100000) (leBytes 8 0x108001)
  let m := m.write (2 ^ 54 + 0x108000) (leBytes 8 0x37)
  let m := m.write (2 ^ 54 + 0x200000) (leBytes 8 (2 ^ 54 + 0x208001))
  let m := m.write (2 ^ 54 + 0x208000) (leBytes 8 (2 ^ 54 + 0x210001))
  let m := m.write (2 ^ 54 + 0x210000) (leBytes 8 (2 ^ 54 + 0x37))
  { bare with mem := m, parts := [(0, { Partition.reset0 with s2root := 2 ^ 54 + 0x200000 })]
              ctxs := [(0, { Context.empty with live := true, s1root := 0x100000 })] }

theorem test_decode_control_1 :
  reads [0x2468AC00] (.ill 0x123456) = true ∧
  reads [0x00200004] (.nop 1) = true ∧
  reads [0x00018008] (.br 3) = true ∧
  reads [0x0000000A, 0x9ABCDEF0, 0x12345678] (.brAbsolute 0x123456789ABCDEF0) = true ∧
  reads [0xFFFD440C] (.bc .none 2 (-6)) = true ∧
  reads [0x20C28011, 0xFFFFFFFE, 0x00000000] (.bcmp .ltu 5 6 (-2)) = true ∧
  reads [0x000A8014] (.jr 21) = true ∧
  reads [0xFFFE8018] (.call (-3)) = true ∧
  reads [0x0000001A, 0x9ABCDEF0, 0x12345678] (.callAbsolute 0x123456789ABCDEF0) = true ∧
  reads [0x001F801C] (.ret 63) = true ∧
  reads [0x00E00021, 0x00000007, 0x00000000] (.loop 0 7 7) = true ∧
  reads [0x00C20024] (.loopr 0 4 6) = true := by decide

theorem test_decode_control_2 :
  reads [0x00008428] (.lbrk 1 .any 2) = true ∧
  reads [0x0000002C] (.phaseX) = true ∧
  reads [0x0800002C] (.phaseC) = true ∧
  reads [0x00000030] (.chainLeave) = true ∧
  reads [0x10020634] (.xferVector .w 3 4) = true ∧
  reads [0x38030A34] (.xferScalar .n 5 6) = true ∧
  reads [0x00000038] (.done) = true ∧
  reads [0x0002803C] (.exit 5) = true ∧
  reads [0x08000031, 0x00000703, 0x00000000] (.chainForm 3 7) = true := by decide

theorem test_decode_scalar_1 :
  reads [0x08611440] (.add .sat 10 2 3) = true ∧
  reads [0x08030A42, 0x9ABCDEF0, 0x12345678] (.addLiteral .sat 5 6 0x123456789ABCDEF0) = true ∧
  reads [0x10E30A44] (.sub .usat 5 6 7) = true ∧
  reads [0x08030A46, 0x9ABCDEF0, 0x12345678] (.subLiteral .sat 5 6 0x123456789ABCDEF0) = true ∧
  reads [0xFFE30A48] (.addi 5 6 (-1)) = true ∧
  reads [0x00E30A4C] (.mul 5 6 7) = true ∧
  reads [0x00030A4E, 0x9ABCDEF0, 0x12345678] (.mulLiteral 5 6 0x123456789ABCDEF0) = true ∧
  reads [0x00411050] (.mulhi .s 8 2 2) = true ∧
  reads [0x10030A52, 0x9ABCDEF0, 0x12345678] (.mulhiLiteral .su 5 6 0x123456789ABCDEF0) = true ∧
  reads [0x08E30A54] (.mad true 5 6 7) = true ∧
  reads [0x00610A58] (.div false 5 2 3) = true ∧
  reads [0x08020E58] (.div true 7 4 0) = true := by decide

theorem test_decode_scalar_2 :
  reads [0x08030A5A, 0x9ABCDEF0, 0x12345678] (.divLiteral true 5 6 0x123456789ABCDEF0) = true ∧
  reads [0x08E30A5C] (.rem true 5 6 7) = true ∧
  reads [0x00030A5E, 0x9ABCDEF0, 0x12345678] (.remLiteral false 5 6 0x123456789ABCDEF0) = true := by decide

theorem test_decode_logic_1 :
  reads [0x08E30A60] (.and true 5 6 7) = true ∧
  reads [0x00030A62, 0x9ABCDEF0, 0x12345678] (.andLiteral false 5 6 0x123456789ABCDEF0) = true ∧
  reads [0x08E30A64] (.or true 5 6 7) = true ∧
  reads [0x00030A66, 0x9ABCDEF0, 0x12345678] (.orLiteral false 5 6 0x123456789ABCDEF0) = true ∧
  reads [0x08E30A68] (.xor true 5 6 7) = true ∧
  reads [0x00030A6A, 0x9ABCDEF0, 0x12345678] (.xorLiteral false 5 6 0x123456789ABCDEF0) = true ∧
  reads [0x0862886C] (.shl 4 5 (.imm 3)) = true ∧
  reads [0x00E30A6C] (.shl 5 6 (.reg 7)) = true ∧
  reads [0x00E30A70] (.shr 5 6 (.reg 7)) = true ∧
  reads [0x0FE30A74] (.sar 5 6 (.imm 63)) = true ∧
  reads [0x21028A78] (.bfx 5 5 8 4) = true ∧
  reads [0x00030A79, 0x00003F09, 0x02000000] (.bfxExtended true 5 6 9 63) = true := by decide

theorem test_decode_logic_2 :
  reads [0xF9030A7C] (.bfi 5 6 8 31) = true ∧
  reads [0x00030A7D, 0x00002809, 0x00000000] (.bfiExtended 5 6 9 40) = true ∧
  reads [0x01828480] (.cmp (.int .eq) 2 5 12) = true ∧
  reads [0x60028482, 0x9ABCDEF0, 0x12345678] (.cmpLiteral (.flt .fun_) 2 5 0x123456789ABCDEF0) = true ∧
  reads [0x00628684] (.cmpi .eq 3 5 3) = true ∧
  reads [0x18022288] (.sel 17 4 0 3) = true ∧
  reads [0x08E30A8C] (.min true 5 6 7) = true ∧
  reads [0x00030A8E, 0x9ABCDEF0, 0x12345678] (.minLiteral false 5 6 0x123456789ABCDEF0) = true ∧
  reads [0x09C79E90] (.max true 15 15 14) = true ∧
  reads [0x00030A92, 0x9ABCDEF0, 0x12345678] (.maxLiteral false 5 6 0x123456789ABCDEF0) = true ∧
  reads [0x10030A94] (.clz .tz 5 6) = true ∧
  reads [0x08030A98] (.popc true 5 6) = true := by decide

theorem test_decode_logic_3 :
  reads [0xFF200A9C] (.li 5 (-7)) = true ∧
  reads [0x00000E9E, 0x00000000, 0x80000000] (.liLiteral 7 0x8000000000000000) = true ∧
  reads [0x306102A0] (.plog 6 1 2 3) = true ∧
  reads [0x800282A0] (.plogFromx 1 5) = true ∧
  reads [0x88008AA0] (.plogTox 5 1) = true := by decide

theorem test_decode_special_1 :
  reads [0x00C00AA4] (.srd 5 .chain) = true ∧
  reads [0x03000AA4] (.srd 5 .trap) = true ∧
  reads [0x014280A8] (.swr .srseed 5) = true ∧
  reads [0x00000AAC] (.time 5) = true ∧
  reads [0x08000AAC] (.timeFx 5) = true ∧
  reads [0xC5800CB0] (.lea 6 { base := 0, off := .index 3 5 }) = true ∧
  reads [0x00030AB1, 0xFFFFFFF0, 0x00000000] (.leaExtended 5 { base := 6, off := .disp 0 } (-16)) = true ∧
  reads [0x18E30AB4] (.sfop .div 5 6 7) = true ∧
  reads [0x30030AB5, 0x00000000, 0x012A0000] (.sfopExtended .sqrt (some .f16) .rup 5 6 0) = true ∧
  reads [0x10E30AB8] (.sfma true false 5 6 7) = true ∧
  reads [0x08E30AB9, 0x00000000, 0x01690000] (.sfmaExtended false true (some .bf16) .sr 5 6 7) = true ∧
  reads [0x290616BC] (.scvt .s32 .f32 false 11 12) = true := by decide

theorem test_decode_special_2 :
  reads [0x04630ABD, 0x00000000, 0x00800000] (.scvtExtended .n8 .s16 true .rtz 5 6) = true := by decide

theorem test_decode_memory_1 :
  reads [0x004088C0] (.ld .w 4 { base := 1, off := .disp 0 }) = true ∧
  reads [0x004586C1, 0x00000000, 0x12000000] (.ldExtended .w 3 { base := 11, off := .disp 0 } 0 (some .die) false) = true ∧
  reads [0x006A8AC1, 0x00000040, 0x1A000000] (.ldExtended .d 5 { base := 21, off := .disp 0 } 64 (some .mod) false) = true ∧
  reads [0x87830AC1, 0x00000009, 0x40000000] (.ldExtended .b 5 { base := 6, off := .index 2 7 } 9 none true) = true ∧
  reads [0x3543A2C4] (.st .w { base := 7, off := .disp 53 } 17) = true ∧
  reads [0x01648CC4] (.st .d { base := 9, off := .disp 1 } 6) = true ∧
  reads [0x00230AC5, 0xFFFFFFFE, 0x22000000] (.stExtended .h { base := 6, off := .disp 0 } 5 (-2) (some .sys)) = true ∧
  reads [0x000C2EC8] (.ldf false 23 { base := 24, off := .disp 0 } none) = true ∧
  reads [0x00230AC9, 0x00000008, 0x00000000] (.ldf true 5 { base := 6, off := .disp 0 } (some 8)) = true ∧
  reads [0xFF030ACC] (.stf { base := 6, off := .disp (-1) } 5 none) = true ∧
  reads [0x47830ACD, 0x00000008, 0x00000000] (.stf { base := 6, off := .index 1 7 } 5 (some 8)) = true ∧
  reads [0x000700D8] (.watch { base := 14, off := .disp 0 }) = true := by decide

theorem test_decode_memory_2 :
  reads [0x080028DC] (.waitw .ne 20 0) = true ∧
  reads [0x500000E0] (.fence .rel .die) = true ∧
  reads [0x000026E4] (.bar 0 19) = true ∧
  reads [0x18000AE4] (.bar 3 5) = true ∧
  reads [0x508500D1, 0x00000000, 0x04000000] (.atom .fadd .w { acq := false, rel := false, scope := .core } 0 10 4 0 0) = true ∧
  reads [0x49EA8ED1, 0x00000000, 0x06000000] (.atom .umax .d { acq := false, rel := false, scope := .core } 7 21 15 0 0) = true ∧
  reads [0x08E30AD1, 0x00000010, 0x7E000008] (.atom .cas .d { acq := true, rel := true, scope := .mod } 5 6 7 8 16) = true ∧
  reads [0x10E30AD5, 0x00000020, 0x30290248] (.atomv (.add .bf16) { acq := false, rel := true, scope := .cl } 5 9 6 7 8 32) = true ∧
  reads [0x00E30AD5, 0x00000000, 0x00000248] (.atomv .swap { acq := false, rel := false, scope := .core } 5 9 6 7 8 0) = true := by decide

theorem test_decode_network_1 :
  reads [0x00030AE8] (.cntToken 5 6 none) = true ∧
  reads [0x08030AE8] (.cntAntiToken 5 6 none) = true ∧
  reads [0x11230EE8] (.cntToken 7 6 (some 9)) = true ∧
  reads [0x19230EE8] (.cntAntiToken 7 6 (some 9)) = true ∧
  reads [0x000AA8ED, 0x00000000, 0x00000016] (.recv false 20 21 0 22 0) = true ∧
  reads [0x08E30AED, 0x00000000, 0x00000008] (.recv true 5 6 7 8 0) = true ∧
  reads [0x08E30AFC] (.probe true 5 6 7) = true ∧
  reads [0x018510F1, 0x00000003, 0x0000000E] (.send false 8 10 12 14 3 0) = true ∧
  reads [0x08E30AF1, 0x0000002A, 0x00003008] (.send true 5 6 7 8 42 3) = true ∧
  reads [0x00000AF3, 0x0000002A, 0x00003008, 0x9ABCDEF0, 0x12345678] (.sendLiteral false 5 8 42 3 0x123456789ABCDEF0) = true ∧
  reads [0x08E30AF5, 0x00000000, 0x00003008] (.sendn .s 5 6 7 8 3) = true ∧
  reads [0x50E30AF9, 0x00000040, 0x00003008] (.halo 0b1010 5 6 7 8 64 3) = true := by decide

theorem test_decode_network_2 :
  reads [0x00039501, 0x0000000F, 0x040002C5] (.copyIn true 10 7 0 5 11 15 0) = true ∧
  reads [0x00E30B01, 0x00020003, 0x02003248] (.copyOut false 5 6 7 8 9 0x00020003 3) = true ∧
  reads [0x01859505, 0x00000004, 0x0028038D] (.gather false .f32 10 11 12 13 14 4 0) = true ∧
  reads [0x08E30B09, 0x0000000C, 0x00223248] (.scatter true .n16 5 6 7 8 9 12 3) = true ∧
  reads [0x00E30B0D, 0x00000000, 0x00003248] (.put 5 6 7 8 9 3) = true ∧
  reads [0x00030110] (.publish 6) = true ∧
  reads [0x00030BE4] (.shadow 5 6) = true ∧
  reads [0x00C39501, 0x00000000, 0x000002C0] (.copyIn false 10 7 6 0 11 0 0) = true ∧
  reads [0x000BAB01, 0x00000000, 0x02000640] (.copyOut false 21 23 0 0 25 0 0) = true := by decide

theorem test_decode_task_1 :
  reads [0x00E30B14] (.launch false 5 6 7) = true ∧
  reads [0x0A8E3F14] (.launch true 31 28 20) = true ∧
  reads [0x00030B18] (.task 5 6) = true ∧
  reads [0x03CA871C] (.join 3 21 30) = true ∧
  reads [0x00A00120] (.trap 5) = true ∧
  reads [0x0020013C] (.brk 1) = true ∧
  reads [0x00000124] (.eret) = true ∧
  reads [0x08000124] (.eretSkip) = true ∧
  reads [0x10028124] (.eretTo 5) = true ∧
  reads [0x00E00B28] (.live 5 7) = true ∧
  reads [0x00000B2A, 0x00000300, 0x80000000] (.liveLiteral 5 0x8000000000000300) = true ∧
  reads [0x00000B2C] (.yield 5) = true := by decide

theorem test_decode_task_2 :
  reads [0x08000B2C] (.yieldPoll 5) = true ∧
  reads [0x10C28130] (.valid .complete 5 6) = true ∧
  reads [0x20C28130] (.validOpen 5 6) = true ∧
  reads [0x08028131, 0x00000020, 0x00000000] (.validImmediate .partial_ 5 32) = true ∧
  reads [0x20028131, 0x00000020, 0x00000000] (.validOpenImmediate 5 32) = true ∧
  reads [0x00230B38] (.rtpinPin 5 6 1) = true ∧
  reads [0x08200138] (.rtpinRel 1) = true ∧
  reads [0x10000B38] (.rtpinHealth 5) = true ∧
  reads [0x18030B38] (.rtpinCur 5 6) = true ∧
  reads [0x10040F35, 0x00000000, 0x00000000] (.routeClose 7 8) = true ∧
  reads [0x00008535, 0x00000004, 0x00000000] (.routeDisp 2 1 1 0 { p := 0, z := false }) = true ∧
  reads [0x00008535, 0x00000004, 0x00003000] (.routeDisp 2 1 1 0 { p := 3, z := false }) = true := by decide

theorem test_decode_task_3 :
  reads [0x08008535, 0x0000001F, 0x0000B000] (.routeRedir 2 1 7 3 { p := 3, z := true }) = true ∧
  reads [0x18008535, 0x00000003, 0x0000B000] (.routeInfo 2 1 3 { p := 3, z := true }) = true := by decide

theorem test_decode_vector_1 :
  reads [0x0006AB41, 0x00000000, 0x00240000] (.vadd .plain { p := 0, z := false } 5 5 (.vec 3) (some { ty := some .n32, rm := .frm })) = true ∧
  reads [0x360ECB40] (.vadd .sat { p := 3, z := true } 5 6 (.vec 7) none) = true ∧
  reads [0x1600CB45, 0x00000000, 0x02EA0009] (.vsub .plain { p := 3, z := true } 5 6 (.xb 9) (some { ty := some .f16, rm := .rdn })) = true ∧
  reads [0x360ECB48] (.vmul .hi { p := 3, z := true } 5 6 (.vec 7) none) = true ∧
  reads [0x570ECB4C] (.vfma true false { p := 3, z := true } 5 6 (.vec 7) 8 none) = true ∧
  reads [0x760ECB50] (.vminmax .maxp { p := 3, z := true } 5 6 (.vec 7) none) = true ∧
  reads [0x40002F55, 0x00000000, 0x02000005] (.vcmp .lt { p := 0, z := false } 7 1 (.xb 5) (some { ty := none, rm := .frm })) = true ∧
  reads [0x170ECB58] (.vsel { p := 3, z := true } 5 6 7 8) = true ∧
  reads [0x3600CB5D, 0x00000003, 0x00200000] (.vcvt .sat { p := 3, z := true } 5 6 .s16 { ty := some .n8, rm := .frm }) = true ∧
  reads [0x560ECB60] (.vlog .xor { p := 3, z := true } 5 6 7) = true ∧
  reads [0x5600CB65, 0x00000007, 0x04000000] (.vshf .sar { p := 3, z := true } 5 6 (.imm 7) (some { ty := none, rm := .frm })) = true ∧
  reads [0xF600CB68] (.vsfu .tanh { p := 3, z := true } 5 6 none) = true := by decide

theorem test_decode_vector_2 :
  reads [0x6600CB6C] (.vred .csum { p := 3, z := false } 5 6 none) = true ∧
  reads [0x3600CB70] (.vscan .esum { p := 3, z := true } 5 6 none) = true ∧
  reads [0x160ECB74] (.vperm { p := 3, z := true } 5 6 7 none) = true ∧
  reads [0x2000CB74] (.vpermTr 5 6 none) = true ∧
  reads [0x00000B79, 0x00000000, 0x00240000] (.viota .col { p := 0, z := false } 5 0 (some { ty := some .n32, rm := .frm })) = true ∧
  reads [0x56000B78] (.viota .lin { p := 3, z := true } 5 0 none) = true ∧
  reads [0x9600CB7C] (.vmov .bcol { p := 3, z := true } 5 6 none) = true ∧
  reads [0x2000077D, 0x00000000, 0x00240006] (.vmovScalar { p := 0, z := false } 3 6 { ty := some .n32, rm := .frm }) = true ∧
  reads [0x56000B7F, 0x00000000, 0x00000000, 0x9ABCDEF0, 0x12345678] (.vmovLiteral { p := 3, z := true } 5 0x123456789ABCDEF0 { ty := none, rm := .frm }) = true ∧
  reads [0x01043F80] (.vshape 31 8 .f32) = true := by decide

theorem test_decode_tile_1 :
  reads [0x00050984] (.vld 4 { base := 10, off := .disp 0 } none) = true ∧
  reads [0x47830B85, 0x00000020, 0x0020B000] (.vld 5 { base := 6, off := .index 1 7 } (some { imm := 32, m := { p := 3, z := true }, ty := some .n8 })) = true ∧
  reads [0x00068D85, 0x00000000, 0x02000000] (.vldShaped 6 13 0 0 { imm := 0, m := { p := 0, z := false }, ty := none }) = true ∧
  reads [0x000A8D88] (.vst { base := 21, off := .disp 0 } 6 none) = true ∧
  reads [0x00038D89, 0x00000000, 0x00001000] (.vst { base := 7, off := .disp 0 } 6 (some { imm := 0, m := { p := 1, z := false }, ty := none })) = true ∧
  reads [0x00030B89, 0x00020003, 0x02283248] (.vstShaped 6 8 9 5 { imm := 0x00020003, m := { p := 3, z := false }, ty := some .f32 }) = true ∧
  reads [0x01230B8C] (.vldf true 5 { base := 6, off := .disp 1 } none) = true ∧
  reads [0x00E30B91, 0x00000000, 0x0023B000] (.vldx 5 6 7 { p := 3, z := true } (some .s16)) = true ∧
  reads [0x00E30B95, 0x00000000, 0x00003000] (.vstx 6 7 5 3 none) = true ∧
  reads [0x1600CB99, 0x00000011, 0x00290000] (.vpackUnpack { p := 3, z := true } 5 6 .mx6 { ty := some .bf16, rm := .frm }) = true ∧
  reads [0x360ECB99, 0x00000014, 0x01400000] (.vpackPack { p := 3, z := true } 5 6 7 .dx8 { ty := none, rm := .sr }) = true ∧
  reads [0x00878B9D, 0x00000000, 0x22000000] (.hsift 1 true 15 4 5 0 0) = true := by decide

theorem test_decode_tile_2 :
  reads [0x0107939D, 0x00000000, 0x02002010] (.hsift 1 false 15 8 9 16 2) = true ∧
  reads [0x370ECBA0] (.vdot .sat { p := 3, z := true } 5 6 7 8 none) = true ∧
  reads [0x3600CBA4] (.vbmax false { p := 3, z := true } 5 6 none) = true ∧
  reads [0x1600CBA9, 0x00000010, 0x00400000] (.vqnt { p := 3, z := true } 5 6 .mx4 { ty := none, rm := .rne }) = true ∧
  reads [0x4000E3AC] (.vmask .col0 1 7) = true ∧
  reads [0x60006BAC] (.vmaskExpand 5 3) = true ∧
  reads [0x170ECBB0] (.vclamp { p := 3, z := true } 5 6 7 8 none) = true ∧
  reads [0x1600CBB3, 0x00000000, 0x00280000, 0x9ABCDEF0, 0x12345678] (.vclampLiteral { p := 3, z := true } 5 6 0x123456789ABCDEF0 { ty := some .f32, rm := .frm }) = true ∧
  reads [0x1600CBB4] (.vrnd { p := 3, z := true } 5 6 none) = true ∧
  reads [0x00E30BB9, 0x00000000, 0x00210008] (.vext 5 6 7 8 (some .s8)) = true ∧
  reads [0x00E30BBD, 0x00000000, 0x00000008] (.vins 5 6 7 8 none) = true := by decide

theorem test_decode_matrix_1 :
  reads [0x000691C1, 0x00001C07, 0x00000000] (.mwld .own 13 0 0 7 7 0) = true ∧
  reads [0x00E305C1, 0x0003FFFF, 0x00003008] (.mwld (.q 2) 6 7 8 1023 255 3) = true ∧
  reads [0x108591C5, 0x00040000, 0x002A0004] (.mma false true .f16 .own 11 4 4 1 0) = true ∧
  reads [0x088591C5, 0x00040000, 0x002A0000] (.mma true false .f16 .own 11 4 0 1 0) = true ∧
  reads [0x02AA11CD, 0x00041C00, 0x002A0016] (.mdrain false .f16 .frm .own 20 21 22 7 1 0) = true ∧
  reads [0x000011D0] (.mzero .own 0) = true ∧
  reads [0x200001D4] (.mfuse 4 0) = true ∧
  reads [0x00E001D8] (.mmap 7) = true ∧
  reads [0x080001D8] (.mmapOwn) = true ∧
  reads [0x000001DA, 0x03020100, 0x07060504] (.mmapLiteral 0x0706050403020100) = true ∧
  reads [0x40E30BDD, 0x00000003, 0x00692248] (.mvb .f32 .bf16 .rne 5 6 7 8 9 3 2) = true ∧
  reads [0x00000BE0] (.mstatRd 5) = true := by decide

theorem test_decode_matrix_2 :
  reads [0x08000BE0] (.mstatDone 5) = true ∧
  reads [0x10000BE0] (.mstatCfg 5) = true ∧
  reads [0x18040BE0] (.mstatFlags 5 .own) = true ∧
  reads [0x20000BE0] (.mstatNbf 5) = true ∧
  reads [0x28000BE0] (.mstatErr 5) = true ∧
  reads [0xA8E30DC9, 0x0011FC3F, 0x00293248] (.mmg true false 5 .bf16 (.acc 1 2) 6 7 8 9 63 127 4 3) = true := by decide

theorem test_decode_isolation_1 :
  reads [0x00030BE8] (.leaseGet 5 6) = true ∧
  reads [0x08E30BE8] (.leaseCmd 5 6 7) = true ∧
  reads [0x100301E8] (.leaseRel 6) = true ∧
  reads [0x000301EC] (.tlbiVf 6) = true ∧
  reads [0x080301EC] (.tlbiCtx 6) = true ∧
  reads [0x10E301EC] (.tlbiVa 6 7) = true ∧
  reads [0x18E301EC] (.tlbiGpa 6 7) = true ∧
  reads [0x200001EC] (.tlbiAll) = true ∧
  reads [0x00E30BF0] (.dharv 5 6 7) = true ∧
  reads [0x00030BF8] (.sealQ 5 6) = true ∧
  reads [0x08030BF8] (.sealOn 5 6) = true ∧
  reads [0x10030BF8] (.sealOff 5 6) = true := by decide

theorem test_decode_isolation_2 :
  reads [0x00E30BFC] (.scrubMem 5 6 7) = true ∧
  reads [0x08030BFC] (.scrubSlice 5 6) = true ∧
  reads [0x00E30BF5, 0x00000000, 0x00000000] (.cfgPart 5 6 (.reg 7)) = true ∧
  reads [0x08000BF7, 0x00000000, 0x00000000, 0x9ABCDEF0, 0x12345678] (.cfgPdel 5 0 (.lit 0x123456789ABCDEF0)) = true ∧
  reads [0x10E30BF5, 0x00000000, 0x00000000] (.cfgCtx 5 6 (.reg 7)) = true ∧
  reads [0x18030BF7, 0x00000000, 0x00000000, 0x9ABCDEF0, 0x12345678] (.cfgQueue 5 6 (.lit 0x123456789ABCDEF0)) = true ∧
  reads [0x20E30BF5, 0x00000000, 0x00000000] (.cfgInst 5 6 (.reg 7)) = true ∧
  reads [0x28030BF7, 0x00000000, 0x00000000, 0x9ABCDEF0, 0x12345678] (.cfgRtab 5 6 (.lit 0x123456789ABCDEF0)) = true ∧
  reads [0x30E30BF5, 0x00000000, 0x00000000] (.cfgCls 5 6 (.reg 7)) = true ∧
  reads [0x38030BF7, 0x00000000, 0x00000000, 0x9ABCDEF0, 0x12345678] (.cfgMwt 5 6 (.lit 0x123456789ABCDEF0)) = true ∧
  reads [0x40E30BF5, 0x00000000, 0x00000000] (.cfgGw 5 6 (.reg 7)) = true ∧
  reads [0x48030BF7, 0x00000000, 0x00000000, 0x9ABCDEF0, 0x12345678] (.cfgTwin 5 6 (.lit 0x123456789ABCDEF0)) = true := by decide

theorem test_decode_isolation_3 :
  reads [0x50E30BF5, 0x00000000, 0x00000000] (.cfgRrep 5 6 (.reg 7)) = true := by decide

/-! Terms that are no instructions: for each check of `Instr.wf` a term that it refuses, and a term beside it that it admits. -/

/-- R73: the end of a loop lies at least 4 and 2 words on. R54: only writable registers. R133: one-operand forms. R136: types
and saturation. -/
theorem test_wf_scalar :
  Instr.wf (.loop 0 3 1) = false ∧ Instr.wf (.loop 0 4 1) = true ∧ Instr.wf (.loopr 0 1 1) = false ∧ Instr.wf (.loopr 0 1 2) = true ∧
  Instr.wf (.swr .core 1) = false ∧ Instr.wf (.swr .dom 1) = true ∧
  Instr.wf (.leaExtended 1 { base := 2, off := .disp 1 } 0) = false ∧ Instr.wf (.leaExtended 1 { base := 2, off := .index 0 1 } 0) = true ∧
  Instr.wf (.sfop .sqrt 1 2 3) = false ∧ Instr.wf (.sfop .sqrt 1 2 0) = true ∧
  Instr.wf (.sfopExtended .neg none .frm 1 2 3) = false ∧ Instr.wf (.sfopExtended .max none .frm 1 2 3) = true ∧
  Instr.wf (.scvt .mx8 .f32 false 1 2) = false ∧ Instr.wf (.scvt .f32 .dx8 false 1 2) = false ∧
  Instr.wf (.scvt .n8 .f32 true 1 2) = false ∧ Instr.wf (.scvt .n8 .s16 true 1 2) = true ∧
  Instr.wf (.scvtExtended .f32 .s32 true .rne 1 2) = false ∧ Instr.wf (.scvtExtended .f32 .s32 false .rne 1 2) = true := by decide

/-- R227, R229: the displacement in the extended length, and `.sx` of a doubleword. R227, R230, R231: sizes, scopes and types
of atomics. R240: the tag of `.anytag`. R247: element types only. -/
theorem test_wf_memory :
  Instr.wf (.ldExtended .w 1 { base := 2, off := .disp 1 } 0 none false) = false ∧
  Instr.wf (.ldExtended .d 1 { base := 2, off := .disp 0 } 0 none true) = false ∧
  Instr.wf (.ldExtended .w 1 { base := 2, off := .disp 0 } 0 none true) = true ∧
  Instr.wf (.stExtended .w { base := 2, off := .disp 1 } 1 0 none) = false ∧
  Instr.wf (.ldf true 1 { base := 2, off := .disp 1 } (some 0)) = false ∧ Instr.wf (.ldf true 1 { base := 2, off := .disp 1 } none) = true ∧
  Instr.wf (.stf { base := 2, off := .disp 1 } 1 (some 0)) = false ∧ Instr.wf (.stf { base := 2, off := .disp 1 } 1 none) = true ∧
  Instr.wf (.atom .add .w { acq := false, rel := false, scope := .mod } 1 2 3 0 0) = false ∧
  Instr.wf (.atom .fadd .d { acq := false, rel := false, scope := .core } 1 2 3 0 0) = false ∧
  Instr.wf (.atom .add .w { acq := false, rel := false, scope := .core } 1 2 3 4 0) = false ∧
  Instr.wf (.atom .cas .w { acq := true, rel := false, scope := .mod } 1 2 3 4 0) = true ∧
  Instr.wf (.atomv (.add .n8) { acq := false, rel := false, scope := .core } 1 2 3 4 5 0) = false ∧
  Instr.wf (.atomv .swap { acq := false, rel := false, scope := .sys } 1 2 3 4 5 0) = false ∧
  Instr.wf (.atomv (.min .bf16) { acq := false, rel := false, scope := .core } 1 2 3 4 5 0) = true ∧
  Instr.wf (.recv true 1 2 3 4 5) = false ∧ Instr.wf (.recv true 1 2 3 4 0) = true ∧
  Instr.wf (.gather false .mx4 1 2 3 4 5 0 0) = false ∧ Instr.wf (.scatter false .dx8 1 2 3 4 5 0 0) = false ∧
  Instr.wf (.gather false .d8 1 2 3 4 5 0 0) = true := by decide

/-- R143 to R149, R155: classes, lengths and immediate amounts. -/
theorem test_wf_elementwise :
  let m : VMask := { p := 0, z := false }
  let ty (t : Ty) : Option VX := some { ty := some t, rm := .frm }
  Instr.wf (.vadd .plain m 1 2 (.xb 3) none) = false ∧ Instr.wf (.vadd .plain m 1 2 (.xb 3) (ty .f32)) = true ∧
  Instr.wf (.vadd .sat m 1 2 (.vec 3) (ty .f32)) = false ∧ Instr.wf (.vsub .plain m 1 2 (.vec 3) (ty .e4m3)) = false ∧
  Instr.wf (.vsub .plain m 1 2 (.xb 3) none) = false ∧ Instr.wf (.vmul .hi m 1 2 (.vec 3) (ty .f16)) = false ∧
  Instr.wf (.vmul .plain m 1 2 (.xb 3) none) = false ∧ Instr.wf (.vfma false false m 1 2 (.vec 3) 4 (ty .d8)) = false ∧
  Instr.wf (.vfma false false m 1 2 (.xb 3) 4 none) = false ∧ Instr.wf (.vminmax .minp m 1 2 (.vec 3) (ty .n8)) = false ∧
  Instr.wf (.vminmax .min m 1 2 (.xb 3) none) = false ∧ Instr.wf (.vcmp .un m 1 2 (.vec 3) (ty .n8)) = false ∧
  Instr.wf (.vcmp .eq m 1 2 (.xb 3) none) = false ∧ Instr.wf (.vcmp .un m 1 2 (.vec 3) (ty .bf16)) = true ∧
  Instr.wf (.vcvt .plain m 1 2 .mx8 { ty := none, rm := .frm }) = false ∧
  Instr.wf (.vcvt .sat m 1 2 .f32 { ty := none, rm := .frm }) = false ∧
  Instr.wf (.vcvt .sat m 1 2 .n8 { ty := some .f32, rm := .frm }) = false ∧
  Instr.wf (.vcvt .plain m 1 2 .n8 { ty := some .d8, rm := .frm }) = true ∧
  Instr.wf (.vlog .not m 1 2 3) = false ∧ Instr.wf (.vlog .not m 1 2 0) = true ∧
  Instr.wf (.vshf .shl m 1 2 (.imm 64) (ty .n64)) = false ∧ Instr.wf (.vshf .shl m 1 2 (.imm 3) none) = false ∧
  Instr.wf (.vshf .shl m 1 2 (.xb 3) none) = false ∧ Instr.wf (.vshf .shl m 1 2 (.vec 3) (ty .f32)) = false ∧
  Instr.wf (.vshf .shl m 1 2 (.imm 63) (ty .n64)) = true ∧ Instr.wf (.vsfu .exp2 m 1 2 (ty .n8)) = false ∧
  Instr.wf (.vclamp m 1 2 3 4 (ty .d8)) = false ∧ Instr.wf (.vclampLiteral m 1 2 0 { ty := some .e5m2, rm := .frm }) = false ∧
  Instr.wf (.vrnd m 1 2 (ty .s32)) = false ∧ Instr.wf (.vrnd m 1 2 (ty .f16)) = true := by decide

/-- R150 to R153, R156 to R160, R163, R164: moves, records, reductions, scans and single elements. R46, R165 to R170: the shape
and tile accesses. R191 to R198: the types of the matrix unit. R348: `CFG.pdel` names no block. -/
theorem test_wf_tiles_and_matrix :
  let m : VMask := { p := 0, z := false }
  let z : VMask := { p := 0, z := true }
  let ty (t : Ty) : Option VX := some { ty := some t, rm := .frm }
  Instr.wf (.vred .csum z 1 2 none) = false ∧ Instr.wf (.vred .sum z 1 2 none) = true ∧ Instr.wf (.vred .sum m 1 2 (ty .d8)) = false ∧
  Instr.wf (.vscan .max m 1 2 (ty .d8)) = false ∧ Instr.wf (.vperm m 1 2 3 (ty .mx4)) = false ∧
  Instr.wf (.vpermTr 1 2 (ty .mx8)) = false ∧ Instr.wf (.viota .col m 1 5 none) = false ∧ Instr.wf (.viota .col m 1 0 (ty .f32)) = false ∧
  Instr.wf (.viota .col m 1 5 (ty .s8)) = true ∧ Instr.wf (.vmov .copy m 1 2 (ty .mx4)) = false ∧
  Instr.wf (.vmovScalar m 1 2 { ty := some .mx4, rm := .frm }) = false ∧ Instr.wf (.vmovLiteral m 1 2 { ty := some .dx8, rm := .frm }) = false ∧
  Instr.wf (.vshape 0 1 .mx6) = false ∧ Instr.wf (.vshape 0 1 .d8) = true ∧
  Instr.wf (.vld 1 { base := 2, off := .disp 0 } (some { imm := 0, m := z, ty := some .mx4 })) = false ∧
  Instr.wf (.vldShaped 1 2 3 4 { imm := 0, m := z, ty := some .mx4 }) = false ∧
  Instr.wf (.vst { base := 2, off := .disp 0 } 1 (some { imm := 0, m := z, ty := none })) = false ∧
  Instr.wf (.vstShaped 2 3 4 1 { imm := 0, m := z, ty := none }) = false ∧ Instr.wf (.vstShaped 2 3 4 1 { imm := 0, m := m, ty := none }) = true ∧
  Instr.wf (.vldf true 1 { base := 2, off := .disp 0 } (some { imm := 0, m := z, ty := some .dx8 })) = false ∧
  Instr.wf (.vldx 1 2 3 z (some .mx4)) = false ∧ Instr.wf (.vstx 2 3 1 0 (some .mx4)) = false ∧ Instr.wf (.vstx 2 3 1 0 (some .d8)) = true ∧
  Instr.wf (.vpackUnpack m 1 2 .f32 { ty := none, rm := .frm }) = false ∧
  Instr.wf (.vpackUnpack m 1 2 .mx4 { ty := some .n8, rm := .frm }) = false ∧
  Instr.wf (.vpackPack m 1 2 3 .n8 { ty := none, rm := .frm }) = false ∧ Instr.wf (.vqnt m 1 2 .d8 { ty := none, rm := .frm }) = false ∧
  Instr.wf (.vqnt m 1 2 .dx8 { ty := some .f16, rm := .frm }) = true ∧
  Instr.wf (.vdot .sat m 1 2 3 4 (ty .f32)) = false ∧ Instr.wf (.vdot .plain m 1 2 3 4 (ty .n64)) = false ∧
  Instr.wf (.vdot .plain m 1 2 3 4 (ty .d8)) = true ∧ Instr.wf (.vbmax true m 1 2 (ty .e4m3)) = false ∧
  Instr.wf (.vext 1 2 3 4 (some .mx4)) = false ∧ Instr.wf (.vins 1 2 3 4 (some .mx4)) = false ∧
  Instr.wf (.mma false false .f32 .own 1 2 3 0 0) = false ∧ Instr.wf (.mma false false .mx4 .own 1 2 3 0 0) = true ∧
  Instr.wf (.mmg false false 0 .n8 .own 1 2 3 4 0 0 0 0) = false ∧ Instr.wf (.mdrain false .mx8 .frm .own 1 2 3 0 0 0) = false ∧
  Instr.wf (.mvb .mx8 .bf16 .frm 1 2 3 4 5 0 0) = false ∧ Instr.wf (.mvb .f32 .f32 .frm 1 2 3 4 5 0 0) = false ∧
  Instr.wf (.mvb .f32 .dx8 .frm 1 2 3 4 5 0 0) = true ∧ Instr.wf (.cfgPdel 1 2 (.reg 3)) = false ∧ Instr.wf (.cfgPdel 1 0 (.reg 3)) = true := by
  decide

/-! Words that the scanner rejects, by reason code (R58): 1 length, 2 must be zero, 3 reserved, 4 special register, 5 beyond the
words given. -/

/-- The lowest reason code stands: a length that `ADDI` does not admit; `JR` with a nonzero `b`; `BC` mode 3; the special
register 0x00B, and a read-only one in `SWR`; a second word that is not there. -/
theorem test_decode_rejects :
  let code (ws : List Nat) : Nat := match decodeWords ws with | .error c => c | .ok _ => 0
  code [0x00000049] = 1 ∧ code [0x00200014] = 2 ∧ code [0x0000600C] = 3 ∧ code [0x016000A4] = 4 ∧ code [0x00A000A8] = 4 ∧
  code [0x00000011] = 5 ∧ code [] = 5 := by decide

/-! Scalar instructions: the worked problem of 06_scalar.md and its corner cases. -/

/-- R122, R124: the results of the worked problem at `out` + 0, + 8, + 16 and + 24; the old value stands one slot earlier. -/
theorem test_div_mulhi :
  let s := setX bare [(2, 0x8000000000000000), (3, -1), (4, 7), (5, 9)]
  (soon 12 (.div false 5 2 3) s).rx 5 = 0x8000000000000000 ∧ (soon 11 (.div false 5 2 3) s).rx 5 = 9 ∧
  (soon 12 (.rem false 6 2 3) s).rx 6 = 0 ∧ (soon 12 (.div true 7 4 0) s).rx 7 = -1 ∧
  (soon 3 (.mulhi .s 8 2 2) s).rx 8 = 0x4000000000000000 ∧ (soon 12 (.rem false 6 2 4) s).rx 6 = -1 ∧
  (soon 12 (.div false 6 3 4) s).rx 6 = 0 ∧ (soon 12 (.rem true 7 4 0) s).rx 7 = 7 ∧
  (soon 12 (.div false 5 2 3) s).fflags = 0 := by decide
/-- R122, R124: the literal forms, and `.u`, `.su`. -/
theorem test_div_mulhi_literal :
  let s := setX bare [(2, -7)]
  (soon 12 (.divLiteral false 5 2 2) s).rx 5 = -3 ∧ (soon 12 (.remLiteral false 5 2 2) s).rx 5 = -1 ∧
  (soon 12 (.divLiteral true 5 2 2) s).rx 5 = 0x7FFFFFFFFFFFFFFC ∧ (soon 3 (.mulhiLiteral .u 5 2 2) s).rx 5 = 1 ∧
  (soon 3 (.mulhiLiteral .su 5 2 2) s).rx 5 = -1 ∧ (soon 3 (.mulLiteral 5 2 3) s).rx 5 = -21 := by decide
/-- R123, R136: `ADD.sat` and `SCVT.s32.f32` of the worked problem with their flags 0x20 and 0x10; `out` + 32 and + 40. -/
theorem test_add_sat_scvt :
  let s := setX bare [(2, 0x8000000000000000), (3, -1), (12, 0x40200000)]
  (soon 1 (.add .sat 10 2 3) s).rx 10 = 0x8000000000000000 ∧ (soon 1 (.add .sat 10 2 3) s).fflags = 0x20 ∧
  (soon 4 (.scvt .s32 .f32 false 11 12) s).rx 11 = 2 ∧ (soon 4 (.scvt .s32 .f32 false 11 12) s).fflags = 0x10 ∧
  (soon 3 (.scvt .s32 .f32 false 11 12) s).fflags = 0 ∧ (soon 4 (.scvtExtended .s32 .f32 false .rup 11 12) s).rx 11 = 3 ∧
  (soon 1 (.add .wrap 10 2 2) s).rx 10 = 0 ∧ (soon 1 (.addLiteral .usat 10 3 1) s).rx 10 = -1 ∧
  (soon 1 (.addLiteral .usat 10 3 1) s).fflags = 0x20 := by decide
/-- R123: `SUB` in its three forms, `MAD`, `ADDI`; a source that is also the destination. -/
theorem test_sub_mad :
  let s := setX bare [(1, 5), (2, 7), (3, 100)]
  (soon 1 (.sub .usat 4 1 2) s).rx 4 = 0 ∧ (soon 1 (.sub .usat 4 1 2) s).fflags = 0x20 ∧ (soon 1 (.sub .wrap 1 1 2) s).rx 1 = -2 ∧
  (soon 1 (.subLiteral .sat 4 1 0x8000000000000000) s).rx 4 = 0x7FFFFFFFFFFFFFFF ∧ (soon 3 (.mad true 3 1 2) s).rx 3 = 65 ∧
  (soon 3 (.mad false 3 1 2) s).rx 3 = 135 ∧ (soon 1 (.addi 4 1 (-1)) s).rx 4 = 4 ∧ (soon 3 (.mul 4 1 2) s).rx 4 = 35 := by decide
/-- R122, R125: logic with its complement forms, minima and maxima by sign, loads of values, selection. -/
theorem test_logic :
  let s := setP (setX bare [(1, 0xF0), (2, 0xFF), (3, -1)]) [(2, 0xFFFFFFFF), (3, 0xFFFFFFFE)]
  (soon 1 (.and true 4 2 1) s).rx 4 = 0x0F ∧ (soon 1 (.andLiteral false 4 2 0xF0) s).rx 4 = 0xF0 ∧
  (soon 1 (.or true 4 1 2) s).rx 4 = 0xFFFFFFFFFFFFFFF0 ∧ (soon 1 (.orLiteral false 4 1 1) s).rx 4 = 0xF1 ∧
  (soon 1 (.xor true 4 1 2) s).rx 4 = 0xFFFFFFFFFFFFFFF0 ∧ (soon 1 (.xorLiteral false 4 1 0xFF) s).rx 4 = 0x0F ∧
  (soon 1 (.min false 4 1 3) s).rx 4 = -1 ∧ (soon 1 (.min true 4 1 3) s).rx 4 = 0xF0 ∧ (soon 1 (.minLiteral true 4 1 7) s).rx 4 = 7 ∧
  (soon 1 (.max false 4 1 3) s).rx 4 = 0xF0 ∧ (soon 1 (.max true 4 1 3) s).rx 4 = -1 ∧ (soon 1 (.maxLiteral false 4 3 0) s).rx 4 = 0 ∧
  (soon 1 (.li 4 (-7)) s).rx 4 = -7 ∧ (soon 1 (.liLiteral 4 0x8000000000000000) s).rx 4 = loc ∧
  (soon 1 (.sel 4 1 2 2) s).rx 4 = 0xF0 ∧ (soon 1 (.sel 4 1 2 3) s).rx 4 = 0xFF := by decide
/-- R122, R126: shifts take the amount modulo 64; fields beyond bit 63; insertion; counts, of zero too. -/
theorem test_fields :
  let s := setX bare [(1, 0x8000000000000001), (2, 65), (3, 0xF0), (4, -1)]
  (soon 1 (.shl 5 1 (.reg 2)) s).rx 5 = 2 ∧ (soon 1 (.shr 5 1 (.imm 63)) s).rx 5 = 1 ∧ (soon 1 (.sar 5 1 (.imm 63)) s).rx 5 = -1 ∧
  (soon 1 (.bfx 5 3 4 3) s).rx 5 = 0xF ∧ (soon 1 (.bfxExtended true 5 3 4 3) s).rx 5 = -1 ∧ (soon 1 (.bfxExtended false 5 1 63 63) s).rx 5 = 1 ∧
  (soon 1 (.bfi 4 3 8 7) s).rx 4 = 0xFFFFFFFFFFFFF0FF ∧ (soon 1 (.bfiExtended 3 4 60 63) s).rx 3 = 0xF0000000000000F0 ∧
  (soon 1 (.clz .lz 5 0) s).rx 5 = 64 ∧ (soon 1 (.clz .lzw 5 3) s).rx 5 = 24 ∧ (soon 1 (.clz .tz 5 3) s).rx 5 = 4 ∧
  (soon 1 (.clz .tzw 5 0) s).rx 5 = 32 ∧ (soon 1 (.popc false 5 4) s).rx 5 = 64 ∧ (soon 1 (.popc true 5 4) s).rx 5 = 32 := by decide
/-- R127, R129: compares write all 32 bits, `CMPI` extends its immediate before an unsigned compare, NaN compares; predicate
logic by truth table with the first source as the higher bit. -/
theorem test_predicates :
  let s := setP (setX bare [(1, 5), (2, 0x7FC00000), (3, 0x80000000)]) [(1, 0b1100), (2, 0b1010)]
  (soon 1 (.cmpi .ltu 3 1 (-1)) s).rp 3 = 0xFFFFFFFF ∧ (soon 1 (.cmpi .lt 3 1 (-1)) s).rp 3 = 0 ∧
  (soon 1 (.cmp (.int .eq) 3 1 1) s).rp 3 = 0xFFFFFFFF ∧ (soon 1 (.cmp (.flt .fun_) 3 1 2) s).rp 3 = 0xFFFFFFFF ∧
  (soon 1 (.cmp (.flt .feq) 3 0 3) s).rp 3 = 0xFFFFFFFF ∧ (soon 1 (.cmpLiteral (.int .ge) 3 1 6) s).rp 3 = 0 ∧
  (soon 1 (.plog 0b1000 3 1 2) s).rp 3 = 0b1000 ∧ (soon 1 (.plog 0b0100 3 1 2) s).rp 3 = 0b0100 ∧
  (soon 1 (.plogFromx 3 3) s).rp 3 = 0x80000000 ∧ (soon 1 (.plogTox 4 1) s).rx 4 = 0b1100 := by decide
/-- R54, R55, R130 to R132: `%chain` of a chain of one core, `%vs`, a refused `%vs`, addresses, time. -/
theorem test_special :
  let s := setX bare [(1, 0x0000000800080020), (2, 0x0000000800080021), (3, 100), (4, 3)]
  (soon 1 (.srd 5 .chain) s).rx 5 = 0 ∧ (soon 1 (.srd 5 .vs) s).rx 5 = 0x0000000800080020 ∧ (ran (.swr .vs 1) s).core.pc = 0x1004 ∧
  (ran (.swr .vs 2) s).core.role = .idle ∧ (ran (.swr .fflags 1) s).core.fflags = 0x20 ∧ (ran (.swr .frm 4) s).core.frm = 3 ∧
  (soon 1 (.lea 5 { base := 3, off := .index 3 4 }) s).rx 5 = 124 ∧ (soon 1 (.lea 5 { base := 3, off := .disp (-1) }) s).rx 5 = 99 ∧
  (soon 1 (.leaExtended 5 { base := 3, off := .index 0 4 } (-4)) s).rx 5 = 99 ∧ (soon 1 (.time 5) s).rx 5 = 0 ∧
  (soon 1 (.timeFx 5) { s with time := { s.time with dt := 3 * 2 ^ 16 + 5 } }).rx 5 = 0x30005 := by decide
/-- R97, R133, R135: 1 + 2, a NaN operand of a minimum, the root of a negative number, faithful powers, the class of -0, and a
fused product whose rounding differs from two roundings: 0x3F800001 squared less 0x3F800002. -/
theorem test_scalar_float :
  let s := setX bare [(1, 0x3F800000), (2, 0x40000000), (3, 0x7FC00001), (4, 0xBF800000), (5, 0x80000000), (6, 0x3F800001), (7, 0x3F800002)]
  (soon 4 (.sfop .add 9 1 2) s).rx 9 = 0x40400000 ∧ (soon 4 (.sfop .sub 9 1 2) s).rx 9 = 0xBF800000 ∧
  (soon 4 (.sfop .min 9 3 2) s).rx 9 = 0x40000000 ∧ (soon 4 (.sfop .sqrt 9 4 0) s).rx 9 = 0x7FC00000 ∧
  (soon 4 (.sfop .sqrt 9 4 0) s).fflags.getLsbD 0 = true ∧ (soon 4 (.sfop .exp2 9 2 0) s).rx 9 = 0x40800000 ∧
  (soon 4 (.sfop .log2 9 2 0) s).rx 9 = 0x3F800000 ∧ (soon 4 (.sfop .cls 9 5 0) s).rx 9 = 8 ∧ (soon 4 (.sfop .neg 9 1 0) s).rx 9 = 0xBF800000 ∧
  (soon 4 (.sfopExtended .rcp (some .f16) .rtz 9 2 0) (setX s [(2, 0x4200)])).rx 9 = 0x3555 := by decide +kernel
/-- R135: the product of 1 + 2^-23 with itself less 1 + 2^-22 is exactly 2^-46. -/
theorem test_sfma :
  let s := setX bare [(6, 0x3F800001), (7, 0x3F800002)]
  (soon 4 (.sfma false true 7 6 6) s).rx 7 = 0x28800000 ∧ (soon 4 (.sfmaExtended true false none .frm 7 6 6) s).rx 7 = 0xA8800000 := by
  decide +kernel

/-! Number formats: the worked values of 05_numbers.md. -/

/-- R105: 0.3 (0x3E99999A) is 0x3A with inexact, 250 is 0x7F with overflow, inexact and saturation. R104: the table entries of
0x3A, 0x7F and 0x80 (as bf16, by conversion). R115: bf16 saturation of an integer. -/
theorem test_d8_conversions :
  let s := setX bare [(1, 0x3E99999A), (2, 0x437A0000), (3, 0x3A), (4, 0x7F), (5, 0x80)]
  (soon 4 (.scvt .d8 .f32 false 9 1) s).rx 9 = 0x3A ∧ (soon 4 (.scvt .d8 .f32 false 9 1) s).fflags = 0x10 ∧
  (soon 4 (.scvt .d8 .f32 false 9 2) s).rx 9 = 0x7F ∧ (soon 4 (.scvt .d8 .f32 false 9 2) s).fflags = 0x34 ∧
  (soon 4 (.scvt .bf16 .d8 false 9 3) s).rx 9 = 0x3EA6 ∧ (soon 4 (.scvt .bf16 .d8 false 9 4) s).rx 9 = 0x42C2 ∧
  (soon 4 (.scvt .bf16 .d8 false 9 5) s).rx 9 = 0x7FC0 ∧ (soon 4 (.scvt .s8 .n16 true 9 2) (setX s [(2, 200)])).rx 9 = 127 := by
  decide +kernel
/-- R99: the scale byte 0x7F is one, 0 is 2^-127, 255 is NaN. R103: byte 0x55 is 6.90625. -/
theorem test_scales :
  recFactor .mx8 0x7F = some (1, 1) ∧ recFactor .mx4 255 = none ∧ recFactor .mx6 0 = some (1, 2 ^ 127) := by decide +kernel

/-! Control (04_stream.md). -/

/-- R70, R72: a taken branch passes two empty slots, a follower goes on, `BC.all` looks at the rows of `%vs`, `CALL` links. -/
theorem test_branches :
  let s := setP (setX (setVs bare 2 8 8) [(1, 0x2000), (2, -1), (3, 1)]) [(1, 0b11), (2, 0b01)]
  (ran (.br 3) s).core.pc = 0x100C ∧ (ran (.br (-1)) s).core.gap = 2 ∧ (ran (.brAbsolute 0x4000) s).core.pc = 0x4000 ∧
  (ran (.bc .all 1 4) s).core.pc = 0x1010 ∧ (ran (.bc .all 2 4) s).core.pc = 0x1004 ∧ (ran (.bc .none 2 4) s).core.pc = 0x1004 ∧
  (ran (.bc .any 2 4) s).core.pc = 0x1010 ∧ (ran (.bcmp .lt 2 3 (-4)) s).core.pc = 0xFF0 ∧ (ran (.bcmp .ltu 2 3 (-4)) s).core.pc = 0x1004 ∧
  (ran (.jr 1) s).core.pc = 0x2000 ∧ (ran (.ret 1) s).core.pc = 0x2000 ∧ (ran (.call 8) s).core.pc = 0x1020 ∧
  (ran (.call 8) s).core.rx 63 = 0x1004 ∧ (ran (.callAbsolute 0x8000) s).core.pc = 0x8000 := by decide +kernel
/-- A core inside a loop from 0x0FF0 to 0x1004 with two passes to go. -/
def looping : State := bare.upd fun c =>
  { c with loops := c.loops.set 0 { cnt := 2, active := true, start := 0xFF0, stop := 0x1004, depth := 0 } }
/-- R74, R75: the back edge repeats the body without a slot and the last pass leaves; `LBRK` ends the level. R36, R73: an active
level is refused. -/
theorem test_loops :
  let last := bare.upd fun c => { c with loops := c.loops.set 0 { cnt := 1, active := true, start := 0xFF0, stop := 0x1004, depth := 0 } }
  (ran .loopBackEdge looping).core.pc = 0xFF0 ∧ (ran .loopBackEdge looping).core.loops[0].cnt = 1 ∧
  (ran .loopBackEdge last).core.loops[0].active = false ∧ (ran (.lbrk 0 .any 0) looping).core.pc = 0x1004 ∧
  (ran (.lbrk 0 .any 0) looping).core.loops[0].active = false ∧ (ran (.lbrk 1 .any 0) looping).core.role = .idle ∧
  (ran (.loop 0 8 1) looping).core.role = .idle ∧ (ran (.loopr 0 0 8) looping).core.role = .idle := by decide +kernel
/-- R63, R67, R46: the phases, and a wait for a pending result; `NOP #3` stays three slots. -/
theorem test_phases :
  let busy := bare.upd fun c => c.pendX 3 5 1
  (ran .phaseC bare).core.phase = .compute ∧ (ran .phaseC busy).core.phase = .exchange ∧ (ran .phaseC busy).core.waiting = true ∧
  (ran .phaseX comp).core.phase = .exchange ∧ (ran (.nop 0) bare).core.pc = 0x1004 ∧ (ran (.nop 2) bare).core.nopLeft = 2 ∧
  (ran (.nop 2) bare).core.pc = 0x1000 := by decide +kernel
/-- R82, R85, R88, R89: an `XFER` of a chain of one core sends nothing; `CHAIN.leave` of a single core; `DONE` and `EXIT` end
the core's part, in an exchange phase alone. -/
theorem test_chain_of_one :
  (ran (.xferVector .e 1 2) bare).core.pc = 0x1004 ∧ (ran (.xferScalar .w 1 2) bare).core.pc = 0x1004 ∧
  (ran .chainLeave bare).core.pc = 0x1004 ∧ (ran (.chainForm 0 0) bare).core.slot = 0 ∧ (ran .done bare).core.role = .idle ∧
  (ran (.exit 0) bare).core.role = .idle ∧ (ran .xferArrival bare).core.pc = 0x1000 := by decide +kernel
/-- Core 0 and its eastern neighbour 1, in a chain of one row and two columns that core 0 leads. -/
def pair : State :=
  let c := { own with chain := { leader := 0, rows := 1, cols := 2, r := 0, c := 0, number := 0 } }
  { bare with core := c, others := [(1, { c with id := 1, chain := { c.chain with c := 1 } })] }
/-- R82, R83: a value sent east lands at the neighbour's next slot. -/
theorem test_xfer :
  ((ran (.xferScalar .e 3 2) (setX pair [(2, 7)])).coreAt 1).pend.length = 1 ∧
  ((ran (.xferVector .e 3 2) pair).coreAt 1).pend.length = 1 ∧ (ran (.xferScalar .w 3 2) pair).others.length = 1 := by decide +kernel

/-! Memory (11_memory_isa.md). -/

/-- R228: loads from the own share extend as they say and are readable 4 slots on; a misaligned one traps; a store is in place 4
slots on. -/
theorem test_share_accesses :
  let s := setX (setShare bare 16 [0x80, 0xFF, 0x01, 0x00, 0xEF, 0xBE, 0xAD, 0xDE]) [(1, loc), (2, loc + 16), (3, 0x1122334455667788)]
  (soon 4 (.ld .b 5 { base := 2, off := .disp 0 }) s).rx 5 = 0x80 ∧ (soon 4 (.ld .w 5 { base := 1, off := .disp 5 }) s).rx 5 = 0xDEADBEEF ∧
  (soon 4 (.ldExtended .w 5 { base := 1, off := .disp 0 } 20 none true) s).rx 5 = 0xFFFFFFFFDEADBEEF ∧
  (soon 3 (.ld .b 5 { base := 2, off := .disp 0 }) s).rx 5 = 0 ∧ (ran (.ld .h 5 { base := 2, off := .index 0 0 }) (setX s [(2, loc + 17)])).core.role = .idle ∧
  (soon 4 (.st .h { base := 1, off := .disp 1 } 3) s).shareRead 0 6 = [0, 0, 0x88, 0x77, 0, 0] ∧
  (soon 3 (.st .h { base := 1, off := .disp 1 } 3) s).shareRead 0 6 = [0, 0, 0, 0, 0, 0] ∧
  (soon 4 (.stExtended .d { base := 1, off := .disp 0 } 3 8 none) s).shareNat 8 8 = 0x1122334455667788 := by decide +kernel
/-- R229: `LDF.take` empties its granule, `.keep` does not, an empty granule makes it wait; `STF` fills 4 slots on. -/
theorem test_full_bits :
  let s := setX (setShare bare 32 [42]) [(1, loc + 32)]
  let f := s.upd fun c => { c with full := [2] }
  (soon 1 (.ldf false 5 { base := 1, off := .disp 0 } none) f).rx 5 = 42 ∧ (ran (.ldf false 5 { base := 1, off := .disp 0 } none) f).core.full = [] ∧
  (ran (.ldf true 5 { base := 1, off := .disp 0 } none) f).core.full = [2] ∧ (ran (.ldf false 5 { base := 1, off := .disp 0 } none) s).core.waiting = true ∧
  (soon 4 (.stf { base := 1, off := .disp 1 } 1 none) s).full = [2] ∧ (soon 3 (.stf { base := 1, off := .disp 1 } 1 none) s).full = [] := by decide +kernel
/-- R90, R91: a watch sees the value when it is armed; `WAITW.chg` waits until it changes. -/
theorem test_watch :
  let s := setX (setShare bare 32 [42]) [(1, loc + 32), (2, 42)]
  let w := ran (.watch { base := 1, off := .disp 0 }) s
  w.core.watch.seen = 42 ∧ w.core.watch.armed = true ∧ (soon 1 (.waitw .eq 5 2) w).rx 5 = 42 ∧ (ran (.waitw .chg 5 2) w).core.waiting = true ∧
  (soon 1 (.waitw .chg 5 2) (setShare w 32 [43])).rx 5 = 43 ∧ (ran (.waitw .ne 5 2) s).core.role = .idle := by decide +kernel
/-- A die's bank store, mapped at global address 0x10000 by an entry of the core's TLB (R331). -/
def banked : State := bare.upd fun c =>
  { c with tlb := [{ ctx := 0, vpage := 0x10000, gpa := 2 ^ 54, hpa := 2 ^ 54, size := 32768, bits := 7, set := 0, vsize := 32768, gsize := 32768 }] }
/-- R208, R228, R230, R231: a store and a load of bank store, with the load's value returning; atomics on bank store leave the
new value and return the old one. -/
theorem test_bank_accesses :
  let s := setX { banked with mem := banked.mem.write (2 ^ 54) [5, 0, 0, 0, 0xFF, 0xFF, 0xFF, 0xFF] } [(1, 0x10000), (2, 3), (3, 5)]
  (ran (.st .w { base := 1, off := .disp 0 } 2) s).mem.byte (2 ^ 54) = 3 ∧
  (ran .memoryLoadReturn (ran (.ld .d 5 { base := 1, off := .disp 0 }) s)).core.rx 5 = 0xFFFFFFFF00000005 ∧
  (ran (.atom .add .w { acq := false, rel := false, scope := .core } 5 1 2 0 0) s).mem.byte (2 ^ 54) = 8 ∧
  (ran (.atom .cas .w { acq := false, rel := false, scope := .core } 5 1 3 2 0) s).mem.byte (2 ^ 54) = 3 ∧
  (ran .memoryLoadReturn (ran (.atom .smax .w { acq := false, rel := false, scope := .core } 5 1 2 0 4) s)).core.rx 5 = 0xFFFFFFFF ∧
  (ran (.atom .smax .w { acq := false, rel := false, scope := .core } 5 1 2 0 4) s).mem.byte (2 ^ 54 + 4) = 3 ∧
  (ran (.atomv (.add .n32) { acq := false, rel := false, scope := .core } 5 6 1 2 3 0) s).mem.byte (2 ^ 54) = 8 ∧
  (ran (.bankUnitAtomicStep .umax .w ⟨0, 2 ^ 54, 2 ^ 54⟩ 9 0) s).mem.byte (2 ^ 54) = 9 := by decide +kernel
/-- R220: an atomic on an own-share address takes an address fault. R66: a bank access in a compute phase is a phase trap; with no
handler either ends the task. -/
theorem test_access_traps :
  (ran (.atom .add .w { acq := false, rel := false, scope := .core } 5 1 2 0 0) (setX bare [(1, loc)])).core.role = .idle ∧
  (ran (.ld .w 5 { base := 1, off := .disp 0 }) (setX (banked.upd fun c => { c with phase := .compute }) [(1, 0x10000)])).core.role = .idle := by
  decide +kernel
/-- R207, R232: a store that the network holds is performed by a fence, and by its own step. R233: outside a launch a barrier is
the core alone. -/
theorem test_fences :
  let h : NetStore := { core := 0, hpa := 2 ^ 54, gpa := 2 ^ 54, part := 0, data := [7], kind := 1, rel := none }
  let s := { bare with stores := [h] }
  (ran (.fence .rel .sys) s).stores = [] ∧ (ran (.fence .rel .sys) s).mem.byte (2 ^ 54) = 7 ∧ (ran (.fence .rel .die) s).stores = [{ h with lvl := 2 }] ∧ (ran (.fence .acq .die) s).stores = [h] ∧
  (ran (.memoryStorePerform ⟨0, .sys⟩) s).mem.byte (2 ^ 54) = 7 ∧ (soon 1 (.bar 0 5) (setX s [(5, 9)])).rx 5 = 0 := by decide +kernel

/-! Counting networks: the four operations of 12_geyser.md on a width-4 bitonic instance. -/

/-- A new width-4 instance of partition 0, number 0, whose handle is 0 (R258, R259). -/
def fresh4 : Net :=
  { lw := 2, per := false, void := false, home := 0, slg := 0, clg := 0, base := 0, part := 0, togg := List.replicate 6 false
    exits := [0, 1, 2, 3], ops := [], lost := false, dying := false, ctx := 0 }
/-- The machine with it, wires 0, 1, 2 in `x10` to `x12`. -/
def counting : State := setX { bare with nets := [(.part 0 0, fresh4)] } [(10, 0), (11, 1), (12, 2)]
/-- Steps 1 to 4 of the table: the values 0, 1, 1, 1, and the counters at the end. -/
theorem test_counting :
  let s1 := ran (.cntToken 5 6 (some 10)) counting
  let s2 := ran (.cntToken 5 6 (some 11)) s1
  let s3 := ran (.cntAntiToken 5 6 (some 10)) s2
  let s4 := ran (.cntToken 5 6 (some 12)) s3
  s1.core.rx 5 = 0 ∧ s2.core.rx 5 = 1 ∧ s3.core.rx 5 = 1 ∧ s4.core.rx 5 = 1 ∧
  (s4.net (.part 0 0)).map (fun n => n.exits) = some [4, 5, 2, 3] ∧ (ran (.cntToken 5 10 none) (setX counting [(10, 512)])).core.role = .idle := by
  decide +kernel
/-- R253, R254, R264: one operation taken step by step: the first balancer turns, the exit hands out its counter. R269: its
compensation once its issuer is dead. -/
theorem test_counting_steps :
  let o : CntOp := { core := 0, ctx := 0, anti := false, wire := 0, pos := .wire 0, value := none, dead := false }
  let s := { bare with nets := [(.part 0 0, { fresh4 with ops := [o] })] }
  let e := { bare with nets := [(.part 0 0, { fresh4 with ops := [{ o with pos := .out 4 false }] })] }
  let k := { bare with nets := [(.part 0 0, { fresh4 with ops := [{ o with dead := true, value := some 3 }] })] }
  ((ran (.balancerStep (.part 0 0) 0) s).net (.part 0 0)).map (fun n => n.togg) = some [true, false, false, false, false, false] ∧
  ((ran (.exitStep (.part 0 0) 0) e).net (.part 0 0)).map (fun n => (n.exits, n.ops.map (·.value))) = some ([4, 1, 2, 3], [some 0]) ∧
  ((ran (.killCompensation (.part 0 0) 0) k).net (.part 0 0)).map (fun n => n.ops.map (·.anti)) = some [true] := by decide +kernel

/-! The vector unit (07_vector.md). -/

/-- A tile that holds the bytes given from byte 0 on. -/
def tile (bs : List Nat) : Tile := BitVec.ofNat 8192 (bs.foldr (fun b n => b + 256 * n) 0)
/-- A tile of halves. -/
def halves (l : List Nat) : Tile := BitVec.ofNat 8192 (l.foldr (fun b n => b + 65536 * n) 0)
/-- A tile of words. -/
def quads (l : List Nat) : Tile := BitVec.ofNat 8192 (l.foldr (fun b n => b + 2 ^ 32 * n) 0)
/-- All rows, masked-off rows kept. -/
def allRows : VMask := { p := 0, z := false }
/-- The rows of `p1`, masked-off rows zeroed. -/
def someRows : VMask := { p := 1, z := true }

/-- R163, R164: the worked problem of 07_vector.md: 256, 1, 1, 1, 1, 0, 0, 1 in bf16 sum to 260 by the tree and to 256 in
sequence, with inexact; the result stands 8 slots on and not before. -/
theorem test_vred_vscan :
  let s := setV (setVs bare 1 8 9) [(1, halves [0x4380, 0x3F80, 0x3F80, 0x3F80, 0x3F80, 0, 0, 0x3F80])]
  let r := soon 8 (.vred .sum allRows 2 1 none) s
  let c := soon 8 (.vscan .sum allRows 3 1 none) s
  r.rv 2 = halves [0x4382] ∧ r.fflags = 0x10 ∧ c.rv 3 = halves (List.replicate 8 0x4380) ∧ c.fflags = 0x10 ∧
  (soon 7 (.vred .sum allRows 2 1 none) s).rv 2 = 0 ∧ (soon 8 (.vred .max allRows 2 1 none) s).rv 2 = halves [0x4380] ∧
  (soon 8 (.vscan .esum allRows 3 1 none) s).rv 3 = halves [0, 0x4380, 0x4380, 0x4380, 0x4380, 0x4380, 0x4380, 0x4380] := by decide +kernel
/-- R163, R164: the column forms over two rows of bytes; a masked-off row counts for nothing. -/
theorem test_columns :
  let s := setP (setV (setVs bare 3 2 0) [(1, tile [1, 2, 3, 4, 250, 251])]) [(1, 0b101)]
  (soon 8 (.vred .csum allRows 2 1 none) s).rv 2 = tile [254, 1] ∧ (soon 8 (.vred .csum { p := 1, z := false } 2 1 none) s).rv 2 = tile [251, 253] ∧
  (soon 8 (.vscan .csum allRows 2 1 none) s).rv 2 = tile [1, 2, 4, 6, 254, 1] ∧
  (soon 8 (.vscan .cesum allRows 2 1 none) s).rv 2 = tile [0, 0, 1, 2, 4, 6] := by decide +kernel
/-- R141, R146 to R149: wrapping and saturating sums, products, the mask with zeroing, the broadcast scalar, compares. -/
theorem test_elementwise :
  let s := setX (setP (setV (setVs bare 2 2 1) [(1, tile [127, 0x80, 3, 4]), (2, tile [1, 0xFF, 5, 6]), (3, tile [9, 9, 9, 9])]) [(1, 0b01)]) [(5, 0x1FF)]
  (soon 3 (.vadd .plain allRows 3 1 (.vec 2) none) s).rv 3 = tile [0x80, 0x7F, 8, 10] ∧
  (soon 3 (.vadd .sat allRows 3 1 (.vec 2) none) s).rv 3 = tile [0x7F, 0x80, 8, 10] ∧ (soon 3 (.vadd .sat allRows 3 1 (.vec 2) none) s).fflags = 0x20 ∧
  (soon 3 (.vsub .plain someRows 3 1 (.xb 5) (some { ty := none, rm := .frm })) s).rv 3 = tile [0x80, 0x81, 0, 0] ∧
  (soon 5 (.vmul .hi allRows 3 1 (.vec 2) none) s).rv 3 = tile [0, 0, 0, 0] ∧
  (soon 5 (.vfma true false allRows 3 1 (.vec 2) 3 none) s).rv 3 = tile [0x8A, 0x89, 0xFA, 0xF1] ∧
  (soon 3 (.vminmax .max allRows 3 1 (.vec 2) none) s).rv 3 = tile [127, 0xFF, 5, 6] ∧
  (soon 3 (.vcmp .lt allRows 3 1 (.vec 2) none) s).rv 3 = tile [0, 0xFF, 0xFF, 0xFF] ∧
  (soon 3 (.vsel allRows 3 1 2 3) s).rv 3 = tile [127, 0x80, 3, 4] ∧ (soon 3 (.vlog .andn allRows 3 1 2) s).rv 3 = tile [126, 0, 2, 0] := by decide +kernel
/-- R148, R149, R155, R161: shifts by element, a clamp whose bounds cross, a conversion, a root, rounding to integral. -/
theorem test_elementwise_more :
  let s := setV (setVs bare 1 2 8) [(1, quads [0x40200000, 0x40800000]), (2, quads [0x40000000, 0x40000000]), (3, quads [0x3F800000, 0x3F800000])]
  let i := setV (setVs bare 1 2 1) [(1, tile [0x81, 7]), (2, tile [9, 1])]
  (soon 3 (.vshf .sar allRows 3 1 (.vec 2) none) i).rv 3 = tile [0xC0, 3] ∧ (soon 3 (.vclamp allRows 4 1 2 3 none) s).rv 4 = quads [0x3F800000, 0x3F800000] ∧
  (soon 3 (.vclampLiteral allRows 4 1 0x4080000040400000 { ty := none, rm := .frm }) s).rv 4 = quads [0x40400000, 0x40800000] ∧
  (soon 6 (.vcvt .plain allRows 4 1 .f32 { ty := some .s32, rm := .frm }) s).rv 4 = quads [2, 4] ∧
  (soon 10 (.vsfu .sqrt allRows 4 1 none) (setV s [(1, quads [0x40800000, 0x3F800000])])).rv 4 = quads [0x40000000, 0x3F800000] ∧
  (soon 6 (.vrnd allRows 4 1 none) s).rv 4 = quads [0x40000000, 0x40800000] ∧ (soon 6 (.vrnd allRows 4 1 none) s).fflags = 0x10 := by decide +kernel
/-- R147, R150 to R153: moves, permutation with an index beyond the columns, transpose, indices, masks, single elements. -/
theorem test_moves :
  let s := setP (setX (setV (setVs bare 2 3 0) [(1, tile [1, 2, 3, 4, 5, 6]), (2, tile [2, 9, 0, 1, 1, 1])]) [(5, 2), (6, 1), (7, 0xAB)]) [(2, 0b10)]
  (soon 3 (.vmov .brow allRows 3 1 none) s).rv 3 = tile [1, 2, 3, 1, 2, 3] ∧ (soon 3 (.vmov .bcol allRows 3 1 none) s).rv 3 = tile [1, 1, 1, 4, 4, 4] ∧
  (soon 6 (.vperm allRows 3 1 2 none) s).rv 3 = tile [3, 0, 1, 5, 5, 5] ∧ (soon 6 (.vpermTr 3 1 none) s).rv 3 = tile [1, 4, 2, 5, 3, 6] ∧
  (soon 3 (.viota .lin allRows 3 0 none) s).rv 3 = tile [0, 1, 2, 3, 4, 5] ∧ (soon 3 (.viota .row allRows 3 255 none) s).rv 3 = tile [255, 255, 255, 0, 0, 0] ∧
  (soon 3 (.vmovScalar allRows 3 7 { ty := none, rm := .frm }) s).rv 3 = tile [0xAB, 0xAB, 0xAB, 0xAB, 0xAB, 0xAB] ∧
  (soon 3 (.vmovLiteral someRows 3 0x1CD { ty := none, rm := .frm }) s).rv 3 = 0 ∧ (soon 3 (.vmask .all 3 1) s).rp 3 = 0b11 ∧
  (soon 3 (.vmaskExpand 3 2) s).rv 3 = tile [0, 0, 0, 255, 255, 255] ∧ (soon 3 (.vext 9 1 5 6 none) s).rx 9 = 6 ∧
  (soon 3 (.vins 1 7 5 6 none) s).rv 1 = tile [1, 2, 3, 4, 5, 0xAB] ∧ (ran (.vext 9 1 7 6 none) s).core.role = .idle ∧
  (ran (.vshape 31 8 .f32) s).core.vs = 0x0000000800080020 ∧ (ran (.vshape 31 9 .f32) s).core.role = .idle := by decide +kernel
/-- R160: a dot product of four bytes onto an addend. R159: the largest magnitude of a block. -/
theorem test_vdot_vbmax :
  let s := setV (setVs bare 1 4 0) [(1, tile [1, 2, 3, 255]), (2, tile [4, 5, 6, 255]), (3, quads [100])]
  let b := setV (setVs bare 1 32 1) [(1, tile ([0x80] ++ List.replicate 31 5))]
  (soon 5 (.vdot .plain allRows 4 1 2 3 none) s).rv 4 = quads [65157] ∧ (soon 3 (.vbmax true allRows 4 1 none) b).rv 4 = 0 ∧
  (soon 6 (.vbmax true allRows 4 1 none) b).rv 4 = tile [127] ∧ (soon 6 (.vbmax false allRows 4 1 none) b).rv 4 = tile [5] := by decide +kernel
/-- R102: the worked example: an mx4 block whose largest magnitude is 5.0 has the scale byte 0x7F, and 5.0 becomes 4 (code
0b0110). R101: it unpacks to 4.0. R157: packing with the same scale gives the same record. -/
theorem test_records :
  let f := quads ([0x40A00000] ++ List.replicate 31 0)
  let s := setV (setVs bare 1 32 8) [(1, f), (2, tile [0x7F])]
  let q := soon 6 (.vqnt allRows 3 1 .mx4 { ty := none, rm := .frm }) s
  q.rv 3 = tile [0x7F, 6] ∧ (soon 6 (.vpackPack allRows 4 1 2 .mx4 { ty := none, rm := .frm }) s).rv 4 = tile [0x7F, 6] ∧
  (soon 6 (.vpackUnpack allRows 5 3 .mx4 { ty := none, rm := .frm }) (setV s [(3, tile [0x7F, 6])])).rv 5 = quads [0x40800000] := by decide +kernel
/-- R166, R141: a tile load with a mask and a store, in the own share, 5 slots on. -/
theorem test_tile_accesses :
  let s := setP (setX (setV (setShare (setVs bare 2 2 0) 32 [1, 2, 3, 4]) [(1, tile [9, 9, 9, 9])]) [(5, loc + 32)]) [(1, 0b10)]
  let m (z : Bool) : MX := { imm := 0, m := { p := 1, z := z }, ty := none }
  (soon 5 (.vld 2 { base := 5, off := .disp 0 } none) s).rv 2 = tile [1, 2, 3, 4] ∧ (soon 5 (.vld 1 { base := 5, off := .disp 0 } (some (m false))) s).rv 1 = tile [9, 9, 3, 4] ∧
  (soon 5 (.vld 1 { base := 5, off := .disp 0 } (some (m true))) s).rv 1 = tile [0, 0, 3, 4] ∧
  (soon 5 (.vst { base := 5, off := .disp 0 } 1 (some (m false))) s).shareRead 32 4 = [1, 2, 9, 9] ∧ (soon 5 (.vld 2 { base := 5, off := .disp 0 } none) (setX s [(5, loc + 65534)])).role = .idle := by
  decide +kernel
/-- R169, R170: the consuming load waits for its granule; indexed loads and stores, the later of two stores to one place. -/
theorem test_tile_accesses_more :
  let s := setX (setV (setShare (setVs bare 1 4 0) 32 [1, 2, 3, 4]) [(1, tile [3, 0, 0xFF, 0]), (2, tile [7, 8, 9, 10])]) [(5, loc + 32)]
  (ran (.vldf false 3 { base := 5, off := .disp 0 } none) s).core.waiting = true ∧
  (soon 1 (.vldf false 3 { base := 5, off := .disp 0 } none) (s.upd fun c => { c with full := [2] })).rv 3 = tile [1, 2, 3, 4] ∧
  (soon 5 (.vldx 3 5 1 allRows none) s).rv 3 = tile [4, 1, 0, 1] ∧ (soon 5 (.vstx 5 1 2 0 none) s).shareRead 31 5 = [9, 10, 2, 3, 7] := by decide +kernel
/-- R48 to R52, R167: a record of rank 1 with extent 3: the fourth unit is clipped, reads as the pad and is not written. -/
theorem test_shaped :
  let rec_ : List Byte := leBytes 8 (loc + 64).toNat ++ [0, 1, 0, 0, 0xEE, 0, 0, 0, 3] ++ List.replicate 15 0 ++ [1] ++ List.replicate 31 0
  let s := setX (setV (setShare (setShare (setVs bare 1 4 0) 0 rec_) 64 [1, 2, 3, 4]) [(1, tile [7, 8, 9, 10])]) [(5, loc)]
  let x : MX := { imm := 0, m := allRows, ty := none }
  (soon 5 (.vldShaped 3 5 0 0 x) s).rv 3 = tile [1, 2, 3, 0xEE] ∧ (soon 5 (.vstShaped 5 0 0 1 x) s).shareRead 64 4 = [7, 8, 9, 4] ∧
  (ran (.vldShaped 3 5 0 0 { x with ty := some .n16 }) s).core.role = .idle := by decide +kernel
/-- R173, R174: the worked table of a heap of four pairs that receives 3, 1, 4, 1, 5. -/
theorem test_hsift :
  let s := setX (setVs bare 1 1 8) [(5, loc)]
  let put (n : Bool) (key val : Nat) (s : State) : State :=
    setShare (setV s [(1, quads [key]), (2, quads [val])]) 0 ((soon 12 (.hsift 3 n 5 1 2 0 0) (setV s [(1, quads [key]), (2, quads [val])])).shareRead 0 32)
  let t := put false 0x40A00000 4 (put false 0x3F800000 3 (put false 0x40800000 2 (put false 0x3F800000 1 (put true 0x40400000 0 s))))
  t.core.shareRead 0 32 = leBytes 4 0x3F800000 ++ leBytes 4 1 ++ leBytes 4 0x40400000 ++ leBytes 4 0 ++ leBytes 4 0x40800000 ++ leBytes 4 2 ++
    leBytes 4 0x40A00000 ++ leBytes 4 4 := by decide +kernel

/-! The matrix unit (08_matrix.md). -/

/-- R188: by the block rule e4m3 (256, 1, 1, 1) against ones sums to 259 at once; f16 3 × 5 on 0, and negated. -/
theorem test_accumulate :
  (accumulate false .e4m3 .e4m3 4 [0x78, 0x38, 0x38, 0x38] [0x38, 0x38, 0x38, 0x38] negZero).1 = 0x43818000 ∧
  (accumulate false .f16 .f16 1 [0x00, 0x42] [0x00, 0x45] 0).1 = 0x41700000 ∧
  (accumulate true .f16 .f16 1 [0x00, 0x42] [0x00, 0x45] negZero).1 = 0xC1700000 ∧ (accumulate false .bf16 .bf16 0 [] [] 5).1 = 5 := by decide +kernel
/-- R182, R190, R193, R195, R196: a command joins the queue with `%sqn`; a full queue freezes; a map takes effect at once; a bank
that is not held is refused; the `MZERO` and `MFUSE` turns. -/
theorem test_matrix_queue :
  let h := bare.upd fun c => { c with held := 0b1111, sqn := 7 }
  let z := ran (.mzero .own 0) h
  z.core.matrix.map (·.seq) = [7] ∧ z.core.sqn = 8 ∧ (ran (.mzero .own 0) (ran (.mzero .own 0) z)).core.frozen = true ∧
  (ran (.mzero .own 0) bare).core.role = .idle ∧ (ran (.mmapLiteral 0x0706050403020100) h).core.map = 0x0706050403020100 ∧
  (ran .mmapOwn h).core.map = 0 ∧ (ran (.mmap 1) (setX h [(1, 8)])).core.role = .idle ∧ (ran (.matrixTurn ⟨0, none⟩) z).core.matrix = [] ∧
  ((ran (.matrixTurn ⟨0, none⟩) (ran (.mfuse 1 0) h)).cluster 0).mode = 1 := by decide +kernel
/-- R191, R192, R194, R198: commands that pass their checks are queued, with a stamp or operand outside the share refused. -/
theorem test_matrix_issue :
  let s := setX (bare.upd fun c => { c with held := 0b1111 }) [(1, loc), (2, 1), (3, 0), (4, loc + 8), (5, 256), (6, loc + 4), (7, 0x100000001 * 8)]
  (ran (.mma false true .f16 .own 1 2 3 1 0) s).core.matrix.length = 1 ∧ (ran (.mma false true .f16 .own 1 3 3 1 0) s).core.role = .idle ∧
  (ran (.mmg false true 0 .f16 .own 1 3 6 1 7 7 1 0) s).core.matrix.length = 1 ∧ (ran (.mdrain false .f16 .frm .own 1 5 4 7 1 0) s).core.matrix.length = 1 ∧
  (ran (.mdrain false .f16 .frm .own 1 5 6 7 1 0) s).core.role = .idle ∧ (ran (.mvb .f32 .f16 .frm 1 1 2 4 7 0 0) s).core.matrix.length = 1 ∧
  (ran (.mwld .own 1 3 3 7 7 0) s).core.role = .idle ∧ ran .mvbStackExecute bare = bare := by decide +kernel
/-- R197: the selectors of `MSTAT`: nothing has run, so `.rd` and `.done` read as the number before the first. -/
theorem test_mstat :
  let s := bare.upd fun c => { c with held := 0b1111, mErr := some (4, 9), mvbFlags := 3 }
  (ran .memoryLoadReturn (ran (.mstatErr 5) s)).core.rx 5 = 0x0000000900000004 ∧ (ran (.mstatErr 5) s).core.mErr = none ∧
  (ran .memoryLoadReturn (ran (.mstatNbf 5) s)).core.rx 5 = 3 ∧ (ran .memoryLoadReturn (ran (.mstatCfg 5) s)).core.rx 5 = 0x00000AA0000000F0 ∧
  (ran .memoryLoadReturn (ran (.mstatFlags 5 .own) s)).core.rx 5 = 0 ∧ (ran .memoryLoadReturn (ran (.mstatRd 5) s)).core.rx 5 = 0xFFFFFFFF ∧
  (ran .memoryLoadReturn (ran (.mstatDone 5) s)).core.rx 5 = 0xFFFFFFFF := by decide +kernel

/-! Engine commands and messages. -/

/-- R235, R236, R238, R239, R241: a `SEND` to itself with `%sqn` 3: queued, started, delivered into the overflow area, stamped
done with its length; the predicate; the bound on the length. -/
theorem test_send :
  let s := setX (setShare (bare.upd fun c => { c with sqn := 3, ctx := 0 }) 0 [1, 2, 3, 4, 5, 6, 7, 8]) [(1, 0), (2, loc), (3, 8), (4, loc + 64), (5, 65537)]
  let q := ran (.send false 1 2 3 4 42 0) s
  let m := ran .engineCommandStart q
  let arr (s : State) := ran (.messageArrival ⟨0, 0⟩) s
  let a := arr (arr (arr m))
  let e := ran (.engineStampWrite ⟨0, 0⟩) a
  q.core.engine.length = 1 ∧ q.core.sqn = 4 ∧ m.msgs.length = 1 ∧ (arr (arr m)).msgs.length = 1 ∧ a.msgs = [] ∧ a.core.ctl.ovq.length = 1 ∧ e.core.engine = [] ∧
  e.core.shareNat 64 8 = 0x0100000800000003 ∧ e.core.full.contains 4 = true ∧ (ran (.send false 1 2 5 4 42 0) s).core.role = .idle ∧
  (ran (.sendLiteral false 1 4 42 0 7) s).core.engine.length = 1 := by decide +kernel
/-- R240, R242: a receive that nothing matches is posted; one that an overflow entry matches takes it; `PROBE` finds it. -/
theorem test_recv :
  let s := setX (setShare (bare.upd fun c => { c with sqn := 3 }) 0 [1, 2, 3, 4, 5, 6, 7, 8]) [(1, 0), (2, loc), (3, 8), (4, loc + 64), (6, loc + 256), (7, 42)]
  let arr (s : State) := ran (.messageArrival ⟨0, 0⟩) s
  let a := arr (arr (arr (ran .engineCommandStart (ran (.send false 1 2 3 4 42 0) s))))
  (ran (.recv false 6 3 0 4 42) s).core.ctl.slots.length = 1 ∧ (ran (.recv false 6 3 0 4 42) a).core.ctl.ovq = [] ∧
  (ran (.recv false 6 3 0 4 41) a).core.ctl.slots.length = 1 ∧ (ran .memoryLoadReturn (ran (.probe false 5 0 7) a)).core.rx 5 = 0x800800000000002A ∧
  (ran .memoryLoadReturn (ran (.probe true 5 0 7) s)).core.rx 5 = 0 := by decide +kernel
/-- R243, R244, R246 to R248: the other commands are queued, and refused when a check fails. -/
theorem test_engine_issue :
  let rec_ : List Byte := leBytes 8 (loc + 256).toNat ++ [0, 1, 0, 0, 0, 0, 0, 0, 3] ++ List.replicate 15 0 ++ [1] ++ List.replicate 31 0
  let s := setX (setShare bare 0 rec_) [(1, loc), (2, loc + 64), (3, 16), (4, loc + 128), (5, 0x0000000100000002), (6, 0), (7, 0x10000), (8, 5)]
  (ran (.sendn .e 2 1 3 4 0) s).core.engine.length = 1 ∧ (ran (.sendn .e 8 1 3 4 0) s).core.role = .idle ∧
  (ran (.halo 15 2 1 8 4 16 0) s).core.engine.length = 1 ∧ (ran (.halo 15 2 1 6 4 16 0) s).core.role = .idle ∧
  (ran (.copyIn true 2 1 6 6 4 3 0) s).core.engine.length = 1 ∧ (ran (.copyOut false 2 1 6 6 4 0 0) s).core.engine.length = 1 ∧
  (ran (.copyIn true 2 8 6 6 4 3 0) s).core.role = .idle ∧ (ran (.gather false .f32 2 7 1 5 4 4 0) s).core.engine.length = 1 ∧
  (ran (.scatter true .f32 2 7 1 5 4 4 0) s).core.engine.length = 1 ∧ (ran (.gather false .f32 2 7 1 6 4 4 0) s).core.role = .idle ∧
  (ran (.put 2 6 6 3 4 0) s).core.engine.length = 1 ∧ (ran (.put 2 7 6 3 4 0) s).core.role = .idle := by decide +kernel
/-- R243: a neighbour's part lands at its offset and adds 1 to the mailbox of the side it comes from. R221, R248: a hand-off,
and a put from a peer that no window matches. -/
theorem test_arrivals :
  let n : NMsg := { src := 0, dst := 1, seq := 0, dir := .e, off := 32, data := [7, 8], units := 2, halo := false }
  let s := { pair with nmsgs := [n] }
  let arr (s : State) := ran (.neighbourArrival ⟨0, 0⟩) s
  let t := arr (arr (arr s))
  (t.coreAt 1).shareRead 32 2 = [7, 8] ∧ (t.coreAt 1).ctl.mbx[2] = 1 ∧ t.nmsgs = [] ∧ (ran (.putLanding 5 0 0 (.comes [1])) bare).putIns = [] ∧
  ran (.putHandoff ⟨0, false⟩) bare = bare := by decide +kernel
/-- R222, R249, R250: a twin set of the partition opens with epoch 1 and closes with its selector turned. -/
theorem test_twins :
  let t : Twin := { part := 0, base := 0, span := 65536, sel := false, isOpen := false, epoch := 0, caldera := false }
  let s := setX { bare with twins := [(3, t)] } [(1, 3), (2, 4)]
  let o := ran (.shadow 5 1) s
  (ran .memoryLoadReturn o).core.rx 5 = 1 ∧ o.twins = [(3, { t with isOpen := true, epoch := 1 })] ∧
  (ran (.publish 1) o).twins = [(3, { t with epoch := 1, sel := true })] ∧ (ran (.publish 1) s).core.role = .idle ∧ (ran (.shadow 5 2) s).core.role = .idle := by
  decide +kernel

/-! Launches, tasks, traps and recovery. -/

/-- A launch that stands for any: one task of one core, in the context of `bare`, priority 3. -/
def launch1 : Launch :=
  { fields := { entry := 0x1000, steep := 0x2000, frame := 0x5000, fstride := 64, est := 10, rows := 1, cols := 1, share := 65536, quads := 0, pri := 3, cls := 0
                dom := 4, budget := 10, rst := true, src := 0, nspec := 0, after := false, deadline := 2 ^ 64 - 1, chains := 3, count := 0
                pjoin := 0, cstamp := 0, vmap := 0, work := 0, ispec := 0 }
    part := 0, ctx := 0, queue := 0, parent := none, pri := 3, die := 0, outst := 1, absent := 0, ran := 0, exited := false, code := 0
    past := false, killed := false, reject := 0, next := 0, ringWr := 0, srcEnd := false, ready := [], pend := [], order := 0, run := []
    todo := [], ending := false, cores := [], slicel := [], stash := [], qstash := [], qva := 2 ^ 40, adopt := [], bars := [] }
/-- Core 0 in a task of launch 1. -/
def launched : State :=
  let t : TaskRec := { code := 0x1000, frame := 0, join := 0, est := 0, tpri := 0, own := false, rst := false, index := none, rcd := none
                       order := 0, since := 0, hits := 0, guard := false }
  { bare.upd fun c => { c with launch := 1, dom := 4 } with
    launches := [(1, { launch1 with srcEnd := true, run := [{ task := t, origin := 0, rows := 1, cols := 1, left := [0] }] })]
    ctxs := [(0, { Context.empty with live := true })] }
/-- R275, R282: an inline source of three chains, frames 64 bytes apart. R54, R55, R287: the task's start. -/
theorem test_task_start :
  let l := launch1.supply 5
  let t := l.ready.getD 2 { code := 0, frame := 0, join := 0, est := 0, tpri := 0, own := false, rst := false, index := none, rcd := none, order := 0, since := 0, hits := 0, guard := false }
  let b := (Core.reset 0).begin launch1 1 t 0 0 { core := 0, share := [], size := 65536, full := [], poison := [], sqn := 9 }
  l.ready.length = 3 ∧ l.srcEnd = true ∧ b.rx 1 = 0x5080 ∧ b.pc = 0x1000 ∧ b.vs = 0x0000000800080020 ∧ b.sqn = 9 ∧ b.role = .running := by decide +kernel
/-- R285, R286: `TASK` answers 0 and enters the task; a record that breaks a rule answers code 3. `JOIN` and `LAUNCH` check
their addresses. R303, R304: without a map `VALID` is illegal. -/
theorem test_task :
  let rec_ : List Byte := leBytes 8 0x1000 ++ leBytes 8 0x77 ++ List.replicate 8 0 ++ leBytes 4 0x501 ++ [0, 1, 0, 0]
  let s := setX (setShare launched 0 rec_) [(1, loc), (2, loc + 4)]
  let t := ran (.task 5 1) s
  (ran .memoryLoadReturn t).core.rx 5 = 0 ∧ (t.launches.find? 1).map (fun l => l.ready.map (·.frame)) = some [0x77] ∧
  (ran (.task 5 2) s).core.role = .idle ∧ (ran .memoryLoadReturn (ran (.task 5 1) (setShare s 24 [0x20]))).core.rx 5 = 0x8000000000000003 ∧
  (ran (.join 5 2 1) s).core.role = .idle ∧ (ran (.launch false 5 2 0) s).core.role = .idle ∧ (ran (.validImmediate .complete 0 1) s).core.role = .idle := by
  decide +kernel
/-- R283: a decrement of 3 leaves 2, of an armed 1 releases the entry, of 0 is an underflow. R280: a record with priority 8 has
reason code 1. R298: a deadline of 100 passes at 128. -/
theorem test_joins :
  joinStep 3 0 = (2, 0, false, none) ∧ joinStep 1 11 = (0, 10, false, some 5) ∧ joinStep 0 0 = (0, 0, true, none) ∧
  { bare with time := { bare.time with dt := 127 * 2 ^ 16 } }.late { launch1.fields with deadline := 100 } = false ∧
  { bare with time := { bare.time with dt := 128 * 2 ^ 16 } }.late { launch1.fields with deadline := 100 } = true := by decide +kernel
/-- A trap ring of two records at global address 0x10000, with a handler at 0x8000. -/
def handled : State := { mapped with mem := mapped.mem.write (2 ^ 54 + 0x10018) [0x00, 0x80]
                                     ctxs := [(0, { Context.empty with live := true, s1root := 0x100000, tring := 0x10000, tlg := 1 })] }
/-- R356 to R365: `TRAP #5` writes record 0 and enters the handler with `%trap` 0x0A; `ERET` comes back after it; a second trap
inside ends the task. -/
theorem test_trap_entry :
  let t := ran (.trap 5) handled
  let ring (s : State) (o : Nat) : Byte := s.mem.byte (2 ^ 54 + 0x10000 + o)
  t.core.pc = 0x8000 ∧ t.core.trap.toNat % 65536 = 0x0A ∧ ring t 0 = 1 ∧ ring t 64 = 0x0A ∧ ring t 104 = 5 ∧
  (t.core.frame.map fun f => f.pc) = some 0x1004 ∧ (ran (.trap 5) t).core.role = .idle := by decide +kernel
/-- R361, R364, R365: the causes of `BRK` and `ILL`, where the handler returns to, and returns outside a handler. -/
theorem test_trap_return :
  let b := ran (.brk 1) handled
  let t := { b.upd fun c => { c with tlb := [{ ctx := 0, vpage := 0, gpa := 2 ^ 55, hpa := 2 ^ 55, size := 32768, bits := 5, set := 0, vsize := 32768, gsize := 32768 }] } with
             scans := [(2 ^ 40, .passed (2 ^ 0x401))] }
  t.mem.byte (2 ^ 54 + 0x10040) = 0x0B ∧ (ran .eret t).core.pc = 0x1004 ∧ (ran .eret t).core.frame = none ∧
  (ran (.ill 9) handled).core.frame.map (·.pc) = some 0x1000 ∧ (ran .eret bare).core.role = .idle ∧ (ran .eretSkip bare).core.role = .idle ∧
  (ran (.eretTo 1) bare).core.role = .idle := by decide +kernel
/-- R367, R371, R372: without a request a live point answers 0; with one 1, and the core stops; `YIELD.poll` counts the grace
time down: 50 µs left of 50. -/
theorem test_live_points :
  let p := { bare with ctxs := [(0, { Context.empty with live := true, pre := some { at_ := 0, g := 50, k := 500, halt := none } })] }
  (ran .memoryLoadReturn (ran (.yield 5) bare)).core.rx 5 = 0 ∧ (ran (.yield 5) p).core.role = .saved ∧ (ran (.yield 5) p).core.rx 5 = 1 ∧
  (ran .memoryLoadReturn (ran (.yieldPoll 5) p)).core.rx 5 = 0x0000003200000001 ∧ (ran (.preemptRequest 0 0 0) bare).ctxs.map (fun e => e.2.pre.map (·.g)) = [some 50] ∧
  (ran (.preemptGraceExpiry 0) { p with time := { p.time with dt := 50000 * 2 ^ 16 } }).core.role = .saved ∧ ran (.preemptGraceExpiry 0) p = p ∧
  (ran (.preemptKillExpiry 0) { p with time := { p.time with dt := 500000 * 2 ^ 16 } }).core.role = .idle := by decide +kernel

/-! Experts, isolation, the module. -/

/-- R311: no table, no pin. R312: `ROUTE` without a pin is illegal. R319: `.health` reads the failed dies. -/
theorem test_experts :
  (ran (.rtpinPin 5 1 0) bare).core.role = .idle ∧ (ran (.rtpinCur 5 1) bare).core.role = .idle ∧ (ran (.rtpinRel 0) bare).core.role = .idle ∧
  (ran .memoryLoadReturn (ran (.rtpinHealth 5) { bare with failed := 0b100 })).core.rx 5 = 4 ∧ (ran (.routeDisp 1 2 0 0 allRows) bare).core.role = .idle ∧
  (ran (.routeInfo 1 2 0 allRows) bare).core.role = .idle ∧ (ran (.routeClose 5 1) bare).core.role = .idle := by decide +kernel
/-- The machine with core 0 in a supervisor context of the physical function. -/
def super : State := { bare with ctxs := [(0, { Context.empty with live := true, sup := true })] }
/-- R9, R327, R376: privileged instructions trap outside a supervisor context; inside one of the physical function they work. -/
theorem test_privilege :
  let s := setX super [(1, 0), (2, 0x40000), (3, 64), (4, 65)]
  (ran .tlbiAll bare).core.role = .idle ∧ (ran (.sealOn 5 0) bare).core.role = .idle ∧ (ran (.dharv 5 0 0) bare).core.role = .idle ∧ (ran (.cfgGw 5 1 (.lit 0)) bare).core.role = .idle ∧
  (ran .tlbiAll { s with l2tlb := [(0, banked.core.tlb)] }).l2tlb.get [] 0 = [] ∧ (ran (.tlbiVf 4) s).core.role = .idle ∧
  ((ran (.sealOn 5 3) s).coreAt 64).sealed = true ∧ (ran .memoryLoadReturn (ran (.sealQ 5 3) (ran (.sealOn 0 3) s))).core.rx 5 = 1 ∧
  ((ran (.sealOff 5 3) (ran (.sealOn 0 3) s)).coreAt 64).sealed = false := by decide +kernel
/-- R342, R343: a lease on the own die is granted with engine 0 and serial 1 for 10 µs; R347, R348: a gateway map is set; a bad
target bit is illegal. -/
theorem test_lease_cfg :
  let s := setX (setShare { super with parts := [(0, { Partition.reset0 with lq := 2 })] } 64 [0b110]) [(1, 0), (2, loc + 64)]
  let g := ran (.leaseGet 5 1) s
  (ran .memoryLoadReturn g).core.rx 5 = 0x100 ∧ (g.leases.find? 0).map (·.ends) = some 10000 ∧ (ran (.leaseRel 5) (ran .memoryLoadReturn g)).leases = [] ∧
  (ran (.cfgGw 5 2 (.lit 0)) s).gates = [(0, 0b110)] ∧ (ran (.cfgGw 5 2 (.lit 64)) s).core.role = .idle ∧ (ran (.leaseExpiry 0 0) g).leases.length = 1 := by
  decide +kernel
/-- R380 to R402: a rebuild, a sweep, a die's failure, containment, the clock's steps. -/
theorem test_module :
  (ran (.wordRebuild 64) bare).mem = [] ∧ (ran (.patrolSweep 0 none) { bare with rows := [(0, 1)] }).mpois.length = 256 ∧ (ran (.dieFailure 3) bare).failed = 8 ∧
  (ran (.coreContainment 0) (bare.upd fun c => c.consumed 0 1)).out = [0] ∧ (ran (.clockStepDown 2) bare).clockOf 2 = 765 ∧
  (ran (.clockStepUp 2) (ran (.clockStepDown 2) bare)).clockOf 2 = 850 ∧ (ran (.slovasLinkTraining 2 77) bare).peers.find? 2 = some 77 ∧
  (ran (.hostWriteToDeviceMemory 0 (2 ^ 54) [1, 2]) { bare with pcie := 1 }).mem.byte (2 ^ 54 + 1) = 2 ∧ (ran (.ptpControlWrite 0x103) bare).time.domain = 3 ∧
  (ran (.registerWrite 0 0x300 0x12345) { bare with pcie := 1 }).evBase = 0x12000 := by decide +kernel

/-! Witnesses: concrete states and operands that meet the hypotheses of the statements, one for each clause. -/

/-- An access that is translated at once. -/
def okd {α : Type} (a : Access α) : Bool := match a with | .ok _ _ => true | _ => false
/-- What it gives. -/
def got {α : Type} (a : Access α) (d : α) : α := match a with | .ok _ x => x | _ => d
/-- An access that waits for a page. -/
def waits {α : Type} (a : Access α) : Bool := match a with | .wait _ => true | _ => false
/-- A fetch that is translated and passes the scanner. -/
def fetched (f : Fetch) : Bool := match f with | .ok _ _ => true | _ => false

theorem witness_IntegerArithmeticResults : Free bare { x := [1, 2] } { x := [3] } ∧ Free bare { x := [1] } { x := [3] } ∧
  Free bare { x := [1, 2, 3] } { x := [3] } := by unfold Free; decide +kernel
theorem witness_BitFieldAndPredicateResults :
  Free bare { x := [1, 2] } { x := [3] } ∧ Free bare { x := [1] } { x := [3] } ∧ Free bare { x := [1, 3] } { x := [3] } ∧
  Free bare { x := [1, 2], p := [1] } { x := [3] } ∧ Free bare {} { x := [3] } ∧ Free bare { p := [1] } { x := [3] } ∧
  Free bare { x := [1, 2] } { p := [1] } ∧ Free bare { x := [1] } { p := [1] } ∧ Free bare { p := [2, 3] } { p := [1] } := by
  unfold Free; decide +kernel
theorem witness_ScalarFloatResults : Free bare { x := [1, 2] } { x := [3] } ∧ Free bare { x := [1] } { x := [3] } ∧
  Free bare { x := [1, 2, 3] } { x := [3] } := by unfold Free; decide +kernel
/-- What a leader hands to a follower. -/
def fed : FeedEntry := { slot := 3, pc := 0x1000, npc := 0x1004, ins := .done, dom := 2, live := true, loops := Vector.replicate 3 LoopLevel.off }
/-- The shape at its bounds, a shape beyond them, the rounding mode and the level at and above theirs, in a launch of level 4 and
in none; a follower with something to issue. -/
theorem witness_SpecialRegisters :
  Free bare {} { x := [1] } ∧ Free bare { x := [1] } {} ∧ Free bare { x := [1, 2] } { x := [3] } ∧
  (32 * 32 * Ty.n8.size ≤ 1024 ∧ Ty.n8.isElem = true ∧ vsLegal (BitVec.ofNat 64 (32 + 2 ^ 16 * 32)) = true) ∧ vsLegal 0 = false ∧
  (4 : Word).toNat ≤ 4 ∧ 4 < (5 : Word).toNat ∧ bare.core.leads = true ∧ (launched.launches.find? launched.core.launch.toNat).map (·.fields.dom) = some 4 ∧
  ((4 : Word).toNat < 8 ∧ (4 : Word).toNat ≤ 4) ∧ (8 ≤ (8 : Word).toNat ∨ 4 < (8 : Word).toNat) ∧
  (let f : State := { pair with others := pair.others.map fun (e : Nat × Core) => (e.1, { e.2 with feed := [fed] }) }
   (f.focus 1).core.leads = false ∧ (f.focus 1).core.feed = [fed]) := by unfold Free; decide +kernel
theorem witness_RegisterWritesAndTheScoreboard :
  (own.pend.any fun e => e.hits { x := [3] }) = false ∧ (own.pend.any fun e => e.hits { v := [3] }) = false ∧
  (own.pend.any fun e => e.hits { p := [3] }) = false ∧ (3 : XReg) ≠ 0 ∧ (3 : PReg) ≠ 0 ∧
  (let s := bare.upd fun c => c.pendX 3 1 7
   s.core.phase = .exchange ∧ s.core.pending { x := [1, 2, 3] } = true) ∧
  (let s := bare.upd fun c => c.lateX 1 7
   s.core.awaited { x := [1, 2, 3] } = true) ∧
  (comp.core.phase = .compute ∧ comp.core.awaited { x := [1, 2, 3] } = false ∧ comp.core.badReg { x := [1, 2] } = none ∧
   comp.core.poisonReg { x := [1, 2] } = none) := by decide +kernel
/-- Conditions that hold and that do not, a loop that holds the target and none, a follower. -/
theorem witness_BranchesAndCalls :
  let s := setP (setX (setVs bare 32 8 0) [(1, 5), (2, 7)]) [(1, 0xFFFFFFFF), (2, 0x80000000)]
  s.core.leads = true ∧ (pair.focus 1).core.leads = false ∧ Free s { x := [1] } {} ∧ Free s { p := [1] } {} ∧ Free s { x := [1, 2] } {} ∧
  Free s {} { x := [63] } ∧ s.core.vs.toNat % 64 = 32 ∧ (∃ k < 32, (s.core.rp 2).getLsbD k = true) ∧ (∀ k < 32, (s.core.rp 1).getLsbD k = true) ∧
  (∀ k < 32, (s.core.rp 3).getLsbD k = false) ∧ ¬ (∀ k < 32, (s.core.rp 2).getLsbD k = true) ∧ s.core.rx 1 = s.core.rx 1 ∧ s.core.rx 1 ≠ s.core.rx 2 ∧
  (s.core.rx 1).toInt < (s.core.rx 2).toInt ∧ (s.core.rx 2).toNat < (-1 : Word).toNat ∧
  (∀ l : Level, ¬ (s.core.loops[l].active = true ∧ s.core.loops[l].start ≤ 0x2000 ∧ (0x2000 : Word) < s.core.loops[l].stop)) ∧
  (looping.core.loops[(0 : Level)].active = true ∧ looping.core.loops[(0 : Level)].start ≤ 0xFF4 ∧ (0xFF4 : Word) < looping.core.loops[(0 : Level)].stop) := by
  unfold Free; decide +kernel
/-- A core whose code page its TLB names, scanned with an instruction at every word. -/
def coded : State := { bare.upd fun c => { c with tlb := [{ ctx := 0, vpage := 0, gpa := 2 ^ 55, hpa := 2 ^ 55, size := 32768, bits := 5, set := 0, vsize := 32768, gsize := 32768 }] } with
                       scans := [(2 ^ 40, .passed (2 ^ 8192 - 1))] }
/-- Counts at and above 2^32, an active level, an end beyond an enclosing loop's, a condition that holds, the last pass. -/
theorem witness_Loops :
  let s := setX coded [(1, 0x100000000), (2, 0xFFFFFFFF)]
  let inside := looping.upd fun c => { c with tlb := s.core.tlb }
  s.core.leads = true ∧ (pair.focus 1).core.leads = false ∧ Free s { x := [1] } {} ∧ Free s { p := [1] } {} ∧ 2 ^ 32 ≤ (s.core.rx 1).toNat ∧
  (s.core.rx 2).toNat < 2 ^ 32 ∧ s.core.loops[(0 : Level)].active = false ∧ fetched (s.enter 0x1010) = true ∧ looping.core.loops[(0 : Level)].active = true ∧
  (∃ m : Level, inside.core.loops[m].active = true ∧ inside.core.loops[m].stop < 0x1010) ∧ fetched (State.enter { inside with scans := s.scans } 0x1010) = true ∧
  (∀ m : Level, s.core.loops[m].active = true → (0x1010 : Word) ≤ s.core.loops[m].stop) ∧ quant .any (looping.core.rp 0) looping.core.rows = true ∧
  quant .any (looping.core.rp 1) looping.core.rows = false ∧ looping.core.loops[(0 : Level)].stop = looping.core.npc ∧
  looping.core.loops[(0 : Level)].start ≤ looping.core.pc ∧ looping.core.pc < looping.core.loops[(0 : Level)].stop ∧
  (∀ m : Level, m ≠ 0 → looping.core.loops[m].active = false) ∧ 1 < looping.core.loops[(0 : Level)].cnt.toNat := by unfold Free; decide +kernel
theorem witness_NopsPhasesAndEnds :
  let busy := bare.upd fun c => c.pendStore 4 0 [1] false
  bare.core.anyResult = false ∧ (bare.upd fun c => c.pendX 3 1 7).core.anyResult = true ∧ (∀ l : Level, bare.core.loops[l].active = false) ∧ bare.core.leads = true ∧
  (pair.focus 1).core.leads = false ∧ comp.core.phase = .compute ∧ Free comp { x := [1] } {} ∧ Free bare { x := [1] } {} ∧ bare.core.phase = .exchange ∧
  (bare.modCore 0 Core.dropReceives).busy 0 = false ∧ (busy.modCore 0 Core.dropReceives).busy 0 = true ∧ bare.core.frame = none ∧
  bare.launches.find? bare.core.launch.toNat = none ∧ (ran (.trap 5) handled).core.frame.isSome = true ∧ (ran (.trap 5) handled).core.phase = .exchange ∧
  (let t := ran (.trap 5) handled
   t.mates t.core = [0] ∧ (t.modCore 0 Core.dropReceives).busy 0 = false) ∧ (launched.launches.find? 1).isSome = true := by unfold Free; decide +kernel
/-- Chains of one and of two, a shape that divides the rectangle and one that does not, a tile whose other core waits with the
same shape and one whose other core has not come, transfers inside and at the edge. -/
theorem witness_ChainsAndTransfers :
  let two := { pair with core := { pair.core with rect := { origin := 0, rows := 1, cols := 2, i := 0, j := 0 } } }
  let other := (two.coreAt 1)
  let waits := { two with others := [(1, { other with task := two.core.task, arrived := true, stage := formCode 1 2 })] }
  let away := { two with others := [(1, { other with task := two.core.task, arrived := false })] }
  let differs := { two with others := [(1, { other with task := two.core.task, arrived := true, stage := formCode 1 1 })] }
  let told := { away with core := { away.core with stage := formBad } }
  let ids := (two.core.rect.tile 1 2).2
  bare.core.frame = none ∧ (∀ l : Level, bare.core.loops[l].active = false) ∧ comp.core.phase = .compute ∧ bare.core.members = 1 ∧ pair.core.members ≠ 1 ∧
  pair.core.phase = .exchange ∧ ¬ (2 ∣ bare.core.rect.rows) ∧ (1 ∣ two.core.rect.rows ∧ 2 ∣ two.core.rect.cols) ∧ two.core.phase = .exchange ∧
  (∀ d ∈ (ids.filter (· ≠ 0)).map waits.coreAt, d.role = .running ∧ d.task = two.core.task ∧ d.arrived = true ∧ d.stage = formCode 1 2) ∧
  (∀ d ∈ (ids.filter (· ≠ 0)).map away.coreAt, d.role = .running ∧ d.task = two.core.task ∧ d.arrived = false) ∧
  (∀ d ∈ (ids.filter (· ≠ 0)).map differs.coreAt, d.role = .running ∧ d.task = two.core.task ∧ d.arrived = true ∧ 2 ^ 40 ≤ d.stage ∧
    d.stage ≠ formCode 1 2 ∧ d.id ≠ two.core.id) ∧ two.core.stage ≠ formBad ∧ told.core.stage = formBad ∧
  (∀ d ∈ (ids.filter (· ≠ 0)).map told.coreAt, d.arrived = false) ∧ (ids.filter (· ≠ 0)).map away.coreAt ≠ [] ∧ pair.core.nextInChain .e = some 1 ∧ pair.core.nextInChain .w = none ∧ bare.core.nextInChain .s = none ∧
  pair.core.poisonReg { v := [2] } = none ∧ pair.core.poisonReg { x := [2] } = none ∧ pair.core.badReg { v := [2] } = none ∧
  pair.core.badReg { x := [2] } = none ∧ (3 : XReg) ≠ 0 := by decide +kernel
/-- Addresses in the own share, at its last byte and beyond it, misaligned, in bank store, poisoned; a load that is to return. -/
theorem witness_LoadsAndReturns :
  let s := setX banked [(1, loc + 65528), (2, loc + 65536), (3, 0x10000), (4, loc + 1)]
  let p := s.upd fun c => { c with poison := [8191] }
  let sp := (s.resolve (s.core.rx 3) 4).getD (.share 0)
  let l := s.upd fun c => c.lateX 5 7
  Free s { x := [1] } { x := [5] } ∧ Free s { x := [1, 2] } { x := [5] } ∧ (s.core.rx 4).toNat % 2 ≠ 0 ∧ s.resolve (s.core.rx 2) 8 = none ∧
  ((s.core.rx 1).toNat % 8 = 0 ∧ tag (s.core.rx 1) = 8 ∧ offset (s.core.rx 1) + 8 ≤ s.core.shareSize) ∧ s.core.sharePoisoned 65528 8 = false ∧
  p.core.sharePoisoned 65528 8 = true ∧ sp.isShare = false ∧ (s.resolve (s.core.rx 3) 4).isSome = true ∧
  ((got (s.readSpace sp 4) none).map List.length) = some 4 ∧ s.core.phase = .exchange ∧ l.core.late.length = 1 ∧
  (l.core.late.map fun p => p.hits { x := [6] }) = [false] := by unfold Free; decide +kernel
/-- Stores to the own share, to bank store with nothing else scheduled and with another turn scheduled, with and without stores
held; stores that the network holds, of which the later must wait for the earlier, and an RC store that need not wait for one of
another granule; at a near scope and at the last; a log word that is due, with a log and without one. -/
theorem witness_StoresAndTheirFrames :
  let s := setX banked [(1, loc + 65528), (2, loc + 65536), (3, 0x10000), (4, loc + 1)]
  let sp := (s.resolve (s.core.rx 3) 4).getD (.share 0)
  let a := { s with agenda := [.turn 0] }
  let h : NetStore := { core := 0, hpa := 2 ^ 54, gpa := 0, part := 0, data := [1, 2], kind := 1, rel := none }
  let far := { h with hpa := 2 ^ 54 + 64 }
  let n := { bare with stores := [h, { h with hpa := 2 ^ 54 + 1 }, { far with rel := some .die }, { far with hpa := 2 ^ 54 + 128 }] }
  let both := { bare with stores := [h, far] }
  let held := { s with stores := [far] }
  let d := { bare.modPart 0 fun p => { p with dlog := 2 ^ 54, dspan := 2 ^ 22 } with dirties := [(0, 65)] }
  Free s { x := [5, 1] } {} ∧ Free s { x := [5, 1, 2] } {} ∧ s.resolve (s.core.rx 2) 4 = none ∧ (s.core.rx 4).toNat % 4 ≠ 0 ∧ sp.isShare = false ∧
  okd (s.writeSpace sp [1, 2, 3, 4] none) = true ∧ s.core.phase = .exchange ∧ own.pend = [] ∧
  (got (s.place (.glob (offset (s.core.rx 3))) 4 .write) (.mem [])) = .mem [{ hpa := 2 ^ 54, gpa := 2 ^ 54, len := 4, kind := 0 }] ∧
  s.agenda = [] ∧ s.deadMem (2 ^ 54) = false ∧ a.agenda ≠ [] ∧ okd (a.place (.glob 0x10000) 4 .write) = true ∧ 
  (∀ l < 4, l ≠ 0 → n.mayPerform 0 l = true ∧ n.mayPerform 1 l = false ∧ n.mayPerform 2 l = false ∧ n.mayPerform 3 l = true) ∧
  (∀ g ∈ n.stores, g.lvl < g.top) ∧ h.cap 1 < h.top ∧ h.top ≤ h.cap 3 ∧ h.near (far.hpa) 2 = false ∧ both.mayPerform 1 3 = true ∧ h.mask = [] ∧
  (n.part 0).dlog = 0 ∧ okd (held.place (.glob 0x10000) 4 .write) = true ∧ held.stores ≠ [] ∧ held.agenda = [] ∧ d.dirties[0]? = some (0, 65) ∧
  (d.part 0).dlog ≠ 0 ∧ d.deadMem (2 ^ 54 + 8) = false ∧ (bare.part 0).dlog = 0 := by unfold Free; decide +kernel

/-- A granule full and one empty, an address at the share's end and one beyond it, in either phase; a watch that is armed, not
armed, and one whose value differs; the watched address in the control page. -/
theorem witness_FullBitsAndWatches :
  let s := setX (setShare (bare.upd fun c => { c with full := [4095] }) 65528 [7]) [(1, loc + 65528), (2, loc + 65536), (3, loc), (4, loc + 0xFFFF8)]
  let w := ran (.watch { base := 1, off := .disp 0 }) s
  Free s { x := [1] } { x := [5] } ∧ Free s { x := [1, 2] } { x := [5] } ∧ Free s { x := [5, 1] } {} ∧ Free s { x := [1] } {} ∧
  ((s.core.rx 1).toNat % 8 = 0 ∧ tag (s.core.rx 1) = 8 ∧ offset (s.core.rx 1) + 8 ≤ s.core.shareSize) ∧ ¬ (offset (s.core.rx 2) + 8 ≤ s.core.shareSize) ∧
  s.core.full.contains (65528 / 16) = true ∧ s.core.full.contains 0 = false ∧ s.core.sharePoisoned 65528 8 = false ∧ comp.core.phase = .compute ∧
  s.core.phase = .exchange ∧ (0xFF000 ≤ offset (s.core.rx 4) ∧ offset (s.core.rx 4) + 8 ≤ 0x100000) ∧ s.core.watched (loc + 65528) = some 7 ∧
  s.core.watch.armed = false ∧ w.core.watch.armed = true ∧ w.core.watched w.core.watch.addr = some 7 ∧ Free w { x := [6] } { x := [5] } ∧
  (w.core.rx 6 ≠ 7 ∧ (setX w [(6, 7)]).core.rx 6 = 7) ∧ w.core.watch.seen = 7 := by unfold Free; decide +kernel
/-- An atomic in bank store, at a share's address, misaligned, in either phase, and at a window that is neither bank store nor
stack memory. -/
theorem witness_Atomics :
  let s := setX banked [(1, 0x10000), (2, loc), (3, 0x10002)]
  let sp : Space := .glob 0x10000
  let w := s.upd fun c => { c with tlb := [{ ctx := 0, vpage := 0x10000, gpa := 2 ^ 54, hpa := 2 ^ 53, size := 32768, bits := 7, set := 0, vsize := 32768, gsize := 32768 }] }
  let d := got (s.place sp 4 .atomic) (.mem [])
  let e := match got (w.place sp 4 .atomic) (.mem []) with | .mem [p] => isBank p.hpa || isHbm p.hpa | _ => true
  Free s { x := [1, 2, 3] } { x := [5] } ∧ Free s { x := [1, 2, 3] } { x := [5, 6] } ∧ (tag (s.core.rx 2) ≠ 0 ∧ tag (s.core.rx 2) ≠ 10) ∧
  (s.core.rx 3).toNat % 4 ≠ 0 ∧ s.resolve (s.core.rx 1) 4 = some sp ∧ (tag (s.core.rx 1) = 0 ∧ (s.core.rx 1).toNat % 16 = 0) ∧ s.core.phase = .exchange ∧
  comp.core.phase = .compute ∧ d = .mem [{ hpa := 2 ^ 54, gpa := 2 ^ 54, len := 4, kind := 0 }] ∧ isBank (2 ^ 54) = true ∧ s.physPoison (2 ^ 54) 4 = false ∧
  s.physPoison (2 ^ 54) 16 = false ∧ e = false := by
  unfold Free; decide +kernel
/-- Lanes of 32-bit floats: two NaNs, a NaN on either side, a smaller, a larger and an equal operand, zeros of either sign. -/
theorem witness_AtomicLanes :
  let v (n : Nat) := tyValue .f32 n
  Ty.f32 ∈ [Ty.n32, .s32, .n64, .s64, .f32, .bf16] ∧ Ty.s64 ∈ [Ty.n32, .s32, .n64, .s64, .f32, .bf16] ∧ 3 < 16 / Ty.size .f32 ∧ 1 < 16 / Ty.size .s64 ∧
  (v 0x7FC00000).isNan = true ∧ (v 0x3F800000).isNan = false ∧ (v 0x3F800000).lt (v 0x40000000) = true ∧ (v 0x40000000).lt (v 0x3F800000) = false ∧
  (v 0x3F800000).lt (v 0x3F800000) = false ∧ ((v 0x80000000).isZero = true ∧ (v 0).isZero = true ∧ 2 ^ 32 ≤ 2 * 0x80000000 ∧ 2 * 0 < 2 ^ 32) ∧
  (2 : Nat) ^ 128 - 1 < 2 ^ 128 := by decide +kernel
/-- Fences with and without stores of the core; barriers outside a launch, of a launch with one core and with two, one that owes a
number, one in a handler, one at level 5. -/
theorem witness_FencesAndBarriers :
  let h : NetStore := { core := 0, hpa := 2 ^ 54, gpa := 2 ^ 54, part := 0, data := [7], kind := 1, rel := none }
  let two := { launched with launches := [(1, { launch1 with run := [{ task := TaskRec.ofBytes []
                                                                       origin := 0, rows := 1, cols := 2, left := [0, 1] }] })] }
  let l1 := (launched.launches.find? 1).getD launch1
  let l2 := (two.launches.find? 1).getD launch1
  let b : Barrier := { level := 4, dom := 0, tag := 1, gen := 6, active := false, aborted := false, members := [], here := [], owed := [0] }
  let full := { launched with launches := [(1, { l1 with bars := [{ b with active := true, members := [0], here := [0], owed := [] }] })] }
  comp.core.phase = .compute ∧ h.core = 0 ∧ Free bare {} { x := [5] } ∧ bare.core.dom.toNat ≤ 4 ∧
  4 < (launched.upd fun c => { c with dom := 5 }).core.dom.toNat ∧ (ran (.trap 5) handled).core.frame.isSome = true ∧ bare.core.frame = none ∧
  bare.core.phase = .exchange ∧ (bare.fence 0).launches.find? 0 = none ∧ ((launched.fence 0).launches.find? 1).isSome = true ∧ launched.core.domIndex 4 = 0 ∧
  (l1.bar 4 0 1).owed.contains 0 = false ∧ (l1.bar 4 0 1).active = false ∧ ((l1.bar 4 0 1).arrive 0 (launched.domain l1 4 0)).full = true ∧
  ((l2.bar 4 0 1).arrive 0 (two.domain l2 4 0)).full = false ∧ b.owed.contains 0 = true ∧ ({ l1 with bars := [b] }.bar 4 0 1) = b ∧
  ((full.launches.find? 1).map fun l => (l.bar 4 0 1).full) = some true ∧ ((launched.launches.find? 1).map fun l => (l.bar 4 0 1).full) = some false := by
  unfold Free; decide +kernel
/-- An operation before a balancer and one before an exit; a handle that names a network, one that names none, a wire at the bound,
a network that was lost, one with an operation that has its value; steps of the present cycle at a later port, and none; routers with
room and with none; other steps scheduled; dead operations on a network that voids
and on one that does not. -/
theorem witness_CountingNetworks :
  let o : CntOp := { core := 0, ctx := 0, anti := false, wire := 0, pos := .wire 0, value := none, dead := false }
  let e : CntOp := { o with pos := .out 4 false }
  let n1 := { fresh4 with ops := [o, e] }
  let d := { fresh4 with ops := [{ o with dead := true, value := some 3 }] }
  let s := { counting with nets := [(.part 0 0, d)] }
  let q := { counting with nets := [(.part 0 0, { fresh4 with ops := [{ o with value := some 3 }] })] }
  let one := counting.modPart 0 fun p => { p with bal := 1 }
  let late := { n1 with steps := [{ time := 0, exit := false, num := 0, port := 9, core := 0 }, { time := 0, exit := true, num := 0, port := 9, core := 0 }] }
  let anti := { s with nets := [(.part 0 0, { d with void := true, ops := [{ o with dead := true, anti := true, value := some 3 }] })] }
  (counting.unpins = [] ∧ s.unpins = [] ∧ o.core < 4096 ∧ (d.ops[0]?.map fun o => o.anti) = some false ∧ anti.allBack 0 = true) ∧
  ((match (network 2 false).2[0]? with | some (.out _ _) => true | _ => false) = true ∧
   (one.taken (.part 0) 0 Net.cells).count 0 < one.shareSize (.part 0)) ∧
  (late.port o < 9 ∧ late.port e < 9 ∧ counting.now = 0 ∧ n1.steps = []) ∧
  ((network 2 false).1.length = 6 ∧ 6 ≤ (freePlaces (one.shareSize (.part 0)) (one.taken (.part 0) 0 Net.place)).length ∧ freePlaces 0 [] = [] ∧
   (one.taken (.part 0) 0 Net.place).count 0 ≤ one.shareSize (.part 0)) ∧
  (fresh4.lead (.wire 0) = .bal 0 ∧ fresh4.lead e.pos = .exit 0) ∧ n1.ops[1]? = some e ∧ o.value = none ∧ ¬ (4096 ≤ e.core ∧ e.dead = true) ∧
  Free counting { x := [6] } { x := [5] } ∧ Free counting { x := [6, 10] } { x := [5] } ∧ counting.handle 512 = none ∧
  (counting.handle (counting.core.rx 6)) = some (.part 0 0, fresh4) ∧ 2 ^ fresh4.lw ≤ (4 : Word).toNat ∧ (3 : Word).toNat < 2 ^ fresh4.lw ∧
  { counting with core := comp.core }.core.phase = .compute ∧ counting.core.phase = .exchange ∧ fresh4.lost = false ∧ { fresh4 with lost := true }.lost = true ∧
  fresh4.mine 0 = none ∧ counting.agenda = [] ∧ { counting with agenda := [.turn 0] }.agenda ≠ [] ∧
  ((q.net (.part 0 0)).bind fun n => n.mine 0) = some { o with value := some 3 } ∧ s.net (.part 0 0) = some d ∧ s.allBack 0 = true ∧
  { s with nets := [(.part 0 0, { fresh4 with ops := [{ o with dead := true }] })] }.allBack 0 = false ∧ d.dying = false ∧ d.void = false ∧
  { d with void := true }.void = true := by unfold Free; decide +kernel
/-- A core of the 4096 and the first beyond, spans of 16 bytes, of 65536 and beyond, an own range and one that is none, a stamp in
the share and beyond it, a full queue, a predicate that is clear, a shape record of the share. -/
theorem witness_SendsAndPutsAreQueued :
  let s := setP (setX bare [(1, 4095), (2, 4096), (3, loc), (4, 65536), (5, 65537), (6, 16), (7, loc + 65528), (8, loc + 65536), (9, 1048576), (10, 0xFFFFF)]) [(1, 0)]
  let z := { s with core := { s.core with engine := List.replicate 8 { ins := .send false 1 2 3 4 0 0, seq := 0, stamp := 0, ops := [], shape := [], data := [], bad := none, started := false, moved := 0, status := 1, waits := 0 } } }
  Free s { x := [7, 1, 3, 4], p := [0] } {} ∧ Free s { x := [7, 2, 3, 4], p := [1] } {} ∧ (s.core.rp 0).getLsbD 0 = true ∧ (s.core.rp 1).getLsbD 0 = false ∧
  (s.core.rx 1).toNat < 4096 ∧ ¬ (s.core.rx 2).toNat < 4096 ∧
  (let w := (s.core.rx 10).toNat; w < 2 ^ 20 ∧ w / 2 ^ 4 % 8 ≤ w / 2 ^ 7 % 8 ∧ w / 2 ^ 10 % 32 ≤ w / 2 ^ 15 % 32) ∧
  ((s.core.rx 4).toNat ≤ 65536 ∧ LocalRange s.core (s.core.rx 3) 65536 16) ∧ 65536 < (s.core.rx 5).toNat ∧ ¬ LocalRange s.core (s.core.rx 8) 16 16 ∧
  ((s.core.rx 7).toNat % 8 = 0 ∧ tag (s.core.rx 7) = 8 ∧ offset (s.core.rx 7) + 8 ≤ s.core.shareSize) ∧ ¬ (offset (s.core.rx 8) + 8 ≤ s.core.shareSize) ∧
  8 ≤ z.core.engine.length ∧ s.core.engine.length < 8 ∧ (tag (s.core.rx 3) = 8 ∧ (s.core.rx 3).toNat % 16 = 0) ∧ ¬ ((s.core.rx 7).toNat % 16 = 0) ∧
  (1 ≤ (s.core.rx 6).toNat ∧ (s.core.rx 6).toNat ≤ 16) ∧ ¬ (s.core.rx 5).toNat ≤ 16 ∧
  (s.core.rx 1).toNat < 65536 ∧ (16 ≤ (s.core.rx 9).toNat ∧ (s.core.rx 9).toNat ≤ 2 ^ 20 ∧ (s.core.rx 9).toNat % 16 = 0) ∧
  LocalRange s.core (s.core.rx 3) (s.core.rx 4).toNat 16 := by unfold Free LocalRange; decide +kernel
/-- A shape record at a share's first byte, no record at its end, counts at their bounds and beyond, a base in the global space, in
the spill area and beyond it. -/
theorem witness_TransfersAreQueued :
  let rec_ : List Byte := leBytes 8 (loc + 256).toNat ++ [0, 1, 0, 0, 0, 0, 0, 0, 3] ++ List.replicate 15 0 ++ [1] ++ List.replicate 31 0
  let s := setX (setShare bare 0 rec_) [(1, loc), (2, loc + 64), (4, loc + 128), (5, 0x0000000100000002), (7, 0x10000), (8, 0x0002000100000001), (9, loc + 65536), (10, 0xA000000000000000), (11, 0xA000000000000001)]
  let p := s.modCtx 0 fun c => { c with splim := 1 }
  let v := (s.core.rx 5).toNat
  Free s { x := [4, 2, 1, 6, 6], p := [0] } {} ∧ s.core.shapeAt (s.core.rx 1) = some rec_ ∧ s.core.shapeAt (s.core.rx 9) = none ∧
  recordUnit rec_ ≠ 0 ∧ LocalRange s.core (s.core.rx 2) (4 * recordUnit rec_) 16 ∧
  (v / 2 ^ 17 % 2 ^ 15 = 0 ∧ v / 2 ^ 49 = 0 ∧ 1 ≤ v / 2 ^ 32 % 2 ^ 17 ∧ v / 2 ^ 32 % 2 ^ 17 ≤ 65536 ∧ v % 2 ^ 17 ≤ 65536) ∧
  ¬ ((s.core.rx 8).toNat / 2 ^ 49 = 0) ∧ LocalRange s.core (s.core.rx 2) (2 * 1 * 4) 16 ∧ (tag (s.core.rx 7) = 0 ∧ offset (s.core.rx 7) / 2 ^ 57 = 0) ∧
  (tag (p.core.rx 10) = 10 ∧ offset (p.core.rx 10) < (p.context p.core.ctx).splim) ∧ tag (p.core.rx 11) = 10 ∧
  ¬ offset (p.core.rx 11) < (p.context p.core.ctx).splim ∧ tag (s.core.rx 1) ≠ 0 ∧ tag (s.core.rx 1) ≠ 10 ∧
  LocalRange s.core (s.core.rx 1) (2 * 8) 8 := by unfold Free LocalRange; decide +kernel

/-- A command of the engine. -/
def cmdOf (i : Instr) : EngineCmd :=
  { ins := i, seq := 3, stamp := 64, ops := [0, 0], shape := [], data := [1, 2], bad := none, started := false, moved := 0, status := 1, waits := 0 }
/-- Four commands that run and one that waits; one of each kind at the queue's head; a stamp that is due and one whose branches are
still out. -/
theorem witness_EngineCommandsStartAndStamp :
  let run (i : Instr) : State := bare.upd fun c => { c with engine := [cmdOf i] }
  let four := bare.upd fun c => { c with engine := List.replicate 4 { cmdOf .done with started := true, seq := 1 } ++ [cmdOf .done] }
  let due := bare.upd fun c => { c with engine := [{ cmdOf (.send false 1 2 3 4 0 0) with started := true }] }
  let out := bare.upd fun c => { c with engine := [{ cmdOf (.send false 1 2 3 4 0 0) with started := true, waits := 1 }] }
  let w : Window := { part := 0, num := 0, dir := 1, port := 2, ctx := 0, peer := 5, pnum := 7, base := 0, size := 2, cnt := 0 }
  let p := { run (.put 1 2 3 4 5 0) with windows := [w], peers := [(2, 5)] }
  let g := run (.gather false .f32 1 2 3 4 5 0 0)
  let first (s : State) := s.core.engine.find? fun e => !e.started
  first four = some (cmdOf .done) ∧ (four.core.engine.filter fun e => e.started).length = 4 ∧ first g = some (cmdOf (.gather false .f32 1 2 3 4 5 0 0)) ∧
  (g.core.engine.filter fun e => e.started).length < 4 ∧ first (run (.send false 1 2 3 4 0 0)) = some (cmdOf (.send false 1 2 3 4 0 0)) ∧
  neighbour 0 .e = some 1 ∧ p.outWindow 0 0 = some w ∧ 0 + (cmdOf .done).data.length ≤ w.size ∧ p.peers.find? w.port = some w.peer ∧ { p with peers := [] }.peers.find? w.port = none ∧ (cmdOf .done).bad = none ∧
  (due.core.engine.filter fun e => e.started)[0]? = some { cmdOf (.send false 1 2 3 4 0 0) with started := true } ∧ (cmdOf .done).status ≠ 0x80 ∧
  (cmdOf .done).waits = 0 ∧ (out.core.engine.filter fun e => e.started)[0]?.map (·.waits) = some 1 ∧
  due.core.engine.find? (fun q => q.seq = 3) = some { cmdOf (.send false 1 2 3 4 0 0) with started := true } := by decide +kernel
/-- A shape record: base, type code, extents of two dimensions and their strides. -/
def shapeRec (base : Word) (code e0 e1 s0 s1 : Nat) : List Byte :=
  leBytes 8 base.toNat ++ [BitVec.ofNat 8 code, 2, 0, 0] ++ leBytes 4 0 ++ leBytes 4 e0 ++ leBytes 4 e1 ++ leBytes 8 0 ++ leBytes 8 s0 ++ leBytes 8 s1 ++ List.replicate 16 0
/-- A `HALO` of a tile of two rows and two columns, bytes 256 to 259 of the share, whose neighbour is of the launch; one whose record
fails; a `COPY` whose record passes and one whose record fails. -/
theorem witness_EngineCommandsStartAndStamp_records :
  let q (i : Instr) (code : Nat) (s : State) : State :=
    s.upd fun c => { c with engine := [{ cmdOf i with ops := [loc + 512, 0, 1, 0], shape := shapeRec (loc + 256) code 2 2 1 2 }] }
  let s (code : Nat) := q (.halo 3 1 2 3 4 16 0) code pair
  let h (code : Nat) := Shape.ofBytes (shapeRec (loc + 256) code 2 2 1 2)
  let j (code : Nat) := (s code).judge (h code) (Win.of 2 2 0 0 0 0) Ty.isElem false
  let c (code : Nat) (out : Bool) := (s code).judge (h code) { (Win.of 1 1 0 0 0 0) with w := #v[1, 1, 1, 1] } (fun _ => true) out
  j 0 = .moves ∧ j 14 = .fails 2 ∧ c 0 false = .moves ∧ c 0 true = .moves ∧ c 14 true = .fails 2 ∧
  ((h 0).ty = some .n8 ∧ (h 0).rank = 2 ∧ tag (h 0).base = 8 ∧ (h 0).ext[0] = 2 ∧ (h 0).ext[1] = 2 ∧ (max (1 * 2) (2 * 1) * 1 + 15) / 16 * 16 ≤ 16) ∧
  (neighbour 0 .e = some 1 ∧ ((s 0).coreAt 1).sealed = false ∧ (s 0).sameLaunch 0 ((s 0).landsAt 0 1) = true ∧ neighbour 0 .s = some 32 ∧
   ((s 0).coreAt 32).sealed = false ∧ (s 0).sameLaunch 0 ((s 0).landsAt 0 32) = false) ∧
  ((List.range 4).all fun k => !(s 0).core.sharePoisoned (256 + k) 1) = true := by decide +kernel
/-- A `COPY` whose first unit stands in memory and whose last is outside the extents, a `GATHER` of two rows, before their first unit; a
write's place of one piece; a transfer that has moved whole, one that failed; a granule that is ready for the share and bytes that are
ready for memory. -/
theorem witness_EngineCommandsStartAndStamp_units :
  let e (i : Instr) : EngineCmd :=
    { cmdOf i with started := true, ops := [0, 512, 2, 1, 0, 0, 0, 0], shape := shapeRec 0x20000 0 1 1 1 1, xfer := { next := 0, passed := 0 } }
  let g : EngineCmd := { e (.gather false .f32 1 2 3 4 5 0 0) with ops := [512, 0x20000, 2, 1, 4], shape := leBytes 4 0 ++ leBytes 4 1 }
  let s (e : EngineCmd) : State := mapped.upd fun c => { c with engine := [e] }
  let r (acc : Acc) := (s (e .done)).placeAs ((s (e .done)).engineWho 3 0) (.glob 0x20000) 1 acc
  let due (i : Instr) : EngineCmd := { e i with xfer := { next := 2, passed := 2 } }
  let bad : EngineCmd := { e .done with xfer := { next := 2, passed := 2, fail := some (0, ⟨5, 0x20000, 0x40⟩) } }
  let place : Place := match r .write with | .ok _ p => p | _ => .share 0 0
  let ready : EPart := { units := [0], place := .share 512 16, data := List.replicate 16 7 }
  let out : EPart := { units := [1], place := place, data := [7] }
  let held : EngineCmd := { due (.copyOut false 1 2 3 4 5 6 0) with xfer := { next := 2, passed := 2, ready := [out] } }
  let h := Shape.ofBytes (e .done).shape
  ((s (e .done)).core.engine.filter fun e => e.started)[0]? = some (e .done) ∧ (e .done).waits = 0 ∧ (e .done).status < 0x80 ∧ (e .done).bad = none ∧
  (s (e .done)).judge h (e .done).win (fun _ => true) false = .moves ∧ (s (e .done)).judge h (e .done).win (fun _ => true) true = .moves ∧
  h.ty = some .n8 ∧ h.rank = 2 ∧ (h.ext[0] = 1 ∧ h.ext[1] = 1) ∧
  (match r .read with | .ok u pl => ((u.readPlace pl true).2).isSome | _ => false) = true ∧
  (match place with | .mem [p] => p.len = 1 && p.hpa % 16 + 1 ≤ 16 && p.hpa + 1 ≤ 2 ^ 57 && !(s held).deadMem p.hpa | _ => false) = true ∧
  (g.data.length = 2 ∧ (g.ops.getD 2 0).toNat = 2 ∧ leNat ((g.shape.drop 4).take 4) = 1 ∧ (0x20000 + 1 * 4) % 4 = 0) ∧
  (due .done).xfer.ready = [] ∧ (due .done).xfer.next = 2 * 1 ∧ bad.xfer.fail = some (0, ⟨5, 0x20000, 0x40⟩) ∧
  [ready][0]? = some ready ∧ ready.data.length = 16 ∧ 512 % 16 = 0 ∧ held.xfer.ready = [out] ∧ out.place = place ∧ out.mask = [] ∧
  (held.ops.getD 2 0).toNat * (held.ops.getD 3 0).toNat ≤ held.xfer.passed ∧ (s held).stores = [] ∧
  ((s held).part (s held).myPart).dlog = 0 := by decide +kernel
/-- A branch that meets a posted receive, one that meets a free overflow slot, one that meets neither, one for a core that runs
nothing, one that is landing and one whose last granule has landed, one for a core that is saved; a neighbour's part for a core of the
launch in the same stages, and for another. -/
theorem witness_ArrivalsAndReceives :
  let m : Msg := { src := 0, dst := 1, seq := 0, part := 0, ctx := 0, tag := 42, data := [1, 2] }
  let n : NMsg := { src := 0, dst := 1, seq := 0, dir := .e, off := 32, data := [7, 8], units := 2, halo := false }
  let s := { pair with msgs := [m], nmsgs := [n] }
  let d := s.coreAt 1
  let saved := { s with others := [(1, { d with role := .saved })] }
  let r : RecvSlot := { buf := 0, max := 2, src := 0, mask := 0, anytag := false, tag := 42, stamp := 64, seq := 9, order := 1 }
  let posted := { d with ctl := { d.ctl with slots := [(5, r)] } }
  let k : MsgTake := { recv := some r, entry := 0, launch := d.launch, task := d.task, parts := cutGranules 0 [1, 2] }
  let lands := { s with msgs := [{ m with take := some k }], nmsgs := [{ n with parts := some (cutGranules 32 [7, 8]) }] }
  let ends := { s with msgs := [{ m with take := some { k with parts := [] } }], nmsgs := [{ n with parts := some [] }] }
  let ov (k : Nat) : OvEntry := { src := 0, len := 2, tag := 42, arrival := k, live := true }
  let packed := { d with ctl := { d.ctl with ovq := (List.range 16).map fun k => (k, ov k) } }
  s.msgs[0]? = some m ∧ m.src ≠ m.dst ∧ s.landsAt 0 1 = 1 ∧ m.dst < 4096 ∧ s.corePart 1 = some 0 ∧ d.sealed = false ∧ d.takes = true ∧ m.take = none ∧
  ((saved.coreAt 1).role = .saved ∧ (saved.coreAt 1).ctx = m.ctx) ∧ posted.takes = true ∧ posted.ctl.matching 0 42 = some (5, r) ∧
  (d.ctl.matching 0 42 = none ∧ 16384 ≤ d.shareSize ∧ lowestFree d.ctl.ovq 16 = some 0) ∧ packed.ctl.matching 0 42 = none ∧
  lowestFree packed.ctl.ovq 16 = none ∧ ({ pair with others := [] }.coreAt 1).takes = false ∧ ({ pair with others := [] }.coreAt 1).role = .idle ∧
  (d.launch = k.launch ∧ d.task = k.task ∧ k.parts[0]? = some (0, [1, 2])) ∧ lands.msgs[0]? = some { m with take := some k } ∧
  ends.msgs[0]? = some { m with take := some { k with parts := [] } } ∧
  s.nmsgs[0]? = some n ∧ s.sameLaunch 0 1 = true ∧ saved.sameLaunch 0 1 = true ∧ d.role ≠ .saved ∧ n.parts = none ∧ n.off + n.data.length ≤ d.shareSize ∧
  (cutGranules 32 [7, 8])[0]? = some (32, [7, 8]) ∧ (ends.nmsgs[0]?).map (·.parts) = some (some []) ∧ n.cut = false ∧
  { pair with others := [] }.sameLaunch 0 1 = false := by decide +kernel
/-- A destination whose save is stored and one that only waits for it; a branch for an overflow slot. -/
theorem witness_ArrivalsAndReceives_saved :
  let m : Msg := { src := 0, dst := 1, seq := 0, part := 0, ctx := 0, tag := 42, data := [1, 2] }
  let d := pair.coreAt 1
  let saved := { pair with others := [(1, { d with role := .saved })] }
  let kept := { saved with ctxs := [(0, { Context.empty with live := true, stored := true })] }
  (kept.coreAt 1).role = .saved ∧ (kept.coreAt 1).ctx = m.ctx ∧ (kept.context 0).stored = true ∧ (saved.context 0).stored = false ∧
  kept.landsAt 0 1 = 1 ∧ kept.sameLaunch 0 1 = true ∧ d.role = .running ∧
  (match (d.takeMsg m).2 with | .taken q => q.recv.isNone && decide (q.parts = cutGranules (d.shareSize - 16384) [1, 2]) | _ => false) = true := by decide +kernel
/-- Receives that match nothing, an entry and an entry whose payload is landing, with no slot free; selectors inside and outside their
fields; a length at its bound. -/
theorem witness_ArrivalsAndReceives_receives :
  let r : RecvSlot := { buf := 0, max := 2, src := 0, mask := 0, anytag := false, tag := 42, stamp := 64, seq := 9, order := 1 }
  let ov (k : Nat) : OvEntry := { src := 0, len := 2, tag := 42, arrival := k, live := true }
  let x := setX bare [(1, loc), (2, 65536), (3, 0), (4, loc + 65520), (5, 0x1000), (7, 42)]
  let e := x.upd fun c => { c with ctl := { c.ctl with ovq := [(0, ov 1)] } }
  let w := x.upd fun c => { c with ctl := { c.ctl with ovq := [(0, { ov 1 with live := false })] } }
  let m : Msg := { src := 1, dst := 0, seq := 0, part := 0, ctx := 0, tag := 42, data := [1, 2]
                   take := some { recv := none, entry := 0, launch := 0, task := 0, parts := cutGranules 0 [1, 2] } }
  let z := x.upd fun c => { c with ctl := { c.ctl with slots := (List.range 32).map fun k => (k, r) } }
  Free x { x := [1, 2, 3, 4] } {} ∧ Free x { x := [3, 7] } { x := [6] } ∧ (x.core.rx 2).toNat ≤ 65536 ∧
  LocalRange x.core (x.core.rx 1) (((x.core.rx 2).toNat + 15) / 16 * 16) 16 ∧
  ((x.core.rx 4).toNat % 8 = 0 ∧ tag (x.core.rx 4) = 8 ∧ offset (x.core.rx 4) + 16 ≤ x.core.shareSize) ∧
  ((x.core.rx 3).toNat / 2 ^ 12 % 16 = 0 ∧ (x.core.rx 3).toNat / 2 ^ 28 = 0) ∧ ¬ ((x.core.rx 5).toNat / 2 ^ 12 % 16 = 0) ∧ comp.core.phase = .compute ∧
  x.core.phase = .exchange ∧ x.core.arrived = false ∧ lowestFree z.core.ctl.slots 32 = none ∧ lowestFree x.core.ctl.slots 32 = some 0 ∧
  ((w.msgs ++ [m])[0]? = some m ∧ m.dst = w.core.id ∧ (m.take.map fun q => (q.recv, q.entry)) = some (none, 0)) ∧
  x.core.ctl.oldest 0 0 false 42 = none ∧ e.core.ctl.oldest 0 0 false 42 = some (0, ov 1) ∧
  w.core.ctl.oldest 0 0 false 42 = some (0, { ov 1 with live := false }) := by unfold Free LocalRange; decide +kernel
/-- A put that is to be handed off, with its window's counter mapped and not; a put from a peer that a window matches, with the last byte
at its end and one beyond, and one that none matches; a put that is landing and one whose last granule has landed; twin sets open, closed,
absent, of another partition. -/
theorem witness_PutsAndTwinSets :
  let w : Window := { part := 0, num := 0, dir := 1, port := 2, ctx := 0, peer := 5, pnum := 7, base := 0, size := 2, cnt := 0x20000 }
  let i : Window := { w with dir := 2, base := 0x20000 }
  let e := cmdOf (.put 1 2 3 4 5 0)
  let s := { mapped with windows := [w], puts := [(0, e)] }
  let raw := mapped.modPart 0 fun p => { p with s2root := 0 }
  let q : PutIn := { serial := 0, win := i, parts := cutGranules 0x20000 [1, 2] }
  let l := { mapped with windows := [i], putIns := [q, { q with parts := [] }] }
  let t : Twin := { part := 0, base := 0, span := 65536, sel := false, isOpen := false, epoch := 0, caldera := false }
  let x := setX { bare with twins := [(3, t), (4, { t with isOpen := true }), (65535, { t with part := 1 })] } [(1, 3), (2, 4), (3, 65535)]
  let on := { s with peers := [(2, 5)] }
  let pa := got (mapped.translateRange { i.who (.cmd 0 3 0) with eng := false } i.cnt 8 .atomic) []
  (s.peers.find? w.port = none ∧ on.peers.find? w.port = some w.peer ∧ okd (on.bumpWindow w (.cmd 0 3 0)) = true ∧
   (on.core.engine ++ [e]).find? (fun q => q.seq = e.seq) = some e) ∧
  { s with peers := [(2, 6)] }.peers.find? w.port = some 6 ∧ (pa.all fun p => !mapped.physPoison p.hpa 8 && !mapped.deadMem p.hpa) = true ∧
  s.puts[0]? = some (0, e) ∧ s.outWindow 0 0 = some w ∧ okd (s.bumpWindow w (.cmd 0 3 0)) = true ∧ waits (raw.bumpWindow w (.cmd 0 3 0)) = true ∧
  (got (mapped.translateRange { w.who (.cmd 0 3 0) with eng := false } w.cnt 8 .atomic) []).map (·.hpa) = [2 ^ 54 + 0x20000] ∧
  (l.windows.find? fun w => w.dir = 2 && w.peer = 5 && w.num = 0) = some i ∧
  (s.windows.find? fun w => w.dir = 2 && w.peer = 5 && w.num = 0) = none ∧ i.size < 1 + [1, 2].length ∧ 0 + [1, 2].length ≤ i.size ∧
  s.putIns[0]? = none ∧ l.putIns[0]? = some q ∧ q.parts[0]? = some (0x20000, [1, 2]) ∧
  okd (l.translateRange (q.win.who (.put 0 0x20000)) 0x20000 2 .write) = true ∧ l.putIns[1]? = some { q with parts := [] } ∧
  okd (l.bumpWindow i (.put 0 i.cnt)) = true ∧
  Free x { x := [1] } { x := [5] } ∧ Free x { x := [1] } {} ∧ x.twinFor (x.core.rx 1) = some t ∧ x.twinFor (x.core.rx 2) = some { t with isOpen := true } ∧
  x.twinFor (x.core.rx 3) = none ∧ t.isOpen = false ∧ comp.core.phase = .compute ∧ x.core.phase = .exchange := by unfold Free; decide +kernel

/-- A queue of the partition. -/
def queue1 : Queue :=
  { dev := true, part := 0, ctx := 0, cap := 1, recs := [], qbase := 0, qsize := 0, qwr := 0, qrd := 0, err := false, mapped := false, copy := []
    since := 0, last := none }
/-- A record that passes every check: entry 0x1000, budget 10, one chain. -/
def record1 : List Byte :=
  leBytes 8 0x1000 ++ List.replicate 34 0 ++ [10] ++ List.replicate 13 0 ++ [1] ++ List.replicate 71 0
/-- Queues mapped and not, at the head of the order and not, with their 20 µs at the bound; records with and without `after`, the
launch before it there and not; records that pass and fail their checks; an inline source. -/
theorem witness_QueuesAndSources :
  let e : QRec := { bytes := record1, lid := 9, parent := none }
  let aft : List Byte := record1.set 45 2
  let m := { queue1 with mapped := true, recs := [e] }
  let on (n : Nat) (t : Nat) (order : List Nat) : State :=
    { mapped with queues := [(n, { m with mapped := decide (n = 1) }), (2, queue1)], time := { mapped.time with dt := BitVec.ofNat 80 (t * 2 ^ 16) }
                  parts := [(0, { mapped.part 0 with qs := 1, qorder := order })] }
  (on 3 0 [3]).queues.find? 3 = some { m with mapped := false } ∧ (on 3 0 [2]).part 0 = { mapped.part 0 with qs := 1, qorder := [2] } ∧
  (on 3 0 [3]).mappedOf 0 < 1 ∧ 1 ≤ (on 1 0 [1]).mappedOf 0 ∧ (on 3 0 [3]).queues.find? 2 = some queue1 ∧ (on 1 19999 []).now < 20000 ∧ 20000 ≤ (on 1 20000 []).now ∧
  (on 1 0 []).queues.find? 9 = none ∧ ((on 1 0 []).context 0).live = true ∧ m.recs = [e] ∧ (LaunchRec.ofBytes aft).after = true ∧ (LaunchRec.ofBytes record1).after = false ∧
  (on 1 0 []).launches.find? 9 = none ∧ ({ on 1 0 [] with launches := [(9, launch1)] }.launches.find? 9).isSome = true ∧ recCode record1 = 0 ∧
  (LaunchRec.ofBytes (record1.set 38 8)).pri = 8 ∧ (LaunchRec.ofBytes (record1.set 39 16)).cls = 16 ∧ (LaunchRec.ofBytes (record1.set 44 0x50)).nspec = 5 ∧
  (LaunchRec.ofBytes (record1.set 44 6)).src = 3 ∧
  (launch1.fields.src = 0 ∧ launch1.srcEnd = false ∧ launch1.next = 0 ∧ launch1.ready = [] ∧ launch1.run = [] ∧ launch1.fields.chains ≤ 65536) := by decide +kernel
/-- A ring that is empty and one with an entry, one that breaks a rule, one whose header is poisoned, one whose page is missing; a ragged
task's record; sources of each kind that close early, one that has ended. -/
theorem witness_QueuesAndSources_rings :
  let l := { launch1 with fields := { launch1.fields with src := 1, work := 0x20000, frame := 0 } }
  let hd (wr lg : Nat) : State := { mapped with mem := mapped.mem.write (2 ^ 54 + 0x20000) (leBytes 8 wr ++ leBytes 8 0 ++ leBytes 1 lg), launches := [(1, l)] }
  let b (wr : Nat) : List Byte := leBytes 8 wr ++ leBytes 8 0 ++ [1]
  let head (s : State) : Option RingHead := got (s.ringHead l 1) none
  let u1 := (hd 1 1).modLaunch 1 fun l => { l with ringWr := 1 }
  let raw := (hd 1 1).modPart 0 fun p => { p with s2root := 0 }
  let t : TaskRec := { TaskRec.ofBytes [] with rcd := some 0x20000 }
  let r := { mapped with mem := mapped.mem.write (2 ^ 54 + 0x20000) (List.replicate 8 0 ++ [32]), launches := [(1, { l with ready := [t] })] }
  let ps := got (r.translateRange { l.who 1 with w := .tile 1 0 } 0x20000 40 .read) []
  let bs := r.readPieces ps
  (hd 1 1).launches.find? 1 = some l ∧ (l.fields.src = 1 ∧ l.srcEnd = false ∧ l.past = false ∧ l.exited = false ∧ l.killed = false) ∧ launch1.fields.src ≠ 1 ∧
  okd ((hd 1 1).ringRead l 1 0x20000 17) = true ∧ got ((hd 1 1).ringRead l 1 0x20000 17) none = some (b 1) ∧
  (l.ringWr ≤ 1 ∧ 1 ≤ l.next + 2 ^ 1) ∧ (hd 1 1).ringOut l.ctx 0x20000 (64 + 8 * 2 ^ 1) = false ∧ ¬ 1 ≤ leNat (((b 1).set 16 0).drop 16) ∧
  okd ((hd 1 0).ringHead l 1) = true ∧ head (hd 1 0) = none ∧ head (hd 1 1) = some { wr := 1, closed := false, lg := 1 } ∧
  head (hd 0 1) = some { wr := 0, closed := false, lg := 1 } ∧ waits (raw.ringHead l 1) = true ∧
  okd ({ hd 1 1 with mpois := [(2 ^ 54 + 0x20000) / 8] }.ringRead l 1 0x20000 17) = true ∧
  got ({ hd 1 1 with mpois := [(2 ^ 54 + 0x20000) / 8] }.ringRead l 1 0x20000 17) none = none ∧
  l.next = 0 ∧ l.room ≠ 0 ∧ okd (u1.ringRead l 1 (0x20000 + 64) 8) = true ∧ (got (u1.ringRead l 1 (0x20000 + 64) 8) none).isSome = true ∧
  (u1.launches.find? 1).isSome = true ∧ (l.ready.filter fun t => t.rcd.isSome) = [] ∧ ([t].filter fun t => t.rcd.isSome) = [t] ∧ t.order = 0 ∧
  okd (r.translateRange { l.who 1 with w := .tile 1 0 } 0x20000 40 .read) = true ∧ r.piecesPoison ps = false ∧ leNat ((bs.drop 8).take 2) = 32 ∧
  leNat ((bs.drop 10).take 2) < 4 ∧ (∀ o ∈ [16, 24, 32], leNat ((bs.drop o).take 8) < 2 ^ 57) ∧ { l with srcEnd := true }.srcEnd = true ∧
  { launch1 with fields := { launch1.fields with src := 2 } }.fields.src = 2 ∧
  ((match (hd 1 1).ringHead l 1 with | .ok u _ => u.launches.find? 1 | _ => none) = some l) := by decide +kernel
/-- A launch with a ready task for all of a die, so that a task starts; nothing ready; a segment with a core that has not begun its
wait. -/
theorem witness_SchedulingAndTaskStart :
  let t := { TaskRec.ofBytes [] with code := 0x1000 }
  let s := { bare with core := Core.reset 0, launches := [(1, { launch1 with fields := { launch1.fields with rows := 8, cols := 32 }, ready := [t], srcEnd := true })], failed := 0xFFFE, ctxs := [(0, { Context.empty with live := true })] }
  let s1 := s.guardAll.pruneSuccs
  bare.guardAll.pruneSuccs.nextStart.isNone = true ∧ (s1.nextStart.map fun p => (p.1, p.2.1.code, p.2.2.1)) = some (1, 0x1000, 0) ∧ s1.succs = [] ∧
  (s1.pick none [] [] s1.ranked).isSome = true ∧ (s.launches.find? 1).isSome = true ∧ s1.segmentEnds 0 = false ∧ bare.core.ctx = launch1.ctx := by decide +kernel
/-- Records in the own share, misaligned, beyond the share and at a tag that is none; a queue number at the bound and beyond it; a
device queue that is full, one with room, one of another partition, none; task records that keep and break R282; launches full and
not. -/
theorem witness_LaunchAndTaskInstructions :
  let s := setX (setShare launched 0 (leBytes 8 0x1000 ++ List.replicate 24 0)) [(1, loc), (2, loc + 4), (3, loc + 65536), (4, 0x9000000000000000), (5, 4095), (6, 4096)]
  let k := { s with queues := [(7, queue1), (8, { queue1 with cap := 0 }), (9, { queue1 with part := 1 })] }
  let sp : Space := .share 0
  let l := (launched.launches.find? 1).getD launch1
  let t := TaskRec.ofBytes (leBytes 8 0x1000 ++ List.replicate 24 0)
  Free s { x := [1, 5] } { x := [9] } ∧ Free s { x := [1] } { x := [9] } ∧ (s.core.rx 2).toNat % 64 ≠ 0 ∧ (s.core.rx 2).toNat % 32 ≠ 0 ∧
  (tag (s.core.rx 4) ≠ 0 ∧ tag (s.core.rx 4) ≠ 8) ∧ s.resolve (s.core.rx 3) 128 = none ∧ ((s.core.rx 1).toNat % 64 = 0 ∧ tag (s.core.rx 1) = 8) ∧
  s.resolve (s.core.rx 1) 128 = some sp ∧ s.resolve (s.core.rx 1) 32 = some sp ∧ 4096 ≤ (s.core.rx 6).toNat ∧ (s.core.rx 5).toNat < 4096 ∧ comp.core.phase = .compute ∧
  s.core.phase = .exchange ∧ (got (s.readSpace sp 128) none).isSome = true ∧ (got (s.readSpace sp 32) none).isSome = true ∧
  (k.queues.find? 7 = some queue1 ∧ queue1.dev = true ∧ queue1.part = k.core.ctx / 16 ∧ queue1.recs.length < queue1.cap) ∧
  (k.queues.find? 8).map (·.cap) = some 0 ∧ (k.queues.find? 9).map (·.part) = some 1 ∧ k.queues.find? 10 = none ∧
  taskBreaks (leBytes 8 2) = true ∧ taskBreaks (leBytes 8 0x1000 ++ List.replicate 24 0) = false ∧ t.join = 0 ∧ bare.launches.find? 0 = none ∧
  (l.past = false ∧ l.exited = false ∧ l.ready.length + l.run.length < 65536) := by unfold Free; decide +kernel
/-- A launch whose task queue is full. -/
theorem full_task_queue (n : Nat) : ∃ l : Launch, l.past = false ∧ l.exited = false ∧ n ≤ l.ready.length + l.run.length :=
  ⟨{ launch1 with ready := List.replicate n (TaskRec.ofBytes []) }, rfl, rfl, by simp [launch1]⟩
theorem find_of_mem {α : Type} (k : Nat) : ∀ m : Assoc α, k ∈ m.map Prod.fst → (m.find? k).isSome = true
  | (j, a) :: m, h => by
    by_cases hj : j = k
    · simp [Assoc.find?, hj]
    · have := find_of_mem k m (by simpa [Ne.symm hj] using h)
      simp [Assoc.find?, hj, this]
theorem witness_fullTaskQueue : ∃ l : Launch, l.past = false ∧ l.exited = false ∧ 65536 ≤ l.ready.length + l.run.length := full_task_queue 65536
/-- A launch whose pending table is full. -/
theorem witness_fullPendingTable :
    { launch1 with pend := (List.range 1024).map fun k => (k, { task := TaskRec.ofBytes [], block := 0 }) }.freeEntry = none := by
  refine List.find?_eq_none.mpr fun e he => ?_
  have := find_of_mem e ((List.range 1024).map fun k => (k, ({ task := TaskRec.ofBytes [], block := 0 } : Pending))) (by simpa [pendingSize] using he)
  simpa [Option.isSome_iff_ne_none] using this
/-- A join block in bank store: unarmed with a count, unarmed at zero, armed; a block elsewhere; a pending table with room and one
without; a decrement that a launch owes. -/
theorem witness_Joins :
  let blk (c f : Nat) (l : Launch) : State :=
    setX { mapped with mem := mapped.mem.write (2 ^ 54 + 0x20000) (leBytes 8 c ++ leBytes 8 f), launches := [(1, l)]
                       core := (setShare launched 0 (leBytes 8 0x1000 ++ List.replicate 24 0)).core } [(1, 0x20000), (2, loc)]
  let s := blk 2 0 { launch1 with todo := [.join 0x20000] }
  let bad := setX s [(3, loc + 4), (4, 0x20001)]
  let ps (s : State) := got (s.translateRange s.me 0x20000 16 .read) []
  let pa := got (s.translateRange (launch1.who 1) 0x20000 16 .atomic) []
  (Free bad { x := [4, 3] } { x := [9] } ∧ Free bad { x := [4, 2] } { x := [9] } ∧ (bad.core.rx 3).toNat % 32 ≠ 0 ∧ (bad.core.rx 4).toNat % 16 ≠ 0 ∧
   s.resolve (s.core.rx 2) 32 ≠ none) ∧
  Free s { x := [1, 2] } { x := [9] } ∧ ((s.core.rx 1).toNat < 2 ^ 57 ∧ (s.core.rx 1).toNat % 16 = 0 ∧ (s.core.rx 2).toNat % 32 = 0 ∧ tag (s.core.rx 2) = 8) ∧
  s.resolve (s.core.rx 2) 32 = some (.share 0) ∧ s.core.phase = .exchange ∧ (got (s.readSpace (.share 0) 32) none).isSome = true ∧ okd (s.translateRange s.me 0x20000 16 .read) = true ∧
  ((ps s).all fun p => isBank p.hpa) = true ∧ isBank 0 = false ∧ (s.launches.find? 1).isSome = true ∧
  launch1.past = false ∧ launch1.exited = false ∧ launch1.freeEntry = some 0 ∧ s.piecesPoison (ps s) = false ∧ leNat ((s.readPieces (ps s)).take 8) = 2 ∧
  leNat (((s.readPieces (ps s)).drop 8).take 8) % 2 = 0 ∧ leNat (((blk 0 11 launch1).readPieces (ps s)).take 8) = 0 ∧
  leNat ((((blk 0 11 launch1).readPieces (ps s)).drop 8).take 8) % 2 = 1 ∧ ((s.launches.find? 1).bind fun l => l.todo.head?) = some (.join 0x20000) ∧
  launch1.todo.head? = none ∧ pa.map (·.hpa) = [2 ^ 54 + 0x20000] ∧ 1 < s.physNat (2 ^ 54 + 0x20000) 8 ∧ s.physPoison (2 ^ 54 + 0x20000) 16 = false ∧ (s.part 0).dlog = 0 := by unfold Free; decide +kernel

/-- A deadline of 100 just before and at the 128 ns that it passes at; a chain that may be diverted and one that may not; windows open
and closed; units at a map's bound and beyond it; no launch, no map. -/
theorem witness_DeadlinesAndValidity :
  let l := { launch1 with fields := { launch1.fields with deadline := 100, vmap := 0x20000 } }
  let tick (n : Nat) (s : State) : State := { s with time := { s.time with dt := BitVec.ofNat 80 (n * 2 ^ 16) } }
  let run (l : Launch) : State := { launched with launches := [(1, l)] }
  let p := { l with past := true }
  let st := tick 500 { launched with core := { launched.core with steepOn := true, steepAt := 500 } }
  let m := setX { mapped with mem := mapped.mem.write (2 ^ 54 + 0x20000) (leBytes 4 8), launches := [(1, l)], core := launched.core } [(1, 3), (2, 5), (3, 6)]
  Free m { x := [1] } {} ∧ Free m { x := [1, 2] } {} ∧ (tick 127 (run l)).late l.fields = false ∧ (tick 128 (run l)).late l.fields = true ∧
  (l.past = false ∧ l.killed = false ∧ l.ending = false) ∧ (run l).launches.find? 1 = some l ∧ launched.core.launch.toNat = 1 ∧
  (launched.core.chain.leader = 0 ∧ launched.core.chain.rows = 1 ∧ launched.core.chain.cols = 1 ∧ launched.core.feed = [] ∧ launched.core.frame = none) ∧
  (run l).divertible 0 l = false ∧ (run p).divertible 0 p = true ∧ launched.nets = [] ∧ (st.steepers 0).map (fun c => (c.steepOn, decide (c.steepAt ≤ st.now))) = [(true, true)] ∧
  (tick 499 st).steepers 0 = [] ∧
  (l.fields.vmap ≠ 0 ∧ l.fields.vmap % 64 = 0) ∧ m.badPage 0x20000 64 = false ∧ m.headerUnits 0x20000 = some 8 ∧ 3 + 5 ≤ 8 ∧ ¬ 3 + 6 ≤ 8 ∧ m.core.phase = .exchange ∧
  okd (m.readVa m.me 0x20000 4) = true ∧ leNat (got (m.readVa m.me 0x20000 4) []) = 8 ∧ m.badPage (0x20000 + 64) 2 = false ∧
  okd (m.translateRange m.me (0x20000 + 64) 2 .atomic) = true ∧ bare.launches.find? 0 = none := by unfold Free; decide +kernel
/-- A machine that has a trap ring, with a handler, without one, with a debugger's bit, and one whose ring is full; a core in a handler that comes back, and
one in none; a chain of two. -/
theorem witness_TrapEntryAndReturn :
  let r : Raised := { cause := 0x0A, addr := 0, info0 := 5, info1 := 0, after := true }
  let post (s : State) : State :=
    let s1 := s.upd fun c => { c with raised := some r }
    (((s1.dropWaiter 0 (.core 0)).settleOps 0).modCore 0 Core.halts).post 0 [(s1.core.trapRec r false, some 0)]
  let word (s : State) : Option (Option Word) := (post s).core.raised.map (·.word)
  let z (s : State) : State := (post s).modCore 0 (Core.stopped 0)
  let full := { handled with mem := handled.mem.write (2 ^ 54 + 0x10000) (leBytes 8 2) }
  let set (b : List Nat) : State := { handled with mem := handled.mem.write (2 ^ 54 + 0x10018) (b.map (BitVec.ofNat 8)) }
  let t := ran (.trap 5) handled
  let back := { t.upd fun c => { c with tlb := [{ ctx := 0, vpage := 0, gpa := 2 ^ 55, hpa := 2 ^ 55, size := 32768, bits := 5, set := 0, vsize := 32768, gsize := 32768 }] } with
                scans := [(2 ^ 40, .passed (2 ^ 0x401))] }
  (handled.core.chain.leader = 0 ∧ handled.core.chain.rows = 1 ∧ handled.core.chain.cols = 1 ∧ handled.core.frame = none ∧ handled.core.role = .running ∧
   handled.core.contained = false) ∧ word handled = some (some 0x1000A) ∧ word full = some none ∧ (z handled).handler 0 = (0x8000, false) ∧
  word (set [0, 0]) = some (some 0x1000A) ∧ ((z (set [0, 0])).handler 0).1 = 0 ∧ (z (set [0, 0x80, 0, 0, 0, 0, 0, 0, 1])).handler 0 = (0x8000, true) ∧
  t.core.frame.isSome = true ∧ t.core.phase = .exchange ∧ t.core.members ≤ 1 ∧ fetched (back.enter 0x1004) = true ∧ bare.core.frame = none ∧ 1 < pair.core.members ∧
  Free bare { x := [1] } {} := by unfold Free; decide +kernel
/-- A pending request and none; descriptors at a share's last 64 bytes, beyond it, misaligned, with a bad part; a ring with room, one
that holds all it can, one that is unmapped; a record that waits, one that has waited 1 µs. -/
theorem witness_LivePointsAndTrapRings :
  let ok := leBytes 8 0 ++ List.replicate 56 0
  let s := setX (setShare (setShare bare 65472 ok) 64 (ok.set 11 2)) [(1, loc + 65472), (2, loc + 65536), (3, loc + 32), (4, loc + 64)]
  let p := { s with ctxs := [(0, { Context.empty with live := true, pre := some { at_ := 0, g := 50, k := 500, halt := none } })] }
  let rg (prod cons : Nat) : State := { handled with mem := handled.mem.write (2 ^ 54 + 0x10000) (leBytes 8 prod ++ leBytes 8 cons) }
  let put (s : State) : Nat := match s.ringPut 0 (List.replicate 64 0) with | .wrote _ _ => 0 | .full _ => 1 | .fault _ => 2
  let w : WaitRec := { bytes := List.replicate 64 0, at_ := 0 }
  let q := handled.modCtx 0 fun c => { c with wrecs := [w] }
  Free s { x := [1] } { x := [5] } ∧ Free s {} { x := [5] } ∧ s.livePending = false ∧ p.livePending = true ∧ (s.core.pend = [] ∧ s.core.late = []) ∧
  (ran (.trap 5) handled).core.frame.isSome = true ∧ s.core.frame = none ∧
  ((s.core.rx 1).toNat % 64 = 0 ∧ tag (s.core.rx 1) = 8 ∧ offset (s.core.rx 1) + 64 ≤ s.core.shareSize) ∧ ¬ (offset (s.core.rx 2) + 64 ≤ s.core.shareSize) ∧
  ¬ ((s.core.rx 3).toNat % 64 = 0) ∧ s.core.sharePoisoned 65472 64 = false ∧ liveBad 65536 (s.core.shareRead 65472 64) = false ∧ liveBad 65536 (s.core.shareRead 64 64) = true ∧
  comp.core.phase = .compute ∧ s.core.phase = .exchange ∧ handled.ringAt 0 0x10000 40 .write = some [(2 ^ 54 + 0x10000, 40)] ∧ bare.ringAt 0 0 40 .write = none ∧
  put (rg 1 0) = 0 ∧ put (rg 2 0) = 1 ∧ put (rg 0 1) = 1 ∧ put bare = 2 ∧ (rg 1 0).ringAt 0 (0x10000 + 64 + 64 * (1 % 2 ^ 1)) 64 .write = some [(2 ^ 54 + 0x10000 + 128, 64)] ∧
  handled.placesNat (cutPlaces [(2 ^ 54 + 0x10000, 40)] 0 8) = 0 ∧ ((handled.context 0).cons = 0 ∧ 2 ^ (handled.context 0).tlg = 2) ∧
  handled.deadMem (2 ^ 54 + 0x10000) = false ∧ (recordNumbered (List.replicate 64 0) false 1).length = 64 ∧ (handled.context 0).wrecs = [] ∧ (q.context 0).wrecs = [w] ∧
  { w with who := some 0 }.who = some 0 ∧ q.recHeld w = false ∧ handled.recHeld { w with who := some 0 } = false ∧
  (handled.modCore 0 fun c => { c with role := .saved }).recHeld { w with who := some 0 } = true ∧ w.tired 999 = false ∧ w.tired 1000 = true := by unfold Free; decide +kernel
/-- A context with no request, with one whose times have not come and have come; cores still running and all stopped; areas with room,
one whose state is 2; a task that is away, with a place for it and with none. -/
theorem witness_PreemptionAndSaves :
  let c := { Context.empty with live := true, pinA := [2 ^ 54], pinB := [2 ^ 54 + 32768], pre := some { at_ := 0, g := 50, k := 500, halt := none } }
  let tick (n : Nat) (s : State) : State := { s with time := { s.time with dt := BitVec.ofNat 80 (n * 2 ^ 16) } }
  let s := { bare with ctxs := [(0, c)] }
  let h := { bare.upd fun c => { c with role := .saved, shareSize := 0 } with
             ctxs := [(0, { c with pinA := (List.range 8).map fun i => 2 ^ 54 + 32768 * i, saved := [{ id := 0, live := false, desc := [] }] })] }
  let i := { s with core := Core.reset 0 }
  let a := { i with mem := i.mem.write (2 ^ 54) (leBytes 8 2 ++ leBytes 8 4) }
  let away : RunTask := { task := TaskRec.ofBytes [], origin := 65536, rows := 1, cols := 1, left := [65536] }
  (bare.context 0).pre = none ∧ (s.context 0).pre.isSome = true ∧ (tick 49999 s).now < 50000 ∧ 50000 ≤ (tick 50000 s).now ∧ 500000 ≤ (tick 500000 s).now ∧
  (s.others = [] ∧ s.core.ctx = 0 ∧ s.core.role = .running ∧ s.core.contained = false ∧ s.nets = []) ∧ s.unsaved 0 = true ∧ i.unsaved 0 = false ∧
  s.saveReady 0 = false ∧ h.saveReady 0 = true ∧ (h.context 0).badA = false ∧ h.areaOk (h.context 0).pinA 0 (h.layout (h.stillSaved 0)).used = true ∧
  s.nextAway 0 = none ∧ ({ i with launches := [(1, { launch1 with run := [away] })] }.nextAway 0) = some (1, away) ∧ i.resumeArea c = none ∧
  a.resumeArea c = some [2 ^ 54] ∧ a.areaNat [2 ^ 54] 0 8 = 2 ∧ s.core.route = none ∧ (a.awayFits launch1 away 0).isSome = true ∧
  s.awayFits launch1 away 0 = none := by decide +kernel

/-- A replica of expert 0 on core 1, and a table with it in version 1. -/
def replica1 : Replica := { core := 1, cap := 4, wbase := 0, gbase := 0, serial := 5, set := none }
def table1 : RTable :=
  { ctx := 0, home := 0, merge := false, fixed := false, ival := 1, hot := 0, cold := 0, cur := 1
    vers := [(1, [{ pol := false, wbytes := 16, gbytes := 16, reps := [replica1] }])], serial := 6, bases := [], drain := [], loads := [], copies := []
    due := 1000, retire := [], pub := false }
/-- The machine with it, and its networks: tokens in flight, spreading, capacity. -/
def routed : State :=
  { bare with tables := [(3, table1)], nets := [(.flight 3 1, fresh4), (.spread 3 0, fresh4), (.cap 3 5, fresh4)] }
/-- A table, none, a number beyond 63; slots empty and taken; intervals before and at their end; publications with and without a
change, with a fifth version; a replica that drains. -/
theorem witness_ReplicaPinsAndPlacement :
  let s := setX routed [(1, 3), (2, 64), (3, 4)]
  let held := s.upd fun c => { c with pins := c.pins.set 2 (some { tbl := 3, ver := 1 }) }
  let tick (n : Nat) (s : State) : State := { s with time := { s.time with dt := BitVec.ofNat 80 (n * 2 ^ 16) } }
  let five := { table1 with vers := (List.range 5).map fun k => (k + 1, []), retire := [(0, 5)] }
  let pins : State := { s with tables := [(3, five)], nets := (List.range 4).map fun k => (NetKey.flight 3 (k + 1), { fresh4 with exits := [4, 1, 2, 3] }) }
  let out := { table1 with drain := [(0, replica1)], vers := [(2, [])] }
  Free s { x := [1] } { x := [5] } ∧ s.tableOf (s.core.rx 1) = some (3, table1) ∧ s.tableOf (s.core.rx 2) = none ∧ s.tableOf (s.core.rx 3) = none ∧
  comp.core.phase = .compute ∧ s.core.phase = .exchange ∧ s.core.pins[(2 : Fin 4)] = none ∧ held.core.pins[(2 : Fin 4)] = some { tbl := 3, ver := 1 } ∧ s.adoptedVer 3 table1 = 1 ∧
  (s.count1 (.flight 3 1) 0 false).2 = some 0 ∧ (s.count1 (.flight (64 * (s.core.ctx / 16) + 3) 1) 0 true).2.isSome = true ∧ Free s {} { x := [5] } ∧
  s.tables.find? 3 = some table1 ∧ (tick 999 s).now < table1.due ∧ table1.due ≤ (tick 1000 s).now ∧ table1.fixed = false ∧ { table1 with fixed := true }.fixed = true ∧
  table1.copies = [] ∧ table1.pub = false ∧ { table1 with pub := true }.pub = true ∧ s.nextExperts table1 = table1.at_ 1 ∧ s.nextExperts { table1 with retire := [(0, 5)] } ≠ table1.at_ 1 ∧
  s.fifth 3 = false ∧ pins.fifth 3 = true ∧ (table1.drain.find? fun q => q.2.serial = 5) = none ∧ (out.drain.find? fun q => q.2.serial = 5) = some (0, replica1) ∧
  fresh4.quiet = true ∧ { fresh4 with ops := [{ core := 0, ctx := 0, anti := false, wire := 0, pos := .wire 0, value := none, dead := false }] }.quiet = false ∧
  (out.vers.any fun v => listed v.2 5 && s.pinned 3 v.1) = false := by unfold Free; decide +kernel
/-- Choices of expert 0, of none and beyond the table, with a pinned slot and an empty one, with nothing else scheduled and with
another turn; a masked-off row; a round to be closed, of an expert or a core that has no replica, with a quiet network and one that is
not; an expert whose replica is live, with room and without, and one that has no live replica. -/
theorem witness_Routing :
  let s := setX (setV (setVs routed 2 1 8) [(1, quads [0, 0xFFFFFFFF]), (2, quads [1, 0]), (5, 0)]) [(1, 3 + 2 ^ 32), (2, 3 + 2 ^ 16 + 2 ^ 32)]
  let h := s.upd fun c => { c with pins := c.pins.set 2 (some { tbl := 3, ver := 1 }) }
  let g := { h with agenda := [.turn 0] }
  let es := table1.at_ 1
  let run (redir : Bool) : RouteRun := { redir := redir, d := 4, tbl := 3, ver := 1, a := h.core.rv 1, kc := 1, p := h.core.rp 0, z := false, rows := 2 }
  let w := (s.core.rx 1).toNat
  let c1 := (s.count1 (.spread 3 0) 0 false)
  let c2 := c1.1.count1 (.cap 3 5) 0 false
  let dead := { s with failed := 1 }
  let live (s : State) := replica1 :: [] |>.zipIdx.filter fun q => !s.failed.getLsbD q.1.die
  Free s { v := [1], p := [0] } { v := [4] } ∧ s.core.phase = .exchange ∧ s.core.route = none ∧ s.core.pins[(2 : Fin 4)] = none ∧
  h.core.pins[(2 : Fin 4)] = some { tbl := 3, ver := 1 } ∧ s.agenda = [] ∧ g.agenda ≠ [] ∧
  es.length = 1 ∧ tileBytes (s.core.rv 1) 0 4 = 0 ∧ tileBytes (s.core.rv 1) 4 4 = 0xFFFFFFFF ∧ tileBytes (s.core.rv 2) 0 4 = 1 ∧ s.core.rows = 2 ∧
  ((h.routeRest 0 2 (run false)).2).isSome = true ∧ ((h.routeRest 0 2 (run true)).2).isSome = true ∧ ((g.routeNext 0 (run false)).2).isSome = true ∧
  tileBytes (s.core.rv 5) 0 8 / 2 ^ 40 % 512 = 0 ∧ tileBytes (s.core.rv 5) 8 8 / 2 ^ 40 % 512 = 0 ∧
  ({ run false with p := 0 }.p.getLsbD 0 = false ∧ (run false).mask = 0 ∧ (run false).val = 0) ∧
  Free s { x := [1] } { x := [5] } ∧ (w / 2 ^ 6 % 2 ^ 10 = 0 ∧ w / 2 ^ 25 % 2 ^ 7 = 0 ∧ w / 2 ^ 44 = 0) ∧
  s.tableOf (BitVec.ofNat 64 (w % 64)) = some (3, table1) ∧ s.closing 3 table1 0 1 = some replica1 ∧ s.closing 3 table1 1 1 = none ∧ s.net (.cap 3 5) = some fresh4 ∧
  fresh4.lost = false ∧ fresh4.quiet = true ∧ { fresh4 with ops := [{ core := 0, ctx := 0, anti := false, wire := 0, pos := .wire 0, value := none, dead := false }] }.quiet = false ∧
  es[0]? = some { pol := false, wbytes := 16, gbytes := 16, reps := [replica1] } ∧ live s = [(replica1, 0)] ∧ live dead = [] ∧
  c1.2 = some 0 ∧ c2.2 = some 0 ∧ (0 : Word).toNat < replica1.cap ∧ { replica1 with cap := 0 }.cap ≤ (0 : Word).toNat := by unfold Free; decide +kernel

/-- A geometry that admits the type in force and one that does not (an integer type for a float's operation, a shape whose tile is too
long); the checks of `VSHF`, `VCVT` and `VCLAMP` at their bounds; the rounding modes; registers free. -/
theorem witness_VectorElementwise :
  let s := setVs bare 32 32 0
  let f := setVs bare 1 8 8
  let sr := (setVs bare 1 8 8).upd fun c => { c with frm := 4 }
  Free s { v := [1, 2, 3], p := [1] } { v := [4] } ∧ Free s { x := [1], v := [1, 2], p := [1] } { v := [4] } ∧ Free s { p := [1] } { v := [4] } ∧
  s.core.geo none Ty.isElem = some { rows := 32, cols := 32, ty := .n8 } ∧ s.core.geo none Ty.isFloat = none ∧ s.core.geo (some .f32) Ty.isElem = none ∧
  f.core.geo none Ty.isFloat = some { rows := 1, cols := 8, ty := .f32 } ∧ f.core.geo none Ty.isInt = none ∧
  (7 < tyBits Ty.n8 ∧ ¬ 8 < tyBits Ty.n8) ∧ (32 * 32 * Ty.n8.size ≤ 1024 ∧ ¬ 32 * 32 * Ty.f32.size ≤ 1024) ∧ (Ty.f32.size ≠ 8 ∧ Ty.n64.size = 8) ∧
  (sr.core.how .frm).mode = .sr ∧ (f.core.how .frm).mode ≠ .sr := by unfold Free; decide +kernel
/-- The extremes of a signed and of an unsigned type, a sum inside and outside the range, shifts at their bound. -/
theorem witness_IntegerElementOperations :
  Ty.isInt .s8 = true ∧ Ty.isInt .n64 = true ∧ 255 < 2 ^ tyBits Ty.s8 ∧ 2 ^ 64 - 1 < 2 ^ tyBits Ty.n64 ∧ 7 < tyBits Ty.s8 ∧
  (addElt false true .s8 { mode := .rne, seed := 0 } 0 0 127 1).flags = 32 ∧ (addElt false true .s8 { mode := .rne, seed := 0 } 0 0 126 1).flags = 0 := by
  decide +kernel
/-- Shapes that are square enough to transpose and not, with columns and with none; indices at the last element and beyond; legal and
illegal shapes. -/
theorem witness_VectorMovesAndElements :
  let s := setX (setVs bare 2 32 0) [(1, 31), (2, 1), (3, 32), (4, 2)]
  let w := setVs bare 1 33 0
  let g : Geo := { rows := 2, cols := 32, ty := .n8 }
  Free s { v := [1, 2], p := [1] } { v := [4] } ∧ Free s { x := [5], p := [1] } { v := [4] } ∧ Free s { p := [0, 1] } { v := [4] } ∧ Free s { v := [1] } { p := [2] } ∧
  s.core.geo none Ty.isElem = some g ∧ w.core.geo none Ty.isElem = some { rows := 1, cols := 33, ty := .n8 } ∧ s.core.geo (some .f32) Ty.isInt = none ∧
  s.core.geo (some .f32) Ty.isElem = some { rows := 2, cols := 32, ty := .f32 } ∧ 0 < g.cols ∧
  vsLegal (BitVec.ofNat 64 (32 + 2 ^ 16 * 8 + 2 ^ 32 * 8)) = true ∧ vsLegal (BitVec.ofNat 64 (32 + 2 ^ 16 * 9 + 2 ^ 32 * 8)) = false ∧
  Free s { x := [1, 2], v := [1] } { x := [5] } ∧ Free s { x := [5, 1, 2] } { v := [1] } ∧ ((s.core.rx 1).toNat < g.cols ∧ (s.core.rx 2).toNat < g.rows) ∧
  g.cols ≤ (s.core.rx 3).toNat ∧ g.rows ≤ (s.core.rx 4).toNat := by unfold Free; decide +kernel
/-- Shapes whose columns are whole blocks, and not; records that fit, and not; groups of a dot product. -/
theorem witness_VectorCombining :
  let s := setVs bare 8 32 8
  let t := setVs bare 8 31 8
  let g : Geo := { rows := 8, cols := 32, ty := .f32 }
  Free s { v := [1, 2, 3], p := [1] } { v := [4] } ∧ s.core.geo none Ty.isIF = some g ∧ s.core.geo none Ty.isFloat = some g ∧ t.core.geo none Ty.isIF = some { g with cols := 31 } ∧
  (g.cols % 32 = 0 ∧ g.rows * (g.cols / 32) * Ty.mx8.size ≤ 1024) ∧ ¬ 31 % 32 = 0 ∧ (setVs bare 2 8 0).core.geo none Ty.isIF = some { rows := 2, cols := 8, ty := .n8 } ∧
  8 % (4 / Ty.n8.size) = 0 ∧ ¬ 7 % (4 / Ty.n8.size) = 0 ∧ s.core.geo none Ty.isInt = none := by unfold Free; decide +kernel
/-- A tile in the own share up to its last byte, one beyond it, one misaligned, one in bank store, with rows masked off. -/
theorem witness_TileLoadsAndStores :
  let s := setP (setX (setVs banked 2 8 8) [(1, loc + 65472), (2, loc + 65473), (3, loc + 65488), (4, 0x10000)]) [(1, 1)]
  let sp := (s.resolve (s.core.rx 4) 64).getD (.share 0)
  Free s { x := [1], p := [1] } { v := [4] } ∧ Free s { x := [1, 5], p := [1] } { v := [4] } ∧ Free s { x := [1], v := [4], p := [1] } {} ∧ Free s { x := [1, 5], v := [4], p := [1] } {} ∧
  s.core.geo none Ty.isElem = some { rows := 2, cols := 8, ty := .f32 } ∧ (s.core.rx 2).toNat % 4 ≠ 0 ∧ s.resolve (s.core.rx 3) 64 = none ∧
  ((s.core.rx 1).toNat % 4 = 0 ∧ tag (s.core.rx 1) = 8 ∧ offset (s.core.rx 1) + 64 ≤ s.core.shareSize) ∧ s.core.sharePoisoned 65472 64 = false ∧ s.core.pend = [] ∧
  sp.isShare = false ∧ (s.resolve (s.core.rx 4) 64).isSome = true ∧ comp.core.phase = .compute ∧ s.core.phase = .exchange ∧
  okd (s.places .read ([0].map fun r => (sp.plus (r * 32), 32))) = true ∧ okd (s.places .write ([0].map fun r => (sp.plus (r * 32), 32))) = true ∧
  ((s.readPlaces (got (s.places .read ([0].map fun r => (sp.plus (r * 32), 32))) [])).2).isSome = true := by unfold Free; decide +kernel

/-- Records that pass every check and one of another type, a place that holds none; a window partly outside the extents. -/
theorem witness_ShapedTiles :
  let g : Geo := { rows := 2, cols := 8, ty := .f32 }
  let r := shapeRec (loc + 1024) 8 7 2 4 32
  let s := setX (setShare (setShare (setVs bare 2 8 8) 0 r) 64 (shapeRec (loc + 1024) 9 7 2 4 32)) [(1, loc), (2, loc + 64), (3, loc + 65536), (4, 0)]
  let h := Shape.ofBytes r
  let w := Win.of 8 2 0 0 0 0
  let b := Shape.ofBytes (shapeRec (loc + 1024) 9 7 2 4 32)
  Free s { x := [1, 4, 4], p := [1] } { v := [3] } ∧ Free s { x := [1, 4, 4], v := [3], p := [1] } {} ∧ s.core.geo none Ty.isElem = some g ∧
  s.core.shapeAt (s.core.rx 1) = some r ∧ s.core.shapeAt (s.core.rx 3) = none ∧ s.judge b w (fun t => t = g.ty) false = .fails 2 ∧
  s.judge b w (fun t => t = g.ty) true = .fails 2 ∧ s.judge h w (fun t => t = g.ty) false = .moves ∧ s.judge h w (fun t => t = g.ty) true = .moves ∧
  (tag h.base = 8 ∧ baseOffset h.base < s.core.shareSize) ∧ ((h.units w).map fun u => u.isSome) = List.replicate 7 true ++ [false] ++ List.replicate 7 true ++ [false] ∧
  s.core.recordBad (s.core.rx 1) = false ∧ (s.upd fun c => { c with poison := [0] }).core.recordBad (s.core.rx 1) = true ∧
  s.core.poison = [] ∧ s.core.pend = [] := by unfold Free; decide +kernel
/-- A consuming load of full granules and of an empty one, misaligned and at the share's end; element addresses that are the
share's, one that is outside every space and one that is global; heaps that fit in the share and in the window, and not; an element type
of four bytes and of one; a heap that a key enters and one that it does not. -/
theorem witness_OtherTileAccesses :
  let g : Geo := { rows := 1, cols := 4, ty := .f32 }
  let s := setX (setV ((setVs bare 1 4 8).upd fun c => { c with full := [4095] }) [(1, quads [0, 1, 16383, 2]), (2, quads [0xFFFFFFFF, 0, 0, 0])])
    [(1, loc + 65520), (2, loc + 65528), (3, loc), (4, 3), (5, 4), (6, loc + 65408)]
  let b := setVs s 1 4 0
  let v := setX (setV (setVs mapped 1 4 8) [(1, quads [0, 1, 2, 3])]) [(3, 0x20000)]
  let lv := match v.places? 4 (indexed v.core g 3 1 (v.core.rp 0)) with | .ok l => l | .error _ => []
  let hp : Heap := [(0, 1), (0x3F800000, 2)]
  let l (r : VReg) := match s.places? 4 (indexed s.core g 3 r (s.core.rp 0)) with | .ok l => some l | .error _ => none
  Free s { x := [1], p := [1] } { v := [3] } ∧ Free s { x := [3], v := [1], p := [1] } { v := [4] } ∧ Free s { x := [3], v := [1, 2], p := [1] } {} ∧
  Free s { x := [3, 4], v := [1, 2], p := [1] } {} ∧ s.core.geo none Ty.isElem = some g ∧ b.core.geo none Ty.isElem = some { g with ty := .n8 } ∧
  ((s.core.rx 1).toNat % 16 = 0 ∧ tag (s.core.rx 1) = 8 ∧ offset (s.core.rx 1) + 16 ≤ s.core.shareSize) ∧ (s.core.rx 2).toNat % 16 ≠ 0 ∧ comp.core.phase = .compute ∧
  s.core.phase = .exchange ∧ granules 65520 16 = [4095] ∧ s.core.full.contains 4095 = true ∧ s.core.full.contains 0 = false ∧ s.core.sharePoisoned 65520 16 = false ∧
  ((l 1).map fun l => l.all fun q => q.2.isShare) = some true ∧ (l 2).isNone = true ∧
  ((l 1).map fun l => okd (s.places .read (l.map fun q => (q.2, 4)))) = some true ∧ s.core.pend = [] ∧ ((s.core.rx 4).toNat < g.cols ∧ g.cols ≤ (s.core.rx 5).toNat) ∧
  ((s.core.rx 6).toNat % 8 = 0 ∧ tag (s.core.rx 6) = 8 ∧ offset (s.core.rx 6) + 128 * g.rows ≤ s.core.shareSize) ∧
  (lv.length = 4 ∧ (lv.all fun q => q.2.isShare) = false ∧ okd (v.places .read (lv.map fun q => (q.2, 4))) = true ∧ v.core.phase = .exchange) ∧
  (tag (9 * 2 ^ 60) = 9 ∧ offset (9 * 2 ^ 60) + 128 * g.rows ≤ s.winSize ∧ s.stores = [] ∧ (s.cluster 0).wpois = []) ∧
  (0 + 128 ≤ s.core.shareSize ∧ s.core.sharePoisoned 0 (8 * 16) = false) ∧ hp.key 0 < heapKey 0x3F800000 ∧ heapKey 0xFF800000 ≤ hp.key 0 ∧
  (∀ i < 2, ∀ j < 2, j = 2 * i + 1 ∨ j = 2 * i + 2 → hp.key i ≤ hp.key j) := by unfold Free; decide +kernel
/-- Commands that pass their checks and that fail each; a queue with room and one that is full; maps legal and illegal; quadrants held
and not. -/
theorem witness_MatrixCommandsAndStatus :
  let s := setX (setShare (setShare (bare.upd fun c => { c with held := 0b1111 }) 0 (shapeRec (loc + 1024) 10 8 4 1 16)) 64 (shapeRec 0x20000 10 8 4 1 16))
    [(1, loc), (2, loc + 65536), (3, 256), (4, 0), (5, 257), (6, loc + 8), (7, 8), (8, 8 + 4 * 2 ^ 32), (9, 2 ^ 44), (10, loc + 64), (11, 256 * 256)]
  let z := (ran (.mzero .own 0) (ran (.mzero .own 0) s)).core
  let r := shapeRec (loc + 1024) 10 8 4 1 16
  let h := Shape.ofBytes r
  let w := Win.of 8 4 0 0 0 0
  let ty := (h.ty.getD .n8)
  Free s { x := [1, 4, 4], p := [0] } {} ∧ Free s { x := [1, 1, 10, 6, 8], p := [0] } {} ∧ (s.core.rp 0).getLsbD 0 = true ∧ (s.core.rp 1).getLsbD 0 = false ∧ z.matrix.length = 2 ∧
  s.core.matrix.length = 0 ∧ s.core.shapeAt (s.core.rx 1) = some r ∧ s.core.shapeAt (s.core.rx 2) = none ∧ s.judge h w (fun t => t.isMat && matWhole t 8) false = .moves ∧
  s.judge (Shape.ofBytes (shapeRec (loc + 1024) 8 8 4 1 16)) w (fun t => t.isMat && matWhole t 8) false = .fails 2 ∧ s.core.holdsQuad (s.core.quadOf .own) = true ∧
  bare.core.holdsQuad (bare.core.quadOf .own) = false ∧ s.core.holdsQuad (s.core.bankOf .own).1 = true ∧ bare.core.holdsQuad (bare.core.bankOf .own).1 = false ∧
  ((s.core.rx 3).toNat ≤ 256 ∧ (s.core.rx 4).toNat + (s.core.rx 3).toNat ≤ 256) ∧ 256 < (s.core.rx 5).toNat ∧
  ((s.core.rx 1).toNat % 16 = 0 ∧ tag (s.core.rx 1) = 8 ∧ offset (s.core.rx 1) + 1 ≤ s.core.shareSize) ∧ ¬ offset (s.core.rx 2) + 1 ≤ s.core.shareSize ∧
  ((s.core.rx 6).toNat % 8 = 0 ∧ (s.core.rx 6).toNat % 16 ≠ 0) ∧ ¬ (s.core.rx 9).toNat < 2 ^ 44 ∧ (s.core.rx 11).toNat / 256 = 256 ∧
  (∀ q < 4, (groupOf 1 q).members.length ≤ 1 ∨ s.core.holdsQuad q = true) ∧ ¬ (∀ q < 4, (groupOf 1 q).members.length ≤ 1 ∨ bare.core.holdsQuad q = true) ∧
  (∀ g < 8, (0x0706050403020100 : Word).toNat / 2 ^ (8 * g) % 2 ^ 8 < 8) ∧ ¬ (∀ g < 8, (8 : Word).toNat / 2 ^ (8 * g) % 2 ^ 8 < 8) ∧
  (let n := (s.core.rx 8).toNat; 0 < n % 2 ^ 24 ∧ 0 < n / 2 ^ 32 % 2 ^ 24 ∧ n / 2 ^ 24 % 2 ^ 8 = 0 ∧ n / 2 ^ 56 = 0 ∧ matWhole ty 8 = true) ∧
  ¬ 0 < (s.core.rx 7).toNat / 2 ^ 32 % 2 ^ 24 ∧ (tag (Shape.ofBytes (shapeRec 0x20000 10 8 4 1 16)).base = 0 ∧ tag h.base ≠ 0) ∧ (ty.isMat = true ∧ matClass ty = matClass ty) ∧
  s.core.recordBad (s.core.rx 1) = false ∧ (s.upd fun c => { c with poison := [0] }).core.recordBad (s.core.rx 1) = true ∧
  matClass .f16 ≠ matClass .mx8 ∧ Free s {} { x := [5] } ∧ comp.core.phase = .compute ∧ s.core.phase = .exchange ∧ s.core.mErr = none := by unfold Free; decide +kernel
/-- A cluster with one requester: at the bank's place and away from it, with a failed quadrant, with weights latched and rows of A in
the share up to its end; a mode that changes a group and one that does not. -/
theorem witness_MatrixTurns :
  let h := bare.upd fun c => { c with held := 0b1111 }
  let z := ran (.mzero .own 0) h
  let a := ran (.mma false true .f16 .own 1 2 3 1 0) (setX h [(1, loc + 65520), (2, 1), (3, 255)])
  let k := a.modCluster 0 fun k => k.modQuads [0] fun q => { q with valid := true, ty := .f16, k := 4, n := 2 }
  let bad := z.modCluster 0 fun k => k.modQuads [0] fun q => { q with failed := true }
  let m := a.core.matrix.headD { ins := .done, seq := 0, ops := [], shape := [], frm := 0, seed := 0, done := 0 }
  let g := groupOf 0 0
  (z.core.matrix.map (·.ins)) = [.mzero .own 0] ∧ (∀ i < 8, i ≠ 0 → (z.coreAt i).matrix = []) ∧ z.core.bankOf .own = (0, 0) ∧ 0 % 8 = 2 * g.home + 0 ∧
  z.core.bankOf (.acc 1 3) = (3, 1) ∧ (bad.core.matrix.length = 1 ∧ ((bad.cluster 0).quad 0).failed = true) ∧ (z.coreAt 0).mErr = none ∧
  ((ran (.mfuse 1 0) h).core.matrix.map fun m => (m.ins, m.begun)) = [(.mfuse 1 0, false)] ∧ (h.cluster 0).mode < 8 ∧
  (∀ q < 4, (groupOf 1 q).members.length ≤ 1 ∨ h.core.holdsQuad q = true) ∧ bare.core.holdsQuad 0 = false ∧ groupOf 0 0 ≠ groupOf 1 0 ∧ groupOf 0 0 = groupOf 0 0 ∧ m.ins = .mma false true .f16 .own 1 2 3 1 0 ∧ m.done = 0 ∧
  (∀ i ∈ g.members, ((k.cluster 0).quad i).failed = false ∧ ((k.cluster 0).quad i).struck = []) ∧ ((k.cluster 0).quad 0).valid = true ∧ matClass .f16 = matClass ((k.cluster 0).quad 0).ty ∧
  (4 ≤ g.kMax .f16 ∧ 2 ≤ g.nMax ∧ matWhole .f16 4 = true) ∧ (m.ops.getD 1 0).toNat = 1 ∧ (m.ops.getD 0 0).toNat + matRow .f16 4 ≤ k.core.shareSize ∧
  k.core.sharePoisoned (m.ops.getD 0 0).toNat (matRow .f16 4) = false ∧ (k.cluster 0).rowPoisoned g 0 255 2 = false ∧
  (z.focus 0).judge (Shape.ofBytes (shapeRec 0x20000 0x29 8 4 1 16)) (Win.of 8 4 0 0 0 0) Ty.isMat false = .fails 2 := by decide +kernel
/-- Types that accumulate one product at a time and types that accumulate blocks, a whole block and one element of it, scales that are
numbers and one that is NaN. -/
theorem witness_MatrixAccumulation :
  (matBlock .f16 = false ∧ matBlock .bf16 = false) ∧ matBlock .mx8 = true ∧ matBlock .e4m3 = true ∧ rowScale .mx8 (0x7F :: List.replicate 32 0) 0 = some (1, 1) ∧
  rowScale .mx8 (255 :: List.replicate 32 0) 0 = none ∧ rowScale .e4m3 [0x38] 0 = some (1, 1) := by decide +kernel

/-- The map of `mapped` onto the first 128 MiB of stack memory. -/
def stacked : State :=
  let m := (mapped.mem.write 0x100000 (leBytes 8 0x108001)).write 0x108000 (leBytes 8 0x37)
  { mapped with mem := m.write (2 ^ 54 + 0x210000) (leBytes 8 0x37) }
/-- An empty stack, one whose head waits for a page, one whose rows of B are all translated and lie in a stack each, results that land. -/
theorem witness_NearBankProducts :
  let x : StackCmd := { core := 0, ctx := 0, launch := 0, data := [List.replicate 8 0], prev := 0, rep := false
                        cmd := { ins := .mvb .f32 .f16 .frm 1 2 3 4 5 0 0, seq := 3, ops := [256, 0, 0, 64, 4 + 2 * 2 ^ 32], shape := shapeRec 0x20000 10 4 2 1 4, frm := 0, seed := 0, done := 0 } }
  let s := { stacked with stack := [x] }
  let w := { bare with stack := [x] }
  let h := Shape.ofBytes x.cmd.shape
  let tr (s : State) := ((s.focus 0).upd fun c => { c with ctx := x.ctx, launch := x.launch }).readWindow x.cmd.seq h (Win.of 4 2 0 0 0 0) x.xfer
  let held := (tr s).2.1.held
  let st : DrainItem := { dest := 0, off := 64, data := [], stamp := some (1, 2) }
  let g : DrainItem := { dest := 0, off := 256, data := List.replicate 16 7 }
  bare.stack = [] ∧ s.stack = [x] ∧ matUnits .f16 4 = 4 ∧ x.xfer = {} ∧ (tr s).2.2 = true ∧ (tr s).2.1.fail = none ∧ held.length = 2 * 4 ∧
  (∀ i < 2, oneStack ((held.drop (i * 4)).take 4) = true) ∧ (tr { w with ctxs := stacked.ctxs }).2.2 = false ∧ 16 % Ty.f32.size = 0 ∧
  x.out = none ∧ (s.coreAt 0).launch = x.launch ∧ (∀ i ∈ [g, st], i.dest = 0 ∧ i.off < (s.coreAt 0).shareSize) ∧ g.stamp = none ∧ { x with out := some [st] }.is x = true := by decide +kernel
/-- A die of the partition and dies beyond the bounds; quotas with room and used up; all engines held and some free; leases held by the
core, ended, expired; descriptors with a stamp in the share and beyond it; waiters that stand and that a stop has taken off; a copy
of Caldera's that waits for an engine. -/
theorem witness_LeasesAndPooledCommands :
  let l : Lease := { ctx := 0, core := 0, serial := 5, ends := 10000, cmds := [], count := 0, rel := false }
  let fill : List Byte := 1 :: List.replicate 15 0 ++ leBytes 8 0x20000 ++ leBytes 8 32 ++ leBytes 8 (loc + 64).toNat ++ leBytes 8 0x0807060504030201 ++ List.replicate 16 0
  let m : PooledCmd := { desc := fill, core := 0, num := 0 }
  let p := { bare with parts := [(0, { Partition.reset0 with lq := 1 })] }
  let s := setX (setShare p 0 fill) [(1, 15), (2, 16), (3, 0), (4, 256 * 5), (5, loc), (6, 2 ^ 40), (7, loc + 65536)]
  let h := { s with leases := [(0, l)] }
  let all := { s with leases := (List.range 16).map fun e => (e, { l with ctx := 16 }) }
  let tick (n : Nat) (s : State) : State := { s with time := { s.time with dt := BitVec.ofNat 80 (n * 2 ^ 16) } }
  let q : LeaseWait := { die := 0, core := 1, part := 0 }
  let waits := { s with lwaits := [q], others := [(1, { own with id := 1, waiting := true, stage := 1 })] }
  let gone := { waits with others := [] }
  let rep : Replica := { core := 1, cap := 4, wbase := 0x20000, gbase := 0, serial := 6, set := some 9 }
  let copy : RCopy := { expert := 0, rep := rep, done := false }
  let twin : Twin := { part := 0, base := 0x40000, span := 131072, sel := false, isOpen := false, epoch := 0, caldera := true }
  let moves := { s with tables := [(3, { table1 with copies := [copy] })], twins := [(9, twin)] }
  let ask (s : State) := (s.lwaits.filter fun q => q.die ≠ 0 || s.stillWaits q).find? fun q => q.die = 0
  Free s { x := [1] } { x := [9] } ∧ Free s { x := [4, 5] } { x := [9] } ∧ Free s { x := [4] } {} ∧ 16 ≤ (s.core.rx 2).toNat ∧ (s.core.rx 1).toNat < 16 ∧
  comp.core.phase = .compute ∧ s.core.phase = .exchange ∧ s.core.waiting = false ∧ s.dieOfPart 0 0 = true ∧ { s with parts := [(0, { Partition.reset0 with slices := 0 })] }.dieOfPart 0 0 = false ∧
  (s.part 0).lq ≤ h.leaseUse 0 0 ∧ ¬ (s.part 0).lq ≤ s.leaseUse 0 0 ∧ (∀ e < 16, all.leases.find? e ≠ none) ∧ s.leases.find? 0 = none ∧ s.lwaits = [] ∧
  waits.stillWaits q = true ∧ gone.stillWaits q = false ∧ q.core ≠ s.core.id ∧ ask waits = some q ∧ ask gone = none ∧ ask moves = none ∧ moves.waitingCopy 0 = some (3, copy) ∧
  s.waitingCopy 0 = none ∧ moves.copyOf 3 6 = some (copy, 0, twin) ∧ moves.leaseUse 0 0 < (moves.part 0).lq ∧ moves.leases.find? 0 = none ∧
  s.core.shapeAt (s.core.rx 5) = some fill ∧ ((loc + 64).toNat % 8 = 0 ∧ tag (loc + 64) = 8 ∧ offset (loc + 64) + 8 ≤ s.core.shareSize) ∧ ¬ offset (s.core.rx 7) + 8 ≤ s.core.shareSize ∧
  s.core.sharePoisoned 0 64 = false ∧ h.leases.find? ((s.core.rx 4).toNat % 256) = some l ∧ l.serial.toNat = (s.core.rx 4).toNat / 256 ∧ l.ctx = s.core.ctx ∧
  { l with rel := true }.rel = true ∧ l.rel = false ∧ l.cmds.length < 4 ∧ 4 ≤ [m, m, m, m].length ∧ 2 ^ 40 ≤ (s.core.rx 6).toNat ∧ l.copy = none ∧ (tick 9999 h).now < l.ends ∧
  l.ends ≤ (tick 10000 h).now := by unfold Free; decide +kernel
/-- Commands that are malformed and sound, at their first unit and with a granule that may land: a fill, a copy, an addition; ends of
each kind. -/
theorem witness_LeasesAndPooledCommands_commands :
  let l : Lease := { ctx := 0, core := 0, serial := 5, ends := 10000, cmds := [], count := 0, rel := false }
  let desc (op src n arg : Nat) : List Byte := BitVec.ofNat 8 op :: List.replicate 7 0 ++ leBytes 8 src ++ leBytes 8 0x20000 ++ leBytes 8 n ++ leBytes 8 (loc + 64).toNat ++
    leBytes 8 arg ++ List.replicate 16 0
  let m (op src arg : Nat) : PooledCmd := { desc := desc op src 32 arg, core := 0, num := 0 }
  let fill := m 1 0 5
  let copy := m 0 0x30000 0
  let add := m 2 0x30000 0
  let q := { mapped with leases := [(0, { l with cmds := [fill] })] }
  let lost := { q with ctxs := [] }
  let who (u : Nat) : Who := { w := .lease 0 0 u, ctx := 0, core := 0, seq := BitVec.ofNat 32 (fill.sqn l), eng := true }
  let piece : Piece := { hpa := 2 ^ 54 + 0x20000, len := 16, kind := 1, gpa := 0x20000 }
  let full := { fill with xfer := { next := 2, passed := 2, ready := [{ units := [0], place := .mem [piece], data := List.replicate 16 7 }] } }
  let spent := { fill with moved := 2, xfer := { next := 2, passed := 2 } }
  let failed := { spent with xfer := { spent.xfer with fail := some (1, ⟨0x08, 0, 0⟩) } }
  let run (m : PooledCmd) : Nat := match q.pooledStep 0 who 0 none m 0 with | .more _ _ => 1 | .done _ _ => 2 | .fails _ _ _ _ => 3
  let write := q.translateRange (who 0) 0x20000 16 .write
  let read := q.translateRange (who 0) 0x30000 16 .read
  let first (m : PooledCmd) : Bool := !m.bad && m.made = none && m.xfer = { next := 0 } && decide (0 < m.get 24 8 / 16)
  q.leases.find? 0 = some { l with cmds := [fill] } ∧ q.now < l.ends ∧ l.copy = none ∧ { fill with desc := 9 :: fill.desc }.bad = true ∧
  first fill = true ∧ first copy = true ∧ first add = true ∧ (fill.get 0 1, copy.get 0 1, add.get 0 1) = (1, 0, 2) ∧ (fill.get 16 8, fill.get 8 8, copy.get 8 8) = (0x20000, 0, 0x30000) ∧
  okd write = true ∧ okd read = true ∧ q.piecesPoison (got read []) = false ∧ q.piecesPoison (got write []) = false ∧ (q.readPieces (got read [])).length = 16 ∧
  (run fill, run full, run spent, run failed) = (1, 1, 2, 3) ∧ full.bad = false ∧ full.xfer.ready[0]? = some { units := [0], place := .mem [piece], data := List.replicate 16 7 } ∧
  piece.len = 16 ∧ q.stores = [] ∧ (q.part 0).dlog = 0 ∧ q.deadMem piece.hpa = false ∧ okd (lost.translateRange (who 0) 0x20000 16 .write) = false := by decide +kernel
/-- Outside a supervisor context, in one of the physical function and in one of another partition; operands with reserved bits; either
phase; a range that may be scrubbed and one that may not; a slice that runs; a log that a partition has; a unit of an engine that was
translated and has not landed. -/
theorem witness_PrivilegedInstructionsAndChecks :
  let s := setX (setShare { super with parts := [(0, { Partition.reset0 with dlog := 2 ^ 54, dspan := 2 ^ 22 })] } 0 [1]) [(1, 0), (2, 0x40), (3, 2 ^ 21), (4, 2047), (5, 2048), (6, 4095), (7, 4096), (8, loc), (9, 32768), (10, 2 ^ 22)]
  let vf := { s with core := { s.core with ctx := 16 }, ctxs := [(16, { Context.empty with live := true, sup := true })] }
  let fill : PooledCmd := { desc := [1], core := 0, num := 0, xfer := { ready := [{ units := [0], place := .mem [{ hpa := 2 ^ 54, len := 16, kind := 1, gpa := 0x20000 }], data := [] }] } }
  let on := { s with leases := [(0, { ctx := 3, core := 0, serial := 5, ends := 10000, cmds := [fill], count := 0, rel := false })] }
  on.unitsThrough (fun e => e.ctx = 3) = true ∧ on.unitsThrough (fun e => e.ctx = 4) = false ∧ s.unitsThrough (fun _ => true) = false ∧
  Free s { x := [1] } {} ∧ Free s { x := [1, 3] } { x := [9] } ∧ Free s {} { x := [9] } ∧ Free s { x := [8] } { x := [9] } ∧ s.isSup = true ∧ s.isPF = true ∧ bare.isSup = false ∧
  (vf.isSup = true ∧ vf.isPF = false ∧ vf.myPart = 1) ∧ s.core.phase = .exchange ∧ comp.core.phase = .compute ∧ ((s.core.rx 1).toNat &&& 0xF3F) = (s.core.rx 1).toNat ∧
  ((s.core.rx 2).toNat &&& 0xF3F) ≠ (s.core.rx 2).toNat ∧
  ((s.core.rx 3).toNat % 2 ^ 21 = 0 ∧ (s.core.rx 3).toNat < (s.part 0).dspan ∧ (s.part 0).dlog ≠ 0) ∧ ¬ (s.core.rx 10).toNat < (s.part 0).dspan ∧
  scrubOk 0 32768 = true ∧ scrubOk 0 32769 = false ∧ s.stores = [] ∧ (s.core.rx 4).toNat < 2048 ∧ ¬ (s.core.rx 5).toNat < 2048 ∧ s.sliceRuns 0 = true ∧ s.sliceRuns 2047 = false ∧
  s.core.id ≠ 2 * 2047 ∧ (s.core.rx 6).toNat < 4096 ∧ ¬ (s.core.rx 7).toNat < 4096 ∧ s.corePart 4095 = some 0 ∧
  ((s.core.rx 8).toNat % 64 = 0 ∧ tag (s.core.rx 8) = 8 ∧ offset (s.core.rx 8) + 320 ≤ s.core.shareSize) ∧ ¬ (s.core.rx 2).toNat / 2 ^ 6 % 2 ^ 10 = 0 ∧
  s.core.sharePoisoned 0 320 = false := by unfold Free; decide +kernel

/-- Configuration blocks: partition, context, queue, network, table, weights, gateways, twin set, class, replicas, each with what it
refuses. -/
theorem witness_ConfigurationEffects :
  let part (n : Nat) : List Byte := List.replicate 24 0 ++ [0, BitVec.ofNat 8 n] ++ List.replicate 294 0
  let s := setX (setShare super 0 (part 64)) [(1, loc), (2, 1)]
  let w (bs : List Byte) (p o : Nat) : CfgArgs := { blk := bs ++ List.replicate (320 - bs.length) 0, part := p, obj := o }
  let ctx := leBytes 8 0x100000 ++ List.replicate 41 0 ++ [4]
  let img : List Byte := List.replicate 4 0 ++ leBytes 2 1 ++ List.replicate 58 0 ++ leBytes 8 0 ++ List.replicate 280 0
  let m := { mapped.modCtx 0 fun c => { c with sup := true } with mem := mapped.mem.write (2 ^ 54 + 0x20000) img }
  let rep := leBytes 2 2 ++ [1, 0] ++ leBytes 4 1 ++ List.replicate 24 0
  let t := { bare with tables := [(3, table1)], parts := [(0, { Partition.reset0 with bal := 1 })] }
  let r8 := (replicasOf (leBytes 2 300 ++ [1, 0] ++ leBytes 4 1 ++ List.replicate 24 0) 6 1).getD []
  let area := (m.dropCode 0 0x100000).modCtx 0 fun c => c.from (w ctx 0 0)
  let sized := { area with mem := area.mem.write (2 ^ 54 + 48) (leBytes 8 32768) }
  Free s { x := [1, 2] } { x := [9] } ∧ (s.isPF = true ∧ s.isSup = true ∧ s.core.phase = .exchange ∧ s.core.waiting = false) ∧
  ((s.core.rx 2).toNat / 2 ^ 6 % 2 ^ 10 = 0 ∧ (s.core.rx 2).toNat < 2 ^ 32) ∧ (tag (s.core.rx 1) = 8 ∧ offset (s.core.rx 1) + 320 ≤ s.core.shareSize ∧ s.core.sharePoisoned 0 320 = false) ∧
  partBad (w (part 0) 1 0) = true ∧ partBad (w (part 64) 1 0) = false ∧ s.quota 1 64 Partition.qs ≤ 256 + 64 ∧ s.quota 0 0 Partition.bal ≤ 64 ∧
  s.parts.find? 0 ≠ none ∧ s.parts.find? 1 = none ∧ s.partIdle 0 = false ∧ s.partIdle 1 = true ∧ s.sliceHolder 7 = some 0 ∧ { s with parts := [] }.sliceHolder 7 = none ∧
  s.sliceRuns 7 = false ∧ ({ s with core := Core.reset 0 }.parts.find? 0).isSome = true ∧
  ctxBad (w ctx 0 0) = false ∧ ctxBad (w (ctx.set 49 3) 0 0) = true ∧ area.pinArea 0 0 = none ∧ sized.pinArea 0 0 = some [2 ^ 54] ∧
  capOk 2 = true ∧ capOk 65536 = true ∧ capOk 3 = false ∧ s.queues.find? 7 = none ∧ ({ s with queues := [(7, queue1)] }.queues.find? 7).isSome = true ∧ queue1.part = 0 ∧
  bare.specBad 0 { w0 := 2, w1 := 0 } = true ∧ t.specBad 0 { w0 := 2, w1 := 0 } = false ∧ t.net (.part 0 5) = none ∧ (counting.net (.part 0 0)).isSome = true ∧
  t.tables.find? 3 = some table1 ∧ t.pinned 3 1 = false ∧ { t with nets := [(NetKey.flight 3 1, { fresh4 with exits := [4, 1, 2, 3] })] }.pinned 3 1 = true ∧
  s.corePart 300 = some 0 ∧ (0 : Nat) < 16 ∧ t.dieOfPart 0 0 = true ∧ okd (m.readVa m.me 0x20000 64) = true ∧ imageBad (img.take 64) = false ∧ okd (m.readVa m.me 0x20040 288) = true ∧
  (expertsOf (List.replicate 288 0) 0 1).isSome = true ∧ (match t.makeTable 5 0 0 (img.take 64) [] with | .ok _ => true | .error _ => false) = true ∧
  hpaReserved 65536 = false ∧ hpaReserved (2 ^ 57) = true ∧ s.twins.find? 3 = none ∧
  (replicasOf rep 6 1).isSome = true ∧ r8.map (·.core) = [300] ∧ t.corePart 300 = some 0 ∧ diesDiffer ([replica1] ++ r8) = true ∧ t.calderaRoom 1 ≠ 0 ∧ t.fifth 3 = false ∧
  grantLimit 0 < (2 ^ 40 : Nat) ∧ ¬ grantLimit 0 < bare.granted 0 1 0 + 0 := by unfold Free; decide +kernel
/-- Granules with a record and without one; a granule whose first word does not decode; a walk that ends and one that does not; a
request on file, room in the ring, a reply that is due; a fetch that is frozen. -/
theorem witness_ScansAndPageRequests :
  let bad := { bare with mem := bare.mem.write (2 ^ 54 + 32768) [1] }
  let s := mapped.modPart 0 fun p => { p with prq := 2 ^ 54 + 0x300000, rpl := 2 ^ 54 + 0x308000 }
  let pw : PageWait := { who := .core 0, va := 0x20000, info := 0 }
  let who : Who := { w := .core 0, ctx := 0, core := 0, seq := 0, eng := false }
  let denied := s.modPart 0 fun p => { p with fails := [pw] }
  let hole := { s with mem := (s.mem.write (2 ^ 54 + 0x208000) (List.replicate 8 0)).write (2 ^ 54 + 0x208000) (leBytes 8 0) }
  let wait := hole.upd fun c => { c with waiting := true }
  let filed := { s.modPart 0 fun p => { p with reqs := [{ rid := 0, gran := 5, wr := true, waiters := [pw] }] } with
                 mem := s.mem.write (2 ^ 54 + 0x308000) (leBytes 8 1) }
  let s2 := match wait.walk 0 0x20000 .write with | .s2 _ _ _ => true | _ => false
  let froze := { coded.upd fun c => { c with frozen := true, waiting := true } with agenda := [] }
  coded.scans.find? (2 ^ 40) ≠ none ∧ bare.scans.find? 0 = none ∧ bad.scan (2 ^ 39 + 1) = .rejected 0 1 ∧
  (match s.walk 0 0x20000 .write with | .ok _ => true | _ => false) = true ∧ s.core.waiting = false ∧ s.core.id < 4096 ∧ s2 = true ∧ wait.tlbHit 0 0 0x20000 .write = none ∧
  (wait.part 0).fails = [] ∧ (wait.part 0).reqs = [] ∧ wait.physNat (wait.part 0).prq 8 < wait.physNat ((wait.part 0).prq + 8) 8 + 256 ∧ wait.failed = 0 ∧
  (filed.part 0).rpl ≠ 0 ∧ filed.physNat ((filed.part 0).rpl + 8) 8 < filed.physNat (filed.part 0).rpl 8 ∧
  ((filed.part 0).reqs.find? fun q => q.rid = leNat ((filed.physRead ((filed.part 0).rpl + 64) 16).take 2)) = some { rid := 0, gran := 5, wr := true, waiters := [pw] } ∧
  (filed.part 0).asked who.w = true ∧ (wait.part 0).asked who.w = false ∧ ((denied.part 0).fails.find? fun f => f.who = who.w) = some pw ∧
  (bare.part 0).rpl = 0 ∧ fetched (froze.enter froze.core.pc) = true ∧ fetched (bare.enter bare.core.pc) = false := by decide +kernel
/-- A port that hears a master and one that does not, announced data sets that are better and worse, messages of another domain and another
sender, each boundary of the discipline; the SPDM stages, requests in and out of order, a request's fourth byte. -/
theorem witness_DeviceTimeAndAttestation :
  let a : Announce := { domain := 0, src := 1, prio1 := 128, cls := 6, acc := 0x21, var := 0, prio2 := 128, gm := 9, steps := 1 }
  let b := { a with gm := 8, src := 2, prio1 := 129 }
  let m : PtpMsg := { domain := 0, src := 1, value := 50 }
  let on := { bare with time := { bare.time with master := some a, enabled := true, given := true, twoStep := some 50, req := true } }
  (on.time.enabled = true ∧ on.skipped 10 = false ∧ m.domain = on.time.domain ∧ on.time.master = some a ∧ a.src = m.src) ∧ bare.time.master = none ∧
  { m with domain := 1 }.domain ≠ on.time.domain ∧ { a with domain := 1 }.domain ≠ on.time.domain ∧ 255 ≤ { a with steps := 255 }.steps.toNat ∧ a.steps.toNat < 255 ∧
  a.src ≠ b.src ∧ announceBetter b a = false ∧ announceBetter { b with prio1 := 127 } a = true ∧ a.gm = { a with src := 7 }.gm ∧ a.gm ≠ b.gm ∧
  (50 : Int).natAbs ≤ 50 ∧ ¬ (51 : Int).natAbs ≤ 50 ∧
  { on with time := { on.time with within := 15 } }.time.within + 1 = 16 ∧ on.time.state ≠ 1 ∧ { on with time := { on.time with state := 1 } }.time.state = 1 ∧
  (1000000 : Int) < 1000001 ∧ on.time.given = true ∧ on.time.req = true ∧ bare.time.req = false ∧ bare.time.twoStep = none ∧ on.time.twoStep = some 50 ∧
  { bare with pcie := 1 }.pcie.getLsbD 0 = true ∧ { bare with pcie := 0 }.pcie.getLsbD 0 = false ∧
  (let h := { bare with time := { bare.time with state := 2, lost := 0, dt := BitVec.ofNat 80 (10000000000 * 2 ^ 16) } }
   h.time.state = 2 ∧ h.time.lost + 10000000000 ≤ h.now ∧ bare.now < bare.time.lost + 10000000000) ∧
  bare.spdm.stage = 0 ∧ { bare.spdm with stage := 3 }.stage = 3 ∧ bare.time.domain = 0 ∧ leNat ((([0x12, 0xE0, 0, 0xFF] : List Byte).drop 3).take 1) = 0xFF ∧
  leNat ((([0x12, 0xE0, 0, 5] : List Byte).drop 3).take 1) = 5 := by decide +kernel
/-- A queue of the host with a sound ring, one in error, one of the device; values at the ring's bounds; registers of a function that
may and may not reach them; a place that the host may write and one that is reserved. -/
theorem witness_HostAccesses :
  let k := { queue1 with dev := false, qbase := 0x20000, qsize := 256 }
  let s := { mapped with queues := [(7, k), (8, { k with err := true }), (9, queue1), (10, { k with qsize := 100 }), (11, { k with qwr := 1 })], start := 1, pcie := 1 }
  s.start = 1 ∧ bare.start ≠ 1 ∧ s.presents 0 = true ∧ s.presents 3 = true ∧ bare.presents 0 = false ∧ { s with start := 2 }.presents 3 = false ∧ s.queues.find? 7 = some k ∧ s.queues.find? 6 = none ∧ (s.queues.find? 8).map (·.err) = some true ∧ (s.queues.find? 9).map (·.dev) = some true ∧
  ringSizeOk 256 = true ∧ ringSizeOk 100 = false ∧ 0x20000 % 128 = 0 ∧ s.ringOut 0 0x20000 256 = false ∧ k.qwr ≤ 2 ∧ 2 ≤ k.qrd + k.qsize / 128 ∧ ¬ 3 ≤ k.qrd + k.qsize / 128 ∧
  (s.queues.find? 11).map (fun k => decide (k.qrd < k.qwr)) = some true ∧ k.part = 0 ∧ (0x40000 + 64 * 7) / 64 = 0x1000 + 7 ∧ (0x41FFF8 : Nat) / 64 ≠ 0x1000 + 7 ∧
  (0 : Nat) < 0x40000 ∧ (k.part ≠ 1 ∧ queue1.dev = true) ∧ { k with err := true }.err = true ∧
  hpaReserved 0 = false ∧ hpaReserved (2 ^ 57) = true ∧ isHost 0 = false ∧ isHost (2 ^ 56) = true ∧ s.deadMem 0 = false := by decide +kernel
/-- A flip of one data bit in a word, alone in its sub-array and beside another; a row with a flip left in it; none. -/
theorem witness_ErrorsAndRepairs :
  let f : Flip := { word := 2 ^ 51 + 256, data := 1#64 <<< 63, par := 0, stuck := false }
  let g : Flip := { f with word := 2 ^ 51 + 511 }
  let one := { bare with flips := [f] }
  let two := { bare with flips := [f, g] }
  let row := { bare with rows := [(2 ^ 43 + 1, 4)] }
  f.syndrome ≠ 0 ∧ one.flagged (f.word / 256) = [f] ∧ f.word < 2 ^ 54 ∧ one.rows.get 0 (f.word / 256) = 0 ∧ (one.flips.filter fun g => g.word / 256 = f.word / 256) = [f] ∧
  (∀ h ∈ one.flagged (f.word / 256), h.word ≠ f.word + 1) ∧ two.flagged (f.word / 256) = [f, g] ∧ row.flips = [] ∧ row.rows.keys = [f.word / 256] ∧
  wordDie (256 * (f.word / 256)) = 0 ∧ 256 * (f.word / 256) + 255 < 2 ^ 54 ∧ isCoded f.word = true := by decide +kernel
/-- Networks that stand, of a partition and of the scheduler; errors of one bit and of two; quadrants with a spare and without one;
an addition that the taster looks at once and twice. -/
theorem witness_StrikesAndTheTaster :
  let s := { counting with agenda := [.strike (.net (.part 0 0) 2)] }
  let q := (s.cluster 0).quad 3
  let i : Instr := .add .wrap 3 1 2
  let once := coded.upd fun c => { c with taste := some false }
  let twice := coded.upd fun c => { c with taste := some true }
  s.net (.part 0 0) = some fresh4 ∧ fresh4.lost = false ∧ s.failed.getLsbD 15 = false ∧ fresh4.dying = false ∧ s.unpins = [] ∧ 0 < q.spare ∧ { q with retired := [3, 5] }.spare = 0 ∧ { q with struck := [7] }.struck ≠ [] ∧
  (s.launches.find? 1).isSome = false ∧ (launched.launches.find? 1).isSome = true ∧ s.queues = [] ∧ coded.core.taste = none ∧
  Instr.tasted i = some false ∧ Instr.tasted (.vadd .plain { p := 0, z := false } 1 2 (.vec 3) none) = some true ∧ once.core.taste = some false ∧ twice.core.taste = some true ∧
  (ran i once).core.id = once.core.id ∧ (ran i once).core.retired ≠ once.core.retired ∧ (ran i twice).core.retired ≠ twice.core.retired := by decide +kernel
/-- Dies up and down, a core that has consumed an error and one that has not, a running core and an idle one, the ends of the clock's
table. -/
theorem witness_ErrorsAndRepairs_dies :
  let c := bare.upd fun c => c.consumed 0 1
  bare.failed.getLsbD 15 = false ∧ { bare with failed := 1 }.failed.getLsbD 0 = true ∧ (bare.coreAt 0).contained = false ∧ (c.coreAt 0).contained = true ∧
  (c.coreAt 0).role ≠ .idle ∧ (c.coreAt 0).raised ≠ none ∧ 0 ∈ (c.coreAt 0).chain.ids ∧ (bare.coreAt 5).role = .idle ∧ bare.clockOf 15 = 850 ∧ { bare with clock := [(15, 425)] }.clockOf 15 = 425 ∧ (2 ^ 54 - 1 : Nat) < 2 ^ 54 := by
  decide +kernel
/-- A die's events within what its recorder holds, a place in the recorder's region and one outside. -/
theorem witness_ResetsAndLinks :
  bare.puts = [] ∧ bare.skipped 9 = false ∧
  { bare with record := [{ step := 9, tries := 2, out := 3, alt := 0, ms := 0, detail := 0 }] }.skipped 9 = true ∧ bare.failed.getLsbD (dieOf 4096) = false ∧ isHost 0 = false ∧ isHost (2 ^ 56) = true ∧
  inTephra 0 = false ∧ inTephra (tephraBase 15) = true ∧ (∀ d < 16, (bare.tephra.get { evs := [], wrapped := false } d).evs.length ≤ 4096) := by decide +kernel
/-- Words of op 0 with the lengths that `ILL` has not, at the ends of the range. -/
theorem witness_IllegalInstructions :
  (3 : Nat) < 2 ^ 32 ∧ 3 / 4 % 2 ^ 7 = 0 ∧ 3 % 4 ≠ 0 ∧ (0xFFFFFE01 : Nat) < 2 ^ 32 ∧ 0xFFFFFE01 / 4 % 2 ^ 7 = 0 ∧ 0xFFFFFE01 % 4 ≠ 0 := by decide
theorem witness_DivisionAndRemainder : Free bare { x := [1, 2] } { x := [3] } ∧ Free bare { x := [1] } { x := [3] } := by
  unfold Free; decide +kernel
/-- The scale bytes 0, 254 and 255. -/
theorem witness_ScaleBytes : 0 % 256 < 255 ∧ 254 % 256 < 255 ∧ 255 % 256 = 255 := by decide
/-- A core whose turn it is with code that it may fetch, one whose place is outside the space, one whose page the
hypervisor has not mapped. -/
theorem witness_StepRunsTheDecodedInstruction :
  let s := { coded with agenda := [.turn 0, .event (.preemptRequest 0 0 0)] }
  let c := (s.focus 0).core
  let out := { coded.upd fun c => { c with pc := 2 ^ 60 } with agenda := [.turn 0] }
  let raw := { mapped with mem := mapped.mem.write (2 ^ 54 + 0x208000) (List.replicate 8 0), agenda := [.turn 0] }
  let kind (f : Fetch) : Nat := match f with | .ok _ _ => 0 | .fault _ _ _ _ _ => 1 | .wait _ => 2
  s.agenda = [.turn 0, .event (.preemptRequest 0 0 0)] ∧ c.role = .running ∧ c.leads = true ∧ c.members = 1 ∧ c.contained = false ∧ (s.focus 0).stopping c = false ∧ coded.flips = [] ∧ c.taste = none ∧ c.sBad = [] ∧ c.lBad = 0 ∧
  Instr.tasted (.nop 1) = none ∧ c.gap = 0 ∧ c.nopLeft = 0 ∧ c.skip = false ∧
  kind ((s.focus 0).enter c.pc) = 0 ∧ kind (out.enter out.core.pc) = 1 ∧ kind (raw.enter raw.core.pc) = 2 ∧ (ran (.trap 5) handled).core.frame.isSome = true ∧
  (match (s.focus 0).enter c.pc with | .ok v hpa => (match decodeWords (v.codeWords hpa) with | .ok _ => true | .error _ => false) | _ => false) = true ∧
  (2 ^ 55 : Nat) % 4 = 0 ∧ 2 ^ 55 % 32768 + 20 ≤ 32768 := by decide +kernel
/-- An instruction of one word and one of four that are well-formed and have words. -/
theorem witness_EncodingsDecode :
  (Instr.nop 1).wf = true ∧ (encode (.nop 1)).isSome = true ∧ (Instr.mmapLiteral 0x0706050403020100).wf = true ∧ (encode (.mmapLiteral 0x0706050403020100)).isSome = true := by
  decide +kernel
/-- The machine after reset, and one whose step is to come. -/
theorem witness_StepsKeepMemoryCanonical :
  MemOk State.reset ∧ MemOk mapped ∧ (match step State.reset with | .next _ => true | _ => false) = true := by unfold MemOk; decide +kernel

end Sys2Proof.Tests
end

section
set_option Elab.async false
namespace Sys2Proof.Proofs.Links
open Sys2Proof Sys2Proof.Machine

/-! What contexts, launches, cores, records and accesses do leaves the links of the module as they are. -/

/-- What the failure of a link is about, kept from `s` to `t`: the links that are up, the peers of the ports, the `PUT`s handed
off, and no `PUT` that was not started before (R248, R395, R399). -/
structure LinksKept (s t : State) : Prop where
  pcie : t.pcie = s.pcie
  peers : t.peers = s.peers
  putOuts : t.putOuts = s.putOuts
  puts : ∀ q ∈ t.puts, q ∈ s.puts

variable {s t : State}

theorem LinksKept.refl (s : State) : LinksKept s s := ⟨rfl, rfl, rfl, fun _ h => h⟩

/-- A state that differs in other fields only keeps them too. -/
theorem LinksKept.elsewhere {u : State} (h : LinksKept s t) (hc : u.pcie = t.pcie := by rfl) (hp : u.peers = t.peers := by rfl)
    (ho : u.putOuts = t.putOuts := by rfl) (hs : u.puts = t.puts := by rfl) : LinksKept s u :=
  ⟨hc.trans h.pcie, hp.trans h.peers, ho.trans h.putOuts, hs ▸ h.puts⟩

theorem LinksKept.ite {p : Prop} [Decidable p] {u : State} (h : LinksKept s t) (k : LinksKept s u) :
    LinksKept s (if p then t else u) :=
  iteInduction (fun _ => h) (fun _ => k)

theorem LinksKept.foldl {α : Type} {f : State → α → State} (hf : ∀ u a, LinksKept s u → LinksKept s (f u a)) (h : LinksKept s t)
    (l : List α) : LinksKept s (l.foldl f t) :=
  List.foldlRecOn l f h fun u hu a _ => hf u a hu

/-- The state in which an access ends keeps the links. -/
inductive AccessKept (s : State) {α : Type} : Access α → Prop
  | ok {t : State} {x : α} (h : LinksKept s t) : AccessKept s (.ok t x)
  | fault {t : State} {va info : Nat} (h : LinksKept s t) : AccessKept s (.fault t va info)
  | wait {t : State} (h : LinksKept s t) : AccessKept s (.wait t)

/-- The state that the ring writer leaves keeps the links. -/
inductive RingKept (s : State) : RingOut → Prop
  | wrote {t : State} {rno : Nat} (h : LinksKept s t) : RingKept s (.wrote t rno)
  | full {t : State} (h : LinksKept s t) : RingKept s (.full t)
  | fault {t : State} (h : LinksKept s t) : RingKept s (.fault t)

theorem AccessKept.ite {α : Type} {p : Prop} [Decidable p] {a b : Access α} (h : AccessKept s a) (k : AccessKept s b) :
    AccessKept s (if p then a else b) :=
  iteInduction (fun _ => h) (fun _ => k)

theorem AccessKept.bind {α β : Type} {a : Access α} {f : State → α → Access β} (h : AccessKept s a)
    (hf : ∀ t x, LinksKept s t → AccessKept s (f t x)) : AccessKept s (a.bind f) := by
  cases h with
  | ok h => exact hf _ _ h
  | fault h => exact .fault h
  | wait h => exact .wait h

/-! Changes of one field, and of memory. -/

namespace LinksKept

theorem modCore (h : LinksKept s t) (n : Nat) (f : Core → Core) : LinksKept s (t.modCore n f) :=
  h.elsewhere (by simp) (by simp) (by simp) (by simp)
theorem modCtx (h : LinksKept s t) (n : Nat) (f : Context → Context) : LinksKept s (t.modCtx n f) :=
  h.elsewhere
theorem modPart (h : LinksKept s t) (n : Nat) (f : Partition → Partition) : LinksKept s (t.modPart n f) :=
  h.elsewhere
theorem modCluster (h : LinksKept s t) (n : Nat) (f : Cluster → Cluster) : LinksKept s (t.modCluster n f) :=
  h.elsewhere
theorem modLaunch (h : LinksKept s t) (n : Nat) (f : Launch → Launch) : LinksKept s (t.modLaunch n f) :=
  h.elsewhere (by simp) (by simp) (by simp) (by simp)
theorem modQueue (h : LinksKept s t) (n : Nat) (f : Queue → Queue) : LinksKept s (t.modQueue n f) :=
  h.elsewhere (by simp) (by simp) (by simp) (by simp)
theorem modCmd (h : LinksKept s t) (n : Nat) (seq : BitVec 32) (f : EngineCmd → EngineCmd) : LinksKept s (t.modCmd n seq f) :=
  h.modCore n _

theorem physWrite (h : LinksKept s t) (a : Nat) (bs : List Byte) : LinksKept s (t.physWrite a bs) := by
  unfold State.physWrite
  split
  · exact h
  · exact h.elsewhere
theorem physPut (h : LinksKept s t) (a n v : Nat) : LinksKept s (t.physPut a n v) := h.physWrite a _
theorem placesWrite (ps : List (Nat × Nat)) (bs : List Byte) (h : LinksKept s t) : LinksKept s (t.placesWrite ps bs) := by
  induction ps generalizing t bs with
  | nil => exact h
  | cons q ps ih => exact ih _ (h.physWrite _ _)

theorem countDie (h : LinksKept s t) (die src n : Nat) : LinksKept s (t.countDie die src n) := h.elsewhere
theorem count (h : LinksKept s t) (core src n : Nat) : LinksKept s (t.count core src n) := by
  unfold State.count
  split
  · exact (h.modCore _ _).elsewhere
  · exact h.elsewhere

/-! Events. -/

theorem openWord (h : LinksKept s t) : LinksKept s t.openWord.1 := h.elsewhere
theorem arg (h : LinksKept s t) (a : Option Nat) : LinksKept s (t.arg a).1 := by
  cases a with
  | some v => exact h
  | none => exact h.openWord
theorem tephraAdd (h : LinksKept s t) (e : TephraEv) : LinksKept s (t.tephraAdd e) := h.elsewhere
theorem evQueue (h : LinksKept s t) (e : TephraEv) : LinksKept s (t.evQueue e) := by
  unfold State.evQueue
  split
  · exact h
  · split
    · exact h.elsewhere
    · exact (h.physWrite _ _).elsewhere
theorem event (h : LinksKept s t) (die code part core : Nat) (a b : Option Nat) :
    LinksKept s (t.event die code part core a b) := by
  have h := ((h.arg a).arg b).tephraAdd
  unfold State.event
  simp only []
  split
  · exact (h _).evQueue _
  · exact h _

/-! Trap records. -/

theorem ringPut (h : LinksKept s t) (ctx : Nat) (bs : List Byte) : RingKept s (t.ringPut ctx bs) := by
  unfold State.ringPut
  simp only []
  split
  · exact .fault h
  · have hc {p : Prop} [Decidable p] (f : Context → Context) : LinksKept s (if p then t.modCtx ctx f else t) :=
      .ite (h.modCtx _ _) h
    split
    · exact .full (hc _)
    · split
      · exact .fault (hc _)
      · exact .wrote ((placesWrite _ _ (placesWrite _ _ (hc _))).modCtx _ _)

theorem ringLose (h : LinksKept s t) (ctx core : Nat) (faulted : Bool) : LinksKept s (t.ringLose ctx core faulted) := by
  have hn : LinksKept s (match t.ringAt ctx ((t.context ctx).tring + 16) 8 .write with
      | none => t
      | some h => let n := t.placesNat h; t.placesWrite h (leBytes 8 (if n = 2 ^ 64 - 1 then n else n + 1))) := by
    split
    · exact h
    · exact placesWrite _ _ h
  exact .ite ((hn.modCtx _ _).event _ _ _ _ _ _) (hn.modCtx _ _)

theorem answerRec (h : LinksKept s t) (r : WaitRec) (w : Word) : LinksKept s (t.answerRec r w) := by
  unfold State.answerRec
  split
  · exact h
  · exact h.modCore _ _

theorem ringFlush (h : LinksKept s t) (ctx k : Nat) : LinksKept s (t.ringFlush ctx k) := by
  induction k generalizing t with
  | zero => exact h
  | succ k ih =>
    unfold State.ringFlush
    split
    · exact h
    · next r _ =>
      have hp := h.ringPut ctx r.bytes
      simp only []
      generalize t.ringPut ctx r.bytes = o at hp ⊢
      cases hp with
      | wrote hu => exact ih ((hu.answerRec _ _).modCtx _ _)
      | full hu => exact hu
      | fault hu => exact ih (((hu.ringLose _ _ _).answerRec _ _).modCtx _ _)

theorem note (h : LinksKept s t) (r : TrapRec) : LinksKept s (t.note r) := (h.modCtx _ _).ringFlush _ _

/-! Translation, and stores that are put in place. -/

theorem dirty (h : LinksKept s t) (part gpa : Nat) : LinksKept s (t.dirty part gpa) :=
  .ite h (.ite (.ite h (h.physPut _ _ _)) (h.elsewhere))
theorem writePieces (part : Nat) (ps : List Piece) (bs : List Byte) (h : LinksKept s t) :
    LinksKept s (t.writePieces part ps bs) := by
  induction ps generalizing t bs with
  | nil => exact h
  | cons p ps ih => exact ih _ ((h.physWrite _ _).dirty _ _)

theorem grants (h : LinksKept s t) (ctx va : Nat) : LinksKept s (t.grants ctx va) := by
  unfold State.grants
  simp only []
  refine .ite h ?_
  split
  · exact h
  · split
    · have hd {p : Prop} [Decidable p] (a n : Nat) : LinksKept s (if p then { t with
          scans := t.scans.filter fun g => g.1 < a / 32768 || (a + n - 1) / 32768 < g.1 } else t) :=
        .ite (h.elsewhere) h
      exact .ite ((hd _ _).elsewhere) (hd _ _)
    · exact h
theorem fillTlb (h : LinksKept s t) (core : Nat) (e : TlbEntry) : LinksKept s (t.fillTlb core e) :=
  .ite h ((h.modCore _ _).elsewhere)

theorem pageFault (h : LinksKept s t) (who : Who) (va : Nat) (acc : Acc) (gpa lvl why : Nat) :
    AccessKept s (t.pageFault who va acc gpa lvl why) :=
  .ite (.wait (h.modPart _ _)) (.ite (.wait h) (.wait ((((h.physWrite _ _).physPut _ _ _).count _ _ _).modPart _ _)))
theorem translate (h : LinksKept s t) (who : Who) (va : Nat) (acc : Acc) : AccessKept s (t.translate who va acc) := by
  have hw := (h.count who.core 8 1).grants who.ctx va
  unfold State.translate
  simp only []
  split
  · exact .fault (h.modPart _ _)
  · refine .ite (.wait h) ?_
    split
    · exact .ok h
    · split
      · exact .ok (hw.fillTlb _ _)
      · exact .fault hw
      · exact .fault hw
      · exact hw.pageFault _ _ _ _ _ _
theorem translateList (who : Who) (acc : Acc) (l : List (Nat × Nat)) (h : LinksKept s t) :
    AccessKept s (t.translateList who acc l) := by
  induction l generalizing t with
  | nil => exact .ok h
  | cons q l ih => exact (h.translate who q.1 acc).bind fun _ _ hu => (ih hu).bind fun _ _ hv => .ok hv
theorem translateRange (h : LinksKept s t) (who : Who) (va n : Nat) (acc : Acc) :
    AccessKept s (t.translateRange who va n acc) := translateList _ _ _ h

theorem perform (h : LinksKept s t) (n : NetStore) : LinksKept s (t.perform n) :=
  .ite (h.modCluster _ _) (.ite ((h.physWrite _ _).dirty _ _) (dirty (elsewhere (h.physWrite _ _)) _ _))
theorem fence (h : LinksKept s t) (core : Nat) : LinksKept s (t.fence core) :=
  .ite h (foldl (fun _ _ hu => hu.perform _) (h.elsewhere) _)

/-! Counting networks. -/

theorem setNet (h : LinksKept s t) (k : NetKey) (n : Net) : LinksKept s (t.setNet k n) := h.elsewhere
theorem reapNet (h : LinksKept s t) (k : NetKey) : LinksKept s (t.reapNet k) := by
  unfold State.reapNet
  split
  · exact .ite (h.elsewhere) h
  · exact h
theorem endNet (h : LinksKept s t) (k : NetKey) : LinksKept s (t.endNet k) := by
  unfold State.endNet
  split
  · exact (h.setNet _ _).reapNet _
  · exact h
theorem count1 (h : LinksKept s t) (k : NetKey) (core : Nat) (anti : Bool) : LinksKept s (t.count1 k core anti).1 := by
  unfold State.count1
  split
  · exact h
  · next n _ =>
    split
    · exact h
    · have hc (o : CntOp) : LinksKept s (t.turnFor n o) := .ite h (h.elsewhere)
      exact ((hc _).setNet _ _).countDie _ _ _
theorem countTo (h : LinksKept s t) (k : NetKey) (n : Nat) : LinksKept s (t.countTo k n) := by
  unfold State.countTo
  split
  · exact h
  · exact foldl (fun _ _ hu => hu.count1 _ _ _) h _
theorem syncQueue (h : LinksKept s t) (lid : Nat) : LinksKept s (t.syncQueue lid) := by
  unfold State.syncQueue
  split
  · exact h
  · exact (h.countTo _ _).countTo _ _
theorem releaseUnpins (h : LinksKept s t) : LinksKept s t.releaseUnpins :=
  foldl (fun _ _ hu => hu.count1 _ _ _) (h.elsewhere) _

/-! A core that stops. -/

theorem dropWaiters (h : LinksKept s t) (part : Nat) (gone : Waiter → Bool) : LinksKept s (t.dropWaiters part gone) :=
  .ite h (h.modPart _ _)
theorem dropMsgs (h : LinksKept s t) (n : Nat) : LinksKept s (t.dropMsgs n) := by
  have hf : LinksKept s ((t.msgs.filter fun m => m.src = n).foldl (fun s m => match m.take with
      | some k => if k.recv.isNone then s.modCore m.dst fun c => { c with ctl := { c.ctl with ovq := c.ctl.ovq.del k.entry } } else s
      | none => s) t) := by
    refine foldl (fun u m hu => ?_) h _
    split
    · exact .ite (hu.modCore _ _) hu
    · exact hu
  exact ⟨hf.pcie, hf.peers, hf.putOuts, fun q hq => hf.puts q (List.mem_filter.1 hq).1⟩
theorem unpin (h : LinksKept s t) (n : Nat) : LinksKept s (t.unpin n) := releaseUnpins (modCore h.elsewhere _ _)
theorem orphanOps (h : LinksKept s t) (n : Nat) : LinksKept s (t.orphanOps n) := h.elsewhere
theorem forgetRec (h : LinksKept s t) (n : Nat) : LinksKept s (t.forgetRec n) := h.modCtx _ _
theorem stopCore (h : LinksKept s t) (n : Nat) : LinksKept s (t.stopCore n) := by
  unfold State.stopCore
  exact modCore (forgetRec (dropWaiters (dropMsgs (modCore (((h.fence n).orphanOps n).unpin n) _ _) _) _ _) _) _ _

/-! Launches that end. -/

theorem schedFault (h : LinksKept s t) (l : Launch) (lid va info : Nat) : LinksKept s (t.schedFault l lid va info) := h.note _
theorem maybeEnd (h : LinksKept s t) (lid : Nat) : LinksKept s (t.maybeEnd lid) := h.modLaunch _ _
theorem fileTasks (h : LinksKept s t) (lid : Nat) : LinksKept s (t.fileTasks lid) := by
  unfold State.fileTasks
  split
  · exact h
  · exact ((foldl (fun _ _ hu => hu.physWrite _ _) h _).modLaunch _ _).syncQueue _
theorem takeCont (h : LinksKept s t) (lid ent : Nat) : LinksKept s (t.takeCont lid ent) := by
  unfold State.takeCont
  split
  · exact h
  · split
    · exact h
    · exact ((h.modLaunch _ _).modLaunch _ _).fileTasks _
theorem joinDec (h : LinksKept s t) (lid va owner : Nat) : AccessKept s (t.joinDec lid va owner) := by
  unfold State.joinDec
  split
  · exact .ok h
  · next l _ =>
    have ht := h.translateRange (l.who lid) va 16 .atomic
    generalize t.translateRange (l.who lid) va 16 .atomic = a at ht ⊢
    cases ht with
    | wait hu => exact .wait hu
    | fault hu => exact .ok (hu.schedFault _ _ _ _)
    | ok hu =>
      simp only []
      split
      · refine .ite (.ok ((hu.event _ _ _ _ _ _).schedFault _ _ _ _)) ?_
        obtain ⟨c, f, under, cont⟩ := joinStep _ _
        refine .ite (.ok (hu.note _)) ?_
        cases cont with
        | none => exact .ok (writePieces _ _ _ hu)
        | some e => exact .ok ((writePieces _ _ _ hu).takeCont _ _)
      · exact .ok hu
theorem mapByte (h : LinksKept s t) (l : Launch) (lid va : Nat) (f : Nat → Nat) : AccessKept s (t.mapByte l lid va f) := by
  have ht := h.translateRange (l.who lid) va 1 .atomic
  unfold State.mapByte
  generalize t.translateRange (l.who lid) va 1 .atomic = a at ht ⊢
  cases ht with
  | wait hu => exact .wait hu
  | fault hu => exact .ok (hu.schedFault _ _ _ _)
  | ok hu => exact .ite (.ok (hu.schedFault _ _ _ _)) (.ok (writePieces _ _ _ hu))
theorem mapUpdate (h : LinksKept s t) (l : Launch) (lid : Nat) {f : State → Nat → Access Unit}
    (hf : ∀ u n, LinksKept s u → AccessKept s (f u n)) : AccessKept s (t.mapUpdate l lid f) := by
  have ht := h.translateRange (l.who lid) l.fields.vmap 4 .read
  unfold State.mapUpdate
  generalize t.translateRange (l.who lid) l.fields.vmap 4 .read = a at ht ⊢
  cases ht with
  | wait hu => exact .wait hu
  | fault hu => exact .ok (hu.schedFault _ _ _ _)
  | ok hu => exact .ite (.ok (hu.schedFault _ _ _ _)) (hf _ _ hu)
theorem mapCodes0 (l : Launch) (lid : Nat) (us : List Nat) (h : LinksKept s t) : AccessKept s (t.mapCodes0 l lid us) := by
  induction us generalizing t with
  | nil => exact .ok h
  | cons u us ih => exact (h.mapByte _ _ _ _).bind fun _ _ hu => ih hu
theorem mapOverBits (l : Launch) (lid n : Nat) (us : List Nat) (h : LinksKept s t) :
    AccessKept s (t.mapOverBits l lid n us) := by
  induction us generalizing t with
  | nil => exact .ok h
  | cons u us ih => exact (h.mapByte _ _ _ _).bind fun _ _ hu => ih hu
theorem mapAbsent (h : LinksKept s t) (l : Launch) (lid u cnt : Nat) (disc : Bool) :
    AccessKept s (t.mapAbsent l lid u cnt disc) :=
  h.mapUpdate l lid fun _ _ hv => (mapCodes0 _ _ _ hv).bind fun _ _ hw => .ite (hw.mapByte _ _ _ _) (.ok hw)
theorem mapOver (h : LinksKept s t) (l : Launch) (lid u cnt : Nat) : AccessKept s (t.mapOver l lid u cnt) :=
  h.mapUpdate l lid fun _ _ hv => (mapOverBits _ _ _ _ hv).bind fun _ _ hw => hw.mapByte _ _ _ _
theorem writeStamp (h : LinksKept s t) (l : Launch) (lid : Nat) : AccessKept s (t.writeStamp l lid) := by
  have ht := h.translateRange (l.who lid) l.fields.cstamp 8 .write
  unfold State.writeStamp
  refine .ite (.ok h) ?_
  generalize t.translateRange (l.who lid) l.fields.cstamp 8 .write = a at ht ⊢
  cases ht with
  | wait hu => exact .wait hu
  | fault hu => exact .ok (hu.schedFault _ _ _ _)
  | ok hu => exact .ite (.ok (hu.schedFault _ _ _ _)) (.ok (writePieces _ _ _ hu))
theorem freeQuads (h : LinksKept s t) (l : Launch) (lid : Nat) : LinksKept s (t.freeQuads l lid) :=
  foldl (fun _ _ hu => hu.modCluster _ _) h _
theorem syncWindow (h : LinksKept s t) (cl : Nat) : LinksKept s (t.syncWindow cl) := by
  unfold State.syncWindow
  exact h.modCluster _ _
theorem freeShares (h : LinksKept s t) (l : Launch) (lid : Nat) : LinksKept s (t.freeShares l lid) :=
  foldl (fun _ _ hu => hu.syncWindow _) (foldl (fun _ _ hu => hu.modCore _ _) h _) _

theorem drain (k : Nat) (h : LinksKept s t) (lid : Nat) : LinksKept s (State.drain k t lid) := by
  induction k generalizing t lid with
  | zero => exact h
  | succ k ih =>
    have done {u : State} (hu : LinksKept s u) :
        LinksKept s (State.drain k (u.modLaunch lid fun l => { l with todo := l.todo.drop 1 }) lid) := ih (hu.modLaunch _ _) _
    have acc {a : Access Unit} (ha : AccessKept s a) : LinksKept s (match (generalizing := false) a with
        | .ok u _ => State.drain k (u.modLaunch lid fun l => { l with todo := l.todo.drop 1 }) lid
        | .wait u => u
        | .fault u _ _ => State.drain k (u.modLaunch lid fun l => { l with todo := l.todo.drop 1 }) lid) := by
      cases ha with
      | ok hu => exact done hu
      | fault hu => exact done hu
      | wait hu => exact hu
    unfold State.drain
    split
    · exact h
    · next l _ =>
      split
      · exact h
      · next e _ _ =>
        cases e with
        | join va => exact acc ((h.joinDec _ _ _).bind fun _ _ hu => .ok (.ite hu (ih hu _)))
        | out => exact done ((h.modLaunch _ _).maybeEnd _)
        | nets => exact done (((foldl (fun _ _ hu => hu.endNet _) h _).endNet _).endNet _)
        | stamp => exact acc (h.writeStamp _ _)
        | parent =>
          simp only []
          split
          · exact done h
          · exact done (ih ((h.modLaunch _ _).maybeEnd _) _)
        | finish => exact ((h.elsewhere).freeQuads _ _).freeShares _ _
        | codes u n disc => exact acc (h.mapAbsent _ _ _ _ _)
        | _ => exact acc (h.mapOver _ _ _ _)
theorem settleLaunch (h : LinksKept s t) (lid : Nat) : LinksKept s (t.settleLaunch lid) :=
  drain _ ((h.syncQueue _).maybeEnd _) _

theorem ringError (h : LinksKept s t) (lid : Nat) : LinksKept s (t.ringError lid) := by
  unfold State.ringError
  split
  · exact h
  · exact (h.modLaunch _ _).note _
theorem ringHead (h : LinksKept s t) (l : Launch) (lid : Nat) : AccessKept s (t.ringHead l lid) :=
  AccessKept.bind (AccessKept.bind (h.translateRange _ _ _ _) fun _ _ hu => .ok hu) fun _ _ hu => .ok hu
theorem closeSource (h : LinksKept s t) (lid : Nat) : LinksKept s (t.closeSource lid) := by
  unfold State.closeSource
  split
  · exact h
  · next l _ =>
    refine .ite h (.ite (h.modLaunch _ _) ?_)
    have hr := h.ringHead l lid
    generalize t.ringHead l lid = a at hr ⊢
    cases hr with
    | wait hu => exact hu
    | fault hu => exact hu.ringError _
    | @ok u x hu =>
      cases x with
      | none => exact hu.ringError _
      | some h => exact hu.modLaunch _ _
theorem killLaunch (h : LinksKept s t) (lid : Nat) : LinksKept s (t.killLaunch lid) := by
  unfold State.killLaunch
  split
  · exact h
  · exact ((foldl (fun _ _ hu => hu.stopCore _) (((h.modLaunch _ _).closeSource _).modLaunch _ _) _).modLaunch _ _).settleLaunch _

/-! A context that is killed. -/

theorem touchQueue (h : LinksKept s t) (q : Nat) : LinksKept s (t.touchQueue q) := by
  unfold State.touchQueue
  split
  · exact h
  · exact .ite (.ite h (h.modPart _ _)) ((h.modQueue _ _).modPart _ _)
theorem emptyQueue (h : LinksKept s t) (q : Nat) : LinksKept s (t.emptyQueue q) := by
  unfold State.emptyQueue
  split
  · exact h
  · refine foldl (fun u r hu => ?_) (((h.dropWaiters _ _).modQueue _ _).touchQueue _) _
    split
    · exact hu
    · exact (hu.modLaunch _ _).settleLaunch _
theorem scrubAfter (h : LinksKept s t) (ctx sl : Nat) : LinksKept s (t.scrubAfter ctx sl) := by
  have hd (mine : Nat → Bool) : LinksKept s (t.scrubData sl mine) :=
    .ite h.elsewhere (((h.elsewhere.modCluster _ _).modCore _ _).modCore _ _)
  exact .ite (hd _) (((hd _).modCore _ _).modCore _ _).elsewhere
theorem setOthers (h : LinksKept s t) (o : Assoc Core) : LinksKept s { t with others := o } := h.elsewhere
theorem forgetCode (h : LinksKept s t) (ctx : Nat) : LinksKept s (t.forgetCode ctx) := h.elsewhere
theorem killContext (h : LinksKept s t) (ctx step : Nat) : LinksKept s (t.killContext ctx step) := by
  unfold State.killContext
  refine note (forgetCode (modCtx (foldl ?_ (foldl ?_ (setOthers (foldl ?_ (foldl ?_ h _) _) _) _) _) _ _) _) _
  · exact fun _ _ hu => hu.scrubAfter _ _
  · exact fun _ _ hu => hu.emptyQueue _
  · exact fun _ _ hu => hu.stopCore _
  · exact fun _ _ hu => hu.killLaunch _

/-! Commands that end, and the time port. -/

theorem linkLost (h : LinksKept s t) (n : Nat) (seq : BitVec 32) (win : Nat) : LinksKept s (t.linkLost n seq win) :=
  modCmd (note h _) _ _ _
theorem finishCmd (h : LinksKept s t) (n : Nat) (seq : BitVec 32) (status count : Nat) :
    LinksKept s (t.finishCmd n seq status count) := by
  unfold State.finishCmd
  split
  · exact h
  · exact (h.modCore _ _).count _ _ _
theorem timeState (h : LinksKept s t) (st : BitVec 2) : LinksKept s (t.timeState st) :=
  .ite h (event h.elsewhere _ _ _ _ _ _)
theorem dropSource (h : LinksKept s t) : LinksKept s t.dropSource :=
  .ite (timeState h.elsewhere _) (.ite (timeState h.elsewhere _) h.elsewhere)
theorem ptmLost (h : LinksKept s t) : LinksKept s t.ptmLost := .ite (dropSource h.elsewhere) h.elsewhere

end LinksKept

/-! The steps. -/

/-- R395: a link that fails is down; with link 1 the core that acts and memory stay. -/
theorem exec_pcieLinkFailure_pcie (s : State) (link : Fin 2) : ∃ t, exec (.pcieLinkFailure link) s = .next t ∧
    t.pcie = s.pcie &&& ~~~(1#2 <<< link.val) ∧ (link = 1 → t.core = s.core ∧ t.mem = s.mem) := by
  rw [exec_pcieLinkFailure]
  unfold execPcieLinkFailure
  extract_lets u v
  split
  · exact ⟨u, rfl, rfl, fun _ => ⟨rfl, rfl⟩⟩
  · next hl =>
    have hv : LinksKept u v := (LinksKept.refl u).ptmLost
    exact ⟨_, rfl, (hv.foldl (fun _ _ hw => hw.openWord.killContext _ _) _).pcie, fun he => absurd he hl⟩

theorem getLsbD_cleared (p : BitVec 2) (i : Fin 2) : (p &&& ~~~(1#2 <<< i.val)).getLsbD i.val = false := by
  revert p i; decide

/-- R399, R403: a port takes its peer's serial, unless the start has skipped the ports. -/
theorem exec_slovasLinkTraining_peer (s : State) (port : Nat) (peer : Word) (hp : port < 16) (hs : s.skipped 9 = false) :
    exec (.slovasLinkTraining port peer) s = .next { s with peers := s.peers.put port peer } := by
  rw [exec_slovasLinkTraining]
  unfold execSlovasLinkTraining
  rw [if_pos (by simp [hp, hs])]
theorem exec_slovasLinkTraining_none (s : State) (port : Nat) (peer : Word) (h : 16 ≤ port ∨ s.skipped 9 = true) :
    exec (.slovasLinkTraining port peer) s = .next s := by
  rw [exec_slovasLinkTraining]
  unfold execSlovasLinkTraining
  have hn : ¬(port < 16 ∧ (!s.skipped 9) = true) := by
    rintro ⟨hp, hs⟩
    cases h with
    | inl h => omega
    | inr h =>
      rw [h] at hs
      exact Bool.noConfusion hs
  exact congrArg Host.Outcome.next (if_neg hn)

/-- R248: a link that fails loses its peer and what is on it; no `PUT` comes anew, and with none under way memory stays. -/
theorem exec_slovasLinkFailure_links (s : State) (port : Nat) : ∃ t, exec (.slovasLinkFailure port) s = .next t ∧
    t.peers.find? port = none ∧ (∀ o ∈ t.putOuts, o.port ≠ port) ∧ (∀ q ∈ t.puts, q ∈ s.puts) ∧ (s.puts = [] → t.mem = s.mem) := by
  rw [exec_slovasLinkFailure]
  unfold execSlovasLinkFailure
  extract_lets mine gone u
  have hk : LinksKept u _ := (LinksKept.refl u).foldl
    (fun _ q hv => (hv.linkLost q.1 q.2.seq (q.2.op 0).toNat).finishCmd q.1 q.2.seq 0x80 0) gone
  refine ⟨_, rfl, ?_, ?_, ?_, ?_⟩
  · rw [hk.peers]
    exact (Assoc.find?_del _ _ _).trans (if_pos rfl)
  · rw [hk.putOuts]
    exact fun o ho => of_decide_eq_true (List.mem_filter.1 ho).2
  · exact fun q hq => (List.mem_filter.1 (hk.puts q hq)).1
  · intro hp
    have hg : gone = [] := by simp [gone, hp]
    rw [hg]
    rfl

end Sys2Proof.Proofs.Links
end

section
set_option Elab.async false
namespace Sys2Proof.Proofs.Resets
open Sys2Proof Sys2Proof.Machine Sys2Proof.Laws

/-! The cores and the memory of the machine, by number. -/

theorem find?_some_mem {α : Type} {m : Assoc α} {k : Nat} {a : α} (h : m.find? k = some a) : (k, a) ∈ m := by
  induction m with
  | nil => simp [Assoc.find?] at h
  | cons e m ih =>
    simp only [Assoc.find?] at h
    split at h
    · next hk =>
      obtain rfl := Option.some.inj h
      subst hk
      exact List.mem_cons_self
    · exact List.mem_cons_of_mem _ (ih h)

theorem mem_put {α : Type} {m : Assoc α} {k : Nat} {a : α} {e : Nat × α} (h : e ∈ m.put k a) : e = (k, a) ∨ e ∈ m := by
  rcases List.mem_append.1 h with h | h
  · exact .inr (List.mem_filter.1 h).1
  · rcases List.mem_cons.1 h with h | h
    · exact .inl h
    · exact .inr (List.mem_filter.1 h).1

theorem coreAt_modCore (s : State) (n : Nat) (f : Core → Core) (m : Nat) :
    (s.modCore n f).coreAt m = if m = n then { f (s.coreAt n) with id := n } else s.coreAt m := by
  unfold State.modCore State.setCore
  split
  · next hn =>
    simp only at hn
    by_cases hm : m = n
    · rw [if_pos hm, State.coreAt, if_pos hm.symm]
    · rw [if_neg hm]
      simp only [State.coreAt, hn, if_neg (Ne.symm hm)]
  · next hn =>
    simp only at hn
    simp only [State.coreAt, Assoc.get_put]
    split <;> split <;> simp_all

/-- While no core has been touched, each is as reset leaves it (log 3). -/
theorem coreAt_untouched {s : State} (hc : s.core = Core.reset 0) (ho : s.others = []) (n : Nat) : s.coreAt n = Core.reset n := by
  unfold State.coreAt
  rw [hc, ho]
  split
  · next hn => exact congrArg Core.reset hn
  · rfl

/-- No core has a role. -/
def AllIdle (s : State) : Prop := s.core.role = .idle ∧ ∀ e ∈ s.others, e.2.role = .idle

theorem AllIdle.coreAt {s : State} (h : AllIdle s) (n : Nat) : (s.coreAt n).role = .idle := by
  unfold State.coreAt
  split
  · exact h.1
  · unfold Assoc.get
    cases hf : s.others.find? n with
    | none => rfl
    | some c => exact h.2 _ (find?_some_mem hf)

theorem AllIdle.modCore {s : State} (h : AllIdle s) (n : Nat) {f : Core → Core} (hf : ∀ c, (f c).role = c.role) :
    AllIdle (s.modCore n f) := by
  have hn : (f (s.coreAt n)).role = .idle := (hf _).trans (h.coreAt n)
  unfold State.modCore State.setCore
  split
  · exact ⟨hn, h.2⟩
  · refine ⟨h.1, fun e he => ?_⟩
    rcases mem_put he with rfl | he
    · exact hn
    · exact h.2 e he

theorem AllIdle.of_mem_allCores {s : State} (h : AllIdle s) {c : Core} (hc : c ∈ s.allCores) : c.role = .idle := by
  have ho {p : Core → Bool} (hm : c ∈ (s.others.map Prod.snd).filter p) : c.role = .idle := by
    obtain ⟨e, he, rfl⟩ := List.mem_map.1 (List.mem_filter.1 hm).1
    exact h.2 e he
  rcases List.mem_append.1 hc with hc | hc
  · exact ho hc
  · rcases List.mem_cons.1 hc with rfl | hc
    · exact h.1
    · exact ho hc

/-- No core of a die is at work. -/
theorem AllIdle.busy_nil {s : State} (h : AllIdle s) (die : Nat) :
    (s.allCores.filter fun c => c.id < 4112 && dieOf c.id = die && c.role != .idle) = [] := by
  refine List.filter_eq_nil_iff.2 fun c hc => ?_
  simp [h.of_mem_allCores hc]

/-- An address outside the reserved regions lies outside each (R392). -/
theorem apart_of_inTephra {a die n : Nat} (h : inTephra a = false) (hd : die < 16) (hn : n ≤ 262144) :
    a < tephraBase die ∨ tephraBase die + n ≤ a := by
  have := List.any_eq_false.1 h die (List.mem_range.2 hd)
  simp only [Bool.and_eq_true, decide_eq_true_eq, not_and] at this
  omega

/-! The tephra rings and their copies. -/

/-- Every ring is within what the recorder of a die holds (R391). -/
def RingsFit (s : State) : Prop := ∀ d < 16, (s.tephra.get { evs := [], wrapped := false } d).evs.length ≤ 4096

/-- From `s` to `t` events have been entered, and nothing else has changed. -/
def Logged (s t : State) : Prop :=
  ∃ f r, t = { s with free := f, tephra := r } ∧ (RingsFit s → RingsFit t)

theorem Logged.refl (s : State) : Logged s s := ⟨_, _, rfl, id⟩
theorem Logged.trans {s t u : State} (h : Logged s t) (k : Logged t u) : Logged s u := by
  obtain ⟨_, _, rfl, ht⟩ := h
  obtain ⟨_, _, rfl, hu⟩ := k
  exact ⟨_, _, rfl, hu ∘ ht⟩
theorem Logged.evBase {s t : State} (h : Logged s t) : t.evBase = s.evBase := by
  obtain ⟨_, _, rfl, _⟩ := h
  rfl

theorem logged_arg (s : State) (a : Option Nat) : Logged s (s.arg a).1 := by
  cases a with
  | some v => exact .refl s
  | none => exact ⟨_, _, rfl, id⟩

theorem logged_tephraAdd (s : State) (e : TephraEv) : Logged s (s.tephraAdd e) := by
  refine ⟨_, _, rfl, fun h d hd => ?_⟩
  have := h d hd
  simp only [State.tephraAdd, Assoc.get_put]
  split
  · next he =>
    subst he
    split
    · simp only [List.length_drop, List.length_append, List.length_singleton]; omega
    · simp only [List.length_append, List.length_singleton] at *; omega
  · exact this

/-- With no event queue an event enters its ring alone (R397). -/
theorem logged_event {s : State} (h : s.evBase = 0) (die code part core : Nat) (a b : Option Nat) :
    Logged s (s.event die code part core a b) := by
  have hl (e : TephraEv) : Logged s (((s.arg a).1.arg b).1.tephraAdd e) :=
    ((logged_arg _ _).trans (logged_arg _ _)).trans (logged_tephraAdd _ _)
  unfold State.event
  simp only []
  split
  · unfold State.evQueue
    rw [if_pos ((hl _).evBase.trans h)]
    exact hl _
  · exact hl _

theorem logged_dieEvent {s : State} (h : s.evBase = 0) (die : Nat) : Logged s (s.dieEvent die) := by
  unfold State.dieEvent
  refine List.foldlRecOn _ _ (logged_event h _ _ _ _ _ _) fun u hu d _ => ?_
  exact hu.trans ((logged_arg u none).trans (logged_tephraAdd _ _))

/-- From `s` to `t` rings have been copied: what memory holds outside the reserved regions stays, and nothing but memory with
its marks has changed. -/
def Copied (s t : State) : Prop :=
  ∃ f m p c, t = { s with free := f, mem := m, mpois := p, scans := c } ∧ (s.scans = [] → c = []) ∧
    (RingsFit s → ∀ a, inTephra a = false → m.byte a = s.mem.byte a)

theorem Copied.refl (s : State) : Copied s s := ⟨_, _, _, _, rfl, id, fun _ _ _ => rfl⟩
theorem Copied.trans {s t u : State} (h : Copied s t) (k : Copied t u) : Copied s u := by
  obtain ⟨_, _, _, _, rfl, hc, hm⟩ := h
  obtain ⟨_, _, _, _, rfl, kc, km⟩ := k
  exact ⟨_, _, _, _, rfl, kc ∘ hc, fun hr a ha => (km hr a ha).trans (hm hr a ha)⟩

theorem tephraEv_bytes_length (e : TephraEv) : e.bytes.length = 32 := by simp [TephraEv.bytes]

theorem tephraEvs_bytes_length (evs : List TephraEv) : (evs.flatMap TephraEv.bytes).length = 32 * evs.length := by
  induction evs with
  | nil => rfl
  | cons e evs ih =>
    simp only [List.flatMap_cons, List.length_append, tephraEv_bytes_length, ih, List.length_cons]
    omega

theorem copied_tephraCopy (s : State) {die : Nat} (hd : die < 16) : Copied s (s.tephraCopy die) := by
  unfold State.tephraCopy
  split
  · exact .refl s
  · extract_lets r evs torn
    generalize hb : leBytes 4 evs.length ++ leBytes 4 (r.wrapped.toNat + 2 * torn.toNat) ++ leBytes 56 0 ++
      evs.flatMap TephraEv.bytes = bs
    have hw := physWrite_apart { s with free := s.free + 1 } (tephraBase die) bs
    have hl (hr : RingsFit s) : bs.length ≤ 262144 := by
      have h := hr die hd
      have he : evs.length ≤ r.evs.length := List.length_take_le' _ _
      subst hb
      simp only [List.length_append, leBytes_length, tephraEvs_bytes_length]
      change r.evs.length ≤ 4096 at h
      omega
    have hm (hr : RingsFit s) (a : Nat) (ha : inTephra a = false) := hw a (apart_of_inTephra ha hd (hl hr))
    revert hm
    unfold State.physWrite
    split
    · exact fun _ => ⟨_, _, _, _, rfl, id, fun _ _ _ => rfl⟩
    · exact fun hm => ⟨_, _, _, _, rfl, fun hs => by rw [hs]; rfl, hm⟩

theorem copied_tephraCopies (s : State) : Copied s s.tephraCopies :=
  List.foldlRecOn _ _ (.refl s) fun _ hu _ hd => hu.trans (copied_tephraCopy _ (List.mem_range.1 hd))

/-! The machine between the wipe and the end of the start. -/

/-- Nothing is under way, and no event queue is set up. -/
structure Quiet (t : State) : Prop where
  ctxs : t.ctxs = []
  queues : t.queues = []
  launches : t.launches = []
  nets : t.nets = []
  tables : t.tables = []
  leases : t.leases = []
  stores : t.stores = []
  flips : t.flips = []
  scans : t.scans = []
  evBase : t.evBase = 0

/-- `t` is a stage of the start of the wiped machine `s`: the cores of the dies in service are as reset, nothing is under way, the
rings are within bounds, and what flash, fuses and memory outside the reserved regions hold is that of `s` (R2, R392, R403). -/
structure Fresh (s t : State) : Prop where
  cores : ∀ n, t.failed.getLsbD (dieOf n) = false → t.coreAt n = Core.reset n
  idle : AllIdle t
  quiet : Quiet t
  rings : RingsFit t
  rollback : t.rollback = s.rollback
  boots : t.boots = s.boots
  record : t.record.length = s.record.length
  mem : ∀ a, inTephra a = false → t.mem.byte a = s.mem.byte a

theorem fresh_wiped (s : State) (warm : Bool) : Fresh (s.wiped warm) (s.wiped warm) where
  cores n _ := coreAt_untouched rfl rfl n
  idle := ⟨rfl, fun _ h => absurd h List.not_mem_nil⟩
  quiet := ⟨rfl, rfl, rfl, rfl, rfl, rfl, rfl, rfl, rfl, rfl⟩
  rings _ _ := Nat.zero_le _
  rollback := rfl
  boots := rfl
  record := rfl
  mem _ _ := rfl

variable {s t u : State}

namespace Fresh

theorem logged (h : Fresh s t) (k : Logged t u) : Fresh s u := by
  obtain ⟨_, _, rfl, hr⟩ := k
  exact { h with quiet := { h.quiet with }, rings := hr h.rings }

theorem copied (h : Fresh s t) (k : Copied t u) : Fresh s u := by
  obtain ⟨_, _, _, _, rfl, hc, hm⟩ := k
  exact { h with quiet := { h.quiet with scans := hc h.quiet.scans }, mem := fun a ha => (hm h.rings a ha).trans (h.mem a ha) }

/-- A die that fails takes its cores out of what is said of cores. -/
theorem setFailed (h : Fresh s t) (m : BitVec 16) : Fresh s { t with failed := t.failed ||| m } :=
  { h with quiet := { h.quiet with }, cores := fun n hn => h.cores n (by simp_all) }

theorem modCore_failed (h : Fresh s t) {die n : Nat} (hd : t.failed.getLsbD die = true) (hn : dieOf n = die) {f : Core → Core}
    (hf : ∀ c, (f c).role = c.role) : Fresh s (t.modCore n f) where
  cores m hm := by
    rw [State.modCore_failed] at hm
    have : m ≠ n := fun e => by rw [e, hn, hd] at hm; exact Bool.noConfusion hm
    rw [coreAt_modCore, if_neg this]
    exact h.cores m hm
  idle := h.idle.modCore n hf
  quiet := by
    obtain ⟨h1, h2, h3, h4, h5, h6, h7, h8, h9, h10⟩ := h.quiet
    constructor <;> simpa
  rings := by simpa [RingsFit] using h.rings
  rollback := by simpa using h.rollback
  boots := by simpa using h.boots
  record := by simpa using h.record
  mem := by simpa using h.mem

theorem setOut (h : Fresh s t) (o : List Nat) (c : Assoc Nat) : Fresh s { t with out := o, clock := c } :=
  { h with quiet := { h.quiet with } }

theorem dieOf_core {die i : Nat} (hd : die < 16) (hi : i < 256) : dieOf (256 * die + i) = die := by
  unfold dieOf
  rw [if_pos (by omega)]
  omega

theorem tasksLost_eq (h : Fresh s t) (die : Nat) : t.tasksLost die = t := by
  have hl (u : State) (hu : u = t) :
      ((u.allCores.filter fun c => c.id < 4112 && dieOf c.id = die && c.role != .idle).map Core.id).foldl State.stopCore u = t := by
    rw [hu, h.idle.busy_nil]
    rfl
  exact hl _ (by rw [h.quiet.launches]; rfl)

theorem leasesLost_eq (h : Fresh s t) (die : Nat) : t.leasesLost die = t := by
  unfold State.leasesLost
  rw [h.quiet.leases]
  rfl

theorem dieFails (h : Fresh s t) {die : Nat} (hd : die < 16) : Fresh s (t.dieFails die) := by
  unfold State.dieFails
  extract_lets marked entered counted busy consumed sealed kept tasks leases moved killed
  have hm : Fresh s marked := h.setFailed _
  have he : Fresh s entered := hm.logged (logged_dieEvent hm.quiet.evBase die)
  have hf : entered.failed.getLsbD die = true := by
    obtain ⟨_, _, e, _⟩ := logged_dieEvent hm.quiet.evBase die
    simp [entered, e, marked, hd]
  have hn : counted = entered := by simp [counted, he.quiet.nets]
  have hb : consumed = entered := by simp [consumed, busy, hn, he.idle.busy_nil]
  have hs : Fresh s sealed ∧ sealed.failed.getLsbD die = true := by
    refine List.foldlRecOn (motive := fun u => Fresh s u ∧ u.failed.getLsbD die = true) (List.range 256) _ (hb ▸ ⟨he, hf⟩)
      fun u hu i hi => ?_
    obtain ⟨hu, hf⟩ := hu
    exact ⟨hu.modCore_failed hf (dieOf_core hd (List.mem_range.1 hi)) fun _ => rfl, by simpa using hf⟩
  have hk : Fresh s kept := hs.1.setOut _ _
  have hl : leases = kept := by simp only [leases, tasks, hk.tasksLost_eq, hk.leasesLost_eq]
  clear_value kept
  have hv : Fresh s moved := by
    simp only [moved, hl, hk.quiet.launches, hk.quiet.nets]
    exact { hk with quiet := { hk.quiet with launches := rfl, nets := rfl } }
  have hx : killed = moved := by simp [killed, hv.quiet.launches]
  rw [hx, hv.quiet.tables]
  exact hv

theorem failDie (h : Fresh s t) {die : Nat} (hd : die < 16) : Fresh s (t.failDie die) :=
  (h.dieFails hd).copied (copied_tephraCopies _)

/-! The steps of the start. -/

theorem checkHeader (h : Fresh s t) {die : Nat} (hd : die < 16) : Fresh s (t.checkHeader die) := by
  unfold State.checkHeader
  extract_lets b
  split
  · refine { h with quiet := { h.quiet with }, mem := fun a ha => ?_ }
    have := apart_of_inTephra (n := 64) ha hd (by omega)
    rw [← h.mem a ha]
    exact (Memory.byte_zero _ _ _ _).trans (if_neg (by omega))
  · exact h

theorem startWork (h : Fresh s t) (step out : Nat) : Fresh s (t.startWork step out) := by
  unfold State.startWork
  split
  · exact List.foldlRecOn _ _ h fun _ hu _ hd => hu.checkHeader (List.mem_range.1 hd)
  · split
    · have hp : Fresh s (if out = 2 then t.openWord else (t, 1)).1 := by
        split
        · exact { h with quiet := { h.quiet with } }
        · exact h
      generalize (if out = 2 then t.openWord else (t, 1)) = p at hp ⊢
      exact { hp with quiet := { hp.quiet with } }
    · split
      · exact { h with quiet := { h.quiet with } }
      · exact h

theorem startStep (h : Fresh s t) (step : Nat) : Fresh s (t.startStep step).1 := by
  unfold State.startStep
  extract_lets use begun w low fails both fb out gone failing d alt e entered noted
  have hb : Fresh s begun := { h with quiet := { h.quiet with } }
  have hf : Fresh s failing := by
    refine List.foldlRecOn _ _ hb fun u hu die hm => ?_
    have hd : die < 16 := List.mem_range.1 (List.mem_filter.1 hm).1
    split
    · exact hu.dieFails hd
    · exact hu.failDie hd
  have he : Fresh s entered :=
    { hf with quiet := { hf.quiet with }, record := (List.length_map _).trans hf.record }
  have hn : Fresh s noted := he.logged (logged_event he.quiet.evBase _ _ _ _ _ _)
  split
  · exact { hn with quiet := { hn.quiet with } }
  · exact hn.startWork _ _

theorem startFrom (h : Fresh s t) (n step : Nat) : Fresh s (State.startFrom n t step) := by
  induction n generalizing t step with
  | zero => exact h
  | succ n ih =>
    have hs := h.startStep step
    unfold State.startFrom
    split
    next v go e =>
    rw [e] at hs
    split
    · exact ih hs _
    · exact hs

end Fresh

/-- A step that ends the start leaves it failed (R403). -/
theorem startStep_start_of_stop {step : Nat} (h : (t.startStep step).2 = false) : (t.startStep step).1.start = 2 := by
  unfold State.startStep at h ⊢
  extract_lets at h ⊢
  split at h
  · next hs => rw [if_pos hs]
  · exact absurd h (by simp)

/-- The last step, when it does not fail, leaves the module ready (R403). -/
theorem startStep_start_of_last (h : (t.startStep 11).2 = true) : (t.startStep 11).1.start = 1 := by
  unfold State.startStep at h ⊢
  extract_lets at h ⊢
  split at h
  · exact absurd h (by simp)
  · next hs =>
    rw [if_neg hs]
    simp [State.startWork]

/-- The start ends ready or failed (R396, R403). -/
theorem startFrom_start (n : Nat) (t : State) (step : Nat) (h : n + step = 11) :
    (State.startFrom (n + 1) t step).start = 1 ∨ (State.startFrom (n + 1) t step).start = 2 := by
  induction n generalizing t step with
  | zero =>
    obtain rfl : step = 11 := by omega
    have hl := @startStep_start_of_last t
    have hs := @startStep_start_of_stop t 11
    unfold State.startFrom
    generalize t.startStep 11 = p at hl hs ⊢
    obtain ⟨v, go⟩ := p
    cases go with
    | true => exact .inl (hl rfl)
    | false => exact .inr (hs rfl)
  | succ n ih =>
    have hs := @startStep_start_of_stop t step
    unfold State.startFrom
    generalize t.startStep step = p at hs ⊢
    obtain ⟨v, go⟩ := p
    cases go with
    | true => exact ih v (step + 1) (by omega)
    | false => exact .inr (hs rfl)

/-- The start counts the boot and makes a new record, of eleven entries (R393, R403). -/
theorem boot_wiped (s : State) (warm : Bool) :
    Fresh { s.wiped warm with boots := s.boots + 1, record := emptyRecord } (s.wiped warm).boot ∧
      ((s.wiped warm).boot.start = 1 ∨ (s.wiped warm).boot.start = 2) := by
  have hw := fresh_wiped s warm
  refine ⟨Fresh.startFrom ?_ 11 1, startFrom_start 10 _ 1 rfl⟩
  exact { hw with quiet := { hw.quiet with }, boots := rfl, record := rfl }

/-- What a wiped memory holds: that of the host, and after a warm reset the reserved regions (R392; log 4). -/
theorem wiped_byte (s : State) (warm : Bool) (a : Nat) :
    (s.wiped warm).mem.byte a = if isHost a || (warm && inTephra a) then s.mem.byte a else 0 :=
  Memory.byte_filter s.mem (fun a => isHost a || (warm && inTephra a)) a

/-! The obligations. -/

/-- What a reset leaves of the cores, of what was under way, and of the fuses. -/
def Cleared (r : Nat) (t : State) : Prop :=
  (∀ n, t.failed.getLsbD (dieOf n) = false → t.coreAt n = Core.reset n) ∧ t.ctxs = [] ∧ t.queues = [] ∧ t.launches = [] ∧
    t.nets = [] ∧ t.tables = [] ∧ t.leases = [] ∧ t.stores = [] ∧ t.flips = [] ∧ t.scans = [] ∧ t.rollback = r

theorem Fresh.cleared (h : Fresh s t) : Cleared s.rollback t :=
  ⟨h.cores, h.quiet.ctxs, h.quiet.queues, h.quiet.launches, h.quiet.nets, h.quiet.tables, h.quiet.leases, h.quiet.stores,
    h.quiet.flips, h.quiet.scans, h.rollback⟩

/-- A start of a wiped machine is counted, recorded and ends, with everything else as the wipe left it (R393, R403). -/
theorem boot_started (s : State) (warm : Bool) :
    Cleared s.rollback (s.wiped warm).boot ∧ (s.wiped warm).boot.boots = s.boots + 1 ∧ (s.wiped warm).boot.record.length = 11 ∧
      ((s.wiped warm).boot.start = 1 ∨ (s.wiped warm).boot.start = 2) := by
  obtain ⟨hf, hs⟩ := boot_wiped s warm
  exact ⟨hf.cleared, hf.boots, hf.record, hs⟩

theorem warmReset_started (s : State) : ∃ t, exec .warmReset s = .next t ∧ Cleared s.rollback t ∧ t.boots = s.boots + 1 ∧
    t.record.length = 11 ∧ (t.start = 1 ∨ t.start = 2) := by
  obtain ⟨_, _, _, _, hc, _⟩ := copied_tephraCopies s
  have hb := boot_started s.tephraCopies true
  refine ⟨_, exec_warmReset s, ?_⟩
  generalize hu : s.tephraCopies = u at hb hc ⊢
  subst hc
  exact hb

/-- R392: after a warm reset memory outside the reserved regions reads zero, but for that of the host. -/
theorem warmReset_byte (h : RingsFit s) {a : Nat} (ha : inTephra a = false) :
    (s.tephraCopies.wiped true).boot.mem.byte a = if isHost a then s.mem.byte a else 0 := by
  obtain ⟨_, _, _, _, hc, _, hm⟩ := copied_tephraCopies s
  rw [(boot_wiped s.tephraCopies true).1.mem a ha]
  show (s.tephraCopies.wiped true).mem.byte a = _
  rw [wiped_byte, hc, hm h a ha]
  simp [ha]

end Sys2Proof.Proofs.Resets
end

section
set_option Elab.async false
namespace Sys2Proof.Proofs.Resets
open Sys2Proof Sys2Proof.Machine Sys2Proof.Proofs.Links

/-- Every quadrant of a cluster that nothing has touched is as reset leaves it (R196). -/
theorem quad_reset {i : Nat} (h : i < 4) : Cluster.reset.quad i = Quad.reset := by
  unfold Cluster.quad Cluster.reset
  simp only [Vector.toList_replicate, List.getD_eq_getElem?_getD, List.getElem?_replicate, if_pos h, Option.getD_some]

/-- Settles O56: cores and clusters by number are as `Core.reset` and `Cluster.reset` have them, the rest stands in
`State.reset`. -/
theorem resetValues : Obligations.ResetValues := by
  refine ⟨rfl, rfl, rfl, rfl, rfl, rfl, fun _ => rfl, rfl, rfl, rfl, fun n => ?_, fun k => ⟨rfl, fun i hi => ?_⟩⟩
  · rw [coreAt_untouched rfl rfl]
    exact ⟨rfl, rfl, rfl, rfl, rfl⟩
  · exact congrArg Quad.valid (quad_reset hi)

/-- Settles O50. The resets: `Fresh` holds of the wiped machine and every step of the start keeps it. The links: what a failing
link brings about changes no link (`LinksKept`). -/
theorem resetsAndLinks : Obligations.ResetsAndLinks := by
  intro s link port peer
  refine ⟨⟨_, exec_powerOn s, boot_started s false⟩, ⟨_, exec_coldReset s, boot_started s false⟩, warmReset_started s,
    ⟨_, exec_powerLoss s, (fresh_wiped s false).cleared, rfl, rfl, fun a => ?_⟩,
    fun hr => ⟨_, exec_warmReset s, fun a ha => warmReset_byte hr ha⟩, ?_, ?_,
    fun hp hs => ⟨_, exec_slovasLinkTraining_peer s port peer hp hs, Assoc.find?_put_self _ _ _, rfl⟩,
    exec_slovasLinkTraining_none s port peer, exec_slovasLinkFailure_links s port⟩
  · rw [wiped_byte]
    simp
  · obtain ⟨_, _, _, _, hc, _, hm⟩ := copied_tephraCopies s
    exact ⟨_, (exec_tephraCopyRequest s).trans (congrArg Host.Outcome.next hc), rfl, rfl, fun a ha hr => hm hr a ha⟩
  · obtain ⟨t, he, hl, hk⟩ := exec_pcieLinkFailure_pcie s link
    exact ⟨t, he, hl ▸ getLsbD_cleared s.pcie link, hk⟩

end Sys2Proof.Proofs.Resets
end

section
set_option Elab.async false
namespace Sys2Proof.Proofs.Streams
open Sys2Proof Sys2Proof.Machine Sys2Proof.Safety

/-! What a transfer does to the leader and its loops (R70, R76). -/

/-- A loop that has ended (R74 to R76). -/
def ended (q : LoopLevel) : LoopLevel := { q with cnt := 0, active := false }

/-- The loop's body holds the address (R76). -/
def Inside (q : LoopLevel) (t : Word) : Prop := q.start ≤ t ∧ t < q.stop

theorem breakLoop_loops (c : Core) (n : LoopLevel) (l : Level) :
    (c.breakLoop n).loops[l] =
      if c.loops[l].active = true ∧ n.depth ≤ c.loops[l].depth then ended c.loops[l] else c.loops[l] := by
  simp [Core.breakLoop, ended]

/-- What ending some of a list of loops leaves: a loop ends when it is nested in one of those, or is one. -/
theorem foldl_breakLoop_loops (p : LoopLevel → Prop) [DecidablePred p] (l : Level) (qs : List LoopLevel) (c : Core) :
    (qs.foldl (fun d q => if p q then d.breakLoop q else d) c).loops[l] =
      if c.loops[l].active = true ∧ ∃ q ∈ qs, p q ∧ q.depth ≤ c.loops[l].depth then ended c.loops[l] else c.loops[l] := by
  induction qs generalizing c with
  | nil => simp
  | cons q qs ih =>
    rw [List.foldl_cons, ih]
    by_cases hq : p q
    · rw [if_pos hq, breakLoop_loops]
      by_cases hn : c.loops[l].active = true ∧ q.depth ≤ c.loops[l].depth
      · have he : c.loops[l].active = true ∧ ∃ r ∈ q :: qs, p r ∧ r.depth ≤ c.loops[l].depth :=
          ⟨hn.1, q, List.mem_cons_self, hq, hn.2⟩
        rw [if_pos hn, if_pos he]
        simp [ended]
      · have he : (c.loops[l].active = true ∧ ∃ r ∈ q :: qs, p r ∧ r.depth ≤ c.loops[l].depth) ↔
            (c.loops[l].active = true ∧ ∃ r ∈ qs, p r ∧ r.depth ≤ c.loops[l].depth) := by
          refine and_congr_right fun ha => ⟨fun ⟨r, hr, hp, hd⟩ => ?_, fun ⟨r, hr, h⟩ => ⟨r, List.mem_cons_of_mem _ hr, h⟩⟩
          rcases List.mem_cons.1 hr with rfl | hr
          · exact absurd ⟨ha, hd⟩ hn
          · exact ⟨r, hr, hp, hd⟩
        rw [if_neg hn]
        simp only [he]
    · rw [if_neg hq]
      simp [hq]

theorem foldl_breakLoop_only (p : LoopLevel → Prop) [DecidablePred p] (qs : List LoopLevel) (c : Core) :
    ∃ ls, qs.foldl (fun d q => if p q then d.breakLoop q else d) c = { c with loops := ls } := by
  refine List.foldlRecOn (motive := fun d : Core => ∃ ls, d = { c with loops := ls }) qs _ ⟨_, rfl⟩ fun d hd q _ => ?_
  obtain ⟨ls, rfl⟩ := hd
  split
  · exact ⟨_, rfl⟩
  · exact ⟨_, rfl⟩

theorem exists_mem_loops {ls : Vector LoopLevel 3} {P : LoopLevel → Prop} :
    (∃ q ∈ ls.toList, P q) ↔ ∃ l : Level, P ls[l] := by
  constructor
  · rintro ⟨q, hq, h⟩
    obtain ⟨i, hi, rfl⟩ := List.mem_iff_getElem.1 hq
    exact ⟨⟨i, by simpa using hi⟩, by simpa using h⟩
  · rintro ⟨l, h⟩
    exact ⟨_, Vector.mem_toList_iff.2 (Vector.getElem_mem l.isLt), h⟩

/-- R76: a loop ends when one that it is nested in, or it itself, does not hold the target. -/
theorem leaveLoops_loops (c : Core) (t : Word) (l : Level) :
    (c.leaveLoops t).loops[l] = if c.loops[l].active = true ∧ (∃ m : Level, c.loops[m].active = true ∧
        ¬ (c.loops[m].start ≤ t ∧ t < c.loops[m].stop) ∧ c.loops[m].depth ≤ c.loops[l].depth) then
      ended c.loops[l] else c.loops[l] := by
  unfold Core.leaveLoops
  rw [foldl_breakLoop_loops]
  simp only [exists_mem_loops, and_assoc]

theorem leaveLoops_only (c : Core) (t : Word) : ∃ ls, c.leaveLoops t = { c with loops := ls } :=
  foldl_breakLoop_only _ _ _

/-- The loop that the buffer holds is active (R80). -/
theorem buffered_active {s : State} {q : LoopLevel} (h : s.buffered = some q) : ∃ l : Level, s.core.loops[l] = q ∧ q.active = true := by
  have hm : q ∈ s.core.loops.toList.filter fun q => q.active && s.holds q := by
    revert h
    refine List.foldlRecOn (motive := fun m : Option LoopLevel => m = some q → q ∈ _) _ _ (fun h => nomatch h) fun m hm r hr => ?_
    cases m with
    | none => rintro ⟨⟩; exact hr
    | some b =>
      simp only
      split
      · rintro ⟨⟩; exact hr
      · exact hm
  obtain ⟨hq, ha⟩ := List.mem_filter.1 hm
  obtain ⟨l, hl⟩ := exists_mem_loops.1 ⟨q, hq, rfl⟩
  exact ⟨l, hl.symm, (Bool.and_eq_true_iff.1 ha).1⟩

/-- An address that the loop buffer holds lies in the body of an active loop. -/
theorem inside_of_inBuffer {s : State} {t : Word} (h : s.inBuffer t t = true) :
    ∃ l : Level, s.core.loops[l].active = true ∧ Inside s.core.loops[l] t := by
  unfold State.inBuffer at h
  split at h
  · next q hq =>
    obtain ⟨l, rfl, ha⟩ := buffered_active hq
    simp only [Bool.and_eq_true, decide_eq_true_eq] at h
    exact ⟨l, ha, h.1.1, h.2⟩
  · exact absurd h Bool.false_ne_true

variable {s : State}

theorem transfer_leads (h : s.core.leads = true) (t : Word) :
    s.transfer t = { s with core := { s.core.retireSlot with pc := t, gap := if s.inBuffer t t then 0 else 2 } } := by
  unfold State.transfer
  rw [if_pos h]

/-- For a follower a transfer is a retirement as any other (R13). -/
theorem transfer_follows (h : s.core.leads = false) (t : Word) : s.transfer t = s.retire := by
  unfold State.transfer State.retire
  simp [h]

theorem jump_follows (h : s.core.leads = false) (t : Word) : s.jump t = s.retire := by
  unfold State.jump
  have hu : (s.upd fun c => if c.leads then c.leaveLoops t else c) = s := by simp [State.upd, h]
  rw [hu, transfer_follows h]

/-- `u` is where a taken jump to `t` takes the leader (R70, R76). -/
def Jumped (s : State) (t : Word) (u : State) : Prop :=
  let c := s.core
  u.core.pc = t ∧ u.core.retired = c.retired + 1 ∧ (u.core.gap = 0 ∨ u.core.gap = 2) ∧
    ((∀ l : Level, ¬ (c.loops[l].active = true ∧ c.loops[l].start ≤ t ∧ t < c.loops[l].stop)) → u.core.gap = 2) ∧
    (∀ l : Level, u.core.loops[l] = if c.loops[l].active = true ∧ (∃ m : Level, c.loops[m].active = true ∧
        ¬ (c.loops[m].start ≤ t ∧ t < c.loops[m].stop) ∧ c.loops[m].depth ≤ c.loops[l].depth) then
      { c.loops[l] with cnt := 0, active := false } else c.loops[l]) ∧ u.mem = s.mem ∧ u.others = s.others

theorem jumped_jump (h : s.core.leads = true) (t : Word) : Jumped s t (s.jump t) := by
  obtain ⟨ls, hc⟩ := leaveLoops_only s.core t
  have hls (l : Level) : (s.core.leaveLoops t).loops[l] = _ := leaveLoops_loops s.core t l
  have hj : s.jump t = State.transfer { s with core := { s.core with loops := ls } } t := by
    simp [State.jump, State.upd, h, hc]
  rw [hj, transfer_leads (by simpa [Core.leads] using h)]
  simp only [hc] at hls
  refine ⟨rfl, by simp, by simp only []; split <;> simp, fun hn => ?_, fun l => ?_, rfl, rfl⟩
  · refine if_neg fun hb => ?_
    obtain ⟨l, ha, hi⟩ := inside_of_inBuffer hb
    simp only [hls l] at ha hi
    split at ha
    · exact absurd ha Bool.false_ne_true
    · next hk =>
      rw [if_neg hk] at hi
      exact hn l ⟨ha, hi⟩
  · simpa [ended] using hls l

/-! Conditions (R72). -/

/-- An instruction that reads and writes nothing finds its registers free. -/
theorem free_nothing (s : State) : Free s {} {} := by
  have hp (p : Pend) : p.hits {} = false := by unfold Pend.hits; split <;> rfl
  simp [Free, Core.ready, Regs.and, Core.held?, Core.pending, Core.awaited, hp, Core.badReg, Core.poisonReg, Regs.marked]

/-- What the leader alone reads: a follower issues with nothing to read (R13). -/
theorem issue_leadReads {rd : Regs} (h : Free s rd {}) (k : State → Out) : issue (s.core.leadReads rd) {} s k = k s := by
  unfold Core.leadReads
  split
  · exact issue_free h k
  · exact issue_free (free_nothing s) k

theorem low_eq_zero (m : Mask) (n : Nat) : m.toNat % 2 ^ n = 0 ↔ ∀ k < n, m.getLsbD k = false := by
  constructor
  · intro h k hk
    have := congrArg (Nat.testBit · k) h
    simpa [Nat.testBit_mod_two_pow, hk, BitVec.getLsbD] using this
  · intro h
    refine Nat.eq_of_testBit_eq fun k => ?_
    rw [Nat.testBit_mod_two_pow, Nat.zero_testBit]
    by_cases hk : k < n
    · simpa [hk, BitVec.getLsbD] using h k hk
    · simp [hk]

theorem quant_any (m : Mask) (n : Nat) : quant .any m n = true ↔ ∃ k < n, m.getLsbD k = true := by
  simp only [quant, decide_eq_true_eq, ne_eq, low_eq_zero, Classical.not_forall, exists_prop, Bool.not_eq_false]

theorem quant_none (m : Mask) (n : Nat) : quant .none m n = true ↔ ∀ k < n, m.getLsbD k = false := by
  simp only [quant, decide_eq_true_eq, low_eq_zero]

theorem quant_all (m : Mask) (n : Nat) : quant .all m n = true ↔ ∀ k < n, m.getLsbD k = true := by
  simp only [quant, decide_eq_true_eq]
  constructor
  · intro h k hk
    have := congrArg (Nat.testBit · k) h
    simpa [Nat.testBit_mod_two_pow, hk, BitVec.getLsbD, Nat.testBit_two_pow_sub_one] using this
  · intro h
    refine Nat.eq_of_testBit_eq fun k => ?_
    rw [Nat.testBit_mod_two_pow, Nat.testBit_two_pow_sub_one]
    by_cases hk : k < n
    · simpa [hk, BitVec.getLsbD] using h k hk
    · simp [hk]

/-- What a branch with a condition does: the leader jumps when the condition holds, and goes on in sequence when not, as every
follower does (R13, R72). -/
theorem decides_of_ite {i : Instr} {cond : Prop} {t : Word} {b : Bool}
    (hx : exec i s = if b then .next (s.jump t) else .next s.retire) (hb : b = true ↔ cond) :
    (s.core.leads = true → cond → ∃ u, exec i s = .next u ∧ Jumped s t u) ∧
      (s.core.leads = true → ¬ cond → exec i s = .next s.retire) ∧ (s.core.leads = false → exec i s = .next s.retire) := by
  refine ⟨fun hl hc => ⟨_, by rw [hx, if_pos (hb.2 hc)], jumped_jump hl t⟩, fun _ hc => by rw [hx, if_neg (mt hb.1 hc)], fun hl => ?_⟩
  rw [hx, jump_follows hl, ite_self]

theorem rows_eq (c : Core) : c.rows = c.vs.toNat % 64 := by simp [Core.rows, fld]

theorem exec_bc_free {q : Quant} {p : PReg} (h : Free s { p := [p] } {}) (d : BitVec 17) :
    exec (.bc q p d) s = if quant q (s.core.rp p) s.core.rows then .next (s.jump (s.core.target d)) else .next s.retire := by
  rw [exec_bc, execBc, issue_leadReads h]

theorem exec_bcmp_free {a b : XReg} (h : Free s { x := [a, b] } {}) (c : ICond) (d : BitVec 32) :
    exec (.bcmp c a b d) s =
      if icond c (s.core.rx a) (s.core.rx b) then .next (s.jump (s.core.target d)) else .next s.retire := by
  rw [exec_bcmp, execBcmp, issue_leadReads h]

/-- R72, R76: a call transfers with the address after it on its way to `x63`, and every loop stays. -/
theorem call_free (h : Free s {} { x := [63] }) (t : Word) :
    let linked := s.upd fun c => c.pendX 1 63 c.npc
    (s.core.leads = true → ∃ u, s.call t = .next u ∧ u = linked.transfer t ∧ u.core.pc = t ∧ u.core.loops = s.core.loops ∧
      (u.core.gap = 0 ∨ u.core.gap = 2)) ∧ (s.core.leads = false → s.call t = .next linked.retire) := by
  intro linked
  have hc : s.call t = .next (linked.transfer t) := issue_free h _
  refine ⟨fun hl => ⟨_, hc, rfl, ?_⟩, fun hl => by rw [hc, transfer_follows (s := linked) hl]⟩
  rw [transfer_leads (s := linked) hl]
  exact ⟨rfl, by simp [linked, Core.pendX, Core.later], by simp only []; split <;> simp⟩

/-- Settles O6: a taken branch is a jump (`jumped_jump`) and any other is a retirement (`decides_of_ite`); a call is `call_free`. -/
theorem branchesAndCalls : Obligations.BranchesAndCalls := by
  intro s p a b d17 d32 w
  have always {i : Instr} {t : Word} (hx : exec i s = .next (s.jump t)) := decides_of_ite (b := true) (cond := True) hx (by simp)
  refine ⟨always rfl, always rfl, fun h => ?_, fun h _ => ?_, fun h => ?_, fun h => ?_⟩
  · exact ⟨always (issue_leadReads h _), always (issue_leadReads h _)⟩
  · have bc (q : Quant) {cond : Prop} := decides_of_ite (cond := cond) (exec_bc_free (q := q) h d17)
    rw [rows_eq] at bc
    exact ⟨bc .any (quant_any _ _), bc .all (quant_all _ _), bc .none (quant_none _ _)⟩
  · have cmp (c : ICond) {cond : Prop} := decides_of_ite (cond := cond) (exec_bcmp_free h c d32)
    refine ⟨cmp .eq ?_, cmp .ne ?_, cmp .lt ?_, cmp .ge ?_, cmp .ltu ?_, cmp .geu ?_⟩ <;>
      simp [icond, BitVec.slt, BitVec.ult]
  · exact ⟨call_free h _, call_free h _⟩

end Sys2Proof.Proofs.Streams
end

section
set_option Elab.async false
namespace Sys2Proof.Proofs.Chains
open Sys2Proof Sys2Proof.Machine Sys2Proof.Safety Sys2Proof.Proofs.Resets

/-! The cores of a state by number, through changes of one core. -/

variable {s : State}

theorem modCore_core_ne {n : Nat} (h : n ≠ s.core.id) (f : Core → Core) : (s.modCore n f).core = s.core := by
  unfold State.modCore State.setCore
  rw [if_neg (Ne.symm h)]

/-- A retirement leaves the place and the loop levels to sequential flow, and passes a slot. -/
theorem retire_core (s : State) : ∃ a ls g, s.retire.core = { s.core.retireSlot with pc := a, loops := ls, gap := g } := by
  unfold State.retire
  simp only []
  split
  · exact ⟨_, _, _, by simp only []; rw [Core.flow_only, Core.retireSlot_at]⟩
  · exact ⟨_, _, _, rfl⟩

@[simp] theorem retire_core_id (s : State) : s.retire.core.id = s.core.id := by
  obtain ⟨_, _, _, h⟩ := retire_core s
  simp [h]

@[simp] theorem retire_core_retired (s : State) : s.retire.core.retired = s.core.retired + 1 := by
  obtain ⟨_, _, _, h⟩ := retire_core s
  simp [h]

@[simp] theorem retire_core_slot (s : State) : s.retire.core.slot = s.core.slot + 1 := by
  obtain ⟨_, _, _, h⟩ := retire_core s
  simp [h]

@[simp] theorem retire_core_chain (s : State) : s.retire.core.chain = s.core.chain := by
  obtain ⟨_, _, _, h⟩ := retire_core s
  simp [h]

@[simp] theorem retire_core_feed (s : State) : s.retire.core.feed = s.core.feed := by
  obtain ⟨_, _, _, h⟩ := retire_core s
  simp [h]

theorem coreAt_retire_ne {n : Nat} (h : n ≠ s.core.id) : s.retire.coreAt n = s.coreAt n := by
  simp [State.coreAt, Ne.symm h]

/-- Cores changed one after another, each once. -/
theorem coreAt_foldl_modCore (f : Nat → Core → Core) {ids : List Nat} (h : ids.Nodup) (s : State) {n : Nat} (hn : n ∈ ids) :
    (ids.foldl (fun s n => s.modCore n (f n)) s).coreAt n = { f n (s.coreAt n) with id := n } := by
  have apart (ids : List Nat) (s : State) (hn : n ∉ ids) : (ids.foldl (fun s n => s.modCore n (f n)) s).coreAt n = s.coreAt n := by
    induction ids generalizing s with
    | nil => rfl
    | cons m ids ih =>
      obtain ⟨hm, hi⟩ := List.ne_and_not_mem_of_not_mem_cons hn
      rw [List.foldl_cons, ih _ hi, coreAt_modCore, if_neg hm]
  induction ids generalizing s with
  | nil => exact absurd hn List.not_mem_nil
  | cons m ids ih =>
    obtain ⟨hm, hi⟩ := List.nodup_cons.1 h
    rw [List.foldl_cons]
    rcases List.mem_cons.1 hn with rfl | hn
    · rw [apart _ _ hm, coreAt_modCore, if_pos rfl]
    · have hne : n ≠ m := fun e => hm (e ▸ hn)
      rw [ih hi _ hn, coreAt_modCore, if_neg hne]

/-! Cores marked to trap (R87). -/

/-- A core that waits in `CHAIN.form` is marked: its tile has met another shape. -/
def spoil (s : State) (n : Nat) : State := s.modCore n fun d => { d with stage := formBad }

/-- From `s` to `t` other cores than the acting one have been marked, and nothing else of a core has changed. -/
def Marked (s t : State) : Prop := t.core = s.core ∧ ∀ n, ∃ i k, t.coreAt n = { s.coreAt n with id := i, stage := k }

theorem Marked.refl (s : State) : Marked s s := ⟨rfl, fun _ => ⟨_, _, rfl⟩⟩

theorem Marked.spoil_ne {t : State} (h : Marked s t) {n : Nat} (hn : n ≠ s.core.id) : Marked s (spoil t n) := by
  obtain ⟨hc, ha⟩ := h
  refine ⟨(modCore_core_ne (hc ▸ hn) _).trans hc, fun m => ?_⟩
  rw [spoil, coreAt_modCore]
  split
  · next hm =>
    obtain ⟨i, k, e⟩ := ha n
    exact ⟨n, formBad, by rw [e, hm]⟩
  · exact ha m

theorem marked_spoilForms (s : State) (h w : Nat) : Marked s (s.spoilForms h w) := by
  unfold State.spoilForms
  refine List.foldlRecOn (motive := Marked s) _ _ (.refl s) fun t ht n _ => ?_
  simp only []
  split
  · next hn => exact ht.spoil_ne hn.1
  · exact ht

theorem marked_foldl_spoil {ds : List Core} (h : ∀ d ∈ ds, d.id ≠ s.core.id) : Marked s (ds.foldl (fun s d => spoil s d.id) s) :=
  List.foldlRecOn (motive := Marked s) _ _ (.refl s) fun _ ht d hd => ht.spoil_ne (h d hd)

theorem stage_foldl_spoil {ds : List Core} {n : Nat} (h : (∃ d ∈ ds, d.id = n) ∨ (s.coreAt n).stage = formBad) :
    ((ds.foldl (fun s d => spoil s d.id) s).coreAt n).stage = formBad := by
  induction ds generalizing s with
  | nil => simpa using h
  | cons d ds ih =>
    refine ih ?_
    simp only [spoil, coreAt_modCore]
    by_cases hd : n = d.id
    · exact .inr (by rw [if_pos hd])
    · rw [if_neg hd]
      rcases h with ⟨e, he, rfl⟩ | h
      · rcases List.mem_cons.1 he with rfl | he
        · exact absurd rfl hd
        · exact .inl ⟨e, he, rfl⟩
      · exact .inr h

/-! The forming of a chain (R17, R86). -/

/-- The cores of a tile differ: its columns fit in a row of the mesh. -/
theorem tile_nodup (t : TaskRect) (h : Nat) {w : Nat} (hw : w ≤ 32) : (t.tile h w).2.Nodup := by
  refine List.pairwise_flatMap.2 ⟨fun r _ => List.pairwise_map.2 (List.nodup_range.imp fun hab e => hab (Nat.add_left_cancel e)), ?_⟩
  refine List.nodup_range.imp fun {r q} hr n hn m hm e => ?_
  obtain ⟨a, ha, rfl⟩ := List.mem_map.1 hn
  obtain ⟨b, hb, rfl⟩ := List.mem_map.1 hm
  have := List.mem_range.1 ha
  have := List.mem_range.1 hb
  omega

/-- What the forming of a chain leaves in a member: a new stream in exchange phase, with the leader's `%dom`. -/
def Formed (lead h w : Nat) (dom : BitVec 3) (c d : Core) : Prop :=
  d.chain.leader = lead ∧ d.chain.rows = h ∧ d.chain.cols = w ∧ d.chain.number = c.chain.number ∧ d.dom = dom ∧ d.slot = 0 ∧
    d.phase = .exchange ∧ d.retired = c.retired + 1

theorem formed_formChain (s : State) (h : Nat) {w : Nat} (hw : w ≤ 32) {n : Nat} (hn : n ∈ (s.core.rect.tile h w).2) :
    Formed (s.core.rect.tile h w).1 h w (s.coreAt (s.core.rect.tile h w).1).dom (s.coreAt n) ((s.formChain h w).coreAt n) := by
  unfold State.formChain
  simp only []
  rw [coreAt_foldl_modCore _ (tile_nodup _ _ hw) s hn]
  exact ⟨rfl, rfl, rfl, by simp, rfl, rfl, rfl, by simp⟩

/-- The marks of cores that have come with another shape take no part in the chain formed. -/
theorem Marked.formed {t : State} (hm : Marked s t) (h : Nat) {w : Nat} (hw : w ≤ 32) {n : Nat}
    (hn : n ∈ (s.core.rect.tile h w).2) :
    Formed (s.core.rect.tile h w).1 h w (s.coreAt (s.core.rect.tile h w).1).dom (s.coreAt n) ((t.formChain h w).coreAt n) := by
  obtain ⟨hc, ha⟩ := hm
  have hf := formed_formChain t h hw (hc ▸ hn)
  obtain ⟨_, _, hl⟩ := ha (s.core.rect.tile h w).1
  obtain ⟨_, _, hd⟩ := ha n
  rw [hc, hl, hd] at hf
  exact hf

/-! `CHAIN.form` (R86, R87). -/

/-- The other cores of the tile that a core asks for. -/
def others (s : State) (h w : Nat) : List Core := ((s.core.rect.tile h w).2.filter (· ≠ s.core.id)).map s.coreAt

/-- A core of the tile with which no chain can be formed: it has ended, or waits with another shape (R87). -/
def differs (c : Core) (h w : Nat) (d : Core) : Bool :=
  d.role = .idle || d.task ≠ c.task || (d.arrived && d.stage ≥ 2 ^ 40 && d.stage ≠ formCode h w)

/-- The core waits for the rest of its tile, or the chain is formed. -/
def awaitForm (c : Core) (os : List Core) (h w : Nat) (s : State) : Out :=
  let s := s.spoilForms h w
  if os.all fun d => d.arrived && d.stage = formCode h w then .next (s.formChain h w)
  else
    let s := s.upd fun c => { c.waits with arrived := true, stage := formCode h w }
    let late := (c.chain.ids.filter (· ≠ c.id)).any fun n => (s.coreAt n).stage ≠ formCode h w
    .next (s.upd fun c => { c with skewWait := late })

theorem loops_inactive (ls : Vector LoopLevel 3) (h : ∀ l : Level, ls[l].active = false) : ls.any LoopLevel.active = false := by
  rw [Vector.any_eq_false]
  intro i hi
  simpa using h ⟨i, hi⟩

/-- No handler runs, and the leader is in no loop: the core may leave or form a chain (R77, R362). -/
theorem may_form (hf : s.core.frame = none) (hl : s.core.leads = true → ∀ l : Level, s.core.loops[l].active = false) :
    ¬ (s.core.frame.isSome ∨ (s.core.leads ∧ s.core.loops.any LoopLevel.active)) := by
  rintro (h | ⟨h, ha⟩)
  · simp [hf] at h
  · exact absurd ha (by simp [loops_inactive _ (hl h)])

theorem chainForm_unfit {h : Fin 8} {w : Fin 32} (hd : ¬ (h.val + 1 ∣ s.core.rect.rows ∧ w.val + 1 ∣ s.core.rect.cols)) :
    exec (.chainForm h w) s = s.illegal 0x0C := by
  rw [exec_chainForm, execChainForm]
  refine if_pos (.inr (.inr ?_))
  rwa [Nat.dvd_iff_mod_eq_zero, Nat.dvd_iff_mod_eq_zero, Classical.not_and_iff_not_or_not] at hd

theorem chainForm_fits {h : Fin 8} {w : Fin 32}
    (hm : ¬ (s.core.frame.isSome ∨ (s.core.leads ∧ s.core.loops.any LoopLevel.active)))
    (hr : h.val + 1 ∣ s.core.rect.rows) (hc : w.val + 1 ∣ s.core.rect.cols) :
    exec (.chainForm h w) s =
      if s.core.stage = formBad || (others s (h.val + 1) (w.val + 1)).any (differs s.core (h.val + 1) (w.val + 1)) then
        (((others s (h.val + 1) (w.val + 1)).filter fun d => d.role = .running && d.arrived && decide (2 ^ 40 ≤ d.stage)).foldl
          (fun s d => spoil s d.id) s).illegal 0x0C
      else s.classX 0x0C (awaitForm s.core (others s (h.val + 1) (w.val + 1)) (h.val + 1) (w.val + 1)) := by
  rw [exec_chainForm, execChainForm]
  refine (if_neg ?_).trans rfl
  rw [Nat.dvd_iff_mod_eq_zero] at hr hc
  rintro (h | h | h | h)
  · exact hm (.inl h)
  · exact hm (.inr h)
  · exact h hr
  · exact h hc

/-- A core whose tile has no core that differs goes on to wait for it. -/
theorem chainForm_awaits {h : Fin 8} {w : Fin 32}
    (hm : ¬ (s.core.frame.isSome ∨ (s.core.leads ∧ s.core.loops.any LoopLevel.active)))
    (hr : h.val + 1 ∣ s.core.rect.rows) (hc : w.val + 1 ∣ s.core.rect.cols) (hs : s.core.stage ≠ formBad)
    (hd : ∀ d ∈ others s (h.val + 1) (w.val + 1), differs s.core (h.val + 1) (w.val + 1) d = false) :
    exec (.chainForm h w) s = s.classX 0x0C (awaitForm s.core (others s (h.val + 1) (w.val + 1)) (h.val + 1) (w.val + 1)) := by
  rw [chainForm_fits hm hr hc, if_neg]
  simpa [hs] using hd

/-- Cores of the task that have not come yet do not differ. -/
theorem away_not_differs {c : Core} {os : List Core} {h w : Nat}
    (ho : ∀ d ∈ os, d.role = .running ∧ d.task = c.task ∧ d.arrived = false) : ∀ d ∈ os, differs c h w d = false := by
  intro d hd
  obtain ⟨hr, ht, ha⟩ := ho d hd
  simp [differs, hr, ht, ha]

/-- Nor do those that wait with the same shape. -/
theorem alike_not_differs {c : Core} {os : List Core} {h w : Nat}
    (ho : ∀ d ∈ os, d.role = .running ∧ d.task = c.task ∧ d.arrived = true ∧ d.stage = formCode h w) :
    ∀ d ∈ os, differs c h w d = false := by
  intro d hd
  obtain ⟨hr, ht, -, hk⟩ := ho d hd
  simp [differs, hr, ht, hk]

theorem differs_of_shape {c d : Core} {h w : Nat} (ha : d.arrived = true) (hk : 2 ^ 40 ≤ d.stage) (hs : d.stage ≠ formCode h w) :
    differs c h w d = true := by
  simp only [differs, ha, ge_iff_le, hk, ne_eq, hs, not_false_eq_true, decide_true, Bool.and_self, Bool.or_true]

theorem awaitForm_waits {c : Core} {os : List Core} {h w : Nat} (hne : os ≠ [])
    (ho : ∀ d ∈ os, d.role = .running ∧ d.task = c.task ∧ d.arrived = false) :
    ∃ u, awaitForm c os h w s = .next u ∧ u.core.arrived = true ∧ u.core.retired = s.core.retired ∧ u.core.pc = s.core.pc := by
  obtain ⟨hc, -⟩ := marked_spoilForms s h w
  obtain ⟨d, hd⟩ := List.exists_mem_of_ne_nil os hne
  obtain ⟨-, -, ha⟩ := ho d hd
  unfold awaitForm
  simp only []
  rw [if_neg fun hk => by simpa [ha] using List.all_eq_true.1 hk d hd]
  exact ⟨_, rfl, rfl, by simp [Core.waits, Core.advance, hc], by simp [Core.waits, Core.advance, hc]⟩

theorem awaitForm_forms {c : Core} {os : List Core} {h w : Nat}
    (ho : ∀ d ∈ os, d.role = .running ∧ d.task = c.task ∧ d.arrived = true ∧ d.stage = formCode h w) :
    awaitForm c os h w s = .next ((s.spoilForms h w).formChain h w) := by
  unfold awaitForm
  exact if_pos (List.all_eq_true.2 fun d hd => by simp [ho d hd])

/-! `CHAIN.leave` (R85, R87). -/

theorem chainLeave_may (hm : ¬ (s.core.frame.isSome ∨ (s.core.leads ∧ s.core.loops.any LoopLevel.active))) :
    exec .chainLeave s = s.classX 0x0C fun s =>
      if s.core.members = 1 then .next s.retire
      else .next (s.upd fun c => { c with chain := c.chain.alone c.id, pc := c.pc, feed := [] }).retire := by
  rw [exec_chainLeave, execChainLeave]
  exact if_neg hm

theorem classX_compute (h : s.core.phase = .compute) (op : Nat) (k : State → Out) : s.classX op k = .next (s.raise 0x03 0 op 0) :=
  if_pos h

/-! Transfers inside a chain (R82, R83). -/

theorem reads_clean {rd : Regs} (hb : s.core.badReg rd = none) (hp : s.core.poisonReg rd = none) (k : State → Out) :
    reads rd s k = k s := by
  unfold reads
  rw [hb, hp]

/-- What an `XFER` does: it retires at the chain's edge, traps in a handler, and else the value is on its way to the neighbour. -/
theorem xfer_sends (s : State) (dir : Dir) (l : Landing) :
    (s.core.nextInChain dir = none → s.xfer dir l = .next s.retire) ∧
    ∀ n, s.core.nextInChain dir = some n → n ≠ s.core.id →
      (s.core.frame.isSome = true → s.xfer dir l = .next (s.raise 0x02 0 0x0D 0)) ∧
      (s.core.frame = none → ∃ u, s.xfer dir l = .next u ∧ u.core.retired = s.core.retired + 1 ∧ u.core.slot = s.core.slot + 1 ∧
        u.mem = s.mem ∧ u.coreAt n =
          { s.coreAt n with
            id := n
            pend := pendInsert { left := s.core.slot + xferSlots dir - (s.coreAt n).slot, slot := s.core.slot, arr := some dir, land := l }
              (s.coreAt n).pend }) := by
  refine ⟨fun hn => ?_, fun n hn hne => ⟨fun hf => ?_, fun hf => ?_⟩⟩
  · simp [State.xfer, State.send, hn]
  · exact if_pos ⟨hf, by rw [hn]; rfl⟩
  · have hx : s.xfer dir l = .next (s.send dir l false).retire := if_neg (by simp [hf])
    refine ⟨_, hx, ?_⟩
    simp only [State.send, hn]
    refine ⟨by simp [modCore_core_ne hne], by simp [modCore_core_ne hne], by simp, ?_⟩
    rw [coreAt_retire_ne (by rwa [modCore_core_ne hne]), coreAt_modCore, if_pos rfl]

/-- R83: an arrival whose slot has come is in its register. -/
theorem landDue_arrival {c : Core} {r : XReg} {v : Word} {a : Option Dir} {k : Nat} (hr : r ≠ 0)
    (hp : c.pend = [{ left := 0, slot := k, arr := a, land := .x r v }]) : c.landDue.rx r = v ∧ c.landDue.pend = [] := by
  refine ⟨?_, by simp [hp]⟩
  simp [Core.landDue, hp, Core.land, Core.wx, Core.rx, hr]

/-- Settles O9. The cores of a tile that come with another shape are marked (`Marked`); a chain formed is that of
`formed_formChain`; transfers are `xfer_sends`. -/
theorem chainsAndTransfers : Obligations.ChainsAndTransfers := by
  refine ⟨fun s h w => ?_, fun s dir vd va d a => ?_⟩
  · intro c hf hl
    have hm := may_form hf hl
    have hw : w.val + 1 ≤ 32 := w.isLt
    refine ⟨fun hp => ?_, fun hp h1 => ?_, fun hp h1 => ?_, chainForm_unfit, fun hr hc => ⟨fun hs ha => ?_, fun d hd hr' ht ha hk hs hi => ?_⟩,
      fun hr hc hp hs ho => ?_, fun hr hc hp hs ho => ?_, fun hr hc hp hs ho hne => ?_⟩
    · rw [chainLeave_may hm, classX_compute hp]
    · rw [chainLeave_may hm, State.classX_exchange hp, if_pos h1]
    · rw [chainLeave_may hm, State.classX_exchange hp, if_neg h1]
      exact ⟨_, rfl, by simp [c], by simp [ChainInfo.alone, c], by simp⟩
    · have hnone : (others s (h.val + 1) (w.val + 1)).filter (fun d => d.role = .running && d.arrived && decide (2 ^ 40 ≤ d.stage)) = [] :=
        List.filter_eq_nil_iff.2 fun d hd => by simp [ha d hd]
      rw [chainForm_fits hm hr hc, hnone, if_pos (by simpa [c] using .inl hs)]
      rfl
    · have hx : (others s (h.val + 1) (w.val + 1)).any (differs s.core (h.val + 1) (w.val + 1)) = true :=
        List.any_eq_true.2 ⟨d, hd, differs_of_shape ha hk hs⟩
      rw [chainForm_fits hm hr hc, if_pos (by rw [hx, Bool.or_true])]
      refine ⟨_, rfl, (marked_foldl_spoil fun e he => hi e (List.mem_filter.1 he).1).1, stage_foldl_spoil (.inl ⟨d, ?_, rfl⟩)⟩
      exact List.mem_filter.2 ⟨hd, by simp only [hr', ha, hk, decide_true, Bool.and_self]⟩
    · rw [chainForm_awaits hm hr hc hs (away_not_differs ho), classX_compute hp]
    · rw [chainForm_awaits hm hr hc hs (alike_not_differs ho), State.classX_exchange hp, awaitForm_forms (os := others s _ _) ho]
      exact ⟨_, rfl, fun n hn => (marked_spoilForms s _ _).formed _ hw hn⟩
    · rw [chainForm_awaits hm hr hc hs (away_not_differs ho), State.classX_exchange hp]
      exact awaitForm_waits hne ho
  · refine ⟨fun hb hp => ?_, fun hb hp => ⟨fun hd => ?_, fun hd => ?_⟩, ⟨_, rfl, rfl, fun r v hr hp => landDue_arrival hr hp⟩⟩
    · have hx : exec (.xferVector dir vd va) s = s.xfer dir (.v vd (s.core.rv va) (BitVec.allOnes 8192)) := by
        rw [exec_xferVector, execXferVector, reads_clean hb hp]
      have hs := xfer_sends s dir (.v vd (s.core.rv va) (BitVec.allOnes 8192))
      rw [← hx] at hs
      exact hs
    · have hx : exec (.xferScalar dir d a) s = s.xfer dir (.x d (s.core.rx a)) := by
        rw [exec_xferScalar, execXferScalar, reads_clean hb hp, if_neg hd]
      have hs := xfer_sends s dir (.x d (s.core.rx a))
      rw [← hx] at hs
      exact hs
    · rw [exec_xferScalar, execXferScalar, reads_clean hb hp, if_pos hd]

end Sys2Proof.Proofs.Chains
end

section
set_option Elab.async false
namespace Sys2Proof.Proofs.Stores
open Sys2Proof Sys2Proof.Machine

/-! Stores that are put in place (R212, R345). -/

variable {s t : State}

/-- From `s` to `t` stores have been put in place: memory, windows and what follows the writes, and nothing else. -/
def Placed (s t : State) : Prop :=
  ∃ m p c k d h, t = { s with mem := m, mpois := p, scans := c, clusters := k, dirties := d, stores := h }

theorem Placed.refl (s : State) : Placed s s := ⟨_, _, _, _, _, _, rfl⟩
theorem Placed.trans {u : State} (h : Placed s t) (k : Placed t u) : Placed s u := by
  obtain ⟨_, _, _, _, _, _, rfl⟩ := h
  obtain ⟨_, _, _, _, _, _, rfl⟩ := k
  exact ⟨_, _, _, _, _, _, rfl⟩

theorem placed_physWrite (s : State) (a : Nat) (bs : List Byte) : Placed s (s.physWrite a bs) ∧ (s.physWrite a bs).stores = s.stores := by
  unfold State.physWrite
  split
  · exact ⟨.refl s, rfl⟩
  · exact ⟨⟨_, _, _, _, _, _, rfl⟩, rfl⟩

theorem placed_dirty (s : State) (part gpa : Nat) : Placed s (s.dirty part gpa) ∧ (s.dirty part gpa).stores = s.stores := by
  unfold State.dirty State.logDirty
  simp only []
  split
  · exact ⟨.refl s, rfl⟩
  · split
    · split
      · exact ⟨.refl s, rfl⟩
      · exact placed_physWrite _ _ _
    · exact ⟨⟨_, _, _, _, _, _, rfl⟩, rfl⟩

/-- A store that is put in place leaves those that are held. -/
theorem placed_perform (s : State) (n : NetStore) : Placed s (s.perform n) ∧ (s.perform n).stores = s.stores := by
  have written (a : Nat) (bs : List Byte) (m : List Nat) (u : State) (hu : u = { s.physWrite a bs with mpois := m }) :
      Placed s (u.dirty n.part n.gpa) ∧ (u.dirty n.part n.gpa).stores = s.stores := by
    obtain ⟨hw, hs⟩ := placed_physWrite s a bs
    obtain ⟨hd, he⟩ := placed_dirty u n.part n.gpa
    subst hu
    exact ⟨(hw.trans ⟨_, _, _, _, _, _, rfl⟩).trans hd, he.trans hs⟩
  unfold State.perform
  simp only []
  split
  · exact ⟨⟨_, _, _, _, _, _, rfl⟩, rfl⟩
  · split
    · exact written _ _ _ _ rfl
    · exact written _ _ _ _ rfl

theorem placed_foldl_perform (l : List (NetStore × Nat)) (s : State) :
    Placed s (l.foldl (fun s q => s.perform q.1) s) ∧ (l.foldl (fun s q => s.perform q.1) s).stores = s.stores :=
  List.foldlRecOn (motive := fun u => Placed s u ∧ u.stores = s.stores) l _ ⟨.refl s, rfl⟩ fun u hu q _ => by
    obtain ⟨hp, hs⟩ := placed_perform u q.1
    exact ⟨hu.1.trans hp, hs.trans hu.2⟩

theorem placed_bring (s : State) (want : NetStore → Nat → Nat) : Placed s (s.bring want) := by
  unfold State.bring
  split
  · exact .refl s
  · exact Placed.trans ⟨_, _, _, _, _, _, rfl⟩ (placed_foldl_perform _ _).1

theorem top_le (n : NetStore) : n.top ≤ 3 := by
  unfold NetStore.top
  split <;> omega

/-- A store that has to reach the last level is in place there. -/
theorem top_le_cap {n : NetStore} {l : Nat} (h : 3 ≤ l) : n.top ≤ n.cap l := by
  have := top_le n
  unfold NetStore.cap
  split
  · omega
  · split
    · exact this
    · omega

/-- When every store has to reach the last level, each does. -/
theorem top_le_levels (ts : List NetStore) : ∀ q ∈ levels (fun _ _ => 3) ts, q.1.top ≤ q.2 := by
  have asked (later : List (NetStore × Nat)) (u : NetStore) (l : Nat) (h : 3 ≤ l) :
      3 ≤ later.foldl (fun l r => if r.1.lvl < r.2 then max l (u.least r.1 r.2) else l) l :=
    List.foldlRecOn (motive := (3 ≤ ·)) later _ h fun l hl r _ => by
      split
      · exact Nat.le_trans hl (Nat.le_max_left _ _)
      · exact hl
  unfold levels
  generalize hz : ts.zipIdx.map (fun q => (q.1, 3)) = qs
  have hq : ∀ q ∈ qs, q.2 = 3 := by
    rw [← hz]
    intro q hq
    obtain ⟨_, _, rfl⟩ := List.mem_map.1 hq
    rfl
  clear hz
  induction qs with
  | nil => exact fun _ h => absurd h List.not_mem_nil
  | cons p qs ih =>
    intro q hm
    rcases List.mem_cons.1 hm with rfl | hm
    · exact top_le_cap (asked _ _ _ (Nat.le_of_eq (hq p List.mem_cons_self).symm))
    · exact ih (fun r hr => hq r (List.mem_cons_of_mem _ hr)) q hm

/-- R345: every store is in place, and none is held. -/
theorem stores_bring_all (s : State) : (s.bring fun _ _ => 3).stores = [] := by
  unfold State.bring
  split
  · assumption
  · have hn : (levels (fun _ _ => 3) s.stores).filter (fun q => q.2 < q.1.top) = [] :=
      List.filter_eq_nil_iff.2 fun q hq => by simpa using top_le_levels _ q hq
    simp only [hn]
    exact (placed_foldl_perform _ _).2

end Sys2Proof.Proofs.Stores
end

section
set_option Elab.async false
namespace Sys2Proof.Proofs.Privileged
open Sys2Proof Sys2Proof.Machine Sys2Proof.Safety Sys2Proof.Laws Sys2Proof.Proofs.Resets Sys2Proof.Proofs.Chains Sys2Proof.Proofs.Stores

variable {s : State}

/-! The checks of a privileged instruction, in their order (R9, R352). -/

/-- The privilege of the core, the operands, the phase, and then the work. -/
def Whole (s : State) (i : Instr) (op : Nat) (allowed legal claim : Prop) : Prop :=
  (¬ (s.isSup = true ∧ allowed) → exec i s = .next (s.raise 0x04 0 op 0)) ∧
    (s.isSup = true → allowed → ¬ legal → exec i s = .next (s.raise 0x02 0 op 0)) ∧
    (s.isSup = true → allowed → legal → s.core.phase = .compute → exec i s = .next (s.raise 0x03 0 op 0)) ∧
    (s.isSup = true → allowed → legal → s.core.phase = .exchange → claim)

theorem whole_of_guarded {i : Instr} {op : Nat} {al : Bool} {allowed bad legal claim : Prop} [Decidable bad] {k : State → Out}
    (hx : exec i s = s.guarded op al fun _ => if bad then s.illegal op else s.classX op k) (ha : al = true ↔ allowed)
    (hb : bad ↔ ¬ legal) (hk : exec i s = k s → legal → claim) : Whole s i op allowed legal claim := by
  have may (h : s.isSup = true) (h' : allowed) : exec i s = if bad then s.illegal op else s.classX op k :=
    hx.trans (if_pos (by simp [h, ha.2 h']))
  refine ⟨fun h => hx.trans (if_neg (by simpa [ha] using h)), fun h h' hl => ?_, fun h h' hl hp => ?_, fun h h' hl hp => hk ?_ hl⟩
  · rw [may h h', if_pos (hb.2 hl)]
    rfl
  · rw [may h h', if_neg (by simpa [hb] using hl), classX_compute hp]
  · rw [may h h', if_neg (by simpa [hb] using hl), State.classX_exchange hp]

theorem mayName_iff (s : State) (p : Nat) : s.mayName p = true ↔ s.isPF = true ∨ s.myPart = p := by
  simp [State.mayName]

/-! Invalidation (R345). -/

theorem find?_map {α : Type} (m : Assoc α) (f : α → α) (k : Nat) :
    Assoc.find? (m.map fun e => (e.1, f e.2)) k = (m.find? k).map f := by
  induction m with
  | nil => rfl
  | cons e m ih =>
    simp only [List.map_cons, Assoc.find?]
    split
    · rfl
    · exact ih

/-- What changes every entry and not the default changes what is got. -/
theorem get_map {α : Type} (m : Assoc α) (f : α → α) (d : α) (k : Nat) (h : f d = d) :
    Assoc.get (m.map fun e => (e.1, f e.2)) d k = f (m.get d k) := by
  unfold Assoc.get
  rw [find?_map]
  cases m.find? k with
  | none => exact h.symm
  | some _ => rfl

/-- What an invalidation does: it waits while a unit of an engine needs an entry, and else it leaves the entries that the test
does not pick, in every TLB. -/
def Drops (s : State) (i : Instr) (hit : TlbEntry → Bool) : Prop :=
  (s.unitsThrough hit = true → ∃ t, exec i s = .next t ∧ t.core.pc = s.core.pc ∧ t.core.retired = s.core.retired ∧
    t.core.waiting = true ∧ t.core.tlb = s.core.tlb) ∧
  (s.unitsThrough hit = false → ∃ t : State, exec i s = .next t.retire ∧
    (∀ e, e ∈ t.core.tlb ↔ e ∈ s.core.tlb ∧ hit e = false) ∧ t.stores = [] ∧
    (∀ n, n ≠ s.core.id → ∀ e, e ∈ (t.coreAt n).tlb ↔ e ∈ (s.coreAt n).tlb ∧ hit e = false) ∧
    ∀ die e, e ∈ t.l2tlb.get [] die ↔ e ∈ s.l2tlb.get [] die ∧ hit e = false)

theorem mem_dropped {l : List TlbEntry} {hit : TlbEntry → Bool} {e : TlbEntry} :
    (e ∈ l.filter fun e => !hit e) ↔ e ∈ l ∧ hit e = false := by
  simp

theorem drops_of_dropTlb {i : Instr} {hit : TlbEntry → Bool}
    (hx : exec i s = .next (if s.unitsThrough hit then s.wait else (s.dropTlb hit).retire)) : Drops s i hit := by
  refine ⟨fun hu => ⟨s.wait, by rw [hx, if_pos hu], ?_⟩, fun hu => ⟨s.dropTlb hit, by rw [hx, if_neg (by simp [hu])], ?_⟩⟩
  · simp [State.wait, Core.waits, Core.advance]
  · have hs := stores_bring_all s
    obtain ⟨_, _, _, _, _, _, hp⟩ := placed_bring s fun _ _ => 3
    unfold State.dropTlb
    rw [hp] at hs ⊢
    refine ⟨fun e => mem_dropped, hs, fun n hn e => ?_, fun die e => ?_⟩
    · simp only [State.coreAt, if_neg (Ne.symm hn)]
      rw [get_map _ (fun c : Core => { c with tlb := c.tlb.filter fun e => !hit e }) _ _ rfl]
      exact mem_dropped
    · rw [get_map _ (fun l : List TlbEntry => l.filter fun t => !hit t) _ _ rfl]
      exact mem_dropped

/-- The invalidations that name a partition or a context of one. -/
theorem tlbi_whole {i : Instr} {a : XReg} {rd : List XReg} {bits : Nat} {p : Nat → TlbEntry → Bool}
    (hf : Free s { x := a :: rd } {}) (hx : exec i s = tlbi a rd bits p s) :
    let x := (s.core.rx a).toNat
    Whole s i 0x7B (s.isPF = true ∨ s.myPart = x % 64) (x &&& bits = x) (Drops s i (p x)) :=
  whole_of_guarded (hx.trans (issue_free hf _)) (mayName_iff _ _) Iff.rfl fun hk _ => drops_of_dropTlb hk

theorem tlbiVf_whole {a : XReg} (hf : Free s { x := [a] } {}) :
    let x := (s.core.rx a).toNat
    Whole s (.tlbiVf a) 0x7B (s.isPF = true ∨ s.myPart = x % 64) (x &&& 0x3F = x)
      (Drops s (.tlbiVf a) fun e => e.ctx / 16 = x % 64) := tlbi_whole hf (exec_tlbiVf a s)

theorem tlbiCtx_whole {a : XReg} (hf : Free s { x := [a] } {}) :
    let x := (s.core.rx a).toNat
    Whole s (.tlbiCtx a) 0x7B (s.isPF = true ∨ s.myPart = x % 64) (x &&& 0xF3F = x)
      (Drops s (.tlbiCtx a) fun e => e.ctx = tlbiCtxOf x) := tlbi_whole hf (exec_tlbiCtx a s)

theorem tlbiVa_whole {a b : XReg} (hf : Free s { x := [a, b] } {}) :
    let x := (s.core.rx a).toNat
    Whole s (.tlbiVa a b) 0x7B (s.isPF = true ∨ s.myPart = x % 64) (x &&& 0xF3F = x)
      (Drops s (.tlbiVa a b) fun e =>
        decide (e.ctx = tlbiCtxOf x) && decide (e.vpage / e.vsize = (s.core.rx b).toNat / e.vsize)) :=
  tlbi_whole (p := fun w e => decide (e.ctx = tlbiCtxOf w) && decide (e.vpage / e.vsize = (s.core.rx b).toNat / e.vsize)) hf
    (exec_tlbiVa a b s)

theorem tlbiGpa_whole {a b : XReg} (hf : Free s { x := [a, b] } {}) :
    let x := (s.core.rx a).toNat
    Whole s (.tlbiGpa a b) 0x7B (s.isPF = true ∨ s.myPart = x % 64) (x &&& 0x3F = x)
      (Drops s (.tlbiGpa a b) fun e =>
        decide (e.ctx / 16 = x % 64) && decide (e.gpa / e.gsize = (s.core.rx b).toNat / e.gsize)) :=
  tlbi_whole (p := fun w e => decide (e.ctx / 16 = w % 64) && decide (e.gpa / e.gsize = (s.core.rx b).toNat / e.gsize)) hf
    (exec_tlbiGpa a b s)

theorem tlbiAll_whole (s : State) : Whole s .tlbiAll 0x7B (s.isPF = true) True (Drops s .tlbiAll fun _ => true) :=
  whole_of_guarded (bad := False) (k := fun s => .next (if s.unitsThrough fun _ => true then s.wait else (s.dropTlb fun _ => true).retire))
    (exec_tlbiAll s) Iff.rfl (by simp) fun hk _ => drops_of_dropTlb hk

/-! The dirty harvest and scrubbing (R341, R346). -/

theorem physZero_byte (s : State) (a n x : Nat) :
    (s.physZero a n).mem.byte x = if a ≤ x ∧ x < a + n then 0 else s.mem.byte x := by
  unfold State.physZero
  split
  · next hn => rw [if_neg (by omega)]
  · exact Memory.byte_zero _ _ _ _

theorem leBytes_zero (n : Nat) : leBytes n 0 = List.replicate n 0 := by
  induction n with
  | zero => rfl
  | succ n ih => rw [leBytes, Nat.zero_div, ih]; rfl

/-- A number of zero is put where memory is in service (R389). -/
theorem physPut_zero_byte (s : State) (a n x : Nat) :
    (s.physPut a n 0).mem.byte x = if a ≤ x ∧ x < a + n ∧ s.deadMem a = false then 0 else s.mem.byte x := by
  unfold State.physPut
  cases hd : s.deadMem a with
  | false =>
    rw [physWrite_byte _ _ _ _ hd, leBytes_zero, List.length_replicate]
    simp only [and_true]
    split
    · rw [List.getD_eq_getElem?_getD, List.getElem?_replicate, if_pos (by omega), Option.getD_some]
    · rfl
  | true =>
    unfold State.physWrite
    rw [if_pos (.inr hd)]
    simp

/-- With no store held a fence changes nothing. -/
theorem fence_of_no_stores (h : s.stores = []) (core : Nat) : s.fence core = s := if_pos h

/-- R341: the log word is read and zero-filled, where it lies in service. -/
theorem dharv_whole {d a b : XReg} (hf : Free s { x := [a, b] } { x := [d] }) :
    let x := (s.core.rx a).toNat
    let y := (s.core.rx b).toNat
    let p := s.part (x % 64)
    let h := p.dlog + 8 * (y / 2 ^ 21)
    Whole s (.dharv d a b) 0x7C (s.isPF = true ∨ s.myPart = x % 64) (x < 64 ∧ y % 2 ^ 21 = 0 ∧ y < p.dspan ∧ p.dlog ≠ 0)
      (∃ t, exec (.dharv d a b) s = .next (lateNext t d (BitVec.ofNat 64 (s.physNat h 8))) ∧ t.core = s.core ∧
        ∀ i, t.mem.byte i = if h ≤ i ∧ i < h + 8 ∧ s.deadMem h = false then 0 else s.mem.byte i) := by
  intro x y p h
  refine whole_of_guarded ((exec_dharv d a b s).trans (issue_free hf _)) (mayName_iff _ _) ?_ fun hk _ =>
    ⟨s.physPut h 8 0, hk, physWrite_core _ _ _, physPut_zero_byte s h 8⟩
  change (64 ≤ x ∨ y % 2 ^ 21 ≠ 0 ∨ p.dspan ≤ y ∨ p.dlog = 0) ↔ _
  omega

/-- R346: a range of memory is zero-filled. -/
theorem scrubMem_whole {d a b : XReg} (hf : Free s { x := [a, b] } { x := [d] }) :
    let x := (s.core.rx a).toNat
    let y := (s.core.rx b).toNat
    Whole s (.scrubMem d a b) 0x7F (s.isPF = true) (scrubOk x y = true)
      (s.stores = [] → ∃ t, exec (.scrubMem d a b) s = .next (lateNext t d 0) ∧ t.core = s.core ∧
        ∀ i, t.mem.byte i = if x ≤ i ∧ i < x + y then 0 else s.mem.byte i) := by
  intro x y
  refine whole_of_guarded ((exec_scrubMem d a b s).trans (issue_free hf _)) Iff.rfl (by simp [x, y]) fun hk _ hs =>
    ⟨s.physZero x y, ?_, physZero_core _ _ _, physZero_byte s x y⟩
  rw [hk, fence_of_no_stores hs]
  rfl

/-- What the scrubbing of an idle slice makes of its two cores: the rest of what it does is about launches and quadrants. -/
theorem scrubSlice_idle {sl : Nat} (h : s.sliceRuns sl = false) :
    ∃ u : State, u.core = s.core ∧ u.others = s.others ∧ s.scrubSlice sl =
      (((u.modCore (2 * sl) fun c => c.scrub true).modCore (2 * sl + 1) fun c => c.scrub true).reopenSlice sl) := by
  have hn : ¬ s.sliceRuns sl = true := by simp [h]
  unfold State.scrubSlice State.scrubData
  extract_lets t
  exact ⟨t.modCluster (sl / 4) _, rfl, rfl, congrArg (State.reopenSlice · sl) (if_neg hn)⟩

/-- R339, R346, R376, R386: the cores of a slice that has been scrubbed hold nothing and are unsealed, the slice is in service, and
the acting core, when it is none of them, stays as it is. -/
theorem scrubSlice_cores {sl : Nat} (h : s.sliceRuns sl = false) (h0 : s.core.id ≠ 2 * sl) (h1 : s.core.id ≠ 2 * sl + 1) :
    (s.scrubSlice sl).core = s.core ∧ sl ∉ (s.scrubSlice sl).out ∧ ∀ n, n = 2 * sl ∨ n = 2 * sl + 1 →
      ((s.scrubSlice sl).coreAt n).share = [] ∧ ((s.scrubSlice sl).coreAt n).full = [] ∧
        ((s.scrubSlice sl).coreAt n).sealed = false ∧ (∀ i : Fin 64, ((s.scrubSlice sl).coreAt n).x[i] = 0) ∧
        ∀ i : Fin 16, ((s.scrubSlice sl).coreAt n).v[i] = 0 := by
  obtain ⟨u, hc, -, hs⟩ := scrubSlice_idle h
  rw [hs]
  have outside (t : State) (ht : t.core = u.core) (n : Nat) (hn : s.core.id ≠ n) (f : Core → Core) : (t.modCore n f).core = u.core :=
    (modCore_core_ne (by rw [ht, hc]; exact hn.symm) f).trans ht
  refine ⟨?_, by simp [State.reopenSlice], fun n hn => ?_⟩
  · exact (outside _ (outside _ (outside _ (outside _ rfl _ h0 _) _ h1 _) _ h0 _) _ h1 _).trans hc
  · have core (t : State) : (t.reopenSlice sl).coreAt n = { t.coreAt n with id := n, sealed := false, contained := false } := by
      have hr : (t.reopenSlice sl).coreAt n = ((t.modCore (2 * sl) fun c => { c with sealed := false, contained := false }).modCore (2 * sl + 1)
          fun c => { c with sealed := false, contained := false }).coreAt n := rfl
      rw [hr, coreAt_modCore, coreAt_modCore, coreAt_modCore]
      rcases hn with rfl | rfl <;> simp
    rw [core, coreAt_modCore, coreAt_modCore, coreAt_modCore]
    rcases hn with rfl | rfl <;> simp [Core.scrub]

/-- R346: a slice that runs a task is refused, and any other is zero-filled. -/
theorem scrubSlice_whole {d a : XReg} (hf : Free s { x := [a] } { x := [d] }) :
    let x := (s.core.rx a).toNat
    Whole s (.scrubSlice d a) 0x7F (s.isPF = true) (x < 2048)
      ((s.sliceRuns x = true → exec (.scrubSlice d a) s = .next (lateNext s d (BitVec.ofNat 64 (2 ^ 63 + 2)))) ∧
        (s.sliceRuns x = false → s.core.id ≠ 2 * x → s.core.id ≠ 2 * x + 1 → ∃ t, exec (.scrubSlice d a) s = .next (lateNext t d 0) ∧
          t.core = s.core ∧ x ∉ t.out ∧ ∀ n, n = 2 * x ∨ n = 2 * x + 1 → (t.coreAt n).share = [] ∧ (t.coreAt n).full = [] ∧
            (t.coreAt n).sealed = false ∧ (∀ i : Fin 64, (t.coreAt n).x[i] = 0) ∧ ∀ i : Fin 16, (t.coreAt n).v[i] = 0)) := by
  intro x
  refine whole_of_guarded ((exec_scrubSlice d a s).trans (issue_free hf _)) Iff.rfl (by simp [x]) fun hk _ =>
    ⟨fun hr => ?_, fun hr h0 h1 => ⟨s.scrubSlice x, ?_, scrubSlice_cores hr h0 h1⟩⟩
  · rw [hk, if_pos hr]
    rfl
  · rw [hk, if_neg (by simp [x, hr])]
    rfl

/-! Seals (R376). -/

theorem sealed_modCore (s : State) (x : Nat) (z : Bool) :
    let t := s.modCore x fun c => { c with sealed := z }
    (t.coreAt x).sealed = z ∧ t.mem = s.mem ∧ ∀ n, n ≠ x → (t.coreAt n).sealed = (s.coreAt n).sealed := by
  refine ⟨by rw [coreAt_modCore, if_pos rfl], by simp, fun n hn => by rw [coreAt_modCore, if_neg hn]⟩

theorem seal_whole {i : Instr} {set : Option Bool} {d a : XReg} (hf : Free s { x := [a] } { x := [d] })
    (hx : exec i s = sealCore set d a s) {claim : Prop} :
    let x := (s.core.rx a).toNat
    let t := match set with | some b => s.modCore x fun c => { c with sealed := b } | none => s
    (exec i s = .next (lateNext t d (if (s.coreAt x).sealed then 1 else 0)) → claim) →
    Whole s i 0x7E (s.isPF = true ∨ s.corePart (x % 4096) = some s.myPart) (x < 4096) claim := by
  intro x t hc
  refine whole_of_guarded (hx.trans (issue_free hf _)) (by simp [State.maySeal, x]) (by simp [x]) fun hk _ => hc (hk.trans ?_)
  cases set <;> rfl

/-! `CFG` (R347, R352). -/

/-- The checks of a `CFG` function with a block of `n` bytes: the privilege, the block's address, the target's reserved bits, the
phase, and the authority of a partition supervisor. -/
def CfgChecks (s : State) (d a : XReg) (t : CfgTarget) (i : Instr) (n : Nat) (auth : Bool) : Prop :=
  let c := s.core
  let w := (CfgTarget.value c t).toNat
  let at_ := c.rx a
  let placed := n = 0 ∨ (at_.toNat % 64 = 0 ∧ tag at_ = 8 ∧ offset at_ + n ≤ c.shareSize)
  let reserved := w / 2 ^ 6 % 2 ^ 10 ≠ 0 ∨ 2 ^ 32 ≤ w
  let authorised := s.isPF = true ∨ (auth = true ∧ s.myPart = w % 64)
  (s.isSup = false → exec i s = .next (s.raise 0x04 0 0x7D 0)) ∧
  (s.isSup = true → ¬ placed → exec i s = .next (s.raise 0x05 at_.toNat 0x7D 0)) ∧
  (s.isSup = true → placed → reserved → exec i s = .next (s.raise 0x02 0 0x7D 0)) ∧
  (s.isSup = true → placed → ¬ reserved → c.phase = .compute → i ≠ .cfgInst d a t → exec i s = .next (s.raise 0x03 0 0x7D 0)) ∧
  (s.isSup = true → placed → ¬ reserved → c.phase = .exchange → i ≠ .cfgInst d a t → ¬ authorised →
    (n = 0 ∨ c.sharePoisoned (offset at_) n = false) → exec i s = .next (lateNext s d (BitVec.ofNat 64 (2 ^ 63 + 1))))

/-- Where a `CFG` function finds its parameter block (R347). -/
def cfgBlock (c : Core) (w : Word) (n : Nat) : Option Nat :=
  if n = 0 then some 0 else if w.toNat % 64 = 0 then c.inShare w n else none

theorem cfgBlock_some {c : Core} {w : Word} {n : Nat} (h : n = 0 ∨ (w.toNat % 64 = 0 ∧ tag w = 8 ∧ offset w + n ≤ c.shareSize)) :
    ∃ o, cfgBlock c w n = some o ∧ (n ≠ 0 → o = offset w) := by
  unfold cfgBlock Core.inShare
  by_cases hn : n = 0
  · exact ⟨0, if_pos hn, fun h => absurd hn h⟩
  · obtain ⟨ha, hs⟩ := h.resolve_left hn
    exact ⟨_, by rw [if_neg hn, if_pos ha, if_pos hs], fun _ => rfl⟩

theorem cfgBlock_none {c : Core} {w : Word} {n : Nat} (h : ¬ (n = 0 ∨ (w.toNat % 64 = 0 ∧ tag w = 8 ∧ offset w + n ≤ c.shareSize))) :
    cfgBlock c w n = none := by
  obtain ⟨hn, ha⟩ := not_or.1 h
  unfold cfgBlock Core.inShare
  rw [if_neg hn]
  split
  · next h64 => exact if_neg fun hs => ha ⟨h64, hs⟩
  · rfl

/-- The work of a `CFG` function once its issue checks have passed. -/
def cfgWork (n : Nat) (auth : Bool) (d a : XReg) (c : Core) (k : State → CfgArgs → Out) (o : Nat) (g : CfgArgs) (s : State) : Out :=
  if n ≠ 0 ∧ c.sharePoisoned o n then .next (s.consume (c.rx a).toNat)
  else if !s.isPF ∧ !(auth && decide (s.myPart = g.part)) then s.cfgEnd d 1
  else k s g

section
variable {n : Nat} {auth : Bool} {d a : XReg} {t : CfgTarget} {pre : State → CfgArgs → Bool} {k : State → CfgArgs → Out}

theorem configure_outside (hf : Free s { x := a :: CfgTarget.reads t } { x := [d] }) (hs : s.isSup = false) :
    configure n auth d a t pre k s = s.privilege 0x7D := by
  unfold configure
  rw [issue_free hf]
  exact if_neg (by simp [hs])

theorem configure_misplaced (hf : Free s { x := a :: CfgTarget.reads t } { x := [d] }) (hs : s.isSup = true)
    (hb : cfgBlock s.core (s.core.rx a) n = none) : configure n auth d a t pre k s = s.addrFault 0x7D (s.core.rx a).toNat := by
  unfold cfgBlock at hb
  unfold configure
  rw [issue_free hf]
  simp only [State.guarded, hs, Bool.and_true, if_true, hb]

variable {o : Nat}

/-- The parameters that a `CFG` function takes from its block and its target (R347). -/
def cfgArgs (c : Core) (t : CfgTarget) (o n : Nat) : CfgArgs :=
  { blk := c.shareRead o n, part := (CfgTarget.value c t).toNat % 64, obj := fld (CfgTarget.value c t).toNat 16 16 }

/-- Bits of the target that must be zero (R347). -/
def Reserved (w : Nat) : Prop := w / 2 ^ 6 % 2 ^ 10 ≠ 0 ∨ 2 ^ 32 ≤ w

theorem reserved_iff (w : Nat) : Reserved w ↔ fld w 6 10 ≠ 0 ∨ w / 2 ^ 32 ≠ 0 := by
  have : 2 ^ 32 ≤ w ↔ w / 2 ^ 32 ≠ 0 := by omega
  rw [Reserved, this, fld]

theorem configure_placed (hf : Free s { x := a :: CfgTarget.reads t } { x := [d] }) (hs : s.isSup = true)
    (hb : cfgBlock s.core (s.core.rx a) n = some o) :
    let w := (CfgTarget.value s.core t).toNat
    let g := cfgArgs s.core t o n
    configure n auth d a t pre k s =
      if fld w 6 10 ≠ 0 ∨ w / 2 ^ 32 ≠ 0 ∨ !pre s g then s.illegal 0x7D else s.classX 0x7D (cfgWork n auth d a s.core k o g) := by
  unfold cfgBlock at hb
  unfold configure
  rw [issue_free hf]
  simp only [State.guarded, hs, Bool.and_true, if_true, hb]
  rfl

theorem configure_reserved (hf : Free s { x := a :: CfgTarget.reads t } { x := [d] }) (hs : s.isSup = true)
    (hb : cfgBlock s.core (s.core.rx a) n = some o) (hr : Reserved (CfgTarget.value s.core t).toNat) :
    configure n auth d a t pre k s = s.illegal 0x7D := by
  rw [configure_placed hf hs hb, if_pos]
  exact or_assoc.1 (.inl ((reserved_iff _).1 hr))

theorem configure_legal (hf : Free s { x := a :: CfgTarget.reads t } { x := [d] }) (hs : s.isSup = true)
    (hb : cfgBlock s.core (s.core.rx a) n = some o) (hr : ¬ Reserved (CfgTarget.value s.core t).toNat) :
    configure n auth d a t noIssueCheck k s = s.classX 0x7D (cfgWork n auth d a s.core k o (cfgArgs s.core t o n)) := by
  rw [configure_placed hf hs hb, if_neg]
  rw [reserved_iff, not_or] at hr
  rintro (h | h | h)
  · exact hr.1 h
  · exact hr.2 h
  · exact absurd h (by simp [noIssueCheck])

theorem cfgWork_refused {g : CfgArgs} (ha : ¬ (s.isPF = true ∨ (auth = true ∧ s.myPart = g.part)))
    (hq : n = 0 ∨ s.core.sharePoisoned o n = false) :
    cfgWork n auth d a s.core k o g s = .next (lateNext s d (BitVec.ofNat 64 (2 ^ 63 + 1))) := by
  unfold cfgWork
  rw [if_neg, if_pos]
  · rfl
  · obtain ⟨hp, hn⟩ := not_or.1 ha
    have hm : ¬ (auth && decide (s.myPart = g.part)) = true := by rwa [Bool.and_eq_true, decide_eq_true_eq]
    rw [Bool.eq_false_iff.2 hp, Bool.eq_false_iff.2 hm]
    exact ⟨rfl, rfl⟩
  · rintro ⟨hn, hp⟩
    exact absurd hp (by simp [hq.resolve_left hn])

end

theorem cfgChecks {i : Instr} {n : Nat} {auth : Bool} {d a : XReg} {t : CfgTarget} {pre : State → CfgArgs → Bool}
    {k : State → CfgArgs → Out} (hf : Free s { x := a :: CfgTarget.reads t } { x := [d] })
    (hx : exec i s = configure n auth d a t pre k s) (hp : i ≠ .cfgInst d a t → pre = noIssueCheck) :
    CfgChecks s d a t i n auth := by
  refine ⟨fun hs => hx.trans (configure_outside hf hs), fun hs hb => hx.trans (configure_misplaced hf hs (cfgBlock_none hb)),
    fun hs hb hr => ?_, fun hs hb hr hc hi => ?_, fun hs hb hr hc hi ha hq => ?_⟩
  · obtain ⟨o, ho, -⟩ := cfgBlock_some hb
    exact hx.trans (configure_reserved hf hs ho hr)
  · obtain ⟨o, ho, -⟩ := cfgBlock_some hb
    rw [hx, hp hi, configure_legal hf hs ho hr, classX_compute hc]
  · obtain ⟨o, ho, he⟩ := cfgBlock_some hb
    have hq' : n = 0 ∨ s.core.sharePoisoned o n = false := by
      by_cases hn : n = 0
      · exact .inl hn
      · exact .inr (he hn ▸ hq.resolve_left hn)
    rw [hx, hp hi, configure_legal hf hs ho hr, State.classX_exchange hc]
    exact cfgWork_refused ha hq'

/-- The eleven functions of `CFG`, each with its block's length and whether a partition supervisor may do it (R348). -/
theorem cfg_checks {d a : XReg} (t : CfgTarget) (hf : Free s { x := a :: CfgTarget.reads t } { x := [d] }) :
    CfgChecks s d a t (.cfgPart d a t) 320 false ∧ CfgChecks s d a t (.cfgPdel d a t) 0 false ∧
    CfgChecks s d a t (.cfgCtx d a t) 64 true ∧ CfgChecks s d a t (.cfgQueue d a t) 64 false ∧
    CfgChecks s d a t (.cfgInst d a t) 64 true ∧ CfgChecks s d a t (.cfgRtab d a t) 64 true ∧
    CfgChecks s d a t (.cfgCls d a t) 96 false ∧ CfgChecks s d a t (.cfgMwt d a t) 64 false ∧
    CfgChecks s d a t (.cfgGw d a t) 32 false ∧ CfgChecks s d a t (.cfgTwin d a t) 64 false ∧
    CfgChecks s d a t (.cfgRrep d a t) 320 true :=
  ⟨cfgChecks hf (exec_cfgPart d a t s) fun _ => rfl,
    cfgChecks hf (exec_cfgPdel d a t s) fun _ => rfl,
    cfgChecks hf (exec_cfgCtx d a t s) fun _ => rfl,
    cfgChecks hf (exec_cfgQueue d a t s) fun _ => rfl,
    cfgChecks hf (exec_cfgInst d a t s) fun h => absurd rfl h,
    cfgChecks hf (exec_cfgRtab d a t s) fun _ => rfl,
    cfgChecks hf (exec_cfgCls d a t s) fun _ => rfl,
    cfgChecks hf (exec_cfgMwt d a t s) fun _ => rfl,
    cfgChecks hf (exec_cfgGw d a t s) fun _ => rfl,
    cfgChecks hf (exec_cfgTwin d a t s) fun _ => rfl,
    cfgChecks hf (exec_cfgRrep d a t s) fun _ => rfl⟩

/-- Settles O43: `whole_of_guarded` gives the checks of an instruction, `drops_of_dropTlb`, `scrubSlice_cores` and the bytes of memory what it does;
`cfg_checks` is about `CFG`. -/
theorem privilegedInstructionsAndChecks : Obligations.PrivilegedInstructionsAndChecks := by
  refine ⟨fun s d a b => ⟨fun hf => ⟨tlbiVf_whole hf, tlbiCtx_whole hf⟩, fun hf => ⟨tlbiVa_whole hf, tlbiGpa_whole hf⟩, tlbiAll_whole s,
    fun hf => ⟨dharv_whole hf, scrubMem_whole hf⟩, fun hf => ⟨scrubSlice_whole hf, ?_⟩⟩, fun s d a t => ?_⟩
  · exact ⟨seal_whole hf (exec_sealQ d a s) id,
      seal_whole hf (exec_sealOn d a s) fun he => ⟨_, he, sealed_modCore s _ _⟩,
      seal_whole hf (exec_sealOff d a s) fun he => ⟨_, he, sealed_modCore s _ _⟩⟩
  · intro c w rd at_ checks hf
    cases t with
    | reg b => exact cfg_checks (.reg b) hf
    | lit v => exact cfg_checks (.lit v) hf

end Sys2Proof.Proofs.Privileged
end

section
set_option Elab.async false
namespace Sys2Proof.Proofs.Slots
open Sys2Proof Sys2Proof.Machine Sys2Proof.Safety

/-! Landings that come nearer slot by slot (R63, R118). -/

/-- A landing one slot nearer; an arrival is held while a handler runs (R63, R361). -/
def age (held : Bool) (p : Pend) : Pend := if p.arr.isSome && held then p else { p with left := p.left - 1 }

@[simp] theorem age_land (b : Bool) (p : Pend) : (age b p).land = p.land := by unfold age; split <;> rfl

theorem age_own {p : Pend} (h : p.arr = none) (b : Bool) : age b p = { p with left := p.left - 1 } := by simp [age, h]

/-- A slot that passes ages every landing, and puts in place those that have no slot left. -/
theorem tick_eq (c : Core) : c.tick =
    ((c.pend.map (age c.frame.isSome)).filter (·.left = 0)).foldl Core.land
      { c with slot := c.slot + 1, pend := (c.pend.map (age c.frame.isSome)).filter (·.left ≠ 0) } := rfl

theorem tick_pend (c : Core) : c.tick.pend = (c.pend.map (age c.frame.isSome)).filter (·.left ≠ 0) := Core.landDue_pend _

/-- A landing goes into the list somewhere, and the others stay in their order. -/
theorem pendInsert_eq (p : Pend) (l : List Pend) : ∃ a b, l = a ++ b ∧ pendInsert p l = a ++ p :: b := by
  induction l with
  | nil => exact ⟨[], [], rfl, rfl⟩
  | cons q l ih =>
    unfold pendInsert
    split
    · obtain ⟨a, b, rfl, h⟩ := ih
      exact ⟨q :: a, b, rfl, by rw [h]; rfl⟩
    · exact ⟨[], q :: l, rfl, rfl⟩

section
variable {α : Type} {Q : Landing → Prop} {L : Landing} {rd : Core → α} {new : α → α}

/-- `rd` reads a part of a core that changes by landings alone; `L` changes it by `new`, and a landing of the kind `Q` changes it in
a way that does not depend on whether `L` has come before. -/
structure Lands (Q : Landing → Prop) (L : Landing) (rd : Core → α) (new : α → α) : Prop where
  pass (c : Core) (n : Nat) (l : List Pend) : rd { c with slot := n, pend := l } = rd c
  land (c : Core) (p : Pend) : p.land = L → rd (c.land p) = new (rd c)
  other (p : Pend) : Q p.land → ∃ g : α → α, (∀ c : Core, rd (c.land p) = g (rd c)) ∧ ∀ a, g (new a) = new (g a)

theorem Lands.others (h : Lands Q L rd new) (l : List Pend) (hl : ∀ p ∈ l, Q p.land) :
    ∃ g : α → α, (∀ c : Core, rd (l.foldl Core.land c) = g (rd c)) ∧ ∀ a, g (new a) = new (g a) := by
  induction l with
  | nil => exact ⟨id, fun _ => rfl, fun _ => rfl⟩
  | cons p l ih =>
    obtain ⟨f, hf, nf⟩ := h.other p (hl p List.mem_cons_self)
    obtain ⟨g, hg, ng⟩ := ih fun q hq => hl q (List.mem_cons_of_mem _ hq)
    exact ⟨g ∘ f, fun c => by rw [List.foldl_cons, hg, hf]; rfl, fun a => by simp only [Function.comp, nf, ng]⟩

/-- The core `d` is as `c` to `rd`, and has the landing `e` in flight besides those of `c`, which are of the kind `Q`. -/
structure Beside (Q : Landing → Prop) (rd : Core → α) (e : Pend) (c d : Core) : Prop where
  same : rd d = rd c
  frame : d.frame = c.frame
  kind : ∀ p ∈ c.pend, Q p.land
  lists : ∃ a b, c.pend = a ++ b ∧ d.pend = a ++ e :: b

/-- What a passing slot puts in place, as `rd` sees it. -/
theorem Lands.due (h : Lands Q L rd new) {c : Core} {l : List Pend} (hl : (c.pend.map (age c.frame.isSome)).filter (·.left = 0) = l) :
    ∃ c' : Core, rd c' = rd c ∧ c.tick = l.foldl Core.land c' :=
  ⟨_, h.pass _ _ _, hl ▸ tick_eq c⟩

/-- A slot that passes brings `e` nearer, or puts it in place; the other landings are due as they would be without it. -/
theorem Lands.tick {e : Pend} {c d : Core} (h : Lands Q L rd new) (hb : Beside Q rd e c d) (ha : e.arr = none) (he : e.land = L) :
    (1 < e.left → Beside Q rd { e with left := e.left - 1 } c.tick d.tick) ∧ (e.left = 1 → rd d.tick = new (rd c.tick)) := by
  obtain ⟨hs, hf, hk, a, b, hc, hd⟩ := hb
  have kind (l : List Pend) (hl : ∀ p ∈ l, p ∈ c.pend) (t : Pend → Bool) : ∀ p ∈ (l.map (age c.frame.isSome)).filter t, Q p.land := by
    intro p hp
    obtain ⟨q, hq, rfl⟩ := List.mem_map.1 (List.mem_filter.1 hp).1
    simpa using hk q (hl q hq)
  obtain ⟨f, hf1, hf2⟩ := h.others _ (kind a (by simp +contextual [hc]) (·.left = 0))
  obtain ⟨g, hg1, hg2⟩ := h.others _ (kind b (by simp +contextual [hc]) (·.left = 0))
  have hct : rd c.tick = g (f (rd c)) := by
    obtain ⟨c', hc', ht⟩ := h.due (c := c) (by rw [hc, List.map_append, List.filter_append])
    rw [ht, List.foldl_append, hg1, hf1, hc']
  constructor
  · intro hlt
    have hne : ¬ e.left - 1 = 0 := by omega
    refine ⟨?_, by simp [hf], fun p hp => kind c.pend (fun _ => id) _ p (tick_pend c ▸ hp), (a.map (age c.frame.isSome)).filter (·.left ≠ 0),
      (b.map (age c.frame.isSome)).filter (·.left ≠ 0), ?_, ?_⟩
    · obtain ⟨d', hd', ht⟩ := h.due (c := d) (by
        rw [hd, hf, List.map_append, List.map_cons, List.filter_append, List.filter_cons, age_own ha, if_neg (by simpa using hne)])
      rw [hct, ht, List.foldl_append, hg1, hf1, hd', hs]
    · rw [tick_pend, hc, List.map_append, List.filter_append]
    · rw [tick_pend, hd, hf, List.map_append, List.filter_append, List.map_cons, List.filter_cons, age_own ha, if_pos (by simpa using hne)]
  · intro h1
    obtain ⟨d', hd', ht⟩ := h.due (c := d) (by
      rw [hd, hf, List.map_append, List.map_cons, List.filter_append, List.filter_cons, age_own ha, if_pos (by simp [h1])])
    rw [hct, ht, List.foldl_append, List.foldl_cons, hg1, h.land _ { e with left := e.left - 1 } he, hf1, hd', hs, hg2]

/-- Until the slot of its latency the landing is not seen, and in that slot it is. -/
theorem Lands.slots {e : Pend} {c d : Core} (h : Lands Q L rd new) (hb : Beside Q rd e c d) (ha : e.arr = none) (he : e.land = L) {n : Nat}
    (hn : e.left = n + 1) : (∀ i < n + 1, rd (slots i d) = rd (slots i c)) ∧ rd (slots (n + 1) d) = new (rd (slots (n + 1) c)) := by
  induction n generalizing e c d with
  | zero =>
    refine ⟨fun i hi => ?_, (h.tick hb ha he).2 hn⟩
    rw [Nat.lt_one_iff.1 hi]
    exact hb.same
  | succ n ih =>
    have hb' := (h.tick hb ha he).1 (by omega)
    obtain ⟨h1, h2⟩ := ih hb' ha he (by simp only []; omega)
    refine ⟨fun i hi => ?_, h2⟩
    cases i with
    | zero => exact hb.same
    | succ i => exact h1 i (by omega)

/-- R63: a landing issued with the latency `n` changes what it changes in the slot `n` and not before. -/
theorem Lands.later (h : Lands Q L rd new) {c : Core} (hk : ∀ p ∈ c.pend, Q p.land) {n : Nat} (hn : 1 ≤ n) :
    (∀ i < n, rd (Safety.slots i (c.later n L)) = rd (Safety.slots i c)) ∧
      rd (Safety.slots n (c.later n L)) = new (rd (Safety.slots n c)) := by
  obtain ⟨n, rfl⟩ := Nat.exists_eq_add_of_le' hn
  obtain ⟨a, b, hc, hd⟩ := pendInsert_eq { left := n + 1, slot := c.slot, land := L } c.pend
  exact h.slots (d := c.later (n + 1) L) ⟨h.pass c c.slot _, rfl, hk, a, b, hc, hd⟩ rfl rfl rfl

end

/-- What nothing in flight changes stays as it is while slots pass. -/
theorem slots_stays {α : Type} {rd : Core → α} {r : Regs} (ht : ∀ c : Core, c.pend.any (Pend.hits · r) = false → rd c.tick = rd c) (n : Nat)
    (c : Core) (h : c.pend.any (Pend.hits · r) = false) : rd (slots n c) = rd c := by
  induction n generalizing c with
  | zero => rfl
  | succ n ih =>
    have hk : c.tick.pend.any (Pend.hits · r) = false := by
      refine List.any_eq_false.2 fun p hp => ?_
      rw [tick_pend] at hp
      obtain ⟨q, hq, rfl⟩ := List.mem_map.1 (List.mem_filter.1 hp).1
      have := List.any_eq_false.1 h q hq
      simpa [Pend.hits] using this
    exact (ih c.tick hk).trans (ht c h)

/-- A kind of landing: those that write none of the registers. -/
def Misses (r : Regs) (l : Landing) : Prop := ∀ p : Pend, p.land = l → p.hits r = false

theorem misses_of_any {r : Regs} {l : List Pend} (h : l.any (Pend.hits · r) = false) : ∀ p ∈ l, Misses r p.land := by
  intro p hp q hq
  have := List.any_eq_false.1 h p hp
  simpa [Pend.hits, hq] using this

theorem lands_x {r : XReg} (hr : r ≠ 0) (v : Word) : Lands (Misses { x := [r] }) (.x r v) (Core.rx · r) fun _ => v where
  pass _ _ _ := rfl
  land c p hp := by simp [Core.land, hp, Core.wx, Core.rx, hr]
  other p hp := ⟨id, fun c => Core.rx_of_x (c.land_x p r (hp p rfl)), fun _ => rfl⟩

theorem lands_v (q : VReg) (t m : Tile) : Lands (Misses { v := [q] }) (.v q t m) (Core.rv · q) fun old => (old &&& ~~~m) ||| (t &&& m) where
  pass _ _ _ := rfl
  land c p hp := by simp [Core.land, hp, Core.wv, Core.rv]
  other p hp := ⟨id, fun c => c.land_v p q (hp p rfl), fun _ => rfl⟩

theorem lands_p {r : PReg} (hr : r ≠ 0) (k : Mask) : Lands (Misses { p := [r] }) (.p r k) (Core.rp · r) fun _ => k where
  pass _ _ _ := rfl
  land c p hp := by simp [Core.land, hp, Core.wp, Core.rp, hr]
  other p hp := ⟨id, fun c => by simp only [Core.rp, c.land_p p r (hp p rfl), id], fun _ => rfl⟩

/-- The flags that a landing joins. -/
def joins : Landing → Flags
  | .flags f => f
  | _ => 0

theorem land_fflags (c : Core) (p : Pend) : (c.land p).fflags = c.fflags ||| joins p.land := by
  unfold Core.land
  cases p.land with
  | x r v => simp only [Core.wx, joins]; split <;> simp
  | v r t m => simp [Core.wv, joins]
  | p r m => simp only [Core.wp, joins]; split <;> simp
  | flags f => rfl
  | store o bs full => simp only [joins]; split <;> simp [Core.shareStore, Core.setFull]
  | heap k new rows => simp [joins, Core.foldl_heapRow_regs]

theorem lands_flags (f : Flags) : Lands (fun _ => True) (.flags f) Core.fflags (· ||| f) where
  pass _ _ _ := rfl
  land c p hp := by rw [land_fflags, hp]; rfl
  other p _ := ⟨(· ||| joins p.land), fun c => land_fflags c p, fun a => by simp only [BitVec.or_assoc, BitVec.or_comm f]⟩

/-- R63: a scalar result is readable in the slot of its latency and not before. -/
theorem pendX_slots {c : Core} {n : Nat} (hn : 1 ≤ n) {r : XReg} (hr : r ≠ 0) (v : Word) (h : c.pend.any (Pend.hits · { x := [r] }) = false) :
    (∀ i < n, (slots i (c.pendX n r v)).rx r = c.rx r) ∧ (slots n (c.pendX n r v)).rx r = v := by
  obtain ⟨h1, h2⟩ := (lands_x hr v).later (misses_of_any h) hn
  simp only [Core.pendX, if_neg hr]
  exact ⟨fun i hi => (h1 i hi).trans (slots_stays (rd := (Core.rx · r)) (fun c => c.tick_rx r) i c h), h2⟩

/-- R63, R141: a vector result, in the bits that its mask selects. -/
theorem pendV_slots {c : Core} {n : Nat} (hn : 1 ≤ n) {q : VReg} (t m : Tile) (h : c.pend.any (Pend.hits · { v := [q] }) = false) :
    (∀ i < n, (slots i (c.pendV n q t m)).rv q = c.rv q) ∧ (slots n (c.pendV n q t m)).rv q = ((c.rv q &&& ~~~m) ||| (t &&& m)) := by
  obtain ⟨h1, h2⟩ := (lands_v q t m).later (misses_of_any h) hn
  have stays (i : Nat) : (slots i c).rv q = c.rv q := slots_stays (rd := (Core.rv · q)) (fun c => c.tick_rv q) i c h
  exact ⟨fun i hi => (h1 i hi).trans (stays i), h2.trans (by rw [stays n])⟩

/-- R63: a predicate result. -/
theorem pendP_slots {c : Core} {n : Nat} (hn : 1 ≤ n) {p : PReg} (hp : p ≠ 0) (k : Mask) (h : c.pend.any (Pend.hits · { p := [p] }) = false) :
    (∀ i < n, (slots i (c.pendP n p k)).rp p = c.rp p) ∧ (slots n (c.pendP n p k)).rp p = k := by
  obtain ⟨h1, h2⟩ := (lands_p hp k).later (misses_of_any h) hn
  simp only [Core.pendP, if_neg hp]
  exact ⟨fun i hi => (h1 i hi).trans (slots_stays (rd := (Core.rp · p)) (fun c => c.tick_rp p) i c h), h2⟩

/-- R118: flags join in the slot of their latency, whatever else joins. -/
theorem pendF_slots (c : Core) {n : Nat} (hn : 1 ≤ n) (f : Flags) : (∀ i < n, (slots i (c.pendF n f)).fflags = (slots i c).fflags) ∧
    (slots n (c.pendF n f)).fflags = (slots n c).fflags ||| f := by
  by_cases hf : f = 0
  · subst hf
    exact ⟨fun _ _ => rfl, (BitVec.or_zero).symm⟩
  · simp only [Core.pendF, if_neg hf]
    exact (lands_flags f).later (fun _ _ => trivial) hn

/-! The scoreboard's hold (R64). -/

/-- The core stands where it stood: no slot has passed and nothing has retired. -/
def StandsStill (c d : Core) : Prop := d.pc = c.pc ∧ d.slot = c.slot ∧ d.retired = c.retired

theorem standsStill_landed {c d : Core} (h : c.Landed d) : StandsStill c d := by
  rw [Core.Landed] at h
  rw [h]
  exact ⟨rfl, rfl, rfl⟩

theorem standsStill_advance (c : Core) : StandsStill c c.advance := by simp [StandsStill, Core.advance]

theorem standsStill_landLate (c : Core) : StandsStill c c.landLate := by
  unfold Core.landLate
  split
  · exact ⟨rfl, rfl, rfl⟩
  · next p l _ =>
    exact standsStill_landed (c := { c with late := l }) (Core.landed_land _ p)

theorem StandsStill.trans {a b c : Core} (h : StandsStill a b) (k : StandsStill b c) : StandsStill a c := by
  obtain ⟨h1, h2, h3⟩ := h
  obtain ⟨k1, k2, k3⟩ := k
  exact ⟨k1.trans h1, k2.trans h2, k3.trans h3⟩

theorem modCore_own (s : State) (f : Core → Core) : s.modCore s.core.id f = s.upd fun c => { f c with id := c.id } := by
  simp [State.modCore, State.setCore, State.coreAt, State.upd]

/-- Counting an event of the acting core changes counters alone (R394). -/
theorem count_own (s : State) (src n : Nat) :
    ∃ e d, s.count s.core.id src n = { s with core := { s.core with events := e }, dieEv := d } := by
  unfold State.count
  split
  · rw [modCore_own]
    exact ⟨_, _, rfl⟩
  · exact ⟨_, _, rfl⟩

/-- R64: an instruction that the scoreboard holds waits where it stands. -/
theorem scoreWait_holds (s : State) (r : Regs) : StandsStill s.core (s.scoreWait r).core ∧ (s.scoreWait r).core.waiting = true ∧
    (s.scoreWait r).mem = s.mem ∧ (s.scoreWait r).others = s.others := by
  obtain ⟨e, d, hc⟩ := count_own s 7 1
  have counted : StandsStill s.core { s.core with events := e } := ⟨rfl, rfl, rfl⟩
  unfold State.scoreWait
  rw [hc]
  simp only []
  split
  · exact ⟨(counted.trans (standsStill_landLate _)).trans (standsStill_advance _), rfl, rfl, rfl⟩
  · exact ⟨counted.trans (standsStill_advance _), rfl, rfl, rfl⟩

theorem issue_held {rd wr : Regs} {s : State} (h : s.core.held? (rd.and wr) = true) (k : State → Out) :
    issue rd wr s k = .next (s.scoreWait (rd.and wr)) := by
  unfold issue
  rw [if_pos h]

/-- In a compute phase only a variable-latency result holds an instruction (R64). -/
theorem free_of_compute {s : State} {rd wr : Regs} (hp : s.core.phase = .compute) (ha : s.core.awaited (rd.and wr) = false)
    (hb : s.core.badReg rd = none) (hq : s.core.poisonReg rd = none) : Free s rd wr := by
  simp [Free, Core.ready, Core.held?, hp, ha, hb, hq]

/-- Settles O5: a landing is seen in the slot of its latency (`Lands.later`), as each register file and the flags read it; what the
scoreboard holds stands still (`scoreWait_holds`), and in a compute phase it holds nothing that is pending (`free_of_compute`). -/
theorem registerWritesAndTheScoreboard : Obligations.RegisterWritesAndTheScoreboard := by
  refine ⟨fun c n r v q t m p k f hn => ⟨fun hr h => pendX_slots hn hr v h, fun h => pendV_slots hn t m h,
      fun hp h => pendP_slots hn hp k h, pendF_slots c hn f⟩,
    fun s n v m f bad => ⟨rfl, rfl, rfl, rfl, rfl, rfl, rfl, rfl⟩, fun s d a b => ⟨fun h => ?_, fun hp hl hb hq => ?_⟩⟩
  · have hh : s.core.held? (Regs.and { x := [a, b] } { x := [d] }) = true := by
      rcases h with ⟨hp, hw⟩ | hl
      · exact Bool.or_eq_true_iff.2 (.inl (Bool.and_eq_true_iff.2 ⟨decide_eq_true hp, hw⟩))
      · exact Bool.or_eq_true_iff.2 (.inr hl)
    obtain ⟨⟨hpc, hslot, hret⟩, hw, hm, ho⟩ := scoreWait_holds s (Regs.and { x := [a, b] } { x := [d] })
    exact ⟨_, issue_held hh _, hpc, hslot, hret, hw, hm, ho⟩
  · exact binX_free (free_of_compute hp hl hb hq)

end Sys2Proof.Proofs.Slots
end

section
set_option Elab.async false
namespace Sys2Proof.Proofs.Loops
open Sys2Proof Sys2Proof.Machine Sys2Proof.Safety Sys2Proof.Proofs.Streams

variable {s : State} {l : Level}

/-! Entering a loop (R73). -/

/-- The depth of a loop that is opened now (log 54). -/
def newDepth (ls : Vector LoopLevel 3) : Nat := ls.toList.foldl (fun m q => if q.active then max m (q.depth + 1) else m) 0

/-- A loop that is opened now lies deeper than those that are active. -/
theorem depth_lt_newDepth {ls : Vector LoopLevel 3} {m : Level} (ha : ls[m].active = true) : ls[m].depth < newDepth ls := by
  have rises (qs : List LoopLevel) (k : Nat) : k ≤ qs.foldl (fun m q => if q.active then max m (q.depth + 1) else m) k :=
    List.foldlRecOn (motive := (k ≤ ·)) qs _ (Nat.le_refl k) fun m hm q _ => by
      split
      · exact Nat.le_trans hm (Nat.le_max_left _ _)
      · exact hm
  have above (qs : List LoopLevel) (k : Nat) (hm : ls[m] ∈ qs) :
      ls[m].depth < qs.foldl (fun m q => if q.active then max m (q.depth + 1) else m) k := by
    induction qs generalizing k with
    | nil => exact absurd hm List.not_mem_nil
    | cons r qs ih =>
      rw [List.foldl_cons]
      rcases List.mem_cons.1 hm with hr | hm
      · rw [← hr, if_pos ha]
        exact Nat.lt_of_lt_of_le (Nat.lt_of_lt_of_le (Nat.lt_succ_self _) (Nat.le_max_right k _)) (rises _ _)
      · exact ih _ hm
  exact above _ _ (Vector.mem_toList_iff.2 (Vector.getElem_mem m.isLt))

theorem any_loops {ls : Vector LoopLevel 3} {p : LoopLevel → Bool} : ls.any p = true ↔ ∃ m : Level, p ls[m] = true := by
  rw [← exists_mem_loops (P := fun q => p q = true), ← Vector.any_toList, List.any_eq_true]

/-- What the opening of a loop at the level `l` that ends at `E` answers: `o`. -/
def Opens (s : State) (l : Level) (E : Word) (o : Out) (op : Nat) (cnt : Word) : Prop :=
  (s.core.loops[l].active = true ∨ 2 ^ 32 ≤ cnt.toNat → o = .next (s.raise 0x02 0 op 0)) ∧
  ∀ u x, s.core.loops[l].active = false → cnt.toNat < 2 ^ 32 → s.enter E = .ok u x →
    ((∃ m : Level, u.core.loops[m].active = true ∧ u.core.loops[m].stop < E) → o = .next (u.raise 0x02 0 op 0)) ∧
    ((∀ m : Level, u.core.loops[m].active = true → E ≤ u.core.loops[m].stop) →
      (cnt = 0 → o = .next (u.transfer E)) ∧
      (cnt ≠ 0 → ∃ k, (∀ m : Level, u.core.loops[m].active = true → u.core.loops[m].depth < k) ∧
        o = .next (u.upd fun c =>
          let q : LoopLevel := { cnt := cnt.setWidth 32, active := true, start := c.npc, stop := E, depth := k }
          { c with loops := c.loops.set l q }).retire))

theorem opens_openLoop {o : Out} {op e : Nat} {cnt : Word} (h : o = s.openLoop op l e cnt) :
    Opens s l (s.core.pc + BitVec.ofNat 64 (4 * e)) o op cnt := by
  subst h
  refine ⟨fun h => ?_, fun u x ha hc hu => ?_⟩
  · unfold State.openLoop
    by_cases ha : s.core.loops[l].active = true
    · rw [if_pos ha]
      rfl
    · rw [if_neg ha, if_pos (h.resolve_left ha)]
      rfl
  · unfold State.openLoop
    rw [if_neg (ha ▸ Bool.false_ne_true), if_neg (Nat.not_le.2 hc)]
    simp only [hu]
    have shorter : (u.core.loops.any fun q => q.active && q.stop < s.core.pc + BitVec.ofNat 64 (4 * e)) = true ↔
        ∃ m : Level, u.core.loops[m].active = true ∧ u.core.loops[m].stop < s.core.pc + BitVec.ofNat 64 (4 * e) := by
      simp only [any_loops, Bool.and_eq_true, decide_eq_true_eq]
    refine ⟨fun h => by rw [if_pos (shorter.2 h)]; rfl, fun h => ?_⟩
    rw [if_neg fun hs => ?_]
    · exact ⟨fun h0 => by rw [if_pos h0], fun h0 => ⟨newDepth u.core.loops, fun m hm => depth_lt_newDepth hm, by rw [if_neg h0]; rfl⟩⟩
    · obtain ⟨m, hm, hlt⟩ := shorter.1 hs
      exact absurd hlt (BitVec.not_lt.2 (h m hm))

/-! Leaving a loop (R75). -/

theorem exec_lbrk_free {q : Quant} {p : PReg} (hl : s.core.leads = true) (hf : Free s { p := [p] } {}) :
    exec (.lbrk l q p) s =
      if !s.core.loops[l].active then s.illegal 0x0A
      else if quant q (s.core.rp p) s.core.rows then .next ((s.upd fun c => c.breakLoop s.core.loops[l]).transfer s.core.loops[l].stop)
      else .next s.retire := by
  rw [exec_lbrk, execLbrk, if_neg (by simp [hl]), issue_free hf]
  rfl

/-- The leader that breaks a loop stands at its end, and the loops nested in it have ended with it. -/
theorem break_transfer (hl : s.core.leads = true) (n : LoopLevel) (t : Word) :
    let u := (s.upd fun c => c.breakLoop n).transfer t
    u.core.pc = t ∧ ∀ m : Level, u.core.loops[m] =
      if s.core.loops[m].active = true ∧ n.depth ≤ s.core.loops[m].depth then { s.core.loops[m] with cnt := 0, active := false }
      else s.core.loops[m] := by
  have hb : (s.upd fun c => c.breakLoop n).core.leads = true := hl
  simp only [transfer_leads hb]
  exact ⟨trivial, fun m => by simpa [ended] using breakLoop_loops s.core n m⟩

/-! The back edge (R74). -/

/-- The only loop whose back edge is due is the one taken. -/
theorem backEdge_only {c : Core} {a : Word}
    (hl : c.loops[l].active = true ∧ c.loops[l].stop = a ∧ c.loops[l].start ≤ c.pc ∧ c.pc < c.loops[l].stop)
    (ho : ∀ m : Level, m ≠ l → c.loops[m].active = false) : c.backEdge a = some l := by
  obtain ⟨ha, hs, h1, h2⟩ := hl
  have single (l : Level) : (List.finRange 3).filter (· = l) = [l] := by
    revert l
    decide
  have due : ((List.finRange 3).filter fun m =>
      c.loops[m].active && c.loops[m].stop = a && c.loops[m].start ≤ c.pc && c.pc < c.loops[m].stop) = [l] := by
    rw [← single l]
    refine List.filter_congr fun m _ => ?_
    by_cases hm : m = l
    · subst hm
      rw [ha, decide_eq_true hs, decide_eq_true h1, decide_eq_true h2, decide_eq_true rfl]
      rfl
    · rw [ho m hm, decide_eq_false hm]
      rfl
  simp only [Core.backEdge, due, List.foldl_cons, List.foldl_nil]

/-- With no loop active no back edge is due. -/
theorem backEdge_none {c : Core} (h : ∀ m : Level, c.loops[m].active = false) (a : Word) : c.backEdge a = none := by
  have due : ((List.finRange 3).filter fun m =>
      c.loops[m].active && c.loops[m].stop = a && c.loops[m].start ≤ c.pc && c.pc < c.loops[m].stop) = [] :=
    List.filter_eq_nil_iff.2 fun m _ => by rw [h m]; exact Bool.false_ne_true
  simp only [Core.backEdge, due, List.foldl_nil]

theorem loopEnd_active {ls : Vector LoopLevel 3} (ho : ∀ m : Level, m ≠ l → ls[m].active = false) (m : Level) :
    (loopEnd ls l)[m].active = false := by
  by_cases hm : m = l
  · subst hm
    simp [loopEnd]
  · have hv : ¬ l.val = m.val := fun e => hm (Fin.ext e.symm)
    simpa [loopEnd, hv] using ho m hm

/-- R74: the back edge of a loop whose body is run again goes to its start with the count one less. -/
theorem flow_again {c : Core} {a : Word} (n : Nat) (hb : c.backEdge a = some l) (hc : 1 < c.loops[l].cnt.toNat) :
    c.flow (n + 1) a = ({ c with loops := c.loops.set l { c.loops[l] with cnt := c.loops[l].cnt - 1 }, pc := c.loops[l].start }, some l) := by
  simp only [Core.flow, hb]
  rw [if_pos hc]

/-- R74: a loop that has run its count ends, and with no other active the flow goes on past it. -/
theorem flow_ends {c : Core} {a : Word} (n : Nat) (hb : c.backEdge a = some l) (hc : c.loops[l].cnt.toNat ≤ 1)
    (ho : ∀ m : Level, m ≠ l → c.loops[m].active = false) :
    c.flow (n + 1) a = ({ c with loops := loopEnd c.loops l, pc := a }, none) := by
  simp only [Core.flow, hb]
  rw [if_neg (Nat.not_lt.2 hc), Core.flow_straight _ _ _ (backEdge_none (loopEnd_active ho) a)]

theorem exec_loopBackEdge_due (hb : s.core.backEdge s.core.npc = some l) :
    exec .loopBackEdge s = .next (s.upd fun c => { (c.flow 4 c.npc).1 with gap := s.edgeGap (c.flow 4 c.npc).2 }) := by
  rw [exec_loopBackEdge, execLoopBackEdge, hb]

/-- Settles O7: a loop is opened as `opens_openLoop` says and broken as `break_transfer` says; its back edge is `flow_again` or `flow_ends`. -/
theorem loops : Obligations.Loops := by
  intro s l e n a q p
  refine ⟨fun hl => ?_, fun hl hf => ?_, fun hl => ⟨?_, ?_, ?_⟩, fun hl hf => ⟨fun ha => ?_, fun ha hq => ?_, fun ha hq => ?_⟩,
    fun ha hs h1 h2 ho => ?_⟩
  · exact opens_openLoop (by rw [exec_loop, execLoop, if_pos hl])
  · exact opens_openLoop (by rw [exec_loopr, execLoopr, if_pos hl, issue_free hf])
  · rw [exec_loop, execLoop, if_neg (by simp [hl])]
  · rw [exec_loopr, execLoopr, if_neg (by simp [hl])]
  · rw [exec_lbrk, execLbrk, if_pos (by simp [hl])]
  · rw [exec_lbrk_free hl hf, if_pos (by rw [ha]; rfl)]
    rfl
  · rw [exec_lbrk_free hl hf, if_neg (by rw [ha]; exact Bool.false_ne_true), if_neg (by simp [hq])]
  · refine ⟨_, by rw [exec_lbrk_free hl hf, if_neg (by rw [ha]; exact Bool.false_ne_true), if_pos hq], break_transfer hl _ _⟩
  · have hb := backEdge_only ⟨ha, hs, h1, h2⟩ ho
    refine ⟨_, exec_loopBackEdge_due hb, by simp, by simp, fun hc => ?_, fun hc => ?_⟩
    · simp only [State.upd_core, flow_again 3 hb hc]
      simpa using ha
    · simp only [State.upd_core, flow_ends 3 hb hc ho]
      exact ⟨trivial, loopEnd_active ho l, rfl⟩

end Sys2Proof.Proofs.Loops
end

section
set_option Elab.async false
namespace Sys2Proof.Proofs.HeldStores
open Sys2Proof Sys2Proof.Machine Sys2Proof.Safety Sys2Proof.Laws Sys2Proof.Proofs.Stores Sys2Proof.Proofs.Slots

/-! A store to the own share (R63, R228). -/

/-- With nothing in flight a slot that passes changes the count of slots alone. -/
theorem slots_idle {c : Core} (h : c.pend = []) (n : Nat) : slots n c = { c with slot := c.slot + n } := by
  induction n generalizing c with
  | zero => rfl
  | succ n ih =>
    have ht : c.tick = { c with slot := c.slot + 1 } := by rw [tick_eq, h]; cases c; cases h; rfl
    have hn : slots (n + 1) c = slots n c.tick := rfl
    rw [hn, ht, ih (c := { c with slot := c.slot + 1 }) h, Nat.add_assoc, Nat.add_comm 1]

theorem lands_store (off : Nat) (bs : List Byte) :
    Lands (fun _ => False) (.store off bs false) Core.share fun m => m.write off bs where
  pass _ _ _ := rfl
  land c p hp := by simp [Core.land, hp, Core.shareStore]
  other _ h := h.elim

/-- R63, R228: the bytes of a store stand in the share in the slot of its latency and not before. -/
theorem pendStore_slots {c : Core} {n : Nat} (hn : 1 ≤ n) (hp : c.pend = []) {bs : List Byte} (hb : bs ≠ []) (off : Nat) :
    (∀ i < n, (slots i (c.pendStore n off bs false)).share = c.share) ∧
      (slots n (c.pendStore n off bs false)).share = c.share.write off bs := by
  obtain ⟨h1, h2⟩ := (lands_store off bs).later (c := c) (by simp [hp]) hn
  simp only [Core.pendStore, if_neg hb]
  simp only [slots_idle hp] at h1 h2
  exact ⟨h1, h2⟩

/-! Where a store goes (R40, R66, R228). -/

variable {s : State}

theorem resolve_share {a : Word} {n : Nat} (hn : 1 ≤ n) (ht : tag a = 8) (hs : offset a + n ≤ s.core.shareSize) :
    s.resolve a n = some (.share (offset a)) := by
  have hl : offset a + (n - 1) < s.core.shareSize := by omega
  simp [State.resolve, ht, hl]

theorem resolve_glob {a : Word} {n : Nat} (hn : 1 ≤ n) (ht : tag a = 0) (hs : offset a + n ≤ 2 ^ 57) :
    s.resolve a n = some (.glob (offset a)) := by
  have hl : offset a + (n - 1) < 2 ^ 57 := by omega
  simp only [State.resolve, ht, if_true, if_pos hl]

theorem one_le_bytes (sz : MSize) : 1 ≤ MSize.bytes sz := by cases sz <;> decide

/-- What a store of `n` bytes of `d` at the address `a` answers: `o`. -/
def StoresAt (s : State) (n : Nat) (d : XReg) (o : Out) (rel : Option Scope) (a : Word) : Prop :=
  (a.toNat % n ≠ 0 ∨ s.resolve a n = none → o = .next (s.raise 0x05 a.toNat 0x31 0)) ∧
  (a.toNat % n = 0 → tag a = 8 → offset a + n ≤ s.core.shareSize →
    o = .next (s.upd fun c => c.pendStore 4 (offset a) (leBytes n (s.core.rx d).toNat) false).retire) ∧
  ∀ sp, a.toNat % n = 0 → s.resolve a n = some sp → sp.isShare = false →
    (s.core.phase = .compute → o = .next (s.raise 0x03 0 0x31 0)) ∧
    ∀ u x, s.core.phase = .exchange → s.writeSpace sp (leBytes n (s.core.rx d).toNat) rel = .ok u x → o = .next u.retire

theorem store_beyond {n : Nat} {rel : Option Scope} {a : Word} {d : XReg} {sp : Space} (ha : a.toNat % n = 0)
    (hr : s.resolve a n = some sp) (hs : sp.isShare = false) : store n rel a d s =
      s.classX 0x31 fun s' => (s'.writeSpace sp (leBytes n (s.core.rx d).toNat) rel).run fun s _ => .next s.retire := by
  unfold store
  rw [if_pos ha, hr]
  cases sp with
  | share o => cases hs
  | glob _ => rfl
  | ctl _ => rfl
  | win _ => rfl

theorem storesAt_store {n : Nat} (hn : 1 ≤ n) {d : XReg} {o : Out} {rel : Option Scope} {a : Word} (ho : o = store n rel a d s) :
    StoresAt s n d o rel a := by
  subst ho
  refine ⟨fun h => ?_, fun ha ht hs => ?_, fun sp ha hr hs => ⟨fun hc => ?_, fun u x he hw => ?_⟩⟩
  · have hnone : (if a.toNat % n = 0 then s.resolve a n else none) = none := by
      split
      · next ha => exact h.resolve_left (not_not_intro ha)
      · rfl
    unfold store
    rw [hnone]
    rfl
  · unfold store
    rw [if_pos ha, resolve_share hn ht hs]
  · rw [store_beyond ha hr hs, State.classX, if_pos hc]
    rfl
  · rw [store_beyond ha hr hs, State.classX_exchange he, hw]
    rfl

theorem exec_st_free {sz : MSize} {m : MAddr} {d : XReg} (h : Free s { x := d :: MAddr.reads m } {}) :
    exec (.st sz m d) s = store (MSize.bytes sz) none (s.core.ea m (MSize.bytes sz)) d s := by
  rw [exec_st, execSt, issue_free h]

theorem exec_stExtended_free {sz : MSize} {m : MAddr} {d : XReg} (h : Free s { x := d :: MAddr.reads m } {}) (imm : BitVec 32)
    (rel : Option Scope) :
    exec (.stExtended sz m d imm rel) s = store (MSize.bytes sz) rel (s.core.ea m (MSize.bytes sz) imm) d s := by
  rw [exec_stExtended, execStExtended, issue_free h]

/-! The levels that held stores reach (R203 to R212). -/

/-- What is asked of each held store. -/
def asks (want : NetStore → Nat → Nat) (ts : List NetStore) : List (NetStore × Nat) := ts.zipIdx.map fun q => (q.1, want q.1 q.2)
/-- The levels that stores reach of which this is asked. -/
def decided (qs : List (NetStore × Nat)) : List (NetStore × Nat) := qs.foldr decideLevel []
/-- The level that a store has to reach: what is asked of it, and what later stores need whose levels are decided. -/
def reach (q : NetStore × Nat) (later : List (NetStore × Nat)) : Nat :=
  later.foldl (fun l r => if r.1.lvl < r.2 then max l (q.1.least r.1 r.2) else l) q.2

theorem levels_eq (want : NetStore → Nat → Nat) (ts : List NetStore) : levels want ts = decided (asks want ts) := rfl
theorem decided_cons (q : NetStore × Nat) (qs : List (NetStore × Nat)) :
    decided (q :: qs) = (q.1, q.1.cap (reach q (decided qs))) :: decided qs := rfl

theorem reach_ge (q : NetStore × Nat) (later : List (NetStore × Nat)) : q.2 ≤ reach q later :=
  List.foldlRecOn (motive := (q.2 ≤ ·)) later _ (Nat.le_refl _) fun l hl r _ => by
    split
    · exact Nat.le_trans hl (Nat.le_max_left _ _)
    · exact hl

/-- A later store that moves takes along what it needs. -/
theorem least_le_reach {q r : NetStore × Nat} {later : List (NetStore × Nat)} (hr : r ∈ later) (hm : r.1.lvl < r.2) :
    q.1.least r.1 r.2 ≤ reach q later := by
  obtain ⟨a, b, rfl⟩ := List.append_of_mem hr
  have hb := reach_ge (q.1, max (reach q a) (q.1.least r.1 r.2)) b
  have e : reach q (a ++ r :: b) = reach (q.1, max (reach q a) (q.1.least r.1 r.2)) b := by
    simp only [reach, List.foldl_append, List.foldl_cons, if_pos hm]
  rw [e]
  exact Nat.le_trans (Nat.le_max_right _ _) hb

/-- When no later store moves, a store has to reach what is asked of it. -/
theorem reach_of_still {q : NetStore × Nat} {later : List (NetStore × Nat)} (h : ∀ r ∈ later, r.2 = r.1.lvl) : reach q later = q.2 :=
  List.foldlRecOn (motive := (· = q.2)) later _ rfl fun l hl r hr => by
    rw [if_neg (Nat.not_lt.2 (Nat.le_of_eq (h r hr)))]
    exact hl

theorem decided_fst (qs : List (NetStore × Nat)) : (decided qs).map Prod.fst = qs.map Prod.fst := by
  induction qs with
  | nil => rfl
  | cons q qs ih => rw [decided_cons, List.map_cons, List.map_cons, ih]

/-- A store's level follows from those of the later ones, whatever stands before it. -/
theorem decided_append (A : List (NetStore × Nat)) (q : NetStore × Nat) (R : List (NetStore × Nat)) :
    ∃ A', A'.map Prod.fst = A.map Prod.fst ∧ decided (A ++ q :: R) = A' ++ (q.1, q.1.cap (reach q (decided R))) :: decided R := by
  induction A with
  | nil => exact ⟨[], rfl, rfl⟩
  | cons p A ih =>
    obtain ⟨A', hf, hd⟩ := ih
    exact ⟨(p.1, p.1.cap (reach p (decided (A ++ q :: R)))) :: A', by rw [List.map_cons, List.map_cons, hf],
      by rw [List.cons_append, decided_cons, List.cons_append]; rw [← hd]⟩

/-- When one store alone is asked to move, the others are asked nothing. -/
theorem asks_one {want : NetStore → Nat → Nat} {a b : List NetStore} {h : NetStore} {l : Nat}
    (hw : ∀ g j, j < a.length + 1 + b.length → want g j = if j = a.length then l else 0) :
    asks want (a ++ h :: b) = a.map (·, 0) ++ (h, l) :: b.map (·, 0) := by
  have off (ts : List NetStore) (k : Nat) (hk : ∀ g j, k ≤ j → j < k + ts.length → want g j = 0) :
      (ts.zipIdx k).map (fun q => (q.1, want q.1 q.2)) = ts.map (·, 0) := by
    induction ts generalizing k with
    | nil => rfl
    | cons t ts ih =>
      rw [List.zipIdx_cons, List.map_cons, List.map_cons, hk t k (Nat.le_refl k) (by simp),
        ih (k + 1) fun g j h1 h2 => hk g j (by omega) (by simp only [List.length_cons]; omega)]
  unfold asks
  rw [List.zipIdx_append, List.map_append, List.zipIdx_cons, List.map_cons,
    off a 0 fun g j _ h2 => by rw [hw g j (by omega), if_neg (by omega)],
    off b _ fun g j h1 h2 => by rw [hw g j (by omega), if_neg (by omega)], hw h _ (by omega)]
  simp

theorem fst_unasked (ts : List NetStore) : (ts.map (·, 0)).map Prod.fst = ts := by
  rw [List.map_map]
  exact List.map_id ts

theorem mayPerform_iff (s : State) (i l : Nat) : s.mayPerform i l = true ↔
    ∀ (j : Nat) (q : NetStore × Nat), (levels (fun _ j => if j = i then l else 0) s.stores)[j]? = some q → j ≠ i → q.2 = q.1.lvl := by
  simp only [State.mayPerform, List.all_eq_true, Bool.or_eq_true, decide_eq_true_eq]
  constructor
  · exact fun h j q hq hj => (h (q, j) (List.mem_zipIdx_iff_getElem?.2 hq)).resolve_left hj
  · intro h q hq
    by_cases hj : q.2 = i
    · exact .inl hj
    · exact .inr (h q.2 q.1 (List.mem_zipIdx_iff_getElem?.1 hq) hj)

theorem stores_split {ts : List NetStore} {i : Nat} {h : NetStore} (hi : ts[i]? = some h) :
    ∃ a b, a.length = i ∧ ts = a ++ h :: b := by
  obtain ⟨hl, rfl⟩ := List.getElem?_eq_some_iff.1 hi
  exact ⟨ts.take i, ts.drop (i + 1), List.length_take_of_le (Nat.le_of_lt hl), by simp⟩

/-- Stores whose levels do not change. -/
theorem eq_map_of_still {ls : List (NetStore × Nat)} {ts : List NetStore} (hf : ls.map Prod.fst = ts) (h : ∀ q ∈ ls, q.2 = q.1.lvl) :
    ls = ts.map fun g => (g, g.lvl) := by
  subst hf
  rw [List.map_map]
  exact (List.map_id ls).symm.trans (List.map_congr_left fun q hq => Prod.ext rfl (h q hq))

/-- A store that may move alone moves as it is asked, and the others stay. -/
theorem levels_of_mayPerform {a b : List NetStore} {h : NetStore} {l : Nat} (hs : s.stores = a ++ h :: b)
    (hm : s.mayPerform a.length l = true) : levels (fun _ j => if j = a.length then l else 0) s.stores =
      a.map (fun g => (g, g.lvl)) ++ (h, h.cap l) :: b.map fun g => (g, g.lvl) := by
  have still := (mayPerform_iff s a.length l).1 hm
  obtain ⟨A', hA, hd⟩ := decided_append (a.map (·, 0)) (h, l) (b.map (·, 0))
  rw [levels_eq, hs, asks_one fun _ _ _ => rfl, hd] at still ⊢
  have hA' : A'.map Prod.fst = a := hA.trans (fst_unasked a)
  have hlen : A'.length = a.length := by rw [← hA', List.length_map]
  have stillA : ∀ q ∈ A', q.2 = q.1.lvl := by
    intro q hq
    obtain ⟨j, hj, rfl⟩ := List.getElem_of_mem hq
    exact still j _ (by rw [List.getElem?_append_left hj, List.getElem?_eq_getElem hj]) (by omega)
  have stillB : ∀ q ∈ decided (b.map (·, 0)), q.2 = q.1.lvl := by
    intro q hq
    obtain ⟨j, hj, rfl⟩ := List.getElem_of_mem hq
    refine still (A'.length + 1 + j) _ ?_ (by omega)
    rw [List.getElem?_append_right (by omega), show A'.length + 1 + j - A'.length = j + 1 by omega, List.getElem?_cons_succ,
      List.getElem?_eq_getElem hj]
  rw [reach_of_still stillB, ← eq_map_of_still hA' stillA, ← eq_map_of_still ((decided_fst _).trans (fst_unasked b)) stillB]

/-! What is asked takes effect. -/

/-- Held stores in the order in which `State.bring` leaves them. -/
def seenFirst (ts : List NetStore) : List NetStore := (ts.filter fun t => 1 ≤ t.lvl) ++ ts.filter fun t => t.lvl = 0

theorem seenFirst_perm (ts : List NetStore) : (seenFirst ts).Perm ts := by
  have e : (ts.filter fun t => t.lvl = 0) = ts.filter fun t => !decide (1 ≤ t.lvl) := by
    refine List.filter_congr fun t _ => ?_
    rw [← decide_not, decide_eq_decide]
    omega
  unfold seenFirst
  rw [e]
  exact List.filter_append_perm _ ts

/-- The stores that are held still, when stores have reached these levels. -/
def held (ls : List (NetStore × Nat)) : List NetStore := (ls.filter fun q => q.2 < q.1.top).map fun q => { q.1 with lvl := q.2 }

theorem bring_eq (hs : s.stores ≠ []) {want : NetStore → Nat → Nat} {ls : List (NetStore × Nat)} (hl : levels want s.stores = ls) :
    s.bring want = (ls.filter fun q => q.1.top ≤ q.2).foldl (fun s q => s.perform q.1) { s with stores := seenFirst (held ls) } := by
  subst hl
  unfold State.bring
  rw [if_neg hs]
  rfl

theorem stores_bring (hs : s.stores ≠ []) (want : NetStore → Nat → Nat) :
    (s.bring want).stores = seenFirst (held (levels want s.stores)) := by
  rw [bring_eq hs rfl, (placed_foldl_perform _ _).2]

/-- Stores below their last level that do not move are held as they are, and none of them goes to memory. -/
theorem still_held {ts : List NetStore} (h : ∀ g ∈ ts, g.lvl < g.top) :
    held (ts.map fun g => (g, g.lvl)) = ts ∧ (ts.map fun g => (g, g.lvl)).filter (fun q => q.1.top ≤ q.2) = [] := by
  constructor
  · have hf : (ts.map fun g => (g, g.lvl)).filter (fun q => q.2 < q.1.top) = ts.map fun g => (g, g.lvl) :=
      List.filter_eq_self.2 fun q hq => by
        obtain ⟨g, hg, rfl⟩ := List.mem_map.1 hq
        exact decide_eq_true (h g hg)
    unfold held
    rw [hf, List.map_map]
    exact List.map_id'' (fun _ => rfl) ts
  · refine List.filter_eq_nil_iff.2 fun q hq => ?_
    obtain ⟨g, hg, rfl⟩ := List.mem_map.1 hq
    simpa using h g hg

theorem held_append (l m : List (NetStore × Nat)) : held (l ++ m) = held l ++ held m := by simp [held]
theorem held_cons (q : NetStore × Nat) (l : List (NetStore × Nat)) :
    held (q :: l) = if q.2 < q.1.top then { q.1 with lvl := q.2 } :: held l else held l := by
  unfold held
  rw [List.filter_cons]
  split <;> split <;> simp_all

/-- A store that may move alone is seen further out, or goes to memory; the others are held as they were. -/
theorem bring_one {a b : List NetStore} {h : NetStore} {l : Nat} (hs : s.stores = a ++ h :: b)
    (hm : s.mayPerform a.length l = true) (ht : ∀ g ∈ s.stores, g.lvl < g.top) :
    s.bring (fun _ j => if j = a.length then l else 0) =
      if h.cap l < h.top then { s with stores := seenFirst (a ++ { h with lvl := h.cap l } :: b) }
      else State.perform { s with stores := seenFirst (a ++ b) } h := by
  obtain ⟨ha, fa⟩ := still_held (ts := a) fun g hg => ht g (by simp [hs, hg])
  obtain ⟨hb, fb⟩ := still_held (ts := b) fun g hg => ht g (by simp [hs, hg])
  rw [bring_eq (by simp [hs]) (levels_of_mayPerform hs hm), held_append, held_cons, ha, hb, List.filter_append, List.filter_cons, fa, fb]
  by_cases hc : h.cap l < h.top
  · rw [if_pos hc, if_pos hc, if_neg (by simpa using hc)]
    rfl
  · rw [if_neg hc, if_neg hc, if_pos (by simpa using hc)]
    rfl

/-- A store that is the last and has to reach memory is put in place after those that must go before it. -/
theorem levels_last {ts : List NetStore} {h : NetStore} (hs : s.stores = ts ++ [h]) :
    ∃ A, A.map Prod.fst = ts ∧ levels (fun _ i => if ts.length ≤ i then 3 else 0) s.stores = A ++ [(h, h.cap 3)] := by
  obtain ⟨A, hA, hd⟩ := decided_append (ts.map (·, 0)) (h, 3) []
  refine ⟨A, hA.trans (fst_unasked ts), ?_⟩
  have ha : asks (fun _ i => if ts.length ≤ i then 3 else 0) (ts ++ [h]) = ts.map (·, 0) ++ [(h, 3)] :=
    asks_one fun g j hj => by
      simp only [List.length_nil] at hj
      split <;> split <;> omega
  rw [levels_eq, hs, ha, hd]
  rfl

/-- The stores that are held still are earlier ones. -/
theorem bring_last_stores {ts : List NetStore} {h : NetStore} (hs : s.stores = ts ++ [h]) :
    ∀ g ∈ (s.bring fun _ i => if ts.length ≤ i then 3 else 0).stores, ∃ g0 ∈ ts, g = { g0 with lvl := g.lvl } := by
  intro g hg
  obtain ⟨A, hA, hl⟩ := levels_last hs
  rw [stores_bring (by simp [hs]), hl] at hg
  obtain ⟨q, hq, rfl⟩ := List.mem_map.1 ((seenFirst_perm _).mem_iff.1 hg)
  obtain ⟨hq, ht⟩ := List.mem_filter.1 hq
  rcases List.mem_append.1 hq with hq | hq
  · exact ⟨q.1, hA ▸ List.mem_map_of_mem hq, rfl⟩
  · obtain rfl := List.mem_singleton.1 hq
    exact absurd (top_le_cap (Nat.le_refl 3)) (Nat.not_le.2 (of_decide_eq_true ht))

theorem bring_last_performs {ts : List NetStore} {h : NetStore} (hs : s.stores = ts ++ [h]) :
    ∃ v, Placed s v ∧ (s.bring fun _ i => if ts.length ≤ i then 3 else 0) = v.perform h := by
  obtain ⟨A, -, hl⟩ := levels_last hs
  rw [bring_eq (by simp [hs]) hl, List.filter_append, List.filter_cons, if_pos (decide_eq_true (top_le_cap (Nat.le_refl 3))),
    List.filter_nil, List.foldl_append]
  exact ⟨_, .trans ⟨_, _, _, _, _, _, rfl⟩ (placed_foldl_perform _ _).1, rfl⟩

/-! What must go first (R207 to R212, R224). -/

theorem one_le_cap {t : NetStore} (ht : t.lvl = 0) {k : Nat} (hk : 1 ≤ k) : 1 ≤ t.cap k := by
  have h1 : 1 ≤ t.top := by
    unfold NetStore.top
    split <;> omega
  unfold NetStore.cap
  rw [if_neg (by omega)]
  split
  · omega
  · exact Nat.le_min.2 ⟨hk, h1⟩

theorem one_le_scope {sc : Scope} (h : sc ≠ .core) : 1 ≤ sc.lvl := by
  cases sc with
  | core => exact absurd rfl h
  | cl | die | mod | sys => decide

/-- What an earlier store of the same core must have reached: the same granule, both SO, or an SO or RC store before a release. -/
theorem one_le_least {g h : NetStore} (hc : g.core = h.core)
    (hb : g.near h.hpa h.data.length = true ∨ g.kind = 0 ∧ h.kind = 0 ∨ g.kind ≠ 2 ∧ ∃ r : Scope, h.rel = some r ∧ r ≠ .core)
    {k : Nat} (hk : 1 ≤ k) : 1 ≤ g.least h k := by
  unfold NetStore.least
  by_cases ho : g.near h.hpa h.data.length = true ∨ g.kind = 0 ∧ h.kind = 0
  · simp only [if_pos (And.intro hc ho)]
    exact Nat.le_trans hk (Nat.le_max_left _ _)
  · obtain ⟨hg, r, hr, hn⟩ := (or_assoc.2 hb).resolve_left ho
    have hrel : g.kind ≠ 2 ∧ (g.core = h.core ∨ g.seen.contains h.core = true) := ⟨hg, .inl hc⟩
    simp only [hr, if_pos hrel]
    exact Nat.le_trans (Nat.le_min.2 ⟨hk, one_le_scope hn⟩) (Nat.le_trans (Nat.le_max_right _ _) (Nat.le_max_right _ _))

/-- A store does not move while an earlier one, which it needs, stays. -/
theorem mayPerform_false {i j l : Nat} {h g : NetStore} (hi : s.stores[i]? = some h) (hj : j < i) (hg : s.stores[j]? = some g)
    (hh : h.lvl = 0) (h0 : g.lvl = 0) (hl : 1 ≤ l) (hn : ∀ k, 1 ≤ k → 1 ≤ g.least h k) : s.mayPerform i l = false := by
  obtain ⟨a, b, rfl, hs⟩ := stores_split hi
  rw [hs, List.getElem?_append_left hj] at hg
  obtain ⟨a1, a2, rfl, rfl⟩ := stores_split hg
  refine Bool.eq_false_iff.2 fun hm => ?_
  have still := (mayPerform_iff s _ l).1 hm
  rw [levels_eq, hs, asks_one fun _ _ _ => rfl, List.map_append, List.map_cons, List.append_assoc, List.cons_append] at still
  obtain ⟨A1, hA1, hd1⟩ := decided_append (a1.map (·, 0)) (g, 0) (a2.map (·, 0) ++ (h, l) :: b.map (·, 0))
  obtain ⟨A2, -, hd2⟩ := decided_append (a2.map (·, 0)) (h, l) (b.map (·, 0))
  have hlen : A1.length = a1.length := by rw [← fst_unasked a1, ← hA1, List.length_map]
  have hmoves : 1 ≤ h.cap (reach (h, l) (decided (b.map (·, 0)))) := one_le_cap hh (Nat.le_trans hl (reach_ge (h, l) _))
  have hreach : 1 ≤ reach (g, 0) (decided (a2.map (·, 0) ++ (h, l) :: b.map (·, 0))) := by
    refine Nat.le_trans (hn _ hmoves) (least_le_reach (q := (g, 0)) (r := (h, _)) ?_ (Nat.lt_of_lt_of_le (hh ▸ Nat.one_pos) hmoves))
    rw [hd2]
    exact List.mem_append_right _ List.mem_cons_self
  have hstill := still a1.length _ (by rw [hd1, ← hlen, List.getElem?_append_right (Nat.le_refl _), Nat.sub_self]; rfl) (by omega)
  have hcap := one_le_cap h0 hreach
  simp only [h0] at hstill
  omega

/-- No order holds between two stores to different granules that are not both SO, unless the later is a release and the earlier
no UO store. -/
theorem mayPerform_second {g h : NetStore} (hs : s.stores = [g, h]) (hk : ¬ (g.kind = 0 ∧ h.kind = 0)) (hr : h.rel = none ∨ g.kind = 2)
    (hn : g.near h.hpa h.data.length = false) (l : Nat) : s.mayPerform 1 l = true := by
  have least (k : Nat) : g.least h k = 0 := by
    unfold NetStore.least
    rcases hr with hr | hr
    · simp [hn, hk, hr]
    · cases hrel : h.rel with
      | none => simp [hn, hk]
      | some r => simp [hn, hr]
  have rests (r : NetStore × Nat) (h1 : r.1 = h) : reach (g, 0) [r] = 0 := by
    simp only [reach, List.foldl_cons, List.foldl_nil, h1, least]
    split <;> rfl
  have stays : g.cap 0 = g.lvl := if_pos (Nat.zero_le _)
  refine (mayPerform_iff s 1 l).2 fun j q hq hj => ?_
  have hl : levels (fun _ j => if j = 1 then l else 0) s.stores = [(g, g.cap (reach (g, 0) [(h, h.cap l)])), (h, h.cap l)] := by
    rw [hs]
    rfl
  rw [hl, rests _ rfl] at hq
  match j, hj with
  | 0, _ =>
    obtain rfl := Option.some.inj hq
    exact stays
  | j + 2, _ => cases hq

/-! The bytes of memory (R228, R341). -/

section
variable {t : State}

theorem placed_part (h : Placed s t) (n : Nat) : t.part n = s.part n := by
  obtain ⟨_, _, _, _, _, _, rfl⟩ := h
  rfl

theorem placed_deadMem (h : Placed s t) (a : Nat) : t.deadMem a = s.deadMem a := by
  obtain ⟨_, _, _, _, _, _, rfl⟩ := h
  rfl

theorem placed_core (h : Placed s t) : t.core = s.core := by
  obtain ⟨_, _, _, _, _, _, rfl⟩ := h
  rfl

end

theorem physPut_nat {a n v : Nat} (hd : s.deadMem a = false) (hn : 1 ≤ n) (hv : v < 256 ^ n) : (s.physPut a n v).physNat a n = v := by
  have hb : leBytes n v ≠ [] := List.ne_nil_of_length_pos (by rw [leBytes_length]; exact hn)
  have hm : (s.physPut a n v).mem = s.mem.write a (leBytes n v) := by
    rw [State.physPut, State.physWrite, if_neg (by simp [hb, hd])]
  have hr := Memory.read_write s.mem a (leBytes n v)
  rw [leBytes_length] at hr
  rw [State.physNat, hm, Memory.readNat, hr, leNat_leBytes, Nat.mod_eq_of_lt hv]

theorem physNat_lt (s : State) (a n : Nat) : s.physNat a n < 256 ^ n := by
  have h := leNat_lt (s.mem.read a n)
  rwa [Memory.read_length] at h

/-- R341: the step at the log word sets the granule's bit. -/
theorem logDirty_word {part g a : Nat} (ha : a = (s.part part).dlog + 8 * (g / 64)) (hl : (s.part part).dlog ≠ 0)
    (hd : s.deadMem a = false) : (s.logDirty part g).physNat a 8 = s.physNat a 8 ||| 2 ^ (g % 64) := by
  subst ha
  unfold State.logDirty
  simp only [if_neg hl]
  refine physPut_nat hd (by omega) ?_
  have hw : s.physNat ((s.part part).dlog + 8 * (g / 64)) 8 < 2 ^ 64 := physNat_lt s _ 8
  exact Nat.or_lt_two_pow hw (Nat.pow_lt_pow_right (by omega) (Nat.mod_lt g (by omega)))

theorem logDirty_unlogged {part : Nat} (hl : (s.part part).dlog = 0) (g : Nat) : s.logDirty part g = s := by
  unfold State.logDirty
  simp only [if_pos hl]

theorem logDirty_keeps (s : State) (part g : Nat) : (s.logDirty part g).dirties = s.dirties ∧ (s.logDirty part g).core = s.core := by
  unfold State.logDirty State.physPut State.physWrite
  simp only []
  split
  · exact ⟨rfl, rfl⟩
  · split <;> exact ⟨rfl, rfl⟩

/-- What follows a performed write changes the doubleword of the dirty log alone (R341). -/
theorem dirty_apart (s : State) (part gpa b : Nat) (h : (s.part part).dlog = 0 ∨ (s.part part).dspan ≤ gpa ∨
      b < (s.part part).dlog + 8 * (gpa / 32768 / 64) ∨ (s.part part).dlog + 8 * (gpa / 32768 / 64) + 8 ≤ b) :
    (s.dirty part gpa).mem.byte b = s.mem.byte b := by
  unfold State.dirty
  simp only []
  split
  · rfl
  · next hl =>
    rw [not_or] at hl
    split
    · unfold State.logDirty
      simp only [if_neg hl.1]
      refine physWrite_apart _ _ _ _ ?_
      rw [leBytes_length]
      exact (h.resolve_left hl.1).resolve_left hl.2
    · rfl

theorem dirty_unlogged {part : Nat} (hl : (s.part part).dlog = 0) (gpa : Nat) : s.dirty part gpa = s := by
  unfold State.dirty
  simp only [if_pos (Or.inl hl)]

/-- A store of whole bytes that is put in place where no dirty log is kept changes its bytes and no other. -/
theorem perform_byte {h : NetStore} (ha : h.hpa + h.data.length ≤ 2 ^ 57) (hm : h.mask = []) (hd : s.deadMem h.hpa = false)
    (hl : (s.part h.part).dlog = 0) (b : Nat) : (s.perform h).mem.byte b =
      if h.hpa ≤ b ∧ b < h.hpa + h.data.length then h.data.getD (b - h.hpa) 0 else s.mem.byte b := by
  have hp : ((s.physWrite h.hpa h.data).part h.part).dlog = 0 := by rw [placed_part (placed_physWrite s _ _).1, hl]
  have below : ¬ heldBase ≤ h.hpa := by
    unfold heldBase
    omega
  rw [State.perform, if_neg below, if_pos hm, dirty_unlogged hp, physWrite_byte s _ _ _ hd]

/-! A store to the global space (R228). -/

/-- The store that the network takes of bytes at one piece. -/
def globalStore (u : State) (p : Piece) (bs : List Byte) : NetStore :=
  { core := u.core.id, hpa := p.hpa, gpa := p.gpa, part := u.myPart, data := bs, kind := p.kind, rel := none }

section
variable {u : State} {p : Piece} {bs : List Byte}

theorem storesAt_piece (hp : p.len = bs.length) : u.storesAt (.mem [p]) bs none = [globalStore u p bs] := by
  simp [State.storesAt, netStores, globalStore, hp]

theorem writePlace_busy (hp : p.len = bs.length) (ha : u.agenda ≠ []) :
    u.writePlace (.mem [p]) bs none = { u with stores := u.stores ++ [globalStore u p bs] } := by
  rw [State.writePlace, if_neg fun h => ha h.1, storesAt_piece hp, State.hand]
  simp only [if_neg ha]

theorem writePlace_alone (hp : p.len = bs.length) (ha : u.agenda = []) (hs : u.stores = []) :
    u.writePlace (.mem [p]) bs none = (u.physWrite p.hpa bs).dirty u.myPart p.gpa := by
  rw [State.writePlace, if_pos ⟨ha, hs⟩, State.writePieces, hp, List.take_length]
  rfl

theorem writePlace_behind (hp : p.len = bs.length) (ha : u.agenda = []) (hs : u.stores ≠ []) : u.writePlace (.mem [p]) bs none =
    State.bring { u with stores := u.stores ++ [globalStore u p bs] } fun _ i => if u.stores.length ≤ i then 3 else 0 := by
  rw [State.writePlace, if_neg fun h => hs h.2, storesAt_piece hp, State.hand]
  simp only [if_pos ha]

theorem writeSpace_of_place {sp : Space} {q : Place} {rel : Option Scope} (h : s.place sp bs.length .write = .ok u q) :
    s.writeSpace sp bs rel = .ok (u.writePlace q bs rel) () := by
  rw [State.writeSpace, h]
  rfl

/-- R228: what a store to one piece of the global space does: the network holds it, or its bytes stand in memory, after those that
must go before them. -/
theorem globalStore_done (hp : p.len = bs.length) {o : Out} (ho : o = .next (u.writePlace (.mem [p]) bs none).retire) :
    let log := u.part u.myPart
    let w := log.dlog + 8 * (p.gpa / 32768 / 64)
    (u.agenda ≠ [] → o = .next { u with stores := u.stores ++ [globalStore u p bs] }.retire) ∧
    (u.agenda = [] → u.stores = [] → u.deadMem p.hpa = false → ∃ t, o = .next t ∧ t.stores = [] ∧ ∀ b,
      log.dlog = 0 ∨ log.dspan ≤ p.gpa ∨ b < w ∨ w + 8 ≤ b →
        t.mem.byte b = if p.hpa ≤ b ∧ b < p.hpa + bs.length then bs.getD (b - p.hpa) 0 else u.mem.byte b) ∧
    (u.agenda = [] → u.stores ≠ [] → p.hpa + bs.length ≤ 2 ^ 57 → ∃ t, o = .next t ∧
      (∀ g ∈ t.stores, ∃ g0 ∈ u.stores, g = { g0 with lvl := g.lvl }) ∧
      (u.deadMem p.hpa = false → (∀ g ∈ globalStore u p bs :: u.stores, (u.part g.part).dlog = 0) →
        ∀ i < bs.length, t.mem.byte (p.hpa + i) = bs.getD i 0)) := by
  subst ho
  intro log w
  refine ⟨fun ha => by rw [writePlace_busy hp ha], fun ha hs hd => ⟨_, rfl, ?_, fun b hb => ?_⟩,
    fun ha hs h57 => ⟨_, rfl, fun g hg => ?_, fun hd hl i hi => ?_⟩⟩
  · rw [writePlace_alone hp ha hs, State.retire_stores, (placed_dirty _ _ _).2, (placed_physWrite _ _ _).2, hs]
  · have hpart := placed_part (placed_physWrite u p.hpa bs).1 u.myPart
    rw [writePlace_alone hp ha hs, State.retire_mem, dirty_apart _ _ _ _ (hpart ▸ hb), physWrite_byte u _ _ _ hd]
  · rw [writePlace_behind hp ha hs, State.retire_stores] at hg
    exact bring_last_stores rfl g hg
  · obtain ⟨v, hv, hb⟩ := bring_last_performs (s := { u with stores := u.stores ++ [globalStore u p bs] }) (h := globalStore u p bs) rfl
    have hpart : (v.part u.myPart).dlog = 0 := (congrArg Partition.dlog (placed_part hv u.myPart)).trans (hl _ List.mem_cons_self)
    rw [writePlace_behind hp ha hs, State.retire_mem, hb,
      perform_byte (h := globalStore u p bs) h57 rfl ((placed_deadMem hv p.hpa).trans hd) hpart]
    simp [globalStore, hi]

end

/-! The steps of the network and of the log (R228, R341). -/

theorem exec_perform_held {i : Nat} (hi : i < s.stores.length) (sc : Scope) : exec (.memoryStorePerform ⟨i, sc⟩) s =
    .next (if s.mayPerform i sc.lvl then s.bring fun _ j => if j = i then sc.lvl else 0 else s) := by
  rw [exec_memoryStorePerform, execMemoryStorePerform]
  simp only [if_pos hi]

theorem exec_perform_dirty {i part g : Nat} (hi : s.dirties[i]? = some (part, g)) (sc : Scope) :
    exec (.memoryStorePerform ⟨s.stores.length + i, sc⟩) s =
      .next (State.logDirty { s with dirties := s.dirties.eraseIdx i } part g) := by
  rw [exec_memoryStorePerform, execMemoryStorePerform]
  simp only [if_neg (Nat.not_lt.2 (Nat.le_add_right _ i)), Nat.add_sub_cancel_left, hi]

/-- R228: a held store that may move alone is seen further out, or its bytes and no other stand in memory. -/
theorem performed {i : Nat} {sc : Scope} {h : NetStore} (hi : s.stores[i]? = some h) (hm : s.mayPerform i sc.lvl = true)
    (ht : ∀ g ∈ s.stores, g.lvl < g.top) : ∃ t, exec (.memoryStorePerform ⟨i, sc⟩) s = .next t ∧ t.core = s.core ∧
      (h.cap sc.lvl < h.top → t.mem = s.mem ∧ t.stores.Perm (s.stores.set i { h with lvl := h.cap sc.lvl })) ∧
      (h.top ≤ h.cap sc.lvl → t.stores.Perm (s.stores.eraseIdx i) ∧
        (h.hpa + h.data.length ≤ 2 ^ 57 → h.mask = [] → s.deadMem h.hpa = false → (s.part h.part).dlog = 0 → ∀ b,
          t.mem.byte b = if h.hpa ≤ b ∧ b < h.hpa + h.data.length then h.data.getD (b - h.hpa) 0 else s.mem.byte b)) := by
  refine ⟨_, by rw [exec_perform_held (List.getElem?_eq_some_iff.1 hi).1, if_pos hm], placed_core (placed_bring s _), fun hc => ?_, fun hc => ?_⟩
  · obtain ⟨a, b, rfl, hs⟩ := stores_split hi
    rw [bring_one hs hm ht, if_pos hc]
    refine ⟨rfl, (seenFirst_perm _).trans (.of_eq ?_)⟩
    simp [hs]
  · obtain ⟨a, b, rfl, hs⟩ := stores_split hi
    rw [bring_one hs hm ht, if_neg (Nat.not_lt.2 hc), (placed_perform _ _).2]
    refine ⟨(seenFirst_perm _).trans (.of_eq ?_), fun h57 hk hd hl => perform_byte h57 hk hd hl⟩
    simp [hs, List.eraseIdx_append_of_length_le]

/-- Settles O11: a store goes where `storesAt_store` says; its bytes stand in the share by `pendStore_slots` and in memory by
`globalStore_done`; held stores move as `performed`, `mayPerform_false` and `mayPerform_second` say, and the log follows by `logDirty_word`. -/
theorem storesAndTheirFrames : Obligations.StoresAndTheirFrames := by
  refine ⟨fun s sz d m imm rel => fun hf => ⟨?_, ?_⟩, fun c n off bs hn hp hb => ?_, fun s u sz d m p => ?_, fun s i sc => ?_,
    fun s i part g sc hi => ?_⟩
  · exact storesAt_store (one_le_bytes sz) (exec_st_free hf)
  · exact storesAt_store (one_le_bytes sz) (exec_stExtended_free hf imm rel)
  · obtain ⟨h1, h2⟩ := pendStore_slots hn hp hb off
    exact ⟨h1, fun a => by rw [h2, Memory.byte_write]⟩
  · intro c n a bs log w h hf hx ha ht h57 hpl hlen
    have hbs : bs.length = n := leBytes_length _ _
    obtain ⟨-, -, beyond⟩ := storesAt_store (one_le_bytes sz) (exec_st_free hf)
    obtain ⟨-, goes⟩ := beyond _ ha (resolve_glob (one_le_bytes sz) ht h57) rfl
    have hw : s.place (.glob (offset a)) bs.length .write = .ok u (.mem [p]) := hbs ▸ hpl
    have hdone := globalStore_done (p := p) (hlen.trans hbs.symm) (goes _ _ hx (writeSpace_of_place hw))
    rw [hbs] at hdone
    exact hdone
  · refine ⟨fun h hi hm ht => performed hi hm ht, fun hi hm => by rw [exec_perform_held hi, hm]; rfl,
      fun h j g hi hj hg hh h0 hsc ⟨hcore, hcase⟩ => ?_, fun g h hs hk hr hn => mayPerform_second hs hk hr hn _⟩
    have hb : g.near h.hpa h.data.length = true ∨ g.kind = 0 ∧ h.kind = 0 ∨ g.kind ≠ 2 ∧ ∃ r : Scope, h.rel = some r ∧ r ≠ .core := by
      simpa [NetStore.near, sameGranule] using hcase
    exact mayPerform_false hi hj hg hh h0 (one_le_scope hsc) fun k => one_le_least hcore hb
  · intro a
    obtain ⟨hd, hc⟩ := logDirty_keeps { s with dirties := s.dirties.eraseIdx i } part g
    refine ⟨_, exec_perform_dirty hi sc, hd, hc, fun hl hdead => ?_, fun hl => ?_⟩
    · exact logDirty_word (s := { s with dirties := s.dirties.eraseIdx i }) rfl hl hdead
    · rw [logDirty_unlogged (s := { s with dirties := s.dirties.eraseIdx i }) hl]

end Sys2Proof.Proofs.HeldStores
end

section
namespace Sys2Proof.Proofs.Numbers
open Sys2Proof Sys2Proof.Machine

variable {t : Ty} {a b n : Nat} {v : Int}

/-! Integers of a type (R94). -/

theorem tyBits_pos (t : Ty) : 0 < tyBits t := by cases t <;> decide

/-- The modulus of a type is twice the weight of its sign bit. -/
theorem two_pow_tyBits (t : Ty) : 2 ^ tyBits t = 2 * 2 ^ (tyBits t - 1) := by
  rw [← Nat.pow_succ', Nat.succ_eq_add_one, Nat.sub_add_cancel (tyBits_pos t)]

theorem two_pow_tyBits_int (t : Ty) : (2 : Int) ^ tyBits t = 2 * 2 ^ (tyBits t - 1) := by exact_mod_cast two_pow_tyBits t

theorem two_pow_int_pos (w : Nat) : (0 : Int) < 2 ^ w := Int.pow_pos (by decide)

theorem intVal_of_lt (hn : n < 2 ^ tyBits t) :
    intVal t n = if t.isSigned = true ∧ 2 ^ (tyBits t - 1) ≤ n then (n : Int) - 2 ^ tyBits t else n := by
  have hsign : 2 * n ≥ 2 ^ tyBits t ↔ 2 ^ (tyBits t - 1) ≤ n := by rw [two_pow_tyBits]; omega
  simp only [intVal, Nat.mod_eq_of_lt hn, hsign, Bool.and_eq_true, decide_eq_true_eq]

/-- A type holds as many values as its modulus says. -/
theorem intMax_eq (t : Ty) : intMax t = intMin t + 2 ^ tyBits t - 1 := by
  have hw := two_pow_tyBits_int t
  unfold intMin intMax
  split <;> omega

theorem intMin_le_intMax (t : Ty) : intMin t ≤ intMax t := by
  have hpos := two_pow_int_pos (tyBits t)
  rw [intMax_eq]
  omega

/-- An element's value lies in its type's range. -/
theorem intVal_range (hn : n < 2 ^ tyBits t) : intMin t ≤ intVal t n ∧ intVal t n ≤ intMax t := by
  have hw := two_pow_tyBits_int t
  have hlt : (n : Int) < 2 ^ tyBits t := by exact_mod_cast hn
  have hsign : 2 ^ (tyBits t - 1) ≤ n ↔ (2 : Int) ^ (tyBits t - 1) ≤ n := by norm_cast
  rw [intVal_of_lt hn, intMax_eq, intMin]
  cases t.isSigned with
  | false => simp only [Bool.false_eq_true, false_and, if_false]; omega
  | true => simp only [hsign, true_and, if_true]; split <;> omega

/-- An element's value and the number of its bits differ by a multiple of the modulus. -/
theorem intVal_emod (hn : n < 2 ^ tyBits t) : intVal t n % 2 ^ tyBits t = n % 2 ^ tyBits t := by
  rw [intVal_of_lt hn]
  split
  · exact Int.sub_emod_right _ _
  · rfl

theorem intBits_cast (t : Ty) (v : Int) : (intBits t v : Int) = v % 2 ^ tyBits t :=
  Int.toNat_of_nonneg (Int.emod_nonneg v (Int.ne_of_gt (two_pow_int_pos _)))

theorem intBits_lt (t : Ty) (v : Int) : intBits t v < 2 ^ tyBits t := by
  have hlt : (intBits t v : Int) < 2 ^ tyBits t := by
    rw [intBits_cast]
    exact Int.emod_lt_of_pos v (two_pow_int_pos _)
  exact_mod_cast hlt

/-- The bits of an integer are those of every natural number congruent to it. -/
theorem intBits_eq_mod (h : v % 2 ^ tyBits t = n % 2 ^ tyBits t) : intBits t v = n % 2 ^ tyBits t := by
  have hcast : (intBits t v : Int) = n % 2 ^ tyBits t := (intBits_cast t v).trans h
  exact_mod_cast hcast

theorem intBits_intVal (hn : n < 2 ^ tyBits t) : intBits t (intVal t n) = n :=
  (intBits_eq_mod (intVal_emod hn)).trans (Nat.mod_eq_of_lt hn)

theorem intVal_inj (ha : a < 2 ^ tyBits t) (hb : b < 2 ^ tyBits t) : intVal t a = intVal t b ↔ a = b :=
  ⟨fun h => by rw [← intBits_intVal ha, h, intBits_intVal hb], congrArg _⟩

/-- Integers of a type's range that are congruent are equal. -/
theorem eq_of_emod_eq {u : Int} (hu : intMin t ≤ u ∧ u ≤ intMax t) (hv : intMin t ≤ v ∧ v ≤ intMax t)
    (h : u % 2 ^ tyBits t = v % 2 ^ tyBits t) : u = v := by
  have hmax := intMax_eq t
  have hoff := (Int.emod_sub_cancel_right (intMin t)).2 h
  rw [Int.emod_eq_of_lt (by omega) (by omega), Int.emod_eq_of_lt (by omega) (by omega)] at hoff
  omega

/-- Within a type's range, the bits of an integer have it as their value. -/
theorem intVal_intBits (hv : intMin t ≤ v ∧ v ≤ intMax t) : intVal t (intBits t v) = v := by
  refine eq_of_emod_eq (intVal_range (intBits_lt t v)) hv ?_
  rw [intVal_emod (intBits_lt t v), intBits_cast, Int.emod_emod]

/-! Saturation (R94). -/

theorem intClamp_fst (t : Ty) (v : Int) : (intClamp t v).1 = max (intMin t) (min (intMax t) v) := by
  have hrange := intMin_le_intMax t
  unfold intClamp
  split
  · dsimp only; omega
  · split <;> dsimp only <;> omega

theorem intClamp_snd (t : Ty) (v : Int) : (intClamp t v).2 = true ↔ ¬ (intMin t ≤ v ∧ v ≤ intMax t) := by
  unfold intClamp
  split
  · simp only [true_iff]; omega
  · split
    · simp only [true_iff]; omega
    · simp only [Bool.false_eq_true, false_iff]; omega

theorem intSat_bits (t : Ty) (v : Int) : (intSat t v).bits = intBits t (max (intMin t) (min (intMax t) v)) :=
  congrArg (intBits t) (intClamp_fst t v)

theorem intSat_flags (t : Ty) (v : Int) : (intSat t v).flags = if intMin t ≤ v ∧ v ≤ intMax t then 0 else 32 := by
  change flagIf (intClamp t v).2 fSaturation = _
  simp only [flagIf, intClamp_snd, ite_not]
  rfl

/-- A saturated result is the bits of the clamped integer, which the type can hold. -/
theorem intSat_spec (t : Ty) (v : Int) :
    (intSat t v).bits < 2 ^ tyBits t ∧ intVal t (intSat t v).bits = max (intMin t) (min (intMax t) v) ∧
      (intSat t v).flags = if intMin t ≤ v ∧ v ≤ intMax t then 0 else 32 := by
  have hrange := intMin_le_intMax t
  rw [intSat_bits]
  exact ⟨intBits_lt t _, intVal_intBits (by omega), intSat_flags t v⟩

/-! The operations of an integer type (R133, R146, R147). -/

section
variable (ht : t.isInt = true) (h : How) (r k : Nat)
include ht

theorem addElt_plain_int (neg : Bool) : addElt neg false t h r k a b =
    { bits := intBits t (if neg then intVal t a - intVal t b else intVal t a + intVal t b) } :=
  if_pos ht

theorem addElt_sat_int (neg : Bool) : addElt neg true t h r k a b =
    intSat t (if neg then intVal t a - intVal t b else intVal t a + intVal t b) :=
  if_pos ht

theorem mulElt_plain_int : mulElt .plain t h r k a b = { bits := intBits t (intVal t a * intVal t b) } := if_pos ht

theorem mulElt_hi_int : mulElt .hi t h r k a b = { bits := intBits t (intVal t a * intVal t b / 2 ^ tyBits t) } := if_pos ht

theorem mulElt_sat_int : mulElt .sat t h r k a b = intSat t (intVal t a * intVal t b) := if_pos ht

theorem mmBits_int (max : Bool) : mmBits t max a b = if decide (intVal t a < intVal t b) != max then a else b := if_pos ht

theorem minmaxElt_min_int : minmaxElt .min t a b = { bits := if intVal t a < intVal t b then a else b } := by
  simp only [minmaxElt, mmBits_int ht, Bool.bne_false, decide_eq_true_eq]

theorem minmaxElt_max_int : minmaxElt .max t a b = { bits := if intVal t a < intVal t b then b else a } := by
  simp only [minmaxElt, mmBits_int ht, Bool.bne_true, Bool.not_eq_true', decide_eq_false_iff_not, ite_not]

theorem cmpElt_int :
    cmpElt .lt t a b = { bits := if intVal t a < intVal t b then 2 ^ tyBits t - 1 else 0 } ∧
    cmpElt .le t a b = { bits := if intVal t a ≤ intVal t b then 2 ^ tyBits t - 1 else 0 } ∧
    cmpElt .eq t a b = { bits := if intVal t a = intVal t b then 2 ^ tyBits t - 1 else 0 } ∧
    cmpElt .ne t a b = { bits := if intVal t a = intVal t b then 0 else 2 ^ tyBits t - 1 } := by
  simp only [cmpElt, ht, if_true, decide_eq_true_eq, ne_eq, ite_not, and_self]

end

theorem intBits_add (ha : a < 2 ^ tyBits t) (hb : b < 2 ^ tyBits t) :
    intBits t (intVal t a + intVal t b) = (a + b) % 2 ^ tyBits t :=
  intBits_eq_mod (by rw [Int.add_emod, intVal_emod ha, intVal_emod hb, ← Int.add_emod, Int.natCast_add])

theorem intBits_sub (ha : a < 2 ^ tyBits t) (hb : b < 2 ^ tyBits t) :
    intBits t (intVal t a - intVal t b) = (a + 2 ^ tyBits t - b) % 2 ^ tyBits t := by
  have hcast : ((a + 2 ^ tyBits t - b : Nat) : Int) = a - b + 2 ^ tyBits t := by
    have hpow : ((2 ^ tyBits t : Nat) : Int) = 2 ^ tyBits t := Int.natCast_pow 2 _
    omega
  refine intBits_eq_mod ?_
  rw [hcast, Int.add_emod_right, Int.sub_emod, intVal_emod ha, intVal_emod hb, ← Int.sub_emod]

theorem intBits_mul (ha : a < 2 ^ tyBits t) (hb : b < 2 ^ tyBits t) :
    intBits t (intVal t a * intVal t b) = a * b % 2 ^ tyBits t :=
  intBits_eq_mod (by rw [Int.mul_emod, intVal_emod ha, intVal_emod hb, ← Int.mul_emod, Int.natCast_mul])

/-! Shifts and logic, bit by bit (R147, R148). -/

/-- The arithmetic shift of an element is that of a bit vector of its width. -/
theorem shfElt_sar_bits (ha : a < 2 ^ tyBits t) (k : Nat) :
    (shfElt .sar t a k).bits = ((BitVec.ofNat (tyBits t) a).sshiftRight k).toNat := by
  have hval : (BitVec.ofNat (tyBits t) a).toInt = if 2 * a ≥ 2 ^ tyBits t then (a : Int) - 2 ^ tyBits t else a := by
    rw [BitVec.toInt, BitVec.toNat_ofNat, Nat.mod_eq_of_lt ha, Int.natCast_pow]
    simp only [ge_iff_le, ← Nat.not_lt, ite_not]
    rfl
  rw [BitVec.sshiftRight, BitVec.toNat_ofInt, hval, Int.shiftRight_eq_div_pow, Int.natCast_pow, Int.natCast_pow]
  rfl

theorem shfElt_sar_testBit (ha : a < 2 ^ tyBits t) (k : Nat) {i : Nat} (hi : i < tyBits t) :
    (shfElt .sar t a k).bits.testBit i = if i + k < tyBits t then a.testBit (i + k) else a.testBit (tyBits t - 1) := by
  have hbit (j : Nat) : (BitVec.ofNat (tyBits t) a).getLsbD j = a.testBit j := by
    rw [← BitVec.testBit_toNat, BitVec.toNat_ofNat, Nat.mod_eq_of_lt ha]
  rw [shfElt_sar_bits ha, BitVec.testBit_toNat, BitVec.getLsbD_sshiftRight, BitVec.msb_eq_getLsbD_last, hbit, hbit,
    Nat.add_comm k i, decide_eq_false (Nat.not_le.2 hi), Bool.not_false, Bool.true_and]

theorem ones_sub_testBit (hn : n < 2 ^ tyBits t) {i : Nat} (hi : i < tyBits t) :
    (2 ^ tyBits t - 1 - n).testBit i = !n.testBit i := by
  rw [Nat.sub_sub, Nat.add_comm, Nat.testBit_two_pow_sub_succ hn, decide_eq_true hi, Bool.true_and]

theorem logElt_testBit (ha : a < 2 ^ tyBits t) (hb : b < 2 ^ tyBits t) {i : Nat} (hi : i < tyBits t) :
    (logElt .and t a b).bits.testBit i = (a.testBit i && b.testBit i) ∧
    (logElt .or t a b).bits.testBit i = (a.testBit i || b.testBit i) ∧
    (logElt .xor t a b).bits.testBit i = (a.testBit i != b.testBit i) ∧
    (logElt .andn t a b).bits.testBit i = (a.testBit i && !b.testBit i) ∧
    (logElt .not t a b).bits.testBit i = !a.testBit i :=
  ⟨Nat.testBit_and .., Nat.testBit_or .., Nat.testBit_xor .., (Nat.testBit_and ..).trans (by rw [ones_sub_testBit hb hi]),
    ones_sub_testBit ha hi⟩

/-! The integer operations of an element (R94, R146 to R149). -/

/-- Settles O32: sums, differences and products agree with the bits modulo the width by `intVal_emod`, saturated ones by
`intSat_spec`; the choices compare `intVal`, which tells the elements apart by `intVal_inj`; `shfElt_sar_testBit` and
`logElt_testBit` give the bits. -/
theorem integerElementOperations : Obligations.IntegerElementOperations := by
  intro t h r k a b ht ha hb w val lo hi sat plain
  have hval : ∀ n < 2 ^ w, val n = intVal t n := fun n hn => (intVal_of_lt hn).symm
  have hsat (v : Int) : sat (intSat t v) v := by
    obtain ⟨hlt, hclamp, hflags⟩ := intSat_spec t v
    exact ⟨hlt, (hval _ hlt).trans hclamp, hflags⟩
  have hplain {m n : Nat} (e : m = n) : plain { bits := m } n := ⟨e, rfl, rfl⟩
  obtain ⟨hlt, hle, heq, hne⟩ := cmpElt_int (a := a) (b := b) ht
  rw [hval a ha, hval b hb, addElt_plain_int ht, addElt_plain_int ht, addElt_sat_int ht, addElt_sat_int ht,
    mulElt_plain_int ht, mulElt_sat_int ht, mulElt_hi_int ht, minmaxElt_min_int ht, minmaxElt_max_int ht, hlt, hle, heq, hne]
  simp only [intVal_inj ha hb]
  exact ⟨hplain (intBits_add ha hb), hplain (intBits_sub ha hb), hsat _, hsat _, hplain (intBits_mul ha hb), hsat _,
    hplain rfl, hplain rfl, hplain rfl, hplain rfl, hplain rfl, hplain rfl, hplain rfl,
    fun _ => ⟨hplain rfl, hplain rfl, fun i hi => shfElt_sar_testBit ha k hi⟩, fun i hi => logElt_testBit ha hb hi⟩

/-! The scale byte of a record (R99). -/

/-- `pow2` gives `2^(s - k)` as a fraction of positive parts. -/
theorem pow2_sub (s k : Nat) : 0 < (pow2 ((s : Int) - k)).1 ∧ 0 < (pow2 ((s : Int) - k)).2 ∧
    (pow2 ((s : Int) - k)).1 * 2 ^ k = (pow2 ((s : Int) - k)).2 * 2 ^ s := by
  cases he : (s : Int) - k with
  | ofNat j =>
    have hs : s = j + k := by rw [Int.ofNat_eq_natCast] at he; omega
    exact ⟨Nat.two_pow_pos j, Nat.one_pos, by rw [pow2, hs, Nat.pow_add, Nat.one_mul]⟩
  | negSucc j =>
    have hk : k = j + 1 + s := by rw [Int.negSucc_eq] at he; omega
    exact ⟨Nat.one_pos, Nat.two_pow_pos (j + 1), by rw [pow2, hk, Nat.pow_add 2 (j + 1) s, Nat.one_mul]⟩

theorem recFactor_mx (ht : t ≠ .dx8) (rec : Nat) :
    recFactor t rec = if rec % 256 = 255 then none else some (pow2 ((rec % 256 : Nat) - 127)) := by
  rw [recFactor, if_neg ht]
  rfl

theorem recValue_of_recFactor_none {rec : Nat} (h : recFactor t rec = none) (i : Nat) : recValue t rec i = .nan := by
  rw [recValue, h]

/-- Settles O53: below 255 the factor is `pow2 (S - 127)`, which `pow2_sub` evaluates; at 255 there is none, and every element
is NaN by `recValue_of_recFactor_none`. -/
theorem scaleBytes : Obligations.ScaleBytes := by
  intro t rec ht
  have hdx : t ≠ .dx8 := by rintro rfl; revert ht; decide
  refine ⟨fun h255 => ?_, fun hlt => ?_⟩
  · have hnone : recFactor t rec = none := by rw [recFactor_mx hdx, if_pos h255]
    exact ⟨hnone, recValue_of_recFactor_none hnone⟩
  · obtain ⟨hn, hm, heq⟩ := pow2_sub (rec % 256) 127
    exact ⟨_, _, by rw [recFactor_mx hdx, if_neg (Nat.ne_of_lt hlt)]; rfl, hn, hm, heq⟩

end Sys2Proof.Proofs.Numbers
end

section
namespace Sys2Proof.Proofs.Scalars
open Sys2Proof Sys2Proof.Machine Sys2Proof.Safety

variable {s : State} {d a b : XReg} {v : Word} {n k w : Nat} {reg lit : Instr}

/-! An operation in its register form and its literal form (R121, R122). -/

/-- Both forms give what the operation gives for the second operand, with its flags. -/
theorem binX_litX_free {f : Word → Word → Word × Flags} {r : Word → Word × Flags} (hreg : exec reg s = binX n d a b f s)
    (hlit : exec lit s = litX n d a v f s) (h : ∀ y, f (s.core.rx a) y = r y) :
    (Free s { x := [a, b] } { x := [d] } → exec reg s = .next (xNext s n d (r (s.core.rx b)).1 (r (s.core.rx b)).2)) ∧
    (Free s { x := [a] } { x := [d] } → exec lit s = .next (xNext s n d (r v).1 (r v).2)) :=
  ⟨fun hf => by rw [hreg, binX_free hf, h], fun hf => by rw [hlit, litX_free hf, h]⟩

/-- The same for an operation that sets no flag. -/
theorem binX_litX_quietly {f : Word → Word → Word} {r : Word → Word} (hreg : exec reg s = binX n d a b (quietly f) s)
    (hlit : exec lit s = litX n d a v (quietly f) s) (h : ∀ y, f (s.core.rx a) y = r y) :
    (Free s { x := [a, b] } { x := [d] } → exec reg s = .next (xNext s n d (r (s.core.rx b)))) ∧
    (Free s { x := [a] } { x := [d] } → exec lit s = .next (xNext s n d (r v))) :=
  binX_litX_free (r := fun y => (r y, 0)) hreg hlit fun y => by rw [quietly, h]

/-- `MAD` reads `x[d]` besides its two operands (R122). -/
theorem execMad_free (neg : Bool) (h : Free s { x := [a, b, d] } { x := [d] }) :
    execMad neg d a b s = .next (xNext s 3 d (if neg then s.core.rx d - s.core.rx a * s.core.rx b
      else s.core.rx d + s.core.rx a * s.core.rx b)) := by
  rw [execMad, issue_free h]
  rfl

/-! Sums and products (R122, R123). -/

theorem clampI_eq {lo hi : Int} (h : lo ≤ hi) (r : Int) : clampI r lo hi = max lo (min r hi) := by
  unfold clampI
  split
  · omega
  · split <;> omega

theorem clampTo_eq {lo hi : Int} (h : lo ≤ hi) (r : Int) : clampTo lo hi r = clamped lo hi r := by
  simp only [clampTo, clamped, clampI_eq h, flagIf, decide_eq_true_eq, ne_eq, ite_not]
  rfl

theorem addOp_sat (x y : Word) : addOp .sat x y = clamped (-2 ^ 63) (2 ^ 63 - 1) (x.toInt + y.toInt) :=
  clampTo_eq (by decide) _

theorem addOp_usat (x y : Word) : addOp .usat x y = clamped 0 (2 ^ 64 - 1) (x.toNat + y.toNat) :=
  clampTo_eq (by decide) _

theorem subOp_sat (x y : Word) : subOp .sat x y = clamped (-2 ^ 63) (2 ^ 63 - 1) (x.toInt - y.toInt) :=
  clampTo_eq (by decide) _

theorem subOp_usat (x y : Word) : subOp .usat x y = clamped 0 (2 ^ 64 - 1) ((x.toNat : Int) - y.toNat) :=
  clampTo_eq (by decide) _

/-- The upper half of a product of 128 bits is its quotient by `2^64`, rounded down. -/
theorem extractLsb'_ofInt_high (p : Int) :
    (BitVec.ofInt 128 p).extractLsb' 64 64 = BitVec.ofInt 64 (p / 2 ^ 64) := by
  apply BitVec.eq_of_toNat_eq
  rw [BitVec.extractLsb'_toNat, BitVec.toNat_ofInt, BitVec.toNat_ofInt, Nat.shiftRight_eq_div_pow]
  omega

theorem setWidth_eq_ofInt (w : Word) : w.setWidth 128 = BitVec.ofInt 128 w.toNat := by
  rw [BitVec.ofInt_natCast, BitVec.ofNat_toNat]

theorem mulhiOp_s (x y : Word) :
    mulhiOp .s x y = (x.signExtend 128 * y.signExtend 128).extractLsb' 64 64 := by
  rw [BitVec.signExtend, BitVec.signExtend, ← BitVec.ofInt_mul, extractLsb'_ofInt_high, mulhiOp]

theorem mulhiOp_su (x y : Word) :
    mulhiOp .su x y = (x.signExtend 128 * y.setWidth 128).extractLsb' 64 64 := by
  rw [BitVec.signExtend, setWidth_eq_ofInt, ← BitVec.ofInt_mul, extractLsb'_ofInt_high, mulhiOp]

theorem mulhiOp_u (x y : Word) :
    mulhiOp .u x y = (x.setWidth 128 * y.setWidth 128).extractLsb' 64 64 := by
  rw [setWidth_eq_ofInt, setWidth_eq_ofInt, ← BitVec.ofInt_mul, extractLsb'_ofInt_high, mulhiOp, ← BitVec.ofInt_natCast]
  rfl

/-! Quotients and remainders (R124). -/

theorem ofInt_tdiv (x y : Word) : BitVec.ofInt 64 (x.toInt.tdiv y.toInt) = x.sdiv y :=
  BitVec.eq_of_toInt_eq (by rw [BitVec.toInt_ofInt, BitVec.toInt_sdiv])

theorem ofInt_tmod (x y : Word) : BitVec.ofInt 64 (x.toInt.tmod y.toInt) = x.srem y := by
  rw [← BitVec.toInt_srem, BitVec.ofInt_toInt]

theorem divOp_signed (x y : Word) : divOp false x y = if y = 0 then -1 else x.sdiv y := by
  rw [← ofInt_tdiv]
  rfl

theorem divOp_unsigned (x y : Word) : divOp true x y = if y = 0 then -1 else x / y := by
  rw [BitVec.udiv_def]
  rfl

theorem remOp_signed (x y : Word) : remOp false x y = if y = 0 then x else x.srem y := by
  rw [← ofInt_tmod]
  rfl

theorem remOp_unsigned (x y : Word) : remOp true x y = if y = 0 then x else x % y := by
  rw [BitVec.umod_def]
  rfl

/-- The one signed quotient that 64 bits do not hold wraps to the dividend, and its remainder is zero: the general case gives
both. -/
theorem divOp_signed_cases (x y : Word) : divOp false x y =
    if y = 0 then 0xFFFFFFFFFFFFFFFF else if x = 0x8000000000000000 ∧ y = 0xFFFFFFFFFFFFFFFF then 0x8000000000000000
    else BitVec.ofInt 64 (x.toInt.tdiv y.toInt) := by
  by_cases h : x = 0x8000000000000000 ∧ y = 0xFFFFFFFFFFFFFFFF
  · obtain ⟨rfl, rfl⟩ := h
    decide
  · rw [if_neg h]
    rfl

theorem remOp_signed_cases (x y : Word) : remOp false x y =
    if y = 0 then x else if x = 0x8000000000000000 ∧ y = 0xFFFFFFFFFFFFFFFF then 0
    else BitVec.ofInt 64 (x.toInt - x.toInt.tdiv y.toInt * y.toInt) := by
  have hmod : x.toInt - x.toInt.tdiv y.toInt * y.toInt = x.toInt.tmod y.toInt := by rw [Int.tmod_def, Int.mul_comm]
  by_cases h : x = 0x8000000000000000 ∧ y = 0xFFFFFFFFFFFFFFFF
  · obtain ⟨rfl, rfl⟩ := h
    decide
  · rw [if_neg h, hmod]
    rfl

theorem remOp_unsigned_cases (x y : Word) : remOp true x y =
    if y = 0 then x else BitVec.ofNat 64 (x.toNat - x.toNat / y.toNat * y.toNat) := by
  have hmod : x.toNat - x.toNat / y.toNat * y.toNat = x.toNat % y.toNat := by
    rw [Nat.mul_comm, ← Nat.mod_eq_sub_mul_div]
  rw [hmod]
  rfl

/-- Settles O52: the three cases of a quotient and of a remainder are those of `divOp_signed_cases` and
`remOp_signed_cases`; without a sign nothing overflows. -/
theorem divisionAndRemainder : Obligations.DivisionAndRemainder := by
  intro s d a b v x both
  have hboth {reg lit : Instr} {f : Word → Word → Word} {r : Word → Word} (hreg : exec reg s = binX 12 d a b (quietly f) s)
      (hlit : exec lit s = litX 12 d a v (quietly f) s) (h : ∀ y, f x y = r y) : both reg lit r :=
    binX_litX_quietly hreg hlit h
  clear_value both -- from here on a clause is matched by its arguments, not by its body
  exact ⟨hboth (exec_div ..) (exec_divLiteral ..) (divOp_signed_cases x),
    hboth (exec_div ..) (exec_divLiteral ..) fun _ => rfl,
    hboth (exec_rem ..) (exec_remLiteral ..) (remOp_signed_cases x),
    hboth (exec_rem ..) (exec_remLiteral ..) (remOp_unsigned_cases x)⟩

/-- Settles O1: a clamped sum is `clampTo_eq`, the upper half of a product one of `mulhiOp_s`, `mulhiOp_u` and `mulhiOp_su`,
quotients and remainders are the library's; all else is the operation as it stands. -/
theorem integerArithmeticResults : Obligations.IntegerArithmeticResults := by
  intro s d a b v i x z both
  have hboth {reg lit : Instr} {n : Nat} {f : Word → Word → Word × Flags} {r : Word → Word × Flags}
      (hreg : exec reg s = binX n d a b f s) (hlit : exec lit s = litX n d a v f s) (h : ∀ y, f x y = r y) : both reg lit n r :=
    binX_litX_free hreg hlit h
  have hquiet {reg lit : Instr} {n : Nat} {f : Word → Word → Word} {r : Word → Word}
      (hreg : exec reg s = binX n d a b (quietly f) s) (hlit : exec lit s = litX n d a v (quietly f) s)
      (h : ∀ y, f x y = r y) : both reg lit n fun y => (r y, 0) :=
    binX_litX_quietly hreg hlit h
  clear_value both
  exact ⟨hboth (exec_add ..) (exec_addLiteral ..) fun _ => rfl,
    hboth (exec_add ..) (exec_addLiteral ..) (addOp_sat x),
    hboth (exec_add ..) (exec_addLiteral ..) (addOp_usat x),
    hboth (exec_sub ..) (exec_subLiteral ..) fun _ => rfl,
    hboth (exec_sub ..) (exec_subLiteral ..) (subOp_sat x),
    hboth (exec_sub ..) (exec_subLiteral ..) (subOp_usat x),
    hquiet (exec_mul ..) (exec_mulLiteral ..) fun _ => rfl,
    hquiet (exec_mulhi ..) (exec_mulhiLiteral ..) (mulhiOp_s x),
    hquiet (exec_mulhi ..) (exec_mulhiLiteral ..) (mulhiOp_u x),
    hquiet (exec_mulhi ..) (exec_mulhiLiteral ..) (mulhiOp_su x),
    hquiet (exec_div ..) (exec_divLiteral ..) (divOp_signed x),
    hquiet (exec_div ..) (exec_divLiteral ..) (divOp_unsigned x),
    hquiet (exec_rem ..) (exec_remLiteral ..) (remOp_signed x),
    hquiet (exec_rem ..) (exec_remLiteral ..) (remOp_unsigned x),
    fun h => ⟨(exec_mad ..).trans (execMad_free false h), (exec_mad ..).trans (execMad_free true h)⟩,
    fun h => (exec_addi ..).trans (unX_free h)⟩

/-! Extremes, compares and predicates (R122, R127, R129). -/

theorem minOp_eq (x y : Word) :
    minOp false x y = (if y.toInt < x.toInt then y else x) ∧ minOp true x y = (if y.toNat < x.toNat then y else x) := by
  simp only [minOp, BitVec.slt, BitVec.ult, if_true, if_false, Bool.false_eq_true, decide_eq_true_eq, and_self]

theorem maxOp_eq (x y : Word) :
    maxOp false x y = (if x.toInt < y.toInt then y else x) ∧ maxOp true x y = (if x.toNat < y.toNat then y else x) := by
  simp only [maxOp, BitVec.slt, BitVec.ult, if_true, if_false, Bool.false_eq_true, decide_eq_true_eq, and_self]

theorem icond_ge (x y : Word) : icond .ge x y = decide (y.toInt ≤ x.toInt) := by
  simp only [icond, BitVec.slt, ← decide_not, Int.not_lt]

theorem icond_geu (x y : Word) : icond .geu x y = decide (y.toNat ≤ x.toNat) := by
  simp only [icond, BitVec.ult, ← decide_not, Nat.not_lt]

theorem allRows_eq (o : Bool) : allRows o = if o then -1 else 0 := by cases o <;> rfl

/-- Bits beyond the type's width do not matter to an f32 value (R121). -/
theorem f32Of_eq (w : Word) : f32Of w = tyValue .f32 (w.toNat % 2 ^ 32) :=
  congrArg fmtF32.value (Nat.mod_mod _ _).symm

theorem plogOp_getLsbD (t : BitVec 4) (q r : Mask) (hk : k < 32) :
    (plogOp t q r).getLsbD k = t.getLsbD (2 * (q.getLsbD k).toNat + (r.getLsbD k).toNat) := by
  have hrow (i : Nat) (m : Mask) : (if t.getLsbD i then m else 0).getLsbD k = (t.getLsbD i && m.getLsbD k) := by
    cases t.getLsbD i
    · exact BitVec.getLsbD_zero
    · rfl
  simp only [plogOp, BitVec.getLsbD_or, hrow, BitVec.getLsbD_and, BitVec.getLsbD_not, hk, decide_true, Bool.true_and]
  cases q.getLsbD k <;> cases r.getLsbD k <;>
    simp only [Bool.not_true, Bool.not_false, Bool.and_true, Bool.and_false, Bool.or_false, Bool.false_or, Bool.toNat_true,
      Bool.toNat_false, Nat.reduceMul, Nat.reduceAdd]

/-! Bit fields (R126). -/

/-- The field of `n + 1` bits from `pos` on, as a number. -/
theorem field_testBit (x : Word) (pos n j : Nat) :
    (x.toNat / 2 ^ pos % 2 ^ (n + 1)).testBit j = (decide (j < n + 1) && x.getLsbD (pos + j)) := by
  rw [Nat.testBit_mod_two_pow, Nat.testBit_div_two_pow, BitVec.testBit_toNat, Nat.add_comm j]

theorem field_lt (x : Word) (pos n : Nat) : x.toNat / 2 ^ pos % 2 ^ (n + 1) < 2 ^ (n + 1) := Nat.mod_lt _ (Nat.two_pow_pos _)

/-- A field is at least the weight of its top bit when that bit is set. -/
theorem two_pow_le_field (x : Word) (pos n : Nat) :
    x.toNat / 2 ^ pos % 2 ^ (n + 1) ≥ 2 ^ n ↔ x.getLsbD (pos + n) = true := by
  have htop := field_testBit x pos n n
  rw [decide_eq_true (Nat.lt_succ_self n), Bool.true_and] at htop
  rw [← htop]
  exact ⟨fun h => Nat.testBit_of_two_pow_le_and_two_pow_add_one_gt h (field_lt x pos n), Nat.ge_two_pow_of_testBit⟩

/-- Adding the ones above a number's width sets every bit from there on. -/
theorem testBit_add_ones {f : Nat} (hf : f < 2 ^ w) (hw : w ≤ 64) (hk : k < 64) :
    (f + (2 ^ 64 - 2 ^ w)).testBit k = if k < w then f.testBit k else true := by
  have hones : 2 ^ 64 - 2 ^ w = 2 ^ w * (2 ^ (64 - w) - 1) := by
    rw [Nat.mul_sub, ← Nat.pow_add, Nat.add_sub_of_le hw, Nat.mul_one]
  rw [hones, Nat.add_comm, Nat.testBit_two_pow_mul_add _ hf, Nat.testBit_two_pow_sub_one]
  exact ite_congr rfl (fun _ => rfl) fun h => decide_eq_true (by omega)

theorem bfxOp_getLsbD (sgn : Bool) (x : Word) (pos : Nat) (hn : n < 64) (hk : k < 64) :
    (bfxOp sgn pos (n + 1) x).getLsbD k =
      if k < n + 1 then x.getLsbD (pos + k) else sgn && x.getLsbD (pos + (n + 1) - 1) := by
  have hin (h : k < n + 1) : (x.toNat / 2 ^ pos % 2 ^ (n + 1)).testBit k = x.getLsbD (pos + k) := by
    rw [field_testBit, decide_eq_true h, Bool.true_and]
  have hout (h : ¬ k < n + 1) : (x.toNat / 2 ^ pos % 2 ^ (n + 1)).testBit k = false := by
    rw [field_testBit, decide_eq_false h, Bool.false_and]
  simp only [bfxOp, Nat.add_sub_cancel, two_pow_le_field, ← Nat.add_assoc, ← Bool.and_eq_true]
  rw [BitVec.getLsbD_ofNat, decide_eq_true hk, Bool.true_and]
  cases sgn && x.getLsbD (pos + n) with
  | true =>
    rw [if_pos rfl, testBit_add_ones (field_lt x pos n) hn hk]
    exact ite_congr rfl hin fun _ => rfl
  | false =>
    rw [if_neg Bool.false_ne_true]
    split
    · exact hin ‹_›
    · exact hout ‹_›

theorem bfiOp_getLsbD (pos w : Nat) (z x : Word) (hk : k < 64) : (bfiOp pos w z x).getLsbD k =
    if pos ≤ k ∧ k < pos + w then x.getLsbD (k - pos) else z.getLsbD k := by
  have hmask : (BitVec.ofNat 64 ((2 ^ w - 1) * 2 ^ pos)).getLsbD k = decide (pos ≤ k ∧ k < pos + w) := by
    rw [BitVec.getLsbD_ofNat, Nat.testBit_mul_two_pow, Nat.testBit_two_pow_sub_one, decide_eq_true hk, Bool.true_and,
      ← Bool.decide_and]
    exact decide_eq_decide.2 (by omega)
  simp only [bfiOp, BitVec.getLsbD_or, BitVec.getLsbD_and, BitVec.getLsbD_not, hmask, BitVec.getLsbD_shiftLeft]
  split
  case isTrue h =>
    simp only [h, and_self, hk, Nat.not_lt.2 h.1, decide_true, decide_false, Bool.not_true, Bool.not_false, Bool.and_false,
      Bool.and_true, Bool.true_and, Bool.false_or]
  case isFalse h => simp only [h, hk, decide_true, decide_false, Bool.not_false, Bool.and_true, Bool.and_false, Bool.or_false]

/-! Counts (R122). -/

/-- Of `w` bits the first `m` are zero, and the next is one unless these are all. -/
structure FirstOne (w : Nat) (bit : Nat → Bool) (m : Nat) : Prop where
  le : m ≤ w
  zeros : ∀ k < m, bit k = false
  one : m < w → bit m = true

theorem FirstOne.none (bit : Nat → Bool) : FirstOne 0 bit 0 :=
  ⟨Nat.le_refl 0, fun k hk => absurd hk (Nat.not_lt_zero k), fun h => absurd h (Nat.lt_irrefl 0)⟩

theorem FirstOne.here {bit : Nat → Bool} (h : bit 0 = true) : FirstOne w bit 0 :=
  ⟨Nat.zero_le w, fun k hk => absurd hk (Nat.not_lt_zero k), fun _ => h⟩

theorem FirstOne.later {bit : Nat → Bool} {m : Nat} (h : bit 0 = false) (hm : FirstOne w (fun k => bit (k + 1)) m) :
    FirstOne (w + 1) bit (m + 1) := by
  obtain ⟨hle, hzero, hone⟩ := hm
  refine ⟨Nat.succ_le_succ hle, fun k hk => ?_, fun hlt => hone (Nat.lt_of_succ_lt_succ hlt)⟩
  cases k with
  | zero => exact h
  | succ k => exact hzero k (Nat.lt_of_succ_lt_succ hk)

theorem leadingZeros_firstOne (w : Nat) (x : Word) : FirstOne w (fun k => x.getLsbD (w - 1 - k)) (leadingZeros w x) := by
  induction w with
  | zero => exact .none _
  | succ w ih =>
    rw [leadingZeros]
    split
    · exact .here ‹_›
    · refine .later (eq_false_of_ne_true ‹_›) ?_
      simpa only [Nat.add_sub_cancel, Nat.sub_sub, Nat.add_comm 1] using ih

theorem trailingZeros_firstOne (w i : Nat) (x : Word) : FirstOne w (fun k => x.getLsbD (i + k)) (trailingZeros w i x) := by
  induction w generalizing i with
  | zero => exact .none _
  | succ w ih =>
    rw [trailingZeros]
    split
    · exact .here ‹_›
    · refine .later (eq_false_of_ne_true ‹_›) ?_
      simpa only [Nat.add_assoc, Nat.add_comm 1] using ih (i + 1)

theorem ones_eq_countP (w : Nat) (x : Word) : ones w x = (List.range w).countP x.getLsbD := by
  induction w with
  | zero => rfl
  | succ w ih =>
    rw [ones, ih, List.range_succ, List.countP_append, List.countP_singleton]
    cases x.getLsbD w <;> rfl

/-! Shifts (R122, R123). -/

theorem shift_reg_free {f : Word → Nat → Word} (h : Free s { x := [a, b] } { x := [d] }) :
    shift d a (.reg b) f s = .next (xNext s 1 d (f (s.core.rx a) ((s.core.rx b).toNat % 64))) := binX_free h

theorem shift_imm_free {f : Word → Nat → Word} {i : Fin 64} (h : Free s { x := [a] } { x := [d] }) :
    shift d a (.imm i) f s = .next (xNext s 1 d (f (s.core.rx a) i.val)) :=
  unX_free (f := (f · i.val)) h

/-! Comparisons set every bit of the predicate (R127). -/

theorem execCmp_free {c : Cond} {p : PReg} (h : Free s { x := [a, b] } { p := [p] }) : execCmp c p a b s =
    .next (pNext s 1 p (if condOf c (s.core.rx a) (s.core.rx b) then -1 else 0)) := by
  rw [execCmp, issue_free h, State.resP_eq, allRows_eq]

theorem execCmpLiteral_free {c : Cond} {p : PReg} (h : Free s { x := [a] } { p := [p] }) : execCmpLiteral c p a v s =
    .next (pNext s 1 p (if condOf c (s.core.rx a) v then -1 else 0)) := by
  rw [execCmpLiteral, issue_free h, State.resP_eq, allRows_eq]

theorem execCmpi_free {c : ICond} {p : PReg} {i : BitVec 11} (h : Free s { x := [a] } { p := [p] }) : execCmpi c p a i s =
    .next (pNext s 1 p (if icond c (s.core.rx a) (i.signExtend 64) then -1 else 0)) := by
  rw [execCmpi, issue_free h, State.resP_eq, allRows_eq]
  rfl

theorem execPlogFromx_free {p : PReg} (h : Free s { x := [a] } { p := [p] }) :
    execPlogFromx p a s = .next (pNext s 1 p ((s.core.rx a).extractLsb' 0 32)) := by
  rw [execPlogFromx, issue_free h, State.resP_eq, BitVec.truncate_eq_setWidth, BitVec.setWidth_eq_extractLsb' (by decide)]

/-- Settles O2: fields are read bit by bit by `bfxOp_getLsbD` and `bfiOp_getLsbD`, a count of zeros ends at the `FirstOne`, counts
of ones are `ones_eq_countP`, and a truth table is read by `plogOp_getLsbD`. -/
theorem bitFieldAndPredicateResults : Obligations.BitFieldAndPredicateResults := by
  refine ⟨?_, ?_⟩
  · intro s d a b p v i sh pos wid wid32 sgn x z both field insert count
    have hboth {reg lit : Instr} {f : Word → Word → Word} {r : Word → Word} (hreg : exec reg s = binX 1 d a b (quietly f) s)
        (hlit : exec lit s = litX 1 d a v (quietly f) s) (h : ∀ y, f x y = r y) : both reg lit r :=
      binX_litX_quietly hreg hlit h
    have hcount {f : ClzFn} {w m : Nat} {bit : Nat → Nat} (h : Free s { x := [a] } { x := [d] })
        (hop : clzOp f x = BitVec.ofNat 64 m) (hm : FirstOne w (fun k => x.getLsbD (bit k)) m) : count (.clz f d a) w bit := by
      obtain ⟨hle, hzero, hone⟩ := hm
      exact ⟨m, hle, hop ▸ (exec_clz ..).trans (unX_free h), hzero, hone⟩
    have htrailing (w : Nat) : FirstOne w (fun k => x.getLsbD (id k)) (trailingZeros w 0 x) := by
      simpa only [Nat.zero_add, id] using trailingZeros_firstOne w 0 x
    clear_value both
    exact ⟨hboth (exec_and ..) (exec_andLiteral ..) fun _ => rfl, hboth (exec_and ..) (exec_andLiteral ..) fun _ => rfl,
      hboth (exec_or ..) (exec_orLiteral ..) fun _ => rfl, hboth (exec_or ..) (exec_orLiteral ..) fun _ => rfl,
      hboth (exec_xor ..) (exec_xorLiteral ..) fun _ => rfl, hboth (exec_xor ..) (exec_xorLiteral ..) fun _ => rfl,
      hboth (exec_min ..) (exec_minLiteral ..) fun y => (minOp_eq x y).1,
      hboth (exec_min ..) (exec_minLiteral ..) fun y => (minOp_eq x y).2,
      hboth (exec_max ..) (exec_maxLiteral ..) fun y => (maxOp_eq x y).1,
      hboth (exec_max ..) (exec_maxLiteral ..) fun y => (maxOp_eq x y).2,
      fun h => ⟨(exec_shl ..).trans (shift_reg_free h), (exec_shr ..).trans (shift_reg_free h),
        (exec_sar ..).trans (shift_reg_free h)⟩,
      fun h => ⟨(exec_shl ..).trans (shift_imm_free h), (exec_shr ..).trans (shift_imm_free h),
        (exec_sar ..).trans (shift_imm_free h),
        ⟨_, (exec_bfx ..).trans (unX_free h), fun _ hk => bfxOp_getLsbD false x pos (by omega) hk⟩,
        ⟨_, (exec_bfxExtended ..).trans (unX_free h), fun _ hk => bfxOp_getLsbD sgn x pos wid.isLt hk⟩,
        hcount h rfl (leadingZeros_firstOne 64 x), hcount h rfl (leadingZeros_firstOne 32 x),
        hcount h rfl (htrailing 64), hcount h rfl (htrailing 32),
        ones_eq_countP 64 x ▸ (exec_popc ..).trans (unX_free h), ones_eq_countP 32 x ▸ (exec_popc ..).trans (unX_free h)⟩,
      fun h => ⟨⟨_, (exec_bfi ..).trans (binX_free h), fun _ hk => bfiOp_getLsbD pos _ z x hk⟩,
        ⟨_, (exec_bfiExtended ..).trans (binX_free h), fun _ hk => bfiOp_getLsbD pos _ z x hk⟩⟩,
      fun h => (exec_sel ..).trans (issue_free h _),
      fun h => ⟨(exec_li ..).trans (issue_free h _), (exec_liLiteral ..).trans (issue_free h _)⟩,
      fun h => (exec_plogTox ..).trans (issue_free h _)⟩
  · intro s p q r a b v i t x all f32 cond onInt
    have hcond {c : Cond} {o : Word → Bool} (h : ∀ y, condOf c x y = o y) : cond c o :=
      ⟨fun hf => h _ ▸ (exec_cmp ..).trans (execCmp_free hf),
        fun hf => h _ ▸ (exec_cmpLiteral ..).trans (execCmpLiteral_free hf)⟩
    have hint {c : ICond} {o : Word → Bool} (h : ∀ y, icond c x y = o y) : onInt c o :=
      ⟨hcond h, fun hf => h _ ▸ (exec_cmpi ..).trans (execCmpi_free hf)⟩
    clear_value onInt cond
    have hflt (c : FCond) : cond (.flt c) fun y => fcond c (f32 x) (f32 y) :=
      hcond fun y => by rw [condOf, f32Of_eq, f32Of_eq]
    exact ⟨hint fun _ => rfl, hint fun _ => rfl, hint fun _ => rfl, hint (icond_ge x), hint fun _ => rfl, hint (icond_geu x),
      hflt .feq, hflt .fne, hflt .flt, hflt .fle, hflt .fun_,
      fun h => ⟨_, (exec_plog ..).trans (issue_free h _), fun _ hk => plogOp_getLsbD t _ _ hk⟩,
      fun h => (exec_plogFromx ..).trans (execPlogFromx_free h)⟩

/-! Floating results (R133, R135 to R137). -/

theorem resElt_eq (s : State) (d : XReg) (t : Ty) (h : How) (e : Elt) : s.resElt d t h e = .next (eltNext s d t h e) := rfl

theorem sfop_free (f : SfFn) (t : Ty) (rm : Rm) (h : Free s { x := if f.oneOperand then [a] else [a, b] } { x := [d] }) :
    sfop f t rm d a b s = .next (eltNext s d t (s.core.how rm)
      (sfOp f t (s.core.how rm) (lowBits t (s.core.rx a)) (lowBits t (s.core.rx b)))) := by
  rw [sfop, issue_free h, resElt_eq]

theorem sfma_free (neg sub : Bool) (t : Ty) (rm : Rm) (h : Free s { x := [a, b, d] } { x := [d] }) :
    sfma neg sub t rm d a b s = .next (eltNext s d t (s.core.how rm) (fmaOp neg sub t (s.core.how rm) 0 0
      (lowBits t (s.core.rx a)) (lowBits t (s.core.rx b)) (lowBits t (s.core.rx d)))) := by
  rw [sfma, issue_free h, resElt_eq]

theorem scvt_free (u v : Ty) (sat : Bool) (rm : Rm) (h : Free s { x := [a] } { x := [d] }) :
    scvt u v sat rm d a s = .next (eltNext s d u (s.core.how rm)
      (eltConvert u v sat (s.core.how rm) 0 0 (lowBits v (s.core.rx a)))) := by
  rw [scvt, issue_free h, resElt_eq]

/-- Settles O3: each instruction runs `sfop`, `sfma` or `scvt` at its type and rounding field; the result of each function is
its case of `sfOp`. -/
theorem scalarFloatResults : Obligations.ScalarFloatResults := by
  intro s d a b ty rm neg sub sat u v run
  have hrun {t : Ty} {rm : Rm} {op : SfFn → Instr} {fma : Instr} (hop : ∀ f, exec (op f) s = sfop f t rm d a b s)
      (hfma : exec fma s = sfma neg sub t rm d a b s) : run t rm op fma := by
    have hsf (f : SfFn) (h : Free s { x := if f.oneOperand then [a] else [a, b] } { x := [d] }) :=
      (hop f).trans (sfop_free f t rm h)
    exact ⟨hsf .add, hsf .sub, hsf .mul, hsf .div, hsf .min, hsf .max, hsf .rcp, hsf .sqrt, hsf .rsqrt, hsf .exp2, hsf .log2,
      hsf .abs, hsf .neg, hsf .cls, fun h => hfma.trans (sfma_free neg sub t rm h)⟩
  clear_value run
  exact ⟨hrun (fun _ => exec_sfop ..) (exec_sfma ..), hrun (fun _ => exec_sfopExtended ..) (exec_sfmaExtended ..),
    fun h => ⟨(exec_scvt ..).trans (scvt_free u v sat .frm h), (exec_scvtExtended ..).trans (scvt_free u v sat rm h)⟩⟩

end Sys2Proof.Proofs.Scalars
end
